-- ==== Sys2Proof/Word.lean ====
section
/-! DEFINITION. Word.lean: the plain word types of the model (00, R7, R13). -/
namespace Sys2Proof

/-- A byte of any memory of the device (R8). -/
abbrev Byte := BitVec 8

/-- A 32-bit Quay register word (R13). -/
abbrev Word := BitVec 32

end Sys2Proof
end

