-- ==== Sys2Proof/Syntax.lean ====
section
/-! DEFINITION. Syntax.lean: the commands the block takes, one constructor per row of spec/opcode_table.json, with the
operands of the row: for an event of the outside world, what that event carries (a level, a code, the bytes read). -/
namespace Sys2Proof

/-- A port of the Causeway (17, R549). -/
inductive PortId where
  | up | dn
  deriving DecidableEq, Repr

/-- Units that a partial reset may take out of service (04, R167, R168). -/
inductive ResetUnit where
  | core (c : Fin 4) | stem | adc | port (p : PortId)
  deriving DecidableEq, Repr

/-- Where a core met an uncorrectable error (19, R602, R605). -/
inductive ErrorSource where
  | harbour | scratch | weights | retain | imem | acc
  deriving DecidableEq, Repr

/-- What the flash answers to the probe of the boot (04, R145, R146): whether it answers at all, the modes and address
widths its SFDP lists, and the 64 header bytes it returns in each of the two reads a probe may make. -/
structure FlashReply where
  /-- the flash answers SFDP -/
  present : Bool := false
  /-- its SFDP is well formed -/
  sfdpOk : Bool := true
  /-- its SFDP lists 1S-4S-4S -/
  quad : Bool := false
  /-- its SFDP lists 8D-8D-8D -/
  octal : Bool := false
  /-- its SFDP lists a size above 16 MiB, so four address bytes -/
  addr4 : Bool := false
  /-- the header bytes read in the mode chosen -/
  header : List Byte := []
  deriving DecidableEq, Repr

/-- A packet of the Causeway link (17, R559, R560). -/
structure Packet where
  /-- TYPE (R560) -/
  type : Nat := 0
  /-- FIRST (R559, R562) -/
  first : Bool := true
  /-- LAST (R559, R562) -/
  last : Bool := true
  /-- destination chip (R559) -/
  dest : Nat := 0
  /-- source chip (R559) -/
  src : Nat := 0
  /-- source core TC0–TC3 (R559) -/
  core : Nat := 0
  /-- LINES (R559) -/
  lines : Nat := 0
  /-- STATUS of a response: 0 OK, 1 REFUSED (R561) -/
  status : Nat := 0
  /-- WATCH (R559) -/
  watch : Nat := 0
  /-- ARG (R560) -/
  arg : Nat := 0
  /-- TXN (R559) -/
  txn : Nat := 0
  /-- payload bytes: lines of 66 bytes or 4 bytes of a word (R560) -/
  payload : List Byte := []
  deriving DecidableEq, Repr

/-- A training set: the argument of TS1 and TS2 (17, R556). -/
structure TrainSet where
  /-- EPOCH -/
  epoch : Nat := 0
  /-- EPOCH_VALID -/
  epochValid : Bool := false
  /-- CHIP -/
  chip : Nat := 0
  /-- CHIP_VALID -/
  chipValid : Bool := false
  /-- ROLE -/
  role : Nat := 0
  /-- RESUME -/
  resume : Bool := false
  deriving DecidableEq, Repr

/-- The commands of the block: one constructor for each row of spec/opcode_table.json, in the table's order, those that carry
operands first (Lean's compiler numbers at most 244 of these) and those that carry none after them. -/
inductive Instr where
  /-- READ (R630) -/
  | read (timed : Bool) (addr : BitVec 16) (n : Nat)
  /-- WRITE (R633) -/
  | write (timed : Bool) (addr : BitVec 16) (words : List Word) (extra : Nat)
  /-- STREAM (R642) -/
  | stream (timed : Bool) (addr : BitVec 16) (first last : Bool) (bits : Nat)
  /-- UNKNOWN_COMMAND (R629) -/
  | unknownCommand (timed : Bool) (cmd : BitVec 8)
  /-- I2C_WRITE_TRANSFER (R636) -/
  | i2cWriteTransfer (target : BitVec 7) (addr : BitVec 16) (bytes : List Byte)
  /-- I2C_READ_TRANSFER (R636) -/
  | i2cReadTransfer (target : BitVec 7) (addr : Option (BitVec 16)) (n : Nat)
  /-- I2C_STREAM_READ (R644) -/
  | i2cStreamRead (target : BitVec 7) (addr : Option (BitVec 16)) (first last : Bool) (clocks : Nat)
  /-- REGISTER_WRITE (R634) -/
  | registerWrite (addr : BitVec 16) (v : Word)
  /-- SYS_SOFT_RESET (R160) -/
  | sysSoftReset (v : Word)
  /-- SYS_ALARM (R721) -/
  | sysAlarm (v : Word)
  /-- SYS_LOG_CTRL (R626) -/
  | sysLogCtrl (v : Word)
  /-- OBX_POP (R644) -/
  | obxPop (v : Word)
  /-- OBX_IRQ (R637) -/
  | obxIrq (v : Word)
  /-- OBX_IRQ_STATUS (R637) -/
  | obxIrqStatus (v : Word)
  /-- MBX_STATUS (R654) -/
  | mbxStatus (v : Word)
  /-- CHG_INHIBIT (R100) -/
  | chgInhibit (v : Word)
  /-- CLK_CAP (R724) -/
  | clkCap (v : Word)
  /-- CAP_MISMATCH (R130) -/
  | capMismatch (v : Word)
  /-- GPIO_OUT (R676) -/
  | gpioOut (v : Word)
  /-- GPIO_OE (R676) -/
  | gpioOe (v : Word)
  /-- GPIO_PIN (R677) -/
  | gpioPin (p : Fin 24) (v : Word)
  /-- GPIO_PILSEL (R673) -/
  | gpioPilsel (v : Word)
  /-- GPIO_PILCFG (R673) -/
  | gpioPilcfg (v : Word)
  /-- GPIO_PIL_STATUS (R671) -/
  | gpioPilStatus (v : Word)
  /-- GPIO_ALARM_STATUS (R666) -/
  | gpioAlarmStatus (v : Word)
  /-- ADC_IEPE (R309) -/
  | adcIepe (v : Word)
  /-- FORCE_AWAKE (R582) -/
  | forceAwake (v : Word)
  /-- OTP_LOCK_RD (R210) -/
  | otpLockRd (v : Word)
  /-- OTP_LOCK_WR (R210) -/
  | otpLockWr (v : Word)
  /-- OTP_READ_ADDR (R758) -/
  | otpReadAddr (v : Word)
  /-- LEARN (R702) -/
  | learn (v : Word)
  /-- PIX_SENT_CFG (R281) -/
  | pixSentCfg (v : Word)
  /-- OTP_WORD_PROGRAMMED (R201) -/
  | otpWordProgrammed (normal high : BitVec 39)
  /-- FATAL (R619) -/
  | fatal (code : Nat)
  /-- THERMAL_RESET_END (R129) -/
  | thermalResetEnd (temp : Int)
  /-- RESET_RELEASE (R143) -/
  | resetRelease (straps : BitVec 4)
  /-- FLASH_PROBE (R145) -/
  | flashProbe (reply : FlashReply)
  /-- MANIFEST_CHECK (R251) -/
  | manifestCheck (bytes : List Byte)
  /-- MANIFEST_REREAD (R761) -/
  | manifestReread (bytes : List Byte)
  /-- RECORD_COPY (R233) -/
  | recordCopy (bytes : List Byte)
  /-- RECORD_RECOPY (R147) -/
  | recordRecopy (bytes : List Byte)
  /-- HARBOUR_BANK_POWER_UP (R757) -/
  | harbourBankPowerUp (bank : Fin 32)
  /-- RESERVOIR_SAMPLE (R96) -/
  | reservoirSample (rsvMv vbatMv : Nat)
  /-- VBAT_SAMPLE (R97) -/
  | vbatSample (vbatMv : Nat)
  /-- TEMP_SAMPLE (R124) -/
  | tempSample (coarse : Int)
  /-- ADMISSION_REQUEST (R106) -/
  | admissionRequest (watch : Nat)
  /-- METER_CHARGE (R110) -/
  | meterCharge (us c0 c1 c2 c3 : Nat)
  /-- ADMIT_TIMEOUT (R57) -/
  | admitTimeout (watch : Nat)
  /-- INPUT_ACQUIRE (R60) -/
  | inputAcquire (watch : Nat)
  /-- GROUP_RELEASE (R63) -/
  | groupRelease (watch : Nat)
  /-- SCRUB (R606) -/
  | scrub (lines : Nat) (single double : List Nat)
  /-- EXPOSURE_END (R259) -/
  | exposureEnd (period : Nat)
  /-- PIXEL_ROW (R272) -/
  | pixelRow (black raw : List Nat)
  /-- SENTINEL_FRAME (R282) -/
  | sentinelFrame (rows : List (List Nat))
  /-- ADC_BANDGAP_CHECK (R308) -/
  | adcBandgapCheck (sum : Nat)
  /-- ADC_BLOCK_COMPLETE (R306) -/
  | adcBlockComplete (chain : Fin 4) (first : Nat) (clocks : List (Int × Bool))
  /-- CAL_MEASUREMENT_DONE (R311) -/
  | calMeasurementDone (sum : Int) (ovr : Bool)
  /-- PARTIAL_RESET_RELEASE (R168) -/
  | partialResetRelease (unit : ResetUnit)
  /-- DRAIN_TIMEOUT (R171) -/
  | drainTimeout (unit : ResetUnit)
  /-- BUNDLE_ISSUE (R355) -/
  | bundleIssue (core : Fin 4)
  /-- BR (R400) -/
  | br (core : Fin 4) (w imm : BitVec 64)
  /-- BRS (R400) -/
  | brs (core : Fin 4) (w imm : BitVec 64)
  /-- LOOP (R370) -/
  | loop (core : Fin 4) (w imm : BitVec 64)
  /-- HALT (R372) -/
  | halt (core : Fin 4) (w imm : BitVec 64)
  /-- ADD (R401) -/
  | add (core : Fin 4) (w imm : BitVec 64)
  /-- SUB (R401) -/
  | sub (core : Fin 4) (w imm : BitVec 64)
  /-- MUL (R401) -/
  | mul (core : Fin 4) (w imm : BitVec 64)
  /-- MULH (R401) -/
  | mulh (core : Fin 4) (w imm : BitVec 64)
  /-- MULHU (R401) -/
  | mulhu (core : Fin 4) (w imm : BitVec 64)
  /-- AND (R401) -/
  | and (core : Fin 4) (w imm : BitVec 64)
  /-- OR (R401) -/
  | or (core : Fin 4) (w imm : BitVec 64)
  /-- XOR (R401) -/
  | xor (core : Fin 4) (w imm : BitVec 64)
  /-- SHL (R401) -/
  | shl (core : Fin 4) (w imm : BitVec 64)
  /-- SHR (R401) -/
  | shr (core : Fin 4) (w imm : BitVec 64)
  /-- SRA (R401) -/
  | sra (core : Fin 4) (w imm : BitVec 64)
  /-- MIN (R401) -/
  | min (core : Fin 4) (w imm : BitVec 64)
  /-- MAX (R401) -/
  | max (core : Fin 4) (w imm : BitVec 64)
  /-- MINU (R401) -/
  | minu (core : Fin 4) (w imm : BitVec 64)
  /-- MAXU (R401) -/
  | maxu (core : Fin 4) (w imm : BitVec 64)
  /-- MOV (R401) -/
  | mov (core : Fin 4) (w imm : BitVec 64)
  /-- CMPEQ (R401) -/
  | cmpeq (core : Fin 4) (w imm : BitVec 64)
  /-- CMPNE (R401) -/
  | cmpne (core : Fin 4) (w imm : BitVec 64)
  /-- CMPLT (R401) -/
  | cmplt (core : Fin 4) (w imm : BitVec 64)
  /-- CMPLE (R401) -/
  | cmple (core : Fin 4) (w imm : BitVec 64)
  /-- CMPLTU (R401) -/
  | cmpltu (core : Fin 4) (w imm : BitVec 64)
  /-- CMPLEU (R401) -/
  | cmpleu (core : Fin 4) (w imm : BitVec 64)
  /-- PAND (R401) -/
  | pand (core : Fin 4) (w imm : BitVec 64)
  /-- PXOR (R401) -/
  | pxor (core : Fin 4) (w imm : BitVec 64)
  /-- PNOT (R401) -/
  | pnot (core : Fin 4) (w imm : BitVec 64)
  /-- MFA (R401) -/
  | mfa (core : Fin 4) (w imm : BitVec 64)
  /-- RDFL (R401) -/
  | rdfl (core : Fin 4) (w imm : BitVec 64)
  /-- LCRD (R401) -/
  | lcrd (core : Fin 4) (w imm : BitVec 64)
  /-- AADD (R402) -/
  | aadd (core : Fin 4) (w imm : BitVec 64)
  /-- AMADD (R402) -/
  | amadd (core : Fin 4) (w imm : BitVec 64)
  /-- AMOV (R402) -/
  | amov (core : Fin 4) (w imm : BitVec 64)
  /-- AMOVS (R402) -/
  | amovs (core : Fin 4) (w imm : BitVec 64)
  /-- LD (R403) -/
  | ld (core : Fin 4) (w imm : BitVec 64)
  /-- ST (R403) -/
  | st (core : Fin 4) (w imm : BitVec 64)
  /-- LDTAG (R403) -/
  | ldtag (core : Fin 4) (w imm : BitVec 64)
  /-- STTAG (R403) -/
  | sttag (core : Fin 4) (w imm : BitVec 64)
  /-- COPY_IN (R382) -/
  | copyIn (core : Fin 4) (w imm : BitVec 64)
  /-- COPY_OUT (R379) -/
  | copyOut (core : Fin 4) (w imm : BitVec 64)
  /-- STREAM_FETCH (R246) -/
  | streamFetch (core : Fin 4) (w imm : BitVec 64)
  /-- IMEM (R365) -/
  | imem (core : Fin 4) (w imm : BitVec 64)
  /-- DMA_COMPLETE (R380) -/
  | dmaComplete (core : Fin 4) (n : Nat) (block reread : List Byte)
  /-- MM (R407) -/
  | mm (core : Fin 4) (w imm : BitVec 64)
  /-- CONV (R408) -/
  | conv (core : Fin 4) (w imm : BitVec 64)
  /-- ACLR (R405) -/
  | aclr (core : Fin 4) (w imm : BitVec 64)
  /-- VADD (R412) -/
  | vadd (core : Fin 4) (w imm : BitVec 64)
  /-- VSUB (R412) -/
  | vsub (core : Fin 4) (w imm : BitVec 64)
  /-- VMUL (R412) -/
  | vmul (core : Fin 4) (w imm : BitVec 64)
  /-- VMLA (R481) -/
  | vmla (core : Fin 4) (w imm : BitVec 64)
  /-- VMIN (R412) -/
  | vmin (core : Fin 4) (w imm : BitVec 64)
  /-- VMAX (R412) -/
  | vmax (core : Fin 4) (w imm : BitVec 64)
  /-- VABS (R412) -/
  | vabs (core : Fin 4) (w imm : BitVec 64)
  /-- VNEG (R412) -/
  | vneg (core : Fin 4) (w imm : BitVec 64)
  /-- VAND (R412) -/
  | vand (core : Fin 4) (w imm : BitVec 64)
  /-- VOR (R412) -/
  | vor (core : Fin 4) (w imm : BitVec 64)
  /-- VXOR (R412) -/
  | vxor (core : Fin 4) (w imm : BitVec 64)
  /-- VSHL (R412) -/
  | vshl (core : Fin 4) (w imm : BitVec 64)
  /-- VSHR (R412) -/
  | vshr (core : Fin 4) (w imm : BitVec 64)
  /-- VSRA (R412) -/
  | vsra (core : Fin 4) (w imm : BitVec 64)
  /-- VADDSAT (R412) -/
  | vaddsat (core : Fin 4) (w imm : BitVec 64)
  /-- VCMPEQ (R412) -/
  | vcmpeq (core : Fin 4) (w imm : BitVec 64)
  /-- VCMPLT (R412) -/
  | vcmplt (core : Fin 4) (w imm : BitVec 64)
  /-- VCMPLE (R412) -/
  | vcmple (core : Fin 4) (w imm : BitVec 64)
  /-- VCVTIF (R412) -/
  | vcvtif (core : Fin 4) (w imm : BitVec 64)
  /-- VCVTFI (R412) -/
  | vcvtfi (core : Fin 4) (w imm : BitVec 64)
  /-- VPERM (R412) -/
  | vperm (core : Fin 4) (w imm : BitVec 64)
  /-- VBCAST (R412) -/
  | vbcast (core : Fin 4) (w imm : BitVec 64)
  /-- VRED (R412) -/
  | vred (core : Fin 4) (w imm : BitVec 64)
  /-- VMOVS (R412) -/
  | vmovs (core : Fin 4) (w imm : BitVec 64)
  /-- VLD (R413) -/
  | vld (core : Fin 4) (w imm : BitVec 64)
  /-- VST (R413) -/
  | vst (core : Fin 4) (w imm : BitVec 64)
  /-- RQA (R415) -/
  | rqa (core : Fin 4) (w imm : BitVec 64)
  /-- RQV (R415) -/
  | rqv (core : Fin 4) (w imm : BitVec 64)
  /-- POOL (R444) -/
  | pool (core : Fin 4) (w imm : BitVec 64)
  /-- GPOOL (R445) -/
  | gpool (core : Fin 4) (w imm : BitVec 64)
  /-- CROP (R449) -/
  | crop (core : Fin 4) (w imm : BitVec 64)
  /-- FENCE_CORE (R537) -/
  | fenceCore (core : Fin 4) (w imm : BitVec 64)
  /-- FENCE_CHIP (R537) -/
  | fenceChip (core : Fin 4) (w imm : BitVec 64)
  /-- FENCE_SYS (R575) -/
  | fenceSys (core : Fin 4) (w imm : BitVec 64)
  /-- ACQ_CHIP (R537) -/
  | acqChip (core : Fin 4) (w imm : BitVec 64)
  /-- ACQ_SYS (R537) -/
  | acqSys (core : Fin 4) (w imm : BitVec 64)
  /-- LDW (R419) -/
  | ldw (core : Fin 4) (w imm : BitVec 64)
  /-- STW (R419) -/
  | stw (core : Fin 4) (w imm : BitVec 64)
  /-- ATADD (R542) -/
  | atadd (core : Fin 4) (w imm : BitVec 64)
  /-- ATMIN (R542) -/
  | atmin (core : Fin 4) (w imm : BitVec 64)
  /-- ATMAX (R542) -/
  | atmax (core : Fin 4) (w imm : BitVec 64)
  /-- ATSWAP (R542) -/
  | atswap (core : Fin 4) (w imm : BitVec 64)
  /-- ATCAS (R419) -/
  | atcas (core : Fin 4) (w imm : BitVec 64)
  /-- EVWAIT (R422) -/
  | evwait (core : Fin 4) (w imm : BitVec 64)
  /-- HEAD (R539) -/
  | head (core : Fin 4) (w imm : BitVec 64)
  /-- CKPT (R386) -/
  | ckpt (core : Fin 4) (w imm : BitVec 64)
  /-- EPUB (R423) -/
  | epub (core : Fin 4) (w imm : BitVec 64)
  /-- EWAIT (R578) -/
  | ewait (core : Fin 4) (w imm : BitVec 64)
  /-- WAIT_TIMEOUT (R391) -/
  | waitTimeout (core : Fin 4)
  /-- UNCORRECTABLE_ERROR (R609): the memory, the address in it, and the slot and bundle that take the error (R623) -/
  | uncorrectableError (core : Fin 4) (src : ErrorSource) (addr : Nat) (slot : Fin 16) (pc : BitVec 12)
  /-- PIN_INTERRUPT_EVENT (R671) -/
  | pinInterruptEvent (pads : BitVec 24) (rise fall : BitVec 8)
  /-- CW_WAKE (R583) -/
  | cwWake (asserted : Bool)
  /-- LINK_TRAINED (R557) -/
  | linkTrained (port : PortId)
  /-- TRAINING_TIMEOUT (R558) -/
  | trainingTimeout (port : PortId)
  /-- TRAINING_RETRY (R558) -/
  | trainingRetry (port : PortId)
  /-- TS1 (R557) -/
  | ts1 (port : PortId) (t : TrainSet)
  /-- TS2 (R557) -/
  | ts2 (port : PortId) (t : TrainSet)
  /-- ACK_CONTROL_WORD (R565) -/
  | ackControlWord (port : PortId) (seq : BitVec 12)
  /-- NAK (R565) -/
  | nak (port : PortId) (seq : BitVec 12)
  /-- CREDIT (R566) -/
  | credit (port : PortId) (vc : Fin 3) (units : Nat)
  /-- SLEEP_REQ (R582) -/
  | sleepReq (port : PortId)
  /-- SLEEP_ACK (R582) -/
  | sleepAck (port : PortId)
  /-- SLEEP_NAK (R582) -/
  | sleepNak (port : PortId)
  /-- SLEEP_IDLE (R582) -/
  | sleepIdle (port : PortId)
  /-- ACK_DEADLINE (R564) -/
  | ackDeadline (port : PortId)
  /-- RETRANSMIT_TIMEOUT (R565) -/
  | retransmitTimeout (port : PortId)
  /-- LANE_LOCK_LOSS (R565) -/
  | laneLockLoss (port : PortId)
  /-- TRANSIT_TIMEOUT (R570) -/
  | transitTimeout (port : PortId)
  /-- FLUSH_TIMEOUT (R573) -/
  | flushTimeout (core : Fin 4) (chip : Fin 16)
  /-- WR (R562) -/
  | wr (port : PortId) (seq : BitVec 12) (epoch : BitVec 8) (p : Packet)
  /-- WRW (R561) -/
  | wrw (port : PortId) (seq : BitVec 12) (epoch : BitVec 8) (p : Packet)
  /-- RD (R562) -/
  | rd (port : PortId) (seq : BitVec 12) (epoch : BitVec 8) (p : Packet)
  /-- RDW (R561) -/
  | rdw (port : PortId) (seq : BitVec 12) (epoch : BitVec 8) (p : Packet)
  /-- MARKER (R577) -/
  | marker (port : PortId) (seq : BitVec 12) (epoch : BitVec 8) (p : Packet)
  /-- FLUSH (R574) -/
  | flush (port : PortId) (seq : BitVec 12) (epoch : BitVec 8) (p : Packet)
  /-- ACK (R561) -/
  | ack (port : PortId) (seq : BitVec 12) (epoch : BitVec 8) (p : Packet)
  /-- RD_DATA (R561) -/
  | rdData (port : PortId) (seq : BitVec 12) (epoch : BitVec 8) (p : Packet)
  /-- RDW_DATA (R561) -/
  | rdwData (port : PortId) (seq : BitVec 12) (epoch : BitVec 8) (p : Packet)
  /-- FLUSH_DONE (R573) -/
  | flushDone (port : PortId) (seq : BitVec 12) (epoch : BitVec 8) (p : Packet)
  /-- MSG (R580) -/
  | msg (port : PortId) (seq : BitVec 12) (epoch : BitVec 8) (p : Packet)
  /-- NOTICE (R572) -/
  | notice (port : PortId) (seq : BitVec 12) (epoch : BitVec 8) (p : Packet)
  /-- CHAIN (R551) -/
  | chain (port : PortId) (seq : BitVec 12) (epoch : BitVec 8) (p : Packet)
  /-- STRAND_UNIT_WRITTEN (R684) -/
  | strandUnitWritten (same : Bool)
  /-- QUAY_READ (R744) -/
  | quayRead (addr : Word)
  /-- QUAY_WRITE (R744) -/
  | quayWrite (addr data : Word)
  /-- MEM_READ (R745) -/
  | memRead (addr : Word)
  /-- MEM_WRITE (R745) -/
  | memWrite (addr data : Word)
  /-- OTP_ARG (R744) -/
  | otpArg (addr data : Word)
  /-- OTP_EXEC (R747) -/
  | otpExec (addr : Word)
  /-- DAP_RESERVED_OP (R744) -/
  | dapReservedOp (op : BitVec 4) (addr data : Word)
  /-- BYPASS (R743) -/
  | bypass (code : BitVec 4)
  /-- POR_SYLLABLE (R401) -/
  | porSyllable (core : Fin 4) (w imm : BitVec 64)
  /-- LANE_PLL_LOCKED (R557) -/
  | lanePllLocked (port : PortId)
  /-- RECEIVER_ALIGNED (R557) -/
  | receiverAligned (port : PortId)
  /-- TS1_SEND (R557) -/
  | ts1Send (port : PortId)
  /-- CRC_ERROR (R564) -/
  | crcError (port : PortId)
  /-- CODE_ERROR (R556) -/
  | codeError (port : PortId) (control : Bool) (inWindow : Nat)
  /-- HARBOUR_WORD_ACCESS_DONE (R374) -/
  | harbourWordAccessDone (core : Fin 4)
  /-- HOST_IRQ_PULSE_END (R638) -/
  | hostIrqPulseEnd
  /-- NOP (R655) -/
  | nop
  /-- TRIGGER_WATCH (R48) -/
  | triggerWatch
  /-- ARM (R54) -/
  | arm
  /-- DISARM (R54) -/
  | disarm
  /-- CAL_ZERO (R311) -/
  | calZero
  /-- CAL_FULL (R312) -/
  | calFull
  /-- CAL_COMMIT (R313) -/
  | calCommit
  /-- READ_CAL (R700) -/
  | readCal
  /-- LABEL (R519) -/
  | label
  /-- REVERT (R519) -/
  | revert
  /-- RESTART_BASELINE (R519) -/
  | restartBaseline
  /-- OTP_PROGRAM (R207) -/
  | otpProgram
  /-- LIFECYCLE_ADVANCE (R197) -/
  | lifecycleAdvance
  /-- STATS (R655) -/
  | stats
  /-- SHUTDOWN (R657) -/
  | shutdown
  /-- SHUTDOWN_COMPLETE (R657) -/
  | shutdownComplete
  /-- FAULT_BLINK (R188) -/
  | faultBlink
  /-- POR (R131) -/
  | por
  /-- BROWNOUT_VBAT (R132) -/
  | brownoutVbat
  /-- BROWNOUT_VSYS (R137) -/
  | brownoutVsys
  /-- RESET_PIN (R154) -/
  | resetPin
  /-- SOFT (R160) -/
  | soft
  /-- WATCHDOG (R164) -/
  | watchdog
  /-- THERMAL_REQ (R158) -/
  | thermalReq
  /-- THERMAL_TRIP (R128) -/
  | thermalTrip
  /-- RAIL_WAIT_END (R136) -/
  | railWaitEnd
  /-- BOOT_RELEASE (R746) -/
  | bootRelease
  /-- FIRMWARE_START (R143) -/
  | firmwareStart
  /-- LF_CRYSTAL_SWITCH (R141) -/
  | lfCrystalSwitch
  /-- LF_CRYSTAL_TIMEOUT (R141) -/
  | lfCrystalTimeout
  /-- LF_FALLBACK (R92) -/
  | lfFallback
  /-- NEAP_ENTRY (R87) -/
  | neapEntry
  /-- CHG_STALL (R102) -/
  | chgStall
  /-- CORE_RELEASE (R359) -/
  | coreRelease
  /-- VCORE_FAIL (R107) -/
  | vcoreFail
  /-- RESERVOIR_GUARD_TRIP (R112) -/
  | reservoirGuardTrip
  /-- CHECKPOINT_COMPLETE (R113) -/
  | checkpointComplete
  /-- RESERVOIR_COLLAPSE (R119) -/
  | reservoirCollapse
  /-- COMPUTE_END (R372) -/
  | computeEnd
  /-- DONE_REARM (R54) -/
  | doneRearm
  /-- TICK_TRIGGER (R47) -/
  | tickTrigger
  /-- XREF_READY (R89) -/
  | xrefReady
  /-- XREF_TIMEOUT (R286) -/
  | xrefTimeout
  /-- VPIX_READY (R84) -/
  | vpixReady
  /-- VPIX_WAIT_TIMEOUT (R84) -/
  | vpixWaitTimeout
  /-- VPIX_LOW (R287) -/
  | vpixLow
  /-- EXPOSURE_START (R259) -/
  | exposureStart
  /-- FSYNC_EDGE (R276) -/
  | fsyncEdge
  /-- FSYNC_WAIT_EXPIRY (R276) -/
  | fsyncWaitExpiry
  /-- FRAME_COMPLETE (R260) -/
  | frameComplete
  /-- ADC_SEQUENCER_START (R308) -/
  | adcSequencerStart
  /-- ADC_OVERRUN (R317) -/
  | adcOverrun
  /-- SPECTRAL_FRONT (R334) -/
  | spectralFront
  /-- HEAD_REQUEST (R346) -/
  | headRequest
  /-- GROUP_DECISION (R507) -/
  | groupDecision
  /-- ROI_EXPORT (R454) -/
  | roiExport
  /-- ADAPTATION_STEP (R522) -/
  | adaptationStep
  /-- STEM_BUFFER_ERROR (R351) -/
  | stemBufferError
  /-- STRAND_COMMIT (R690) -/
  | strandCommit
  /-- STRAND_CONDITION_TIMEOUT (R685) -/
  | strandConditionTimeout
  /-- EVENT_LOG_ENTRY (R623) -/
  | eventLogEntry
  /-- HELD_RECORD_PLACE (R645) -/
  | heldRecordPlace
  /-- BACKLOG_REFILL (R640) -/
  | backlogRefill
  /-- DAP_NOP (R744) -/
  | dapNop
  /-- DAP_SLACK_EXPIRY (R745) -/
  | dapSlackExpiry
  /-- EXTEST (R743) -/
  | extest
  /-- IDCODE (R742) -/
  | idcode
  /-- SAMPLE_PRELOAD (R743) -/
  | samplePreload
  /-- STROBE_LEAD_START (R275) -/
  | strobeLeadStart
  /-- CORE_PLL_LOCKED (R89) -/
  | corePllLocked
  deriving DecidableEq, Repr

end Sys2Proof
end

