-- ==== Sys2Proof/Decode.lean ====
section
/-! DEFINITION. Decode.lean: the command that a word of spec/opcode_table.json spells. The table gives no row any bits (every
row's field list is empty), so no word spells a command. -/
namespace Sys2Proof

/-- The command that the nbits-bit word w spells by the table's bits: none, since the table gives none. -/
def decodeTableWord (_nbits _w : Nat) : Option Instr := none

end Sys2Proof
end

