-- ==== Sys2Proof/Machine/State.lean ====
section
/-! DEFINITION. Machine/State.lean: everything the spec gives the TQ-6120 as plain data (no field holds a function), each
field with the rule that names it; the reasons a step can stop; and the state right after reset. -/
namespace Sys2Proof.Machine
open Sys2Proof

/-- One decoded entry of the watch table (02, R40): the fields the device acts on. -/
structure WatchEntry where
  /-- WATCH_NUM, 0 to 1,023 (R40) -/
  num : Nat := 0
  /-- FLAGS byte: VALID, ARM_AT_BOOT, ONE_SHOT, TAG_RECORDS, EXPORT_ROI, MULTICHIP, ADAPT, ORDERED (R40) -/
  flags : BitVec 8 := 0
  /-- OWNER byte, bits [2:0] the owner (R40) -/
  owner : Nat := 0
  /-- PRIORITY, used only for backlog overflow (R40) -/
  priority : Nat := 0
  /-- SHARE_GROUP, 0 = none (R40) -/
  group : Nat := 0
  /-- TRIGGER_KIND code (R47) -/
  trigKind : Nat := 0
  /-- CORES byte: mask and highest clock step (R40) -/
  cores : BitVec 8 := 0
  /-- TRIGGER_ARG, 16 bytes (R47) -/
  trigArg : List Byte := []
  /-- INPUT_KIND: 0 none, 1 pixel, 2 Aux ADC (R40) -/
  inputKind : Nat := 0
  /-- INPUT_UNITS, frames or blocks a job (R40) -/
  inputUnits : Nat := 0
  /-- INPUT_REC, record id (R40) -/
  inputRec : Nat := 0
  /-- ADMIT_TIMEOUT, ticks, 0 = no limit (R40, R57) -/
  admitTimeout : Nat := 0
  /-- BERTH_MASK (R40) -/
  berthMask : BitVec 64 := 0
  /-- HBR_BASE (R40, R64) -/
  hbrBase : Nat := 0
  /-- HBR_SIZE (R40, R64) -/
  hbrSize : Nat := 0
  /-- PERSIST: four pairs of offset and size (R40) -/
  persist : List (Nat × Nat) := []
  /-- ENERGY_CEILING in µJ (R40) -/
  ceiling : Nat := 0
  /-- SAT_BUDGET (R40) -/
  satBudget : Nat := 0
  /-- RECORD_KINDS (R40) -/
  recordKinds : BitVec 16 := 0
  /-- CKPT_OFFSET (R40) -/
  ckptOffset : Nat := 0
  /-- CKPT_SIZE (R40) -/
  ckptSize : Nat := 0
  /-- PROG_FIRST (R40) -/
  progFirst : Nat := 0
  /-- PROG_COUNT (R40) -/
  progCount : Nat := 0
  /-- TENSOR_FIRST (R40) -/
  tensorFirst : Nat := 0
  /-- TENSOR_COUNT (R40) -/
  tensorCount : Nat := 0
  /-- STREAM_REC, 0xFFFF = none (R40) -/
  streamRec : Nat := 0xFFFF
  /-- REQUANT_REC, 0xFFFF = none (R40) -/
  requantRec : Nat := 0xFFFF
  /-- true when a reserved field or RUNTIME byte of the image's entry is non-zero (R41, R45 code 0x0D) -/
  reservedNonzero : Bool := false
  deriving DecidableEq, Repr

/-- The three power states (03, R83). -/
inductive Power where
  | neap | slack | spring
  deriving DecidableEq, Repr

/-- The board power block as the image gives it (03, R93; 06, R227). -/
structure PowerBlock where
  /-- RSV_CAP_NOM_UF (R93) -/
  capNomUf : Nat := 0
  /-- RESERVE_UJ (R93) -/
  reserveUj : Nat := 0
  /-- RSV_VMAX_MV (R93) -/
  vmaxMv : Nat := 0
  /-- RSV_HYST_MV (R93) -/
  hystMv : Nat := 0
  /-- RSV_GUARD_MV (R93) -/
  guardMv : Nat := 0
  /-- RSV_VMIN_MV (R93) -/
  vminMv : Nat := 0
  /-- VBAT_CHG_MIN_MV (R93) -/
  vbatChgMinMv : Nat := 0
  /-- BUCK_EFF_Q8 (R93) -/
  buckEffQ8 : Nat := 256
  /-- CORE_EN_DELAY_US (R93) -/
  coreEnDelayUs : Nat := 0
  /-- VCORE_NOM_MV per clock step (R93) -/
  vcoreNomMv : List Nat := [0, 0, 0, 0]
  /-- VSEL_CODE per clock step (R93) -/
  vselCode : List Nat := [0, 0, 0, 0]
  deriving DecidableEq, Repr

/-- The Tide controller: power state, energy account, charger, admission and heat (03; registers 23, R724). -/
structure Tide where
  /-- power state (R83); reset Slack (R718) -/
  power : Power := .slack
  /-- the board power block in force, none while it is invalid or absent (R94) -/
  block : Option PowerBlock := none
  /-- TIDE_RSV_MV, latest reservoir sample in mV (R95, R96) -/
  rsvMv : Nat := 0
  /-- TIDE_VBAT_MV, latest VBAT reading in mV (R97) -/
  vbatMv : Nat := 0
  /-- tick of the latest VBAT reading (R97, R200: a reading no older than 8 ticks) -/
  vbatTick : Nat := 0
  /-- tick of the latest reservoir sample (R96, R105) -/
  rsvTick : Nat := 0
  /-- TIDE_ENERGY, the account E in µJ (R98) -/
  energy : Nat := 0
  /-- CHG_EN level (R100) -/
  chgEn : Bool := false
  /-- TIDE_CTRL.CHG_INHIBIT (R100) -/
  chgInhibit : Bool := false
  /-- TIDE_CTRL.CLK_CAP, host cap on the clock step (R724) -/
  clkCap : BitVec 2 := 3
  /-- the charge reference sample in mV (R102) -/
  stallRef : Nat := 0
  /-- stall count in ticks, none while it does not run (R102) -/
  stallCount : Option Nat := none
  /-- TIDE_STATUS.CHG_STALL (R102) -/
  chgStall : Bool := false
  /-- TIDE_STATUS.CAP_NOMINAL (R98) -/
  capNominal : Bool := false
  /-- TIDE_STATUS.CAP_MISMATCH (R130) -/
  capMismatch : Bool := false
  /-- TIDE_STATUS.LF_FALLBACK (R92, R141) -/
  lfFallback : Bool := false
  /-- true while LFCLK comes from the crystal (R90, R756) -/
  lfCrystal : Bool := false
  /-- the crystal has been awaited since the POR and has not started yet (R141) -/
  lfWait : Bool := false
  /-- CORE_EN level (R105, R113) -/
  coreEn : Bool := false
  /-- VSEL0 to VSEL2 (R108) -/
  vsel : Nat := 0
  /-- core clock step chosen at admission (R105) -/
  stepAdmitted : Nat := 0
  /-- core clock step in force (R125) -/
  step : Nat := 0
  /-- thermal cap on the clock step, 3 = none (R125) -/
  thermalCap : Nat := 3
  /-- an admission has been deferred for temperature (R105) -/
  tempDeferred : Bool := false
  /-- TIDE_TEMP, latest junction temperature in 1/64 °C (R124) -/
  temp : Int := 0
  /-- tick of the latest temperature sample (R124, R200) -/
  tempTick : Nat := 0
  /-- the junction temperature has been sampled since the reset (R200) -/
  tempTaken : Bool := false
  /-- TIDE_THROTTLE_TICKS (R126) -/
  throttleTicks : Nat := 0
  /-- TIDE_METER, metered energy of the current or last Spring in µJ (R110) -/
  meterUj : Nat := 0
  /-- account at the sample before CORE_EN last rose (R130) -/
  energyBefore : Nat := 0
  /-- reservoir sample before CORE_EN last rose, in mV (R702) -/
  rsvBefore : Nat := 0
  /-- CHG_EN was low at the admitting sample and no collapse has ended the Spring (R702) -/
  capClean : Bool := false
  /-- a first sample after a Spring is still due (R96, R130) -/
  afterSpring : Bool := false
  /-- TIDE_RETAIN, banks retained at the last Neap entry (R123) -/
  retain : BitVec 32 := 0x80000000
  /-- TIDE_COLLAPSES (R119) -/
  collapses : Nat := 0
  /-- Harbour banks powered now (R757) -/
  banksOn : BitVec 32 := 0xFFFFFFFF
  /-- FRC and the core PLL run and are locked (R89, R90) -/
  pllLocked : Bool := false
  /-- XREF enabled (R90) -/
  xrefOn : Bool := false
  /-- XREF ready (R89, PIX_STATUS.XREF_OK) -/
  xrefReady : Bool := false
  /-- PIX_EN level (R84) -/
  pixEn : Bool := false
  /-- VPIX has stood above 2.65 V for 100 µs since PIX_EN rose (R84) -/
  vpixReady : Bool := false
  /-- a thermal shutdown request stands (R127) -/
  thermalShutdown : Bool := false
  deriving DecidableEq, Repr

/-- Metered event counts of one core since the Spring began (03, R109). -/
structure Meter where
  /-- MAC8 events (R109) -/
  mac8 : Nat := 0
  /-- MAC4 events (R109) -/
  mac4 : Nat := 0
  /-- MAC16 events (R109) -/
  mac16 : Nat := 0
  /-- MACF8 events (R109) -/
  macf8 : Nat := 0
  /-- MACF16 events (R109) -/
  macf16 : Nat := 0
  /-- VEC lane operations (R109) -/
  vec : Nat := 0
  /-- LINE moves (R109) -/
  line : Nat := 0
  /-- CYC clocked core cycles (R109) -/
  cyc : Nat := 0
  deriving DecidableEq, Repr

/-- Reset sources, each a bit of SYS_RESET_CAUSE but OTP_HOLD (04, R154, R161). -/
inductive ResetSource where
  | por | borVbat | borVsys | pin | wdt | thermReq | thermTrip | soft | fatal
  deriving DecidableEq, Repr

/-- The straps (04, R139). -/
structure Straps where
  /-- HOST_IF: false SPI, true I²C (R139) -/
  hostIf : Bool := false
  /-- I2C_ADDR (R139) -/
  i2cAddr : Bool := false
  /-- LF_SRC: true internal oscillator (R139) -/
  lfSrc : Bool := false
  /-- BOOT_HOLD (R139) -/
  bootHold : Bool := false
  deriving DecidableEq, Repr

/-- A flash mode (04, R145). -/
inductive FlashMode where
  | s1 | s4 | d8
  deriving DecidableEq, Repr

/-- Start-up, reset and the SYS block (04; 23, R719 to R723). -/
structure Sys where
  /-- the tick counter, 48 bits (R12, R131) -/
  tick : Nat := 0
  /-- a full reset is asserted and not yet released (R143) -/
  inReset : Bool := false
  /-- sources asserted during the reset in progress, bits as SYS_RESET_CAUSE [8:0] (R161) -/
  asserted : BitVec 9 := 0
  /-- a reset source waiting for the unit in progress (R158) -/
  delayed : Option ResetSource := none
  /-- FATAL_CODE of the reset being taken (R161, R619) -/
  fatalPending : Nat := 0
  /-- SYS_RESET_CAUSE bits [8:0] (R161) -/
  resetCause : BitVec 9 := 0
  /-- SYS_RESET_CAUSE.FATAL_CODE (R161) -/
  fatalCode : Nat := 0
  /-- boot loop count, 0 to 4 (R165) -/
  loopCount : Nat := 0
  /-- SYS_RESET_CAUSE.LOOP: the loop count as the last release of a reset found it (R161) -/
  loopShown : Nat := 0
  /-- the first entry into Neap after the boot has not happened yet (R165) -/
  firstNeapDue : Bool := true
  /-- SYS_STRAPS (R139) -/
  straps : Straps := {}
  /-- SYS_BOOT.STAGE (R161 table) -/
  stage : BitVec 8 := 0x01
  /-- SYS_BOOT.FAIL (R153) -/
  fail : BitVec 8 := 0
  /-- SYS_BOOT.FLASH_MODE (R145) -/
  flashMode : FlashMode := .s1
  /-- SYS_BOOT.ADDR4 (R145) -/
  addr4 : Bool := false
  /-- SYS_BOOT.RECOPIED (R147, R761) -/
  recopied : Bool := false
  /-- SYS_BOOT.BOOT_MS (R161 table) -/
  bootMs : Nat := 0
  /-- tick at which the reset was released (R146, BOOT_MS) -/
  releaseTick : Nat := 0
  /-- the Host port answers (R149) -/
  hostAnswers : Bool := false
  /-- the watchdog is armed: the system controller runs (R162) -/
  wdtArmed : Bool := false
  /-- ticks since the watchdog was last restarted, to 32,768 (R162, R164) -/
  wdtCount : Nat := 0
  /-- SYS_UNIT_RESETS, eight saturating 4-bit counts, TC0 first (R173) -/
  unitResets : List Nat := [0, 0, 0, 0, 0, 0, 0, 0]
  /-- units in partial reset, between refuse and release (R168) -/
  resetting : List ResetUnit := []
  /-- SYS_ALARM cause bits [10:0] (R719, R721) -/
  alarm : BitVec 11 := 0
  /-- single-bit errors in the SRAM and Crossing parity errors that a retry clears, which the next tick counts (R602; log 79) -/
  upset : Nat := 0
  deriving DecidableEq, Repr

/-- What the key slots of the cryptographic engine hold (05, R194). -/
structure KeySlots where
  /-- DUS, none while not loaded (R194) -/
  dus : Option (List Byte) := none
  /-- IDK, none while not loaded (R194, R242) -/
  idk : Option (List Byte) := none
  /-- OWNER_ROOT slots loaded from the OTP (R73, R194) -/
  otpRoots : List (Option (List Byte)) := [none, none, none, none, none, none, none, none]
  /-- roots taken from the OWNER_KEYS record (R73, R226) -/
  imageRoots : List (Option (List Byte)) := [none, none, none, none, none, none, none, none]
  /-- derived tag keys (R77) -/
  tagKeys : List (Option (List Byte)) := [none, none, none, none, none, none, none, none]
  deriving DecidableEq, Repr

/-- An OTP command in progress (05, R199 to R209). -/
structure OtpRun where
  /-- words still to program: address and the cells to turn from 0 to 1 (R207) -/
  todo : List (Nat × BitVec 39) := []
  /-- true for LIFECYCLE_ADVANCE, with the target state code (R197) -/
  lifecycle : Option Nat := none
  /-- true when the command came through the mailbox (R209) -/
  mailbox : Bool := true
  deriving DecidableEq, Repr

/-- The OTP block (05). -/
structure Otp where
  /-- cells of each word read at normal margin, blank words unlisted (R174, R184) -/
  cells : List (Nat × BitVec 39) := []
  /-- cells of each word read at high margin, blank words unlisted (R184) -/
  cellsHigh : List (Nat × BitVec 39) := []
  /-- OTP_LC.STATE code; BLANK on a part with every cell 0 (R180) -/
  lc : Nat := 0
  /-- OTP_LC.RAW, voted bits [5:0] (R180) -/
  raw : BitVec 6 := 0
  /-- the life-cycle state decoded at boot, which an advance does not change before the next full reset (R198, R453, R588) -/
  lcBoot : Nat := 0
  /-- OTP_LOCK_RD.LOCK (R210) -/
  lockRd : BitVec 8 := 0
  /-- OTP_LOCK_WR.LOCK (R210) -/
  lockWr : BitVec 8 := 0
  /-- OTP_ECC_STATUS.UNCORR (R191) -/
  uncorr : BitVec 8 := 0
  /-- OTP_ECC_STATUS.CORRECTED, saturating at 65,535 (R186) -/
  corrected : Nat := 0
  /-- OTP_ECC_STATUS.POLICY_DEFAULT (R190); a blank part has three equal blank copies -/
  policyDefault : Bool := false
  /-- OTP_ROLLBACK.COUNT (R181) -/
  rollback : Nat := 0
  /-- OTP_KEYS.PROGRAMMED (05, registers) -/
  programmed : BitVec 4 := 0
  /-- OTP_KEYS.REVOKED (05, registers) -/
  revoked : BitVec 4 := 0
  /-- OTP_KEYS.BOOT_SLOT, 7 = none (05, registers) -/
  bootSlot : Nat := 7
  /-- OTP_READ_ADDR.WORD (05, registers) -/
  readWord : Nat := 0
  /-- OTP_READ_ADDR.VALID (R758) -/
  readValid : Bool := false
  /-- a read of the word being programmed waits for its verify (R758) -/
  readWait : Bool := false
  /-- OTP_READ_ADDR.UNCORR (R758) -/
  readUncorr : Bool := false
  /-- OTP_READ_ADDR.CORRECTED (R758) -/
  readCorrected : Bool := false
  /-- OTP_READ_ADDR.LOCKED (R211) -/
  readLocked : Bool := false
  /-- OTP_READ_DATA (R758) -/
  readData : BitVec 32 := 0
  /-- OTP_PROG_STATUS.STATUS (R209) -/
  progStatus : Nat := 0
  /-- OTP_PROG_STATUS.WORD (R209) -/
  progWord : Nat := 0
  /-- the command in progress (R199 to R201) -/
  run : Option OtpRun := none
  /-- OTP_HOLD: blink code N while the device holds in reset (R187, R188) -/
  hold : Option Nat := none
  /-- timer phase of the blink frame in ticks (R188), none before the first frame -/
  blinkPhase : Option Nat := none
  /-- level of FAULT on PC7 while it blinks (R188) -/
  blinkHigh : Bool := false
  /-- the key slots of the cryptographic engine (R194) -/
  keys : KeySlots := {}
  deriving DecidableEq, Repr

/-- A manifest entry (06, R214). -/
structure MfEntry where
  /-- TYPE (R218) -/
  type : Nat := 0
  /-- FLAGS byte (R214) -/
  flags : Nat := 0
  /-- ID (R214) -/
  id : Nat := 0
  /-- FLASH_OFFSET (R214) -/
  offset : Nat := 0
  /-- LENGTH (R214) -/
  length : Nat := 0
  /-- LOAD (R214) -/
  load : Nat := 0
  /-- SHA256 (R214) -/
  sha : List Byte := []
  /-- a reserved byte of the entry is non-zero (R232) -/
  reservedNonzero : Bool := false
  deriving DecidableEq, Repr

/-- The copy of the verified manifest that the boot uses (06, R214, R231). -/
structure Manifest where
  /-- SECURITY_VERSION (R214) -/
  secVer : Nat := 0
  /-- PERMIT (R214) -/
  permit : Nat := 0
  /-- IMAGE_ID as eight bytes (R214) -/
  imageId : List Byte := []
  /-- MANIFEST_OFFSET of the header (R213) -/
  offset : Nat := 0
  /-- IMAGE_LEN of the header (R213) -/
  imageLen : Nat := 0
  /-- the entries in manifest order (R214) -/
  entries : List MfEntry := []
  /-- a reserved byte of the manifest header is non-zero (R232) -/
  reservedNonzero : Bool := false
  deriving DecidableEq, Repr

/-- A record the boot copied and accepted: its entry and, outside the Harbour, its body from byte 0x08 (06, R233). -/
structure PlacedRecord where
  /-- TYPE (R218) -/
  type : Nat := 0
  /-- ID (R214) -/
  id : Nat := 0
  /-- LOAD (R214) -/
  load : Nat := 0
  /-- placed size in bytes, 0 where the type has no Harbour place (R220) -/
  placed : Nat := 0
  /-- the record's LENGTH after decryption (R217) -/
  length : Nat := 0
  /-- the (decrypted) body from record byte 0x08 (R217) -/
  body : List Byte := []
  deriving DecidableEq, Repr

/-- What the boot keeps of the image (06). -/
structure Image where
  /-- header fields taken at probe speed: MANIFEST_OFFSET, MANIFEST_LEN, IMAGE_LEN, FLASH_CLK (R213) -/
  header : Option (Nat × Nat × Nat × Nat) := none
  /-- the flash clock in MHz in force (R145) -/
  clockMhz : Nat := 25
  /-- the verified manifest (R231) -/
  manifest : Option Manifest := none
  /-- the first copy of the manifest failed a check and the reread is due (R761) -/
  rereadDue : Bool := false
  /-- index of the next record to copy (R233) -/
  nextRecord : Nat := 0
  /-- the record that failed its hash once and is to be recopied (R147) -/
  recopyDue : Bool := false
  /-- records copied and accepted (R233) -/
  records : List PlacedRecord := []
  /-- bytes of records copied, of which every 1 MiB restarts the watchdog (R164) -/
  copied : Nat := 0
  /-- Harbour offset and size of the lines that an absent record would have taken (R235, R242) -/
  absent : List (Nat × Nat) := []
  /-- a record failed authentication during the copy (R242) -/
  authFailed : Bool := false
  /-- an OWNER_KEYS record was refused (R75, R226) -/
  ownerKeysRefused : Bool := false
  /-- SYS_IMAGE_ID0 and SYS_IMAGE_ID1 as eight bytes (R252) -/
  imageId : List Byte := [0, 0, 0, 0, 0, 0, 0, 0]
  /-- SYS_IMAGE.SEC_VER (R252) -/
  secVer : Nat := 0
  /-- SYS_IMAGE.ENTRIES (R252) -/
  entries : Nat := 0
  /-- SYS_IMAGE.PATCH_SKIPPED (R225) -/
  patchSkipped : Bool := false
  /-- SYS_IMAGE.AUTH_FAIL (R242) -/
  authFail : Bool := false
  /-- SYS_IMAGE.NO_TABLE (R221) -/
  noTable : Bool := false
  /-- SYS_IMAGE.LC_EXIT (R252) -/
  lcExit : Bool := false
  /-- the firmware patch applied, none with the ROM firmware alone (R225) -/
  patch : Option (Nat × List Byte) := none
  /-- stream fetches issued so far, which gives each its place in the order of service (R249) -/
  streamIssued : Nat := 0
  /-- SYS_STREAM.FETCHES (R252) -/
  streamFetches : Nat := 0
  /-- SYS_STREAM.REREADS (R252) -/
  streamRereads : Nat := 0
  /-- SYS_STREAM.FAILS (R252) -/
  streamFails : Nat := 0
  deriving DecidableEq, Repr

/-- Berth states (07, R269). -/
inductive BerthState where
  | idle | filling | ready
  deriving DecidableEq, Repr

/-- What the readout keeps of one window of the frame in progress (07, R266 to R272; 09, R326). -/
structure WinRun where
  /-- SAT_PIXELS so far (R266) -/
  sat : Nat := 0
  /-- DEFECTS_FIXED so far (R266) -/
  fixed : Nat := 0
  /-- a defect pixel had no neighbour (R273) -/
  unresolved : Bool := false
  /-- corrected rows waiting for their bin block, with each pixel's saturation mark (R272 step 5) -/
  binRows : List (List (Nat × Bool)) := []
  /-- binned values of the rows read so far, for the first layer (R324; the line buffers, R322) -/
  rowsIn : List (List Nat) := []
  /-- output rows written so far (R267, R328) -/
  outRows : Nat := 0
  deriving DecidableEq, Repr

/-- A frame of the capture in progress, from the start of its exposure (07, R259, R276 to R279). -/
structure FrameRun where
  /-- frame index k within the job (R263) -/
  frame : Nat := 0
  /-- FRAME_NUM (R277) -/
  frameNum : Nat := 0
  /-- tick stamp of the start of exposure (R279) -/
  tick : Nat := 0
  /-- FSYNC_MISSED (R276) -/
  fsyncMissed : Bool := false
  /-- XREF cycles since the previous readout start, 0 for frame 0 (R266 PERIOD) -/
  period : Nat := 0
  deriving DecidableEq, Repr

/-- The frame program in progress for the job that holds the pixel array (07, R259 to R279). -/
structure Capture where
  /-- the watch whose job holds the array (R60) -/
  watch : Nat := 0
  /-- index of the next frame whose exposure is to start (R259) -/
  next : Nat := 0
  /-- the frame that is being exposed (R259) -/
  expo : Option FrameRun := none
  /-- STROBE is active (R275) -/
  strobe : Bool := false
  /-- the STROBE lead of the next frame has begun (R275) -/
  lead : Bool := false
  /-- the next frame may start and waits for FSYNC (R276) -/
  waitFsync : Bool := false
  /-- the frame in readout (R259) -/
  reading : Option FrameRun := none
  /-- rows of the frame in readout read so far (R271) -/
  rowsRead : Nat := 0
  /-- optical-black sums in 1/16 code of the last rows, newest first, at most 16 (R271) -/
  blackSums : List Int := []
  /-- sum of the black levels B_i of the frame's rows (R266 BLACK_MEAN) -/
  blackTotal : Int := 0
  /-- per window of the frame program -/
  wins : List WinRun := []
  deriving DecidableEq, Repr

/-- The pixel array (07; registers 07 and 23). -/
structure Pix where
  /-- the capture in progress; its watch is the holder of the array (R60, PIX_STATUS.HOLDER) -/
  cap : Option Capture := none
  /-- PIX_STATUS.FSYNC_MISSES, saturating (R276) -/
  fsyncMisses : Nat := 0
  /-- PIX_STATUS.DEFECT_UNRES, saturating (R273) -/
  defectUnres : Nat := 0
  /-- PIX_SENT_CFG.PERIOD (R281) -/
  sentPeriod : Nat := 32768
  /-- PIX_SENT_CFG.EXPOSURE (R281) -/
  sentExposure : Nat := 4
  /-- PIX_SENT_CFG.GAIN (R281) -/
  sentGain : Nat := 2
  /-- PIX_SENT_ENERGY.ENERGY (R282) -/
  sentEnergy : Nat := 0
  /-- PIX_SENT_ENERGY.FRAMES, wrapping at 16 bits -/
  sentFrames : Nat := 0
  /-- PIX_FRAMES.COUNT, wrapping at 32 bits -/
  frames : Nat := 0
  /-- the sentinel reference frame, 64 × 48 superpixels, none when the next frame only becomes the reference (R283) -/
  reference : Option (List Byte) := none
  /-- berths not IDLE: number and state (R269) -/
  berths : List (Nat × BerthState) := []
  deriving DecidableEq, Repr

/-- One decimation chain of the capture in progress (08, R295 to R307). -/
structure ChainRun where
  /-- blocks made visible (R306) -/
  done : Nat := 0
  /-- the chain's first sample has been delivered (R296) -/
  started : Bool := false
  /-- the latest converter codes that entered the chain, newest first: the span of the CIC (R295) -/
  hist : List Int := []
  /-- the latest CIC outputs in units of M⁻⁴ code, newest first: the span of the half-band stages (R295) -/
  cic : List Int := []
  /-- input samples since the last output (R295) -/
  phase : Nat := 0
  /-- sample words of the block in progress, newest first: code, OVR, digital saturation (R302) -/
  words : List (Nat × Bool × Bool) := []
  /-- an over-range sample has entered during the block in progress (R303) -/
  entered : Bool := false
  /-- OVR_CARRY of the block in progress (R304) -/
  carry : Bool := false
  /-- over-range reach counter, in input samples (R298) -/
  reach : Nat := 0
  /-- OFS of the chain's pair when the capture started (R297, R313) -/
  ofs : Int := 0
  /-- GAIN of the chain's pair when the capture started (R297, R313) -/
  gain : Nat := 0x400000
  deriving DecidableEq, Repr

/-- The Aux ADC capture of the job that holds it (08, R308). -/
structure AdcCapture where
  /-- the watch whose job holds the Aux ADC (R60) -/
  watch : Nat := 0
  /-- block number of block 0 (R307) -/
  blockBase : Nat := 0
  /-- tick at which IEPE_EN was asserted (R308) -/
  iepeTick : Nat := 0
  /-- the bandgap check has passed (R308) -/
  bgDone : Bool := false
  /-- the sequencer runs (R308) -/
  running : Bool := false
  /-- place of the next ADC clock in the sequence's cycle of slots and discard clocks (R292, R293) -/
  clock : Nat := 0
  /-- per used chain -/
  chains : List ChainRun := []
  deriving DecidableEq, Repr

/-- A calibration command: it waits while a job holds the Aux ADC, and holds it otherwise (08, R311, ADC_STATUS.CAL_BUSY). -/
structure CalRun where
  /-- channel 0 to 3 (R310) -/
  channel : Nat := 0
  /-- gain code 0 to 4 (R310) -/
  gain : Nat := 0
  /-- none for CAL_ZERO, the applied µV for CAL_FULL (R310) -/
  applied : Option Int := none
  /-- the bandgap check has passed (R311) -/
  bgDone : Bool := false
  deriving DecidableEq, Repr

/-- The Aux ADC (08; registers 08 and 23). -/
structure Adc where
  /-- the capture in progress (R60) -/
  cap : Option AdcCapture := none
  /-- the calibration command in progress (R311) -/
  cal : Option CalRun := none
  /-- ADC_COUNTS.OVR_BLOCKS, saturating -/
  ovrBlocks : Nat := 0
  /-- ADC_COUNTS.SAT_BLOCKS, saturating -/
  satBlocks : Nat := 0
  /-- ADC_BG.CODE -/
  bgCode : BitVec 14 := 0
  /-- ADC_BG.FAILS, saturating -/
  bgFails : Nat := 0
  /-- ADC_IEPE.FORCE (R309) -/
  iepeForce : BitVec 4 := 0
  /-- IEPE_EN lines asserted for the job (R308, R309) -/
  iepeJob : BitVec 4 := 0
  /-- ADC_CAL_STATUS.STATUS (R314) -/
  calStatus : Nat := 0
  /-- ADC_CAL_MEAN.MEAN (R311) -/
  calMean : Int := 0
  /-- M0 per (channel, gain) pair measured since the last commit or reset (R312) -/
  m0 : List ((Nat × Nat) × Int) := []
  /-- pending pairs: (channel, gain), OFS, GAIN (R312) -/
  pending : List ((Nat × Nat) × Int × Int) := []
  deriving DecidableEq, Repr

/-- What a request in the Stem engine's queue asks for (09, R320, R337, R338; 13, R451; 15, R506, R522). -/
inductive StemKind where
  | spectral (chain block : Nat)
  | head (core : Option Nat) (addr event : Nat)
  | adapt
  deriving DecidableEq, Repr

/-- A request in the Stem engine's queue (09, R320). -/
structure StemReq where
  /-- the watch of the job that asks -/
  watch : Nat := 0
  /-- what it asks for -/
  kind : StemKind := .adapt
  deriving DecidableEq, Repr

/-- The Stem engine (09; registers SYS_STEM, SYS_ROI, SYS_REPLAY, SYS_ADAPT). -/
structure Stem where
  /-- the one queue of spectral-front and head-mode requests, in arrival order (R320) -/
  queue : List StemReq := []
  /-- owner of the job that last used the engine (R71) -/
  owner : Option Nat := none
  /-- the 512 KiB of line buffers, an unlisted byte reading 0 (R322); the rows of a frame in readout stand in WinRun.rowsIn -/
  lineMem : List Host.Cell := []
  /-- words of the line buffers that hold a single-bit error, which the next request corrects and counts (R602; log 79) -/
  lineUpset : Nat := 0
  /-- SYS_STEM.HEADS, saturating (R352) -/
  heads : Nat := 0
  /-- SYS_STEM.ABORTS, saturating (R352) -/
  aborts : Nat := 0
  /-- SYS_STEM.DESC_ERRORS, saturating (R352) -/
  descErrors : Nat := 0
  /-- SYS_ROI.EMITTED, saturating (R456) -/
  roiEmitted : Nat := 0
  /-- SYS_ROI.REFUSED, saturating (R456) -/
  roiRefused : Nat := 0
  /-- SYS_REPLAY.REPLAYS, saturating (R508) -/
  replays : Nat := 0
  /-- SYS_REPLAY.LAST_WATCH (R508) -/
  lastReplayWatch : Nat := 0
  /-- SYS_ADAPT.STEPS, saturating (R526) -/
  adaptSteps : Nat := 0
  /-- SYS_ADAPT.COMMIT_FAILS, saturating (R524) -/
  adaptCommitFails : Nat := 0
  /-- SYS_ADAPT.STATUS (R520) -/
  adaptStatus : Nat := 0
  deriving DecidableEq, Repr

/-- One zero-overhead loop counter (10, R358, R370). -/
structure LoopCtr where
  /-- iterations remaining, 32 bits (R358) -/
  count : BitVec 32 := 0
  /-- start bundle index (R370) -/
  start : Nat := 0
  /-- end bundle index (R370) -/
  stop : Nat := 0
  /-- the loop is active (R371) -/
  active : Bool := false
  deriving DecidableEq, Repr

/-- One entry of the load log (10, R389). -/
structure LoadLog where
  /-- Harbour source address (R390) -/
  src : Nat := 0
  /-- first instruction memory index (R390) -/
  first : Nat := 0
  /-- bundle count (R390) -/
  count : Nat := 0
  /-- the further runs of a load whose rows do not follow on: source, first index and count of each (R389; log 35) -/
  rest : List (Nat × Nat × Nat) := []
  deriving DecidableEq, Repr

/-- The registers of a core that a frame or a shadow frame keeps, and its saturation counters (10, R358; 15, R505). -/
structure Regs where
  /-- s0 to s31 (R358) -/
  s : Vector (BitVec 32) 32 := Vector.replicate 32 0
  /-- a0 to a15 (R358) -/
  a : Vector (BitVec 40) 16 := Vector.replicate 16 0
  /-- p0 to p7 (R358) -/
  p : Vector (BitVec 128) 8 := Vector.replicate 8 0
  /-- lc0 to lc3 (R358) -/
  lc : Vector LoopCtr 4 := Vector.replicate 4 {}
  /-- ev0 to ev15 (R358) -/
  ev : Vector (BitVec 8) 16 := Vector.replicate 16 0
  /-- sticky flags: INEXACT, SAT, UNDERFLOW, INVALID (R358, R476) -/
  fl : BitVec 4 := 0
  /-- bundle index of the next bundle, 0 to 4,095; 4,096 once bundle 4,095 has fallen through (R366) -/
  pc : BitVec 13 := 0
  /-- the eight group saturation counters (R505) -/
  satc : Vector (BitVec 32) 8 := Vector.replicate 8 0
  deriving DecidableEq, Repr

/-- A shadow frame: the content of a core frame with the saturation counters (19, R610). -/
structure Shadow where
  /-- registers, flags, event and saturation counters -/
  regs : Regs := {}
  /-- last checkpoint point passed -/
  point : Nat := 0
  /-- the load log -/
  loadLog : List LoadLog := []
  deriving DecidableEq, Repr

/-- A range of lines that an access has issued on and not completed (10, R373, R375). -/
structure Range where
  /-- lowest line number: 40-bit byte address divided by 64 -/
  lo : Nat := 0
  /-- highest line number -/
  hi : Nat := 0
  /-- the access writes -/
  write : Bool := false
  deriving DecidableEq, Repr

/-- A packet of a remote operation that has not been answered yet (17, R559, R561): its TXN and, for a read, the Harbour offset
and the local address of its first line and the number of lines. -/
structure RemoteReq where
  /-- TXN -/
  txn : Nat := 0
  /-- Harbour offset on the other chip -/
  off : Nat := 0
  /-- local address that the first line goes to -/
  loc : Nat := 0
  /-- lines asked for -/
  lines : Nat := 0
  /-- number of the first line by the 40-bit address that the core gave (R382) -/
  line : Nat := 0
  deriving DecidableEq, Repr

/-- An operation a core has issued and that has not completed (10, R374 to R380; 11, R419). -/
structure Pend where
  /-- slot that issued it: 6 DMA in, 7 DMA out, 13 word access or marker -/
  slot : Nat := 0
  /-- OP code of a slot 13 operation (R419) -/
  op : Nat := 0
  /-- tracked ranges (R373) -/
  ranges : List Range := []
  /-- event counter to raise at completion (R380) -/
  event : Option Nat := none
  /-- 40-bit address of a word access (R419) -/
  addr : Nat := 0
  /-- destination s register of a word access (R419) -/
  sd : Option Nat := none
  /-- first operand value (R419) -/
  val : BitVec 32 := 0
  /-- second operand value of atcas (R419) -/
  val2 : BitVec 32 := 0
  /-- s register that receives the status under CHECK (R420) -/
  st : Option Nat := none
  /-- destination chip, none for the local chip (R552) -/
  chip : Option Nat := none
  /-- remote packets still unanswered (R374) -/
  reqs : List RemoteReq := []
  /-- bundle index of the bundle that issued it (R391) -/
  pc : Nat := 0
  /-- tag value set on arrival, none when tags travel with data (R377) -/
  setTag : Option (BitVec 16) := none
  /-- STREAM fetch: block number and local Harbour destination (R379) -/
  stream : Option (Nat × Nat) := none
  /-- place of a STREAM fetch in the order of issue over all cores (R249) -/
  order : Nat := 0
  /-- a line it read holds the poison mark: source and line address (R604, R605) -/
  poison : Option (ErrorSource × Nat) := none
  /-- RETAIN of a COPY_IN whose remote lines have still to arrive (R382) -/
  retain : Nat := 0
  deriving DecidableEq, Repr

/-- What holds later bundles of a core (11, R419 to R423). -/
inductive Wait where
  | event (ev count : Nat)
  | fence (scope : Nat) (st : Option Nat)
  | acq (scope : Nat) (lo hi : Nat) (st : Option Nat)
  | epoch (chip epoch : Nat) (st : Option Nat)
  | publish (chip epoch : Nat) (st : Option Nat)
  /-- an `ewait` whose chip an epoch change has cut off, until the chip leaves doubt (R544, R578) -/
  | lost (chip : Nat) (st : Option Nat)
  deriving DecidableEq, Repr

/-- Whether a core issues (10, R393; 03, R113). -/
inductive RunState where
  | off | running | halting | halted | stopping | stopped
  deriving DecidableEq, Repr

/-- A memory of lines: data bytes and a 16-bit tag a line, with lines marked uncorrectable or poisoned (10, R361; 15, R488; 19, R604). -/
structure Lines where
  /-- data bytes, an unlisted byte reads 0 (R362, R757) -/
  data : List Host.Cell := []
  /-- tags by line number, an unlisted tag reads 0x0000 (R362, R757) -/
  tags : List (Nat × BitVec 16) := []
  /-- lines that hold the poison mark (R604) -/
  poison : List (Nat × Bool) := []
  /-- lines that hold a single-bit error, which the next access corrects and counts (R361, R602, R603; log 79) -/
  upset : List Nat := []
  deriving DecidableEq, Repr

/-- One tensor core (10). -/
structure Core where
  /-- run state (R393) -/
  run : RunState := .off
  /-- the core has power (R172, R393) -/
  powered : Bool := false
  /-- the register files -/
  regs : Regs := {}
  /-- v0 to v63: lane l of register r at key 128·r + l, an unlisted lane is 0 (R358) -/
  v : List (Nat × BitVec 32) := []
  /-- acc0 to acc3: column n of row j at key 128·j + n, an unlisted element is 0 (R358, R405) -/
  acc : List (Nat × BitVec 48) := []
  /-- domain bit of each accumulator row: 1 float, unlisted (0) integer (R410; 0 at power-up, R362; log 80) -/
  accDom : List (Nat × Nat) := []
  /-- activation scratch at 0x000000 to 0x3FFFFF and weight buffer at 0x400000 to 0x4FFFFF (R360) -/
  loc : Lines := {}
  /-- instruction memory, bundle i at byte 128·i, an unlisted byte reads 0 (R360, R365) -/
  imem : List Host.Cell := []
  /-- bundles of instruction memory that hold a single-bit error, which the next fetch corrects and counts (R602; log 79) -/
  imemUpset : List Nat := []
  /-- retain buffer: Harbour line address, 64 bytes and tag, at most 1,024 (R382); an entry without bytes is taken, in program
  order, for a line that has still to come from another chip (R384) -/
  retain : List (Nat × (List Byte × BitVec 16)) := []
  /-- the load log, oldest first, at most 8 (R389) -/
  loadLog : List LoadLog := []
  /-- outstanding operations in issue order (R373, R375) -/
  pend : List Pend := []
  /-- index of the last bundle issued (R391) -/
  lastPc : Nat := 0
  /-- slots 5 to 7 of the bundle at pc that have acted, when the rest of that bundle waits for their transfers (R355, R373) -/
  early : List Nat := []
  /-- the registers as they stood before that bundle (R356) -/
  before : Option Regs := none
  /-- a replay drains the core, which issues nothing (R611) -/
  replaying : Bool := false
  /-- the error that is replayed was in instruction memory (R611) -/
  replayLoads : Bool := false
  /-- the wait that holds later bundles (R421, R422) -/
  wait : Option Wait := none
  /-- tick at which that wait began (R391 cause 0x09) -/
  waitTick : Nat := 0
  /-- head requests of the core outstanding (R349, R422) -/
  heads : Nat := 0
  /-- last checkpoint point passed, 0 = none (R386) -/
  point : Nat := 0
  /-- the core's last job's owner, none before any (R71) -/
  owner : Option Nat := none
  /-- the replay window is open (R608) -/
  winOpen : Bool := false
  /-- the window has been replayed (R609) -/
  winReplayed : Bool := false
  /-- the shadow frame, taken when the window opened (R610) -/
  shadow : Option Shadow := none
  /-- chips this core has written since its last system fence, with the epoch at the first write (R575) -/
  written : List (Nat × Nat) := []
  /-- chips whose writes by this core are in doubt (R575) -/
  tainted : List Nat := []
  /-- meter counts of the Spring (R109) -/
  meter : Meter := {}
  /-- SYS_CORE_EXCn.CAUSE (R393) -/
  excCause : Nat := 0
  /-- SYS_CORE_EXCn.SLOT (R393) -/
  excSlot : Nat := 0
  /-- SYS_CORE_EXCn.PC (R393) -/
  excPc : Nat := 0
  /-- SYS_CORE_EXCn.VALID (R393) -/
  excValid : Bool := false
  deriving DecidableEq, Repr

/-- Watch states (02, R53). -/
inductive WState where
  | dormant | armed | waitingEnergy | running | checkpointed | done | faulted
  deriving DecidableEq, Repr

/-- A group request of a core that waits for its round (15, R506, R507). -/
structure GroupReq where
  /-- core that issued it -/
  core : Nat := 0
  /-- GROUP (R506) -/
  group : Nat := 0
  /-- RESULT_OFFSET relative to HBR_BASE (R506) -/
  result : Nat := 0
  /-- event counter raised at completion (R507) -/
  event : Nat := 0
  deriving DecidableEq, Repr

/-- The job of a busy watch (02, R54; 03, R104 to R118; 15, R505 to R512). -/
structure Job where
  /-- tick at which its trigger became due, its place in the admission queue (R59, R61) -/
  due : Nat := 0
  /-- 0, or for a chained trigger its order number: the queue is by due tick, order, watch number (R51, R59) -/
  order : Nat := 0
  /-- FRAME_NUM or BLOCK_NUM of the first input unit (R278, R307) -/
  unitNum : Nat := 0
  /-- the input has been acquired (R60) -/
  acquired : Bool := false
  /-- every input unit is in the Harbour, and every spectral output visible (R270, R306, R337) -/
  inputsDone : Bool := false
  /-- spectral outputs still to come before admission is requested (R337) -/
  spectralLeft : Nat := 0
  /-- admission has been requested (R106) -/
  requested : Bool := false
  /-- allowance in µJ (R104) -/
  allowance : Nat := 0
  /-- grant count (R104) -/
  grants : Nat := 0
  /-- ticks of the wait in progress (R57) -/
  waitTicks : Nat := 0
  /-- the job is in Spring: its cores are released or being released -/
  inSpring : Bool := false
  /-- point K of the tide checkpoint in progress (R113) -/
  ckpt : Option Nat := none
  /-- frames are written and valid, with point K (R113, R115) -/
  frames : Option Nat := none
  /-- grantFj when the checkpoint started (R169) -/
  ckptStart : Nat := 0
  /-- sum of R109's products of the Spring in progress, in fJ; an allowance is set anew for each Spring (R109, R110, R116) -/
  grantFj : Nat := 0
  /-- sum of R109's products of the whole job, in fJ (R651) -/
  totalFj : Nat := 0
  /-- microseconds of VCORE on in this Spring (R109 LEAK) -/
  leakUs : Nat := 0
  /-- the job has resumed from a checkpoint: FLAGS.RESUMED of its records (R646) -/
  resumed : Bool := false
  /-- groups replayed (R508) -/
  replayed : Nat := 0
  /-- tide checkpoints taken (R649) -/
  ckpts : Nat := 0
  /-- per core, the chips it has written with the epoch at the first write and the chips tainted, kept through a checkpoint (R575) -/
  cwSets : List (List (Nat × Nat) × List Nat) := []
  /-- tile replays (R609) -/
  tileReplays : Nat := 0
  /-- sticky flags of cores that have ended, and the Stem engine's SAT (R480) -/
  flags : BitVec 4 := 0
  /-- per core, the further runs of the loads that its frame's load log holds, oldest first (R389; log 35) -/
  loadRuns : List (List (List (Nat × Nat × Nat))) := []
  /-- running totals of the open group of the job frame, eight layers (R511) -/
  totals : List Nat := [0, 0, 0, 0, 0, 0, 0, 0]
  /-- group requests waiting for their round (R507) -/
  groupReqs : List GroupReq := []
  /-- class and score of each LABEL or BOX record emitted (R47 kind 4) -/
  fired : List (Nat × Nat) := []
  /-- ring entry whose features the job kept last, with top class and score (R518) -/
  kept : Option (Nat × Nat × Nat) := none
  /-- Harbour offsets of the descriptors of the system controller's head requests still to issue (R338, R349) -/
  headsLeft : List Nat := []
  /-- a DISARM arrived while RUNNING (R54) -/
  disarm : Bool := false
  deriving DecidableEq, Repr

/-- Adaptation state of an ADAPT watch outside the Harbour (15, R516 to R525). -/
structure Adapt where
  /-- active service buffer: false A, true B (R516) -/
  activeB : Bool := false
  /-- the inactive buffer is pending (R517) -/
  pending : Bool := false
  /-- labels waiting for their step: ring entry, class, by the host (R519, R523) -/
  labels : List (Nat × Nat × Bool) := []
  deriving DecidableEq, Repr

/-- A watch-fatal stop that waits for the drain of the job's cores (19, R617). -/
structure Stop where
  /-- the watch -/
  watch : Nat := 0
  /-- FAULT code -/
  code : Nat := 0
  /-- exception cause, 0 = none -/
  exc : Nat := 0
  /-- the core that took the error -/
  core : Option Nat := none
  /-- tick at which the error was taken (R623) -/
  tick : Nat := 0
  /-- SOURCE of its event-log entry (R623) -/
  source : Nat := 0
  /-- ADDRESS of its event-log entry (R623) -/
  addr : Nat := 0
  deriving DecidableEq, Repr

/-- One watch of the table: its entry, its RUNTIME fields and its job (02). -/
structure Watch where
  /-- the entry of the image -/
  entry : WatchEntry := {}
  /-- WATCH_STATE.STATE (R53) -/
  state : WState := .dormant
  /-- WATCH_STATE.PENDING (R56) -/
  pending : Bool := false
  /-- tick at which the pending trigger came, and its chained order -/
  pendingDue : Nat × Nat := (0, 0)
  /-- held trigger: due tick and chained order; another member of the share group is before it (R63), or a step of the watch
  is still to run before its job starts (R517, R521) -/
  held : Option (Nat × Nat) := none
  /-- the held trigger is a GPIO trigger (R47 kind 2) -/
  heldGpio : Bool := false
  /-- WATCH_STATE.GROUP_WAIT: the trigger is held by another member of the share group (R58, R63) -/
  groupWait : Bool := false
  /-- NEXT_SEQ (R42) -/
  nextSeq : Nat := 0
  /-- low 8 bits of the last sequence number issued, WATCH_STATE.SEQ (R58) -/
  lastSeq : Nat := 0
  /-- JOBS, wrapping (R42) -/
  jobs : Nat := 0
  /-- MISSED, saturating (R42) -/
  missed : Nat := 0
  /-- REPLAYS, saturating (R42) -/
  replays : Nat := 0
  /-- CHECKPOINTS, saturating (R42) -/
  checkpoints : Nat := 0
  /-- FAULT_CODE (R42) -/
  faultCode : Nat := 0
  /-- LAST_DUE (R42) -/
  lastDue : Nat := 0
  /-- frame counter (R277) or block counter (R307) -/
  unitCounter : Nat := 0
  /-- tick of the last GPIO trigger accepted (R47) -/
  lastGpio : Option Nat := none
  /-- the job while the watch is busy -/
  job : Option Job := none
  /-- adaptation state of an ADAPT watch -/
  adapt : Option Adapt := none
  deriving DecidableEq, Repr

/-- A word or packet that a port drives onto its lane (17, R556, R559). -/
inductive LaneItem where
  | ack (seq : Nat) | nak (seq : Nat) | credit (vc units : Nat)
  | sleepReq | sleepAck | sleepNak
  | ts1 (t : TrainSet) | ts2 (t : TrainSet)
  | packet (seq epoch : Nat) (p : Packet)
  deriving DecidableEq, Repr

/-- State of a port: CW_STATUS.UP_STATE and DN_STATE codes 0 to 4 (17, R586). -/
inductive PortState where
  | off | training | up | sleep | down
  deriving DecidableEq, Repr

/-- A packet queued at a port, with the tick at which a transit packet came and whether it is one (17, R569, R570). -/
structure Queued where
  /-- the packet -/
  pkt : Packet := {}
  /-- it came from the other port (R568) -/
  transit : Bool := false
  /-- tick of its arrival (R570) -/
  tick : Nat := 0
  /-- the port through which it came and whose peer has not got its units back (R566) -/
  owes : Option PortId := none
  deriving DecidableEq, Repr

/-- One port of the Causeway (17). -/
structure Port where
  /-- UP_STATE or DN_STATE (R586) -/
  state : PortState := .off
  /-- EPOCH (R571) -/
  epoch : Nat := 0
  /-- VALID bit of the epoch (R571) -/
  valid : Bool := false
  /-- tick at which the port was last enabled (R558) -/
  enabledTick : Nat := 0
  /-- the lane PLL is locked (R557 step 2) -/
  pll : Bool := false
  /-- the receiver is aligned (R557 step 3) -/
  aligned : Bool := false
  /-- this training is from sleep and sends RESUME (R557) -/
  resume : Bool := false
  /-- valid TS1 received (R557 step 5) -/
  ts1 : Nat := 0
  /-- valid TS2 received (R557 step 6) -/
  ts2 : Nat := 0
  /-- the agreed values, once two valid TS1 have come: epoch, whether the epoch is kept, chip number (R557, R571) -/
  agreed : Option (Nat × Bool × Option Nat) := none
  /-- SEQ of the next packet transmitted (R563) -/
  txSeq : Nat := 0
  /-- SEQ expected next by the receiver (R564) -/
  rxSeq : Nat := 0
  /-- a NAK has been sent and the expected SEQ has not arrived (R564) -/
  naked : Bool := false
  /-- packets accepted and not yet acknowledged (R564) -/
  unacked : Nat := 0
  /-- the retry buffer: SEQ and packet of each transmitted packet not covered by an ACK, oldest first (R563) -/
  retry : List (Nat × Packet) := []
  /-- packets queued for transmission, in arrival order (R569) -/
  queue : List Queued := []
  /-- the last REQ, RSP and MGT packet sent was a transit packet (R569) -/
  lastTransit : List Bool := [false, false, false]
  /-- credits the transmitter holds for REQ, RSP and MGT (R566) -/
  credits : List Nat := [16, 16, 16]
  /-- units received and not yet returned for REQ, RSP and MGT (R566) -/
  owed : List Nat := [0, 0, 0]
  /-- retransmissions in a row without ACK progress (R565) -/
  retransmits : Nat := 0
  /-- code-group errors counted in the current window of 1,024 code groups (R565) -/
  codeWindow : Nat := 0
  /-- CRC_ERRS, saturating (R586) -/
  crcErrs : Nat := 0
  /-- CODE_ERRS, saturating (R586) -/
  codeErrs : Nat := 0
  /-- REPLAYS, saturating (R565) -/
  replays : Nat := 0
  /-- RETRAINS, saturating (R586) -/
  retrains : Nat := 0
  /-- the model's record of what the port drove onto its lane since its last command began, oldest first (R555 to R559) -/
  sent : List LaneItem := []
  /-- running disparity of the lane before that record, true for positive (R555) -/
  disparity : Bool := false
  deriving DecidableEq, Repr

/-- The LINK_CONFIG record (17, R585). -/
structure LinkConfig where
  /-- ROLE: 0 SINGLE, 1 HEAD, 2 MIDDLE, 3 TAIL (R549) -/
  role : Nat := 0
  /-- EXPECT_NUM, 255 = any (R551) -/
  expectNum : Nat := 255
  /-- EXPECT_LEN, 0 = any (R551) -/
  expectLen : Nat := 0
  /-- SLEEP_IDLE_US (R582) -/
  sleepIdleUs : Nat := 50
  /-- TRAIN_TIMEOUT_MS (R558) -/
  trainTimeoutMs : Nat := 5
  /-- messages: source watch, message id, destination mask (R580) -/
  messages : List (Nat × Nat × Nat) := []
  /-- declared markers: watch and source chip (R576) -/
  markers : List (Nat × Nat) := []
  deriving DecidableEq, Repr

/-- One marker entry (17, R576). -/
structure MarkerEntry where
  /-- the watch -/
  watch : Nat := 0
  /-- the source chip -/
  chip : Nat := 0
  /-- COUNT -/
  count : Nat := 0
  /-- highest logical epoch for each core index 0 to 3, none while SEEN is 0 -/
  epochs : List (Option Nat) := [none, none, none, none]
  deriving DecidableEq, Repr

/-- A chip in doubt for a local core (17, R573). -/
structure Doubt where
  /-- local core -/
  core : Nat := 0
  /-- chip in doubt -/
  chip : Nat := 0
  /-- tick of the change -/
  tick : Nat := 0
  /-- a FLUSH has been sent -/
  flushed : Bool := false
  deriving DecidableEq, Repr

/-- The Causeway block (17; registers CW). -/
structure Causeway where
  /-- the LINK_CONFIG in force; role SINGLE without one (R549) -/
  cfg : LinkConfig := {}
  /-- upstream port -/
  up : Port := {}
  /-- downstream port -/
  dn : Port := {}
  /-- CHIP_NUM and NUM_VALID (R550) -/
  chip : Option Nat := none
  /-- CHAIN_LEN, 0 = unknown (R551) -/
  chainLen : Nat := 0
  /-- MISMATCH (R551) -/
  mismatch : Bool := false
  /-- the declared marker entries (R576) -/
  markers : List MarkerEntry := []
  /-- FIRST packets of bursts whose LAST has not arrived (R562) -/
  firsts : List Packet := []
  /-- chips in doubt (R573) -/
  doubts : List Doubt := []
  /-- next transaction id of each core (R559 TXN) -/
  txn : List Nat := [0, 0, 0, 0]
  /-- CW_DROPS.TRANSIT, saturating (R570) -/
  dropTransit : Nat := 0
  /-- CW_DROPS.REFUSED_IN, saturating (R561) -/
  refusedIn : Nat := 0
  /-- CW_DROPS.MSG_LOST, saturating (R581) -/
  msgLost : Nat := 0
  /-- CW_DROPS.UNROUTABLE, saturating (R553) -/
  unroutable : Nat := 0
  /-- CW_CTRL.FORCE_AWAKE (R582) -/
  forceAwake : Bool := false
  /-- CW_STATUS.WAKE_IN (R583) -/
  wakeIn : Bool := false
  /-- CW_STATUS.WAKE_OUT (R583) -/
  wakeOut : Bool := false
  deriving DecidableEq, Repr

/-- Error counters and the event log's registers (19, R627). -/
structure Errors where
  /-- SYS_ECC_CORR.HARBOUR, saturating -/
  eccHarbour : Nat := 0
  /-- SYS_ECC_CORR.CORE, saturating -/
  eccCore : Nat := 0
  /-- SYS_ECC_CORR.OTHER, saturating -/
  eccOther : Nat := 0
  /-- SYS_ERR.REPLAYS, saturating (R613) -/
  replays : Nat := 0
  /-- SYS_ERR.UNCORR_FATAL, saturating (R609) -/
  uncorrFatal : Nat := 0
  /-- SYS_ERR.POISON_FOUND, saturating (R604) -/
  poisonFound : Nat := 0
  /-- SYS_ERR.SCRUB_PASSES, wrapping (R606) -/
  scrubPasses : Nat := 0
  /-- retained line at which the next scrub starts (R606) -/
  scrubAt : Nat := 0
  /-- SYS_LOG_CTRL.INDEX (R626) -/
  logIndex : Nat := 0
  /-- SYS_LOG_CTRL.VALID (R626) -/
  logValid : Bool := false
  /-- SYS_LOG_CTRL.EMPTY (R626) -/
  logEmpty : Bool := false
  /-- SYS_LOG_DATA0 to 15 as 64 bytes; empty stands for 64 zero bytes (R626) -/
  logData : List Byte := []
  /-- the newest event-log entry: unit and ENTRY_SEQ, none while the log holds no valid entry (R623) -/
  newest : Option (Nat × Nat) := none
  /-- the event log has been searched at start-up (R692, R716) -/
  logReady : Bool := false
  /-- SYS_LOG_STATUS.SUPPRESSED, saturating (R625, R685) -/
  suppressed : Nat := 0
  /-- ticks at which counted entries were written since the reset, newest first (R625) -/
  hour : List Nat := []
  /-- SYS_FAULT: watch and code of the latest watch to enter FAULTED (R718) -/
  fault : Option (Nat × Nat) := none
  /-- SYS_FAULTS.STOPS, saturating (R718) -/
  stops : Nat := 0
  /-- SYS_FAULTS.VALIDATION, saturating (R718) -/
  validation : Nat := 0
  deriving DecidableEq, Repr

/-- A record that an agent releases, before it is numbered (20, R647, R649). -/
structure Draft where
  /-- TYPE (R648 table) -/
  type : Nat := 0
  /-- WATCH, none for a record of no watch -/
  watch : Option Nat := none
  /-- MORE of FLAGS (R454) -/
  more : Bool := false
  /-- RESUMED of FLAGS (R647) -/
  resumed : Bool := false
  /-- FRAME -/
  frame : Nat := 0
  /-- untagged payload, record bytes 16–31 -/
  plain : List Byte := []
  /-- tagged payload, record bytes 16–23 -/
  short : List Byte := []
  deriving DecidableEq, Repr

/-- A numbered record in the backlog: its watch, the count it stands for and its 32 bytes (20, R639, R645). -/
structure Entry where
  /-- watch, none for a record of no watch -/
  watch : Option Nat := none
  /-- sequence numbers it stands for: COUNT of a LOST record, else 1 (R645) -/
  count : Nat := 1
  /-- the record's 32 bytes (R647) -/
  bytes : List Byte := []
  deriving DecidableEq, Repr

/-- A mailbox command as queued, with its copy of the arguments (20, R654). -/
structure MbxCmd where
  /-- CMD -/
  cmd : Nat := 0
  /-- TAG -/
  tag : Nat := 0
  /-- MBX_ARG0 to MBX_ARG7 when the MBX_CMD word was applied -/
  args : List Word := []
  deriving DecidableEq, Repr

/-- The STREAM frame or I²C stream read in progress (20, R642, R643, R762). -/
structure StreamRun where
  /-- bits (SPI) or clocks (I²C) of the current slot shifted so far -/
  done : Nat := 0
  /-- the record the slot carries, none for a NONE slot or a slot not begun -/
  slot : Option (List Byte) := none
  /-- the record has left the head during the slot, so its commit edge pops nothing (R762) -/
  gone : Bool := false
  deriving DecidableEq, Repr

/-- The Host port, the Outbox and the mailbox (20; blocks OBX and MBX). -/
structure HostPort where
  /-- address that follows the last byte of the previous I²C transfer (R636) -/
  i2cNext : Nat := 0
  /-- captured words waiting for the slow domain: address and word, oldest first, at most 16 (R634) -/
  wbuf : List (Nat × Word) := []
  /-- the model's record of the whole data bytes the device shifted out in the last frame or transfer (R630, R642) -/
  out : List Byte := []
  /-- the bits of a byte cut short that it shifted out after them, most significant first (R9, R10, R642) -/
  cut : List Bool := []
  /-- the stream read in progress (R642, R762) -/
  stream : Option StreamRun := none
  /-- the Outbox: records of 32 bytes, head first, at most 64 (R639) -/
  outbox : List (List Byte) := []
  /-- the backlog, oldest first, at most 512 (R639) -/
  backlog : List Entry := []
  /-- records released while the backlog could not take them, in release order (R645) -/
  held : List Draft := []
  /-- sequence number of the next record of no watch (R648) -/
  noWatchSeq : Nat := 0
  /-- OBX_IRQ.THRESH (R637) -/
  thresh : Nat := 1
  /-- OBX_IRQ.EN: REC, MBX, ALARM, BOOT (20, registers) -/
  irqEn : BitVec 4 := 0xF
  /-- OBX_IRQ.PULSE (R638) -/
  pulse : Bool := false
  /-- OBX_IRQ.ACTIVE_HIGH (R638) -/
  activeHigh : Bool := false
  /-- OBX_IRQ_STATUS.MBX, ALARM and BOOT as bits 1, 2 and 3; bit 0 is always 0, REC being computed (R637) -/
  irq : BitVec 4 := 0
  /-- sources as registered at the last LFCLK edge: REC, MBX, ALARM, BOOT (R638) -/
  irqReg : BitVec 4 := 0
  /-- tick edge at which the pulse in progress ends (R638) -/
  pulseEnd : Option Nat := none
  /-- OBX_LOST.RECORDS, saturating -/
  lostRecords : Nat := 0
  /-- OBX_LOST.MERGES, saturating -/
  lostMerges : Nat := 0
  /-- OBX_HOST_ERR.ABORTED, saturating (R644) -/
  aborted : Nat := 0
  /-- OBX_HOST_ERR.BAD_CMD, saturating (R629) -/
  badCmd : Nat := 0
  /-- OBX_HOST_ERR.WR_DROPPED, saturating (R633, R634) -/
  wrDropped : Nat := 0
  /-- SYS_STATUS.WR_IGNORED, saturating (R716) -/
  wrIgnored : Nat := 0
  /-- the mailbox queue, oldest first, at most 4 (R654) -/
  mbx : List MbxCmd := []
  /-- the mailbox command that is executing (R654, MBX_STATUS.BUSY) -/
  mbxRun : Option MbxCmd := none
  /-- MBX_ARG0 to MBX_ARG7 -/
  mbxArgs : List Word := [0, 0, 0, 0, 0, 0, 0, 0]
  /-- MBX_STATUS.CODE (R656) -/
  mbxCode : Nat := 0
  /-- MBX_STATUS.CMD (R656) -/
  mbxLastCmd : Nat := 0
  /-- MBX_STATUS.TAG (R656) -/
  mbxTag : Nat := 0
  /-- MBX_STATUS.DROPPED (R654) -/
  mbxDropped : Bool := false
  /-- MBX_STATUS.COMPLETIONS, modulo 8 (R656) -/
  mbxDone : Nat := 0
  /-- MBX_DATA0 to MBX_DATA15 as 64 bytes; empty stands for 64 zero bytes -/
  mbxData : List Byte := []
  deriving DecidableEq, Repr

/-- One GPIO pin's configuration (21, R660, R664). -/
structure Pin where
  /-- CFG byte: MODE, OD, INVERT, IN_INV, PULL, DRIVE (R660) -/
  cfg : BitVec 8 := 0
  /-- OUT_MASK (R660) -/
  mask : BitVec 24 := 0
  deriving DecidableEq, Repr

/-- The reset state of pin p (21, R659). -/
def Pin.atReset (p : Nat) : Pin :=
  if p < 8 then { cfg := 0x03, mask := 0 }
  else if p < 16 then { cfg := 0x30, mask := 0 }
  else if p < 20 then { cfg := 0x20, mask := 0 }
  else if p < 23 then { cfg := 0x30, mask := 0 }
  else { cfg := 0x00, mask := 0x000200 }

/-- The GPIO block (21, R680). -/
structure Gpio where
  /-- GPIO_IN: pad levels at the last tick (R667) -/
  level : BitVec 24 := 0
  /-- GPIO_OUT (R676) -/
  out : BitVec 24 := 0
  /-- GPIO_OE (R676) -/
  oe : BitVec 24 := 0
  /-- GPIO_PILSEL (R680) -/
  pilSel : BitVec 16 := 0
  /-- GPIO_PILCFG (R680) -/
  pilCfg : BitVec 32 := 0
  /-- GPIO_PIL_STATUS.EVENT (R671) -/
  pilEvent : BitVec 8 := 0
  /-- GPIO_PIL_STATUS.LEVEL, the filtered levels (R670) -/
  pilLevel : BitVec 8 := 0
  /-- the latest sample of each line, for the 2-tick debounce (R670) -/
  pilSample : BitVec 8 := 0
  /-- the device has left Neap and the lines not monitored there reload at the next tick (R672) -/
  reload : Bool := false
  /-- GPIO_ALARM_STATUS (R665) -/
  alarm : BitVec 8 := 0
  /-- GPIO_ALARM0 to GPIO_ALARM7 (R680) -/
  alarmCfg : List Word := [0, 0, 0, 0, 0, 0, 0, 0]
  /-- GPIO_PIN0 to GPIO_PIN23 (R680) -/
  pins : List Pin := (List.range 24).map Pin.atReset
  /-- GPIO_STATUS.FSYNC_PIN, 31 = none -/
  fsyncPin : Nat := 31
  /-- GPIO_STATUS.CWWAKE_PIN, 31 = none -/
  cwWakePin : Nat := 31
  /-- GPIO_STATUS.MAP_APPLIED (R662) -/
  mapApplied : Bool := false
  /-- GPIO_STATUS.CFG_REJECT, saturating (R677) -/
  cfgReject : Nat := 0
  /-- enables of the output functions other than FAULT: the pin map has been applied since the last reset (R663) -/
  funcsOn : Bool := false
  deriving DecidableEq, Repr

/-- Why a journal commit was requested (22, R692, R698, R702; 15, R524). -/
inductive CommitCause where
  | cal | learn | head (watch : Nat) (byHost : Bool) | clear
  deriving DecidableEq, Repr

/-- A journal commit that runs or waits (22, R690). -/
structure Commit where
  /-- 0 the calibration set, 1 to 4 head slots 0 to 3 -/
  record : Nat := 0
  /-- the body -/
  body : List Byte := []
  /-- why it was requested -/
  cause : CommitCause := .learn
  deriving DecidableEq, Repr

/-- The commit in progress (22, R684, R690). -/
structure CommitRun where
  /-- the commit -/
  commit : Commit := {}
  /-- target slot t -/
  slot : Nat := 0
  /-- its SEQ -/
  seq : Nat := 0
  /-- next unit to write: 1 upward for the body, then 0 for the header (R690) -/
  unit : Nat := 1
  /-- step 4, the clearing of the older header, is the step in progress -/
  clearing : Bool := false
  deriving DecidableEq, Repr

/-- The unit write in progress (22, R684). -/
structure UnitRun where
  /-- unit number of the store, 0 to 8,191 -/
  unit : Nat := 0
  /-- the 64 bytes being written -/
  bytes : List Byte := []
  /-- writes that failed their comparison so far -/
  fails : Nat := 0
  /-- it writes an event-log entry -/
  log : Bool := false
  deriving DecidableEq, Repr

/-- The Strand store and its write engine (22; block STR). -/
structure Strand where
  /-- the 512 KiB of the store, an unlisted byte reads 0 -/
  data : List Host.Cell := []
  /-- event-log entries waiting for the engine (R686) -/
  logQueue : List (List Byte) := []
  /-- commits queued behind the one in progress (R686) -/
  commits : List Commit := []
  /-- the commit in progress (R690) -/
  run : Option CommitRun := none
  /-- the unit write in progress (R684) -/
  writing : Option UnitRun := none
  /-- the recovery step has run (R692, R713) -/
  recovered : Bool := false
  /-- slot of the copy in force and its SEQ: the calibration record, then head slots 0 to 3 (R689) -/
  inForce : List (Option (Nat × Nat)) := [none, none, none, none, none]
  /-- STR_STATUS.FALLBACK (R693) -/
  fallback : BitVec 5 := 0
  /-- STR_STATUS.CAL_SRC (R696) -/
  calSrc : Nat := 0
  /-- body of the calibration set in use (R694, R696); empty before recovery -/
  cal : List Byte := []
  /-- STR_WRITES.UNITS, saturating (R708) -/
  units : Nat := 0
  /-- STR_WRITES.VERIFY_FAILS, saturating (R684) -/
  verifyFails : Nat := 0
  /-- STR_WRITES.COMMIT_FAILS, saturating (R691) -/
  commitFails : Nat := 0
  /-- STR_CAP_CTRL.LEARN (R702) -/
  learn : Bool := false
  /-- the capacitance samples held, newest first (R702) -/
  samples : List Nat := []
  /-- STR_CAP_CTRL.STATUS (R703) -/
  capStatus : Nat := 0
  /-- STR_CAP_RESULT.LAST_UF (R702) -/
  lastUf : Nat := 0
  deriving DecidableEq, Repr

/-- The instruction the TAP holds (24, R743). -/
inductive TapIr where
  | extest | idcode | sample | dap | bypass
  deriving DecidableEq, Repr

/-- The TAP and the debug access port (24, R742 to R747). -/
structure Tap where
  /-- instruction selected; IDCODE after Test-Logic-Reset (R743) -/
  ir : TapIr := .idcode
  /-- STATUS of the last DAP operation (R744) -/
  status : Nat := 0
  /-- ADDR of the last DAP operation (R744) -/
  addr : Word := 0
  /-- result of the last DAP operation (R744) -/
  result : Word := 0
  /-- DAP arguments 0 to 7 (R744) -/
  args : List Word := [0, 0, 0, 0, 0, 0, 0, 0]
  /-- the device is held in Slack for DAP memory operations (R745) -/
  slackHold : Bool := false
  /-- tick of the last DAP memory operation (R745) -/
  slackTick : Nat := 0
  /-- an accepted OTP_EXEC that waits for Slack: its command code (R199, R747) -/
  wait : Option Nat := none
  deriving DecidableEq, Repr

/-- What the device itself has changed since the last tick: a host write of the same tick leaves it as it stands (R666, R712). -/
structure Fresh where
  /-- SYS_ALARM bits that the device has set (R712, R719) -/
  alarm : BitVec 11 := 0
  /-- OBX_IRQ_STATUS bits that the device has set (R637, R712) -/
  irq : BitVec 4 := 0
  /-- GPIO_PIL_STATUS.EVENT bits that the device has set (R671, R712) -/
  pil : BitVec 8 := 0
  /-- alarm lines that the device has set (R665, R666) -/
  lines : BitVec 8 := 0
  /-- TIDE_STATUS.CAP_MISMATCH has been set (R130, R712) -/
  mismatch : Bool := false
  /-- STR_CAP_CTRL.LEARN has been cleared (R703, R712) -/
  learn : Bool := false
  /-- ADC_IEPE.FORCE has been cleared by SHUTDOWN (R657, R712) -/
  iepe : Bool := false
  deriving DecidableEq, Repr

/-- Reasons a step could stop the machine. The TQ-6120 has no such stop: every error it detects is one of the four classes
of R601, whose response is a state (a counter, a replay, a stopped job, a reset), so no meaning of this model raises it. -/
inductive Fault where
  /-- raised by nobody: kept so that the type of outcomes has a reason to name; safe, since it never occurs -/
  | neverRaised
  deriving DecidableEq, Repr

/-- Reasons a command has no meaning. -/
inductive Refusal where
  /-- raised by an arm of exec for a row that has no meaning yet; safe: the machine stops where the device goes on -/
  | notModelled (mnemonic : String)
  deriving DecidableEq, Repr

/-- The whole state of the device. -/
structure State where
  /-- the commands that are waiting, first in, first out (the model's own; no rule) -/
  pending : List Instr := []
  /-- start-up, reset and SYS registers (04, 23) -/
  sys : Sys := {}
  /-- Tide controller (03) -/
  tide : Tide := {}
  /-- OTP block (05) -/
  otp : Otp := {}
  /-- what the boot keeps of the image (06) -/
  image : Image := {}
  /-- pixel array (07) -/
  pix : Pix := {}
  /-- Aux ADC (08) -/
  adc : Adc := {}
  /-- Stem engine (09) -/
  stem : Stem := {}
  /-- TC0 (10) -/
  core0 : Core := {}
  /-- TC1 (10) -/
  core1 : Core := {}
  /-- TC2 (10) -/
  core2 : Core := {}
  /-- TC3 (10) -/
  core3 : Core := {}
  /-- Harbour: 32 MiB of lines, address 0 being offset 0 (R64, R488, R757) -/
  harbour : Lines := {}
  /-- the system controller's SRAM of 512 KiB, an unlisted byte reading 0: the firmware patch area stands at its start; the manifest
  copy that R231 keeps in it is Image.manifest (R85, R218, R231) -/
  sram : List Host.Cell := []
  /-- valid entries of the watch table in ascending number, none until it is built (02, R40, R45) -/
  watches : List Watch := []
  /-- the watch table has been built (R45, R725) -/
  tableBuilt : Bool := false
  /-- chained orders given so far (R51) -/
  nextOrder : Nat := 0
  /-- SYS_OWNER_SRC as R76 gives it: two bits an owner -/
  ownerSrc : BitVec 16 := 0
  /-- a SHUTDOWN command waits for jobs and commits to end: its tag (R657) -/
  shutdown : Option Nat := none
  /-- units of the Spring's cores that drain or reset are in sys.resetting; a watch-fatal stop waiting for the drain is here (R617) -/
  stopping : Option Stop := none
  /-- Causeway (17) -/
  cw : Causeway := {}
  /-- error counters and event log registers (19) -/
  err : Errors := {}
  /-- Host port, Outbox and mailbox (20) -/
  host : HostPort := {}
  /-- GPIO (21) -/
  gpio : Gpio := {}
  /-- Strand store (22) -/
  strand : Strand := {}
  /-- TAP and debug access port (24) -/
  tap : Tap := {}
  /-- what the device has changed in the tick that runs, against host writes of the same tick (R666, R712) -/
  fresh : Fresh := {}
  /-- the model's own counter of free values drawn so far: value n is Config.freeNat n (no rule of the spec) -/
  free : Nat := 0
  deriving DecidableEq, Repr

/-- The device right after power-on reset: every field at the reset value its docstring's rule gives, reset asserted with
cause POR and not yet released (R143), no command waiting. -/
def State.reset : State := { sys := { inReset := true, asserted := 1 } }

end Sys2Proof.Machine
end

