-- ==== Sys2Proof/Machine/Ops.lean ====
section
/-! DEFINITION. Machine/Ops.lean: the named operations over sparse memories, lines, lists of bytes and registers that
every family of commands uses: bit fields, little-endian words (R8), the canonical sparse form, and reading and
writing lines with their tags (R488). -/
namespace Sys2Proof.Machine
open Sys2Proof

/-- Bits [lo + len − 1 : lo] of a number. -/
def fld (w lo len : Nat) : Nat := (w >>> lo) % 2 ^ len

/-- Bit `i` of a number. -/
def bitN (w i : Nat) : Bool := (w >>> i) % 2 == 1

/-- The two's complement reading of the low `len` bits of `w`. -/
def toSigned (w len : Nat) : Int :=
  let u := w % 2 ^ len
  if 2 ^ (len - 1) ≤ u then (u : Int) - (2 ^ len : Nat) else u

/-- The low `len` bits of an integer in two's complement. -/
def ofSigned (x : Int) (len : Nat) : Nat := (x % ((2 ^ len : Nat) : Int)).toNat

/-- A number as a 0 or 1 bit. -/
def b2n (b : Bool) : Nat := if b then 1 else 0

/-- A saturating counter step: `x + n`, at most `top`. -/
def satAdd (x n top : Nat) : Nat := min top (x + n)

/-! ### Sparse memories: strictly rising keys, no entry at the default -/

/-- The value at key `k` of a sparse memory, `d` where unlisted. -/
def sget {α : Type} (d : α) : List (Nat × α) → Nat → α
  | [], _ => d
  | (k', x) :: t, k => if k < k' then d else if k = k' then x else sget d t k

/-- Write `x` at key `k`, keeping the canonical form: writing the default removes the entry. -/
def sput {α : Type} [DecidableEq α] (d : α) : List (Nat × α) → Nat → α → List (Nat × α)
  | [], k, x => if x = d then [] else [(k, x)]
  | (k', y) :: t, k, x =>
    if k < k' then (if x = d then (k', y) :: t else (k, x) :: (k', y) :: t)
    else if k = k' then (if x = d then t else (k, x) :: t)
    else (k', y) :: sput d t k x

/-- Every key of the list is above `b` and the keys rise strictly. -/
def keysRise {α : Type} (b : Int) : List (Nat × α) → Bool
  | [] => true
  | (k, _) :: t => decide (b < (k : Int)) && keysRise k t

/-- The canonical form of a sparse memory. -/
def swf {α : Type} [DecidableEq α] (d : α) (m : List (Nat × α)) : Bool :=
  keysRise (-1) m && m.all (fun e => decide (e.2 ≠ d))

/-- Remove every entry whose key lies from `lo` to `hi − 1`. -/
def sclear {α : Type} (m : List (Nat × α)) (lo hi : Nat) : List (Nat × α) :=
  m.filter (fun e => e.1 < lo || hi ≤ e.1)

/-- The memory's canonical form: addresses strictly rising, no entry equal to the byte an unlisted address reads as. -/
def Memory.wf (m : List Host.Cell) : Bool := swf (0 : Byte) m

/-- One byte of a memory; an unlisted byte reads 0 (R362, R757). -/
def rdByte (m : List Host.Cell) (a : Nat) : Byte := sget 0 m a

/-- Write one byte. -/
def wrByte (m : List Host.Cell) (a : Nat) (x : Byte) : List Host.Cell := sput 0 m a x

/-- `n` bytes from address `a`. -/
def rdBytes (m : List Host.Cell) (a : Nat) : Nat → List Byte
  | 0 => []
  | n + 1 => rdByte m a :: rdBytes m (a + 1) n

/-- Write a list of bytes from address `a`. -/
def wrBytes (m : List Host.Cell) (a : Nat) : List Byte → List Host.Cell
  | [] => m
  | b :: t => wrBytes (wrByte m a b) (a + 1) t

/-! ### Little-endian fields of byte lists (R8) -/

/-- A list of bytes as a little-endian number (R8). -/
def leNat : List Byte → Nat
  | [] => 0
  | b :: t => b.toNat + 256 * leNat t

/-- The `n` little-endian bytes of a number (R8). -/
def leBytes (x : Nat) : Nat → List Byte
  | 0 => []
  | n + 1 => BitVec.ofNat 8 x :: leBytes (x / 256) n

/-- A list of bytes as a big-endian number (R216). -/
def beNat (bs : List Byte) : Nat := leNat bs.reverse

/-- The `n` big-endian bytes of a number (R216). -/
def beBytes (x n : Nat) : List Byte := (leBytes x n).reverse

/-- Byte `i` of a list, 0 past its end. -/
def byteAt (bs : List Byte) (i : Nat) : Nat := (bs.getD i 0).toNat

/-- The little-endian field of `n` bytes at offset `o` (R8). -/
def leAt (bs : List Byte) (o n : Nat) : Nat := leNat ((bs.drop o).take n)

/-- `n` bytes from offset `o`. -/
def slice (bs : List Byte) (o n : Nat) : List Byte := (bs.drop o).take n

/-- True when every one of `n` bytes from offset `o` is zero. -/
def zeroAt (bs : List Byte) (o n : Nat) : Bool := (slice bs o n).all (· == 0)

/-- `n` zero bytes. -/
def zeros (n : Nat) : List Byte := List.replicate n 0

/-- A byte list padded with zeros, or cut, to `n` bytes. -/
def padTo (bs : List Byte) (n : Nat) : List Byte := (bs ++ zeros n).take n

/-- A word of a memory in little-endian order (R8). -/
def rdLE (m : List Host.Cell) (a n : Nat) : Nat := leNat (rdBytes m a n)

/-- `n` rounded up to a multiple of `k`. -/
def alignUp (n k : Nat) : Nat := (n + k - 1) / k * k

/-- ceil(n / k). -/
def ceilDiv (n k : Nat) : Nat := (n + k - 1) / k

/-! ### Lines with tags (15, R488) -/

/-- The 64 data bytes of line `l`. -/
def Lines.line (m : Lines) (l : Nat) : List Byte := rdBytes m.data (64 * l) 64

/-- The tag of line `l`. -/
def Lines.tag (m : Lines) (l : Nat) : BitVec 16 := sget 0 m.tags l

/-- True when line `l` holds the poison mark (R604). -/
def Lines.poisoned (m : Lines) (l : Nat) : Bool := sget false m.poison l

/-- Write a whole line with its tag, which ends any poison of it (R604). -/
def Lines.putLine (m : Lines) (l : Nat) (bs : List Byte) (t : BitVec 16) : Lines :=
  { data := wrBytes m.data (64 * l) (padTo bs 64), tags := sput 0 m.tags l t, poison := sput false m.poison l false,
    upset := m.upset.filter (fun x => x ≠ l) }

/-- Write lines from `l` upward. -/
def Lines.putLines (m : Lines) (l : Nat) : List (List Byte × BitVec 16) → Lines
  | [] => m
  | (bs, t) :: r => (m.putLine l bs t).putLines (l + 1) r

/-- Write bytes, leaving tags as they were (R403, R67). -/
def Lines.putBytes (m : Lines) (a : Nat) (bs : List Byte) : Lines := { m with data := wrBytes m.data a bs }

/-- Write a tag, leaving the data (R403). -/
def Lines.putTag (m : Lines) (l : Nat) (t : BitVec 16) : Lines := { m with tags := sput 0 m.tags l t }

/-- Mark a line poisoned (R604). -/
def Lines.mark (m : Lines) (l : Nat) : Lines := { m with poison := sput false m.poison l true }

/-- Set lines `lo` to `hi − 1` to zero data, tag 0x0000 and valid ECC (R757, R362). -/
def Lines.zero (m : Lines) (lo hi : Nat) : Lines :=
  { data := sclear m.data (64 * lo) (64 * hi), tags := sclear m.tags lo hi, poison := sclear m.poison lo hi,
    upset := m.upset.filter (fun x => x < lo || hi ≤ x) }

/-- Line l is one of those of the n bytes from a. -/
def lineIn (a n l : Nat) : Bool := a / 64 ≤ l && decide (64 * l < a + n)

/-- The lines of the n bytes from a that hold a single-bit error (R603). -/
def Lines.upsetIn (m : Lines) (a n : Nat) : Nat := (m.upset.eraseDups.filter (lineIn a n)).length

/-- An access to the n bytes from a corrects their single-bit errors (R603). -/
def Lines.correct (m : Lines) (a n : Nat) : Lines := { m with upset := m.upset.filter (fun l => !lineIn a n l) }

/-- The canonical form of a memory of lines. -/
def Lines.wf (m : Lines) : Bool := Memory.wf m.data && swf (0 : BitVec 16) m.tags && swf false m.poison

/-- Split a byte list into lines of 64 bytes, the last padded with zeros. -/
def toLines (bs : List Byte) : Nat → List (List Byte)
  | 0 => []
  | n + 1 => padTo bs 64 :: toLines (bs.drop 64) n

/-- A tag of R488 from its fields: SCALE, SATC (15 means 15 or more) and FMT. -/
def mkTag (scale satc fmt : Nat) : BitVec 16 := BitVec.ofNat 16 (scale + 256 * min 15 satc + 4096 * fmt)

/-- SCALE of a tag (R488). -/
def tagScale (t : BitVec 16) : Nat := fld t.toNat 0 8

/-- SATC of a tag (R488). -/
def tagSatc (t : BitVec 16) : Nat := fld t.toNat 8 4

/-- Replace element `i` of a list. -/
def setAt {α : Type} (l : List α) (i : Nat) (x : α) : List α := l.set i x

/-- Apply `f` to element `i` of a list, if there is one. -/
def modAt {α : Type} (l : List α) (i : Nat) (f : α → α) : List α :=
  match l[i]? with
  | some x => l.set i (f x)
  | none => l

end Sys2Proof.Machine
end

