-- ==== Sys2Proof/Machine/Flags.lean ====
section
/-! DEFINITION. Machine/Flags.lean: number formats, the one rounding rule, saturation, the four sticky flags and the
float arithmetic of 14_number_formats.md (R457 to R484), and the ROM tables (R334, R335, R341, R485). Every value is
held exactly, as a sign, a natural significand and a power of two, and rounded once. -/
namespace Sys2Proof.Machine
open Sys2Proof

/-- INEXACT, bit 0 of fl (R476). -/
def flInexact : BitVec 4 := 1
/-- SAT, bit 1 of fl (R476). -/
def flSat : BitVec 4 := 2
/-- UNDERFLOW, bit 2 of fl (R476). -/
def flUnder : BitVec 4 := 4
/-- INVALID, bit 3 of fl (R476). -/
def flInvalid : BitVec 4 := 8

/-- round_half_even(p / q) for q > 0 (R462). -/
def rhe (p : Int) (q : Nat) : Int :=
  let f := p.fdiv q
  let r := p - f * q
  if 2 * r < q then f else if (q : Int) < 2 * r then f + 1 else if f % 2 = 0 then f else f + 1

/-- round_half_even of p × 2^e (R462). -/
def rheShift (p e : Int) : Int :=
  if 0 ≤ e then p * (2 ^ e.toNat : Nat) else rhe p (2 ^ (-e).toNat)

/-- True when q divides p, so that p / q is exact. -/
def exactDiv (p : Int) (q : Nat) : Bool := p % (q : Int) == 0

/-- An integer saturated to lo..hi, and whether it saturated (R464). -/
def clampI (lo hi x : Int) : Int × Bool :=
  if x < lo then (lo, true) else if hi < x then (hi, true) else (x, false)

/-! ### Float formats (R458) -/

/-- One float format of R458. -/
structure FFmt where
  /-- exponent bits -/
  ebits : Nat
  /-- fraction bits -/
  frac : Nat
  /-- exponent bias -/
  bias : Nat
  /-- code of the largest finite magnitude -/
  maxCode : Nat
  /-- the format has infinities -/
  hasInf : Bool
  /-- canonical NaN code -/
  nan : Nat
  deriving DecidableEq, Repr

/-- E4M3 (R458). -/
def fmtE4M3 : FFmt := ⟨4, 3, 7, 0x7E, false, 0x7F⟩
/-- E5M2 (R458). -/
def fmtE5M2 : FFmt := ⟨5, 2, 15, 0x7B, true, 0x7E⟩
/-- FP16 (R458). -/
def fmtFP16 : FFmt := ⟨5, 10, 15, 0x7BFF, true, 0x7E00⟩
/-- BF16 (R458). -/
def fmtBF16 : FFmt := ⟨8, 7, 127, 0x7F7F, true, 0x7FC0⟩
/-- binary32 (R458). -/
def fmtF32 : FFmt := ⟨8, 23, 127, 0x7F7FFFFF, true, 0x7FC00000⟩

/-- Width of a format in bits. -/
def FFmt.width (f : FFmt) : Nat := 1 + f.ebits + f.frac

/-- A value of a float format: a NaN, an infinity, or (−1)^neg × m × 2^e. -/
inductive FVal where
  | nan
  | inf (neg : Bool)
  | fin (neg : Bool) (m : Nat) (e : Int)
  deriving DecidableEq, Repr

/-- The value a code of a format encodes (R458, R459, R460). -/
def FFmt.decode (f : FFmt) (code : Nat) : FVal :=
  let neg := bitN code (f.ebits + f.frac)
  let ex := fld code f.frac f.ebits
  let fr := fld code 0 f.frac
  if f.hasInf && ex == 2 ^ f.ebits - 1 then (if fr == 0 then .inf neg else .nan)
  else if !f.hasInf && ex == 2 ^ f.ebits - 1 && fr == 2 ^ f.frac - 1 then .nan
  else if ex == 0 then .fin neg fr (1 - (f.bias : Int) - f.frac)
  else .fin neg (2 ^ f.frac + fr) ((ex : Int) - f.bias - f.frac)

/-- The sign bit of a code. -/
def FFmt.signBit (f : FFmt) (neg : Bool) : Nat := if neg then 2 ^ (f.ebits + f.frac) else 0

/-- The code of the largest finite value with a sign (R465). -/
def FFmt.maxOf (f : FFmt) (neg : Bool) : Nat := f.maxCode + f.signBit neg

/-- The code of an infinity; the largest finite value where the format has none (R466). -/
def FFmt.infOf (f : FFmt) (neg : Bool) : Nat := if f.hasInf then f.maxCode + 1 + f.signBit neg else f.maxOf neg

/-- num / den compared with 2^k: true when num / den ≥ 2^k. -/
def geTwoPow (num den : Nat) (k : Int) : Bool :=
  if 0 ≤ k then den * 2 ^ k.toNat ≤ num else den ≤ num * 2 ^ (-k).toNat

/-- floor(log2(num / den)) for num, den > 0. -/
def floorLog2Q (num den : Nat) : Int :=
  let k : Int := (Nat.log2 num : Int) - Nat.log2 den
  if geTwoPow num den k then k else k - 1

/-- round_half_even(num / den × 2^k) as a natural number. -/
def rheQ (num den : Nat) (k : Int) : Nat :=
  if 0 ≤ k then (rhe (num * 2 ^ k.toNat : Nat) den).toNat else (rhe num (den * 2 ^ (-k).toNat)).toNat

/-- True when num / den × 2^k is the whole number q. -/
def exactQ (num den : Nat) (k : Int) (q : Nat) : Bool :=
  if 0 ≤ k then num * 2 ^ k.toNat == q * den else num == q * (den * 2 ^ (-k).toNat)

/-- Round (−1)^neg × num / den × 2^e to a format (R463, R465, R474, R475, R476): its code and the flags.
`ieee` selects the ieee mode of R470; E4M3 and E5M2 always work in sat mode (R466). -/
def FFmt.roundQ (f : FFmt) (ieee neg : Bool) (num den : Nat) (e : Int) : Nat × BitVec 4 :=
  if num = 0 then (f.signBit neg, 0)
  else
    let ex := floorLog2Q num den + e
    let emin : Int := 1 - (f.bias : Int)
    -- rounded with an unbounded exponent range
    let q := rheQ num den (e - (ex - f.frac))
    let tiny := decide (ex < emin) && !(decide (ex = emin - 1) && q == 2 ^ (f.frac + 1))
    -- delivered on the subnormal grid below the smallest normal
    let qe : Int := max (ex - f.frac) (emin - f.frac)
    let q' := rheQ num den (e - qe)
    let code := if ex < emin then q' else ((ex + f.bias - 1).toNat) * 2 ^ f.frac + q'
    if f.maxCode < code then
      ((if ieee && f.hasInf && f.frac ≠ 2 then f.infOf neg else f.maxOf neg), flSat)
    else
      let inexact := !exactQ num den (e - qe) q'
      (code + f.signBit neg,
        (if inexact then flInexact else 0) ||| (if tiny && inexact then flUnder else 0))

/-- Round an exact dyadic value (−1)^neg × m × 2^e to a format. -/
def FFmt.round (f : FFmt) (neg : Bool) (m : Nat) (e : Int) : Nat × BitVec 4 := f.roundQ false neg m 1 e

/-- An operand in sat mode: an infinity becomes the largest finite value with SAT, a NaN stays (R471, R472). -/
def FFmt.satOperand (f : FFmt) (code : Nat) : FVal × BitVec 4 :=
  match f.decode code with
  | .inf neg => (f.decode (f.maxOf neg), flSat)
  | v => (v, 0)

/-- The signed integer m with its sign. -/
def signedOf (neg : Bool) (m : Nat) : Int := if neg then -(m : Int) else m

/-- The exact sum of two finite values, with the sign rule of R474. -/
def addExact (n1 : Bool) (m1 : Nat) (e1 : Int) (n2 : Bool) (m2 : Nat) (e2 : Int) : Bool × Nat × Int :=
  let e := min e1 e2
  let s := signedOf n1 m1 * (2 ^ (e1 - e).toNat : Nat) + signedOf n2 m2 * (2 ^ (e2 - e).toNat : Nat)
  if s = 0 then ((if m1 = 0 && m2 = 0 then n1 && n2 else false), 0, e)
  else (decide (s < 0), s.natAbs, e)

/-- Exact scaling of a value by 2^k (R440, R493). -/
def FVal.scale (v : FVal) (k : Int) : FVal :=
  match v with
  | .fin n m e => .fin n m (e + k)
  | w => w

/-- Add two values and round once to a format in sat mode (R463, R472, R474). -/
def FFmt.add (f : FFmt) (x y : FVal) : Nat × BitVec 4 :=
  match x, y with
  | .fin n1 m1 e1, .fin n2 m2 e2 =>
    let r := addExact n1 m1 e1 n2 m2 e2
    f.round r.1 r.2.1 r.2.2
  | _, _ => (f.nan, flInvalid)

/-- Multiply two values and round once to a format in sat mode (R463, R472, R474). -/
def FFmt.mul (f : FFmt) (x y : FVal) : Nat × BitVec 4 :=
  match x, y with
  | .fin n1 m1 e1, .fin n2 m2 e2 => f.round (n1 ^^ n2) (m1 * m2) (e1 + e2)
  | _, _ => (f.nan, flInvalid)

/-- Negate a value. -/
def FVal.neg : FVal → FVal
  | .nan => .nan
  | .inf n => .inf (!n)
  | .fin n m e => .fin (!n) m e

/-- binary32 addition of two codes in sat mode (R481). -/
def f32Add (x y : Nat) : Nat × BitVec 4 :=
  let a := fmtF32.satOperand x
  let b := fmtF32.satOperand y
  let r := fmtF32.add a.1 b.1
  (r.1, r.2 ||| a.2 ||| b.2)

/-- binary32 subtraction (R481). -/
def f32Sub (x y : Nat) : Nat × BitVec 4 :=
  let a := fmtF32.satOperand x
  let b := fmtF32.satOperand y
  let r := fmtF32.add a.1 b.1.neg
  (r.1, r.2 ||| a.2 ||| b.2)

/-- binary32 multiplication (R481). -/
def f32Mul (x y : Nat) : Nat × BitVec 4 :=
  let a := fmtF32.satOperand x
  let b := fmtF32.satOperand y
  let r := fmtF32.mul a.1 b.1
  (r.1, r.2 ||| a.2 ||| b.2)

/-- A finite value as a signed integer times 2^e. -/
def FVal.signed : FVal → Int × Int
  | .fin n m e => (signedOf n m, e)
  | _ => (0, 0)

/-- x < y of two finite values; +0 and −0 compare equal unless `zeros` orders +0 above −0 (R474). -/
def FVal.lt (zeros : Bool) (x y : FVal) : Bool :=
  match x, y with
  | .fin n1 m1 e1, .fin n2 m2 e2 =>
    let e := min e1 e2
    let a := signedOf n1 m1 * (2 ^ (e1 - e).toNat : Nat)
    let b := signedOf n2 m2 * (2 ^ (e2 - e).toNat : Nat)
    if a = 0 && b = 0 then zeros && n1 && !n2 else decide (a < b)
  | _, _ => false

/-- True for a NaN. -/
def FVal.isNan : FVal → Bool
  | .nan => true
  | _ => false

/-- The reciprocal table of R485. -/
def rcpTable (m : Nat) : Nat := (rhe (2 ^ 24) (256 + m)).toNat

/-- The reciprocal operation on a binary32 code (R486). -/
def f32Rcp (x : Nat) : Nat × BitVec 4 :=
  let a := fmtF32.satOperand x
  match a.1 with
  | .fin neg m e =>
    if m = 0 then (fmtF32.maxOf neg, flSat ||| a.2)
    else
      -- |x| = 2^ex × (1 + fr), with 256 × fr = (m × 256) / 2^lg − 256
      let lg := Nat.log2 m
      let ex : Int := e + lg
      let mi := (rhe (m * 256 : Nat) (2 ^ lg)).toNat - 256
      let mi' := if mi = 256 then 0 else mi
      let ex' := if mi = 256 then ex + 1 else ex
      let r := fmtF32.round neg (rcpTable mi') (-ex' - 16)
      -- INEXACT when the result differs from 1 / x: RCP × 2^(−e' − 16) × m × 2^e = 1 exactly or not
      let exact := match fmtF32.decode r.1 with
        | .fin _ m' e' =>
          let t : Int := e' + e
          if 0 ≤ t then m' * m * 2 ^ t.toNat == 1 else m' * m == 2 ^ (-t).toNat
        | _ => false
      let sat := r.2 &&& flSat
      (r.1, (r.2 &&& flUnder) ||| sat ||| a.2 ||| (if exact || sat ≠ 0 then 0 else flInexact) |||
        (if !exact && sat = 0 && decide (Nat.log2 (rcpTable mi') + (-ex' - 16) < -126) then flUnder else 0))
  | _ => (fmtF32.nan, flInvalid)

/-! ### ROM tables (R334, R335, R341) -/

/-- The largest x below 2^(bits) with x^k ≤ n, by binary digits from the top. -/
def rootFloor (n k : Nat) : Nat → Nat → Nat
  | 0, acc => acc
  | b + 1, acc => if (acc + 2 ^ b) ^ k ≤ n then rootFloor n k b (acc + 2 ^ b) else rootFloor n k b acc

/-- EXP2[i] = round_half_even(65,536 × 2^(−i/256)), exactly (R341). -/
def exp2Table (i : Nat) : Nat :=
  if i = 0 then 65536
  else
    -- floor of twice the value: y^256 ≤ 2^256 × 2^(4096 − i)
    let y := rootFloor (2 ^ (256 + 4096 - i)) 256 18 0
    (y + 1) / 2

/-- LOG2T[m] = round_half_even(1,024 × log2(1 + m / 1,024)), exactly (R335). -/
def log2Table (m : Nat) : Nat :=
  let f := Nat.log2 ((1024 + m) ^ 2048) - 20480
  (f + 1) / 2

/-- π in units of 2^−120. -/
def piFix : Nat := 4175892906503776358826876457663557747

/-- Fixed-point scale of the trigonometric tables. -/
def trigOne : Int := (2 ^ 120 : Nat)

/-- Taylor terms: the alternating series that starts with `term` and divides by (k+1)(k+2) each step. -/
def taylor (x2 : Int) : Nat → Nat → Int → Int → Int
  | 0, _, _, acc => acc
  | n + 1, k, term, acc =>
    let term' := -(term * x2 / trigOne) / ((k + 1) * (k + 2) : Nat)
    taylor x2 n (k + 2) term' (acc + term')

/-- sin of an angle of 0 to π/2 in fixed point. -/
def sinFix (x : Int) : Int := taylor (x * x / trigOne) 26 1 x x

/-- cos of an angle of 0 to π/2 in fixed point. -/
def cosFix (x : Int) : Int := taylor (x * x / trigOne) 26 0 trigOne trigOne

/-- cos(2πk/n) in units of 2^−120, for n a power of two: by quadrants, so that multiples of π/2 are exact. -/
def cosTurn (k n : Nat) : Int :=
  let k := k % n
  let q := 4 * k / n
  let r := 4 * k % n
  let x : Int := (piFix * r / (2 * n) : Nat)
  if q = 0 then cosFix x
  else if q = 1 then (if r = 0 then 0 else -sinFix x)
  else if q = 2 then -cosFix x
  else (if r = 0 then 0 else sinFix x)

/-- sin(2πk/n) in units of 2^−120. -/
def sinTurn (k n : Nat) : Int := cosTurn (4 * k + 3 * n) (4 * n)

/-- Twiddle cos × 2³⁰, rounded half to even (R334). -/
def twiddleCos (k n : Nat) : Int := rhe (cosTurn k n) (2 ^ 90)

/-- Twiddle sin × 2³⁰, rounded half to even (R334). -/
def twiddleSin (k n : Nat) : Int := rhe (sinTurn k n) (2 ^ 90)

/-- The window table w[i] = round_half_even(32,767 × f(i)), periodic with denominator n (R334):
0 rectangular, 1 Hann, 2 Hamming, 3 Blackman. -/
def windowTable (kind i n : Nat) : Int :=
  let c1 := cosTurn i n
  let c2 := cosTurn (2 * i) n
  -- 100 × f(i) in units of 2^−120
  let f100 : Int := match kind with
    | 0 => 100 * trigOne
    | 1 => 50 * trigOne - 50 * c1
    | 2 => 54 * trigOne - 46 * c1
    | _ => 42 * trigOne - 50 * c1 + 8 * c2
  rhe (32767 * f100) (100 * 2 ^ 120)

end Sys2Proof.Machine
end

