-- ==== Sys2Proof/Machine/Operands.lean ====
section
/-! DEFINITION. Machine/Operands.lean: the state's named accessors, the fields of a tensor-core syllable (R394 to R419),
which of them each operation uses (R399), predicates (R396), immediates (R398), and the address map of a core (R360). -/
namespace Sys2Proof.Machine
open Sys2Proof

/-! ### Accessors of the state -/

/-- Tensor core c. -/
def State.core (s : State) (c : Fin 4) : Core :=
  match c with
  | 0 => s.core0
  | 1 => s.core1
  | 2 => s.core2
  | 3 => s.core3

/-- Replace tensor core c. -/
def State.setCore (s : State) (c : Fin 4) (k : Core) : State :=
  match c with
  | 0 => { s with core0 := k }
  | 1 => { s with core1 := k }
  | 2 => { s with core2 := k }
  | 3 => { s with core3 := k }

/-- Change tensor core c. -/
def State.modCore (s : State) (c : Fin 4) (f : Core → Core) : State := s.setCore c (f (s.core c))

/-- The four cores in ascending number. -/
def coreIds : List (Fin 4) := [0, 1, 2, 3]

/-- Change each core of a list. -/
def State.modCores (s : State) (cs : List (Fin 4)) (f : Core → Core) : State :=
  cs.foldl (fun s c => s.modCore c f) s

/-- Change the watch of number n. -/
def State.modWatch (s : State) (n : Nat) (f : Watch → Watch) : State :=
  { s with watches := s.watches.map (fun w => if w.entry.num = n then f w else w) }

/-- The valid table entry of watch n (R40). -/
def State.watch? (s : State) (n : Nat) : Option Watch := s.watches.find? (fun w => w.entry.num == n)

/-- Change the job of watch n. -/
def State.modJob (s : State) (n : Nat) (f : Job → Job) : State :=
  s.modWatch n (fun w => { w with job := w.job.map f })

/-- A flag bit of a watch entry: 0 VALID, 1 ARM_AT_BOOT, 2 ONE_SHOT, 3 TAG_RECORDS, 4 EXPORT_ROI, 5 MULTICHIP,
6 ADAPT, 7 ORDERED (R40). -/
def Watch.flag (w : Watch) (i : Nat) : Bool := w.entry.flags.getLsbD i

/-- The watch whose job is in Spring; at most one is (R61). -/
def State.springWatch (s : State) : Option Watch :=
  s.watches.find? (fun w => match w.job with
    | some j => j.inSpring
    | none => false)

/-- The cores of a watch's core mask in ascending number (R40, R363). -/
def Watch.coreList (w : Watch) : List (Fin 4) := coreIds.filter (fun c => w.entry.cores.getLsbD c.val)

/-- The Harbour range [offset, offset + n) lies in the window of watch w (R64, R68). -/
def Watch.inWindow (w : Watch) (off n : Nat) : Bool :=
  w.entry.hbrBase ≤ off && off + n ≤ w.entry.hbrBase + w.entry.hbrSize

/-! ### Registers of a core -/

/-- s register i. -/
def Core.sreg (k : Core) (i : Nat) : BitVec 32 := (k.regs.s[i]?).getD 0
/-- a register i. -/
def Core.areg (k : Core) (i : Nat) : BitVec 40 := (k.regs.a[i]?).getD 0
/-- p register i. -/
def Core.preg (k : Core) (i : Nat) : BitVec 128 := (k.regs.p[i]?).getD 0
/-- loop counter i. -/
def Core.lcreg (k : Core) (i : Nat) : LoopCtr := (k.regs.lc[i]?).getD {}
/-- event counter i. -/
def Core.evreg (k : Core) (i : Nat) : BitVec 8 := (k.regs.ev[i]?).getD 0
/-- lane l of vector register r. -/
def Core.lane (k : Core) (r l : Nat) : BitVec 32 := sget 0 k.v (128 * r + l)
/-- Write s register i. -/
def Core.setS (k : Core) (i : Nat) (x : BitVec 32) : Core := { k with regs := { k.regs with s := k.regs.s.setIfInBounds i x } }
/-- Write a register i. -/
def Core.setA (k : Core) (i : Nat) (x : BitVec 40) : Core := { k with regs := { k.regs with a := k.regs.a.setIfInBounds i x } }
/-- Write p register i. -/
def Core.setP (k : Core) (i : Nat) (x : BitVec 128) : Core := { k with regs := { k.regs with p := k.regs.p.setIfInBounds i x } }
/-- Write loop counter i. -/
def Core.setLc (k : Core) (i : Nat) (x : LoopCtr) : Core := { k with regs := { k.regs with lc := k.regs.lc.setIfInBounds i x } }
/-- Write event counter i. -/
def Core.setEv (k : Core) (i : Nat) (x : BitVec 8) : Core := { k with regs := { k.regs with ev := k.regs.ev.setIfInBounds i x } }
/-- Write lane l of vector register r. -/
def Core.setLane (k : Core) (r l : Nat) (x : BitVec 32) : Core := { k with v := sput 0 k.v (128 * r + l) x }
/-- Set sticky flags; no operation clears one (R424, R477). -/
def Core.raise (k : Core) (f : BitVec 4) : Core := { k with regs := { k.regs with fl := k.regs.fl ||| f } }

/-! ### Syllable fields -/

/-- CLASS of a syllable (R394). -/
def sClass (w : Nat) : Nat := fld w 0 4
/-- OP of a syllable (R394). -/
def sOp (w : Nat) : Nat := fld w 4 8
/-- PE of a syllable (R394). -/
def sPE (w : Nat) : Bool := bitN w 12
/-- LI of a syllable (R394). -/
def sLI (w : Nat) : Bool := bitN w 17
/-- A syllable with the CLASS and OP of its row of the table in place of its own. -/
def sylWord (cls op : Nat) (w : BitVec 64) : Nat := w.toNat / 4096 * 4096 + 16 * op + cls
/-- A syllable of the SYNC class with SCOPE set as its row of the table has it. -/
def syncScoped (op scope : Nat) (w : BitVec 64) : Nat :=
  let x := sylWord 0xB op w
  x - fld x 41 2 * 2 ^ 41 + scope * 2 ^ 41

/-- The class that each slot accepts (R353, R395). -/
def slotClass (slot : Nat) : Nat :=
  match slot with
  | 0 => 1
  | 1 => 2
  | 2 => 2
  | 3 => 3
  | 4 => 3
  | 5 => 4
  | 6 => 5
  | 7 => 6
  | 8 => 7
  | 9 => 8
  | 10 => 8
  | 11 => 9
  | 12 => 10
  | _ => 11

/-- Mask of bits hi..lo. -/
def bitsMask (hi lo : Nat) : Nat := (2 ^ (hi + 1 - lo) - 1) * 2 ^ lo

/-- Union of field masks. -/
def masks (l : List (Nat × Nat)) : Nat := l.foldl (fun m f => m ||| bitsMask f.1 f.2) 0

/-- The mask of fields [63:18] that an operation uses, and whether LI may be set with it; none for a reserved OP
(R398, R399 and the field tables of each class). An operation takes LI only where it has an immediate operand
selected (DEDUCED: log 24). -/
def usedFields (w : Nat) : Option (Nat × Bool) :=
  let op := sOp w
  let li := sLI w
  let ckst := fun (l : List (Nat × Nat)) => (43, 43) :: (if bitN w 43 then (36, 32) :: l else l)
  let imm16 := fun (l : List (Nat × Nat)) => if li then l else (63, 48) :: l
  match sClass w with
  | 1 =>
    match op with
    | 1 => some (masks [(29, 18)], false)
    | 2 => some (masks [(48, 44)], false)
    | 3 => some (masks ([(31, 30), (43, 32), (49, 49)] ++
        (if bitN w 49 then (if li then [] else [(63, 50)]) else [(48, 44)])), bitN w 49)
    | 4 => some (0, false)
    | _ => none
  | 2 =>
    let b := (33, 33) :: (if bitN w 33 then (if li then [] else [(57, 34)]) else [(32, 28)])
    if 1 ≤ op && op ≤ 0xF then some (masks ([(22, 18), (27, 23)] ++ b), bitN w 33)
    else if op = 0x10 then some (masks ((22, 18) :: b), bitN w 33)
    else if 0x20 ≤ op && op ≤ 0x25 then some (masks ([(20, 18), (27, 23)] ++ b), bitN w 33)
    else if 0x28 ≤ op && op ≤ 0x2A then some (masks [(20, 18), (25, 23), (30, 28)], false)
    else if op = 0x2B then some (masks [(20, 18), (25, 23)], false)
    else if op = 0x30 then some (masks [(22, 18), (26, 23)], false)
    else if op = 0x31 then some (masks [(22, 18)], false)
    else if op = 0x32 then some (masks [(22, 18), (24, 23)], false)
    else none
  | 3 =>
    let imm := if li then [] else [(63, 32)]
    match op with
    | 1 => some (masks ([(21, 18), (25, 22), (31, 31)] ++ (if bitN w 31 then imm else [(30, 26)])), bitN w 31)
    | 2 => some (masks ([(21, 18), (25, 22), (30, 26)] ++ imm), true)
    | 3 => some (masks ((21, 18) :: imm), true)
    | 4 => some (masks [(21, 18), (30, 26)], false)
    | _ => none
  | 4 =>
    let ofs := if li then [] else [(50, 27)]
    match op with
    | 1 => if fld w 51 2 = 3 then none else some (masks ([(22, 18), (26, 23), (53, 51)] ++ ofs), true)
    | 2 => if fld w 51 2 = 3 then none else some (masks ([(22, 18), (26, 23), (52, 51)] ++ ofs), true)
    | 3 => some (masks ([(22, 18), (26, 23)] ++ ofs), true)
    | 4 => some (masks ([(22, 18), (26, 23)] ++ ofs), true)
    | _ => none
  | 5 => if op = 1 then some (masks [(29, 18)], false) else none
  | 6 => if op = 1 then some (masks [(29, 18)], false) else none
  | 7 =>
    if op = 1 || op = 2 then (if fld w 31 4 ≤ 9 then some (masks [(35, 18)], false) else none)
    else if op = 3 then
      (if 1 ≤ fld w 36 10 && fld w 36 10 ≤ 512 then some (masks [(30, 22), (45, 36)], false) else none)
    else none
  | 8 =>
    let b := (41, 41) :: (if bitN w 41 then (if li then [] else [(40, 36)]) else [(35, 30)])
    let bi := bitN w 41
    let t0 := bitN w 42
    if (1 ≤ op && op ≤ 6) then some (masks ([(29, 18), (42, 42)] ++ b), bi)
    else if op = 7 || op = 8 then some (masks [(29, 18), (42, 42)], false)
    else if 9 ≤ op && op ≤ 0xF then (if t0 then none else some (masks ([(29, 18), (42, 42)] ++ b), bi))
    else if 0x10 ≤ op && op ≤ 0x12 then some (masks ([(20, 18), (29, 24), (42, 42)] ++ b), bi)
    else if op = 0x18 || op = 0x19 || op = 0x22 then some (masks [(29, 18), (42, 42)], false)
    else if op = 0x20 then some (masks [(35, 18), (42, 42)], false)
    else if op = 0x21 then some (masks [(23, 18), (40, 36), (42, 42)], false)
    else if op = 0x23 then some (masks [(29, 24), (40, 36), (42, 42)], false)
    else if op = 0x30 then
      (if fld w 43 4 ≤ 8 then some (masks [(23, 18), (46, 43), (50, 47), (63, 51), (42, 42)], false) else none)
    else if op = 0x31 then some (masks [(23, 18), (50, 47), (63, 51), (42, 42)], false)
    else none
  | 9 =>
    if op = 1 then some (masks [(30, 18)], false)
    else if op = 2 then some (masks [(21, 18), (36, 31)], false)
    else none
  | 10 => if 1 ≤ op && op ≤ 3 then some (masks [(21, 18)], false) else none
  | 11 =>
    let scope := fld w 41 2
    match op with
    | 1 => if scope = 3 then none else some (masks (ckst [(42, 41)]), false)
    | 2 => if scope = 3 || scope = 0 then none else some (masks (ckst [(21, 18), (31, 27), (42, 41)]), false)
    | 3 => some (masks (ckst (imm16 [(21, 18), (26, 22)])), true)
    | 4 => some (masks (ckst (imm16 [(21, 18), (31, 27)])), true)
    | 0xA => some (masks ([(40, 37), (44, 44)] ++ (if bitN w 44 then imm16 [] else [(31, 27)])), bitN w 44)
    | 0xB => some (masks (imm16 [(21, 18), (40, 37)]), true)
    | 0xC => some (masks ([(44, 44)] ++ (if bitN w 44 then imm16 [] else [(31, 27)])), bitN w 44)
    | 0xD => some (masks (ckst (imm16 [(31, 27)])), true)
    | 0xE => some (masks (ckst (imm16 [(31, 27)])), true)
    | _ =>
      if 5 ≤ op && op ≤ 9 then
        (if op = 9 && bitN w 27 then none
         else some (masks (ckst (imm16 ([(21, 18), (31, 27), (45, 45)] ++ (if bitN w 45 then [] else [(26, 22)])))), true))
      else none
  | _ => none

/-- CHECK where R420 does not allow it: on fence or acq with a SCOPE other than 2. -/
def checkRefused (w : Nat) : Bool :=
  sClass w == 11 && bitN w 43 && (sOp w == 1 || sOp w == 2) && fld w 41 2 != 2

/-- A syllable that its slot accepts without ILLEGAL (R354, R394, R395, R398, R399, R420). -/
def sylLegal (slot w : Nat) : Bool :=
  w == 0 ||
  (sClass w == slotClass slot &&
    match usedFields w with
    | none => false
    | some (m, liOk) =>
      let hdr := bitsMask 12 0 + (if sPE w then bitsMask 16 13 else 0) + (if liOk then bitsMask 17 17 else 0)
      w &&& (2 ^ 64 - 1 - (m ||| hdr)) == 0 && !checkRefused w)

/-- A register that a syllable writes: 0 s, 1 a, 2 v, 3 p, 4 loop counter, 5 event counter, with its number; used for
the one-writer rule of R356. The pair (6, r) is accumulator row r's bank, which only slot 8 writes. -/
def sylWrites (w : Nat) : List (Nat × Nat) :=
  let op := sOp w
  match sClass w with
  | 1 => if op = 3 then [(4, fld w 30 2)] else []
  | 2 => if 0x20 ≤ op && op ≤ 0x2B then [(3, fld w 18 3)] else [(0, fld w 18 5)]
  | 3 => [(1, fld w 18 4)]
  | 4 => if op = 1 || op = 3 then [(0, fld w 18 5)] else []
  | 8 =>
    if 0x10 ≤ op && op ≤ 0x12 then [(3, fld w 18 3)]
    else if op = 0x23 then [(0, fld w 36 5)]
    else if op = 0x31 then []
    else [(2, fld w 18 6)]
  | 11 =>
    let st := if bitN w 43 then [(0, fld w 32 5)] else []
    if op = 3 then (0, fld w 22 5) :: st
    else if 5 ≤ op && op ≤ 9 then (if bitN w 45 then st else (0, fld w 22 5) :: st)
    else if op = 0xA then [(5, fld w 37 4)]
    else st
  | _ => []

/-- The s registers that a syllable reads or writes, for the interlock of R367 with a slot 13 access in progress. -/
def sylSRefs (w : Nat) : List Nat :=
  let op := sOp w
  let wr := ((sylWrites w).filter (fun p => p.1 == 0)).map (·.2)
  wr ++ match sClass w with
  | 1 => if op = 2 || (op = 3 && !bitN w 49) then [fld w 44 5] else []
  | 2 =>
    if 0x28 ≤ op then []
    else (if op = 0x10 then [] else [fld w 23 5]) ++ (if bitN w 33 then [] else [fld w 28 5])
  | 3 => if op = 2 || op = 4 || (op = 1 && !bitN w 31) then [fld w 26 5] else []
  | 4 => if op = 2 || op = 4 then [fld w 18 5] else []
  | 8 => if op = 0x21 || (bitN w 41 && !sLI w) then [fld w 36 5] else []
  | 11 =>
    if op = 2 || op = 4 || op = 0xD || op = 0xE then [fld w 27 5]
    else if op = 9 then [fld w 27 5, fld w 27 5 + 1]
    else if 5 ≤ op && op ≤ 8 then [fld w 27 5]
    else if (op = 0xA || op = 0xC) && !bitN w 44 then [fld w 27 5]
    else []
  | _ => []

/-- Bit l of the predicate of a syllable: 1 where it is not predicated (R396). -/
def predBit (k : Core) (w l : Nat) : Bool :=
  if sPE w then (k.preg (fld w 13 3)).getLsbD l ^^ bitN w 16 else true

/-- A non-vector syllable acts (R396); a vector syllable acts where some lane does. -/
def sylActs (k : Core) (w : Nat) : Bool :=
  if sPE w && sClass w == 8 then (List.range 128).any (predBit k w) else predBit k w 0

/-! ### The address map of a core (R360) -/

/-- The range lies in activation scratch or the weight buffer. -/
def inLocal (a n : Nat) : Bool := a + n ≤ 0x500000

/-- Size of a Harbour in bytes: 32 banks of 1 MiB. -/
def hbrBytes : Nat := 0x2000000

/-- The chip field and the Harbour offset of an address whose n bytes lie in one Harbour (R360). -/
def harbourAddr (a n : Nat) : Option (Nat × Nat) :=
  let lo := a % 2 ^ 36
  if 0x40000000 ≤ lo && lo + n ≤ 0x40000000 + hbrBytes then some (a / 2 ^ 36, lo - 0x40000000) else none

end Sys2Proof.Machine
end

