-- ==== Sys2Proof/Machine/Tensor.lean ====
section
/-! DEFINITION. Machine/Tensor.lean: what the heavy units of a tensor core compute on their operands: the MAC array
(R405 to R411, R434, R468, R482, R491 to R493), the rescale unit (R414, R415, R495 to R498, R505), pooling and
crop-and-resize (R417, R439 to R450), and the vector lane operations (R412, R413, R469 to R474, R481). -/
namespace Sys2Proof.Machine
open Sys2Proof

/-! ### Exception causes (R391) -/

/-- ILLEGAL -/
def causeIllegal : Nat := 0x01
/-- PC_RANGE -/
def causePcRange : Nat := 0x02
/-- ADDRESS -/
def causeAddress : Nat := 0x03
/-- ALIGN -/
def causeAlign : Nat := 0x04
/-- DMA_DESC -/
def causeDmaDesc : Nat := 0x05
/-- LOOP -/
def causeLoop : Nat := 0x06
/-- CKPT_ORDER -/
def causeCkptOrder : Nat := 0x07
/-- EVENT_OVERFLOW -/
def causeEventOverflow : Nat := 0x08
/-- WAIT_TIMEOUT -/
def causeWaitTimeout : Nat := 0x09
/-- WINDOW -/
def causeWindow : Nat := 0x10
/-- REMOTE_REFUSED -/
def causeRemoteRefused : Nat := 0x11
/-- REMOTE_ATOMIC -/
def causeRemoteAtomic : Nat := 0x12
/-- STREAM -/
def causeStream : Nat := 0x13
/-- UNIT -/
def causeUnit : Nat := 0x14
/-- MEMORY -/
def causeMemory : Nat := 0x15

/-- The FAULT code of an exception cause (R391). -/
def faultOfCause (c : Nat) : Nat :=
  if c ≤ 0x09 then 0x26
  else match c with
    | 0x10 => 0x20
    | 0x11 => 0x21
    | 0x12 => 0x22
    | 0x13 => 0x23
    | 0x14 => 0x2B
    | _ => 0x24

/-! ### The context in which a bundle's syllables act -/

/-- What a bundle has done so far: the state, the issuing core after the syllables so far, the core as it stood before the
bundle (R356), the ranges touched (R373), slot 14, and the first poisoned line read (R604, R605). -/
structure Ctx where
  /-- the state, but for the issuing core -/
  s : State
  /-- number of the issuing core -/
  c : Fin 4
  /-- the issuing core with the effects so far -/
  k : Core
  /-- the issuing core before the bundle -/
  k0 : Core
  /-- ranges touched so far -/
  rs : List Range := []
  /-- slot 14 -/
  li : Nat := 0
  /-- the slot whose syllable acts -/
  slot : Nat := 0
  /-- first poisoned line read: source, line number, and the slot that read it -/
  bad : Option (ErrorSource × Nat × Nat) := none
  /-- the index of the next bundle, once slot 0 has chosen it -/
  target : Option Nat := none
  /-- an operand, a range, a token or a unit is not free: the bundle waits (R355) -/
  stall : Bool := false
  /-- lowest slot whose access waits for a transfer that the bundle's own slot 6 or 7 starts (R355, R356) -/
  hold : Option Nat := none
  /-- a slot reads what such a transfer has still to bring, so that its outcome is not known before (R356) -/
  blind : Bool := false
  /-- operations that this bundle starts -/
  fresh : List Pend := []
  /-- a release event of the bundle closes the window (R608) -/
  closes : Bool := false

/-- The result of a syllable: a new context, or an exception cause with the context that met it. -/
abbrev Res := Except (Nat × Ctx) Ctx

/-- Raise cause c unless b holds. -/
def require (b : Bool) (c : Nat) (x : Ctx) (k : Ctx → Res) : Res := if b then k x else .error (c, x)

/-- Two ranges overlap and one of them writes (R373). -/
def Range.conflicts (a b : Range) : Bool := decide (a.lo ≤ b.hi) && decide (b.lo ≤ a.hi) && (a.write || b.write)

/-- An outstanding operation has a range in conflict with r. -/
def Pend.conflicts (p : Pend) (r : Range) : Bool := p.ranges.any r.conflicts

/-- The operation's data come or go later: a remote transfer or a stream fetch. -/
def Pend.later (p : Pend) : Bool := p.chip.isSome || p.stream.isSome

/-- Record a touched byte range; the bundle waits where it conflicts with an outstanding operation (R373, R375), and the slot
where it conflicts with one that the bundle itself has started (R355, R356). -/
def Ctx.touch (x : Ctx) (a n : Nat) (write : Bool) : Ctx :=
  if n = 0 then x
  else
    let r : Range := ⟨a / 64, (a + n - 1) / 64, write⟩
    { x with rs := r :: x.rs, stall := x.stall || x.k0.pend.any (fun p => p.conflicts r),
             hold := x.hold.or (if x.fresh.any (fun p => p.conflicts r) then some x.slot else none),
             blind := x.blind || x.fresh.any (fun p => p.later && p.conflicts r) }

/-- Single-bit errors in the lines of a local read are corrected and counted (R361, R602). -/
def Ctx.correctLocal (x : Ctx) (a n : Nat) : Ctx :=
  if x.k.loc.upset.isEmpty then x
  else { x with k := { x.k with loc := x.k.loc.correct a n },
                s := { x.s with err := { x.s.err with eccCore := satAdd x.s.err.eccCore (x.k.loc.upsetIn a n) 0xFF } } }

/-- Record a read of local memory: its range, and its first poisoned line. -/
def Ctx.readLocal (x : Ctx) (a n : Nat) : Ctx :=
  let y := if n = 0 then x else (x.touch a n false).correctLocal a n
  if n = 0 then y
  else match y.bad, x.k.loc.poison.find? (fun p => a / 64 ≤ p.1 && p.1 ≤ (a + n - 1) / 64) with
    | none, some p => { y with bad := some (if p.1 < 0x10000 then .scratch else .weights, p.1, y.slot) }
    | _, _ => y

/-- Add metered events (R109). -/
def Ctx.metered (x : Ctx) (f : Meter → Meter) : Ctx := { x with k := { x.k with meter := f x.k.meter } }

/-- Raise sticky flags of the issuing core (R424). -/
def Ctx.raise (x : Ctx) (f : BitVec 4) : Ctx := { x with k := x.k.raise f }

/-! ### Elements in memory (R406, R428, R429, R457, R458) -/

/-- A number format of a tensor: bits an element, and how a code reads. -/
inductive Elem where
  | int (bits : Nat) (signed : Bool)
  | flt (f : FFmt)
  deriving DecidableEq, Repr

/-- Bits of an element. -/
def Elem.bits : Elem → Nat
  | .int b _ => b
  | .flt f => f.width

/-- Code of element i of packed elements from byte address a (R406). -/
def elemCode (m : List Host.Cell) (a i bits : Nat) : Nat :=
  if bits = 4 then fld (rdByte m (a + i / 2)).toNat (4 * (i % 2)) 4 else rdLE m (a + i * (bits / 8)) (bits / 8)

/-- The value of an integer code. -/
def intOf (bits : Nat) (signed : Bool) (code : Nat) : Int := if signed then toSigned code bits else (code : Int)

/-- Operand formats of a tensor mode (R405): activations, weights, Kc and r. -/
def tensorMode (mode : Nat) : Elem × Elem × Nat × Nat :=
  match mode with
  | 0 => (.int 8 true, .int 8 true, 128, 1)
  | 1 => (.int 4 true, .int 4 true, 256, 1)
  | 2 => (.int 8 true, .int 4 true, 128, 1)
  | 3 => (.int 16 true, .int 8 true, 128, 2)
  | 4 => (.flt fmtE4M3, .flt fmtE4M3, 128, 2)
  | 5 => (.flt fmtE5M2, .flt fmtE4M3, 128, 2)
  | 6 => (.flt fmtE4M3, .flt fmtE5M2, 128, 2)
  | 7 => (.flt fmtE5M2, .flt fmtE5M2, 128, 2)
  | 8 => (.flt fmtBF16, .flt fmtBF16, 128, 4)
  | _ => (.flt fmtFP16, .flt fmtFP16, 128, 4)

/-- The metered class of a tensor mode (R109, R405). -/
def meterMacs (mode n : Nat) (m : Meter) : Meter :=
  if mode = 1 then { m with mac4 := m.mac4 + n }
  else if mode = 3 then { m with mac16 := m.mac16 + n }
  else if mode ≤ 2 then { m with mac8 := m.mac8 + n }
  else if mode ≤ 7 then { m with macf8 := m.macf8 + n }
  else { m with macf16 := m.macf16 + n }

/-! ### The MAC array -/

/-- A tensor operation descriptor (R406). -/
structure TDesc where
  /-- IN -/
  inp : Nat
  /-- WT -/
  wt : Nat
  /-- M -/
  m : Nat
  /-- K -/
  k : Nat
  /-- N -/
  n : Nat
  /-- G -/
  g : Nat
  /-- KH -/
  kh : Nat
  /-- KW -/
  kw : Nat
  /-- SX -/
  sx : Nat
  /-- SY -/
  sy : Nat
  /-- DX -/
  dx : Nat
  /-- DY -/
  dy : Nat
  /-- PAD_T, PAD_B, PAD_L, PAD_R -/
  pads : List Nat
  /-- PAD_MODE -/
  padMode : Nat
  /-- IN_ZP -/
  zp : Nat
  /-- IN_W -/
  inW : Nat
  /-- IN_H -/
  inH : Nat
  /-- OUT_W -/
  outW : Nat
  /-- OUT_X0 -/
  x0 : Nat
  /-- OUT_Y0 -/
  y0 : Nat
  /-- IN_ROW -/
  inRow : Nat
  /-- WT_ROW -/
  wtRow : Nat

/-- Read a tensor operation descriptor from its line (R406). -/
def TDesc.read (b : List Byte) : TDesc :=
  { inp := leAt b 0 8, wt := leAt b 8 8, m := leAt b 0x10 2, k := leAt b 0x12 2, n := byteAt b 0x14, g := byteAt b 0x15,
    kh := byteAt b 0x16, kw := byteAt b 0x17, sx := byteAt b 0x18, sy := byteAt b 0x19, dx := byteAt b 0x1A,
    dy := byteAt b 0x1B, pads := [byteAt b 0x1C, byteAt b 0x1D, byteAt b 0x1E, byteAt b 0x1F],
    padMode := byteAt b 0x20, zp := byteAt b 0x21, inW := leAt b 0x22 2, inH := leAt b 0x24 2, outW := leAt b 0x26 2,
    x0 := leAt b 0x28 2, y0 := leAt b 0x2A 2, inRow := leAt b 0x2C 4, wtRow := leAt b 0x30 4 }

/-- lo ≤ x ≤ hi. -/
def inRange (lo hi x : Nat) : Bool := decide (lo ≤ x) && decide (x ≤ hi)

/-- Padding i of the descriptor: top, bottom, left, right. -/
def TDesc.pad (d : TDesc) (i : Nat) : Nat := d.pads.getD i 0

/-- Elements of the reduction (R407, R408). -/
def TDesc.kg (d : TDesc) (conv : Bool) : Nat := if conv then d.kh * d.kw * (d.k / d.g) else d.k

/-- Input row and column that tap (ky, kx) of accumulator row j reads (R408). -/
def TDesc.pos (d : TDesc) (j ky kx : Nat) : Int × Int :=
  let t := d.y0 * d.outW + d.x0 + j
  (((t / d.outW * d.sy + ky * d.dy : Nat) : Int) - d.pad 0, ((t % d.outW * d.sx + kx * d.dx : Nat) : Int) - d.pad 2)

/-- Every position the operation reaches lies within the padded input (R408). -/
def TDesc.reachOk (d : TDesc) : Bool :=
  (List.range d.m).all (fun j =>
    let lo := d.pos j 0 0
    let hi := d.pos j (d.kh - 1) (d.kw - 1)
    decide (-(d.pad 0 : Int) ≤ lo.1) && decide (-(d.pad 2 : Int) ≤ lo.2) &&
    decide (hi.1 ≤ (d.inH : Int) - 1 + d.pad 1) && decide (hi.2 ≤ (d.inW : Int) - 1 + d.pad 3))

/-- The descriptor meets the bounds of its table and its reserved bytes are zero (R399, R406, R408). -/
def TDesc.ok (d : TDesc) (b : List Byte) (conv : Bool) (mode : Nat) : Bool :=
  let (x, w, _, _) := tensorMode mode
  d.inp % 64 == 0 && d.wt % 64 == 0 && inRange 1 512 d.m && inRange 1 128 d.n &&
  (if conv then decide (0 < d.k) && d.k * x.bits % 512 == 0 && inRange 1 128 d.g && d.n % d.g == 0 && d.k % d.g == 0 &&
      inRange 1 15 d.kh && inRange 1 15 d.kw
    else inRange 1 8192 d.k && d.g == 1 && d.kh == 1 && d.kw == 1) &&
  [d.sx, d.sy, d.dx, d.dy].all (inRange 1 8) && d.pads.all (inRange 0 15) &&
  decide (d.padMode ≤ 1) && (d.padMode == 0 || decide (mode ≤ 3)) &&
  [d.inW, d.inH, d.outW].all (inRange 1 4096) &&
  d.inRow % 64 == 0 && d.wtRow % 64 == 0 && decide (d.n * w.bits ≤ 8 * d.wtRow) && zeroAt b 0x34 12 &&
  (!conv || d.reachOk)

/-- Where the activation of reduction element kk of accumulator row j, column n lies: its byte address within the
tensor's pixel or row and its element index there; none for a pad position. The key names the block it belongs to (R491). -/
def TDesc.act (d : TDesc) (conv : Bool) (bits j n kk : Nat) : Option (Nat × Nat) × Nat :=
  if conv then
    let cg := d.k / d.g
    let tap := kk / cg
    let ch := n / (d.n / d.g) * cg + kk % cg
    let p := d.pos j (tap / d.kw) (tap % d.kw)
    let key := tap * 65536 + ch * bits / 512
    if p.1 < 0 || p.2 < 0 || (d.inH : Int) ≤ p.1 || (d.inW : Int) ≤ p.2 then (none, key)
    else (some (d.inp + p.1.toNat * d.inRow + p.2.toNat * (d.k * bits / 8), ch), key)
  else (some (d.inp + j * d.inRow, kk), kk * bits / 512)

/-- The scale exponent of the line that holds element i at address a. -/
def lineScale (m : Lines) (a i bits : Nat) : Nat := tagScale (m.tag ((a + i * bits / 8) / 64))

/-- A block's contribution to an integer accumulator element (R491, R492). -/
def blockValue (p : Int) (ex ew : Nat) : Int :=
  if ex = 255 || ew = 255 then 0 else rheShift p ((ex : Int) - 127 + ((ew : Int) - 127))

/-- Add a contribution to an INT48 element, saturating (R468). -/
def acc48Add (a : Int × Bool) (x : Int) : Int × Bool :=
  let r := clampI (-(2 ^ 47 : Nat)) ((2 ^ 47 : Nat) - 1) (a.1 + x)
  (r.1, a.2 || r.2)

/-- The integer value of the pad code of R408: IN_ZP in the activation format under PAD_MODE 1, otherwise 0. -/
def TDesc.padInt (d : TDesc) (bits : Nat) : Int :=
  if d.padMode = 1 then toSigned d.zp (min bits 8) else 0

/-- One integer accumulator element: the blocks of its reduction in ascending order (R407 to R409, R491). -/
def intElement (m : Lines) (d : TDesc) (conv : Bool) (xb wb j n : Nat) (a0 : Int) : Int × Bool :=
  let stp := fun (st : (Option Nat × Int × Nat × Nat) × (Int × Bool)) kk =>
    let (loc, key) := d.act conv xb j n kk
    let x := match loc with
      | some (a, i) => toSigned (elemCode m.data a i xb) xb
      | none => d.padInt xb
    let wa := d.wt + kk * d.wtRow
    let p := x * toSigned (elemCode m.data wa n wb) wb
    let ((k0, s, ex, ew), acc) := st
    if k0 = some key then ((k0, s + p, ex, ew), acc)
    else
      let acc := if k0 = none then acc else acc48Add acc (blockValue s ex ew)
      let ex' := match loc with
        | some (a, i) => lineScale m a i xb
        | none => 127
      ((some key, p, ex', lineScale m wa n wb), acc)
  let ((k0, s, ex, ew), acc) := (List.range (d.kg conv)).foldl stp ((none, 0, 127, 127), (a0, false))
  if k0 = none then acc else acc48Add acc (blockValue s ex ew)

/-- One float accumulator element: products rounded to binary32 and added in ascending k (R409, R482, R493). -/
def fltElement (m : Lines) (d : TDesc) (conv : Bool) (xf wf : FFmt) (j n : Nat) (a0 : Nat) : Nat × BitVec 4 :=
  (List.range (d.kg conv)).foldl (fun (st : Nat × BitVec 4) kk =>
    let (loc, _) := d.act conv xf.width j n kk
    let wa := d.wt + kk * d.wtRow
    let w := wf.satOperand (elemCode m.data wa n wf.width)
    let ew := lineScale m wa n wf.width
    let (x, ex) := match loc with
      | some (a, i) => (xf.satOperand (elemCode m.data a i xf.width), lineScale m a i xf.width)
      | none => ((FVal.fin false 0 0, 0), 127)
    let (pc, pf) :=
      if ex = 255 || ew = 255 then (fmtF32.nan, flInvalid)
      else fmtF32.mul (x.1.scale ((ex : Int) - 127)) (w.1.scale ((ew : Int) - 127))
    let r := fmtF32.add (fmtF32.decode st.1) (fmtF32.decode pc)
    (r.1, st.2 ||| x.2 ||| w.2 ||| pf ||| r.2)) (a0, 0)

/-- The value of accumulator element (row, column) as 48 bits. -/
def Core.accel (k : Core) (row n : Nat) : BitVec 48 := sget 0 k.acc (128 * row + n)

/-- The byte span [lo, hi) of the rows of A or input pixels that an operation may read. -/
def TDesc.inSpan (d : TDesc) (conv : Bool) (bits : Nat) : Nat × Nat :=
  if conv then
    let js := (List.range d.m).flatMap (fun j => [d.pos j 0 0, d.pos j (d.kh - 1) (d.kw - 1)])
    let cl := fun (hi : Nat) (v : Int) => min (hi - 1) v.toNat
    let ad := js.map (fun p => d.inp + cl d.inH p.1 * d.inRow + cl d.inW p.2 * (d.k * bits / 8))
    (ad.foldl min (ad.headD 0), ad.foldl max 0 + d.k * bits / 8)
  else (d.inp, d.inp + (d.m - 1) * d.inRow + ceilDiv (d.k * bits) 8)

/-- The domain bit of an accumulator row: float (R410). -/
def Core.floatRow (k : Core) (row : Nat) : Bool := sget 0 k.accDom row == 1

/-- `mm` and `conv` (R405 to R411): the descriptor, the operand ranges, and every accumulator element. -/
def tensorOp (conv : Bool) (w : Nat) (x : Ctx) : Res :=
  let da := (x.k0.areg (fld w 18 4)).toNat
  let mode := fld w 31 4
  let row := 128 * fld w 22 2 + fld w 24 7
  let accum := bitN w 35
  require (da % 64 == 0) causeAlign x fun x =>
  require (inLocal da 64) causeAddress x fun x =>
  let b := rdBytes x.k.loc.data da 64
  let d := TDesc.read b
  let x := x.readLocal da 64
  let (xe, we, _, _) := tensorMode mode
  let fltMode := decide (4 ≤ mode)
  require (d.ok b conv mode && decide (row + d.m ≤ 512)) causeIllegal x fun x =>
  require (!accum || (List.range d.m).all (fun j => x.k0.floatRow (row + j) == fltMode)) causeIllegal x fun x =>
  let (lo, hi) := d.inSpan conv xe.bits
  let wspan := (d.kg conv - 1) * d.wtRow + ceilDiv (d.n * we.bits) 8
  require (inLocal lo (hi - lo) && inLocal d.wt wspan) causeAddress x fun x =>
  let x := (x.readLocal lo (hi - lo)).readLocal d.wt wspan
  let loc := x.k.loc
  let cell := fun (k : Core) (j n : Nat) =>
    let old := if accum then x.k0.accel (row + j) n else 0
    match xe, we with
    | .flt xf, .flt wf =>
      let r := fltElement loc d conv xf wf j n (fld old.toNat 0 32)
      { k.raise r.2 with acc := sput 0 k.acc (128 * (row + j) + n) (BitVec.ofNat 48 r.1) }
    | _, _ =>
      let r := intElement loc d conv xe.bits we.bits j n (toSigned old.toNat 48)
      { k.raise (if r.2 then flSat else 0) with
        acc := sput 0 k.acc (128 * (row + j) + n) (BitVec.ofNat 48 (ofSigned r.1 48)) }
  let k := (List.range d.m).foldl (fun k j =>
    let k := (List.range d.n).foldl (fun k n => cell k j n) k
    { k with accDom := sput 0 k.accDom (row + j) (b2n fltMode) }) x.k
  .ok ({ x with k := k }.metered (meterMacs mode (d.m * d.kg conv * d.n)))

/-- `aclr` (R405): CM rows become zero in every column. DESIGN CHOICE (log 80): their domain bit then says integer. -/
def aclrOp (w : Nat) (x : Ctx) : Res :=
  let row := 128 * fld w 22 2 + fld w 24 7
  let cm := fld w 36 10
  require (decide (row + cm ≤ 512)) causeIllegal x fun x =>
  .ok { x with k := { x.k with
    acc := sclear x.k.acc (128 * row) (128 * (row + cm)), accDom := sclear x.k.accDom row (row + cm) } }

/-! ### Output formats (R414, R417, R490) -/

/-- The element format of an OFMT code (R414). -/
def ofmtElem (o : Nat) : Elem :=
  match o with
  | 0 => .int 8 true
  | 1 => .int 8 false
  | 2 => .int 4 true
  | 3 => .int 16 true
  | 4 => .int 32 true
  | 5 => .flt fmtE4M3
  | 6 => .flt fmtE5M2
  | 7 => .flt fmtBF16
  | 8 => .flt fmtFP16
  | _ => .flt fmtF32

/-- The tag format code of an OFMT code (R490). -/
def ofmtTag (o : Nat) : Nat :=
  match o with
  | 0 => 2
  | 1 => 3
  | 2 => 1
  | 3 => 4
  | 4 => 5
  | 5 => 6
  | 6 => 7
  | 7 => 8
  | 8 => 9
  | _ => 10

/-- Smallest code of an integer format (R457). -/
def intLo (bits : Nat) (signed : Bool) : Int := if signed then -(2 ^ (bits - 1) : Nat) else 0
/-- Largest code of an integer format (R457). -/
def intHi (bits : Nat) (signed : Bool) : Int := if signed then (2 ^ (bits - 1) : Nat) - 1 else (2 ^ bits : Nat) - 1

/-- Pack element codes of a width into bytes (R406, R428). -/
def packElems (bits : Nat) : List Nat → List Byte
  | [] => []
  | [x] => if bits = 4 then [BitVec.ofNat 8 (x % 16)] else leBytes x (bits / 8)
  | x :: y :: t =>
    if bits = 4 then BitVec.ofNat 8 (x % 16 + 16 * (y % 16)) :: packElems bits t
    else leBytes x (bits / 8) ++ leBytes y (bits / 8) ++ packElems bits t

/-- A computed element: its code, its flags, and whether it saturated (R467). -/
structure OutEl where
  /-- code -/
  code : Nat
  /-- flags it sets -/
  fl : BitVec 4
  /-- saturated -/
  sat : Bool

/-- Saturated elements of each line of a pixel's elements, in line order. -/
def satPerLine (per : Nat) : Nat → List OutEl → List Nat
  | 0, _ => []
  | n + 1, es => ((es.take per).filter (·.sat)).length :: satPerLine per n (es.drop per)

/-- Write one output pixel's elements: whole lines, zero after the last element, tags with the scale, the line's
saturation count and the format code (R415, R418). -/
def writePixel (k : Core) (a ofmt scale : Nat) (es : List OutEl) : Core :=
  let bits := (ofmtElem ofmt).bits
  let nl := ceilDiv (es.length * bits) 512
  let data := toLines (packElems bits (es.map (·.code))) nl
  let sats := satPerLine (512 / bits) nl es
  let k := { k with loc := k.loc.putLines (a / 64) (List.zipWith (fun d s => (d, mkTag scale s (ofmtTag ofmt))) data sats) }
  k.raise (es.foldl (fun f e => f ||| e.fl) 0)

/-! ### Rescale (R414, R415, R495 to R498) -/

/-- An exact value on its way to the output: a NaN, an infinity, or num × 2^e with the sign of a zero. -/
inductive Exact where
  | nan
  | inf (neg : Bool)
  | num (negZero : Bool) (m : Int) (e : Int)

/-- The exact value of a decoded float. -/
def FVal.exact : FVal → Exact
  | .nan => .nan
  | .inf n => .inf n
  | .fin n m e => .num n (signedOf n m) e

/-- Exact sum. -/
def Exact.add (x y : Exact) : Exact :=
  match x, y with
  | .num z1 m1 e1, .num z2 m2 e2 =>
    let e := min e1 e2
    let s := m1 * (2 ^ (e1 - e).toNat : Nat) + m2 * (2 ^ (e2 - e).toNat : Nat)
    .num (if m1 = 0 && m2 = 0 then z1 && z2 else decide (s < 0)) s e
  | .inf a, .inf b => if a = b then .inf a else .nan
  | .inf a, .num .. => .inf a
  | .num .., .inf b => .inf b
  | _, _ => .nan

/-- Requantise an exact value to an integer format: round, add the zero point, saturate (R497, R464, R473). R424 allows RESCALE
no INVALID for an integer output. -/
def requantInt (bits : Nat) (signed : Bool) (mult shift : Nat) (zp : Int) (a : Exact) : Int × OutEl :=
  match a with
  | .num _ m e =>
    let e' := e - shift
    let r := rheShift (m * mult) e'
    let inexact := e' < 0 && !exactDiv (m * mult) (2 ^ (-e').toNat)
    let (v, sat) := clampI (intLo bits signed) (intHi bits signed) (r + zp)
    (v, ⟨0, if sat then flSat else if inexact then flInexact else 0, sat⟩)
  | _ => (zp, ⟨0, 0, false⟩)

/-- Requantise an exact value to a float format (R497, R463, R465, R471, R472). -/
def requantFlt (f : FFmt) (ieee : Bool) (mult shift : Nat) (a : Exact) : OutEl :=
  match a with
  | .num z m e =>
    let r := f.roundQ ieee (if m = 0 then z else decide (m < 0)) (m * mult).natAbs 1 (e - shift)
    ⟨r.1, r.2, r.2 &&& flSat != 0⟩
  | .inf n => ⟨f.infOf n, 0, false⟩
  | .nan => ⟨f.nan, flInvalid, false⟩

/-- The parameters of a rescale descriptor (R414). -/
structure RDesc where
  /-- OUT -/
  out : Nat
  /-- RQ -/
  rq : Nat
  /-- BIAS -/
  bias : Nat
  /-- M -/
  m : Nat
  /-- N -/
  n : Nat
  /-- OFMT -/
  ofmt : Nat
  /-- ACT -/
  act : Nat
  /-- ACT_ARG -/
  arg : Nat
  /-- OUT_EXP -/
  exp : Nat
  /-- FLAGS -/
  flags : Nat
  /-- OUT_STRIDE -/
  stride : Nat
  /-- LUT -/
  lut : Nat

/-- Read a rescale descriptor (R414). -/
def RDesc.read (b : List Byte) : RDesc :=
  { out := leAt b 0 8, rq := leAt b 8 8, bias := leAt b 0x10 8, m := leAt b 0x18 2, n := byteAt b 0x1A,
    ofmt := byteAt b 0x1B, act := byteAt b 0x1C, arg := byteAt b 0x1D, exp := byteAt b 0x1E, flags := byteAt b 0x1F,
    stride := leAt b 0x20 4, lut := leAt b 0x24 8 }

/-- The bounds of the rescale descriptor (R399, R414, R415). -/
def RDesc.ok (d : RDesc) (b : List Byte) (rqv : Bool) : Bool :=
  [d.out, d.rq, d.bias, d.stride].all (fun a => a % 64 == 0) && (d.act != 3 || d.lut % 64 == 0) && inRange 1 512 d.m && (!rqv || d.m == 1) &&
  inRange 1 128 d.n && decide (d.ofmt ≤ 9) && decide (d.act ≤ 3) &&
  (if d.act = 2 then inRange 1 15 d.arg else d.arg == 0) && decide (d.exp ≤ 254) && decide (d.flags < 8) &&
  decide (d.n * (ofmtElem d.ofmt).bits ≤ 8 * d.stride) && (d.act != 3 || decide (d.ofmt ≤ 1)) && zeroAt b 0x2C 20

/-- One rescaled element: bias, requantisation, activation, clamp (R415, R497, R498). `lut` reads the table. -/
def rescaleEl (d : RDesc) (entry : Nat) (a : Exact) (lut : Nat → Nat) : OutEl :=
  let mult := fld entry 0 24
  let shift := fld entry 24 6
  match ofmtElem d.ofmt with
  | .int bits signed =>
    let zp := intOf 8 signed (fld entry 32 8)
    let (v, e) := requantInt bits signed mult shift zp a
    let (v, fl) :=
      if d.act = 1 then (max v zp, e.fl)
      else if d.act = 2 && v < zp then
        (zp - rhe (zp - v) (2 ^ d.arg), e.fl ||| (if exactDiv (zp - v) (2 ^ d.arg) then 0 else flInexact))
      else if d.act = 3 then
        (intOf 8 signed (lut (if signed then (v + 128).toNat else v.toNat)), e.fl)
      else (v, e.fl)
    let v :=
      if bitN entry 59 && decide (bits ≤ 8) then
        min (max v (intOf 8 signed (fld entry 40 8))) (intOf 8 signed (fld entry 48 8))
      else v
    ⟨ofSigned v bits, fl, e.sat⟩
  | .flt f =>
    let e := requantFlt f (bitN d.flags 1 && decide (7 ≤ d.ofmt)) mult shift a
    match f.decode e.code with
    | .fin true m x =>
      if m = 0 then (if d.act = 1 then ⟨0, e.fl, e.sat⟩ else e)
      else if d.act = 1 then ⟨0, e.fl, e.sat⟩
      else if d.act = 2 then
        let r := f.round true m (x - d.arg)
        ⟨r.1, e.fl ||| r.2, e.sat⟩
      else e
    | .inf true => if d.act = 1 then ⟨0, e.fl, e.sat⟩ else e
    | _ => e

/-- An operand of the rescale unit as an exact value: sat mode replaces an infinity with SAT (R471). -/
def rescaleOperand (ieee : Bool) (code : Nat) : Exact × BitVec 4 :=
  if ieee then ((fmtF32.decode code).exact, 0)
  else let v := fmtF32.satOperand code; (v.1.exact, v.2)

/-- `rqa` and `rqv` (R414 to R416, R495 to R498, R505). -/
def rescaleOp (rqv : Bool) (w : Nat) (x : Ctx) : Res :=
  let da := (x.k0.areg (fld w 18 4)).toNat
  let row := 128 * fld w 22 2 + fld w 24 7
  require (da % 64 == 0) causeAlign x fun x =>
  require (inLocal da 64) causeAddress x fun x =>
  let b := rdBytes x.k.loc.data da 64
  let d := RDesc.read b
  let x := x.readLocal da 64
  let biasOn := bitN d.flags 0
  let nl := ceilDiv (d.n * (ofmtElem d.ofmt).bits) 512
  require (d.ok b rqv && (rqv || decide (row + d.m ≤ 512))) causeIllegal x fun x =>
  require (inLocal d.out ((d.m - 1) * d.stride + 64 * nl) && inLocal d.rq (8 * d.n) &&
    inLocal d.bias (if biasOn then 4 * d.n else 1) && (d.act != 3 || inLocal d.lut 256)) causeAddress x fun x =>
  let x := x.readLocal d.rq (8 * d.n)
  let x := if biasOn then x.readLocal d.bias (4 * d.n) else x
  let x := if d.act = 3 then x.readLocal d.lut 256 else x
  let x := x.touch d.out ((d.m - 1) * d.stride + 64 * nl) true
  let mem := x.k.loc.data
  let ieee := bitN d.flags 1 && decide (7 ≤ d.ofmt)
  let el := fun (j n : Nat) =>
    let isF := if rqv then bitN d.flags 2 else x.k0.floatRow (row + j)
    let raw := if rqv then (x.k0.lane (fld w 31 6) n).toNat else (x.k0.accel (row + j) n).toNat
    let bc := rdLE mem (d.bias + 4 * n) 4
    let (a, f) :=
      if isF then
        let p := rescaleOperand ieee (fld raw 0 32)
        let q := if biasOn then rescaleOperand ieee bc else (.num true 0 0, 0)
        (if biasOn then p.1.add q.1 else p.1, p.2 ||| q.2)
      else (.num false (toSigned raw (if rqv then 32 else 48) + (if biasOn then toSigned bc 32 else 0)) 0, 0)
    let e := rescaleEl d (rdLE mem (d.rq + 8 * n) 8) a (fun i => (rdByte mem (d.lut + i)).toNat)
    { e with fl := e.fl ||| f }
  let layer := fld (rdLE mem d.rq 8) 56 3
  let k := (List.range d.m).foldl (fun k j =>
    let es := (List.range d.n).map (el j)
    let k := writePixel k (d.out + j * d.stride) d.ofmt d.exp es
    let add := (satPerLine (512 / (ofmtElem d.ofmt).bits) nl es).foldl (fun t s => t + min 15 s) 0
    let old := ((k.regs.satc[layer]?).getD 0).toNat
    { k with regs := { k.regs with satc := k.regs.satc.setIfInBounds layer (BitVec.ofNat 32 (satAdd old add (2 ^ 32 - 1))) } }) x.k
  .ok { x with k := k }

/-! ### Pool and crop (R439 to R450) -/

/-- An input element of the pool unit: its code or value times 2^(E − 127), and the flags of reading it (R440, R471). -/
def poolIn (m : Lines) (e : Elem) (a i : Nat) : FVal × BitVec 4 :=
  let ex := lineScale m a i e.bits
  let code := elemCode m.data a i e.bits
  if ex = 255 then (.fin false 0 0, flInvalid)
  else
    let v := match e with
      | .int b sg => let x := intOf b sg code; (FVal.fin (decide (x < 0)) x.natAbs 0, (0 : BitVec 4))
      | .flt f => f.satOperand code
    (v.1.scale ((ex : Int) - 127), v.2)

/-- Round (−1)^neg × num / den × 2^e to a pool format (R441). -/
def poolOut (e : Elem) (neg : Bool) (num den : Nat) (x : Int) : OutEl :=
  match e with
  | .int b sg =>
    let n := signedOf neg num
    let (p, q) := if 0 ≤ x then (n * (2 ^ x.toNat : Nat), den) else (n, den * 2 ^ (-x).toNat)
    let (v, sat) := clampI (intLo b sg) (intHi b sg) (rhe p q)
    ⟨ofSigned v b, if sat then flSat else if exactDiv p q then 0 else flInexact, sat⟩
  | .flt f =>
    let r := f.roundQ false neg num den x
    ⟨r.1, r.2, r.2 &&& flSat != 0⟩

/-- The output of a NaN (R472, R473). -/
def poolNan (e : Elem) : OutEl :=
  match e with
  | .int _ _ => ⟨0, flInvalid, false⟩
  | .flt f => ⟨f.nan, flInvalid, false⟩

/-- Round one value to a pool format, joining the flags of reading it. -/
def poolRound (e : Elem) (v : FVal) (fl : BitVec 4) : OutEl :=
  match v with
  | .fin n m x => let r := poolOut e n m 1 x; { r with fl := r.fl ||| fl }
  | _ => let r := poolNan e; { r with fl := r.fl ||| fl }

/-- The exact weighted sum of values divided by den × 2^sh, rounded once (R444, R445, R449). -/
def poolSum (e : Elem) (vs : List (Nat × (FVal × BitVec 4))) (den : Nat) (sh : Int) : OutEl :=
  let fl := vs.foldl (fun f v => f ||| v.2.2) (0 : BitVec 4)
  if vs.any (fun v => v.2.1.isNan) then let r := poolNan e; { r with fl := r.fl ||| fl }
  else
    let t := vs.foldl (fun (acc : Bool × Nat × Int) v =>
      match v.2.1 with
      | .fin n m x => addExact acc.1 acc.2.1 acc.2.2 n (v.1 * m) x
      | _ => acc) (true, 0, 0)
    let r := poolOut e (if vs.isEmpty then false else t.1) t.2.1 den (t.2.2 - sh)
    { r with fl := r.fl ||| fl }

/-- The flags that R424 allows a POOL result: SAT; UNDERFLOW and INVALID in float formats; INEXACT for averages and bilinear
samples. -/
def poolFlags (e : Elem) (averages : Bool) : BitVec 4 :=
  flSat ||| (match e with
    | .int _ _ => 0
    | .flt _ => flUnder ||| flInvalid) ||| (if averages then flInexact else 0)

/-- A result with the allowed flags only (R476). -/
def OutEl.only (mask : BitVec 4) (r : OutEl) : OutEl := { r with fl := r.fl &&& mask }

/-- The largest value, +0 above −0 (R444, R474). -/
def poolMax (e : Elem) (vs : List (FVal × BitVec 4)) : OutEl :=
  let fl := vs.foldl (fun f v => f ||| v.2) (0 : BitVec 4)
  if vs.any (fun v => v.1.isNan) then let r := poolNan e; { r with fl := r.fl ||| fl }
  else match vs with
    | [] => poolOut e false 0 1 0
    | v :: t => poolRound e (t.foldl (fun m x => if m.lt true x.1 then x.1 else m) v.1) fl

/-- Two line ranges overlap (R442). -/
def linesOverlap (a n b m : Nat) : Bool :=
  decide (a / 64 ≤ (b + m - 1) / 64) && decide (b / 64 ≤ (a + n - 1) / 64)

/-- `pool` and `gpool` (R417, R418, R439 to R445). -/
def poolOp (global : Bool) (w : Nat) (x : Ctx) : Res :=
  let da := (x.k0.areg (fld w 18 4)).toNat
  require (da % 64 == 0) causeAlign x fun x =>
  require (inLocal da 64) causeAddress x fun x =>
  let b := rdBytes x.k.loc.data da 64
  let inp := leAt b 0 8
  let out := leAt b 8 8
  let inW := leAt b 0x10 2
  let inH := leAt b 0x12 2
  let outW := leAt b 0x14 2
  let outH := leAt b 0x16 2
  let cl := leAt b 0x18 2
  let fmt := byteAt b 0x1A
  let opk := byteAt b 0x1B
  let g := fun i => byteAt b (0x1C + i)
  let wh := g 0
  let ww := g 1
  let sx := g 2
  let sy := g 3
  let dx := g 4
  let dy := g 5
  let pt := g 6
  let pb := g 7
  let pl := g 8
  let pr := g 9
  let inRow := leAt b 0x28 4
  let outRow := leAt b 0x2C 4
  let x := x.readLocal da 64
  let fits := fun (o i p q k s dd : Nat) => decide (dd * (k - 1) + 1 ≤ i + p + q) &&
    decide (o ≤ (i + p + q - dd * (k - 1) - 1) / s + 1)
  let shape :=
    if global then (List.range 10).all (fun i => g i == 0) && outW == 1 && outH == 1 && inRange 1 2 opk
    else [wh, ww].all (inRange 1 15) && [sx, sy, dx, dy].all (inRange 1 8) && [pt, pb, pl, pr].all (inRange 0 15) &&
      decide (opk ≤ 2) && fits outW inW pl pr ww sx dx && fits outH inH pt pb wh sy dy
  let inN := (inH - 1) * inRow + inW * cl * 64
  let outN := (outH - 1) * outRow + outW * cl * 64
  require ([inp, out, inRow, outRow].all (fun a => a % 64 == 0) && [inW, inH, outW, outH].all (inRange 1 4096) &&
    inRange 1 64 cl && decide (fmt ≤ 9) && fmt != 2 && zeroAt b 0x26 2 && zeroAt b 0x30 16 && shape &&
    !linesOverlap inp inN out outN) causeIllegal x fun x =>
  require (inLocal inp inN && inLocal out outN) causeAddress x fun x =>
  let x := (x.readLocal inp inN).touch out outN true
  let m := x.k.loc
  let e := ofmtElem fmt
  let px := fun (iy ix c : Nat) => poolIn m e (inp + iy * inRow + ix * cl * 64) c
  let one := fun (oy ox c : Nat) =>
    if global then
      (poolSum e ((List.range inH).flatMap (fun iy => (List.range inW).map (fun ix => (1, px iy ix c)))) (inW * inH) 0).only
        (poolFlags e true)
    else
      let pos := (List.range wh).flatMap (fun wy => (List.range ww).map (fun wx =>
        (((oy * sy + wy * dy : Nat) : Int) - pt, ((ox * sx + wx * dx : Nat) : Int) - pl)))
      let ok := pos.filter (fun p => decide (0 ≤ p.1) && decide (p.1 < (inH : Int)) && decide (0 ≤ p.2) && decide (p.2 < (inW : Int)))
      let vs := ok.map (fun p => px p.1.toNat p.2.toNat c)
      if opk = 0 then (poolMax e vs).only (poolFlags e false)
      else OutEl.only (poolFlags e true) <|
        if opk = 1 then (if vs.isEmpty then poolOut e false 0 1 0 else poolSum e (vs.map (fun v => (1, v))) vs.length 0)
      else poolSum e (vs.map (fun v => (1, v)) ++
        (if ok.length < pos.length then [(1, (FVal.fin false 0 0, (0 : BitVec 4)))] else [])) (wh * ww) 0
  let k := (List.range outH).foldl (fun k oy => (List.range outW).foldl (fun k ox =>
    writePixel k (out + oy * outRow + ox * cl * 64) fmt 127
      ((List.range (cl * (512 / e.bits))).map (one oy ox))) k) x.k
  .ok { x with k := k }

/-- Sample position u of n along an edge pair in 16.16 (R446). -/
def cropPos (u n : Nat) (e0 e1 : Int) : Int := e0 + rhe ((2 * u + 1 : Nat) * (e1 - e0)) (2 * n)

/-- A sample along one axis: none outside the image; otherwise the two neighbours and the weight of the second (R447 to
R449); in nearest mode the weight is 0. -/
def cropAxis (nearest : Bool) (c : Int) (size : Nat) : Option (Nat × Nat × Nat) :=
  if c < 0 || ((size * 65536 : Nat) : Int) ≤ c then none
  else if nearest then some ((c / 65536).toNat, (c / 65536).toNat, 0)
  else
    let s := c - 0x8000
    let i := s.fdiv 65536
    let cl := fun (v : Int) => min (size - 1) v.toNat
    some (cl i, cl (i + 1), (s - i * 65536).toNat)

/-- The flags of a nearest sample: none in integer formats (R450), else those of R424. -/
def nearestFlags (e : Elem) : BitVec 4 :=
  match e with
  | .int _ _ => 0
  | .flt _ => poolFlags e false

/-- One sample of a crop from its axes and a pixel reader (R448, R449). -/
def cropSample (e : Elem) (nearest : Bool) (ax ay : Nat × Nat × Nat) (px : Nat → Nat → FVal × BitVec 4) : OutEl :=
  if nearest then let v := px ay.1 ax.1; (poolRound e v.1 v.2).only (nearestFlags e)
  else OutEl.only (poolFlags e true) <|
    let fx := ax.2.2
    let fy := ay.2.2
    poolSum e [((65536 - fx) * (65536 - fy), px ay.1 ax.1), (fx * (65536 - fy), px ay.1 ax.2.1),
      ((65536 - fx) * fy, px ay.2.1 ax.1), (fx * fy, px ay.2.1 ax.2.1)] 1 32

/-- `crop` (R417, R418, R439 to R442, R446 to R450). -/
def cropOp (w : Nat) (x : Ctx) : Res :=
  let da := (x.k0.areg (fld w 18 4)).toNat
  require (da % 64 == 0) causeAlign x fun x =>
  require (inLocal da 64) causeAddress x fun x =>
  let b := rdBytes x.k.loc.data da 64
  let inp := leAt b 0 8
  let out := leAt b 8 8
  let boxes := leAt b 0x10 8
  let inW := leAt b 0x18 2
  let inH := leAt b 0x1A 2
  let cl := leAt b 0x1C 2
  let nb := leAt b 0x1E 2
  let ow := byteAt b 0x20
  let oh := byteAt b 0x21
  let fmt := byteAt b 0x22
  let mode := byteAt b 0x23
  let extrap := leAt b 0x24 4
  let inRow := leAt b 0x28 4
  let outBox := leAt b 0x2C 4
  let x := x.readLocal da 64
  let inN := (inH - 1) * inRow + inW * cl * 64
  let outN := (nb - 1) * outBox + ow * oh * cl * 64
  require ([inp, out, boxes, inRow, outBox].all (fun a => a % 64 == 0) && [inW, inH].all (inRange 1 4096) &&
    inRange 1 64 cl && inRange 1 256 nb && inRange 1 64 ow && inRange 1 64 oh && decide (fmt ≤ 9) && fmt != 2 &&
    decide (mode ≤ 1) && zeroAt b 0x30 16 && decide (ow * oh * cl * 64 ≤ outBox) &&
    !linesOverlap inp inN out outN && !linesOverlap boxes (16 * nb) out outN) causeIllegal x fun x =>
  require (inLocal inp inN && inLocal out outN && inLocal boxes (16 * nb)) causeAddress x fun x =>
  let x := ((x.readLocal inp inN).readLocal boxes (16 * nb)).touch out outN true
  let m := x.k.loc
  let e := ofmtElem fmt
  let nearest := decide (mode = 1)
  let box := fun (i j : Nat) => toSigned (rdLE m.data (boxes + 16 * i + 4 * j) 4) 32
  let k := (List.range nb).foldl (fun k i => (List.range oh).foldl (fun k v => (List.range ow).foldl (fun k u =>
    let ax := cropAxis nearest (cropPos u ow (box i 0) (box i 2)) inW
    let ay := cropAxis nearest (cropPos v oh (box i 1) (box i 3)) inH
    let es := (List.range (cl * (512 / e.bits))).map (fun c =>
      match ax, ay with
      | some ax, some ay => cropSample e nearest ax ay (fun iy ix => poolIn m e (inp + iy * inRow + ix * cl * 64) c)
      | _, _ => ⟨extrap % 2 ^ e.bits, 0, false⟩)
    writePixel k (out + i * outBox + (v * ow + u) * cl * 64) fmt 127 es) k) k) x.k
  .ok { x with k := k }

/-! ### Vector lanes (R412, R413) -/

/-- binary32 comparison of two lanes: less, equal, and whether a NaN took part (R471, R472). -/
def f32Cmp (a b : Nat) : Bool × Bool × BitVec 4 :=
  let x := fmtF32.satOperand a
  let y := fmtF32.satOperand b
  if x.1.isNan || y.1.isNan then (false, false, flInvalid ||| x.2 ||| y.2)
  else (x.1.lt false y.1, !x.1.lt false y.1 && !y.1.lt false x.1, x.2 ||| y.2)

/-- A binary32 lane in sat mode: a NaN becomes canonical with INVALID, an infinity the largest finite value with SAT. -/
def f32Lane (a : Nat) : Nat × BitVec 4 :=
  match fmtF32.decode a with
  | .nan => (fmtF32.nan, flInvalid)
  | .inf n => (fmtF32.maxOf n, flSat)
  | _ => (a % 2 ^ 32, 0)

/-- The result of a lane operation on A, B and the old destination, with its flags; T is the lane type (R412). -/
def laneOp (op : Nat) (t : Bool) (a b d : BitVec 32) : BitVec 32 × BitVec 4 :=
  let f := fun (r : Nat × BitVec 4) => (BitVec.ofNat 32 r.1, r.2)
  let an := a.toNat
  let bn := b.toNat
  match op with
  | 0x01 => if t then f (f32Add an bn) else (a + b, 0)
  | 0x02 => if t then f (f32Sub an bn) else (a - b, 0)
  | 0x03 => if t then f (f32Mul an bn) else (a * b, 0)
  | 0x04 =>
    if t then
      let p := f32Mul an bn
      let r := f32Add d.toNat p.1
      (BitVec.ofNat 32 r.1, p.2 ||| r.2)
    else (d + a * b, 0)
  | 0x05 =>
    if t then
      let x := f32Lane an
      let y := f32Lane bn
      let fl := x.2 ||| y.2
      if fl &&& flInvalid ≠ 0 then (BitVec.ofNat 32 fmtF32.nan, fl)
      else (BitVec.ofNat 32 (if (fmtF32.decode y.1).lt true (fmtF32.decode x.1) then y.1 else x.1), fl)
    else (if a.toInt ≤ b.toInt then a else b, 0)
  | 0x06 =>
    if t then
      let x := f32Lane an
      let y := f32Lane bn
      let fl := x.2 ||| y.2
      if fl &&& flInvalid ≠ 0 then (BitVec.ofNat 32 fmtF32.nan, fl)
      else (BitVec.ofNat 32 (if (fmtF32.decode x.1).lt true (fmtF32.decode y.1) then y.1 else x.1), fl)
    else (if b.toInt ≤ a.toInt then a else b, 0)
  | 0x07 =>
    if t then let x := f32Lane an; (if x.2 &&& flInvalid ≠ 0 then BitVec.ofNat 32 x.1 else BitVec.ofNat 32 (x.1 % 2 ^ 31), x.2)
    else (if a.msb then -a else a, 0)
  | 0x08 =>
    if t then let x := f32Lane an; (if x.2 &&& flInvalid ≠ 0 then BitVec.ofNat 32 x.1 else BitVec.ofNat 32 x.1 ^^^ 0x80000000, x.2)
    else (-a, 0)
  | 0x09 => (a &&& b, 0)
  | 0x0A => (a ||| b, 0)
  | 0x0B => (a ^^^ b, 0)
  | 0x0C => (a <<< (bn % 32), 0)
  | 0x0D => (a >>> (bn % 32), 0)
  | 0x0E => (a.sshiftRight (bn % 32), 0)
  | 0x0F =>
    let r := clampI (intLo 32 true) (intHi 32 true) (a.toInt + b.toInt)
    (BitVec.ofInt 32 r.1, if r.2 then flSat else 0)
  | 0x18 =>
    let x := a.toInt
    f (fmtF32.round (decide (x < 0)) x.natAbs 0)
  | _ =>
    -- 0x19, binary32 to INT32
    match fmtF32.satOperand an with
    | (.fin n m e, fl) =>
      let v := signedOf n m
      let r := clampI (intLo 32 true) (intHi 32 true) (rheShift v e)
      let inexact := decide (e < 0) && !exactDiv v (2 ^ (-e).toNat)
      (BitVec.ofInt 32 r.1, fl ||| (if r.2 then flSat else if inexact then flInexact else 0))
    | (_, fl) => (0, fl ||| flInvalid)

/-- The outcome of a lane comparison and its flags: equal, less, less or equal (R412, R472). -/
def laneCmp (op : Nat) (t : Bool) (a b : BitVec 32) : Bool × BitVec 4 :=
  let (lt, eq, fl) :=
    if t then f32Cmp a.toNat b.toNat else (decide (a.toInt < b.toInt), decide (a = b), (0 : BitVec 4))
  (match op with
    | 0x10 => eq
    | 0x11 => lt
    | _ => lt || eq, fl)

/-- The sum of lanes as a balanced pairwise tree in ascending lane order, n levels (R412). -/
def laneTree (t : Bool) : Nat → List (BitVec 32) → List (BitVec 32) × BitVec 4
  | 0, l => (l, 0)
  | n + 1, l =>
    let rec pairs : List (BitVec 32) → List (BitVec 32) × BitVec 4
      | a :: b :: r =>
        let x := laneOp 1 t a b 0
        let y := pairs r
        (x.1 :: y.1, x.2 ||| y.2)
      | l => (l, 0)
    let p := pairs l
    let q := laneTree t n p.1
    (q.1, p.2 ||| q.2)

/-- Element format of a `vld` FMT code (R413). -/
def vldElem (f : Nat) : Elem :=
  match f with
  | 0 => .int 32 true
  | 1 => .int 8 true
  | 2 => .int 8 false
  | 3 => .int 16 true
  | 4 => .int 4 true
  | 5 => .flt fmtBF16
  | 6 => .flt fmtFP16
  | 7 => .flt fmtE4M3
  | _ => .flt fmtE5M2

/-- A loaded element widened to 32 bits, with no flag (R413, R483). -/
def vldWiden (e : Elem) (code : Nat) : BitVec 32 :=
  match e with
  | .int b sg => BitVec.ofInt 32 (intOf b sg code)
  | .flt f =>
    match f.decode code with
    | .nan => BitVec.ofNat 32 fmtF32.nan
    | .inf n => BitVec.ofNat 32 (fmtF32.infOf n)
    | .fin n m e => BitVec.ofNat 32 (fmtF32.round n m e).1

/-- Write the active lanes of a vector destination. -/
def writeLanes (k0 k : Core) (w vd : Nat) (f : Nat → BitVec 32) : Core :=
  (List.range 128).foldl (fun k l => if predBit k0 w l then k.setLane vd l (f l) else k) k

/-- A VECTOR syllable (R396, R412, R413). -/
def vectorOp (w : Nat) (x : Ctx) : Res :=
  let op := sOp w
  let t := bitN w 42
  let vd := fld w 18 6
  let va := fld w 24 6
  let vb := fld w 30 6
  let k0 := x.k0
  let x := x.metered (fun m => { m with vec := m.vec + 128 })
  let bl := fun l =>
    if bitN w 41 then (if sLI w then BitVec.ofNat 32 (x.li % 2 ^ 32) else k0.sreg (fld w 36 5)) else k0.lane vb l
  let addr := (k0.areg (fld w 47 4) + BitVec.ofInt 40 (64 * toSigned (fld w 51 13) 13)).toNat
  let act := (List.range 128).filter (predBit k0 w)
  if 0x10 ≤ op && op ≤ 0x12 then
    let rs := act.map (fun l => (l, laneCmp op t (k0.lane va l) (bl l)))
    let p := rs.foldl (fun (p : BitVec 128) r =>
      if r.2.1 then p ||| (1#128 <<< r.1) else p &&& ~~~(1#128 <<< r.1)) (k0.preg (fld w 18 3))
    .ok { x with k := (x.k.setP (fld w 18 3) p).raise (rs.foldl (fun f r => f ||| r.2.2) 0) }
  else if op = 0x20 then
    .ok { x with k := writeLanes k0 x.k w vd (fun l => k0.lane va ((k0.lane vb l).toNat % 128)) }
  else if op = 0x21 then .ok { x with k := writeLanes k0 x.k w vd (fun _ => k0.sreg (fld w 36 5)) }
  else if op = 0x22 then
    let r := laneTree t 7 ((List.range 128).map (k0.lane va))
    .ok { x with k := (writeLanes k0 x.k w vd (fun l => if l = 0 then r.1.headD 0 else 0)).raise r.2 }
  else if op = 0x23 then .ok { x with k := if predBit k0 w 0 then x.k.setS (fld w 36 5) (k0.lane va 0) else x.k }
  else if op = 0x30 then
    let e := vldElem (fld w 43 4)
    let n := 16 * e.bits
    require (addr % 64 == 0) causeAlign x fun x =>
    require (inLocal addr n) causeAddress x fun x =>
    let x := x.readLocal addr n
    let mem := x.k.loc.data
    .ok { x with k := writeLanes k0 x.k w vd (fun l => vldWiden e (elemCode mem addr l e.bits)) }
  else if op = 0x31 then
    require (addr % 64 == 0) causeAlign x fun x =>
    require (inLocal addr 512) causeAddress x fun x =>
    let x := x.touch addr 512 true
    let tag := mkTag 127 0 (if t then 10 else 5)
    let loc := (List.range 8).foldl (fun (m : Lines) i =>
      let ls := (List.range 16).filter (fun l => predBit k0 w (16 * i + l))
      if ls.isEmpty then m
      else if ls.length = 16 then
        m.putLine (addr / 64 + i) ((List.range 16).flatMap (fun l => leBytes (k0.lane vd (16 * i + l)).toNat 4)) tag
      else
        (ls.foldl (fun (m : Lines) l => m.putBytes (addr + 64 * i + 4 * l) (leBytes (k0.lane vd (16 * i + l)).toNat 4)) m).putTag
          (addr / 64 + i) tag) x.k.loc
    .ok { x with k := { x.k with loc := loc } }
  else
    let rs := act.map (fun l => (l, laneOp op t (k0.lane va l) (bl l) (k0.lane vd l)))
    let k := rs.foldl (fun (k : Core) r => k.setLane vd r.1 r.2.1) x.k
    .ok { x with k := k.raise (rs.foldl (fun f r => f ||| r.2.2) 0) }

end Sys2Proof.Machine
end

