-- ==== Sys2Proof/Machine/Crypto.lean ====
section
/-! DEFINITION. Machine/Crypto.lean: the functions of the cryptographic engine that the spec names by their standards:
SHA-256 (FIPS 180-4), HMAC-SHA-256 (RFC 2104), AES-256-GCM (FIPS 197, SP 800-38D), ECDSA over P-256 (FIPS 186-4), and
the IEEE 802.3 CRC-32 (R216). The spec gives no constants for them; they are those of the standards it names. -/
namespace Sys2Proof.Machine
open Sys2Proof

/-! ### CRC-32 -/

/-- One byte of the reflected CRC-32 with polynomial 0xEDB88320. -/
def crcByte (c : BitVec 32) (b : Byte) : BitVec 32 :=
  (List.range 8).foldl (fun c _ => if c &&& 1 = 1 then (c >>> 1) ^^^ 0xEDB88320 else c >>> 1) (c ^^^ b.zeroExtend 32)

/-- The IEEE 802.3 CRC-32 of a byte list (R216, R559, R623, R688). -/
def crc32 (bs : List Byte) : Nat := (bs.foldl crcByte 0xFFFFFFFF ^^^ 0xFFFFFFFF).toNat

/-! ### SHA-256 -/

/-- The round constants of SHA-256. -/
def shaK : List (BitVec 32) :=
  [0x428a2f98, 0x71374491, 0xb5c0fbcf, 0xe9b5dba5, 0x3956c25b, 0x59f111f1, 0x923f82a4, 0xab1c5ed5] ++
  [0xd807aa98, 0x12835b01, 0x243185be, 0x550c7dc3, 0x72be5d74, 0x80deb1fe, 0x9bdc06a7, 0xc19bf174] ++
  [0xe49b69c1, 0xefbe4786, 0x0fc19dc6, 0x240ca1cc, 0x2de92c6f, 0x4a7484aa, 0x5cb0a9dc, 0x76f988da] ++
  [0x983e5152, 0xa831c66d, 0xb00327c8, 0xbf597fc7, 0xc6e00bf3, 0xd5a79147, 0x06ca6351, 0x14292967] ++
  [0x27b70a85, 0x2e1b2138, 0x4d2c6dfc, 0x53380d13, 0x650a7354, 0x766a0abb, 0x81c2c92e, 0x92722c85] ++
  [0xa2bfe8a1, 0xa81a664b, 0xc24b8b70, 0xc76c51a3, 0xd192e819, 0xd6990624, 0xf40e3585, 0x106aa070] ++
  [0x19a4c116, 0x1e376c08, 0x2748774c, 0x34b0bcb5, 0x391c0cb3, 0x4ed8aa4a, 0x5b9cca4f, 0x682e6ff3] ++
  [0x748f82ee, 0x78a5636f, 0x84c87814, 0x8cc70208, 0x90befffa, 0xa4506ceb, 0xbef9a3f7, 0xc67178f2]

/-- The initial hash value of SHA-256. -/
def shaInit : List (BitVec 32) :=
  [0x6a09e667, 0xbb67ae85, 0x3c6ef372, 0xa54ff53a, 0x510e527f, 0x9b05688c, 0x1f83d9ab, 0x5be0cd19]

/-- The eight working variables of SHA-256. -/
structure ShaVars where
  /-- a -/
  a : BitVec 32
  /-- b -/
  b : BitVec 32
  /-- c -/
  c : BitVec 32
  /-- d -/
  d : BitVec 32
  /-- e -/
  e : BitVec 32
  /-- f -/
  f : BitVec 32
  /-- g -/
  g : BitVec 32
  /-- h -/
  h : BitVec 32
  deriving DecidableEq, Repr

/-- One round with schedule word w and constant k. -/
def shaRound (v : ShaVars) (wk : BitVec 32) : ShaVars :=
  let s1 := v.e.rotateRight 6 ^^^ v.e.rotateRight 11 ^^^ v.e.rotateRight 25
  let ch := (v.e &&& v.f) ^^^ (~~~v.e &&& v.g)
  let t1 := v.h + s1 + ch + wk
  let s0 := v.a.rotateRight 2 ^^^ v.a.rotateRight 13 ^^^ v.a.rotateRight 22
  let maj := (v.a &&& v.b) ^^^ (v.a &&& v.c) ^^^ (v.b &&& v.c)
  ⟨t1 + (s0 + maj), v.a, v.b, v.c, v.d + t1, v.e, v.f, v.g⟩

/-- The rounds over a sliding window of the last 16 schedule words, oldest first. -/
def shaRounds : List (BitVec 32) → List (BitVec 32) → ShaVars → ShaVars
  | [], _, v => v
  | k :: ks, w, v =>
    let w0 := w.headD 0
    let x := w.getD 1 0
    let y := w.getD 14 0
    let new := (y.rotateRight 17 ^^^ y.rotateRight 19 ^^^ (y >>> 10)) + w.getD 9 0 +
      (x.rotateRight 7 ^^^ x.rotateRight 18 ^^^ (x >>> 3)) + w0
    shaRounds ks (w.tail ++ [new]) (shaRound v (w0 + k))

/-- The big-endian 32-bit words of a byte list. -/
def beWords (bs : List Byte) : Nat → List (BitVec 32)
  | 0 => []
  | n + 1 => BitVec.ofNat 32 (beNat (bs.take 4)) :: beWords (bs.drop 4) n

/-- Compress one 64-byte block into the hash value. -/
def shaBlock (h : List (BitVec 32)) (block : List Byte) : List (BitVec 32) :=
  let g := fun i => h.getD i 0
  let v := shaRounds shaK (beWords block 16) ⟨g 0, g 1, g 2, g 3, g 4, g 5, g 6, g 7⟩
  List.zipWith (· + ·) h [v.a, v.b, v.c, v.d, v.e, v.f, v.g, v.h]

/-- Compress n blocks. -/
def shaBlocks : Nat → List (BitVec 32) → List Byte → List (BitVec 32)
  | 0, h, _ => h
  | n + 1, h, bs => shaBlocks n (shaBlock h (bs.take 64)) (bs.drop 64)

/-- SHA-256 of a byte list: 32 bytes. -/
def sha256 (bs : List Byte) : List Byte :=
  let n := bs.length
  let z := (119 - n % 64) % 64
  let m := bs ++ [0x80] ++ zeros z ++ beBytes (8 * n) 8
  (shaBlocks (m.length / 64) shaInit m).flatMap (fun w => beBytes w.toNat 4)

/-- HMAC-SHA-256. -/
def hmacSha256 (key msg : List Byte) : List Byte :=
  let k := padTo (if 64 < key.length then sha256 key else key) 64
  sha256 (k.map (· ^^^ 0x5C) ++ sha256 (k.map (· ^^^ 0x36) ++ msg))

/-! ### AES-256 and GCM -/

/-- Multiplication by x in the AES field. -/
def aesX (a : Byte) : Byte := (a <<< 1) ^^^ (if a &&& 0x80 = 0 then 0 else 0x1B)

/-- Multiplication in the AES field. -/
def aesMul (a b : Byte) : Byte :=
  ((List.range 8).foldl (fun (p : Byte × Byte) i => (if b.getLsbD i then p.1 ^^^ p.2 else p.1, aesX p.2)) (0, a)).1

/-- The AES substitution box: the field inverse (x to the power 254), then the affine map. -/
def aesSub (a : Byte) : Byte :=
  let sq := fun x => aesMul x x
  let a2 := sq a; let a4 := sq a2; let a8 := sq a4; let a16 := sq a8; let a32 := sq a16; let a64 := sq a32
  let i := aesMul (aesMul (aesMul a2 a4) (aesMul a8 a16)) (aesMul (aesMul a32 a64) (sq a64))
  i ^^^ i.rotateLeft 1 ^^^ i.rotateLeft 2 ^^^ i.rotateLeft 3 ^^^ i.rotateLeft 4 ^^^ 0x63

/-- Exclusive or of two byte lists. -/
def xorBytes (a b : List Byte) : List Byte := List.zipWith (· ^^^ ·) a b

/-- The next words of the AES-256 key schedule; the list holds the words so far, newest first. -/
def aesExpand : Nat → Nat → Byte → List (List Byte) → List (List Byte)
  | 0, _, _, ws => ws
  | n + 1, i, rc, ws =>
    let prev := ws.headD []
    let t :=
      if i % 8 = 0 then xorBytes ((prev.tail ++ prev.take 1).map aesSub) [rc, 0, 0, 0]
      else if i % 8 = 4 then prev.map aesSub
      else prev
    aesExpand n (i + 1) (if i % 8 = 0 then aesX rc else rc) (xorBytes (ws.getD 7 []) t :: ws)

/-- The fifteen round keys of AES-256, 16 bytes each. -/
def aesKeys (key : List Byte) : List (List Byte) :=
  let w0 := (List.range 8).map (fun i => slice key (4 * i) 4)
  let ws := (aesExpand 52 8 1 w0.reverse).reverse
  (List.range 15).map (fun r => (List.range 4).flatMap (fun c => ws.getD (4 * r + c) []))

/-- SubBytes and ShiftRows on a block in column order. -/
def aesSubShift (st : List Byte) : List Byte :=
  (List.range 16).map (fun p => aesSub (st.getD ((p + 4 * (p % 4)) % 16) 0))

/-- MixColumns. -/
def aesMix (st : List Byte) : List Byte :=
  (List.range 16).map (fun p =>
    let c := p / 4 * 4
    let g := fun k => st.getD (c + (p + k) % 4) 0
    aesX (g 0) ^^^ (aesX (g 1) ^^^ g 1) ^^^ g 2 ^^^ g 3)

/-- AES-256 encryption of one block with expanded round keys. -/
def aesBlock (keys : List (List Byte)) (blk : List Byte) : List Byte :=
  let st := xorBytes blk (keys.headD [])
  let st := ((keys.drop 1).take 13).foldl (fun st k => xorBytes (aesMix (aesSubShift st)) k) st
  xorBytes (aesSubShift st) (keys.getD 14 [])

/-- Multiplication in the GCM field on 128-bit numbers whose most significant bit is the coefficient of 1. -/
def gcmMul (x y : Nat) : Nat :=
  ((List.range 128).foldl (fun (p : Nat × Nat) i =>
    (if bitN x (127 - i) then p.1 ^^^ p.2 else p.1,
     if bitN p.2 0 then (p.2 >>> 1) ^^^ 0xE1000000000000000000000000000000 else p.2 >>> 1)) (0, y)).1

/-- GHASH over n 16-byte blocks, the last padded with zeros. -/
def ghash (h : Nat) : Nat → Nat → List Byte → Nat
  | 0, y, _ => y
  | n + 1, y, bs => ghash h n (gcmMul (y ^^^ beNat (padTo bs 16)) h) (bs.drop 16)

/-- The counter-mode key stream XORed over n blocks of data. -/
def gcmCtr (keys : List (List Byte)) (iv : List Byte) : Nat → Nat → List Byte → List Byte
  | 0, _, _ => []
  | n + 1, c, bs => xorBytes (bs.take 16) (aesBlock keys (iv ++ beBytes c 4)) ++ gcmCtr keys iv n (c + 1) (bs.drop 16)

/-- AES-256-GCM with a 96-bit IV: the plaintext, and the 16-byte tag computed over the ciphertext. -/
def gcmOpen (key iv aad ct : List Byte) : List Byte × List Byte :=
  let keys := aesKeys key
  let h := beNat (aesBlock keys (zeros 16))
  let y := ghash h (ceilDiv aad.length 16) 0 aad
  let y := ghash h (ceilDiv ct.length 16) y ct
  let y := gcmMul (y ^^^ (8 * aad.length * 2 ^ 64 + 8 * ct.length)) h
  (gcmCtr keys iv (ceilDiv ct.length 16) 2 ct, xorBytes (beBytes y 16) (aesBlock keys (iv ++ beBytes 1 4)))

/-! ### ECDSA over P-256 -/

/-- The prime of P-256. -/
def p256P : Nat := 0xFFFFFFFF00000001000000000000000000000000FFFFFFFFFFFFFFFFFFFFFFFF
/-- The group order of P-256. -/
def p256N : Nat := 0xFFFFFFFF00000000FFFFFFFFFFFFFFFFBCE6FAADA7179E84F3B9CAC2FC632551
/-- The coefficient b of P-256. -/
def p256B : Nat := 0x5AC635D8AA3A93E7B3EBBD55769886BC651D06B0CC53B0F63BCE3C3E27D2604B
/-- The base point of P-256. -/
def p256G : Nat × Nat :=
  (0x6B17D1F2E12C4247F8BCE6E563A440F277037D812DEB33A0F4A13945D898C296,
   0x4FE342E2FE1A7F9B8EE7EB4A7C0F9E162BCE33576B315ECECBB6406837BF51F5)

/-- b^e mod m by n binary digits of e from the top. -/
def modPow (b e m : Nat) : Nat → Nat
  | 0 => 1
  | n + 1 =>
    let r := modPow b (e >>> 1) m n
    let r2 := r * r % m
    if e % 2 = 1 then r2 * b % m else r2

/-- The inverse modulo a prime of 256 bits. -/
def modInv (a m : Nat) : Nat := modPow (a % m) (m - 2) m 256

/-- Point addition on P-256, none being the point at infinity. -/
def p256Add (a b : Option (Nat × Nat)) : Option (Nat × Nat) :=
  match a, b with
  | none, q => q
  | p, none => p
  | some (x1, y1), some (x2, y2) =>
    if x1 = x2 && (y1 + y2) % p256P = 0 then none
    else
      let l := if x1 = x2 then (3 * x1 * x1 + p256P - 3) * modInv (2 * y1) p256P % p256P
        else (y2 + p256P - y1) * modInv (x2 + p256P - x1) p256P % p256P
      let x3 := (l * l + 2 * p256P - x1 - x2) % p256P
      some (x3, (l * (x1 + p256P - x3) + p256P - y1) % p256P)

/-- k × P by n binary digits of k from the top. -/
def p256Mul (k : Nat) (p : Option (Nat × Nat)) : Nat → Option (Nat × Nat)
  | 0 => none
  | n + 1 =>
    let r := p256Mul (k >>> 1) p n
    let r2 := p256Add r r
    if k % 2 = 1 then p256Add r2 p else r2

/-- A point with coordinates below the prime that lies on the curve. -/
def p256OnCurve (x y : Nat) : Bool :=
  x < p256P && y < p256P && (y * y) % p256P == (x * x * x + (p256P - 3) * x + p256B) % p256P

/-- ECDSA verification: hash and signature (r ‖ s) and key (x ‖ y), all big-endian. -/
def ecdsaVerify (hash sig key : List Byte) : Bool :=
  let x := beNat (key.take 32)
  let y := beNat (slice key 32 32)
  let r := beNat (sig.take 32)
  let s := beNat (slice sig 32 32)
  if !p256OnCurve x y || r = 0 || s = 0 || p256N ≤ r || p256N ≤ s then false
  else
    let w := modInv s p256N
    match p256Add (p256Mul (beNat hash * w % p256N) (some p256G) 256) (p256Mul (r * w % p256N) (some (x, y)) 256) with
    | none => false
    | some (px, _) => px % p256N == r

end Sys2Proof.Machine
end

