-- ==== Sys2Proof/Machine/Lane.lean ====
section
/-! DEFINITION. Machine/Lane.lean: what stands on a Causeway lane, octet by octet and code group by code group: the control words
with their CHK (R556), the packets with their header and CRC-32 (R559), the delimiters and the 8b/10b code groups of IEEE 802.3
Clause 36 (R18, R555; log 84), and the checks that a receiver makes of what arrives (R556, R564). -/
namespace Sys2Proof

/-- Virtual channel of a packet: 0 REQ, 1 RSP, 2 MGT (R560). -/
def Packet.vc (p : Packet) : Nat := if p.type ≤ 6 then 0 else if p.type ≤ 0xB then 1 else 2

end Sys2Proof

namespace Sys2Proof.Machine
open Sys2Proof

/-! ### Symbols -/

/-- An octet on the lane before it is coded: data (Dx.y), or a special code group (Kx.y). -/
structure Symbol where
  /-- it is a special code group -/
  special : Bool := false
  /-- the octet: y in bits [7:5], x in bits [4:0] -/
  octet : Byte := 0
  deriving DecidableEq, Repr

/-- K28.5, with which the idle ordered set begins (R555). -/
def symComma : Symbol := { special := true, octet := 0xBC }
/-- K27.7, start of packet (R555). -/
def symStart : Symbol := { special := true, octet := 0xFB }
/-- K29.7, end of packet (R555). -/
def symEnd : Symbol := { special := true, octet := 0xFD }
/-- K28.3, start of a control word (R555). -/
def symControl : Symbol := { special := true, octet := 0x7C }

/-- The idle ordered set, sent whenever nothing else is (R555). -/
def idleSet : List Symbol := [symComma, { octet := 0x50 }]

/-! ### Control words (R556) -/

/-- ARG of a training set. -/
def trainArg (t : TrainSet) : Nat :=
  t.epoch % 256 + 2 ^ 8 * b2n t.epochValid + 2 ^ 9 * (t.chip % 16) + 2 ^ 13 * b2n t.chipValid + 2 ^ 14 * (t.role % 4) +
  2 ^ 16 * b2n t.resume

/-- The training set that an ARG holds. -/
def readTrain (a : Nat) : TrainSet :=
  { epoch := fld a 0 8, epochValid := bitN a 8, chip := fld a 9 4, chipValid := bitN a 13, role := fld a 14 2, resume := bitN a 16 }

/-- CTYPE and ARG of a control word; none for a packet. -/
def LaneItem.controlWord : LaneItem → Option (Nat × Nat)
  | .ack q => some (0x01, q % 4096)
  | .nak q => some (0x02, q % 4096)
  | .credit v n => some (0x03, v % 4 + 2 ^ 8 * (n % 256))
  | .sleepReq => some (0x04, 0)
  | .sleepAck => some (0x05, 0)
  | .sleepNak => some (0x06, 0)
  | .ts1 t => some (0x10, trainArg t)
  | .ts2 t => some (0x11, trainArg t)
  | .packet _ _ _ => none

/-- The control word of a CTYPE and an ARG; none for a CTYPE that the table does not list. -/
def readControlWord (ctype arg : Nat) : Option LaneItem :=
  match ctype with
  | 0x01 => some (.ack (fld arg 0 12))
  | 0x02 => some (.nak (fld arg 0 12))
  | 0x03 => some (.credit (fld arg 0 2) (fld arg 8 8))
  | 0x04 => some .sleepReq
  | 0x05 => some .sleepAck
  | 0x06 => some .sleepNak
  | 0x10 => some (.ts1 (readTrain arg))
  | 0x11 => some (.ts2 (readTrain arg))
  | _ => none

/-- The seven bytes of a control word: CTYPE, ARG, and CHK, the low half of the CRC-32 over both. -/
def controlBytes (ctype arg : Nat) : List Byte :=
  let b := leBytes ctype 1 ++ leBytes arg 4
  b ++ leBytes (crc32 b % 65536) 2

/-- The CHK of seven received bytes is right. -/
def controlGood (b : List Byte) : Bool := decide (leAt b 5 2 = crc32 (b.take 5) % 65536)

/-- The control word that seven received bytes hold: none where CHK fails, which CODE_ERROR reports (R556). -/
def readControl (b : List Byte) : Option LaneItem := if controlGood b then readControlWord (leAt b 0 1) (leAt b 1 4) else none

/-! ### Packets (R559) -/

/-- The sixteen header bytes of a packet that travels with a SEQ in an epoch. -/
def packetHeader (seq epoch : Nat) (p : Packet) : List Byte :=
  leBytes (p.type % 16 + 2 ^ 4 * p.vc + 2 ^ 6 * b2n p.first + 2 ^ 7 * b2n p.last) 1 ++
  leBytes (p.dest % 16 + 2 ^ 4 * (p.src % 16)) 1 ++ leBytes (seq % 4096 + 2 ^ 12 * (p.core % 4)) 2 ++ leBytes epoch 1 ++
  leBytes (p.lines % 16 + 2 ^ 4 * (p.status % 16)) 1 ++ leBytes (p.watch % 1024) 2 ++ leBytes p.arg 4 ++ leBytes p.txn 2 ++
  leBytes 0 2

/-- Header, payload and CRC of a packet. -/
def packetBytes (seq epoch : Nat) (p : Packet) : List Byte :=
  let b := packetHeader seq epoch p ++ p.payload
  b ++ leBytes (crc32 b) 4

/-- The CRC of a received packet is right. -/
def packetGood (b : List Byte) : Bool := decide (20 ≤ b.length) && decide (leAt b (b.length - 4) 4 = crc32 (b.take (b.length - 4)))

/-- SEQ, epoch and packet that received bytes hold: none where the CRC fails, which CRC_ERROR reports (R564). -/
def readPacket (b : List Byte) : Option (Nat × Nat × Packet) :=
  if packetGood b then
    let t := leAt b 0 1
    let d := leAt b 1 1
    let q := leAt b 2 2
    let l := leAt b 5 1
    some (fld q 0 12, leAt b 4 1,
      { type := fld t 0 4, first := bitN t 6, last := bitN t 7, dest := fld d 0 4, src := fld d 4 4, core := fld q 12 2,
        lines := fld l 0 4, status := fld l 4 4, watch := fld (leAt b 6 2) 0 10, arg := leAt b 8 4, txn := leAt b 0xC 2,
        payload := slice b 16 (b.length - 20) })
  else none

/-- The symbols of a word or packet on the lane. -/
def LaneItem.symbols (i : LaneItem) : List Symbol :=
  let data := fun (b : List Byte) => b.map (fun o => ({ octet := o } : Symbol))
  match i with
  | .packet seq epoch p => symStart :: data (packetBytes seq epoch p) ++ [symEnd]
  | _ => symControl :: data (match i.controlWord with
    | some w => controlBytes w.1 w.2
    | none => [])

/-! ### 8b/10b code groups -/

/-- The 6-bit sub-blocks abcdei of D0 to D31 at negative running disparity. -/
def sixBits : List (BitVec 6) :=
  [0b100111, 0b011101, 0b101101, 0b110001, 0b110101, 0b101001, 0b011001, 0b111000] ++
  [0b111001, 0b100101, 0b010101, 0b110100, 0b001101, 0b101100, 0b011100, 0b010111] ++
  [0b011011, 0b100011, 0b010011, 0b110010, 0b001011, 0b101010, 0b011010, 0b111010] ++
  [0b110011, 0b100110, 0b010110, 0b110110, 0b001110, 0b101110, 0b011110, 0b101011]

/-- The 4-bit sub-blocks fghj of data at negative running disparity. -/
def fourBits : List (BitVec 4) := [0b1011, 0b1001, 0b0101, 0b1100, 0b1101, 0b1010, 0b0110, 0b1110]

/-- The 4-bit sub-blocks fghj of a special code group at negative running disparity. -/
def fourBitsK : List (BitVec 4) := [0b1011, 0b0110, 0b1010, 0b1100, 0b1101, 0b0101, 0b1001, 0b0111]

/-- Ones of a sub-block. -/
def ones {w : Nat} (b : BitVec w) : Nat := (List.range w).foldl (fun n i => n + b2n (b.getLsbD i)) 0

/-- Running disparity, true for positive, after a sub-block. -/
def disparityAfter {w : Nat} (rd : Bool) (b : BitVec w) : Bool :=
  if 2 * ones b = w then rd else decide (w < 2 * ones b)

/-- The 6-bit sub-block: an unbalanced one, and D7, has a complement for positive disparity. -/
def sixOf (rd : Bool) (y : Symbol) : BitVec 6 :=
  let x := y.octet.toNat % 32
  let b := if y.special && x = 28 then 0b001111 else sixBits.getD x 0
  if rd && (x = 7 || ones b ≠ 3) then ~~~b else b

/-- The 4-bit sub-block, at the disparity after the first: y = 7 takes its other form where five equal bits in a row would arise. -/
def fourOf (rd : Bool) (y : Symbol) : BitVec 4 :=
  let x := y.octet.toNat % 32
  let k := y.octet.toNat / 32
  let b := if y.special then fourBitsK.getD k 0
    else if k = 7 && (if rd then x == 11 || x == 13 || x == 14 else x == 17 || x == 18 || x == 20) then 0b0111
    else fourBits.getD k 0
  if rd && (y.special || k = 3 || ones b ≠ 2) then ~~~b else b

/-- The code group of a symbol, bit a highest, and the running disparity after it. -/
def codeGroup (rd : Bool) (y : Symbol) : BitVec 10 × Bool :=
  let a := sixOf rd y
  let rd := disparityAfter rd a
  let b := fourOf rd y
  (a ++ b, disparityAfter rd b)

/-- The code groups of symbols, and the running disparity after them. -/
def codeGroups : Bool → List Symbol → List (BitVec 10) × Bool
  | rd, [] => ([], rd)
  | rd, y :: t =>
    let g := codeGroup rd y
    let r := codeGroups g.2 t
    (g.1 :: r.1, r.2)

/-- The code groups that a port has driven for the words and packets of its record; between them it drives idle ordered sets,
which leave the running disparity as it is (R555). -/
def Port.codeGroups (x : Port) : List (BitVec 10) := (Machine.codeGroups x.disparity (x.sent.flatMap LaneItem.symbols)).1

/-- A port's record of what it drove starts anew, at the running disparity that the lane has reached. -/
def Port.restart (x : Port) : Port :=
  { x with sent := [], disparity := (Machine.codeGroups x.disparity (x.sent.flatMap LaneItem.symbols)).2 }

end Sys2Proof.Machine
end

