-- ==== Sys2Proof/Config.lean ====
section
/-! DEFINITION. Config.lean: what the spec leaves to the implementation or leaves open, each as an opaque constant that
no proof can see through (log 2): free values, the provisioning key of the boot ROM, and the image key's scramble. -/
namespace Sys2Proof

/-- Free value number n: what a place holds whose content the spec calls undefined or does not state (log 2). -/
opaque Config.freeNat : Nat → Nat

/-- SHA-256 digest of the provisioning key in the boot ROM, which the spec names without its value (R204, R230). -/
opaque Config.romKeyDigest : List Byte

/-- The fixed per-product transform of SECRETS data, for the word of each address: one to one, since the load undoes it; the
spec gives no more of it (R194, R205). -/
opaque Config.scramble : Nat → Equiv.Perm Word

/-- Output in 1/16 code of `hb` half-band stages of 23 taps behind a fourth-order CIC of ratio `m`, from the CIC outputs it
depends on, newest first, each in units of m⁻⁴ code. The spec gives the taps no values (R295, log 68). -/
opaque Config.halfBands (m hb : Nat) (cic : List Int) : Int

/-- The 32-bit number that an exact sum or total outside 32 bits leaves: 0 names a logit (R340), 1 a layer's group total (R505).
The spec states no result there; equal sums leave equal numbers (R590, logs 41 and 69). -/
opaque Config.wide (kind : Nat) (sum : Int) : BitVec 32

/-- The maker's number in the identification register, which the spec does not state (R742, log 84). -/
opaque Config.maker : BitVec 11

/-- The firmware restarts the watchdog at this tick: the spec says that it does, not when (R163, log 77). -/
opaque Config.firmwareKicks (tick : Nat) : Bool

end Sys2Proof
end

