-- ==== Sys2Proof/Machine/Events.lean ====
section
/-! DEFINITION. Machine/Events.lean: what every part of the device uses to report: the event log (R623 to R626), SYS_ALARM
(R719 to R721), the numbering and placing of records in the Outbox and the backlog (R639 to R653), and the calibration
values in use (R694 to R696, R759). -/
namespace Sys2Proof.Machine
open Sys2Proof

/-! ### Free values -/

/-- Draw `n` free bytes: their values, and the state with the counter advanced (log 2). -/
def State.freeBytes (s : State) (n : Nat) : List Byte × State :=
  ((List.range n).map (fun i => BitVec.ofNat 8 (Config.freeNat (s.free + i))), { s with free := s.free + n })

/-! ### The event log -/

/-- The fields of an event-log entry but for its number, tick and CRC (R623). -/
structure LogInfo where
  /-- CLASS -/
  cls : Nat
  /-- SOURCE -/
  source : Nat := 0
  /-- CODE -/
  code : Nat := 0
  /-- WATCH, none = 0xFFFF -/
  watch : Option Nat := none
  /-- SEQ -/
  seq : Nat := 0
  /-- ADDRESS -/
  addr : Nat := 0
  /-- FRAME -/
  frame : Nat := 0
  /-- CORE, none = 0xFF -/
  core : Option Nat := none
  /-- SLOT, none = 0xFF -/
  slot : Option Nat := none
  /-- PC -/
  pc : Nat := 0
  /-- POINT -/
  point : Nat := 0
  /-- EXC -/
  exc : Nat := 0
  /-- EPOCH -/
  epoch : Nat := 0
  /-- TICK, where the error was taken before now -/
  tick : Option Nat := none

/-- The watch field of records and log entries: 0xFFFF for none. -/
def watchCode (w : Option Nat) : Nat := w.getD 0xFFFF

/-- Bytes 0x04 to 0x3B of an entry (R623). -/
def State.logBody (s : State) (e : LogInfo) : List Byte :=
  leBytes e.cls 1 ++ leBytes e.source 1 ++ leBytes e.code 2 ++ leBytes (watchCode e.watch) 2 ++ leBytes e.seq 2 ++
  leBytes (e.tick.getD s.sys.tick) 6 ++ leBytes s.sys.resetCause.toNat 2 ++ leBytes (e.addr % 2 ^ 40) 8 ++ leBytes e.frame 4 ++
  leBytes (e.core.getD 0xFF) 1 ++ leBytes (e.slot.getD 0xFF) 1 ++ leBytes e.pc 2 ++ leBytes e.point 2 ++
  leBytes e.exc 1 ++ leBytes e.epoch 1 ++ zeros 20

/-- Ticks of one hour (R625). -/
def hourTicks : Nat := 117964800

/-- Write an event-log entry: it joins the queue of the write engine, unless 64 entries have been written in the last hour
(R624, R625). CHIP_FATAL and BOOT_FAIL entries are never suppressed and not counted. -/
def logEntry (e : LogInfo) (s : State) : State :=
  let body := s.logBody e
  if e.cls = 3 ∨ e.cls = 4 then { s with strand := { s.strand with logQueue := s.strand.logQueue ++ [body] } }
  else
    let recent := s.err.hour.filter (fun t => s.sys.tick < t + hourTicks)
    if 64 ≤ recent.length then
      { s with err := { s.err with hour := recent, suppressed := satAdd s.err.suppressed 1 0xFFFF } }
    else
      { s with strand := { s.strand with logQueue := s.strand.logQueue ++ [body] },
               err := { s.err with hour := s.sys.tick :: recent } }

/-- Offset of unit u of the event-log region (R681). -/
def logUnitAddr (u : Nat) : Nat := 0x70000 + 64 * u

/-- The newest valid entry of the event log: the highest ENTRY_SEQ whose CRC passes (R623). -/
def newestLog (store : List Host.Cell) : Option (Nat × Nat) :=
  (List.range 1024).foldl (fun best u =>
    let b := rdBytes store (logUnitAddr u) 64
    let q := leAt b 0 4
    if q ≠ 0 && leAt b 0x3C 4 = crc32 (b.take 60) then
      match best with
      | some (_, q') => if q' < q then some (u, q) else best
      | none => some (u, q)
    else best) none

/-- The unit and ENTRY_SEQ that the next entry takes (R623): before the log has been searched at start-up, by a search now. -/
def State.nextLog (s : State) : Nat × Nat :=
  match (if s.err.logReady then s.err.newest else newestLog s.strand.data) with
  | none => (0, 1)
  | some (u, q) => ((u + 1) % 1024, if (q + 1) % 2 ^ 32 = 0 then 1 else (q + 1) % 2 ^ 32)

/-- An entry's 64 bytes with its ENTRY_SEQ and CRC (R623). -/
def logUnit (seq : Nat) (body : List Byte) : List Byte :=
  let b := leBytes seq 4 ++ body
  b ++ leBytes (crc32 b) 4

/-! ### Alarms -/

/-- A cause sets bit b of SYS_ALARM, once for each occurrence (R721): an event-log entry with the part of the device it comes
from, and the ALARM source when ANY rises (R623, R624, R637, R720; log 11). -/
def raiseAlarmAt (source b : Nat) (s : State) : State :=
  let rises : BitVec 4 := if s.sys.alarm = 0 then 0b0100 else 0
  let bit := BitVec.ofNat 11 (2 ^ b)
  let s := logEntry { cls := 5, source := source, code := b } s
  { s with sys := { s.sys with alarm := s.sys.alarm ||| bit },
           host := { s.host with irq := s.host.irq ||| rises },
           fresh := { s.fresh with alarm := s.fresh.alarm ||| bit, irq := s.fresh.irq ||| rises } }

/-- SOURCE of an alarm's entry: the part of the device that its cause names (R623, R719; log 43). -/
def alarmSource (b : Nat) : Nat :=
  match b with
  | 0 | 2 | 6 => 12
  | 1 => 17
  | 3 | 4 | 5 => 14
  | 8 => 13
  | 9 => 1
  | _ => 8

/-- Set a cause bit of SYS_ALARM, with the SOURCE of its cause. -/
def raiseAlarm (b : Nat) (s : State) : State := raiseAlarmAt (alarmSource b) b s

/-! ### Records -/

/-- The owner tag over record bytes 0 to 23 (R78). -/
def ownerTag (key bytes : List Byte) : List Byte := (hmacSha256 key bytes).take 8

/-- The tag key with which the watch's records are tagged, none when they carry no tag (R78; a watch that TAG_RECORDS asks
for without a key is FAULTED, and its EVENT goes untagged, log 12). -/
def State.tagKey (s : State) (w : Option Nat) : Option (List Byte) :=
  match w.bind s.watch? with
  | some x => if x.flag 3 then (s.otp.keys.tagKeys.getD x.entry.owner none) else none
  | none => none

/-- The 32 bytes of a record (R647, R649). -/
def recordBytes (key : Option (List Byte)) (type : Nat) (more backlog resumed : Bool) (watch : Option Nat)
    (seq tick frame : Nat) (plain short : List Byte) : List Byte :=
  let flags := b2n key.isSome + 2 * b2n more + 16 * b2n backlog + 32 * b2n resumed
  let head := leBytes type 1 ++ leBytes flags 1 ++ leBytes (watchCode watch) 2 ++ leBytes seq 2 ++ leBytes tick 6 ++
    leBytes frame 4
  match key with
  | none => head ++ padTo plain 16
  | some k =>
    let b := head ++ padTo short 8
    b ++ ownerTag k b

/-- Take the next sequence number of a watch, or of the records of no watch (R43, R648). -/
def takeSeq (w : Option Nat) (s : State) : Nat × State :=
  match w with
  | none => (s.host.noWatchSeq, { s with host := { s.host with noWatchSeq := (s.host.noWatchSeq + 1) % 65536 } })
  | some n =>
    let q := match s.watch? n with
      | some x => x.nextSeq
      | none => 0
    (q, s.modWatch n (fun x => { x with nextSeq := (q + 1) % 65536, lastSeq := q % 256 }))

/-- The record is the EVENT of cause BOOT or BOOT_FAIL (R637). -/
def isBootEvent (b : List Byte) : Bool :=
  byteAt b 0 == 6 && leAt b 2 2 == 0xFFFF && (byteAt b 16 == 1 || byteAt b 16 == 2)

/-- Append a record to the Outbox (R639); the EVENT of the boot sets the BOOT source (R637). -/
def pushOutbox (b : List Byte) (s : State) : State :=
  let boot : BitVec 4 := if isBootEvent b then 0b1000 else 0
  { s with host := { s.host with outbox := s.host.outbox ++ [b], irq := s.host.irq ||| boot },
           fresh := { s.fresh with irq := s.fresh.irq ||| boot } }

/-- Number a record and build its bytes (R622). -/
def numberRecord (d : Draft) (backlog : Bool) (s : State) : List Byte × State :=
  let (q, s1) := takeSeq d.watch s
  (recordBytes (s.tagKey d.watch) d.type d.more backlog d.resumed d.watch q s.sys.tick d.frame d.plain d.short, s1)

/-- Entries of watch w in the backlog. -/
def countOf (w : Nat) (l : List Entry) : Nat := (l.filter (fun e => e.watch == some w)).length

/-- The victim of R645 among the watches with two entries or more, r counted for its watch: the lowest PRIORITY, among
equals the highest number. -/
def State.victim (s : State) (r : Option Nat) : Option Nat :=
  let cs := s.watches.filter (fun w => decide (2 ≤ countOf w.entry.num s.host.backlog + b2n (r == some w.entry.num)))
  cs.foldl (fun best w =>
    match best with
    | none => some w.entry.num
    | some b =>
      let pb := match s.watch? b with
        | some x => x.entry.priority
        | none => 0
      if w.entry.priority < pb || (w.entry.priority == pb && decide (b < w.entry.num)) then some w.entry.num else some b) none

/-- An entry is a LOST record (R645). -/
def Entry.isLost (e : Entry) : Bool := byteAt e.bytes 0 == 7

/-- The LOST record over two entries of watch v (R645, R646). -/
def State.lostEntry (s : State) (v : Nat) (a b : Entry) : Entry :=
  let n := a.count + b.count
  let p := leBytes n 4
  { watch := some v, count := n,
    bytes := recordBytes (s.tagKey (some v)) 7 false true false (some v) (leAt a.bytes 4 2) s.sys.tick 0 p p }

/-- Replace the first entry of watch v by `e`. -/
def replaceFirst (v : Nat) (e : Entry) : List Entry → List Entry
  | [] => []
  | x :: t => if x.watch == some v then e :: t else x :: replaceFirst v e t

/-- Remove the first entry of watch v. -/
def removeFirst (v : Nat) : List Entry → List Entry
  | [] => []
  | x :: t => if x.watch == some v then t else x :: removeFirst v t

/-- Replace the first entry of watch v by `e` and remove the second (R645). -/
def mergeFirstTwo (v : Nat) (e : Entry) : List Entry → List Entry
  | [] => []
  | x :: t => if x.watch == some v then e :: removeFirst v t else x :: mergeFirstTwo v e t

/-- Count a merge in OBX_LOST, and log a LOST record when it is formed (R624, R645). -/
def countMerge (v : Nat) (a b : Entry) (s : State) : State :=
  let fresh := b2n (!a.isLost) + b2n (!b.isLost)
  let s := { s with host := { s.host with lostRecords := satAdd s.host.lostRecords fresh 0xFFFF,
                                          lostMerges := satAdd s.host.lostMerges 1 0xFFFF } }
  if a.isLost then s else logEntry { cls := 6, watch := some v, seq := leAt a.bytes 4 2 } s

/-- Number and place one record (R639, R645): none when the backlog cannot take it. -/
def placeRecord (d : Draft) (s : State) : Option State :=
  if s.host.backlog.isEmpty && decide (s.host.outbox.length < 64) then
    let (b, s1) := numberRecord d false s
    some (pushOutbox b s1)
  else if s.host.backlog.length < 512 then
    let (b, s1) := numberRecord d true s
    some { s1 with host := { s1.host with backlog := s1.host.backlog ++ [{ watch := d.watch, bytes := b }] } }
  else
    match s.victim d.watch with
    | none => none
    | some v =>
      let (b, s1) := numberRecord d true s
      let r : Entry := { watch := d.watch, bytes := b }
      let own := s.host.backlog.filter (fun e => e.watch == some v)
      let two := (own ++ (if d.watch == some v then [r] else [])).take 2
      let e0 := two.getD 0 r
      let e1 := two.getD 1 r
      let lost := s1.lostEntry v e0 e1
      let back := if own.length = 1 then replaceFirst v lost s1.host.backlog
        else mergeFirstTwo v lost s1.host.backlog ++ [r]
      some (countMerge v e0 e1 { s1 with host := { s1.host with backlog := back } })

/-- Release a record: it is numbered and placed, or held behind those held already (R622, R645). -/
def release (d : Draft) (s : State) : State :=
  if s.host.held.isEmpty then
    match placeRecord d s with
    | some s' => s'
    | none => { s with host := { s.host with held := [d] } }
  else { s with host := { s.host with held := s.host.held ++ [d] } }

/-- Release records in order. -/
def releaseAll : List Draft → State → State
  | [], s => s
  | d :: t, s => releaseAll t (release d s)

/-- Place held records in release order for as long as they can be placed; `n` bounds their number (R645). -/
def placeHeld : Nat → State → State
  | 0, s => s
  | n + 1, s =>
    match s.host.held with
    | [] => s
    | d :: t =>
      match placeRecord d { s with host := { s.host with held := [] } } with
      | some s' => placeHeld n { s' with host := { s'.host with held := t } }
      | none => s

/-- Move the head of the backlog to the tail of the Outbox, where both have room (R640). -/
def refillOne (s : State) : State :=
  match s.host.backlog with
  | [] => s
  | e :: t =>
    if s.host.outbox.length < 64 then pushOutbox e.bytes { s with host := { s.host with backlog := t } } else s

/-- Fill every free entry of the Outbox from the backlog; `n` bounds the moves (R640). -/
def refill : Nat → State → State
  | 0, s => s
  | n + 1, s => refill n (refillOne s)

/-- A record of no watch: an EVENT of the given cause and bytes 17 to 31 (R648, R650). -/
def noWatchEvent (cause : Nat) (rest : List Byte) : Draft := { type := 6, plain := leBytes cause 1 ++ rest }

/-! ### The calibration set in use (22) -/

/-- The ROM energy table, nine classes by four clock steps (R759). -/
def romEnergy : List Nat :=
  [79, 93, 113, 135, 44, 52, 63, 75, 157, 187, 226, 270, 151, 180, 217, 260, 291, 346, 418, 500, 23, 28, 33, 40,
   3490, 4150, 5020, 6000, 7280, 8640, 10450, 12500, 2900000, 3200000, 4100000, 5000000]

/-- The ROM nominal set as a calibration set body (R694, R696). -/
def romCal : List Byte :=
  leBytes 1 2 ++ zeros 8 ++ leBytes 16384 2 ++ leBytes 4 2 ++ zeros 50 ++
  ((List.replicate 20 (zeros 4 ++ leBytes 0x400000 4)).flatten) ++ (romEnergy.flatMap (fun x => leBytes x 4)) ++
  zeros 24592

/-- Field of the calibration set in use; before the recovery step the device has none and works with zeros. -/
def State.cal (s : State) (o n : Nat) : Nat := leAt s.strand.cal o n

/-- Reservoir capacitance in force and whether the nominal one is used (R98). -/
def State.capUf (s : State) (b : PowerBlock) : Nat × Bool :=
  let c := s.cal 4 4
  if c = 0 then (b.capNomUf, true) else (c, false)

/-- A flag of the calibration set: 0 COLOFS_VALID, 1 DEFECTS_VALID, 2 ENERGY_VALID (R694). -/
def State.calFlag (s : State) (i : Nat) : Bool := bitN (s.cal 0x0C 2) i

/-- Energy of one event of class k, 0 MAC8 to 8 LEAK, at a clock step, in fJ (R109, R695). -/
def State.energyOf (s : State) (k step : Nat) : Nat :=
  if s.calFlag 2 then s.cal (0xE0 + 16 * k + 4 * step) 4 else romEnergy.getD (4 * k + step) 0

/-- OFS and GAIN of a calibration body's pair p = 5 × channel + gain code (R694). -/
def calPair (body : List Byte) (p : Nat) : Int × Nat := (toSigned (leAt body (0x40 + 8 * p) 4) 32, leAt body (0x44 + 8 * p) 4)

/-- Column offset of column x in 1/16 code for 10-bit or 12-bit readout (R695). -/
def State.colOfs (s : State) (twelve : Bool) (x : Nat) : Int :=
  if s.calFlag 0 then toSigned (s.cal ((if twelve then 0x1180 else 0x180) + 2 * x) 2) 16 else 0

/-- Pixel (x, y) is in the defect list (R695). -/
def State.isDefect (s : State) (x y : Nat) : Bool :=
  s.calFlag 1 && (List.range (s.cal 2 2)).any (fun i => s.cal (0x2180 + 4 * i) 4 == x + y * 65536)

/-- Replace `n` bytes from offset o of a byte list. -/
def putAt (bs : List Byte) (o : Nat) (x : List Byte) : List Byte := bs.take o ++ x ++ bs.drop (o + x.length)

/-- Bounds of a calibration set body (R694). -/
def calBodyOk (b : List Byte) : Bool :=
  let n := leAt b 2 2
  b.length == 24960 && leAt b 0 2 == 1 && decide (n ≤ 4096) && decide (leAt b 4 4 ≤ 10000000) &&
  decide (14746 ≤ leAt b 0xA 2) && decide (leAt b 0xA 2 ≤ 18022) && decide (leAt b 0xC 2 < 8) && zeroAt b 0xE 2 &&
  decide (leAt b 0x10 4 < 2 ^ 20) && zeroAt b 0x14 44 && zeroAt b 0x170 16 &&
  (List.range 20).all (fun p => decide (3145728 ≤ (calPair b p).2) && decide ((calPair b p).2 ≤ 5242880)) &&
  (List.range n).all (fun i =>
    let e := leAt b (0x2180 + 4 * i) 4
    e &&& 0x07FF07FF == e && decide (e / 65536 < 1536) &&
    (i == 0 || decide (leAt b (0x2180 + 4 * (i - 1)) 4 < e))) &&
  zeroAt b (0x2180 + 4 * n) (16384 - 4 * n)

end Sys2Proof.Machine
end

