-- ==== Sys2Proof/Machine/Reset.lean ====
section
/-! DEFINITION. Machine/Reset.lean: the full reset: its sources, what delays it, what it clears and keeps (R131, R132, R154
to R161, R687), and the chip-fatal path into it (R619). -/
namespace Sys2Proof.Machine
open Sys2Proof

/-- Bit of a reset source in SYS_RESET_CAUSE (R161). -/
def ResetSource.bit : ResetSource → Nat
  | .por => 0
  | .borVbat => 1
  | .borVsys => 2
  | .pin => 3
  | .wdt => 4
  | .thermReq => 5
  | .thermTrip => 6
  | .soft => 7
  | .fatal => 8

/-- Put an entry into the log region: one unit, after the newest (R623). -/
def putLog (body : List Byte) (s : State) : State :=
  let (u, q) := s.nextLog
  { s with strand := { s.strand with data := wrBytes s.strand.data (logUnitAddr u) (logUnit q body),
                                     units := satAdd s.strand.units 1 0xFFFF },
           err := { s.err with newest := some (u, q) } }

/-- The rule under which the write engine starts a unit: the latest VBAT reading and the latest junction sample, none being a
sample before the first (R685; log 88). -/
def State.unitMayStart (s : State) : Bool := s.tide.tempTaken && decide (2050 ≤ s.tide.vbatMv) && decide (s.tide.temp < 7680)

/-- The OTP word in progress is left torn: every cell it was to turn from 0 to 1 reads a free value at each margin (R158,
R179, R182). -/
def tearOtp (s : State) : State :=
  match s.otp.run with
  | some { todo := (a, m) :: _, .. } =>
    let old := sget 0 s.otp.cells a
    let oldH := sget 0 s.otp.cellsHigh a
    let f1 : BitVec 39 := BitVec.ofNat 39 (Config.freeNat s.free)
    let f2 : BitVec 39 := BitVec.ofNat 39 (Config.freeNat (s.free + 1))
    { s with otp := { s.otp with cells := sput 0 s.otp.cells a (old ||| (m &&& f1)),
                                 cellsHigh := sput 0 s.otp.cellsHigh a (oldH ||| (m &&& f2)), run := none },
             free := s.free + 2 }
  | _ => { s with otp := { s.otp with run := none } }

/-- The Strand store unit in progress is left torn, with undefined content (R687). -/
def tearUnit (s : State) : State :=
  match s.strand.writing with
  | some r =>
    let (bs, s1) := s.freeBytes 64
    { s1 with strand := { s1.strand with data := wrBytes s1.strand.data (64 * r.unit) bs, writing := none } }
  | none => s

/-- The CHIP_FATAL entry that waits, if a fatal reset is being taken, is written before the reset (R619). -/
def flushFatalLog (s : State) : State :=
  match s.strand.logQueue.find? (fun b => byteAt b 0 == 3) with
  | some b => if s.unitMayStart then putLog b s else s
  | none => s

/-- The pins at a reset: those whose OUT_MASK holds FAULT keep their configuration and drive FAULT alone, PC7 and every
other pin take their reset state; at POR only PC7 carries FAULT (R678). -/
def resetPins (por : Bool) (pins : List Pin) : List Pin :=
  (List.range 24).map (fun p =>
    match pins[p]? with
    | some x => if !por && p ≠ 23 && x.mask.getLsbD 9 then { x with mask := 0x000200 } else Pin.atReset p
    | none => Pin.atReset p)

/-- Everything a reset clears and keeps (R156): sys.asserted holds the sources of the reset in progress, and `por` says that the
source that enters it now is POR, with which the tick counter restarts (R131). -/
def enterReset (por : Bool) (s : State) : State :=
  let s := if s.sys.asserted.getLsbD 8 then flushFatalLog s else s
  { pending := s.pending,
    sys := { tick := if por then 0 else s.sys.tick, inReset := true, asserted := s.sys.asserted,
             fatalPending := s.sys.fatalPending, resetCause := s.sys.resetCause, fatalCode := s.sys.fatalCode,
             loopCount := s.sys.loopCount, loopShown := s.sys.loopShown, straps := s.sys.straps },
    tide := { lfFallback := !por && s.tide.lfFallback, lfCrystal := !por && s.tide.lfCrystal, lfWait := !por && s.tide.lfWait,
              collapses := if por then 0 else s.tide.collapses,
              thermalShutdown := s.sys.asserted.getLsbD 5 || s.sys.asserted.getLsbD 6 },
    otp := { cells := s.otp.cells, cellsHigh := s.otp.cellsHigh },
    gpio := { pins := resetPins por s.gpio.pins },
    strand := { data := s.strand.data },
    tap := { s.tap with slackHold := false, wait := none },
    free := s.free }

/-- A unit or a word in progress holds back a reset of this source (R158). -/
def State.delays (s : State) (src : ResetSource) : Bool :=
  match src with
  | .por | .thermTrip => false
  | .borVbat | .borVsys | .thermReq => s.strand.writing.isSome
  | .pin | .soft | .wdt | .fatal => s.strand.writing.isSome || s.otp.run.isSome

/-- A source asserts a full reset (R154, R156 to R159). In an OTP_HOLD reset only POR and RESET_N act. -/
def assertReset (src : ResetSource) (s : State) : State :=
  if s.otp.hold.isSome && src ≠ .por && src ≠ .pin then s
  else
    let bit := BitVec.ofNat 9 (2 ^ src.bit)
    let old : BitVec 9 := if s.sys.inReset || s.sys.delayed.isSome then s.sys.asserted else 0
    let s := { s with sys := { s.sys with asserted := old ||| bit } }
    match src with
    | .por | .thermTrip => enterReset (src == .por) (tearUnit (tearOtp s))
    | .borVbat | .borVsys | .thermReq =>
      let s := tearOtp s
      if s.delays src then { s with sys := { s.sys with delayed := some src } } else enterReset false s
    | _ => if s.delays src then { s with sys := { s.sys with delayed := some src } } else enterReset false s

/-- A unit or a word has ended: a reset that waited for it is taken (R158). -/
def takeDelayed (s : State) : State :=
  match s.sys.delayed with
  | some src => if s.delays src then s else enterReset false s
  | none => s

/-- A chip-fatal error: the CHIP_FATAL entry, then the reset of cause FATAL with its code (R619). -/
def chipFatal (code source : Nat) (s : State) : State :=
  if s.sys.inReset then s
  else
    let s := logEntry { cls := 3, source := source, code := code } s
    assertReset .fatal { s with sys := { s.sys with fatalPending := code } }

/-- A book does not balance: chip-fatal 0x05, BOOKS (R619, R621). -/
def booksFail (s : State) : State := chipFatal 5 8 s

end Sys2Proof.Machine
end

