-- ==== Sys2Proof/Machine/CwOps.lean ====
section
/-! DEFINITION. Machine/CwOps.lean: sending over the Causeway: ports, routing, the queues of a port, credits, the retry
buffer and what the port drives onto its lane (R549 to R552, R559 to R569, R580). Transmission has no command of its own:
a port that is UP sends what its queue, its credits and its retry buffer allow at once (log 30). -/
namespace Sys2Proof

/-- The other port. -/
def PortId.other : PortId → PortId
  | .up => .dn
  | .dn => .up

/-- Bit of a port in a two-port listing: 0 upstream, 1 downstream. -/
def PortId.idx : PortId → Nat
  | .up => 0
  | .dn => 1

/-- Lines of the payload. -/
def Packet.lineCount (p : Packet) : Nat := p.payload.length / 66

/-- Credits a packet costs: 1 unit plus 1 per line (R566). -/
def Packet.cost (p : Packet) : Nat := 1 + p.lineCount

/-- Bytes a packet takes in the retry buffer: header, payload and CRC (R563). -/
def Packet.size (p : Packet) : Nat := 20 + p.payload.length

end Sys2Proof

namespace Sys2Proof.Machine
open Sys2Proof

/-- A port of the Causeway. -/
def State.port (s : State) (p : PortId) : Port :=
  match p with
  | .up => s.cw.up
  | .dn => s.cw.dn

/-- Replace a port. -/
def State.setPort (s : State) (p : PortId) (x : Port) : State :=
  match p with
  | .up => { s with cw := { s.cw with up := x } }
  | .dn => { s with cw := { s.cw with dn := x } }

/-- Change a port. -/
def State.modPort (s : State) (p : PortId) (f : Port → Port) : State := s.setPort p (f (s.port p))

/-- The ports that the role uses (R549). -/
def State.usedPorts (s : State) : List PortId :=
  match s.cw.cfg.role with
  | 1 => [.dn]
  | 2 => [.up, .dn]
  | 3 => [.up]
  | _ => []

/-- Bytes held in a port's retry buffer. -/
def Port.held (x : Port) : Nat := x.retry.foldl (fun n e => n + e.2.size) 0

/-- The packet that virtual channel v sends next: own sources and transit alternate, each in arrival order (R569). -/
def Port.candidate (x : Port) (v : Nat) : Option Queued :=
  let q := x.queue.filter (fun e => e.pkt.vc == v)
  let last := x.lastTransit.getD v false
  match q.find? (fun e => e.transit != last) with
  | some e => some e
  | none => q.head?

/-- Remove the first entry equal to `e`. -/
def dropQueued (e : Queued) : List Queued → List Queued
  | [] => []
  | y :: t => if y = e then t else y :: dropQueued e t

/-- The next packet the port may transmit: MGT, then RSP, then REQ, within credits and the retry buffer (R563, R566, R569). -/
def Port.next (x : Port) : Option Queued :=
  let ok := fun (e : Queued) => e.pkt.cost ≤ x.credits.getD e.pkt.vc 0 && decide (x.held + e.pkt.size ≤ 8192)
  ([2, 1, 0].filterMap (fun v => (x.candidate v).filter ok)).head?

/-- Transmit one packet: it takes the next SEQ and the port's epoch, costs its credits and enters the retry buffer. -/
def Port.transmit (x : Port) (e : Queued) : Port :=
  let v := e.pkt.vc
  { x with queue := dropQueued e x.queue, txSeq := (x.txSeq + 1) % 4096,
           retry := x.retry ++ [(x.txSeq, e.pkt)],
           credits := modAt x.credits v (fun c => c - e.pkt.cost),
           lastTransit := setAt x.lastTransit v e.transit,
           sent := x.sent ++ [.packet x.txSeq x.epoch e.pkt] }

/-- Transmit as many packets as may go; `n` bounds them. -/
def Port.pump : Nat → Port → Port
  | 0, x => x
  | n + 1, x =>
    if x.state = .up then
      match x.next with
      | some e => Port.pump n (x.transmit e)
      | none => x
    else x

/-- Drive a control word onto the lane. -/
def control (p : PortId) (i : LaneItem) (s : State) : State := s.modPort p (fun x => { x with sent := x.sent ++ [i] })

/-- Begin a command of a port: its record of what it drove starts anew. -/
def beginPort (p : PortId) (s : State) : State := s.modPort p Port.restart

/-- Return units of a virtual channel to the peer, which a port that is not UP no longer owes (R566, R572). -/
def returnCredit (p : PortId) (v n : Nat) (s : State) : State :=
  if (s.port p).state = .up && n ≠ 0 then
    control p (.credit v n) (s.modPort p (fun x => { x with owed := modAt x.owed v (fun o => o - n) }))
  else s

/-- Units of virtual channel v that the packets of a queue still hold of the port `o` through which they came. -/
def unitsOf (o : PortId) (v : Nat) (q : List Queued) : Nat :=
  (q.filter (fun e => decide (e.owes = some o) && e.pkt.vc == v)).foldl (fun n e => n + e.pkt.cost) 0

/-- The units that packets no longer queued have held go back to the chips they came from (R566). -/
def returnUnits (old new : List Queued) (s : State) : State :=
  [PortId.up, .dn].foldl (fun s o => [0, 1, 2].foldl (fun s v => returnCredit o v (unitsOf o v old - unitsOf o v new) s) s) s

/-- Let a port transmit; the units of the transit packets it has passed on go back (R566). -/
def pumpPort (p : PortId) (s : State) : State :=
  let x := s.port p
  let y := Port.pump x.queue.length x
  returnUnits x.queue y.queue (s.setPort p y)

/-- A port holds 16 credits again in each direction: the units of what had come through it are not owed any more (R557, R572). -/
def forgiveUnits (p : PortId) (s : State) : State :=
  let f := fun (e : Queued) => if e.owes = some p then { e with owes := none } else e
  (s.modPort .up (fun x => { x with queue := x.queue.map f })).modPort .dn (fun x => { x with queue := x.queue.map f })

/-- The port toward a chip: downstream for a higher number, upstream for a lower one (R568). -/
def State.portToward (s : State) (dest : Nat) : PortId := if s.cw.chip.getD 0 < dest then .dn else .up

/-- The system controller enables XREF for a job or a port that needs it (R90). -/
def needXref (s : State) : State := if s.tide.xrefOn then s else { s with tide := { s.tide with xrefOn := true, xrefReady := false } }

/-- A port that powers up drives its lane from negative running disparity (R555; log 84). -/
def Port.powerUp (x : Port) : Port := if x.state = .off || x.state = .sleep then { x with sent := [], disparity := false } else x

/-- A port begins training from step 1 (R557). -/
def startTraining (p : PortId) (resume : Bool) (s : State) : State :=
  s.modPort p (fun x => { x.powerUp with state := .training, enabledTick := s.sys.tick, pll := false, aligned := false,
                                         resume := resume, ts1 := 0, ts2 := 0, agreed := none })

/-- With XREF ready, the used ports that have never run begin to train, and those asleep train with RESUME while CW_WAKE is
asserted (R554, R557, R583). -/
def startPorts (s : State) : State :=
  if s.tide.xrefReady then
    s.usedPorts.foldl (fun s p =>
      if (s.port p).state = .off then startTraining p false s
      else if (s.port p).state = .sleep && (s.cw.wakeIn || s.cw.wakeOut) then startTraining p true s
      else s) s
  else s

/-- A chip in need of a sleeping port asserts CW_WAKE; it enables XREF and trains its ports (R583). -/
def needPort (p : PortId) (s : State) : State :=
  if (s.port p).state = .sleep then startPorts (needXref { s with cw := { s.cw with wakeOut := true } }) else s

/-- Queue a packet on a port: one of this chip, or a transit packet that came through the port `owes` (R568, R569). -/
def enqueue (p : PortId) (owes : Option PortId) (k : Packet) (s : State) : State :=
  pumpPort p (needPort p (s.modPort p (fun x =>
    { x with queue := x.queue ++ [{ pkt := k, transit := owes.isSome, tick := s.sys.tick, owes := owes }] })))

/-- Send a packet of this chip toward its destination. -/
def sendPacket (k : Packet) (s : State) : State :=
  let p := s.portToward k.dest
  if p ∈ s.usedPorts then enqueue p none k s else s

/-- Chips of a destination mask in ascending number, other than this one (R580). -/
def State.maskChips (s : State) (mask : Nat) : List Nat :=
  (List.range 16).filter (fun c => bitN mask c && s.cw.chip ≠ some c)

/-- The MSG packets that a source watch's job sends when it enters DONE (R580). -/
def sendMessages (n : Nat) (s : State) : State :=
  match s.cw.chip with
  | none => s
  | some me =>
    s.cw.cfg.messages.foldl (fun s m =>
      if m.1 = n then
        (s.maskChips m.2.2).foldl (fun s c =>
          sendPacket { type := 0xC, dest := c, src := me, watch := n, arg := m.2.1 } s) s
      else s) s

end Sys2Proof.Machine
end

