-- ==== Sys2Proof/Machine/Jobs.lean ====
section
/-! DEFINITION. Machine/Jobs.lean: watches and jobs: triggers (R47 to R51, R56, R62, R63), the transitions of R54, what ends a
job (R617, R651) and what its end causes (chains, alarm lines, messages, self-labels), and the start of a partial
reset (R167, R173). -/
namespace Sys2Proof.Machine
open Sys2Proof

/-! ### Records of the image that a watch names -/

/-- The accepted record of a type and id (R218, R233). -/
def State.record? (s : State) (type id : Nat) : Option PlacedRecord :=
  s.image.records.find? (fun r => r.type == type && r.id == id)

/-- The REQUANT_TABLE of a watch (R40, R499). -/
def State.quant? (s : State) (w : Watch) : Option PlacedRecord :=
  if w.entry.requantRec = 0xFFFF then none else s.record? 5 w.entry.requantRec

/-- The adaptation block (R513). -/
structure AdaptBlock where
  /-- HEAD_DESC -/
  headDesc : Nat
  /-- STATE_OFFSET -/
  stateOff : Nat
  /-- SERVICE_OFFSET -/
  serviceOff : Nat
  /-- RING_OFFSET -/
  ringOff : Nat
  /-- RING_LEN -/
  ringLen : Nat
  /-- SLOT -/
  slot : Nat
  /-- LR_SHIFT -/
  lrShift : Nat
  /-- BETA_Q8 -/
  beta : Nat
  /-- WQ_SHIFT -/
  wqShift : Nat
  /-- BQ_SHIFT -/
  bqShift : Nat
  /-- SELF_MODE -/
  selfMode : Nat
  /-- BASELINE_CLASS -/
  baseClass : Nat
  /-- BASELINE_JOBS -/
  baseJobs : Nat
  /-- SELF_MIN -/
  selfMin : Nat
  /-- COMMIT_EVERY -/
  commitEvery : Nat

/-- Read an adaptation block from its 64 bytes (R513). -/
def AdaptBlock.read (b : List Byte) : AdaptBlock :=
  { headDesc := leAt b 0 4, stateOff := leAt b 4 4, serviceOff := leAt b 8 4, ringOff := leAt b 0xC 4,
    ringLen := byteAt b 0x10, slot := byteAt b 0x11, lrShift := byteAt b 0x12, beta := byteAt b 0x13,
    wqShift := byteAt b 0x14, bqShift := byteAt b 0x15, selfMode := byteAt b 0x16, baseClass := byteAt b 0x17,
    baseJobs := leAt b 0x18 2, selfMin := leAt b 0x1A 2, commitEvery := byteAt b 0x1C }

/-- The adaptation block of an ADAPT watch, read from its REQUANT_TABLE as placed at boot (R40, R499, R513). -/
def State.adaptBlock? (s : State) (w : Watch) : Option AdaptBlock :=
  if w.flag 6 then
    match s.quant? w with
    | some r =>
      let o := leAt r.body 0xC 4
      if o = 0 then none else some (AdaptBlock.read (slice r.body o 64))
    | none => none
  else none

/-- A little-endian field of the Harbour. -/
def State.hbr (s : State) (a n : Nat) : Nat := rdLE s.harbour.data a n

/-- The banks that hold any byte of a range of the Harbour. -/
def bankMask (a n : Nat) : BitVec 32 :=
  (List.range 32).foldl (fun (m : BitVec 32) b =>
    if 0 < n && decide (a < (b + 1) * 0x100000) && decide (b * 0x100000 < a + n) then m ||| BitVec.ofNat 32 (2 ^ b) else m) 0

/-- The first access to a bank that is off powers it up (R757). -/
def State.power (s : State) (a n : Nat) : State :=
  { s with tide := { s.tide with banksOn := s.tide.banksOn ||| bankMask a n } }

/-- A read of the Harbour: the bank is powered, and single-bit errors in the lines read are corrected and counted (R603, R757). -/
def State.visit (s : State) (a n : Nat) : State :=
  if s.harbour.upset.isEmpty then s.power a n
  else { s.power a n with harbour := s.harbour.correct a n,
                          err := { s.err with eccHarbour := satAdd s.err.eccHarbour (s.harbour.upsetIn a n) 0xFFFF } }

/-- Write bytes of the Harbour, leaving tags as they were. -/
def State.putHbr (s : State) (a : Nat) (bs : List Byte) : State :=
  { s.power a bs.length with harbour := s.harbour.putBytes a bs }

/-- Write whole lines of the Harbour with their tags from line l upward. -/
def State.putHbrLines (s : State) (l : Nat) (ls : List (List Byte × BitVec 16)) : State :=
  { s.power (64 * l) (64 * ls.length) with harbour := s.harbour.putLines l ls }

/-- Write whole lines of the Harbour from an aligned offset, each keeping its tag; a poison mark of theirs ends (R604). -/
def State.putHbrWhole (s : State) (a : Nat) (bs : List Byte) : State :=
  s.putHbrLines (a / 64) ((toLines bs (ceilDiv bs.length 64)).zipIdx.map (fun x => (x.1, s.harbour.tag (a / 64 + x.2))))

/-! ### Waking, partial resets -/

/-- Leave Neap for Slack: the Outbox fills from the backlog, and the pin-interrupt lines reload at the next tick
(R86, R640, R672). -/
def wake (s : State) : State :=
  if s.tide.power = .neap then
    refill 64 { s with tide := { s.tide with power := .slack }, gpio := { s.gpio with reload := true } }
  else s

/-- Field of a unit in SYS_UNIT_RESETS (R173). -/
def unitIndex : ResetUnit → Nat
  | .core c => c.val
  | .stem => 4
  | .adc => 5
  | .port p => 6 + p.idx

/-- Start a partial reset of a unit: it refuses requests until it is released, and the reset is counted (R168, R173). -/
def startPartial (u : ResetUnit) (s : State) : State :=
  if u ∈ s.sys.resetting then s
  else { s with sys := { s.sys with resetting := s.sys.resetting ++ [u],
                                    unitResets := modAt s.sys.unitResets (unitIndex u) (fun n => satAdd n 1 15) } }

/-! ### PIX_EN -/

/-- Sentinel readout runs: in Neap or Slack, a SENTINEL watch is ARMED, no job holds the array (R52, R280), and no thermal
shutdown request holds PIX_EN low (R127). -/
def State.sentinelOn (s : State) : Bool :=
  decide (s.tide.power ≠ .spring) && s.pix.cap.isNone && !s.tide.thermalShutdown &&
  s.watches.any (fun w => w.entry.trigKind == 5 && decide (w.state = .armed))

/-- The level of PIX_EN: high for a pixel job or for sentinel readout (R83, R84), low under a thermal shutdown request (R127). -/
def State.pixEnable (s : State) : Bool := !s.tide.thermalShutdown && (s.tide.pixEn || s.sentinelOn)

/-- VPIX is known to be good only while PIX_EN has not fallen since: after a change that may have moved PIX_EN, the state keeps
`vpixReady` only where PIX_EN was high before it and is high after it (R84). -/
def keepVpix (before : State) (s : State) : State :=
  if before.pixEnable && s.pixEnable then s else { s with tide := { s.tide with vpixReady := false } }

/-! ### Triggers -/

/-- The busy states (R54). -/
def WState.busy : WState → Bool
  | .waitingEnergy | .running | .checkpointed => true
  | _ => false

/-- Another member of the watch's share group is busy (R62). -/
def State.groupBusy (s : State) (w : Watch) : Bool :=
  w.entry.group != 0 &&
  s.watches.any (fun o => o.entry.num != w.entry.num && o.entry.group == w.entry.group && o.state.busy)

/-- Lexicographic order of queue keys. -/
def keyLt (a b : Nat × Nat × Nat) : Bool :=
  a.1 < b.1 || (a.1 == b.1 && (a.2.1 < b.2.1 || (a.2.1 == b.2.1 && decide (a.2.2 < b.2.2))))

/-- Key of a held trigger in the queue of due watches (R59, R63). -/
def Watch.heldKey? (w : Watch) : Option (Nat × Nat × Nat) := w.held.map (fun h => (h.1, h.2, w.entry.num))

/-- Another member of the watch's share group holds a trigger whose place in the queue is before `key`: the held watch keeps
its place (R62, R63). -/
def State.groupHeldBefore (s : State) (w : Watch) (key : Nat × Nat × Nat) : Bool :=
  w.entry.group != 0 &&
  s.watches.any (fun o => o.entry.num != w.entry.num && o.entry.group == w.entry.group && o.heldKey?.any (fun k => keyLt k key))

/-- A step of the watch waits or runs, so that a job of the watch does not start (R517, R521). -/
def Watch.stepping (w : Watch) : Bool := w.adapt.any (fun a => !a.labels.isEmpty)

/-- A due trigger is accepted and a job starts: ARMED to RUNNING, JOBS, LAST_DUE (R54, R63), and the hold-off of a GPIO
trigger counts from here (R47). A pending service buffer becomes active (R517). -/
def startJob (n due order : Nat) (gpio : Bool) (s : State) : State :=
  s.modWatch n (fun w =>
    { w with state := .running, held := none, heldGpio := false, groupWait := false, jobs := (w.jobs + 1) % 2 ^ 32,
             lastDue := due % 2 ^ 48, lastGpio := if gpio then some s.sys.tick else w.lastGpio,
             job := some { due := due, order := order, inputsDone := w.entry.inputKind == 0 },
             adapt := w.adapt.map (fun a => { a with activeB := a.activeB ^^ a.pending, pending := false }) })

/-- Start the job of a due trigger, or hold it while its share group is before it (R62, R63) or a step of the watch has
still to run (R517, R521). -/
def serveTrigger (n due order : Nat) (gpio : Bool) (s : State) : State :=
  match s.watch? n with
  | some w =>
    let g := s.groupBusy w || s.groupHeldBefore w (due, order, n)
    if g || w.stepping then
      s.modWatch n (fun w => { w with held := some (due, order), heldGpio := gpio, groupWait := g })
    else startJob n due order gpio s
  | none => s

/-- A trigger of watch n that became due at a tick (R48, R49, R56, R63): `order` is 0 but for a chained one, `gpio` marks a
GPIO trigger for the hold-off of R47. A trigger that sets the pending bit is accepted, so LAST_DUE and the hold-off take it
(R42, R56). -/
def trigger (n due order : Nat) (gpio : Bool) (s : State) : State :=
  match s.watch? n with
  | none => s
  | some w =>
    if w.state = .dormant || w.state = .faulted || (w.state = .done && w.flag 2) then s
    else
      let s := wake s
      if w.state = .armed && w.held.isNone then serveTrigger n due order gpio s
      else if w.pending then s.modWatch n (fun w => { w with missed := satAdd w.missed 1 0xFFFFFFFF })
      else s.modWatch n (fun w => { w with pending := true, pendingDue := (due, order), lastDue := due % 2 ^ 48,
                                           lastGpio := if gpio then some s.sys.tick else w.lastGpio })

/-- An ARMED watch with a pending trigger starts its job, and the device leaves Neap for it (R54, R86). DESIGN CHOICE (log
65): the job's place in the queue and its LAST_DUE are those of the tick at which the trigger came, and a pending trigger
that finds its share group busy becomes the held trigger, its pending bit clear. -/
def startPending (n : Nat) (s : State) : State :=
  match s.watch? n with
  | some w =>
    if w.state = .armed && w.pending then
      serveTrigger n w.pendingDue.1 w.pendingDue.2 false (wake (s.modWatch n (fun w => { w with pending := false })))
    else s
  | none => s

/-- The held trigger of a watch is accepted once its share group is free, it is first in the queue among the group's held
triggers, and no step of the watch has still to run (R59, R62, R63, R517); GROUP_WAIT follows the group. -/
def tryHeld (n : Nat) (s : State) : State :=
  match s.watch? n with
  | some w =>
    match w.held with
    | some (due, order) =>
      let g := s.groupBusy w || s.groupHeldBefore w (due, order, n)
      if g || w.stepping then s.modWatch n (fun w => { w with groupWait := g }) else startJob n due order w.heldGpio s
    | none => s
  | none => s

/-- Trigger each watch of a list in order at the present tick. -/
def triggerAll (ns : List Nat) (order : Nat) (gpio : Bool) (s : State) : State :=
  ns.foldl (fun s n => trigger n s.sys.tick order gpio s) s

/-- Key of the admission queue: due tick, chained order, watch number (R51, R59, R61). -/
def Watch.queueKey (w : Watch) : Nat × Nat × Nat :=
  match w.job with
  | some j => (j.due, j.order, w.entry.num)
  | none => (0, 0, w.entry.num)

/-! ### What the end of a job causes -/

/-- A record of the watch's job: its frame number and RESUMED (R278, R307, R647). -/
def jobDraft (w : Watch) (type : Nat) (more : Bool) (plain short : List Byte) : Draft :=
  match w.job with
  | some j => { type := type, watch := some w.entry.num, more := more, resumed := j.resumed, frame := j.unitNum,
                plain := plain, short := short }
  | none => { type := type, watch := some w.entry.num, more := more, plain := plain, short := short }

/-- BUCK_EFF_Q8 of the power block in force (R93). -/
def State.buckEff (s : State) : Nat :=
  match s.tide.block with
  | some b => b.buckEffQ8
  | none => 256

/-- Metered energy in µJ of a sum of products in fJ, rounded half to even (R110, R461). -/
def State.toUj (s : State) (fj : Nat) : Nat := (rhe (fj * 256 : Nat) (s.buckEff * 1000000000)).toNat

/-- The metered energy of a sum of products in fJ is at least `uj` µJ, compared before any rounding (R112, R116, R169). -/
def State.hasMetered (s : State) (uj fj : Nat) : Bool := decide (uj * (s.buckEff * 1000000000) ≤ fj * 256)

/-- The EVENT record of a job: JOB_END, ENERGY_TIMEOUT or DISARMED (R649, R650). -/
def State.jobEvent (s : State) (w : Watch) (cause : Nat) : Draft :=
  let j := w.job.getD {}
  let e := leBytes (min (s.toUj j.totalFj) 0xFFFFFFFF) 4
  let b := if cause = 3 then
      leBytes cause 1 ++ leBytes j.flags.toNat 1 ++ leBytes (min j.replayed 255) 1 ++ leBytes 0 1 ++ e ++
      leBytes (min j.ckpts 0xFFFF) 2 ++ leBytes (min j.tileReplays 0xFFFF) 2
    else leBytes cause 1 ++ zeros 3 ++ e
  jobDraft w 6 false b (b.take 8)

/-- The job emitted a VIB_SUMMARY: Aux ADC input with RECORD_KINDS bit 3 (R652). -/
def Watch.vib (w : Watch) : Bool := w.entry.inputKind == 2 && w.entry.recordKinds.getLsbD 3

/-- Chained target t matches what a job of watch n emitted (R47, R51). -/
def chainMatches (n : Nat) (fired : List (Nat × Nat)) (t : Watch) : Bool :=
  t.entry.trigKind == 4 && leAt t.entry.trigArg 0 2 == n &&
  fired.any (fun f => f.1 < 64 && bitN (leAt t.entry.trigArg 8 8) f.1 && decide (leAt t.entry.trigArg 2 2 ≤ f.2))

/-- The chained targets of a job become due, after every watch already due, in ascending number (R50, R51, R81). -/
def fireChains (n : Nat) (fired : List (Nat × Nat)) (s : State) : State :=
  let ts := (s.watches.filter (chainMatches n fired)).map (fun w => w.entry.num)
  if ts.isEmpty then s
  else triggerAll ts (s.nextOrder + 1) false { s with nextOrder := s.nextOrder + 1 }

/-- One alarm line tested against a job that entered DONE (R665). -/
def alarmLine (n : Nat) (fired : List (Nat × Nat)) (i : Nat) (s : State) : State :=
  let g := (s.gpio.alarmCfg.getD i 0).toNat
  if bitN g 10 && fld g 0 10 == n then
    let hit := fired.any (fun f => (bitN g 22 || f.1 == fld g 16 6) && decide (fld g 24 8 * 256 ≤ f.2))
    let bit : BitVec 8 := BitVec.ofNat 8 (2 ^ i)
    if hit then { s with gpio := { s.gpio with alarm := s.gpio.alarm ||| bit }, fresh := { s.fresh with lines := s.fresh.lines ||| bit } }
    else if bitN g 11 then { s with gpio := { s.gpio with alarm := s.gpio.alarm &&& ~~~bit } }
    else s
  else s

/-- Queue a step of watch n on a ring entry (R519, R521): its class and whether the host labelled it.
The entry's state becomes host-labelled or self-labelled, or both (R518). -/
def queueLabel (n entry cls : Nat) (byHost : Bool) (s : State) : State :=
  { s.modWatch n (fun w => { w with adapt := w.adapt.map (fun a => { a with labels := a.labels ++ [(entry, cls, byHost)] }) })
    with stem := { s.stem with queue := s.stem.queue ++ [{ watch := n, kind := .adapt }] } }

/-- Harbour offset of ring entry e of an ADAPT watch (R518). -/
def ringAddr (w : Watch) (b : AdaptBlock) (nIn e : Nat) : Nat := w.entry.hbrBase + b.ringOff + e * (64 + alignUp nIn 64)

/-- N_IN and N_OUT of the adapted head's descriptor (R338, R513). -/
def State.headShape (s : State) (w : Watch) (b : AdaptBlock) : Nat × Nat :=
  (s.hbr (w.entry.hbrBase + b.headDesc + 4) 2, s.hbr (w.entry.hbrBase + b.headDesc + 3) 1)

/-- Set the label bits of a ring entry: 2 host, 3 self, 4 both (R518). -/
def markEntry (a : Nat) (byHost : Bool) (s : State) : State :=
  let old := s.hbr (a + 4) 1
  let new := if byHost then (if old = 3 || old = 4 then 4 else 2) else (if old = 2 || old = 4 then 4 else 3)
  s.putHbr (a + 4) (leBytes new 1)

/-- A line of a Harbour range holds the poison mark (R604). -/
def poisonIn (h : Lines) (a n : Nat) : Bool := (List.range (ceilDiv (a % 64 + n) 64)).any (fun i => h.poisoned (a / 64 + i))

/-- The controller's read of lines of a watch's adaptation: a poisoned one among them is an error of the Stem engine, whose unit
adaptation is, and starts its partial reset; `f` goes on where there is none (R604, R615; DESIGN CHOICE, log 81). -/
def adaptRead (rs : List (Nat × Nat)) (lost f : State → State) (s : State) : State :=
  if rs.any (fun r => poisonIn s.harbour r.1 r.2) then lost (startPartial .stem s)
  else f (rs.foldl (fun s r => s.visit r.1 r.2) s)

/-- The self-label of a job that kept features and enters DONE (R521). -/
def selfLabel (w : Watch) (s : State) : State :=
  match s.adaptBlock? w, w.job.bind (fun j => j.kept) with
  | some b, some (e, cls, score) =>
    let base := w.entry.hbrBase + b.stateOff
    if b.selfMode ≠ 1 then s
    else adaptRead [(base, 64), (w.entry.hbrBase + b.headDesc, 64), (ringAddr w b (s.headShape w b).1 e, 64)] id (fun s =>
    let count := s.hbr (base + 12) 2
    let go := fun (s : State) =>
      queueLabel w.entry.num e b.baseClass false (markEntry (ringAddr w b (s.headShape w b).1 e) false s)
    if count < b.baseJobs then go (s.putHbr (base + 12) (leBytes (count + 1) 2))
    else if b.selfMin ≠ 0 && cls = b.baseClass && b.selfMin ≤ score then go s
    else s) s
  | _, _ => s

/-- Head requests that the Stem engine holds: those of the cores, group requests among them, and those of the system controller
(R349, R506). -/
def State.heldHeads (s : State) : Nat :=
  (coreIds.map (fun c => (s.core c).heads)).sum +
  (s.stem.queue.filter (fun r => match r.kind with
    | .head none _ _ => true
    | _ => false)).length

/-! ### Leaving Spring -/

/-- A core without power: its registers and memories are gone; what the system controller keeps of it stays (R71, R172, R393). -/
def coreOff (k : Core) : Core :=
  { owner := k.owner, excCause := k.excCause, excSlot := k.excSlot, excPc := k.excPc, excValid := k.excValid }

/-- The book of descriptor tokens: at most 16 transfers of each DMA slot of a core are outstanding, each holding a token (R376, R621). -/
def Core.tokensBalance (k : Core) : Bool := [6, 7].all (fun t => decide ((k.pend.filter (fun q => q.slot == t)).length ≤ 16))

/-- The book of berth slots: berths are FILLING only for the job that holds the array, one for each of its windows at most (R621). -/
def State.berthsBalance (s : State) : Bool :=
  decide ((s.pix.berths.filter (fun b => b.2 == BerthState.filling)).length ≤ (s.pix.cap.map (fun c => c.wins.length)).getD 0)

/-- The book of the Outbox: no more records than its 64 entries, nor than the backlog's 512 (R621, R639). -/
def State.outboxBalance (s : State) : Bool := decide (s.host.outbox.length ≤ 64) && decide (s.host.backlog.length ≤ 512)

/-- The job has metered more than its allowances and RESERVE_UJ for each of `n` checkpoints (R621). -/
def State.overspent (s : State) (w : Watch) (j : Job) (n : Nat) : Bool :=
  let reserve := (s.tide.block.map (fun b => b.reserveUj)).getD 0
  decide ((w.entry.ceiling * j.grants + reserve * n) * (s.buckEff * 1000000000) < j.totalFj * 256)

/-- CORE_EN falls: the cores lose power, their tokens being counted, and the device returns to Slack (R88, R172, R621). -/
def leaveSpring (s : State) : State :=
  if s.tide.coreEn && !coreIds.all (fun c => (s.core c).tokensBalance) then booksFail s
  else if s.tide.coreEn then
    let code0 := match s.tide.block with
      | some b => b.vselCode.getD 0 0
      | none => 0
    keepVpix s { s.modCores coreIds coreOff with
        tide := { s.tide with power := .slack, coreEn := false, vsel := code0, afterSpring := true },
        sys := { s.sys with resetting := s.sys.resetting.filter (fun u =>
          match u with
          | .core _ => false
          | _ => true) },
        stopping := none }
  else s

/-- The inputs that a job holds are freed: its berths still FILLING return to IDLE, PIX_EN and its IEPE_EN lines fall
(R60, R269, R287, R308). -/
def dropInputs (n : Nat) (s : State) : State :=
  let s := match s.pix.cap with
    | some c =>
      if c.watch = n then
        keepVpix s { s with pix := { s.pix with cap := none, berths := s.pix.berths.filter (fun b => b.2 != BerthState.filling) },
                            tide := { s.tide with pixEn := false } }
      else s
    | none => s
  match s.adc.cap with
  | some c => if c.watch = n then { s with adc := { s.adc with cap := none, iepeJob := 0 } } else s
  | none => s

/-- Queued requests of a job are discarded and emit nothing (R617). Steps of the watch stay: they belong to no job. -/
def dropRequests (n : Nat) (s : State) : State :=
  { s with stem := { s.stem with queue := s.stem.queue.filter (fun r => r.watch ≠ n || r.kind = .adapt) } }

/-- A job has queued its last record (R54, R651): JOB_END where R651 asks for it, then DONE with its chains (R51), alarm lines
(R665), messages (R580) and self-label (R521), or DORMANT after a DISARM. DESIGN CHOICE (log 66): a job that ends in DORMANT
does not enter DONE, so that none of these is evaluated for it, although R47 speaks of a job that ends. A pending trigger stays
through both ends (R54). The end of a pixel job checks the book of berths (R621). -/
def endJob (n : Nat) (s : State) : State :=
  match s.watch? n with
  | none => s
  | some w =>
    match w.job with
    | none => s
    | some j =>
      if decide (w.entry.inputKind = 1) && !s.berthsBalance then booksFail s else
      let s := if w.entry.recordKinds.getLsbD 4 || (j.fired.isEmpty && !w.vib) then release (s.jobEvent w 3) s else s
      if j.disarm then s.modWatch n (fun w => { w with state := .dormant, job := none })
      else
        let s := s.modWatch n (fun w => { w with state := .done, job := none })
        let s := (List.range 8).foldl (fun s i => alarmLine n j.fired i s) s
        let s := selfLabel w s
        let s := sendMessages n s
        fireChains n j.fired s

/-- The core that a stop names, if it names one. -/
def State.stopCore (s : State) (x : Stop) : Core := (x.core.map (fun c => s.core (Fin.ofNat 4 c))).getD {}

/-- The WATCH_FATAL entry of a stop (R623, R624): its TICK is that at which the error was taken. -/
def State.stopInfo (s : State) (x : Stop) (w : Watch) : LogInfo :=
  let k := s.stopCore x
  { cls := 2, code := x.code, source := x.source, addr := x.addr, watch := some x.watch,
    seq := (w.nextSeq + (s.host.held.filter (fun d => d.watch == some x.watch)).length) % 65536,
    frame := (w.job.getD {}).unitNum, core := x.core, slot := if x.exc = 0 then none else some k.excSlot,
    pc := if x.exc = 0 then 0 else k.excPc, point := if x.exc = 0 then 0 else k.point, exc := x.exc, tick := some x.tick }

/-- A stopped job is closed once its cores have drained (R617, R618): its POISON record, the event-log entry, FAULTED. -/
def finishStop (x : Stop) (s : State) : State :=
  match s.watch? x.watch with
  | none => s
  | some w =>
    let n := x.watch
    let j := w.job.getD {}
    let p := leBytes x.code 2 ++ leBytes x.exc 1 ++ leBytes (x.core.getD 0xFF) 1
    let e := s.stopInfo x w
    let s := logEntry e (release (jobDraft w 8 false p p) s)
    let s := dropRequests n (dropInputs n s)
    let s := s.modWatch n (fun w => { w with state := .faulted, faultCode := x.code, job := none, held := none,
                                             heldGpio := false, groupWait := false })
    let s := { s with err := { s.err with fault := some (n, x.code), stops := satAdd s.err.stops 1 0xFFFF,
                                          uncorrFatal := satAdd s.err.uncorrFatal (b2n (x.code == 0x24 || x.code == 0x14)) 255 } }
    if j.inSpring then leaveSpring s else s

/-- A watch-fatal error (R617): every core of the job is stopped and drains, and the job is closed when they have; a job with
no core released is closed at once. -/
def stopJob (x : Stop) (s : State) : State :=
  match s.watch? x.watch with
  | none => s
  | some w =>
    match w.job with
    | none => s
    | some j =>
      let cs := w.coreList.filter (fun c => (s.core c).run ≠ .off)
      if j.inSpring && !cs.isEmpty then
        if s.stopping.isSome then s
        else
          let s := cs.foldl (fun s c => startPartial (.core c) (s.modCore c (fun k =>
            { k with run := .stopping, wait := none, replaying := false }))) s
          { s with stopping := some x }
      else finishStop x s

/-- SOURCE of a WATCH_FATAL entry whose stop no core took: the part of the device that its FAULT code names (R623; log 43). -/
def stopSource (code : Nat) : Nat :=
  match code with
  | 0x14 => 1
  | 0x23 => 12
  | 0x25 | 0x27 | 0x28 | 0x29 | 0x2A => 14
  | 0x2B | 0x2E => 7
  | 0x2C | 0x2D => 15
  | _ => 0

/-- A watch-fatal error with the SOURCE and the ADDRESS of its event-log entry (R623). -/
def watchFatalAt (source addr n code exc : Nat) (core : Option Nat) (s : State) : State :=
  stopJob { watch := n, code := code, exc := exc, core := core, tick := s.sys.tick, source := source, addr := addr } s

/-- A watch-fatal error of the part that its FAULT code names. -/
def watchFatal (n code exc : Nat) (core : Option Nat) (s : State) : State := watchFatalAt (stopSource code) 0 n code exc core s

/-- A job in WAITING_ENERGY or CHECKPOINTED is abandoned (R54): its EVENT, then ARMED or DORMANT. -/
def abandon (n cause : Nat) (st : WState) (s : State) : State :=
  match s.watch? n with
  | none => s
  | some w =>
    let s := release (s.jobEvent w cause) s
    let s := dropRequests n (dropInputs n s)
    s.modWatch n (fun w => { w with state := st, job := none })

/-- A watch enters FAULTED outside a job (R45, R606): its EVENT of cause FAULTED, SYS_FAULT and SYS_FAULTS. -/
def faultWatch (n code : Nat) (s : State) : State :=
  let s := s.modWatch n (fun w => { w with state := .faulted, faultCode := code, job := none, held := none, heldGpio := false,
                                           groupWait := false, pending := false })
  let p := [0x04, 0, 0] ++ leBytes code 1
  let s := release { type := 6, watch := some n, plain := p, short := p } s
  { s with err := { s.err with fault := some (n, code), validation := satAdd s.err.validation 1 0xFFFF } }

end Sys2Proof.Machine
end

