-- ==== Sys2Proof/Machine/Strand.lean ====
section
/-! DEFINITION. Machine/Strand.lean: the Strand store's write engine, its journal and the reservoir measurement (22), the
completion of mailbox commands (R656), and the commands STRAND_COMMIT, STRAND_UNIT_WRITTEN, STRAND_CONDITION_TIMEOUT and
EVENT_LOG_ENTRY. -/
namespace Sys2Proof.Machine
open Sys2Proof

/-- Apply `f` unless the device is held in reset, when no part of it acts (R143, R156). -/
def inService (s : State) (f : State → State) : State := if s.sys.inReset then s else f s

/-! ### Mailbox completion -/

/-- Complete the executing mailbox command with a code and MBX_DATA (R656). -/
def mbxComplete (code : Nat) (data : Option (List Byte)) (s : State) : State :=
  match s.host.mbxRun with
  | some c =>
    { s with host := { s.host with mbxRun := none, mbxCode := code, mbxLastCmd := c.cmd, mbxTag := c.tag,
                                   mbxDone := (s.host.mbxDone + 1) % 8, irq := s.host.irq ||| 0b0010,
                                   mbxData := data.getD s.host.mbxData },
             fresh := { s.fresh with irq := s.fresh.irq ||| 0b0010 } }
  | none => s

/-- Complete a calibration command: its code goes to ADC_CAL_STATUS too (R314). -/
def calComplete (code : Nat) (s : State) : State :=
  mbxComplete code none { s with adc := { s.adc with calStatus := code } }

/-- Complete an ADAPT_LABEL command: its code goes to SYS_ADAPT too (R520). -/
def labelComplete (code : Nat) (s : State) : State :=
  mbxComplete code none { s with stem := { s.stem with adaptStatus := code } }

/-! ### The journal -/

/-- Byte offset of a journal slot: record 0 the calibration set, records 1 to 4 head slots 0 to 3 (R681). -/
def slotAddr (record slot : Nat) : Nat :=
  if record = 0 then 0x8000 * slot else 0x10000 * record + 0x8000 * slot

/-- KIND and RECORD of a slot header (R688). -/
def slotKind (record : Nat) : Nat × Nat := if record = 0 then (1, 0) else (2, record - 1)

/-- The header unit of a journal slot (R688). -/
def slotHeader (record seq tick : Nat) (body : List Byte) : List Byte :=
  let b := leBytes 0x52535154 4 ++ leBytes (slotKind record).1 1 ++ leBytes (slotKind record).2 1 ++ leBytes 1 2 ++
    leBytes seq 4 ++ leBytes body.length 4 ++ leBytes (crc32 body) 4 ++ leBytes tick 6 ++ zeros 34
  b ++ leBytes (crc32 b) 4

/-- Bounds of an adapted-head body (R760). -/
def headBodyOk (b : List Byte) : Bool :=
  let nIn := leAt b 2 2
  let nOut := byteAt b 4
  let size := 64 + nOut * (alignUp (nIn + 1) 64 + ceilDiv (nIn + 1) 32 * 64) + 64 * ceilDiv nOut 16
  decide (1 ≤ nIn) && decide (nIn ≤ 4096) && decide (1 ≤ nOut) && decide (nOut ≤ 64) && zeroAt b 7 1 && zeroAt b 15 49 &&
  decide (b.length = size)

/-- The header of a slot names a copy of the record: its SEQ, LENGTH and BODY_CRC (R689, R693). -/
def slotNames (store : List Host.Cell) (record slot : Nat) : Option (Nat × Nat × Nat) :=
  let h := rdBytes store (slotAddr record slot) 64
  if leAt h 0 4 = 0x52535154 && byteAt h 4 = (slotKind record).1 && byteAt h 5 = (slotKind record).2 && leAt h 6 2 = 1 &&
      leAt h 0x3C 4 = crc32 (h.take 60) then
    some (leAt h 8 4, leAt h 0xC 4, leAt h 0x10 4)
  else none

/-- The body of a slot that names a copy. -/
def slotBody (store : List Host.Cell) (record slot len : Nat) : List Byte := rdBytes store (slotAddr record slot + 64) len

/-- The slot holds a valid copy (R689): its SEQ. -/
def slotValid (store : List Host.Cell) (record slot : Nat) : Option Nat :=
  match slotNames store record slot with
  | some (seq, len, crc) =>
    if 1 ≤ len && len ≤ 32704 then
      let b := slotBody store record slot len
      if crc = crc32 b && (if record = 0 then calBodyOk b else headBodyOk b) then some seq else none
    else none
  | none => none

/-- SEQ a is later than SEQ b (R689). -/
def seqLater (a b : Nat) : Bool :=
  let d := (a + 2 ^ 32 - b) % 2 ^ 32
  decide (1 ≤ d) && decide (d < 2 ^ 31)

/-- The copy in force of a record: slot and SEQ (R689). -/
def slotInForce (store : List Host.Cell) (record : Nat) : Option (Nat × Nat) :=
  match slotValid store record 0, slotValid store record 1 with
  | some a, some b => if seqLater b a then some (1, b) else some (0, a)
  | some a, none => some (0, a)
  | none, some b => some (1, b)
  | none, none => none

/-- The newer of two named copies is invalid and the older in force (R693). -/
def slotFallback (store : List Host.Cell) (record : Nat) : Bool :=
  match slotNames store record 0, slotNames store record 1, slotInForce store record with
  | some a, some b, some f => if seqLater b.1 a.1 then f.1 == 0 else seqLater a.1 b.1 && f.1 == 1
  | _, _, _ => false

/-- Copy in force of a record as the device holds it. -/
def State.force (s : State) (record : Nat) : Option (Nat × Nat) := s.strand.inForce.getD record none

/-! ### The write engine -/

/-- A commit of a record runs or is queued (R704). -/
def State.committing (s : State) (record : Nat) : Bool :=
  (match s.strand.run with
    | some r => decide (r.commit.record = record)
    | none => false) || s.strand.commits.any (fun c => decide (c.record = record))

/-- Queue a journal commit (R686, R690). -/
def requestCommit (c : Commit) (s : State) : State :=
  { s with strand := { s.strand with commits := s.strand.commits ++ [c] } }

/-- Slot that a commit writes (R690). -/
def State.commitSlot (s : State) (record : Nat) : Nat :=
  match s.force record with
  | some (t, _) => 1 - t
  | none => 0

/-- SEQ that a commit takes (R690). -/
def State.commitSeq (s : State) (record : Nat) : Nat :=
  match s.force record with
  | some (_, q) => if (q + 1) % 2 ^ 32 = 0 then 1 else (q + 1) % 2 ^ 32
  | none => 1

/-- Units of a body. -/
def bodyUnits (b : List Byte) : Nat := ceilDiv b.length 64

/-- Store unit and bytes of the step that a commit has come to (R690). -/
def State.commitUnit (s : State) (r : CommitRun) : Nat × List Byte :=
  if r.clearing then (slotAddr r.commit.record (1 - r.slot) / 64, zeros 64)
  else if r.unit = 0 then
    (slotAddr r.commit.record r.slot / 64, slotHeader r.commit.record r.seq s.sys.tick r.commit.body)
  else (slotAddr r.commit.record r.slot / 64 + r.unit, padTo (r.commit.body.drop (64 * (r.unit - 1))) 64)

/-- The engine is free to start a unit now (R684, R685); no unit starts while a reset waits (R158). -/
def State.engineFree (s : State) : Bool := s.strand.writing.isNone && s.unitMayStart && s.sys.delayed.isNone

/-- Start the next unit of the commit in progress; an event-log entry that waits goes first (R686). -/
def startCommitUnit (s : State) : State :=
  match s.strand.run with
  | some r =>
    if s.engineFree && s.strand.logQueue.isEmpty then
      let (u, bs) := s.commitUnit r
      { s with strand := { s.strand with writing := some { unit := u, bytes := bs } } }
    else s
  | none => s

/-- Start the unit of the oldest waiting event-log entry (R623, R686). -/
def startLogUnit (s : State) : State :=
  match s.strand.logQueue with
  | b :: _ =>
    if s.engineFree then
      let (u, q) := s.nextLog
      { s with strand := { s.strand with writing := some { unit := logUnitAddr u / 64, bytes := logUnit q b, log := true } } }
    else s
  | [] => s

/-- The calibration set body with the pending pairs in their places and their ADC_USER bits set (R312, R313, R698). -/
def State.calBody (s : State) : List Byte :=
  s.adc.pending.foldl (fun (b : List Byte) p =>
    let i := 5 * p.1.1 + p.1.2
    let b := putAt b (0x40 + 8 * i) (leBytes (ofSigned p.2.1 32) 4 ++ leBytes (ofSigned p.2.2 32) 4)
    putAt b 0x10 (leBytes (leAt b 0x10 4 ||| 2 ^ i) 4)) s.strand.cal

/-- The device ends a capacitance batch: LEARN clears with STATUS, and the samples are discarded (R703, R712). -/
def endLearn (status : Nat) (s : State) : State :=
  { s with strand := { s.strand with learn := false, capStatus := status, samples := [] }, fresh := { s.fresh with learn := true } }

/-- The mean of the capacitance samples held (R703). -/
def State.capMean (s : State) : Nat := (rhe (s.strand.samples.foldl (· + ·) 0 : Nat) 8).toNat

/-- The body that a commit writes: a change of the calibration set is made to the set in force when the commit starts (R313, R690,
R703). -/
def State.commitBody (s : State) (c : Commit) : List Byte :=
  match c.cause with
  | .cal => s.calBody
  | .learn => putAt s.strand.cal 4 (leBytes s.capMean 4)
  | _ => c.body

/-- STRAND_COMMIT: the oldest queued commit starts, or the one in progress goes on once the rule of R685 allows (R686, R690);
neither while an event-log entry waits, which is written first (R686).
A clearing commit of the recovery step writes only the older header (R692). -/
def strandCommit (s : State) : State :=
  match s.strand.run with
  | some _ => startCommitUnit s
  | none =>
    match s.strand.commits, s.strand.logQueue with
    | c :: t, [] =>
      let clr := match c.cause with
        | .clear => true
        | _ => false
      let slot := if clr then 1 - s.commitSlot c.record else s.commitSlot c.record
      let r : CommitRun := { commit := { c with body := s.commitBody c }, slot := slot, seq := s.commitSeq c.record, clearing := clr }
      startCommitUnit { s with strand := { s.strand with commits := t, run := some r } }
    | _, _ => s

/-- A commit has reached its commit point: the new copy is in force and applies (R690, R701), and what asked for it
completes (R313, R520, R524, R703). -/
def commitPoint (r : CommitRun) (s : State) : State :=
  let s := { s with strand := { s.strand with inForce := setAt s.strand.inForce r.commit.record (some (r.slot, r.seq)) } }
  let s := if r.commit.record = 0 then { s with strand := { s.strand with cal := r.commit.body, calSrc := 0 } } else s
  match r.commit.cause with
  | .cal => calComplete 0 { s with adc := { s.adc with pending := [], m0 := [] } }
  | .learn => endLearn 1 s
  | .head n byHost =>
    let s := match s.watch? n with
      | some w =>
        match s.adaptBlock? w with
        | some b => s.putHbr (w.entry.hbrBase + b.stateOff + 14) [0]
        | none => s
      | none => s
    if byHost then labelComplete 0 s else s
  | .clear => s

/-- A commit has failed: the copy in force is unchanged (R691), and what asked for it completes with STRAND. -/
def commitFailed (r : CommitRun) (s : State) : State :=
  let s := { s with strand := { s.strand with run := none, commitFails := satAdd s.strand.commitFails 1 255 } }
  let s := raiseAlarm 8 s
  match r.commit.cause with
  | .cal => calComplete 7 s
  | .learn => endLearn 4 s
  | .head _ byHost =>
    let s := { s with stem := { s.stem with adaptCommitFails := satAdd s.stem.adaptCommitFails 1 255 } }
    if byHost then labelComplete 6 s else s
  | .clear => s

/-- A unit has been written and compared equal: the log entry is the newest, or the commit moves to its next unit. -/
def unitWritten (u : UnitRun) (s : State) : State :=
  let s := { s with strand := { s.strand with data := wrBytes s.strand.data (64 * u.unit) u.bytes, writing := none,
                                              units := satAdd s.strand.units 1 0xFFFF } }
  if u.log then
    { s with strand := { s.strand with logQueue := s.strand.logQueue.drop 1 },
             err := { s.err with newest := some (u.unit - 0x1C00, leAt u.bytes 0 4) } }
  else
    match s.strand.run with
    | none => s
    | some r =>
      if r.clearing then { s with strand := { s.strand with run := none } }
      else if r.unit = 0 then
        let s := commitPoint r s
        { s with strand := { s.strand with run := if r.commit.record = 0 then some { r with clearing := true } else none } }
      else
        let next := if r.unit < bodyUnits r.commit.body then r.unit + 1 else 0
        { s with strand := { s.strand with run := some { r with unit := next } } }

/-- A unit has failed its comparison: it is written again up to twice more, then it fails (R684, R691). What it holds is
undefined: free bytes. -/
def unitDiffers (u : UnitRun) (s : State) : State :=
  let (bs, s) := s.freeBytes 64
  let s := { s with strand := { s.strand with data := wrBytes s.strand.data (64 * u.unit) bs } }
  if u.fails < 2 then { s with strand := { s.strand with writing := some { u with fails := u.fails + 1 } } }
  else
    let s := { s with strand := { s.strand with writing := none, verifyFails := satAdd s.strand.verifyFails 1 255 } }
    if u.log then { s with strand := { s.strand with logQueue := s.strand.logQueue.drop 1 } }
    else
      match s.strand.run with
      | none => s
      | some r => if r.clearing then { s with strand := { s.strand with run := none } } else commitFailed r s

/-- STRAND_UNIT_WRITTEN: a unit write and its read-back end (R684). A reset that waited for it is taken; else the commit in
progress goes on, unless an event-log entry waits, which goes first (R158, R686). -/
def strandUnitWritten (same : Bool) (s : State) : State :=
  match s.strand.writing with
  | none => s
  | some u =>
    let s := takeDelayed (if same then unitWritten u s else unitDiffers u s)
    if s.sys.inReset then s else startCommitUnit s

/-- STRAND_CONDITION_TIMEOUT: a unit has waited 1 s under the rule of R685. The waiting log entry is dropped and counted, or
the commit fails; a header that could not be cleared is no failed commit (R691, R692; log 88). -/
def strandTimeout (s : State) : State :=
  if s.strand.writing.isSome || s.unitMayStart then s
  else
    match s.strand.logQueue, s.strand.run with
    | _ :: t, _ => { s with strand := { s.strand with logQueue := t }, err := { s.err with suppressed := satAdd s.err.suppressed 1 0xFFFF } }
    | [], some r => if r.clearing then { s with strand := { s.strand with run := none } } else commitFailed r s
    | [], none =>
      match s.strand.commits with
      | c :: t =>
        let s := { s with strand := { s.strand with commits := t } }
        if decide (c.cause = .clear) then s else commitFailed { commit := c } s
      | [] => s

/-- STRAND_COMMIT (R690) -/
def execStrandCommit (s : State) : Host.Outcome State Fault Refusal := .next (inService s strandCommit)
/-- STRAND_UNIT_WRITTEN (R684) -/
def execStrandUnitWritten (same : Bool) (s : State) : Host.Outcome State Fault Refusal :=
  .next (inService s (strandUnitWritten same))
/-- STRAND_CONDITION_TIMEOUT (R685) -/
def execStrandConditionTimeout (s : State) : Host.Outcome State Fault Refusal := .next (inService s strandTimeout)
/-- EVENT_LOG_ENTRY (R623) -/
def execEventLogEntry (s : State) : Host.Outcome State Fault Refusal := .next (inService s startLogUnit)

/-! ### Recovery at start-up (R692, R693, R696) -/

/-- The Strand recovery step: copies in force, FALLBACK, the newest log entry, the calibration set in use and its source,
and the clearing of a second valid calibration copy (R692, R693, R696). -/
def strandRecovery (s : State) : State :=
  let st := s.strand.data
  let force := (List.range 5).map (slotInForce st)
  let fb := (List.range 5).foldl (fun (b : BitVec 5) r => if slotFallback st r then b ||| BitVec.ofNat 5 (2 ^ r) else b) 0
  let both := (slotValid st 0 0).isSome && (slotValid st 0 1).isSome
  let dflt := (s.image.records.find? (fun r => r.type == 6)).map (fun r => r.body)
  let (cal, src) := match slotInForce st 0, dflt with
    | some (t, _), _ => (slotBody st 0 t 24960, 0)
    | none, some b => (b, 1)
    | none, none => (romCal, 2)
  let s := { s with strand := { s.strand with recovered := true, inForce := force, fallback := fb, calSrc := src, cal := cal },
                    err := { s.err with logReady := true, newest := newestLog st } }
  let s := if both then requestCommit { record := 0, cause := .clear } s else s
  if src = 0 then s else raiseAlarm 8 s

/-- STR_WEAR: the largest write count and its region (R707). -/
def State.wear (s : State) : Nat × Nat :=
  let seqOf := fun r => match s.force r with
    | some (_, q) => q
    | none => 0
  let cnt := [(seqOf 0, 0), (ceilDiv (seqOf 1) 2, 1), (ceilDiv (seqOf 2) 2, 2), (ceilDiv (seqOf 3) 2, 3),
    (ceilDiv (seqOf 4) 2, 4), (ceilDiv (match s.err.newest with
      | some (_, q) => q
      | none => 0) 1024, 5)]
  let best := cnt.foldl (fun b c => if b.1 < c.1 then c else b) (0, 0)
  (min best.1 0xFFFFF, best.2)

/-! ### The reservoir measurement (R702, R703) -/

/-- Eight samples are held: C and its spread decide (R703). -/
def capBatch (s : State) : State :=
  let l := s.strand.samples
  let c := s.capMean
  let spread := l.foldl max 0 - l.foldl min (l.headD 0)
  if c < 1 || 10000000 < c then endLearn 3 s
  else if 5 * c < 100 * spread then { s with strand := { s.strand with samples := [], capStatus := 2 } }
  else requestCommit { record := 0, cause := .learn } s

/-- A capacitance sample from a Spring that qualifies: M metered, V_b and V_a in mV (R702). -/
def capSample (m vb va : Nat) (s : State) : State :=
  if s.strand.learn && s.strand.samples.length < 8 && 1000 ≤ m && va < vb then
    let c := (rhe (2 * m * 1000000 : Nat) (vb * vb - va * va)).toNat
    let s := { s with strand := { s.strand with lastUf := min c 0xFFFFFF, samples := c :: s.strand.samples } }
    if s.strand.samples.length = 8 then capBatch s else s
  else s

end Sys2Proof.Machine
end

