-- ==== Sys2Proof/Machine/Tide.lean ====
section
/-! DEFINITION. Machine/Tide.lean: the Tide controller (03): reservoir and battery samples, the energy account, charging,
admission, the release of cores into a job (10, R359 to R364), metering, tide checkpoints and the core frame (R390), heat,
and Neap; with the commands of those rows. -/
namespace Sys2Proof.Machine
open Sys2Proof

/-! ### The energy account and the charger -/

/-- E in µJ at a reservoir voltage in mV (R98): rounded down, 0 at or below Vmin. -/
def State.energyAt (s : State) (b : PowerBlock) (v : Nat) : Nat :=
  if v ≤ b.vminMv then 0 else (s.capUf b).1 * (v * v - b.vminMv * b.vminMv) / 2000000

/-- E_full (R99). -/
def State.fullEnergy (s : State) (b : PowerBlock) : Nat := s.energyAt b b.vmaxMv

/-- CHG_EN rises or keeps its level by the latest sample; the sample that raises it becomes the reference (R100, R102). -/
def raiseCharge (s : State) : State :=
  if s.tide.chgEn then s
  else { s with tide := { s.tide with chgEn := true, stallRef := s.tide.rsvMv, stallCount := some 0 } }

/-- CHG_EN is low and the stall count stopped (R100, R102). -/
def dropCharge (s : State) : State :=
  { s with tide := { s.tide with chgEn := false, stallCount := none } }

/-- CHG_EN by the latest sample, the host's inhibit and the VBAT floor (R100). While CORE_EN is high it does not rise (R101);
the floor and the inhibit still hold it low. It stays low under a thermal shutdown request (R127). -/
def chargeControl (s : State) : State :=
  match s.tide.block with
  | none => dropCharge s
  | some b =>
    if s.tide.chgInhibit || s.tide.vbatMv < b.vbatChgMinMv || s.tide.thermalShutdown then dropCharge s
    else if s.tide.coreEn then s
    else if b.vmaxMv ≤ s.tide.rsvMv then dropCharge s
    else if s.tide.rsvMv + b.hystMv ≤ b.vmaxMv then raiseCharge s
    else s

/-- A sample while CHG_EN is high: at least 2 mV above the reference it becomes the reference, restarts the count and clears
CHG_STALL (R102). -/
def stallSample (s : State) : State :=
  if s.tide.chgEn && decide (s.tide.stallRef + 2 ≤ s.tide.rsvMv) then
    { s with tide := { s.tide with stallRef := s.tide.rsvMv, stallCount := some 0, chgStall := false } }
  else s

/-- One tick of the stall count: at 65,536 ticks CHG_STALL is set (R102). -/
def stallTick (s : State) : State :=
  match s.tide.stallCount with
  | some c =>
    if c + 1 < 65536 then { s with tide := { s.tide with stallCount := some (c + 1) } }
    else { s with tide := { s.tide with stallCount := some 65536, chgStall := true } }
  | none => s

/-- CHG_STALL: the stall count reaches 65,536 ticks (R102). -/
def chgStallEvent (s : State) : State :=
  if s.tide.stallCount.isSome then
    { s with tide := { s.tide with stallCount := some 65536, chgStall := true } }
  else s

/-! ### Admission -/

/-- Before p in the admission queue. -/
def Watch.before (w p : Watch) : Bool := keyLt w.queueKey p.queueKey

/-- The watch waits in the admission queue. -/
def Watch.queued (w : Watch) : Bool :=
  match w.job with
  | some j => j.requested && !j.inSpring
  | none => false

/-- Head of the admission queue (R61). -/
def State.queueHead (s : State) : Option Watch :=
  (s.watches.filter Watch.queued).foldl (fun best w =>
    match best with
    | none => some w
    | some p => if w.before p then some w else some p) none

/-- Energy the job needs: its allowance and the reserve (R105). -/
def State.needUj (s : State) (w : Watch) : Nat :=
  (match w.job with
    | some j => j.allowance
    | none => 0) +
  (match s.tide.block with
    | some b => b.reserveUj
    | none => 0)

/-- The temperature condition of R105, in 1/64 °C. -/
def State.coolEnough (s : State) : Bool := decide (s.tide.temp < (if s.tide.tempDeferred then 7040 else 7360))

/-- The highest step of a watch, its CORES bits [5:4] (R40). -/
def Watch.maxStep (w : Watch) : Nat := fld w.entry.cores.toNat 4 2

/-- The core clock: the lowest of the watch's step, CLK_CAP and the thermal cap (R125). -/
def State.stepFor (s : State) (w : Watch) : Nat := min w.maxStep (min s.tide.clkCap.toNat s.tide.thermalCap)

/-- Admit watch w: VSEL and CORE_EN are driven; the account and the reservoir at this sample are kept for R130 and R702. -/
def beginSpring (w : Watch) (b : PowerBlock) (s : State) : State :=
  let s := wake s
  let step := s.stepFor w
  let s := s.modJob w.entry.num (fun j => { j with inSpring := true, requested := false })
  { s with tide := { s.tide with coreEn := true, vsel := b.vselCode.getD step 0, stepAdmitted := step, step := step,
                                 tempDeferred := false, energyBefore := s.tide.energy, rsvBefore := s.tide.rsvMv,
                                 capClean := !s.tide.chgEn, meterUj := 0 } }

/-- The grant limit of a job that would be readmitted (R117). -/
def grantLimit (s : State) : State :=
  (s.watches.filter (fun w => match w.job with
    | some j => decide (w.state = .checkpointed) && decide (8 < j.grants)
    | none => false)).foldl (fun s w => watchFatal w.entry.num 0x29 0 none s) s

/-- Evaluate admission for the head of the queue (R105), after the grant limit of every job that would be readmitted. While an
OTP command runs, or one of the debug access port waits for Slack, the device stays in Slack (R199). -/
def evaluateAdmission (s : State) : State :=
  let s := grantLimit s
  if s.tide.coreEn || s.tide.thermalShutdown || s.otp.run.isSome || s.tap.wait.isSome then s
  else
    match s.queueHead, s.tide.block with
    | some w, some b =>
      if s.needUj w ≤ s.tide.energy && decide (s.sys.tick ≤ s.tide.rsvTick + 8) then
        if s.coolEnough then beginSpring w b s
        else { s with tide := { s.tide with tempDeferred := true } }
      else s
    | _, _ => s

/-- A job whose admission was refused waits: RUNNING to WAITING_ENERGY (R54, R57). -/
def refuseAdmission (n : Nat) (s : State) : State :=
  match s.watch? n with
  | some w =>
    match w.job with
    | some j =>
      if j.requested && decide (w.state = .running) then
        s.modWatch n (fun w => { w with state := .waitingEnergy, job := w.job.map (fun j => { j with waitTicks := 0 }) })
      else s
    | none => s
  | none => s

/-- ADMISSION_REQUEST: a RUNNING job whose inputs are complete asks (R103, R106, R94). -/
def admissionRequest (n : Nat) (s : State) : State :=
  match s.watch? n with
  | some w =>
    match w.job with
    | some j =>
      if w.state = .running && j.inputsDone && !j.requested && !j.inSpring && s.stopping.isNone &&
          decide (s.tide.power ≠ .neap) then
        if w.entry.progCount = 0 then (if s.stem.queue.all (fun r => r.watch ≠ n || r.kind = .adapt) then endJob n s else s)
        else
          match s.tide.block with
          | none => watchFatal n 0x25 0 none s
          | some b =>
            if s.fullEnergy b < w.entry.ceiling + b.reserveUj then watchFatal n 0x25 0 none s
            else
              refuseAdmission n (evaluateAdmission (s.modJob n (fun j =>
                { j with requested := true, allowance := w.entry.ceiling, grants := 1 })))
      else s
    | none => s
  | none => s

/-- ADMIT_TIMEOUT: one wait of the watch has reached its limit (R57, R54); a pending trigger then starts a job. -/
def admitTimeout (n : Nat) (s : State) : State :=
  match s.watch? n with
  | some w =>
    let waits := match w.job with
      | some j => !j.inSpring
      | none => false
    if (w.state = .waitingEnergy || w.state = .checkpointed) && waits && w.entry.admitTimeout ≠ 0 then
      startPending n (keepVpix s (abandon n 5 .armed s))
    else s
  | none => s

/-! ### Release of the cores (10) -/

/-- PROGRAM records of a watch, in ascending record id. -/
def State.programs (s : State) (e : WatchEntry) : List PlacedRecord :=
  (List.range e.progCount).filterMap (fun i => s.record? 3 (e.progFirst + i))

/-- KIND of a PROGRAM record (R222). -/
def PlacedRecord.progKind (r : PlacedRecord) : Nat := byteAt r.body 6
/-- BUNDLE_COUNT of a PROGRAM record (R222). -/
def PlacedRecord.bundles (r : PlacedRecord) : Nat := leAt r.body 0 4
/-- ENTRY of a PROGRAM record (R222). -/
def PlacedRecord.entryIndex (r : PlacedRecord) : Nat := leAt r.body 4 2

/-- The main PROGRAM records of a watch (R363). -/
def State.mains (s : State) (e : WatchEntry) : List PlacedRecord := (s.programs e).filter (fun r => r.progKind == 0)

/-- The runs of a load: source, first index and count of each (R389). -/
def LoadLog.runs (l : LoadLog) : List (Nat × Nat × Nat) := (l.src, l.first, l.count) :: l.rest

/-- A load of instruction memory of core c from the Harbour, counted as LINE events (R364, R365, R109). -/
def loadImem (c : Fin 4) (l : LoadLog) (s : State) : State :=
  l.runs.foldl (fun s r =>
    (s.visit r.1 (128 * r.2.2)).modCore c (fun k =>
      { k with imem := wrBytes k.imem (128 * r.2.1) (rdBytes s.harbour.data r.1 (128 * r.2.2)),
               meter := { k.meter with line := k.meter.line + 2 * r.2.2 } })) s

/-- The first poisoned Harbour line of a list of loads (R604). -/
def State.badLoad (s : State) (ls : List LoadLog) : Option Nat :=
  (ls.flatMap LoadLog.runs).findSome? (fun r =>
    ((List.range (2 * r.2.2)).find? (fun i => s.harbour.poisoned (r.1 / 64 + i))).map (fun i => r.1 / 64 + i))

/-- Add a load to the load log, which keeps the 8 most recent (R389). -/
def logLoad (l : LoadLog) (k : Core) : Core :=
  let log := k.loadLog ++ [l]
  { k with loadLog := log.drop (log.length - 8) }

/-- Open the unreleased window of a core at a restart point, with its shadow frame (R608, R610). -/
def openWindow (k : Core) : Core :=
  { k with winOpen := true, winReplayed := false, shadow := some { regs := k.regs, point := k.point, loadLog := k.loadLog } }

/-- Registers at the start of a job (R359). -/
def startRegs (index count watch unit chip base size entry : Nat) : Regs :=
  { s := (((((Vector.replicate 32 0).setIfInBounds 0 (BitVec.ofNat 32 index)).setIfInBounds 1 (BitVec.ofNat 32 count)).setIfInBounds
      2 (BitVec.ofNat 32 watch)).setIfInBounds 3 (BitVec.ofNat 32 unit)).setIfInBounds 5 (BitVec.ofNat 32 chip),
    a := ((Vector.replicate 16 0).setIfInBounds 0 (BitVec.ofNat 40 (0x40000000 + base))).setIfInBounds 1 (BitVec.ofNat 40 size),
    pc := BitVec.ofNat 13 entry }

/-- The initial load of a PROGRAM record (R364). -/
def PlacedRecord.initialLoad (r : PlacedRecord) : LoadLog := { src := r.load, first := 0, count := min r.bundles 4096 }

/-- A core released into a job for the first time: power-up state and the registers of R359 (R362). -/
def freshCore (s : State) (w : Watch) (index : Nat) (r : PlacedRecord) (k : Core) : Core :=
  { coreOff k with
    run := .running, powered := true, owner := some w.entry.owner,
    regs := startRegs index w.coreList.length w.entry.num (w.job.getD {}).unitNum (s.cw.chip.getD 0) w.entry.hbrBase
      w.entry.hbrSize r.entryIndex }

/-- Release core c into a job for the first time, with its record loaded (R362, R364, R608). -/
def startCore (w : Watch) (index : Nat) (r : PlacedRecord) (c : Fin 4) (s : State) : State :=
  (loadImem c r.initialLoad (s.modCore c (freshCore s w index r))).modCore c (fun k => openWindow (logLoad r.initialLoad k))

/-! ### Core frames (R390) -/

/-- Bytes of a loop counter in a core frame. -/
def lcBytes (l : LoopCtr) : List Byte :=
  leBytes l.count.toNat 4 ++ leBytes l.start 2 ++ leBytes l.stop 2 ++ leBytes (b2n l.active) 1 ++ zeros 3

/-- Bytes of a load-log entry in a core frame. -/
def loadBytes (l : LoadLog) : List Byte :=
  leBytes l.src 8 ++ leBytes l.first 2 ++ leBytes l.count 2 ++ leBytes 1 1 ++ zeros 3

/-- The 768 bytes of a core frame: STATE 0 stopped at K, 1 halted, 2 not in the mask (R390). -/
def coreFrame (k : Core) (point st : Nat) : List Byte :=
  padTo ((k.regs.s.toList.flatMap (fun x => leBytes x.toNat 4)) ++ (k.regs.a.toList.flatMap (fun x => leBytes x.toNat 8)) ++
    (k.regs.p.toList.flatMap (fun x => leBytes x.toNat 16)) ++ (k.regs.lc.toList.flatMap lcBytes) ++
    leBytes k.regs.pc.toNat 4 ++ leBytes point 2 ++ leBytes st 1 ++ zeros 1 ++ leBytes k.regs.fl.toNat 4 ++
    (k.regs.ev.toList.flatMap (fun x => leBytes x.toNat 1)) ++ zeros 4 ++
    padTo (k.loadLog.flatMap loadBytes) 128) 768

/-- Read a register file of a frame. -/
def frameVec {n : Nat} (b : List Byte) (o size w : Nat) : Vector (BitVec w) n :=
  Vector.ofFn (fun i => BitVec.ofNat w (leAt b (o + size * i.val) size))

/-- The loop counter at an offset of a frame. -/
def frameLc (b : List Byte) (o : Nat) : LoopCtr :=
  { count := BitVec.ofNat 32 (leAt b o 4), start := leAt b (o + 4) 2, stop := leAt b (o + 6) 2, active := byteAt b (o + 8) == 1 }

/-- The registers that a core frame holds; the saturation counters start at 0 (R390, R511). -/
def frameRegs (b : List Byte) : Regs :=
  { s := frameVec b 0 4 32, a := frameVec b 0x80 8 40, p := frameVec b 0x100 16 128,
    lc := Vector.ofFn (fun i => frameLc b (0x180 + 12 * i.val)), ev := frameVec b 0x1BC 1 8,
    fl := BitVec.ofNat 4 (leAt b 0x1B8 4), pc := BitVec.ofNat 13 (leAt b 0x1B0 4) }

/-- The load log that a core frame holds. -/
def frameLoads (b : List Byte) : List LoadLog :=
  (List.range 8).filterMap (fun i =>
    let o := 0x1D0 + 16 * i
    if byteAt b (o + 12) = 1 then some { src := leAt b o 8, first := leAt b (o + 8) 2, count := leAt b (o + 10) 2 } else none)

/-- Harbour offset of the core frame of TCc (R115, R390). -/
def frameAddr (w : Watch) (c : Fin 4) : Nat := w.entry.hbrBase + w.entry.ckptOffset + 512 + 768 * c.val

/-- The 768 bytes of the frame of core c. -/
def State.frameOf (s : State) (w : Watch) (c : Fin 4) : List Byte := rdBytes s.harbour.data (frameAddr w c) 768

/-- The loads that core c repeats at its resume: those of its frame, each with the further runs that the job keeps (R389). -/
def State.resumeLoads (s : State) (w : Watch) (c : Fin 4) (runs : List (List (Nat × Nat × Nat))) : List LoadLog :=
  (frameLoads (s.frameOf w c)).zipIdx.map (fun x => { x.1 with rest := runs.getD x.2 [] })

/-- A core with what its frame holds (R118, R390). -/
def framedCore (w : Watch) (b : List Byte) (sets : List (Nat × Nat) × List Nat) (k : Core) : Core :=
  { coreOff k with owner := some w.entry.owner, powered := true, regs := frameRegs b, point := leAt b 0x1B4 2,
                   written := sets.1, tainted := sets.2 }

/-- Core c restarted from its frame after point K: its loads are repeated in order, and a core that had halted stays halted
(R118, R387, R389). -/
def resumeCore (w : Watch) (j : Job) (index : Nat) (c : Fin 4) (s : State) : State :=
  let b := s.frameOf w c
  let ls := s.resumeLoads w c (j.loadRuns.getD index [])
  let s := (s.visit (frameAddr w c) 768).modCore c (framedCore w b (j.cwSets.getD index ([], [])))
  let s := ls.foldl (fun s l => (loadImem c l s).modCore c (logLoad l)) s
  s.modCore c (fun k => if byteAt b 0x1B6 = 1 then { k with run := .halted } else openWindow { k with run := .running })

/-- The placed PROGRAM, TENSOR and REQUANT_TABLE records of a watch (R609, R606). -/
def State.placedOf (s : State) (e : WatchEntry) : List PlacedRecord :=
  s.image.records.filter (fun r =>
    (r.type == 3 && decide (e.progFirst ≤ r.id) && decide (r.id < e.progFirst + e.progCount)) ||
    (r.type == 4 && decide (e.tensorFirst ≤ r.id) && decide (r.id < e.tensorFirst + e.tensorCount)) ||
    (r.type == 5 && e.requantRec != 0xFFFF && r.id == e.requantRec))

/-- The Harbour line lies in a placed record of the watch. -/
def State.inPlaced (s : State) (e : WatchEntry) (line : Nat) : Bool :=
  (s.placedOf e).any (fun r => r.load ≤ 64 * line && decide (64 * line < r.load + r.placed))

/-- SOURCE of an event-log entry for an error source (R623). -/
def errorSourceCode (e : ErrorSource) : Nat :=
  match e with
  | .harbour => 1
  | .scratch => 2
  | .weights => 3
  | .retain => 4
  | .imem => 5
  | .acc => 6

/-- ADDRESS of an event-log entry for a line: a Harbour address, or a local one (R623). -/
def errorAddr (src : ErrorSource) (line : Nat) : Nat := if src = .harbour then 0x40000000 + 64 * line else 64 * line

/-- An error at a Harbour line that a placed record of the watch holds. -/
def placedError (s : State) (w : Watch) (src : ErrorSource) (line : Nat) : Bool := src == .harbour && s.inPlaced w.entry line

/-- An uncorrectable error of core c that no replay covers: exception MEMORY, recorded for the core, and the stop with FAULT code
0x24, or 0x14 and SYS_ALARM for a line of a placed record (R391, R609). -/
def memoryStop (c : Fin 4) (w : Watch) (src : ErrorSource) (line slot pc : Nat) (s : State) : State :=
  let placed := placedError s w src line
  let s := s.modCore c (fun k => { k with excCause := 0x15, excSlot := slot, excPc := pc % 4096, excValid := true })
  watchFatalAt (errorSourceCode src) (errorAddr src line) w.entry.num (if placed then 0x14 else 0x24) 0x15 (some c.val)
    (if placed then raiseAlarm 9 s else s)

/-- The first poisoned line that the release of a job's cores reads: the erring core and the line. A core reads its frame at a
resume and the sources of its loads (R364, R389, R604). -/
def State.badRelease (s : State) (w : Watch) (j : Job) : Option (Fin 4 × Nat) :=
  let cs := w.coreList
  match j.frames with
  | none =>
    (cs.zip (s.mains w.entry)).findSome? (fun x => (s.badLoad [x.2.initialLoad]).map (fun l => (x.1, l)))
  | some _ =>
    cs.zipIdx.findSome? (fun x =>
      let f := (List.range 12).find? (fun i => s.harbour.poisoned (frameAddr w x.1 / 64 + i))
      ((f.map (fun i => frameAddr w x.1 / 64 + i)).or (s.badLoad (s.resumeLoads w x.1 (j.loadRuns.getD x.2 [])))).map
        (fun l => (x.1, l)))

/-- The job frame of a resuming job is poisoned (R609). -/
def State.badJobFrame (s : State) (w : Watch) (j : Job) : Bool :=
  j.frames.isSome && poisonIn s.harbour (w.entry.hbrBase + w.entry.ckptOffset) 512

/-- The cores of a job are released at the clock step chosen at admission, and the watch is RUNNING (R105, R118); before the
first release of a job its sync line is cleared (R543). A poisoned frame or load source is an uncorrectable error that no replay
covers (R604, R609): its exception names slot 6, whose loads these are, and bundle 0 (log 82). -/
def releaseCores (w : Watch) (j : Job) (s : State) : State :=
  let n := w.entry.num
  let cs := w.coreList
  let s := if j.frames.isNone && w.entry.ckptSize ≠ 0 then
      s.putHbrLines ((w.entry.hbrBase + w.entry.ckptOffset + 3584) / 64) [(zeros 64, 0)] else s
  let s1 := match j.frames with
    | none => (cs.zip (s.mains w.entry)).zipIdx.foldl
        (fun (t : State) (x : (Fin 4 × PlacedRecord) × Nat) => startCore w x.2 x.1.2 x.1.1 t) s
    | some _ => cs.zipIdx.foldl (fun (t : State) (x : Fin 4 × Nat) => resumeCore w j x.2 x.1 t) (s.visit (w.entry.hbrBase + w.entry.ckptOffset) 512)
  let s1 := s1.modWatch n (fun w => { w with state := .running })
  let s1 := s1.modJob n (fun x => { x with frames := none, ckpt := none, resumed := x.resumed || j.frames.isSome,
                                           grantFj := 0, leakUs := 0, ckptStart := 0 })
  let s1 := { s1 with tide := { s1.tide with power := .spring } }
  if s.badJobFrame w j then watchFatalAt 1 (0x40000000 + w.entry.hbrBase + w.entry.ckptOffset) n 0x24 0x15 none s1
  else
    match s.badRelease w j with
    | some (c, line) => memoryStop c w .harbour line 6 0 s1
    | none => s1

/-- CORE_RELEASE: VCORE is good after CORE_EN_DELAY_US (R105, R359). -/
def coreRelease (s : State) : State :=
  match s.springWatch with
  | some w =>
    match w.job with
    | some j =>
      if s.tide.coreEn && s.stopping.isNone && decide (s.tide.power ≠ .spring) then releaseCores w j s else s
    | none => s
  | none => s

/-! ### Metering -/

/-- Sum of R109's products of one core in fJ. -/
def State.coreFj (s : State) (m : Meter) : Nat :=
  let e := fun k => s.energyOf k s.tide.stepAdmitted
  m.mac8 * e 0 + m.mac4 * e 1 + m.mac16 * e 2 + m.macf8 * e 3 + m.macf16 * e 4 + m.vec * e 5 + m.line * e 6 + m.cyc * e 7

/-- Sum of R109's products of the Spring in progress in fJ. -/
def State.springFj (s : State) (w : Watch) (j : Job) : Nat :=
  w.coreList.foldl (fun t c => t + s.coreFj (s.core c).meter) 0 + j.leakUs * s.energyOf 8 s.tide.stepAdmitted

/-- Bring the metered energy of the job in Spring up to its event counts (R110). -/
def settleMeter (s : State) : State :=
  match s.springWatch with
  | some w =>
    match w.job with
    | some j =>
      let f := s.springFj w j
      let s := s.modJob w.entry.num (fun j => { j with grantFj := f, totalFj := j.totalFj + (f - j.grantFj) })
      { s with tide := { s.tide with meterUj := s.toUj f } }
    | none => s
  | none => s

/-- A tide checkpoint starts: K is one more than the highest point any core of the job has passed (R113). -/
def startCheckpoint (n : Nat) (s : State) : State :=
  match s.watch? n with
  | some w =>
    let k := w.coreList.foldl (fun m c => max m (s.core c).point) 0
    s.modJob n (fun j => if j.ckpt.isSome then j else { j with ckpt := some (k + 1), ckptStart := j.grantFj })
  | none => s

/-- A core of a job counts as stopped for a checkpoint (R387). -/
def Core.atRest (k : Core) : Bool := decide (k.run = .stopped) || decide (k.run = .halted)

/-- Add clocked cycles to a core's meter, unless it has no power. -/
def addCycles (n : Nat) (k : Core) : Core :=
  if k.run = .off then k else { k with meter := { k.meter with cyc := k.meter.cyc + n } }

/-- METER_CHARGE: the meter charges the events of the last interval, `us` microseconds and the clocked cycles of each core
(R109, R110); it starts a checkpoint when the allowance is spent (R112) and finds an overrun (R169). -/
def meterCharge (us c0 c1 c2 c3 : Nat) (s : State) : State :=
  match s.springWatch with
  | some w =>
    if s.tide.power = .spring then
      let n := w.entry.num
      let s := (((s.modCore 0 (addCycles c0)).modCore 1 (addCycles c1)).modCore 2 (addCycles c2)).modCore 3 (addCycles c3)
      let s := settleMeter (s.modJob n (fun j => { j with leakUs := j.leakUs + us }))
      match (s.watch? n).bind (fun w => w.job), s.tide.block with
      | some j, some b =>
        if s.stopping.isSome then s
        else
          match j.ckpt with
          | none => if s.hasMetered j.allowance j.grantFj then startCheckpoint n s else s
          | some _ =>
            if s.hasMetered b.reserveUj (j.grantFj - j.ckptStart) && !w.coreList.all (fun c => (s.core c).atRest) then
              watchFatal n 0x2A 0 none s
            else s
      | _, _ => s
    else s
  | none => s

/-- RESERVOIR_GUARD_TRIP: the guard comparator starts a checkpoint (R112). -/
def guardTrip (s : State) : State :=
  match s.springWatch with
  | some w => if s.tide.power = .spring && s.stopping.isNone then startCheckpoint w.entry.num s else s
  | none => s

/-! ### Completing a checkpoint -/

/-- Add each core's saturation counters to the running totals of the open group (R511). -/
def addTotals (totals : List Nat) (k : Core) : List Nat :=
  (List.range 8).map (fun i => totals.getD i 0 + ((k.regs.satc[i]?).getD 0).toNat)

/-- Write the core frames of a job, and the job frame, whose layout the spec does not give: free bytes (R113, R115, log 2).
What the job frame holds stays in the job. -/
def writeFrames (w : Watch) (k : Nat) (s : State) : State :=
  let s1 := coreIds.foldl (fun t c =>
    let x := s.core c
    let st := if c ∈ w.coreList then (if x.run = .halted then 1 else 0) else 2
    t.putHbrWhole (frameAddr w c) (coreFrame (if st = 2 then {} else x) (if st = 0 then k else 0) st)) s
  let (bs, s2) := s1.freeBytes 512
  s2.putHbrWhole (w.entry.hbrBase + w.entry.ckptOffset) bs

/-- The allowance and grant count that a job takes to its readmission (R116); the unspent remainder is in whole µJ, the metered
energy rounded half to even (R461). -/
def nextGrant (s : State) (w : Watch) (j : Job) : Nat × Nat :=
  if s.hasMetered j.allowance j.grantFj then (w.entry.ceiling, j.grants + 1)
  else (j.allowance - s.toUj j.grantFj, j.grants)

/-- A checkpoint of watch w at point K has every core stopped and drained: the frames are written and valid, CORE_EN falls,
and the watch is CHECKPOINTED (R113, R54). -/
def checkpointDone (w : Watch) (k : Nat) (s : State) : State :=
  let n := w.entry.num
  let s := settleMeter s
  let cores := w.coreList.map s.core
  let s := writeFrames w k s
  let s := s.modJob n (fun j =>
    let g := nextGrant s w j
    { j with allowance := g.1, grants := g.2, ckpt := none, frames := some k, inSpring := false, requested := true,
             waitTicks := 0, ckpts := j.ckpts + 1, totals := cores.foldl addTotals j.totals,
             cwSets := cores.map (fun c => (c.written, c.tainted)),
             loadRuns := cores.map (fun c => c.loadLog.map (fun l => l.rest)) })
  let s := s.modWatch n (fun w => { w with state := .checkpointed, checkpoints := satAdd w.checkpoints 1 0xFFFFFFFF })
  leaveSpring s

/-- Every operation of the job's cores is complete, and its head requests. -/
def State.drained (s : State) (w : Watch) : Bool :=
  w.coreList.all (fun c => (s.core c).atRest && (s.core c).pend.isEmpty && decide ((s.core c).heads = 0))

/-- CHECKPOINT_COMPLETE (R113): the book of the energy allowance is checked at what the meter has charged (R621; log 85). -/
def checkpointComplete (s : State) : State :=
  match s.springWatch with
  | some w =>
    match w.job.bind (fun j => j.ckpt) with
    | some k =>
      if s.tide.power = .spring && s.stopping.isNone && s.drained w &&
          w.coreList.any (fun c => decide ((s.core c).run = .stopped)) then
        if (w.job.map (fun j => s.overspent w j (j.ckpts + 1))).getD false then watchFatal w.entry.num 0x2A 0 none s
        else checkpointDone w k s
      else s
    | none => s
  | none => s

/-- COMPUTE_END: every core has halted and every head request has completed (R372); a pending checkpoint is dropped (R121).
The cores' flags join the job's (R358), the cores lose power (R88) and the job ends. The book of the energy allowance is checked
at what the meter has charged, but from a trip until its point K (R621; log 85). -/
def computeEnd (s : State) : State :=
  match s.springWatch with
  | some w =>
    if s.tide.power = .spring && s.stopping.isNone && s.drained w &&
        w.coreList.all (fun c => decide ((s.core c).run = .halted)) then
      let n := w.entry.num
      if (w.job.map (fun j => j.ckpt.isNone && s.overspent w j j.ckpts)).getD false then watchFatal n 0x2A 0 none s else
      let s := settleMeter s
      let fl := w.coreList.foldl (fun (f : BitVec 4) c => f ||| (s.core c).regs.fl) 0
      let s := s.modJob n (fun j => { j with flags := j.flags ||| fl, inSpring := false, ckpt := none })
      endJob n (leaveSpring s)
    else s
  | none => s

/-! ### Failures in Spring -/

/-- The cores stop at once and CORE_EN falls: the job is closed with the code of a stop already in progress, else `code`. -/
def cutSpring (code : Nat) (s : State) : State :=
  match s.stopping, s.springWatch with
  | some x, _ => finishStop x s
  | none, some w =>
    finishStop { watch := w.entry.num, code := code, tick := s.sys.tick, source := stopSource code } s
  | none, none => s

/-- VCORE_FAIL (R107). -/
def vcoreFail (s : State) : State := if s.tide.coreEn then cutSpring 0x27 (raiseAlarm 4 s) else s

/-- RESERVOIR_COLLAPSE (R119). -/
def reservoirCollapse (s : State) : State :=
  if s.tide.coreEn then
    let s := { s with tide := { s.tide with collapses := satAdd s.tide.collapses 1 0xFFFF, capClean := false } }
    cutSpring 0x28 (raiseAlarm 5 s)
  else s

/-! ### Samples -/

/-- The account after a Spring is compared with the meter, and a capacitance sample is taken (R130, R702). -/
def firstSample (s : State) : State :=
  if s.tide.afterSpring then
    let m := s.tide.meterUj
    let fall : Int := (s.tide.energyBefore : Int) - s.tide.energy
    let bad := 1000 ≤ m && decide (5 * (m : Int) < 100 * (fall - m).natAbs)
    let set := bad && s.tide.block.isSome
    let s1 := { s with tide := { s.tide with afterSpring := false, capMismatch := s.tide.capMismatch || set },
                       fresh := { s.fresh with mismatch := s.fresh.mismatch || set } }
    if s.tide.capClean then capSample m s.tide.rsvBefore s.tide.rsvMv s1 else s1
  else s

/-- The account from the latest sample (R98, R94). -/
def account (s : State) : State :=
  match s.tide.block with
  | some b => { s with tide := { s.tide with energy := s.energyAt b s.tide.rsvMv, capNominal := (s.capUf b).2 } }
  | none => { s with tide := { s.tide with energy := 0 } }

/-- RESERVOIR_SAMPLE: none while CORE_EN is high (R95 to R102, R105, R130). -/
def reservoirSample (rsvMv vbatMv : Nat) (s : State) : State :=
  if s.tide.coreEn then s
  else
    let timed := s.tide.stallCount.isSome
    let s := { s with tide := { s.tide with rsvMv := rsvMv, rsvTick := s.sys.tick, vbatMv := vbatMv, vbatTick := s.sys.tick } }
    let s := chargeControl (stallSample (firstSample (account s)))
    let s := if timed && !s.tide.chgEn then wake s else s
    evaluateAdmission s

/-- VBAT_SAMPLE: VBAT alone (R97). -/
def vbatSample (vbatMv : Nat) (s : State) : State :=
  chargeControl { s with tide := { s.tide with vbatMv := vbatMv, vbatTick := s.sys.tick } }

/-! ### Heat -/

/-- The cap that a temperature sets, 3 = none (R125), in 1/64 °C. -/
def capFor (t : Int) : Nat := if t < 6720 then 3 else if t < 6848 then 2 else if t < 6976 then 1 else 0

/-- The temperature below which a cap is lifted by a step (R125). -/
def liftBelow (cap : Nat) : Int :=
  match cap with
  | 0 => 6784
  | 1 => 6656
  | _ => 6528

/-- The cap after a sample (R125). -/
def nextCap (cap : Nat) (t : Int) : Nat :=
  if capFor t < cap then capFor t else if cap < 3 && decide (t < liftBelow cap) then cap + 1 else cap

/-- Junction temperature in 1/64 °C from the coarse reading (R695); before the calibration set is in use, the coarse reading. -/
def State.tempOf (s : State) (coarse : Int) : Int :=
  if s.strand.cal.isEmpty then coarse
  else rhe (coarse * (s.cal 0xA 2 : Nat)) 16384 + toSigned (s.cal 8 2) 16

/-- The clock step in force follows the caps (R91, R125). -/
def applyStep (s : State) : State :=
  match s.springWatch with
  | some w => { s with tide := { s.tide with step := s.stepFor w } }
  | none => s

/-- A thermal shutdown request: cores and Stem engine stop, OTP programming stops, CORE_EN, CHG_EN and PIX_EN fall; the reset
itself is THERMAL_REQ (R127). -/
def thermalShutdown (s : State) : State :=
  let s := leaveSpring (tearOtp s)
  { s with tide := { s.tide with thermalShutdown := true, chgEn := false, stallCount := none, pixEn := false, vpixReady := false } }

/-- TEMP_SAMPLE (R124 to R127). -/
def tempSample (coarse : Int) (s : State) : State :=
  let t := s.tempOf coarse
  let s := applyStep { s with tide := { s.tide with
    temp := t, tempTick := s.sys.tick, tempTaken := true, thermalCap := nextCap s.tide.thermalCap t } }
  if 7680 ≤ t then thermalShutdown s else s

/-! ### Neap -/

/-- A used port lets the device enter Neap only in link sleep (R87). -/
def Port.quiet (x : Port) : Bool := decide (x.state = .sleep)

/-- A DONE watch that starts a pending trigger's job at the next tick: it is due (R54, R87). -/
def Watch.rearms (w : Watch) : Bool := decide (w.state = .done) && !w.flag 2 && w.pending

/-- The conditions for entering Neap from Slack (R87, R523, R686, R745), once the boot has ended or failed (R143, R152). -/
def State.mayNeap (s : State) : Bool :=
  (decide (s.sys.stage = 0x0F) || decide (s.sys.fail ≠ 0)) && decide (s.tide.power = .slack) && !s.tide.coreEn && !s.tide.thermalShutdown &&
  !s.tap.slackHold &&
  s.watches.all (fun w => decide (w.state ≠ .running) && w.held.isNone && !w.rearms) &&
  (s.host.mbx.isEmpty || s.sys.firstNeapDue) && s.host.mbxRun.isNone && s.host.held.isEmpty &&
  s.strand.run.isNone && s.strand.commits.isEmpty && s.otp.run.isNone && s.stem.queue.all (fun r => r.kind ≠ .adapt) &&
  s.usedPorts.all (fun p => (s.port p).quiet)

/-- The Harbour ranges that Neap retains beside the system region: placed PROGRAM and TENSOR records, persistence regions,
and the checkpoint areas of busy jobs (R66). -/
def State.retainedRanges (s : State) : List (Nat × Nat) :=
  ((s.image.records.filter (fun r => r.type == 3 || r.type == 4)).map (fun r => (r.load, r.placed))) ++
  s.watches.flatMap (fun w =>
    (w.entry.persist.map (fun p => (w.entry.hbrBase + p.1, p.2))) ++
    (if w.state.busy then [(w.entry.hbrBase + w.entry.ckptOffset, w.entry.ckptSize)] else []))

/-- The banks retained at an entry into Neap; bank 31 always is (R66, R123). -/
def State.retainSet (s : State) : BitVec 32 :=
  s.retainedRanges.foldl (fun m r => m ||| bankMask r.1 r.2) 0x80000000

/-- Enter Neap (R84, R87): banks that are not retained lose their content, which reads as R757 leaves it at power-up; the
FRC, the core PLL and XREF stop. The entry checks the book of the Outbox; the retained banks are those of R66 by construction
(R621; log 85). -/
def neapEntry (s : State) : State :=
  if s.mayNeap && !s.outboxBalance then booksFail s
  else if s.mayNeap then
    let keep := s.retainSet
    let lost := (List.range 32).filter (fun b => !keep.getLsbD b)
    { s with harbour := lost.foldl (fun h b => h.zero (0x4000 * b) (0x4000 * (b + 1))) s.harbour,
             tide := { s.tide with power := .neap, retain := keep, banksOn := keep, pllLocked := false, xrefOn := false,
                                   xrefReady := false },
             sys := { s.sys with firstNeapDue := false, loopCount := if s.sys.firstNeapDue then 0 else s.sys.loopCount,
                                 bootMs := if s.sys.firstNeapDue then min (rhe ((s.sys.tick - s.sys.releaseTick) * 1000 : Nat) 32768).toNat 4095
                                   else s.sys.bootMs } }
  else s

/-- HARBOUR_BANK_POWER_UP: a bank that was off powers up with zero data, tag 0x0000 and valid ECC (R757). -/
def bankPowerUp (b : Nat) (s : State) : State :=
  if s.tide.banksOn.getLsbD b then s
  else { s with harbour := s.harbour.zero (0x4000 * b) (0x4000 * (b + 1)),
                tide := { s.tide with banksOn := s.tide.banksOn ||| BitVec.ofNat 32 (2 ^ b) } }

/-! ### Watches at a tick -/

/-- Put a watch into a list ordered by its pending trigger's place in the queue (R59). -/
def insertPending (w : Watch) : List Watch → List Watch
  | [] => [w]
  | o :: t =>
    if keyLt (w.pendingDue.1, w.pendingDue.2, w.entry.num) (o.pendingDue.1, o.pendingDue.2, o.entry.num) then w :: o :: t
    else o :: insertPending w t

/-- DONE_REARM: every DONE watch whose ONE_SHOT is clear returns to ARMED, and those with a pending trigger start its job in
the order of the queue (R54, R59). -/
def doneRearm (s : State) : State :=
  let ws := s.watches.filter (fun w => decide (w.state = .done) && !w.flag 2)
  let s := keepVpix s (ws.foldl (fun s w => s.modWatch w.entry.num (fun w => { w with state := .armed })) s)
  ((ws.filter (fun w => w.pending)).foldr insertPending []).foldl (fun s w => startPending w.entry.num s) s

/-- A TICK watch is due at tick t (R47). -/
def tickDue (t : Nat) (w : Watch) : Bool :=
  let iv := leAt w.entry.trigArg 0 4
  let ph := leAt w.entry.trigArg 4 4
  w.entry.trigKind == 1 && decide (ph ≤ t) && decide ((t - ph) % iv = 0)

/-- TICK_TRIGGER: the watches whose interval and phase match the tick become due, in ascending number (R47, R59). -/
def tickTrigger (s : State) : State :=
  triggerAll ((s.watches.filter (tickDue s.sys.tick)).map (fun w => w.entry.num)) 0 false s

/-- GROUP_RELEASE: no other member of the group is busy, so the held trigger of the watch is accepted, if it is first in the
queue among the group's held triggers (R59, R63). -/
def groupRelease (n : Nat) (s : State) : State := tryHeld n s

/-! ### The commands -/

/-- RESERVOIR_SAMPLE (R96) -/
def execReservoirSample (r v : Nat) (s : State) : Host.Outcome State Fault Refusal := .next (inService s (reservoirSample r v))
/-- VBAT_SAMPLE (R97) -/
def execVbatSample (v : Nat) (s : State) : Host.Outcome State Fault Refusal := .next (inService s (vbatSample v))
/-- CHG_STALL (R102) -/
def execChgStall (s : State) : Host.Outcome State Fault Refusal := .next (inService s chgStallEvent)
/-- TEMP_SAMPLE (R124) -/
def execTempSample (c : Int) (s : State) : Host.Outcome State Fault Refusal := .next (inService s (tempSample c))
/-- ADMISSION_REQUEST (R106) -/
def execAdmissionRequest (n : Nat) (s : State) : Host.Outcome State Fault Refusal := .next (inService s (admissionRequest n))
/-- CORE_RELEASE (R359) -/
def execCoreRelease (s : State) : Host.Outcome State Fault Refusal := .next (inService s coreRelease)
/-- VCORE_FAIL (R107) -/
def execVcoreFail (s : State) : Host.Outcome State Fault Refusal := .next (inService s vcoreFail)
/-- METER_CHARGE (R110) -/
def execMeterCharge (us c0 c1 c2 c3 : Nat) (s : State) : Host.Outcome State Fault Refusal :=
  .next (inService s (meterCharge us c0 c1 c2 c3))
/-- RESERVOIR_GUARD_TRIP (R112) -/
def execReservoirGuardTrip (s : State) : Host.Outcome State Fault Refusal := .next (inService s guardTrip)
/-- CHECKPOINT_COMPLETE (R113) -/
def execCheckpointComplete (s : State) : Host.Outcome State Fault Refusal := .next (inService s checkpointComplete)
/-- RESERVOIR_COLLAPSE (R119) -/
def execReservoirCollapse (s : State) : Host.Outcome State Fault Refusal := .next (inService s reservoirCollapse)
/-- COMPUTE_END (R372) -/
def execComputeEnd (s : State) : Host.Outcome State Fault Refusal := .next (inService s computeEnd)
/-- NEAP_ENTRY (R87) -/
def execNeapEntry (s : State) : Host.Outcome State Fault Refusal := .next (inService s neapEntry)
/-- HARBOUR_BANK_POWER_UP (R757) -/
def execHarbourBankPowerUp (b : Fin 32) (s : State) : Host.Outcome State Fault Refusal := .next (inService s (bankPowerUp b.val))
/-- DONE_REARM (R54) -/
def execDoneRearm (s : State) : Host.Outcome State Fault Refusal := .next (inService s doneRearm)
/-- ADMIT_TIMEOUT (R57) -/
def execAdmitTimeout (n : Nat) (s : State) : Host.Outcome State Fault Refusal := .next (inService s (admitTimeout n))
/-- TICK_TRIGGER (R47) -/
def execTickTrigger (s : State) : Host.Outcome State Fault Refusal := .next (inService s tickTrigger)
/-- GROUP_RELEASE (R63) -/
def execGroupRelease (n : Nat) (s : State) : Host.Outcome State Fault Refusal := .next (inService s (groupRelease n))

end Sys2Proof.Machine
end

