-- ==== Sys2Proof/Machine/Cores.lean ====
section
/-! DEFINITION. Machine/Cores.lean: what a tensor core does outside the issue of a bundle: exceptions (R391), uncorrectable
errors and tile replay (R604 to R614), completion of outstanding operations (R374, R380), waits (R421 to R423, R537, R578);
with the commands WAIT_TIMEOUT, UNCORRECTABLE_ERROR, HARBOUR_WORD_ACCESS_DONE and DMA_COMPLETE. -/
namespace Sys2Proof.Machine
open Sys2Proof

/-- The internal cause of an access to a chip outside the chain: REMOTE_REFUSED, counted in CW_DROPS.UNROUTABLE (R553). -/
def causeUnroutable : Nat := 0x111

/-! ### Exceptions -/

/-- An exception of a core (R391): it is recorded, and the job is stopped with the FAULT code of its cause; `source` is the part
that its event-log entry names (R623). A core already in its partial reset takes none. -/
def coreExceptionAt (source : Nat) (c : Fin 4) (cause slot pc : Nat) (s : State) : State :=
  if (s.core c).run = .off || (s.core c).run = .stopping then s
  else
  let real := if cause = causeUnroutable then causeRemoteRefused else cause
  let s := if cause = causeUnroutable then
      { s with cw := { s.cw with unroutable := satAdd s.cw.unroutable 1 0xFF } } else s
  let s := s.modCore c (fun k => { k with excCause := real, excSlot := slot, excPc := pc % 4096, excValid := true })
  match s.springWatch with
  | some w => watchFatalAt source 0 w.entry.num (faultOfCause real) real (some c.val) s
  | none => s

/-- An exception whose event-log entry names no part: a program's own (log 43). -/
def coreException (c : Fin 4) (cause slot pc : Nat) (s : State) : State := coreExceptionAt 0 c cause slot pc s

/-- SOURCE of an exception that a port brings (R623). -/
def portSource (p : PortId) : Nat := 10 + p.idx

/-! ### Word accesses at the Harbour -/

/-- The value an atomic leaves: 5 add, 6 signed minimum, 7 signed maximum, 8 swap, 9 compare and swap (R419). -/
def atomicResult (op : Nat) (old v v2 : BitVec 32) : BitVec 32 :=
  match op with
  | 5 => old + v
  | 6 => if v.toInt < old.toInt then v else old
  | 7 => if old.toInt < v.toInt then v else old
  | 8 => v
  | _ => if old = v then v2 else old

/-- Harbour offset of a 40-bit address (R360). -/
def hbrOffset (a : Nat) : Nat := a % 2 ^ 36 - 0x40000000

/-- The word accesses of slot 13 on the local Harbour (R419). -/
def Pend.localWord (p : Pend) : Bool := p.slot == 13 && decide (3 ≤ p.op) && decide (p.op ≤ 9) && p.chip.isNone

/-- Perform a word access at the local Harbour (R531, R542): the word read, and the state. -/
def performWord (p : Pend) (s : State) : BitVec 32 × State :=
  let a := hbrOffset p.addr
  let old := BitVec.ofNat 32 (s.hbr a 4)
  let s := s.visit a 4
  if p.op = 3 then (old, s)
  else if p.op = 4 then (old, s.putHbr a (leBytes p.val.toNat 4))
  else (old, s.putHbr a (leBytes (atomicResult p.op old p.val p.val2).toNat 4))

/-- The outstanding word writes of a core are performed, as its drain requires; atomics too in a partial reset (R168), not in a
replay, which issues them again (R611, R612). -/
def drainWords (atomics : Bool) (ps : List Pend) (s : State) : State :=
  ps.foldl (fun s p =>
    if p.localWord && (p.op = 4 || (atomics && p.op ≠ 3)) && !s.harbour.poisoned (hbrOffset p.addr / 64) then (performWord p s).2 else s) s

/-! ### Uncorrectable errors -/

/-- The line lies in the frames of a watch's checkpoint area (R115, R609). -/
def inFrames (e : WatchEntry) (line : Nat) : Bool :=
  decide (e.hbrBase + e.ckptOffset ≤ 64 * line) && decide (64 * line < e.hbrBase + e.ckptOffset + 3584)

/-- An uncorrectable error of a core is replayable (R609): the window is open and has not been replayed, and the line lies in no
placed record of the watch and in no frame. -/
def replayable (s : State) (w : Watch) (k : Core) (src : ErrorSource) (line : Nat) : Bool :=
  k.winOpen && !k.winReplayed && k.shadow.isSome && !placedError s w src line && !(src == .harbour && inFrames w.entry line)

/-- The operation writes at its issue or later, and the drain of a replay waits for it: a remote write, or a stream fetch
(R611). -/
def Pend.drains (p : Pend) : Bool :=
  p.stream.isSome || (p.chip.isSome && (p.slot == 7 || (p.slot == 13 && p.op == 4)))

/-- What stays outstanding while a replay drains: the writes issued before the error, without their events and results. Read data
is discarded, and an atomic or a marker that has not completed is issued again by the replayed work (R541, R611, R612; log 31). -/
def keepDraining (ps : List Pend) : List Pend :=
  (ps.filter Pend.drains).map (fun p => { p with event := none, sd := none, st := none, poison := none })

/-- A tile replay begins, on the erring core alone (R611, R613): issue stops and the core drains. It is restored once its writes
have completed (`tryReplay`). -/
def replay (c : Fin 4) (w : Watch) (src : ErrorSource) (addr slot pc : Nat) (s : State) : State :=
  let k := s.core c
  let s := drainWords false k.pend s
  let s := s.setCore c { k with wait := none, winReplayed := true, early := [], before := none, replaying := true,
                                replayLoads := decide (src = .imem), pend := keepDraining k.pend }
  let s := s.modJob w.entry.num (fun j => { j with tileReplays := j.tileReplays + 1 })
  logEntry { cls := 1, source := errorSourceCode src, watch := some w.entry.num, addr := addr,
             frame := (w.job.getD {}).unitNum, core := some c.val, slot := some slot,
             pc := pc % 4096, point := (k.shadow.getD {}).point }
    { s with err := { s.err with replays := satAdd s.err.replays 1 255 } }

/-- What a replay restores from the shadow frame (R610, R611). -/
def restored (k : Core) : Core :=
  let f := k.shadow.getD { regs := k.regs, point := k.point, loadLog := k.loadLog }
  { k with regs := f.regs, point := f.point, loadLog := f.loadLog, retain := [], wait := none, replaying := false,
           replayLoads := false }

/-- The drain of a replay has ended: the core takes its shadow frame, the retain buffer is empty, and after an error in instruction
memory the load log is repeated (R611). A poisoned source line of it is the second error of the window (R614). -/
def tryReplay (c : Fin 4) (s : State) : State :=
  let k := s.core c
  if k.replaying && k.pend.isEmpty then
    let s1 := s.setCore c (restored k)
    if k.replayLoads then
      let ls := (restored k).loadLog
      let s2 := ls.foldl (fun s l => loadImem c l s) s1
      match s.badLoad ls, s.springWatch with
      | some line, some w => memoryStop c w .harbour line 6 k.regs.pc.toNat s2
      | _, _ => s2
    else s1
  else s

/-- A core takes an uncorrectable error in a slot of the bundle at pc (R609): a replay, or the stop of its job. -/
def takeError (c : Fin 4) (src : ErrorSource) (line slot pc : Nat) (s : State) : State :=
  match s.springWatch with
  | none => s
  | some w =>
    if replayable s w (s.core c) src line then replay c w src (errorAddr src line) slot pc s
    else memoryStop c w src line slot pc s

/-! ### Waits and completions -/

/-- Give the status of a SYNC operation: to s[ST] under CHECK, else an exception for a status other than OK (R392, R420). -/
def giveStatus (c : Fin 4) (st : Option Nat) (code pc : Nat) (s : State) : State :=
  match st with
  | some r => s.modCore c (fun k => k.setS r (BitVec.ofNat 32 code))
  | none =>
    if code = 0 then s
    else coreException c (if code = 1 then causeRemoteAtomic else causeUnit) 13 pc s

/-- Close the window at a release event (R608). -/
def closeWindow (k : Core) : Core := { k with winOpen := false, shadow := none }

/-- The operation writes some Harbour only; a STREAM writes the local one (R527, R537). -/
def Pend.writesHarbour (p : Pend) : Bool := p.slot == 7 || (p.slot == 13 && p.op == 4) || p.stream.isSome

/-- The operation reads a Harbour, the local one only or any (R537). -/
def Pend.readsHarbour (p : Pend) (anyChip : Bool) : Bool :=
  ((p.slot == 6 && p.stream.isNone) || (p.slot == 13 && p.op != 4 && p.op != 0xD)) && (anyChip || p.chip.isNone)

/-- A fence of a scope may complete (R537). -/
def fenceDone (scope : Nat) (k : Core) : Bool :=
  match scope with
  | 0 => k.pend.all Pend.writesHarbour
  | 1 => k.pend.all (fun p => p.writesHarbour && p.chip.isSome)
  | _ => k.pend.isEmpty

/-- Free the retain-buffer entries of lines in [lo, hi], on the local chip only for scope 1 (R383, R537). -/
def freeRetained (scope lo hi : Nat) (k : Core) : Core :=
  { k with retain := k.retain.filter (fun e =>
      !(decide (lo ≤ e.1) && decide (e.1 ≤ hi) && (scope == 2 || decide (e.1 < 2 ^ 30)))) }

/-- The marker entry of a watch and a source chip (R576). -/
def State.marker? (s : State) (watch chip : Nat) : Option MarkerEntry :=
  s.cw.markers.find? (fun m => m.watch == watch && m.chip == chip)

/-- Markers of epoch n or above have come from every core of the source job (R578). -/
def MarkerEntry.reached (m : MarkerEntry) (n : Nat) : Bool :=
  decide (0 < m.count) && (List.range m.count).all (fun i =>
    match m.epochs.getD i none with
    | some e => decide ((e + 65536 - n) % 65536 < 32768)
    | none => false)

/-- Take the next transaction id of a core: its number in bits [15:14], so that an answer names the core (R559). -/
def takeTxn (c : Fin 4) (s : State) : Nat × State :=
  let t := s.cw.txn.getD c.val 0
  (c.val * 16384 + t, { s with cw := { s.cw with txn := setAt s.cw.txn c.val ((t + 1) % 16384) } })

/-- The chip number this chip has as a source. -/
def State.myChip (s : State) : Nat := s.cw.chip.getD 0

/-- An accepted marker sets COUNT and SEEN for its core index and a newer epoch (R577). -/
def MarkerEntry.accept (m : MarkerEntry) (idx epoch count : Nat) : MarkerEntry :=
  let newer := match m.epochs.getD idx none with
    | some e => decide (1 ≤ (epoch + 65536 - e) % 65536) && decide ((epoch + 65536 - e) % 65536 < 32768)
    | none => true
  { m with count := count, epochs := if newer then setAt m.epochs idx (some epoch) else m.epochs }

/-- The marker's watch and source chip are declared, and the watch takes remote data (R577). -/
def State.markerOk (s : State) (watch chip : Nat) : Bool :=
  (s.marker? watch chip).isSome && (match s.watch? watch with
    | some w => w.flag 5
    | none => false)

/-- Store an accepted marker. -/
def storeMarker (watch chip idx epoch count : Nat) (s : State) : State :=
  { s with cw := { s.cw with markers := s.cw.markers.map (fun m =>
      if m.watch = watch && m.chip = chip then m.accept idx epoch count else m) } }

/-- Index of a core within its job (R359). -/
def coreIndex (w : Watch) (c : Fin 4) : Nat := (w.coreList.takeWhile (fun x => x ≠ c)).length

/-- Send the marker of an `epub` (R423); to the chip itself it is accepted or refused at once (log 32). -/
def publishMarker (c : Fin 4) (w : Watch) (chip epoch : Nat) (st : Option Nat) (s : State) : State :=
  let k := s.core c
  let i := coreIndex w c
  let n := w.coreList.length
  if chip = s.myChip then
    if s.markerOk w.entry.num chip then
      giveStatus c st 0 k.lastPc ((storeMarker w.entry.num chip i epoch n s).modCore c closeWindow)
    else coreException c causeRemoteRefused 13 k.lastPc s
  else
    let (t, s) := takeTxn c s
    let s := s.modCore c (fun k => { k with pend := k.pend ++
      [{ slot := 13, op := 0xD, chip := some chip, st := st, reqs := [{ txn := t }], pc := k.lastPc }] })
    sendPacket { type := 5, dest := chip, src := s.myChip, core := i, watch := w.entry.num, arg := epoch + 65536 * n, txn := t } s

/-- A chip is in doubt for a core: until it leaves doubt, no EPOCH_LOST is reported for an access toward it, since a write still
under way could be performed after the report (R544, R573). -/
def State.inDoubt (s : State) (c : Fin 4) (chip : Nat) : Bool := s.cw.doubts.any (fun d => d.core == c.val && d.chip == chip)

/-- The wait of a core ends if its condition holds (R421 to R423, R537, R575, R578). -/
def tryWait (c : Fin 4) (s : State) : State :=
  let k := s.core c
  let free := fun (s : State) => s.modCore c (fun k => { k with wait := none })
  match k.wait, s.springWatch with
  | some (.event e n), _ =>
    if n ≤ (k.evreg e).toNat then
      (free s).modCore c (fun k => k.setEv e (BitVec.ofNat 8 ((k.evreg e).toNat - n)))
    else s
  | some (.fence scope st), _ =>
    if fenceDone scope k then
      giveStatus c st (if scope = 2 && !k.tainted.isEmpty then 2 else 0) k.lastPc ((free s).modCore c closeWindow)
    else s
  | some (.acq scope lo hi st), _ =>
    if k.pend.any (fun p => p.readsHarbour (scope == 2)) then s
    else giveStatus c st 0 k.lastPc ((free s).modCore c (freeRetained scope lo hi))
  | some (.epoch chip n st), some w =>
    match s.marker? w.entry.num chip with
    | some m => if m.reached n then giveStatus c st 0 k.lastPc (free s) else s
    | none => s
  | some (.lost chip st), _ => if s.inDoubt c chip then s else giveStatus c st 2 k.lastPc (free s)
  | some (.publish chip n st), some w =>
    if k.tainted.contains chip then
      if s.inDoubt c chip then s else giveStatus c st 2 k.lastPc ((free s).modCore c closeWindow)
    else if k.pend.any (fun p => p.chip = some chip && p.ranges.any (fun r => r.write)) then s
    else publishMarker c w chip n st (free s)
  | _, _ => s

/-- A halting core with nothing outstanding is halted (R372). -/
def tryHalt (k : Core) : Core :=
  if k.run = .halting && k.pend.isEmpty && k.wait.isNone then { k with run := .halted } else k

/-- After a completion: the replay of the core, the wait of the core, then its halt. -/
def settle (c : Fin 4) (s : State) : State := (tryWait c (tryReplay c s)).modCore c tryHalt

/-- Raise an event counter at a completion (R380, R391). -/
def raiseEvent (c : Fin 4) (ev : Option Nat) (slot pc : Nat) (s : State) : State :=
  match ev with
  | none => s
  | some e =>
    if 255 ≤ ((s.core c).evreg e).toNat then coreException c causeEventOverflow slot pc s
    else s.modCore c (fun k => k.setEv e (k.evreg e + 1))

/-- Remove outstanding operation i of a core. -/
def removePend (c : Fin 4) (i : Nat) (s : State) : State := s.modCore c (fun k => { k with pend := k.pend.eraseIdx i })

/-- A DMA transfer completes (R380); one that read a poisoned line brings its error (R605). -/
def completeDma (c : Fin 4) (i : Nat) (p : Pend) (s : State) : State :=
  let s := removePend c i s
  match p.poison with
  | some (src, line) => settle c (takeError c src line p.slot p.pc s)
  | none => settle c (raiseEvent c p.event p.slot p.pc s)

/-! ### Word access completions -/

/-- HARBOUR_WORD_ACCESS_DONE: the oldest word access of the core on the local Harbour is performed and completes (R374, R419).
A poisoned line is an error instead (R604). A completed atomic closes the window (R608). -/
def wordDone (c : Fin 4) (s : State) : State :=
  let k := s.core c
  match k.pend.zipIdx.find? (fun x => x.1.localWord) with
  | none => s
  | some (p, i) =>
    let line := hbrOffset p.addr / 64
    let s1 := removePend c i s
    if s.harbour.poisoned line then settle c (takeError c .harbour line 13 p.pc s1)
    else
      let (v, s2) := performWord p s1
      let s3 := match p.sd with
        | some r => s2.modCore c (fun k => k.setS r v)
        | none => s2
      let s4 := if 5 ≤ p.op then s3.modCore c closeWindow else s3
      settle c (giveStatus c p.st 0 p.pc s4)

/-! ### Stream fetches -/

/-- The units of a plain block: 62 lines with their tags (R245). -/
def blockLines (b : List Byte) : List (List Byte × BitVec 16) :=
  (List.range 62).map (fun u => (slice b (66 * u) 64, BitVec.ofNat 16 (leAt b (66 * u + 64) 2)))

/-- The record header of an accepted record (R217). -/
def PlacedRecord.header (r : PlacedRecord) (flags : Nat) : List Byte :=
  leBytes r.type 1 ++ leBytes flags 1 ++ leBytes r.id 2 ++ leBytes r.length 4

/-- A stored block checked against entry b of its index, and decrypted (R246): its plain content, none when a check fails. -/
def streamBlock (s : State) (ix : PlacedRecord) (b : Nat) (stored : List Byte) : Option (List Byte) :=
  let e := slice ix.body (0x18 + 48 * b) 48
  if stored.length = 4096 && sha256 stored = e.take 32 then
    let plain :=
      if byteAt ix.body 8 = 1 then
        match s.otp.keys.idk with
        | some k =>
          let r := gcmOpen k (slice ix.body 0xC 4 ++ leBytes b 4 ++ leBytes ix.id 2 ++ zeros 2) (ix.header 0) stored
          if r.2 = e.drop 32 then some r.1 else none
        | none => none
      else some stored
    plain.filter (fun x => zeroAt x 4092 4)
  else none

/-- A stream fetch ends (R246, R247): `block` is what the flash returned, `reread` the second read. DESIGN CHOICE (log 83): FETCHES
counts every fetch that ends, one that failed twice among them. -/
def streamDone (c : Fin 4) (i : Nat) (p : Pend) (b dst : Nat) (block reread : List Byte) (s : State) : State :=
  match s.springWatch with
  | none => s
  | some w =>
    match s.record? 10 w.entry.streamRec with
    | none => s
    | some ix =>
      let s := { s with image := { s.image with streamFetches := satAdd s.image.streamFetches 1 0xFFFF } }
      let first := streamBlock s ix b block
      let s := if first.isSome then s
        else { s with image := { s.image with streamRereads := satAdd s.image.streamRereads 1 0xFF } }
      match first.or (streamBlock s ix b reread) with
      | some x => completeDma c i p (s.putHbrLines (dst / 64) (blockLines x))
      | none =>
        let s := raiseAlarm 6 { s with image := { s.image with streamFails := satAdd s.image.streamFails 1 0xFF } }
        coreExceptionAt 12 c causeStream p.slot p.pc (removePend c i s)

/-- A stream fetch that some core issued before the one of order number o is still outstanding (R249). -/
def State.earlierFetch (s : State) (o : Nat) : Bool :=
  coreIds.any (fun c => (s.core c).pend.any (fun q => q.stream.isSome && decide (q.order < o)))

/-- DMA_COMPLETE: outstanding operation n of the core, a transfer on this chip or a stream fetch, completes (R380). Fetches
are served in issue order, whatever core issued them (R249). -/
def dmaComplete (c : Fin 4) (n : Nat) (block reread : List Byte) (s : State) : State :=
  let k := s.core c
  match k.pend[n]? with
  | some p =>
    if (p.slot = 6 || p.slot = 7) && (p.chip.isNone || p.reqs.isEmpty) then
      match p.stream with
      | none => completeDma c n p s
      | some (b, dst) =>
        if s.earlierFetch p.order then s else streamDone c n p b dst block reread s
    else s
  | none => s

/-- WAIT_TIMEOUT: a wait of the core in slot 13 lasts more than 32,768 ticks (R391). -/
def waitTimeout (c : Fin 4) (s : State) : State :=
  let k := s.core c
  if k.wait.isSome && k.run ≠ .off then coreException c causeWaitTimeout 13 k.lastPc s else s

/-- Mark a line poisoned where its memory keeps marks, counting a line not marked before (R604, R605). -/
def markPoison (c : Fin 4) (src : ErrorSource) (line : Nat) (s : State) : State :=
  let count := fun (s : State) => { s with err := { s.err with poisonFound := satAdd s.err.poisonFound 1 255 } }
  match src with
  | .harbour => if s.harbour.poisoned line then s else count { s with harbour := s.harbour.mark line }
  | .scratch | .weights =>
    if (s.core c).loc.poisoned line then s else count (s.modCore c (fun k => { k with loc := k.loc.mark line }))
  | .retain => count s
  | _ => s

/-- UNCORRECTABLE_ERROR: a core reads a line that cannot be corrected (R604, R605, R609). `addr` is the Harbour offset or the
local address. -/
def uncorrectableError (c : Fin 4) (src : ErrorSource) (addr slot pc : Nat) (s : State) : State :=
  let k := s.core c
  if k.run = .running || k.run = .halting || k.run = .stopped then
    settle c (takeError c src (addr / 64) slot pc (markPoison c src (addr / 64) s))
  else s

/-- HARBOUR_WORD_ACCESS_DONE (R374) -/
def execHarbourWordAccessDone (c : Fin 4) (s : State) : Host.Outcome State Fault Refusal := .next (inService s (wordDone c))
/-- DMA_COMPLETE (R380) -/
def execDmaComplete (c : Fin 4) (n : Nat) (block reread : List Byte) (s : State) : Host.Outcome State Fault Refusal :=
  .next (inService s (dmaComplete c n block reread))
/-- WAIT_TIMEOUT (R391) -/
def execWaitTimeout (c : Fin 4) (s : State) : Host.Outcome State Fault Refusal := .next (inService s (waitTimeout c))
/-- UNCORRECTABLE_ERROR (R609) -/
def execUncorrectableError (c : Fin 4) (src : ErrorSource) (a : Nat) (i : Fin 16) (p : BitVec 12) (s : State) :
    Host.Outcome State Fault Refusal :=
  .next (inService s (uncorrectableError c src a i.val p.toNat))

end Sys2Proof.Machine
end

