-- ==== Sys2Proof/Machine/Scalar.lean ====
section
/-! DEFINITION. Machine/Scalar.lean: the BRANCH, SALU, AGEN and LDST classes (11, R400 to R403) and the loop rules (10, R370,
R371). -/
namespace Sys2Proof.Machine
open Sys2Proof

/-! ### Scalar ALU -/

/-- Operand B of a SALU syllable: s[SB], IMM sign-extended, or the low 32 bits of slot 14 (R398, R401). -/
def saluB (x : Ctx) (w : Nat) : BitVec 32 :=
  if bitN w 33 then (if sLI w then BitVec.ofNat 32 x.li else BitVec.ofInt 32 (toSigned (fld w 34 24) 24))
  else x.k0.sreg (fld w 28 5)

/-- Integer results of operations 0x01 to 0x10 (R401). -/
def saluResult (op : Nat) (a b : BitVec 32) : BitVec 32 :=
  match op with
  | 0x01 => a + b
  | 0x02 => a - b
  | 0x03 => a * b
  | 0x04 => BitVec.ofInt 32 ((a.toInt * b.toInt) / 2 ^ 32)
  | 0x05 => BitVec.ofNat 32 (a.toNat * b.toNat / 2 ^ 32)
  | 0x06 => a &&& b
  | 0x07 => a ||| b
  | 0x08 => a ^^^ b
  | 0x09 => a <<< (b.toNat % 32)
  | 0x0A => a >>> (b.toNat % 32)
  | 0x0B => a.sshiftRight (b.toNat % 32)
  | 0x0C => if a.toInt < b.toInt then a else b
  | 0x0D => if a.toInt < b.toInt then b else a
  | 0x0E => if a.toNat < b.toNat then a else b
  | 0x0F => if a.toNat < b.toNat then b else a
  | _ => b

/-- Outcome of compares 0x20 to 0x25 (R401). -/
def saluCompare (op : Nat) (a b : BitVec 32) : Bool :=
  match op with
  | 0x20 => decide (a = b)
  | 0x21 => decide (a ≠ b)
  | 0x22 => decide (a.toInt < b.toInt)
  | 0x23 => decide (a.toInt ≤ b.toInt)
  | 0x24 => decide (a.toNat < b.toNat)
  | _ => decide (a.toNat ≤ b.toNat)

/-- Predicate operations 0x28 to 0x2B (R401). -/
def saluPred (op : Nat) (a b : BitVec 128) : BitVec 128 :=
  match op with
  | 0x28 => a &&& b
  | 0x29 => a ||| b
  | 0x2A => a ^^^ b
  | _ => ~~~a

/-- A SALU syllable (R401). -/
def saluOp (w : Nat) (x : Ctx) : Res :=
  let op := sOp w
  let k0 := x.k0
  let sd := fld w 18 5
  let sa := fld w 23 5
  if op ≤ 0x10 then .ok { x with k := x.k.setS sd (saluResult op (k0.sreg sa) (saluB x w)) }
  else if op ≤ 0x25 then
    .ok { x with k := x.k.setP (fld w 18 3) (if saluCompare op (k0.sreg sa) (saluB x w) then BitVec.allOnes 128 else 0) }
  else if op ≤ 0x2B then
    .ok { x with k := x.k.setP (fld w 18 3) (saluPred op (k0.preg (fld w 23 3)) (k0.preg (fld w 28 3))) }
  else if op = 0x30 then .ok { x with k := x.k.setS sd ((k0.areg (fld w 23 4)).setWidth 32) }
  else if op = 0x31 then .ok { x with k := x.k.setS sd (k0.regs.fl.setWidth 32) }
  else .ok { x with k := x.k.setS sd ((k0.lcreg (fld w 23 2)).count) }

/-! ### Address generator -/

/-- IMM of an AGEN syllable as an integer: signed 32 bits, or the low 40 bits of slot 14 (R398). -/
def agenImm (x : Ctx) (w : Nat) : Int := if sLI w then (x.li % 2 ^ 40 : Nat) else toSigned (fld w 32 32) 32

/-- An AGEN syllable (R402). -/
def agenOp (w : Nat) (x : Ctx) : Res :=
  let op := sOp w
  let k0 := x.k0
  let aa := k0.areg (fld w 22 4)
  let sb := k0.sreg (fld w 26 5)
  let r : BitVec 40 :=
    if op = 1 then aa + BitVec.ofInt 40 (if bitN w 31 then agenImm x w else sb.toInt)
    else if op = 2 then aa + BitVec.ofInt 40 (sb.toInt * agenImm x w)
    else if op = 3 then BitVec.ofInt 40 (agenImm x w)
    else sb.setWidth 40
  .ok { x with k := x.k.setA (fld w 18 4) r }

/-! ### Scalar load and store -/

/-- Address of an LDST syllable (R403, R398). -/
def ldstAddr (x : Ctx) (w : Nat) : Nat :=
  (x.k0.areg (fld w 23 4) + BitVec.ofInt 40 (if sLI w then toSigned x.li 32 else toSigned (fld w 27 24) 24)).toNat

/-- The value a load writes: zero-extended, or sign-extended with SX (R403). -/
def loadValue (sx : Bool) (n v : Nat) : BitVec 32 := if sx then BitVec.ofInt 32 (toSigned v (8 * n)) else BitVec.ofNat 32 v

/-- An LDST syllable (R403). -/
def ldstOp (w : Nat) (x : Ctx) : Res :=
  let op := sOp w
  let a := ldstAddr x w
  let r := fld w 18 5
  let n := if op ≤ 2 then 2 ^ fld w 51 2 else 64
  require (a % n == 0) causeAlign x fun x =>
  require (inLocal a n) causeAddress x fun x =>
  let x := x.readLocal a n
  let loc := x.k.loc
  if op = 1 then .ok { x with k := x.k.setS r (loadValue (bitN w 53) n (rdLE loc.data a n)) }
  else if op = 2 then
    let x := x.touch a n true
    .ok { x with k := { x.k with loc := loc.putBytes a (leBytes (x.k0.sreg r).toNat n) } }
  else if op = 3 then .ok { x with k := x.k.setS r ((loc.tag (a / 64)).setWidth 32) }
  else
    let x := x.touch a n true
    .ok { x with k := { x.k with loc := loc.putTag (a / 64) ((x.k0.sreg r).setWidth 16) } }

/-! ### Branches and loops -/

/-- Active loops whose end is the bundle at p, innermost first (R371). -/
def endingLoops (k : Core) (p : Nat) : List Nat :=
  let l := ([0, 1, 2, 3] : List Nat).filter (fun i => (k.lcreg i).active && (k.lcreg i).stop == p)
  l.mergeSort (fun i j => decide ((k.lcreg j).start ≤ (k.lcreg i).start))

/-- End a loop. -/
def endLoop (i : Nat) (k : Core) : Core := k.setLc i { k.lcreg i with count := 0, active := false }

/-- Decide the loops that end at a bundle, innermost first: the next index if one repeats (R371). -/
def decideLoops : List Nat → Core → Option Nat × Core
  | [], k => (none, k)
  | i :: t, k =>
    let l := k.lcreg i
    if 1 < l.count.toNat then (some (l.start + 1), k.setLc i { l with count := l.count - 1 }) else decideLoops t (endLoop i k)

/-- An index lies in the body of a loop: start + 1 to its end (R370). -/
def inBody (l : LoopCtr) (t : Nat) : Bool := decide (l.start < t) && decide (t ≤ l.stop)

/-- A branch to t is taken: every active loop whose body does not hold t ends (R371). -/
def leaveLoops (t : Nat) (k : Core) : Core :=
  ([0, 1, 2, 3] : List Nat).foldl (fun k i => if (k.lcreg i).active && !inBody (k.lcreg i) t then endLoop i k else k) k

/-- A branch to index t. -/
def branchTo (t : Nat) (x : Ctx) : Ctx := { x with k := leaveLoops t x.k, target := some t }

/-- A `loop` syllable (R370, R371). -/
def loopOp (w p : Nat) (x : Ctx) : Res :=
  let i := fld w 30 2
  let e := fld w 32 12
  let c := if bitN w 49 then (if sLI w then x.li % 2 ^ 32 else fld w 50 14) else (x.k0.sreg (fld w 44 5)).toNat
  let inner := ([0, 1, 2, 3] : List Nat).all (fun j =>
    !((x.k0.lcreg j).active && inBody (x.k0.lcreg j) p) || decide (e ≤ (x.k0.lcreg j).stop))
  require (!(x.k0.lcreg i).active && decide (p < e) && inner) causeLoop x fun x =>
  let x := { x with k := x.k.setLc i { count := BitVec.ofNat 32 c, start := p, stop := e, active := decide (0 < c) } }
  if c = 0 then .ok (branchTo (e + 1) x) else .ok { x with target := some (p + 1) }

/-- Slot 0 of the bundle at index p, and the loops that end there (R366, R370 to R372, R400). -/
def branchOp (w p : Nat) (acts : Bool) (x : Ctx) : Res :=
  let ends := endingLoops x.k0 p
  if w = 0 || !acts then
    let (t, k) := decideLoops ends x.k
    .ok { x with k := k, target := some (t.getD (p + 1)) }
  else
    require ends.isEmpty causeLoop x fun x =>
    match sOp w with
    | 1 => .ok (branchTo (fld w 18 12) x)
    | 2 =>
      let t := (x.k0.sreg (fld w 44 5)).toNat
      require (decide (t < 4096)) causePcRange x fun x => .ok (branchTo t x)
    | 3 => loopOp w p x
    | _ => .ok { x with k := { x.k with run := .halting }, target := some (p + 1), closes := true }

end Sys2Proof.Machine
end

