-- ==== Sys2Proof/Machine/Dma.lean ====
section
/-! DEFINITION. Machine/Dma.lean: the DMA syllables (10, R376 to R384; 11, R404, R426): the descriptor, its checks, and what a
transfer moves. A transfer on this chip moves its data when its syllable issues and completes at DMA_COMPLETE: between the two
no access of the core can tell, since range tracking holds every conflicting one (R373), and an agent that is not ordered after
it may see either (R546). -/
namespace Sys2Proof.Machine
open Sys2Proof

/-- A DMA descriptor (R377). -/
structure DDesc where
  /-- SRC -/
  src : Nat
  /-- DST -/
  dst : Nat
  /-- ROW_BYTES -/
  rowBytes : Nat
  /-- ROWS -/
  rows : Nat
  /-- PLANES -/
  planes : Nat
  /-- SRC_STRIDE -/
  srcStride : Int
  /-- DST_STRIDE -/
  dstStride : Int
  /-- SRC_PSTRIDE -/
  srcPstride : Int
  /-- DST_PSTRIDE -/
  dstPstride : Int
  /-- KIND -/
  kind : Nat
  /-- RETAIN -/
  retain : Nat
  /-- EVENT -/
  event : Nat
  /-- TAGS -/
  tags : Nat
  /-- TAG_VALUE -/
  tagValue : Nat

/-- Read a descriptor from its line. -/
def DDesc.read (b : List Byte) : DDesc :=
  { src := leAt b 0 8, dst := leAt b 8 8, rowBytes := leAt b 0x10 4, rows := leAt b 0x14 2, planes := leAt b 0x16 2,
    srcStride := toSigned (leAt b 0x18 4) 32, dstStride := toSigned (leAt b 0x1C 4) 32,
    srcPstride := toSigned (leAt b 0x20 4) 32, dstPstride := toSigned (leAt b 0x24 4) 32,
    kind := byteAt b 0x28, retain := byteAt b 0x29, event := byteAt b 0x2A, tags := byteAt b 0x2B, tagValue := leAt b 0x2C 2 }

/-- Bounds of R377 and the reserved bytes; SRC and DST are lines, since lines and their tags travel whole (log 33). -/
def DDesc.bounds (d : DDesc) (b : List Byte) : Bool :=
  decide (d.src < 2 ^ 40) && decide (d.dst < 2 ^ 40) && inRange 64 65536 d.rowBytes && d.rowBytes % 64 == 0 &&
  decide (1 ≤ d.rows) && inRange 1 256 d.planes && d.srcStride % 64 == 0 && d.dstStride % 64 == 0 &&
  d.srcPstride % 64 == 0 && d.dstPstride % 64 == 0 && decide (d.kind ≤ 3) && decide (d.retain ≤ 2) &&
  (decide (d.event ≤ 15) || d.event == 0xFF) && decide (d.tags ≤ 1) && zeroAt b 0x2E 18 &&
  (d.kind == 2 || d.src % 64 == 0) && d.dst % 64 == 0

/-- The rows of a transfer, plane by plane: source and destination address of each (R377). -/
def DDesc.rowList (d : DDesc) : List (Int × Int) :=
  (List.range d.planes).flatMap (fun (q : Nat) => (List.range d.rows).map (fun (r : Nat) =>
    ((d.src : Int) + (r : Int) * d.srcStride + (q : Int) * d.srcPstride,
     (d.dst : Int) + (r : Int) * d.dstStride + (q : Int) * d.dstPstride)))

/-- A row lies in local memory. -/
def rowLocal (n : Nat) (a : Int) : Bool := decide (0 ≤ a) && inLocal a.toNat n

/-- A row lies in the Harbour that `base` names (R378). -/
def rowHarbour (base n : Nat) (a : Int) : Bool :=
  decide (0 ≤ a) && (match harbourAddr a.toNat n with
    | some (f, _) => f == base / 2 ^ 36
    | none => false)

/-- A row lies in instruction memory. -/
def rowImem (n : Nat) (a : Int) : Bool := decide (0x500000 ≤ a) && decide (a + n ≤ 0x580000)

/-- Fields and ends by KIND (R378). -/
def DDesc.kindOk (d : DDesc) (slot : Nat) : Bool :=
  let rs := d.rowList
  match d.kind with
  | 0 => slot == 6 && rs.all (fun r => rowHarbour d.src d.rowBytes r.1 && rowLocal d.rowBytes r.2)
  | 1 => slot == 7 && rs.all (fun r => rowLocal d.rowBytes r.1 && rowHarbour d.dst d.rowBytes r.2)
  | 2 =>
    slot == 6 && d.rowBytes == 3968 && d.rows == 1 && d.planes == 1 && d.tags == 0 && d.retain == 0 &&
    decide (d.src < 8192) && decide (d.dst < 2 ^ 36) && rowHarbour d.dst 3968 d.dst
  | _ =>
    slot == 6 && d.rowBytes % 128 == 0 && d.dst % 128 == 0 && d.tags == 0 && d.retain == 0 && decide (d.src < 2 ^ 36) &&
    rs.all (fun r => rowHarbour d.src d.rowBytes r.1 && rowImem d.rowBytes r.2)

/-- The source rows of an IMEM transfer lie inside one placed PROGRAM record of the watch (R426). -/
def DDesc.ordered (d : DDesc) (s : State) (w : Watch) : Bool :=
  (s.programs w.entry).any (fun p => d.rowList.all (fun r =>
    decide ((0x40000000 + p.load : Nat) ≤ r.1) && decide (r.1 + d.rowBytes ≤ (0x40000000 + p.load + p.placed : Nat))))

/-- The chip that an address's chip field names: none for this chip (R552). -/
def State.chipNamed (s : State) (f : Nat) : Option Nat :=
  if f = 0 then none else if f = s.myChip then some 0 else some f

/-- The chip is outside the chain, or this chip has no number (R553). -/
def State.unroutable (s : State) (chip : Nat) : Bool := s.cw.chip.isNone || decide (s.cw.chainLen ≤ chip)

/-- The port toward a chip is in partial reset, so a request through it completes at once with UNIT_RESET (R168). -/
def State.portRefuses (s : State) (chip : Nat) : Bool := decide (ResetUnit.port (s.portToward chip) ∈ s.sys.resetting)

/-- The address of the Harbour end of a transfer. -/
def DDesc.hbrBase (d : DDesc) : Nat := if d.kind = 0 || d.kind = 3 then d.src else d.dst

/-- The Harbour rows of a transfer: every burst of them lies in the window (R68, R69). -/
def DDesc.inWindow (d : DDesc) (w : Watch) : Bool :=
  if d.kind = 2 then w.inWindow (hbrOffset d.dst) 3968
  else d.rowList.all (fun r => w.inWindow (hbrOffset (if d.kind = 1 then r.2 else r.1).toNat) d.rowBytes)

/-- A range over rows at one end. -/
def spanOf (n : Nat) (as : List Int) (write : Bool) : Range :=
  let lo := (as.foldl min (as.headD 0)).toNat
  let hi := (as.foldl max (as.headD 0)).toNat + n
  ⟨lo / 64, (hi - 1) / 64, write⟩

/-- Both tracked ranges of a transfer (R373, R375). -/
def DDesc.ranges (d : DDesc) : List Range :=
  if d.kind = 2 then [⟨d.dst / 64, (d.dst + 3967) / 64, true⟩]
  else [spanOf d.rowBytes (d.rowList.map (·.1)) false, spanOf d.rowBytes (d.rowList.map (·.2)) true]

/-- Record a range in the context. -/
def Ctx.touchRange (x : Ctx) (r : Range) : Ctx := x.touch (64 * r.lo) (64 * (r.hi - r.lo) + 64) r.write

/-- Source and destination line addresses of a transfer, in row order. -/
def DDesc.lineList (d : DDesc) : List (Nat × Nat) :=
  d.rowList.flatMap (fun r => (List.range (d.rowBytes / 64)).map (fun i => (r.1.toNat + 64 * i, r.2.toNat + 64 * i)))

/-- The tag that a destination line takes (R377). -/
def DDesc.tagOf (d : DDesc) (t : BitVec 16) : BitVec 16 := if d.tags = 1 then BitVec.ofNat 16 d.tagValue else t

/-- What moving lines has come to: the context, and the first poisoned line met. -/
structure Moved where
  /-- the context -/
  x : Ctx
  /-- first poisoned line read -/
  bad : Option (ErrorSource × Nat) := none

/-- Entry of the retain buffer for a Harbour line address, where its line has come (R382). -/
def Core.retained (k : Core) (line : Nat) : Option (List Byte × BitVec 16) :=
  (k.retain.find? (fun e => e.1 == line && !e.2.1.isEmpty)).map (·.2)

/-- An earlier COPY_IN has taken an entry for the line, which has still to come from another chip (R384). -/
def Core.awaits (k : Core) (line : Nat) : Bool := k.retain.any (fun e => e.1 == line && e.2.1.isEmpty)

/-- Place a line in a free entry of the retain buffer, if there is one (R382, R384). -/
def retainLine (line : Nat) (d : List Byte × BitVec 16) (k : Core) : Core :=
  if k.retain.length < 1024 then { k with retain := k.retain ++ [(line, d)] } else k

/-- Take an entry for a line that has still to come, in program order, if one is free and the line has none (R384). -/
def reserveLine (line : Nat) (k : Core) : Core :=
  if (k.retained line).isSome || k.awaits line then k else retainLine line ([], 0) k

/-- The line of a reserved entry has come. -/
def fillLine (line : Nat) (d : List Byte × BitVec 16) (k : Core) : Core :=
  { k with retain := k.retain.map (fun e => if e.1 = line && e.2.1.isEmpty then (line, d) else e) }

/-- Free the entry of a line. -/
def freeLine (line : Nat) (k : Core) : Core := { k with retain := k.retain.filter (fun e => e.1 ≠ line) }

/-- Write a line of local memory. -/
def putLocal (a : Nat) (d : List Byte × BitVec 16) (k : Core) : Core := { k with loc := k.loc.putLine (a / 64) d.1 d.2 }

/-- Move one line of a COPY_IN: from the retain buffer where it holds it, else from the local Harbour (R382). A poisoned line
does not move (log 34). -/
def copyInLine (d : DDesc) (m : Moved) (l : Nat × Nat) : Moved :=
  let line := l.1 / 64
  match m.x.k.retained line with
  | some (b, t) =>
    let k := putLocal l.2 (b, d.tagOf t) m.x.k
    { m with x := { m.x with k := if d.retain = 2 then freeLine line k else k } }
  | none =>
    let h := hbrOffset l.1 / 64
    if m.x.s.harbour.poisoned h then { m with bad := m.bad.or (some (.harbour, h)) }
    else
      let v := (m.x.s.harbour.line h, m.x.s.harbour.tag h)
      let k := putLocal l.2 (v.1, d.tagOf v.2) m.x.k
      { m with x := { m.x with s := m.x.s.visit (64 * h) 64, k := if d.retain = 1 then retainLine line v k else k } }

/-- Lines of the core's retain buffer follow its own COPY_OUT (R382). -/
def updateRetained (line : Nat) (d : List Byte × BitVec 16) (k : Core) : Core :=
  { k with retain := k.retain.map (fun e => if e.1 = line then (line, d) else e) }

/-- Move one line of a COPY_OUT to the local Harbour (R382). -/
def copyOutLine (d : DDesc) (m : Moved) (l : Nat × Nat) : Moved :=
  let a := l.1 / 64
  if m.x.k.loc.poisoned a then { m with bad := m.bad.or (some (if a < 0x10000 then .scratch else .weights, a)) }
  else
    let v := (m.x.k.loc.line a, d.tagOf (m.x.k.loc.tag a))
    let x := m.x.correctLocal (64 * a) 64
    { m with x := { x with s := x.s.putHbrLines (hbrOffset l.2 / 64) [v], k := updateRetained (l.2 / 64) v x.k } }

/-- Move one line of an IMEM transfer; tags are discarded (R378). -/
def imemLine (m : Moved) (l : Nat × Nat) : Moved :=
  let h := hbrOffset l.1 / 64
  if m.x.s.harbour.poisoned h then { m with bad := m.bad.or (some (.harbour, h)) }
  else
    let k := { m.x.k with imem := wrBytes m.x.k.imem (l.2 - 0x500000) (m.x.s.harbour.line h) }
    { m with x := { m.x with s := m.x.s.visit (64 * h) 64, k := k } }

/-- The runs of an IMEM transfer, consecutive rows that follow on at both ends merged: source, first index and count of each. -/
def imemRuns (n : Nat) : List (Int × Int) → List (Nat × Nat × Nat) → List (Nat × Nat × Nat)
  | [], acc => acc.reverse
  | (a, b) :: t, acc =>
    let src := hbrOffset a.toNat
    let first := (b.toNat - 0x500000) / 128
    match acc with
    | l :: r =>
      if l.1 + 128 * l.2.2 = src && l.2.1 + l.2.2 = first then imemRuns n t ((l.1, l.2.1, l.2.2 + n / 128) :: r)
      else imemRuns n t ((src, first, n / 128) :: l :: r)
    | [] => imemRuns n t [(src, first, n / 128)]

/-- The one load-log entry of an IMEM transfer: its first run, and the others behind it (R389, log 35). -/
def imemLoad (n : Nat) (rows : List (Int × Int)) : LoadLog :=
  match imemRuns n rows [] with
  | r :: t => { src := r.1, first := r.2.1, count := r.2.2, rest := t }
  | [] => {}

/-! ### Remote transfers (17) -/

/-- Split a run of line addresses into bursts that stay in one 512-byte block (R379). -/
def burstsOf (start n : Nat) : Nat → List (Nat × Nat)
  | 0 => []
  | fuel + 1 =>
    if n = 0 then []
    else
      let m := min n ((512 - start % 512) / 64)
      (start, m) :: burstsOf (start + 64 * m) (n - m) fuel

/-- Bytes of a line in a payload: data, then tag (R560). -/
def payloadLine (d : List Byte × BitVec 16) : List Byte := d.1 ++ leBytes d.2.toNat 2

/-- Send one write burst: one or two WR packets under one TXN (R560, R562). -/
def sendBurst (c : Fin 4) (watch chip off : Nat) (ls : List (List Byte × BitVec 16)) (s : State) : RemoteReq × State :=
  let (t, s) := takeTxn c s
  let pk := fun (first last : Bool) (o : Nat) (ls : List (List Byte × BitVec 16)) =>
    ({ type := 1, first := first, last := last, dest := chip, src := s.myChip, core := c.val, lines := ls.length,
       watch := watch, arg := o, txn := t, payload := ls.flatMap payloadLine } : Packet)
  let s1 := if ls.length ≤ 4 then sendPacket (pk true true off ls) s
    else sendPacket (pk false true (off + 256) (ls.drop 4)) (sendPacket (pk true false off (ls.take 4)) s)
  ({ txn := t }, s1)

/-- Send one read of n lines, at most 8, from the 40-bit address a (R560, R562). -/
def sendRead (c : Fin 4) (watch chip a loc n : Nat) (s : State) : RemoteReq × State :=
  let (t, s) := takeTxn c s
  let off := hbrOffset a
  ({ txn := t, off := off, loc := loc, lines := n, line := a / 64 },
   sendPacket { type := 3, dest := chip, src := s.myChip, core := c.val, lines := n, watch := watch, arg := off, txn := t } s)

/-- Runs of lines of a row that the retain buffer does not hold: first line's index in the row and count. -/
def missingRuns (k : Core) (line : Nat) : Nat → Nat → Option (Nat × Nat) → List (Nat × Nat)
  | 0, _, run => run.toList
  | n + 1, i, run =>
    if (k.retained (line + i)).isSome then run.toList ++ missingRuns k line n (i + 1) none
    else missingRuns k line n (i + 1) (some (match run with
      | some (a, m) => (a, m + 1)
      | none => (i, 1)))

/-- A remote COPY_IN: retained lines move at once, the others are asked for, burst by burst (R379, R382, R562), and with RETAIN 1
each takes its entry now (R384). The bundle waits for a line for which an earlier transfer has taken an entry. -/
def remoteIn (d : DDesc) (c : Fin 4) (w : Watch) (chip : Nat) (x : Ctx) : List RemoteReq × Ctx :=
  let x := if d.lineList.any (fun l => x.k.awaits (l.1 / 64)) then { x with stall := true } else x
  d.rowList.foldl (fun (acc : List RemoteReq × Ctx) r =>
    let src := r.1.toNat
    let dst := r.2.toNat
    let n := d.rowBytes / 64
    let k := acc.2.k
    let bursts := (missingRuns k (src / 64) n 0 none).flatMap (fun q => burstsOf (src + 64 * q.1) q.2 q.2)
    let x1 := bursts.foldl (fun (a : List RemoteReq × Ctx) b =>
      let (q, s) := sendRead c w.entry.num chip b.1 (dst + (b.1 - src)) b.2 a.2.s
      (a.1 ++ [q], { a.2 with s := s })) acc
    let k1 := (List.range n).foldl (fun k i =>
      match k.retained (src / 64 + i) with
      | some (b, t) =>
        let k := putLocal (dst + 64 * i) (b, d.tagOf t) k
        if d.retain = 2 then freeLine (src / 64 + i) k else k
      | none => if d.retain = 1 then reserveLine (src / 64 + i) k else k) k
    (x1.1, { x1.2 with k := k1 })) ([], x)

/-- A remote COPY_OUT: its bursts are sent in order (R379, R536, R562). -/
def remoteOut (d : DDesc) (c : Fin 4) (w : Watch) (chip : Nat) (x : Ctx) : List RemoteReq × Moved :=
  d.rowList.foldl (fun (acc : List RemoteReq × Moved) r =>
    let src := r.1.toNat
    let dst := r.2.toNat
    (burstsOf dst (d.rowBytes / 64) (d.rowBytes / 64)).foldl (fun (a : List RemoteReq × Moved) b =>
      let k := a.2.x.k
      let la := (src + (b.1 - dst)) / 64
      let ls := (List.range b.2).map (fun i => (k.loc.line (la + i), d.tagOf (k.loc.tag (la + i))))
      match (List.range b.2).find? (fun i => k.loc.poisoned (la + i)) with
      | some i => (a.1, { a.2 with bad := a.2.bad.or (some (if la < 0x10000 then .scratch else .weights, la + i)) })
      | none =>
        let a := (a.1, { a.2 with x := a.2.x.correctLocal (64 * la) (64 * b.2) })
        let k := a.2.x.k
        let (q, s) := sendBurst c w.entry.num chip (hbrOffset b.1) ls a.2.x.s
        let k := (ls.zipIdx).foldl (fun k v => updateRetained (b.1 / 64 + v.2) v.1 k) k
        (a.1 ++ [q], { a.2 with x := { a.2.x with s := s, k := k } })) acc) ([], { x := x })

/-- Note a chip as written by the core (R575). -/
def noteWritten (chip epoch : Nat) (k : Core) : Core :=
  if k.written.any (fun e => e.1 == chip) then k else { k with written := k.written ++ [(chip, epoch)] }

/-- The transfer starts (R376 to R384): its data move, or its packets go, and it is outstanding until it completes. -/
def startDma (d : DDesc) (slot p : Nat) (w : Watch) (x : Ctx) : Ctx :=
  let chip := if d.kind ≤ 1 then x.s.chipNamed (d.hbrBase / 2 ^ 36) else none
  let x := d.ranges.foldl Ctx.touchRange x
  let base : Pend := { slot := slot, ranges := d.ranges, event := if d.event = 0xFF then none else some d.event, pc := p,
                       chip := chip, retain := d.retain,
                       setTag := if d.tags = 1 then some (BitVec.ofNat 16 d.tagValue) else none }
  let x := x.metered (fun m => { m with line := m.line + d.rows * d.planes * (d.rowBytes / 64) })
  match d.kind, chip with
  | 0, none =>
    let m := d.lineList.foldl (copyInLine d) { x := x }
    { m.x with fresh := m.x.fresh ++ [{ base with poison := m.bad }] }
  | 1, none =>
    let m := d.lineList.foldl (copyOutLine d) { x := x }
    { m.x with fresh := m.x.fresh ++ [{ base with poison := m.bad }] }
  | 0, some ch =>
    let (rs, y) := remoteIn d x.c w ch x
    { y with fresh := y.fresh ++ [{ base with reqs := rs }] }
  | 1, some ch =>
    let (rs, m) := remoteOut d x.c w ch x
    let y := { m.x with k := noteWritten ch (x.s.port (x.s.portToward ch)).epoch m.x.k }
    { y with fresh := y.fresh ++ [{ base with reqs := rs, poison := m.bad }] }
  | 2, _ =>
    { x with s := { x.s with image := { x.s.image with streamIssued := x.s.image.streamIssued + 1 } },
             fresh := x.fresh ++ [{ base with stream := some (d.src, hbrOffset d.dst), order := x.s.image.streamIssued }] }
  | _, _ =>
    let m := d.lineList.foldl imemLine { x := x }
    let k := logLoad (imemLoad d.rowBytes d.rowList) m.x.k
    { m.x with k := k, fresh := m.x.fresh ++ [{ base with poison := m.bad }] }

/-- Streamed blocks that the watch may fetch: BLOCK_COUNT of its STREAM_INDEX, 0 without one (R248). -/
def State.blockCount (s : State) (w : Watch) : Nat :=
  if w.entry.streamRec = 0xFFFF then 0
  else match s.record? 10 w.entry.streamRec with
    | some r => leAt r.body 0 4
    | none => 0

/-- A DMA syllable of slot 6 or 7 in the bundle at index p (R376 to R380, R404, R426). -/
def dmaOp (slot w p : Nat) (x : Ctx) : Res :=
  let a := (x.k0.areg (fld w 18 4) + BitVec.ofNat 40 (64 * fld w 22 8)).toNat
  require (a % 64 == 0) causeAlign x fun x =>
  require (inLocal a 64) causeAddress x fun x =>
  let x := x.readLocal a 64
  let b := rdBytes x.k.loc.data a 64
  let d := DDesc.read b
  match x.s.springWatch with
  | none => .ok x
  | some wt =>
    require (d.bounds b && d.kindOk slot) causeDmaDesc x fun x =>
    require (!(d.kind == 3 && wt.flag 7) || d.ordered x.s wt) causeDmaDesc x fun x =>
    require (d.kind != 2 || decide (d.src < x.s.blockCount wt)) causeStream x fun x =>
    require (d.inWindow wt) causeWindow x fun x =>
    require (match x.s.chipNamed (if d.kind ≤ 1 then d.hbrBase / 2 ^ 36 else 0) with
      | some ch => !x.s.unroutable ch
      | none => true) causeUnroutable x fun x =>
    require (match x.s.chipNamed (if d.kind ≤ 1 then d.hbrBase / 2 ^ 36 else 0) with
      | some ch => !x.s.portRefuses ch
      | none => true) causeUnit x fun x =>
    let x := if 16 ≤ (x.k0.pend.filter (fun q => q.slot == slot)).length then { x with stall := true } else x
    .ok (startDma d slot p wt x)

end Sys2Proof.Machine
end

