-- ==== Sys2Proof/Machine/Sync.lean ====
section
/-! DEFINITION. Machine/Sync.lean: the SYNC class of slot 13 (11, R419 to R423; 16, R537 to R543; 10, R386). -/
namespace Sys2Proof.Machine
open Sys2Proof

/-- The 16-bit immediate: IMM16, or the low 16 bits of slot 14 (R398, R419). -/
def syncImm (x : Ctx) (w : Nat) : Nat := if sLI w then x.li % 65536 else fld w 48 16

/-- The s register that takes the status, with CHECK (R420). -/
def syncSt (w : Nat) : Option Nat := if bitN w 43 then some (fld w 32 5) else none

/-- Set the wait that holds later bundles. -/
def Ctx.waits (x : Ctx) (w : Wait) : Ctx := { x with k := { x.k with wait := some w, waitTick := x.s.sys.tick } }

/-- A status given when the syllable issues: to s[ST] under CHECK, else the exception of the status (R392, R420). -/
def Ctx.status (x : Ctx) (w code cause : Nat) : Res :=
  match syncSt w with
  | some r => .ok { x with k := x.k.setS r (BitVec.ofNat 32 code) }
  | none => .error (cause, x)

/-- The bundle waits while a chip is in doubt for the core (R544). -/
def Ctx.doubt (x : Ctx) (chip : Nat) : Ctx := if x.s.inDoubt x.c chip then { x with stall := true } else x

/-- The outstanding operations of slot 13 fill their entries (R375). -/
def Ctx.full (x : Ctx) : Ctx :=
  if 8 ≤ (x.k0.pend.filter (fun q => q.slot == 13)).length then { x with stall := true } else x

/-- A word access on this chip: it is outstanding until it is performed (R374, R419). -/
def localWord (op w p a : Nat) (x : Ctx) : Ctx :=
  let x := x.full.touch a 4 (op ≠ 3)
  let sb := fld w 27 5
  let nr := op = 4 || (5 ≤ op && bitN w 45)
  { x with fresh := x.fresh ++ [{ slot := 13, op := op, addr := a, val := x.k0.sreg sb, val2 := x.k0.sreg (sb + 1),
                                  sd := if nr then none else some (fld w 22 5), st := syncSt w, pc := p,
                                  ranges := [⟨a / 64, a / 64, decide (op ≠ 3)⟩] }] }

/-- A word read or write on another chip: its packet is sent (R419, R560, R575). -/
def remoteWord (op w p a chip : Nat) (wt : Watch) (x : Ctx) : Ctx :=
  let x := x.full.touch a 4 (op ≠ 3)
  let (t, s) := takeTxn x.c x.s
  let v := x.k0.sreg (fld w 27 5)
  let s := sendPacket { type := if op = 3 then 4 else 2, dest := chip, src := s.myChip, core := x.c.val, watch := wt.entry.num,
                        arg := hbrOffset a, txn := t, payload := if op = 3 then [] else leBytes v.toNat 4 } s
  let k := if op = 4 then noteWritten chip (s.port (s.portToward chip)).epoch x.k else x.k
  { x with s := s, k := k,
           fresh := x.fresh ++ [{ slot := 13, op := op, addr := a, val := v, sd := if op = 3 then some (fld w 22 5) else none,
                                  st := syncSt w, pc := p, chip := some chip, reqs := [{ txn := t }],
                                  ranges := [⟨a / 64, a / 64, decide (op ≠ 3)⟩] }] }

/-- `ldw`, `stw` and atomics (R419, R420, R553, R575). An EPOCH_LOST is reported once the chip has left
doubt (R544). An access that its chip field alone refuses is refused before the window is looked at: DEDUCED, log 48. -/
def wordOp (w p : Nat) (wt : Watch) (x : Ctx) : Res :=
  let op := sOp w
  let a := (x.k0.areg (fld w 18 4) + BitVec.ofNat 40 (4 * syncImm x w)).toNat
  require (a % 4 == 0) causeAlign x fun x =>
  require (harbourAddr a 4).isSome causeAddress x fun x =>
  match x.s.chipNamed (a / 2 ^ 36) with
  | none => require (wt.inWindow (hbrOffset a) 4) causeWindow x fun x => .ok (localWord op w p a x)
  | some ch =>
    if x.s.unroutable ch then
      if 5 ≤ op && (syncSt w).isSome then
        Ctx.status { x with s := { x.s with cw := { x.s.cw with unroutable := satAdd x.s.cw.unroutable 1 0xFF } } } w 1
          causeUnroutable
      else .error (causeUnroutable, x)
    else if 5 ≤ op then x.status w 1 causeRemoteAtomic
    else require (wt.inWindow (hbrOffset a) 4) causeWindow x fun x =>
    if x.s.portRefuses ch then .error (causeUnit, x)
    else if x.k0.tainted.contains ch then (x.doubt ch).status w 2 causeUnit
    else .ok (remoteWord op w p a ch wt x)

/-- `acq` (R419, R537, R538, R575). -/
def acqOp (w : Nat) (x : Ctx) : Res :=
  let scope := fld w 41 2
  let n := (x.k0.sreg (fld w 27 5)).toNat
  let a := (x.k0.areg (fld w 18 4)).toNat
  let lo := a / 64
  let hi := (a + n - 1) / 64
  require (n == 0 || (harbourAddr (64 * lo) (64 * (hi - lo + 1))).isSome) causeAddress x fun x =>
  let chip := if n = 0 then none else x.s.chipNamed (a / 2 ^ 36)
  if scope = 2 && (match chip with
      | some ch => x.k0.tainted.contains ch
      | none => false) then (x.doubt (chip.getD 0)).status w 2 causeUnit
  else .ok (x.waits (.acq scope (if n = 0 then 1 else lo) (if n = 0 then 0 else hi) (syncSt w)))

/-- `head` (R349, R422, R539): the request joins the Stem engine's queue once every earlier word write and stream fetch is performed
and the engine holds fewer than four requests; until then the bundle waits. While the Stem engine is in partial reset the request
completes at once with UNIT_RESET (R168, R391). -/
def headOp (w : Nat) (wt : Watch) (x : Ctx) : Res :=
  let a := (x.k0.areg (fld w 18 4) + BitVec.ofNat 40 (64 * syncImm x w)).toNat
  require (a % 64 == 0) causeAlign x fun x =>
  require (decide (a < 2 ^ 36) && (harbourAddr a 64).isSome) causeAddress x fun x =>
  require (wt.inWindow (hbrOffset a) 64) causeWindow x fun x =>
  require (!decide (ResetUnit.stem ∈ x.s.sys.resetting)) causeUnit x fun x =>
  let x := if 4 ≤ x.k0.heads || 4 ≤ x.s.heldHeads || x.k0.pend.any (fun p => (p.localWord && p.op != 3) || p.stream.isSome) then
      { x with stall := true } else x
  let req : StemReq := { watch := wt.entry.num, kind := .head (some x.c.val) (hbrOffset a) (fld w 37 4) }
  .ok { x with s := { x.s with stem := { x.s.stem with queue := x.s.stem.queue ++ [req] } },
               k := { x.k with heads := x.k.heads + 1 }, closes := true }

/-- `ckpt` (R386, R387): the core passes its next point, and stops there if a checkpoint has started with it. -/
def ckptOp (w : Nat) (wt : Watch) (x : Ctx) : Res :=
  let n := if bitN w 44 then syncImm x w else (x.k0.sreg (fld w 27 5)).toNat % 65536
  require (n != 0 && n == x.k0.point + 1) causeCkptOrder x fun x =>
  let stops := (wt.job.bind (fun j => j.ckpt)) = some n
  .ok { x with k := { x.k with point := n, run := if stops && x.k.run = .running then .stopped else x.k.run } }

/-- `epub` and `ewait` (R423, R553, R575, R578). -/
def epochOp (w : Nat) (wt : Watch) (x : Ctx) : Res :=
  let chip := (x.k0.sreg (fld w 27 5)).toNat % 16
  let n := syncImm x w
  if sOp w = 0xD then
    if chip ≠ x.s.myChip && x.s.unroutable chip then .error (causeUnroutable, x)
    else if chip ≠ x.s.myChip && x.s.portRefuses chip then .error (causeUnit, x)
    else if x.k0.tainted.contains chip then ({ x.doubt chip with closes := true } : Ctx).status w 2 causeUnit
    else .ok (x.full.waits (.publish chip n (syncSt w)))
  else
    require (x.s.marker? wt.entry.num chip).isSome causeRemoteRefused x fun x =>
    if x.k0.tainted.contains chip then (x.doubt chip).status w 2 causeUnit
    else .ok (x.waits (.epoch chip n (syncSt w)))

/-- A SYNC syllable in the bundle at index p (R419). -/
def syncOp (w p : Nat) (x : Ctx) : Res :=
  match x.s.springWatch with
  | none => .ok x
  | some wt =>
    match sOp w with
    | 1 => .ok (x.waits (.fence (fld w 41 2) (syncSt w)))
    | 2 => acqOp w x
    | 0xA => .ok (x.waits (.event (fld w 37 4) (if bitN w 44 then syncImm x w else (x.k0.sreg (fld w 27 5)).toNat)))
    | 0xB => headOp w wt x
    | 0xC => ckptOp w wt x
    | 0xD => epochOp w wt x
    | 0xE => epochOp w wt x
    | _ => wordOp w p wt x

end Sys2Proof.Machine
end

