-- ==== Sys2Proof/Machine/Bundle.lean ====
section
/-! DEFINITION. Machine/Bundle.lean: the issue of a bundle (10, R353 to R357, R366, R367, R372, R375; 11, R394 to R399) and the
command BUNDLE_ISSUE. -/
namespace Sys2Proof.Machine
open Sys2Proof

/-! ### What makes a bundle ILLEGAL (R353, R354, R356, R357, R399) -/

/-- A pair of slots at which two syllables, or one syllable twice, write one register: the lower slot (R356). -/
def doubleWrite : List (Nat × Nat × Nat) → Option Nat
  | [] => none
  | (s, r) :: t => if t.any (fun q => q.2 == r) then some s else doubleWrite t

/-- The lower of two slots, where there are any. -/
def lower : Option Nat → Option Nat → Option Nat
  | some a, some b => some (min a b)
  | a, b => a.or b

/-- Lowest slot that makes the bundle ILLEGAL, none for a legal bundle. `l` holds syllables 0 to 15. -/
def illegalSlot (l : List Nat) : Option Nat :=
  let syl := fun i => l.getD i 0
  let enc := (List.range 14).find? (fun i => !sylLegal i (syl i))
  let writes := ((List.range 14).filter (fun i => sylLegal i (syl i))).flatMap (fun i => (sylWrites (syl i)).map (fun r => (i, r)))
  let dbl := doubleWrite writes
  let uses := (List.range 14).any (fun i => syl i != 0 && sLI (syl i))
  let imm := if syl 14 != 0 && !uses then some 14 else none
  let res := if syl 15 != 0 then some 15 else none
  ((lower enc dbl).or imm).or res

/-! ### Slots -/

/-- The syllable of a slot acts (R396, R397). -/
def slotActs (k : Core) (l : List Nat) (i : Nat) : Bool := l.getD i 0 != 0 && sylActs k (l.getD i 0)

/-- One slot of the bundle at index p (R356). Slot 0 also decides the loops that end here; a slot that has acted already does
not act again. -/
def runSlot (l : List Nat) (p i : Nat) (x : Ctx) : Res :=
  let w := l.getD i 0
  let acts := slotActs x.k0 l i
  if i = 0 then branchOp w p acts x
  else if !acts then .ok x
  else if x.k0.early.contains i then .ok x
  else
    match sClass w with
    | 2 => saluOp w x
    | 3 => agenOp w x
    | 4 => ldstOp w x
    | 5 => dmaOp 6 w p x
    | 6 => dmaOp 7 w p x
    | 7 => if sOp w = 1 then tensorOp false w x else if sOp w = 2 then tensorOp true w x else aclrOp w x
    | 8 => vectorOp w x
    | 9 => rescaleOp (sOp w == 2) w x
    | 10 => if sOp w = 1 then poolOp false w x else if sOp w = 2 then poolOp true w x else cropOp w x
    | _ => syncOp w p x

/-- Slots in order. -/
def runSlots (l : List Nat) (p : Nat) : List Nat → Ctx → Except (Nat × Nat × Ctx) Ctx
  | [], x => .ok x
  | i :: t, x =>
    match runSlot l p i { x with slot := i } with
    | .ok y => runSlots l p t y
    | .error (c, y) => .error (c, i, y)

/-- The s registers that outstanding word accesses will write (R367). -/
def owedRegs (k : Core) : List Nat := k.pend.flatMap (fun p => p.sd.toList ++ p.st.toList)

/-- The bundle waits for a register or for its own place in instruction memory (R366, R367, R397). -/
def operandStall (k : Core) (l : List Nat) (p : Nat) : Bool :=
  let owed := owedRegs k
  (List.range 14).any (fun i => slotActs k l i && (sylSRefs (l.getD i 0)).any (fun r => owed.contains r)) ||
  k.pend.any (fun q => q.conflicts ⟨(0x500000 + 128 * p) / 64, (0x500000 + 128 * p) / 64 + 1, false⟩)

/-! ### Issue -/

/-- The bundle has issued: the core takes its effects, its new operations are outstanding, the next bundle is chosen, and a
checkpoint point passed opens the window (R356, R373, R386, R608). -/
def commitBundle (p : Nat) (x : Ctx) : State :=
  let k := x.k
  let k := { k with regs := { k.regs with pc := BitVec.ofNat 13 (x.target.getD (p + 1)) }, pend := x.k0.pend ++ x.fresh,
                    lastPc := p, early := [], before := none }
  let k := if x.closes then closeWindow k else k
  let k := if k.point ≠ x.k0.point then openWindow k else k
  let s := x.s.setCore x.c k
  settle x.c (match x.bad with
    | some (src, line, i) => takeError x.c src line i p s
    | none => s)

/-- Slots 5 to 7 of the bundle below slot j, which waits for a transfer of theirs: they act now, and the rest of the bundle issues
when the transfer has completed (R355, R356, R373). Registers keep the values that the bundle found. -/
def startPart (l : List Nat) (p j : Nat) (x : Ctx) : State :=
  match runSlots l p (([5, 6, 7] : List Nat).filter (fun i => decide (i < j))) x with
  | .ok y =>
    let k := { y.k with pend := x.k0.pend ++ y.fresh, before := some (x.k0.before.getD x.k0.regs),
                        early := x.k0.early ++ ([5, 6, 7] : List Nat).filter (fun i => decide (i < j) && slotActs x.k0 l i &&
                          !x.k0.early.contains i) }
    let s := y.s.setCore x.c k
    settle x.c (match y.bad with
      | some (src, line, i) => takeError x.c src line i p s
      | none => s)
  | .error _ => x.s

/-- The context in which a bundle starts: registers as they stood before it (R356). -/
def startCtx (c : Fin 4) (l : List Nat) (s : State) : Ctx :=
  let k := s.core c
  { s := s, c := c, k := k, k0 := { k with regs := k.before.getD k.regs }, li := l.getD 14 0 }

/-- Issue the bundle of syllables `l` on core c (R355): nothing while the core does not run, while a wait or a replay holds it or
while the bundle waits for an operand, a range or a token; an exception if a syllable raises one (R391); else its effects. A slot
that conflicts with a transfer of its own bundle waits for it (R356); an exception of a later slot, unless it may rest on what the
transfer has still to bring, is raised before anything of the bundle has acted. -/
def issue (c : Fin 4) (l : List Nat) (s : State) : State :=
  let k := s.core c
  let p := k.regs.pc.toNat
  if k.run ≠ .running || k.wait.isSome || k.replaying then s
  else if 4096 ≤ p then coreException c causePcRange 0 p s
  else
    match illegalSlot l with
    | some i => coreException c causeIllegal i p s
    | none =>
      if operandStall k l p then s
      else
        let x := startCtx c l s
        match runSlots l p (List.range 14) x with
        | .ok y =>
          if y.stall then s
          else match y.hold with
            | some j => startPart l p j x
            | none => commitBundle p y
        | .error (cause, i, y) =>
          if y.stall then s else if y.blind then startPart l p (y.hold.getD i) x else coreException c cause i p s

/-- The sixteen syllables of the bundle at index p of instruction memory (R353). -/
def fetched (k : Core) (p : Nat) : List Nat := (List.range 16).map (fun i => rdLE k.imem (128 * p + 8 * i) 8)

/-- The fetch of bundle p: a single-bit error in it is corrected and counted (R602). -/
def fetch (c : Fin 4) (p : Nat) (s : State) : State :=
  if (s.core c).imemUpset.contains p then
    { s.modCore c (fun k => { k with imemUpset := k.imemUpset.filter (fun i => i ≠ p) }) with
      err := { s.err with eccCore := satAdd s.err.eccCore 1 0xFF } }
  else s

/-- BUNDLE_ISSUE: the bundle at the core's PC issues (R355). -/
def bundleIssue (c : Fin 4) (s : State) : State :=
  let p := (s.core c).regs.pc.toNat
  issue c (fetched (s.core c) p) (fetch c p s)

/-- A bundle that holds one syllable, in slot i, and slot 14. -/
def oneSyllable (i w : Nat) (imm : BitVec 64) : List Nat := ((List.replicate 16 0).set i w).set 14 imm.toNat

/-- Issue a bundle that holds only the syllable of a row: its CLASS and OP are the row's (R394, R395). -/
def issueOne (c : Fin 4) (slot cls op : Nat) (w imm : BitVec 64) (s : State) : State :=
  issue c (oneSyllable slot (sylWord cls op w) imm) s

/-- Issue a bundle that holds only a SYNC syllable whose SCOPE is the row's. -/
def issueScoped (c : Fin 4) (op scope : Nat) (w imm : BitVec 64) (s : State) : State :=
  issue c (oneSyllable 13 (syncScoped op scope w) imm) s

/-- BUNDLE_ISSUE (R355) -/
def execBundleIssue (c : Fin 4) (s : State) : Host.Outcome State Fault Refusal := .next (inService s (bundleIssue c))

end Sys2Proof.Machine
end

