-- ==== Sys2Proof/Machine/Syllables.lean ====
section
/-! DEFINITION. Machine/Syllables.lean: the rows of the tensor core's syllables (11). A row is the issue of a bundle that holds
only that syllable, in the first slot of its class, with slot 14 (R353 to R357): `w` gives the fields, the row gives CLASS and
OP. A bundle of several syllables is BUNDLE_ISSUE. -/
namespace Sys2Proof.Machine
open Sys2Proof

/-- KIND of the descriptor that a DMA syllable names, none where no local line holds it (R377, R404). -/
def dmaKind (k : Core) (w : Nat) : Option Nat :=
  let a := (k.areg (fld w 18 4) + BitVec.ofNat 40 (64 * fld w 22 8)).toNat
  if inLocal a 64 then some (rdByte k.loc.data (a + 0x28)).toNat else none

/-- Issue a bundle that holds only a DMA syllable. A descriptor of another kind is another row: nothing happens then (log 36). -/
def issueDma (c : Fin 4) (slot cls kind : Nat) (w imm : BitVec 64) (s : State) : State :=
  match dmaKind (s.core c) (sylWord cls 1 w) with
  | some k => if k ≠ kind && k ≤ 3 then s else issueOne c slot cls 1 w imm s
  | none => issueOne c slot cls 1 w imm s

/-- BR: next bundle is TARGET (R400) -/
def execBr (c : Fin 4) (w imm : BitVec 64) (s : State) : Host.Outcome State Fault Refusal :=
  .next (inService s (issueOne c 0 1 0x01 w imm))
/-- BRS: next bundle is s[SC] (R400) -/
def execBrs (c : Fin 4) (w imm : BitVec 64) (s : State) : Host.Outcome State Fault Refusal :=
  .next (inService s (issueOne c 0 1 0x02 w imm))
/-- LOOP: loop on lcLC to END (R370) -/
def execLoop (c : Fin 4) (w imm : BitVec 64) (s : State) : Host.Outcome State Fault Refusal :=
  .next (inService s (issueOne c 0 1 0x03 w imm))
/-- HALT: the core stops (R372) -/
def execHalt (c : Fin 4) (w imm : BitVec 64) (s : State) : Host.Outcome State Fault Refusal :=
  .next (inService s (issueOne c 0 1 0x04 w imm))
/-- ADD: scalar ALU (R401) -/
def execAdd (c : Fin 4) (w imm : BitVec 64) (s : State) : Host.Outcome State Fault Refusal :=
  .next (inService s (issueOne c 1 2 0x01 w imm))
/-- SUB: scalar ALU (R401) -/
def execSub (c : Fin 4) (w imm : BitVec 64) (s : State) : Host.Outcome State Fault Refusal :=
  .next (inService s (issueOne c 1 2 0x02 w imm))
/-- MUL: scalar ALU (R401) -/
def execMul (c : Fin 4) (w imm : BitVec 64) (s : State) : Host.Outcome State Fault Refusal :=
  .next (inService s (issueOne c 1 2 0x03 w imm))
/-- MULH: scalar ALU (R401) -/
def execMulh (c : Fin 4) (w imm : BitVec 64) (s : State) : Host.Outcome State Fault Refusal :=
  .next (inService s (issueOne c 1 2 0x04 w imm))
/-- MULHU: scalar ALU (R401) -/
def execMulhu (c : Fin 4) (w imm : BitVec 64) (s : State) : Host.Outcome State Fault Refusal :=
  .next (inService s (issueOne c 1 2 0x05 w imm))
/-- AND: scalar ALU (R401) -/
def execAnd (c : Fin 4) (w imm : BitVec 64) (s : State) : Host.Outcome State Fault Refusal :=
  .next (inService s (issueOne c 1 2 0x06 w imm))
/-- OR: scalar ALU (R401) -/
def execOr (c : Fin 4) (w imm : BitVec 64) (s : State) : Host.Outcome State Fault Refusal :=
  .next (inService s (issueOne c 1 2 0x07 w imm))
/-- XOR: scalar ALU (R401) -/
def execXor (c : Fin 4) (w imm : BitVec 64) (s : State) : Host.Outcome State Fault Refusal :=
  .next (inService s (issueOne c 1 2 0x08 w imm))
/-- SHL: scalar ALU (R401) -/
def execShl (c : Fin 4) (w imm : BitVec 64) (s : State) : Host.Outcome State Fault Refusal :=
  .next (inService s (issueOne c 1 2 0x09 w imm))
/-- SHR: scalar ALU (R401) -/
def execShr (c : Fin 4) (w imm : BitVec 64) (s : State) : Host.Outcome State Fault Refusal :=
  .next (inService s (issueOne c 1 2 0x0A w imm))
/-- SRA: scalar ALU (R401) -/
def execSra (c : Fin 4) (w imm : BitVec 64) (s : State) : Host.Outcome State Fault Refusal :=
  .next (inService s (issueOne c 1 2 0x0B w imm))
/-- MIN: scalar ALU (R401) -/
def execMin (c : Fin 4) (w imm : BitVec 64) (s : State) : Host.Outcome State Fault Refusal :=
  .next (inService s (issueOne c 1 2 0x0C w imm))
/-- MAX: scalar ALU (R401) -/
def execMax (c : Fin 4) (w imm : BitVec 64) (s : State) : Host.Outcome State Fault Refusal :=
  .next (inService s (issueOne c 1 2 0x0D w imm))
/-- MINU: scalar ALU (R401) -/
def execMinu (c : Fin 4) (w imm : BitVec 64) (s : State) : Host.Outcome State Fault Refusal :=
  .next (inService s (issueOne c 1 2 0x0E w imm))
/-- MAXU: scalar ALU (R401) -/
def execMaxu (c : Fin 4) (w imm : BitVec 64) (s : State) : Host.Outcome State Fault Refusal :=
  .next (inService s (issueOne c 1 2 0x0F w imm))
/-- MOV: scalar ALU (R401) -/
def execMov (c : Fin 4) (w imm : BitVec 64) (s : State) : Host.Outcome State Fault Refusal :=
  .next (inService s (issueOne c 1 2 0x10 w imm))
/-- CMPEQ: compare into a predicate (R401) -/
def execCmpeq (c : Fin 4) (w imm : BitVec 64) (s : State) : Host.Outcome State Fault Refusal :=
  .next (inService s (issueOne c 1 2 0x20 w imm))
/-- CMPNE: compare into a predicate (R401) -/
def execCmpne (c : Fin 4) (w imm : BitVec 64) (s : State) : Host.Outcome State Fault Refusal :=
  .next (inService s (issueOne c 1 2 0x21 w imm))
/-- CMPLT: compare into a predicate (R401) -/
def execCmplt (c : Fin 4) (w imm : BitVec 64) (s : State) : Host.Outcome State Fault Refusal :=
  .next (inService s (issueOne c 1 2 0x22 w imm))
/-- CMPLE: compare into a predicate (R401) -/
def execCmple (c : Fin 4) (w imm : BitVec 64) (s : State) : Host.Outcome State Fault Refusal :=
  .next (inService s (issueOne c 1 2 0x23 w imm))
/-- CMPLTU: compare into a predicate (R401) -/
def execCmpltu (c : Fin 4) (w imm : BitVec 64) (s : State) : Host.Outcome State Fault Refusal :=
  .next (inService s (issueOne c 1 2 0x24 w imm))
/-- CMPLEU: compare into a predicate (R401) -/
def execCmpleu (c : Fin 4) (w imm : BitVec 64) (s : State) : Host.Outcome State Fault Refusal :=
  .next (inService s (issueOne c 1 2 0x25 w imm))
/-- PAND: predicate logic (R401) -/
def execPand (c : Fin 4) (w imm : BitVec 64) (s : State) : Host.Outcome State Fault Refusal :=
  .next (inService s (issueOne c 1 2 0x28 w imm))
/-- POR_SYLLABLE: predicate logic (R401) -/
def execPorSyllable (c : Fin 4) (w imm : BitVec 64) (s : State) : Host.Outcome State Fault Refusal :=
  .next (inService s (issueOne c 1 2 0x29 w imm))
/-- PXOR: predicate logic (R401) -/
def execPxor (c : Fin 4) (w imm : BitVec 64) (s : State) : Host.Outcome State Fault Refusal :=
  .next (inService s (issueOne c 1 2 0x2A w imm))
/-- PNOT: predicate logic (R401) -/
def execPnot (c : Fin 4) (w imm : BitVec 64) (s : State) : Host.Outcome State Fault Refusal :=
  .next (inService s (issueOne c 1 2 0x2B w imm))
/-- MFA: low 32 bits of an a register (R401) -/
def execMfa (c : Fin 4) (w imm : BitVec 64) (s : State) : Host.Outcome State Fault Refusal :=
  .next (inService s (issueOne c 1 2 0x30 w imm))
/-- RDFL: the sticky flags (R401) -/
def execRdfl (c : Fin 4) (w imm : BitVec 64) (s : State) : Host.Outcome State Fault Refusal :=
  .next (inService s (issueOne c 1 2 0x31 w imm))
/-- LCRD: iterations remaining (R401) -/
def execLcrd (c : Fin 4) (w imm : BitVec 64) (s : State) : Host.Outcome State Fault Refusal :=
  .next (inService s (issueOne c 1 2 0x32 w imm))
/-- AADD: address generator (R402) -/
def execAadd (c : Fin 4) (w imm : BitVec 64) (s : State) : Host.Outcome State Fault Refusal :=
  .next (inService s (issueOne c 3 3 0x01 w imm))
/-- AMADD: address generator (R402) -/
def execAmadd (c : Fin 4) (w imm : BitVec 64) (s : State) : Host.Outcome State Fault Refusal :=
  .next (inService s (issueOne c 3 3 0x02 w imm))
/-- AMOV: address generator (R402) -/
def execAmov (c : Fin 4) (w imm : BitVec 64) (s : State) : Host.Outcome State Fault Refusal :=
  .next (inService s (issueOne c 3 3 0x03 w imm))
/-- AMOVS: address generator (R402) -/
def execAmovs (c : Fin 4) (w imm : BitVec 64) (s : State) : Host.Outcome State Fault Refusal :=
  .next (inService s (issueOne c 3 3 0x04 w imm))
/-- LD: load (R403) -/
def execLd (c : Fin 4) (w imm : BitVec 64) (s : State) : Host.Outcome State Fault Refusal :=
  .next (inService s (issueOne c 5 4 0x01 w imm))
/-- ST: store (R403) -/
def execSt (c : Fin 4) (w imm : BitVec 64) (s : State) : Host.Outcome State Fault Refusal :=
  .next (inService s (issueOne c 5 4 0x02 w imm))
/-- LDTAG: load a tag (R403) -/
def execLdtag (c : Fin 4) (w imm : BitVec 64) (s : State) : Host.Outcome State Fault Refusal :=
  .next (inService s (issueOne c 5 4 0x03 w imm))
/-- STTAG: store a tag (R403) -/
def execSttag (c : Fin 4) (w imm : BitVec 64) (s : State) : Host.Outcome State Fault Refusal :=
  .next (inService s (issueOne c 5 4 0x04 w imm))
/-- MM: matrix multiply (R407) -/
def execMm (c : Fin 4) (w imm : BitVec 64) (s : State) : Host.Outcome State Fault Refusal :=
  .next (inService s (issueOne c 8 7 0x01 w imm))
/-- CONV: convolution (R408) -/
def execConv (c : Fin 4) (w imm : BitVec 64) (s : State) : Host.Outcome State Fault Refusal :=
  .next (inService s (issueOne c 8 7 0x02 w imm))
/-- ACLR: clear accumulator rows (R405) -/
def execAclr (c : Fin 4) (w imm : BitVec 64) (s : State) : Host.Outcome State Fault Refusal :=
  .next (inService s (issueOne c 8 7 0x03 w imm))
/-- VADD: vector operation (R412) -/
def execVadd (c : Fin 4) (w imm : BitVec 64) (s : State) : Host.Outcome State Fault Refusal :=
  .next (inService s (issueOne c 9 8 0x01 w imm))
/-- VSUB: vector operation (R412) -/
def execVsub (c : Fin 4) (w imm : BitVec 64) (s : State) : Host.Outcome State Fault Refusal :=
  .next (inService s (issueOne c 9 8 0x02 w imm))
/-- VMUL: vector operation (R412) -/
def execVmul (c : Fin 4) (w imm : BitVec 64) (s : State) : Host.Outcome State Fault Refusal :=
  .next (inService s (issueOne c 9 8 0x03 w imm))
/-- VMLA: vector operation (R412) -/
def execVmla (c : Fin 4) (w imm : BitVec 64) (s : State) : Host.Outcome State Fault Refusal :=
  .next (inService s (issueOne c 9 8 0x04 w imm))
/-- VMIN: vector operation (R412) -/
def execVmin (c : Fin 4) (w imm : BitVec 64) (s : State) : Host.Outcome State Fault Refusal :=
  .next (inService s (issueOne c 9 8 0x05 w imm))
/-- VMAX: vector operation (R412) -/
def execVmax (c : Fin 4) (w imm : BitVec 64) (s : State) : Host.Outcome State Fault Refusal :=
  .next (inService s (issueOne c 9 8 0x06 w imm))
/-- VABS: vector operation (R412) -/
def execVabs (c : Fin 4) (w imm : BitVec 64) (s : State) : Host.Outcome State Fault Refusal :=
  .next (inService s (issueOne c 9 8 0x07 w imm))
/-- VNEG: vector operation (R412) -/
def execVneg (c : Fin 4) (w imm : BitVec 64) (s : State) : Host.Outcome State Fault Refusal :=
  .next (inService s (issueOne c 9 8 0x08 w imm))
/-- VAND: vector operation (R412) -/
def execVand (c : Fin 4) (w imm : BitVec 64) (s : State) : Host.Outcome State Fault Refusal :=
  .next (inService s (issueOne c 9 8 0x09 w imm))
/-- VOR: vector operation (R412) -/
def execVor (c : Fin 4) (w imm : BitVec 64) (s : State) : Host.Outcome State Fault Refusal :=
  .next (inService s (issueOne c 9 8 0x0A w imm))
/-- VXOR: vector operation (R412) -/
def execVxor (c : Fin 4) (w imm : BitVec 64) (s : State) : Host.Outcome State Fault Refusal :=
  .next (inService s (issueOne c 9 8 0x0B w imm))
/-- VSHL: vector operation (R412) -/
def execVshl (c : Fin 4) (w imm : BitVec 64) (s : State) : Host.Outcome State Fault Refusal :=
  .next (inService s (issueOne c 9 8 0x0C w imm))
/-- VSHR: vector operation (R412) -/
def execVshr (c : Fin 4) (w imm : BitVec 64) (s : State) : Host.Outcome State Fault Refusal :=
  .next (inService s (issueOne c 9 8 0x0D w imm))
/-- VSRA: vector operation (R412) -/
def execVsra (c : Fin 4) (w imm : BitVec 64) (s : State) : Host.Outcome State Fault Refusal :=
  .next (inService s (issueOne c 9 8 0x0E w imm))
/-- VADDSAT: vector operation (R412) -/
def execVaddsat (c : Fin 4) (w imm : BitVec 64) (s : State) : Host.Outcome State Fault Refusal :=
  .next (inService s (issueOne c 9 8 0x0F w imm))
/-- VCMPEQ: vector operation (R412) -/
def execVcmpeq (c : Fin 4) (w imm : BitVec 64) (s : State) : Host.Outcome State Fault Refusal :=
  .next (inService s (issueOne c 9 8 0x10 w imm))
/-- VCMPLT: vector operation (R412) -/
def execVcmplt (c : Fin 4) (w imm : BitVec 64) (s : State) : Host.Outcome State Fault Refusal :=
  .next (inService s (issueOne c 9 8 0x11 w imm))
/-- VCMPLE: vector operation (R412) -/
def execVcmple (c : Fin 4) (w imm : BitVec 64) (s : State) : Host.Outcome State Fault Refusal :=
  .next (inService s (issueOne c 9 8 0x12 w imm))
/-- VCVTIF: vector operation (R412) -/
def execVcvtif (c : Fin 4) (w imm : BitVec 64) (s : State) : Host.Outcome State Fault Refusal :=
  .next (inService s (issueOne c 9 8 0x18 w imm))
/-- VCVTFI: vector operation (R412) -/
def execVcvtfi (c : Fin 4) (w imm : BitVec 64) (s : State) : Host.Outcome State Fault Refusal :=
  .next (inService s (issueOne c 9 8 0x19 w imm))
/-- VPERM: vector operation (R412) -/
def execVperm (c : Fin 4) (w imm : BitVec 64) (s : State) : Host.Outcome State Fault Refusal :=
  .next (inService s (issueOne c 9 8 0x20 w imm))
/-- VBCAST: vector operation (R412) -/
def execVbcast (c : Fin 4) (w imm : BitVec 64) (s : State) : Host.Outcome State Fault Refusal :=
  .next (inService s (issueOne c 9 8 0x21 w imm))
/-- VRED: vector operation (R412) -/
def execVred (c : Fin 4) (w imm : BitVec 64) (s : State) : Host.Outcome State Fault Refusal :=
  .next (inService s (issueOne c 9 8 0x22 w imm))
/-- VMOVS: vector operation (R412) -/
def execVmovs (c : Fin 4) (w imm : BitVec 64) (s : State) : Host.Outcome State Fault Refusal :=
  .next (inService s (issueOne c 9 8 0x23 w imm))
/-- VLD: vector operation (R413) -/
def execVld (c : Fin 4) (w imm : BitVec 64) (s : State) : Host.Outcome State Fault Refusal :=
  .next (inService s (issueOne c 9 8 0x30 w imm))
/-- VST: vector operation (R413) -/
def execVst (c : Fin 4) (w imm : BitVec 64) (s : State) : Host.Outcome State Fault Refusal :=
  .next (inService s (issueOne c 9 8 0x31 w imm))
/-- RQA: requantise accumulator rows (R415) -/
def execRqa (c : Fin 4) (w imm : BitVec 64) (s : State) : Host.Outcome State Fault Refusal :=
  .next (inService s (issueOne c 11 9 0x01 w imm))
/-- RQV: requantise vector registers (R415) -/
def execRqv (c : Fin 4) (w imm : BitVec 64) (s : State) : Host.Outcome State Fault Refusal :=
  .next (inService s (issueOne c 11 9 0x02 w imm))
/-- POOL: pooling (R444) -/
def execPool (c : Fin 4) (w imm : BitVec 64) (s : State) : Host.Outcome State Fault Refusal :=
  .next (inService s (issueOne c 12 10 0x01 w imm))
/-- GPOOL: global pooling (R445) -/
def execGpool (c : Fin 4) (w imm : BitVec 64) (s : State) : Host.Outcome State Fault Refusal :=
  .next (inService s (issueOne c 12 10 0x02 w imm))
/-- CROP: crop and resize (R449) -/
def execCrop (c : Fin 4) (w imm : BitVec 64) (s : State) : Host.Outcome State Fault Refusal :=
  .next (inService s (issueOne c 12 10 0x03 w imm))
/-- LDW: Harbour word read (R419) -/
def execLdw (c : Fin 4) (w imm : BitVec 64) (s : State) : Host.Outcome State Fault Refusal :=
  .next (inService s (issueOne c 13 11 0x03 w imm))
/-- STW: Harbour word write (R419) -/
def execStw (c : Fin 4) (w imm : BitVec 64) (s : State) : Host.Outcome State Fault Refusal :=
  .next (inService s (issueOne c 13 11 0x04 w imm))
/-- ATADD: atomic add (R542) -/
def execAtadd (c : Fin 4) (w imm : BitVec 64) (s : State) : Host.Outcome State Fault Refusal :=
  .next (inService s (issueOne c 13 11 0x05 w imm))
/-- ATMIN: atomic minimum (R542) -/
def execAtmin (c : Fin 4) (w imm : BitVec 64) (s : State) : Host.Outcome State Fault Refusal :=
  .next (inService s (issueOne c 13 11 0x06 w imm))
/-- ATMAX: atomic maximum (R542) -/
def execAtmax (c : Fin 4) (w imm : BitVec 64) (s : State) : Host.Outcome State Fault Refusal :=
  .next (inService s (issueOne c 13 11 0x07 w imm))
/-- ATSWAP: atomic swap (R542) -/
def execAtswap (c : Fin 4) (w imm : BitVec 64) (s : State) : Host.Outcome State Fault Refusal :=
  .next (inService s (issueOne c 13 11 0x08 w imm))
/-- ATCAS: compare and swap (R419) -/
def execAtcas (c : Fin 4) (w imm : BitVec 64) (s : State) : Host.Outcome State Fault Refusal :=
  .next (inService s (issueOne c 13 11 0x09 w imm))
/-- EVWAIT: wait on an event counter (R422) -/
def execEvwait (c : Fin 4) (w imm : BitVec 64) (s : State) : Host.Outcome State Fault Refusal :=
  .next (inService s (issueOne c 13 11 0x0A w imm))
/-- HEAD: head request (R539) -/
def execHead (c : Fin 4) (w imm : BitVec 64) (s : State) : Host.Outcome State Fault Refusal :=
  .next (inService s (issueOne c 13 11 0x0B w imm))
/-- CKPT: checkpoint point (R386) -/
def execCkpt (c : Fin 4) (w imm : BitVec 64) (s : State) : Host.Outcome State Fault Refusal :=
  .next (inService s (issueOne c 13 11 0x0C w imm))
/-- EPUB: publish an epoch (R423) -/
def execEpub (c : Fin 4) (w imm : BitVec 64) (s : State) : Host.Outcome State Fault Refusal :=
  .next (inService s (issueOne c 13 11 0x0D w imm))
/-- EWAIT: wait for an epoch (R578) -/
def execEwait (c : Fin 4) (w imm : BitVec 64) (s : State) : Host.Outcome State Fault Refusal :=
  .next (inService s (issueOne c 13 11 0x0E w imm))
/-- fenceCore (R537) -/
def execFenceCore (c : Fin 4) (w imm : BitVec 64) (s : State) : Host.Outcome State Fault Refusal :=
  .next (inService s (issueScoped c 1 0 w imm))
/-- fenceChip (R537) -/
def execFenceChip (c : Fin 4) (w imm : BitVec 64) (s : State) : Host.Outcome State Fault Refusal :=
  .next (inService s (issueScoped c 1 1 w imm))
/-- fenceSys (R575) -/
def execFenceSys (c : Fin 4) (w imm : BitVec 64) (s : State) : Host.Outcome State Fault Refusal :=
  .next (inService s (issueScoped c 1 2 w imm))
/-- acqChip (R537) -/
def execAcqChip (c : Fin 4) (w imm : BitVec 64) (s : State) : Host.Outcome State Fault Refusal :=
  .next (inService s (issueScoped c 2 1 w imm))
/-- acqSys (R537) -/
def execAcqSys (c : Fin 4) (w imm : BitVec 64) (s : State) : Host.Outcome State Fault Refusal :=
  .next (inService s (issueScoped c 2 2 w imm))
/-- copyIn: a DMA descriptor of kind 0 (R382) -/
def execCopyIn (c : Fin 4) (w imm : BitVec 64) (s : State) : Host.Outcome State Fault Refusal :=
  .next (inService s (issueDma c 6 5 0 w imm))
/-- copyOut: a DMA descriptor of kind 1 (R379) -/
def execCopyOut (c : Fin 4) (w imm : BitVec 64) (s : State) : Host.Outcome State Fault Refusal :=
  .next (inService s (issueDma c 7 6 1 w imm))
/-- streamFetch: a DMA descriptor of kind 2 (R246) -/
def execStreamFetch (c : Fin 4) (w imm : BitVec 64) (s : State) : Host.Outcome State Fault Refusal :=
  .next (inService s (issueDma c 6 5 2 w imm))
/-- imem: a DMA descriptor of kind 3 (R365) -/
def execImem (c : Fin 4) (w imm : BitVec 64) (s : State) : Host.Outcome State Fault Refusal :=
  .next (inService s (issueDma c 6 5 3 w imm))

end Sys2Proof.Machine
end

