-- ==== Sys2Proof/Machine/Inputs.lean ====
section
/-! DEFINITION. Machine/Inputs.lean: what a job's input records say (PIXEL_PROGRAM of R261, ADC_SEQUENCE of R299), where berths
and blocks lie (R263, R264, R301), the berth states (R269), the first-layer mode of the Stem engine (R323 to R329), and what
happens once a job's inputs are in the Harbour (R106, R270, R306, R309, R337, R652). -/
namespace Sys2Proof.Machine
open Sys2Proof

/-! ### Records of a watch -/

/-- The body of the input record of a watch. -/
def State.inputBody (s : State) (w : Watch) : List Byte :=
  match s.record? (if w.entry.inputKind = 1 then 0x0C else 0x0B) w.entry.inputRec with
  | some r => r.body
  | none => []

/-- A TENSOR record that the watch may name: one of its own (R40, R332). -/
def State.tensor? (s : State) (w : WatchEntry) (id : Nat) : Option PlacedRecord :=
  if w.tensorFirst ≤ id && decide (id < w.tensorFirst + w.tensorCount) then s.record? 4 id else none

/-- UNIT_COUNT of a TENSOR record (R223). -/
def PlacedRecord.units (r : PlacedRecord) : Nat := r.placed / 64

/-- Bytes of the Harbour. -/
def State.hbrBytesAt (s : State) (a n : Nat) : List Byte := rdBytes s.harbour.data a n

/-! ### Frame programs (R261) -/

/-- One window descriptor (R261). -/
structure PixWin where
  /-- X0 -/
  x0 : Nat
  /-- Y0 -/
  y0 : Nat
  /-- WIDTH -/
  width : Nat
  /-- HEIGHT -/
  height : Nat
  /-- BIN -/
  bin : Nat
  /-- FORMAT -/
  format : Nat
  /-- BERTH_FIRST -/
  berthFirst : Nat
  /-- BERTH_BASE -/
  berthBase : Nat
  /-- BERTH_STRIDE -/
  berthStride : Nat
  /-- STEM_REC -/
  stemRec : Nat

/-- A frame program (R261). -/
structure PixProg where
  /-- DEPTH: 12 bits -/
  twelve : Bool
  /-- FLAGS -/
  flags : Nat
  /-- PEDESTAL -/
  pedestal : Nat
  /-- EXPOSURE -/
  exposure : Nat
  /-- GAIN_Q8 -/
  gain : Nat
  /-- STROBE_LEAD_US -/
  strobeLead : Nat
  /-- FRAME_PERIOD -/
  framePeriod : Nat
  /-- FSYNC_WAIT -/
  fsyncWait : Nat
  /-- WINDOWS -/
  windows : List PixWin

/-- Read a window descriptor at offset o of a PIXEL_PROGRAM body (R261). -/
def PixWin.read (b : List Byte) (o : Nat) : PixWin :=
  { x0 := leAt b o 2, y0 := leAt b (o + 2) 2, width := leAt b (o + 4) 2, height := leAt b (o + 6) 2, bin := byteAt b (o + 8),
    format := byteAt b (o + 9), berthFirst := byteAt b (o + 10), berthBase := leAt b (o + 12) 4,
    berthStride := leAt b (o + 16) 4, stemRec := leAt b (o + 20) 2 }

/-- Read a frame program from a body that begins at record byte 0x08 (R261). -/
def PixProg.read (b : List Byte) : PixProg :=
  { twelve := byteAt b 1 == 1, flags := byteAt b 2, pedestal := byteAt b 3, exposure := leAt b 4 4, gain := leAt b 8 2,
    strobeLead := leAt b 0xA 2, framePeriod := leAt b 0xC 4, fsyncWait := leAt b 0x10 2,
    windows := (List.range (byteAt b 0)).map (fun i => PixWin.read b (0x20 + 32 * i)) }

/-- The frame program of a watch. -/
def State.pixProg (s : State) (w : Watch) : PixProg := PixProg.read (s.inputBody w)

/-- Bin factor (R261). -/
def PixWin.factor (p : PixWin) : Nat := 2 ^ p.bin
/-- WIDTH_OUT (R266). -/
def PixWin.outW (p : PixWin) : Nat := p.width / p.factor
/-- HEIGHT_OUT (R266). -/
def PixWin.outH (p : PixWin) : Nat := p.height / p.factor

/-- The distinct rows that a frame program reads, in ascending order (R257, R265). -/
def PixProg.rows (p : PixProg) : List Nat :=
  (List.range 1536).filter (fun y => p.windows.any (fun w => decide (w.y0 ≤ y) && decide (y < w.y0 + w.height)))

/-! ### The first-layer configuration (R323) -/

/-- A first-layer configuration line (R323). -/
structure StemConf where
  /-- KH -/
  kh : Nat
  /-- KW -/
  kw : Nat
  /-- CIN_MODE -/
  cinMode : Nat
  /-- T -/
  t : Nat
  /-- COUT -/
  cout : Nat
  /-- SX -/
  sx : Nat
  /-- SY -/
  sy : Nat
  /-- PAD: top, bottom, left, right -/
  pads : List Nat
  /-- IN_SHIFT -/
  inShift : Nat
  /-- IN_ZP -/
  inZp : Nat
  /-- OUT_EXP -/
  outExp : Nat
  /-- HIST_OFFSET -/
  hist : Nat
  /-- HEAD_REC -/
  headRec : Nat

/-- Read a first-layer configuration line (R323). -/
def StemConf.read (b : List Byte) : StemConf :=
  { kh := byteAt b 1, kw := byteAt b 2, cinMode := byteAt b 3, t := byteAt b 4, cout := byteAt b 5, sx := byteAt b 6,
    sy := byteAt b 7, pads := [byteAt b 8, byteAt b 9, byteAt b 10, byteAt b 11], inShift := byteAt b 0xC,
    inZp := byteAt b 0xD, outExp := byteAt b 0xE, hist := leAt b 0x10 4, headRec := leAt b 0x14 2 }

/-- CIN (R323). -/
def StemConf.cin (c : StemConf) : Nat := if c.cinMode = 0 then 1 else if c.cinMode = 1 then 2 else 4
/-- W_in over WIDTH_OUT (R324). -/
def StemConf.wIn (c : StemConf) (p : PixWin) : Nat := if c.cinMode = 0 then p.outW else p.outW / 2
/-- H_in over HEIGHT_OUT (R324). -/
def StemConf.hIn (c : StemConf) (p : PixWin) : Nat := if c.cinMode = 2 then p.outH / 2 else p.outH
/-- A pad of the configuration. -/
def StemConf.pad (c : StemConf) (i : Nat) : Nat := c.pads.getD i 0
/-- W_out (R326), 0 where the kernel does not fit. -/
def StemConf.wOut (c : StemConf) (p : PixWin) : Nat := (c.wIn p + c.pad 2 + c.pad 3 + c.sx - c.kw) / c.sx
/-- H_out (R326), 0 where the kernel does not fit. -/
def StemConf.hOut (c : StemConf) (p : PixWin) : Nat := (c.hIn p + c.pad 0 + c.pad 1 + c.sy - c.kh) / c.sy
/-- P: the tap count (R323). -/
def StemConf.taps (c : StemConf) : Nat := c.t * c.kh * c.kw * c.cin

/-- Berth bytes of a window (R267, R328). -/
def berthBytes (p : PixWin) (conf : Option StemConf) : Nat :=
  if p.format = 2 then
    match conf with
    | some c => 64 + 64 * c.hOut p * c.wOut p
    | none => 64
  else 64 + p.outH * (ceilDiv (p.outW * (if p.format = 1 then 2 else 1)) 64 * 64)

/-- The first-layer configuration record of a window of watch w. -/
def State.stemRec? (s : State) (w : WatchEntry) (p : PixWin) : Option PlacedRecord :=
  if p.format = 2 then s.tensor? w p.stemRec else none

/-- The configuration line, taken from the record as it was loaded. -/
def State.stemConf? (s : State) (w : WatchEntry) (p : PixWin) : Option StemConf :=
  (s.stemRec? w p).map (fun r => StemConf.read (slice r.body 8 64))

/-! ### Berths (R263, R264, R269) -/

/-- The berths that a pixel watch assigns: number, Harbour offset, size, window index and frame (R263). -/
def State.berthsOf (s : State) (w : Watch) : List (Nat × Nat × Nat) :=
  if w.entry.inputKind = 1 then
    (s.pixProg w).windows.flatMap (fun p => (List.range w.entry.inputUnits).map (fun k =>
      (p.berthFirst + k, w.entry.hbrBase + p.berthBase + k * p.berthStride, berthBytes p (s.stemConf? w.entry p))))
  else []

/-- The place of a berth: the assignment of the lowest-numbered valid watch (R264). -/
def State.berthPlace? (s : State) (b : Nat) : Option (Nat × Nat) :=
  ((s.watches.flatMap s.berthsOf).find? (fun e => e.1 == b)).map (fun e => e.2)

/-- State of a berth (R269). -/
def State.berth (s : State) (b : Nat) : BerthState :=
  match s.pix.berths.find? (fun e => e.1 == b) with
  | some e => e.2
  | none => .idle

/-- Put a berth into a state; idle berths are not listed. -/
def setBerth (b : Nat) (x : BerthState) (s : State) : State :=
  let others := s.pix.berths.filter (fun e => e.1 ≠ b)
  { s with pix := { s.pix with berths := if x = .idle then others else others ++ [(b, x)] } }

/-! ### The Stem engine's own condition -/

/-- The Stem engine may work: clocked, in Slack or Spring, not in partial reset (R90, R168, R319). -/
def State.stemRuns (s : State) : Bool :=
  decide (s.tide.power ≠ .neap) && s.tide.pllLocked && !s.tide.thermalShutdown && !decide (ResetUnit.stem ∈ s.sys.resetting)

/-- Single-bit errors in the line buffers are corrected and counted (R602). -/
def correctStem (s : State) : State :=
  if s.stem.lineUpset = 0 then s
  else { s with stem := { s.stem with lineUpset := 0 },
                err := { s.err with eccOther := satAdd s.err.eccOther s.stem.lineUpset 0xFF } }

/-- The Stem engine works for a job of watch w: a change of owner clears its line buffers (R71). -/
def useStem (w : Watch) (s : State) : State :=
  let s := correctStem s
  { s with stem := { s.stem with owner := some w.entry.owner,
                                 lineMem := if s.stem.owner = some w.entry.owner then s.stem.lineMem else [] } }

/-- The engine reads ranges of the Harbour: banks are powered, single-bit errors corrected, and what it has read stands in the
384 KiB of the line buffers that spectral-front and head modes share, which begin after the 128 KiB of first-layer mode (R322,
R603, R757, log 78). -/
def State.stemReads (s : State) (rs : List (Nat × Nat)) : State :=
  let s := rs.foldl (fun s r => s.visit r.1 r.2) s
  let bs := rs.flatMap (fun r => s.hbrBytesAt r.1 r.2)
  { s with stem := { s.stem with lineMem := wrBytes s.stem.lineMem 0x20000 (bs.take 0x60000) } }

/-- SAT of the Stem engine for the job (R479). -/
def stemSat (n : Nat) (sat : Bool) (s : State) : State :=
  if sat then s.modJob n (fun j => { j with flags := j.flags ||| flSat }) else s

/-- One requantised INT8 element of the Stem engine (R326, R495 to R498). -/
def stemInt8 (entry : Nat) (a : Int) : OutEl :=
  rescaleEl { out := 0, rq := 0, bias := 0, m := 1, n := 1, ofmt := 0, act := 0, arg := 0, exp := 0, flags := 0, stride := 0, lut := 0 }
    entry (.num false a 0) (fun _ => 0)

/-! ### First-layer mode (R324 to R329) -/

/-- x of a corrected value (R324). -/
def stemX (shift p : Nat) : Nat := min 255 (rhe p (2 ^ shift)).toNat

/-- Input value (iy, ix, i) from the rows of x values of a frame (R324). -/
def inputAt (mode : Nat) (rows : List (List Nat)) (iy ix i : Nat) : Nat :=
  match mode with
  | 0 => (rows.getD iy []).getD ix 0
  | 1 => (rows.getD iy []).getD (2 * ix + i) 0
  | _ => (rows.getD (2 * iy + i / 2) []).getD (2 * ix + i % 2) 0

/-- Offset in the history area of input value (iy, ix, i) of a slot: rows, columns, channels, in that order (R327). -/
def histAt (c : StemConf) (p : PixWin) (slot iy ix i : Nat) : Nat :=
  ((slot * c.hIn p + iy) * c.wIn p + ix) * c.cin + i

/-- What the first layer needs: its configuration, its window, the place of its weights, the frame, the place of its history
area, the rows of the frame so far, and the Harbour. -/
structure FirstLayer where
  /-- configuration -/
  c : StemConf
  /-- window -/
  p : PixWin
  /-- Harbour offset of the configuration record -/
  base : Nat
  /-- frame index k within the job -/
  k : Nat
  /-- Harbour offset of the history area -/
  hist : Nat
  /-- rows of x values of frame k -/
  rows : List (List Nat)
  /-- the Harbour -/
  h : List Host.Cell

/-- The signed operand x − IN_ZP of tap (τ, ky, kx, i) for output (oy, ox) (R325, R326). -/
def FirstLayer.operand (f : FirstLayer) (oy ox τ ky kx i : Nat) : Int :=
  let iy : Int := ((oy * f.c.sy + ky : Nat) : Int) - f.c.pad 0
  let ix : Int := ((ox * f.c.sx + kx : Nat) : Int) - f.c.pad 2
  if f.k < τ || iy < 0 || ix < 0 || (f.c.hIn f.p : Int) ≤ iy || (f.c.wIn f.p : Int) ≤ ix then 0
  else
    let x := if τ = 0 then inputAt f.c.cinMode f.rows iy.toNat ix.toNat i
      else (rdByte f.h (f.hist + histAt f.c f.p ((f.k - τ) % f.c.t) iy.toNat ix.toNat i)).toNat
    (x : Int) - f.c.inZp

/-- One output value: the sum over every tap, the bias, the requantisation (R326). -/
def FirstLayer.out (f : FirstLayer) (oy ox ch : Nat) : OutEl :=
  let sum := (List.range f.c.t).foldl (fun (a : Int) τ => (List.range f.c.kh).foldl (fun (a : Int) ky =>
    (List.range f.c.kw).foldl (fun (a : Int) kx => (List.range f.c.cin).foldl (fun (a : Int) i =>
      let wi := (((τ * f.c.kh + ky) * f.c.kw + kx) * f.c.cin + i) * 32 + ch
      a + f.operand oy ox τ ky kx i * (rdByte f.h (f.base + 64 + wi)).toInt) a) a) a) 0
  let tail := f.base + 64 * (1 + ceilDiv (32 * f.c.taps) 64)
  stemInt8 (rdLE f.h (tail + 128 + 8 * ch) 8) (sum + toSigned (rdLE f.h (tail + 4 * ch) 4) 32)

/-- One output line with its tag, and whether a channel saturated (R328). -/
def FirstLayer.line (f : FirstLayer) (oy ox : Nat) : (List Byte × BitVec 16) × Bool :=
  let es := (List.range f.c.cout).map (f.out oy ox)
  let sat := (es.filter (·.sat)).length
  ((padTo (es.flatMap (fun e => leBytes e.code 1)) 64, mkTag f.c.outExp sat 2), sat != 0)

/-- Input rows whose arrival output row oy needs (R329). -/
def FirstLayer.needs (f : FirstLayer) (oy : Nat) : Nat := min (f.c.hIn f.p) (oy * f.c.sy + f.c.kh - f.c.pad 0)

/-- Input rows that have arrived. -/
def FirstLayer.arrived (f : FirstLayer) : Nat := if f.c.cinMode = 2 then f.rows.length / 2 else f.rows.length

/-- The output rows that can now be written, from row `lo` up (R329). -/
def FirstLayer.ready (f : FirstLayer) (lo : Nat) : List Nat :=
  (List.range (f.c.hOut f.p)).filter (fun oy => lo ≤ oy && decide (f.needs oy ≤ f.arrived))

/-- Write input row iy of the frame into its slot of the history area (R327). -/
def FirstLayer.keep (f : FirstLayer) (iy : Nat) (s : State) : State :=
  s.putHbr (f.hist + histAt f.c f.p (f.k % f.c.t) iy 0 0)
    ((List.range (f.c.wIn f.p)).flatMap (fun ix => (List.range f.c.cin).map (fun i =>
      BitVec.ofNat 8 (inputAt f.c.cinMode f.rows iy ix i))))

/-- The Harbour ranges that the first layer reads: its TENSOR record and its history (R325, R327). -/
def FirstLayer.reads (f : FirstLayer) (r : PlacedRecord) : List (Nat × Nat) :=
  (r.load, r.placed) :: (if 1 < f.c.t then [(f.hist, f.c.t * f.c.hIn f.p * f.c.wIn f.p * f.c.cin)] else [])

/-- A line that the first layer reads holds an uncorrectable error (R615). -/
def FirstLayer.poisoned (f : FirstLayer) (r : PlacedRecord) (h : Lines) : Bool :=
  (f.reads r).any (fun x => poisonIn h x.1 x.2)

/-! ### Blocks of the Aux ADC (R299 to R302) -/

/-- A chain descriptor (R299). -/
structure ChainDesc where
  /-- CIC_M -/
  m : Nat
  /-- HB -/
  hb : Nat
  /-- FLAGS.SPECTRAL -/
  spectral : Bool
  /-- BUF_OFFSET -/
  buf : Nat
  /-- BLOCK_STRIDE -/
  stride : Nat
  /-- STEM_REC -/
  stemRec : Nat

/-- An ADC sequence (R299): the slots are (channel, gain code, chain). -/
structure AdcSeq where
  /-- CLK_DIV -/
  clkDiv : Nat
  /-- IEPE_MASK -/
  iepe : Nat
  /-- SETTLE -/
  settle : Nat
  /-- BLOCK_LEN -/
  blockLen : Nat
  /-- SLOTS -/
  slots : List (Nat × Nat × Nat)
  /-- the used CHAINS -/
  chains : List ChainDesc

/-- Read a chain descriptor (R299). -/
def ChainDesc.read (b : List Byte) (o : Nat) : ChainDesc :=
  { m := leAt b o 2, hb := byteAt b (o + 2), spectral := bitN (byteAt b (o + 3)) 0, buf := leAt b (o + 4) 4,
    stride := leAt b (o + 8) 4, stemRec := leAt b (o + 12) 2 }

/-- Read a sequence from a body that begins at record byte 0x08 (R299). -/
def AdcSeq.read (b : List Byte) : AdcSeq :=
  { clkDiv := byteAt b 2, iepe := byteAt b 3, settle := leAt b 4 2, blockLen := leAt b 6 2,
    slots := (List.range (byteAt b 0)).map (fun i =>
      let x := byteAt b (0x18 + 2 * i)
      (fld x 0 4, fld x 4 3, fld (byteAt b (0x19 + 2 * i)) 0 2)),
    chains := (List.range (byteAt b 1)).map (fun i => ChainDesc.read b (0x38 + 32 * i)) }

/-- The sequence of a watch. -/
def State.adcSeq (s : State) (w : Watch) : AdcSeq := AdcSeq.read (s.inputBody w)

/-- Channel and gain of a chain: those of its slots (R294). -/
def AdcSeq.pair (q : AdcSeq) (chain : Nat) : Nat × Nat :=
  match q.slots.find? (fun s => s.2.2 == chain) with
  | some s => (s.1, s.2.1)
  | none => (0, 0)

/-- One cycle of the sequencer, clock by clock: the chain of a slot's sample, or none for the discard clock that precedes a slot
whose gain code differs from that of the slot before it, the last slot being before slot 0 (R292, R293). -/
def AdcSeq.cycle (q : AdcSeq) : List (Option Nat) :=
  let gains := q.slots.map (fun s => s.2.1)
  let prev := gains.drop (gains.length - 1) ++ gains
  (q.slots.zip prev).flatMap (fun x => if x.1.2.1 = x.2 then [some x.1.2.2] else [none, some x.1.2.2])

/-- Frame length F of a sequence: its slots and the discard clocks (R293, R294). -/
def AdcSeq.frameLen (q : AdcSeq) : Nat := q.cycle.length

/-- Harbour offset of block k of a chain (R301). -/
def blockAddr (w : Watch) (c : ChainDesc) (k : Nat) : Nat := w.entry.hbrBase + c.buf + k * c.stride

/-! ### The spectral-front configuration (R333) -/

/-- A spectral-front configuration (R333). -/
structure SpecConf where
  /-- NLOG -/
  nlog : Nat
  /-- WINDOW -/
  window : Nat
  /-- HOP -/
  hop : Nat
  /-- BANDS -/
  bands : Nat
  /-- AVG -/
  avg : Nat
  /-- OUT_EXP -/
  outExp : Nat
  /-- LOG_OFS -/
  logOfs : Int
  /-- LOG_MUL -/
  logMul : Nat
  /-- HEAD_REC -/
  headRec : Nat
  /-- OUT_OFFSET -/
  outOff : Nat
  /-- OUT_STRIDE -/
  outStride : Nat
  /-- the band table: FIRST_BIN and LAST_BIN of each band -/
  table : List (Nat × Nat)

/-- Read a spectral-front configuration from its five units (R333). -/
def SpecConf.read (b : List Byte) : SpecConf :=
  { nlog := byteAt b 1, window := byteAt b 2, hop := byteAt b 3, bands := byteAt b 4, avg := byteAt b 5, outExp := byteAt b 6,
    logOfs := toSigned (leAt b 8 4) 32, logMul := leAt b 0xC 2, headRec := leAt b 0xE 2, outOff := leAt b 0x10 4,
    outStride := leAt b 0x14 4,
    table := (List.range 64).map (fun i => (leAt b (64 + 4 * i) 2, leAt b (66 + 4 * i) 2)) }

/-- N (R333). -/
def SpecConf.n (c : SpecConf) : Nat := 2 ^ c.nlog
/-- H: the hop (R333). -/
def SpecConf.h (c : SpecConf) : Nat := if c.hop = 0 then c.n else c.n / 2
/-- S: the segments of a block (R333). -/
def SpecConf.segs (c : SpecConf) (blockLen : Nat) : Nat := (blockLen - c.n) / c.h + 1
/-- S′: the output lines of a block (R333). -/
def SpecConf.lines (c : SpecConf) (blockLen : Nat) : Nat := if c.avg = 1 then 1 else c.segs blockLen

/-- The units of a TENSOR record as loaded, without their tags (R223). -/
def PlacedRecord.unitData (r : PlacedRecord) : List Byte :=
  (List.range r.units).flatMap (fun i => slice r.body (8 + 66 * i) 64)

/-- The spectral-front configuration of a chain. -/
def State.specConf? (s : State) (w : WatchEntry) (c : ChainDesc) : Option SpecConf :=
  if c.spectral then (s.tensor? w c.stemRec).map (fun r => SpecConf.read r.unitData) else none

/-! ### The end of input -/

/-- The result of one VIB_SUMMARY chain (R652): its flags, OVR samples, peak, sum of squares, words, digital saturations. -/
structure VibSum where
  /-- the OR of the block flags -/
  flags : Nat := 0
  /-- OVR samples -/
  ovr : Nat := 0
  /-- digital saturations -/
  sat : Nat := 0
  /-- peak -/
  peak : Nat := 0
  /-- sum of squares -/
  squares : Nat := 0
  /-- words -/
  words : Nat := 0

/-- Add one block to a summary (R652). -/
def VibSum.add (v : VibSum) (h : List Host.Cell) (a len : Nat) : VibSum :=
  let b := rdBytes h a (64 + 2 * len)
  let cs := (List.range len).map (fun i => (toSigned (leAt b (64 + 2 * i) 2) 14).natAbs)
  { flags := v.flags ||| byteAt b 7, ovr := v.ovr + leAt b 0xA 2, sat := v.sat + leAt b 0xE 2,
    peak := cs.foldl max v.peak, squares := cs.foldl (fun t c => t + c * c) v.squares, words := v.words + len }

/-- Top band and its INT8 value over the job's output lines of a SPECTRAL chain (R652). -/
def topBand (c : SpecConf) (h : List Host.Cell) (base units lines : Nat) : Nat × Int :=
  let vals := fun b => (List.range units).flatMap (fun k => (List.range lines).map (fun l =>
    (rdByte h (base + c.outOff + k * c.outStride + 64 + 64 * l + b)).toInt))
  (List.range c.bands).foldl (fun (best : Nat × Int) b =>
    let m := (vals b).foldl max (-129)
    if best.2 < m then (b, m) else best) (0xFF, -129)

/-- The VIB_SUMMARY record of chain i (R652, R649). -/
def State.vibDraft (s : State) (w : Watch) (q : AdcSeq) (i : Nat) (c : ChainDesc) : Draft :=
  let h := s.harbour.data
  let v := (List.range w.entry.inputUnits).foldl (fun (v : VibSum) k => v.add h (blockAddr w c k) q.blockLen) {}
  let rms := Nat.sqrt (rhe v.squares (max 1 v.words)).toNat
  let (band, val) := match s.specConf? w.entry c with
    | some sc =>
      let t := topBand sc h w.entry.hbrBase w.entry.inputUnits (sc.lines q.blockLen)
      (t.1, ofSigned t.2 8)
    | none => (0xFF, 0)
  let p := q.pair i
  jobDraft w 5 false
    (leBytes i 1 ++ leBytes p.1 1 ++ leBytes p.2 1 ++ leBytes v.flags 1 ++ leBytes (min v.ovr 0xFFFF) 2 ++ leBytes v.peak 2 ++
      leBytes rms 2 ++ leBytes (min v.sat 0xFFFF) 2 ++ leBytes band 1 ++ leBytes val 1 ++ leBytes w.entry.inputUnits 2)
    (leBytes i 1 ++ leBytes v.flags 1 ++ leBytes v.peak 2 ++ leBytes rms 2 ++ leBytes (min v.ovr 0xFFFF) 2)

/-- The head descriptors that the system controller runs for a watch with PROG_COUNT 0: the HEAD_REC of each STEM window or
SPECTRAL chain, each record once, in window or chain order (R323, R333, R338). -/
def State.systemHeads (s : State) (w : Watch) : List Nat :=
  let ids : List Nat := match w.entry.inputKind with
    | 1 => (s.pixProg w).windows.filterMap (fun p => (s.stemConf? w.entry p).map StemConf.headRec)
    | 2 => (s.adcSeq w).chains.filterMap (fun c => (s.specConf? w.entry c).map SpecConf.headRec)
    | _ => []
  ids.eraseDups.filterMap (fun id => (s.tensor? w.entry id).map PlacedRecord.load)

/-- Issue the next head request of the system controller for watch n, if it has one left and the engine holds fewer than 4
(R338, R349). -/
def issueHead (n : Nat) (s : State) : State :=
  match (s.watch? n).bind (fun w => w.job) with
  | some j =>
    match j.headsLeft with
    | a :: rest =>
      if s.heldHeads < 4 then
        let s := s.modJob n (fun j => { j with headsLeft := rest })
        { s with stem := { s.stem with queue := s.stem.queue ++ [{ watch := n, kind := .head none a 0 }] } }
      else s
    | [] => s
  | none => s

/-- Issue the head requests of the system controller that the engine has room for, in ascending watch number. -/
def issueHeads (s : State) : State :=
  s.watches.foldl (fun s w => (List.range 4).foldl (fun s _ => issueHead w.entry.num s) s) s

/-- Every input unit and spectral output of a job is in the Harbour: VIB_SUMMARY records (R652), then a job without programs
runs its heads or ends, and any other may request admission (R103, R106, R270, R337). A head request to an engine in partial
reset completes at once with UNIT_RESET (R168, R170). -/
def inputsDone (n : Nat) (s : State) : State :=
  match s.watch? n with
  | none => s
  | some w =>
    let s := s.modJob n (fun j => { j with inputsDone := true })
    let q := s.adcSeq w
    let s := if w.vib then releaseAll (q.chains.zipIdx.map (fun x => s.vibDraft w q x.2 x.1)) s else s
    if w.entry.progCount = 0 then
      match s.systemHeads w with
      | [] => endJob n s
      | hs =>
        if ResetUnit.stem ∈ s.sys.resetting then watchFatal n 0x2B 0 none s
        else issueHeads (s.modJob n (fun j => { j with headsLeft := hs }))
    else s

end Sys2Proof.Machine
end

