-- ==== Sys2Proof/Machine/Stem.lean ====
section
/-! DEFINITION. Machine/Stem.lean: the queue of the Stem engine (R320): the spectral front (R333 to R337), head requests (R338 to
R349), ROI export (R451 to R455), group requests and saturation replay (R505 to R512), on-sensor adaptation (R513 to R526), and
errors in its line buffers (R351, R615); with the commands SPECTRAL_FRONT, HEAD_REQUEST, ROI_EXPORT, GROUP_DECISION,
ADAPTATION_STEP and STEM_BUFFER_ERROR. -/
namespace Sys2Proof.Machine
open Sys2Proof

/-! ### The queue -/

/-- Take the front request off the queue. -/
def popStem (s : State) : State := { s with stem := { s.stem with queue := s.stem.queue.drop 1 } }

/-- The job of watch n is being stopped: its queued requests emit nothing more (R617). -/
def State.stopsJob (s : State) (n : Nat) : Bool :=
  match s.stopping with
  | some x => x.watch == n
  | none => false

/-- An uncorrectable error in the line buffers, or in a Harbour line that the engine reads, starts its partial reset (R351, R615). -/
def stemError (s : State) : State := startPartial .stem s

/-- A request of the job of watch n fails the window check (R321): it is gone, and the job is watch-fatal with 0x20. -/
def stemWindow (n : Nat) (s : State) : State := watchFatal n 0x20 0 none s

/-- The system controller still waits for a head request of watch n, or has one left to issue (R338, R349). -/
def State.systemWaits (s : State) (n : Nat) : Bool :=
  s.stem.queue.any (fun r => r.watch == n && (match r.kind with
    | .head none _ _ => true
    | _ => false)) ||
  ((s.watch? n).bind (fun w => w.job)).any (fun j => !j.headsLeft.isEmpty)

/-- A request completes with DONE: SYS_STEM.HEADS, and its event at the core, or the end of the job once the system controller
waits for no other (R348, R352, R539). -/
def headDone (n : Nat) (core : Option Nat) (event : Nat) (s : State) : State :=
  let s := { s with stem := { s.stem with heads := satAdd s.stem.heads 1 0xFFFF } }
  match core with
  | some c =>
    let c : Fin 4 := Fin.ofNat 4 c
    let s := s.modCore c (fun k => { k with heads := k.heads - 1 })
    issueHeads (settle c (raiseEvent c (some event) 13 (s.core c).lastPc s))
  | none => if s.systemWaits n then issueHeads s else issueHeads (endJob n s)

/-- A request completes with DESC_ERROR (R348). -/
def headBad (n : Nat) (s : State) : State :=
  watchFatal n 0x2E 0 none { s with stem := { s.stem with descErrors := satAdd s.stem.descErrors 1 255 } }

/-- A request, or the event of one, completes with ABORTED (R348, R391): the job is watch-fatal with 0x2B, through exception UNIT of
the core that waits. -/
def headAborted (n : Nat) (core : Option Nat) (s : State) : State :=
  let s := { s with stem := { s.stem with aborts := satAdd s.stem.aborts 1 255 } }
  match core with
  | some c =>
    let c : Fin 4 := Fin.ofNat 4 c
    let s := s.modCore c (fun k => { k with heads := k.heads - 1 })
    if s.stopsJob n then s else coreExceptionAt 7 c causeUnit 13 (s.core c).lastPc s
  | none => watchFatal n 0x2B 0 none s

/-! ### Group requests (R506 to R509) -/

/-- A group request's descriptor is as R506 has it. -/
def groupDescOk (b : List Byte) : Bool :=
  decide (leAt b 4 2 ≤ 255) && decide (leAt b 0x18 4 % 64 = 0) && zeroAt b 1 3 && zeroAt b 6 18 && zeroAt b 0x1C 100

/-- GROUPS of a REQUANT_TABLE body (R499). -/
def groupCount (b : List Byte) : Nat := leAt b 0 2

/-- A group request is taken from the queue as soon as it is served, and waits for its round (R506, R509). -/
def takeGroup (w : Watch) (core : Option Nat) (a event : Nat) (b : List Byte) (s : State) : State :=
  let n := w.entry.num
  let s := popStem s
  if s.stopsJob n then s
  else
    let g := leAt b 4 2
    let res := leAt b 0x18 4
    match core, s.quant? w, w.job with
    | some c, some r, some j =>
      if !w.inWindow a 128 then stemWindow n s
      else if !groupDescOk b || decide (groupCount r.body ≤ g) || j.groupReqs.any (fun q => q.core == c && q.group != g) then headBad n s
      else if !w.inWindow (w.entry.hbrBase + res) 64 then stemWindow n s
      else s.modJob n (fun j => { j with groupReqs := j.groupReqs ++ [{ core := c, group := g, result := res, event := event }] })
    | _, _, _ => headBad n s

/-- Take every group request that has come to the front of the queue; `k` bounds them. -/
def takeGroups : Nat → State → State
  | 0, s => s
  | k + 1, s =>
    match s.stem.queue with
    | { watch := n, kind := .head core a ev } :: _ =>
      let b := s.hbrBytesAt a 128
      match s.watch? n with
      | some w =>
        if w.inWindow a 128 && !poisonIn s.harbour a 128 && byteAt b 0 = 4 then takeGroups k (takeGroup w core a ev b s) else s
      | none => takeGroups k (popStem s)
    | _ => s

/-- The request that the engine serves next, if it may work: group requests at the front are taken first. -/
def withFront (s : State) (f : StemReq → Watch → State → State) : State :=
  if s.stemRuns then
    let s := takeGroups s.stem.queue.length s
    match s.stem.queue with
    | r :: _ =>
      match s.watch? r.watch with
      | some w => if s.stopsJob r.watch && r.kind ≠ .adapt then popStem s else f r w s
      | none => popStem s
    | [] => s
  else s

/-! ### The spectral front (R333 to R337) -/

/-- One stage result of the radix-2 transform: even and odd halves joined with half-size outputs (R334 step 2). -/
def butterflies (n : Nat) (e o : List (Int × Int)) : List (Int × Int) :=
  let one := fun (sgn : Int) (k : Nat) =>
    let a := e.getD k (0, 0)
    let b := o.getD k (0, 0)
    let c := twiddleCos k n
    let d := twiddleSin k n
    -- b × (cos − i sin), in units of 2^-30
    let re := b.1 * c + b.2 * d
    let im := b.2 * c - b.1 * d
    (rhe (a.1 * (2 ^ 30 : Nat) + sgn * re) (2 ^ 31), rhe (a.2 * (2 ^ 30 : Nat) + sgn * im) (2 ^ 31))
  (List.range (n / 2)).map (one 1) ++ (List.range (n / 2)).map (one (-1))

/-- The elements at even positions. -/
def evens {α : Type} : List α → List α
  | [] => []
  | [x] => [x]
  | x :: _ :: t => x :: evens t

/-- The decimation-in-time transform of 2^k values (R334). -/
def fftDit : Nat → List (Int × Int) → List (Int × Int)
  | 0, xs => xs
  | k + 1, xs => butterflies (2 ^ (k + 1)) (fftDit k (evens xs)) (fftDit k (evens (xs.drop 1)))

/-- Band energies of one segment (R334): `xs` are its N sample codes. -/
def bandEnergies (c : SpecConf) (xs : List Int) : List Nat :=
  let win := xs.zipIdx.map (fun x => (rhe (x.1 * windowTable c.window x.2 c.n) (2 ^ 13), (0 : Int)))
  let sp := fftDit c.nlog win
  let pw := sp.map (fun z => (z.1 * z.1 + z.2 * z.2).toNat)
  (c.table.take c.bands).map (fun b =>
    min (2 ^ 64 - 1) (((pw.drop b.1).take (b.2 + 1 - b.1)).foldl (· + ·) 0))

/-- The output of one band, and whether it saturated (R335). -/
def logBand (c : SpecConf) (en : Nat) : Int × Bool :=
  let v := en + 1
  let e := Nat.log2 v
  let f := (if 10 ≤ e then v / 2 ^ (e - 10) else v * 2 ^ (10 - e)) - 1024
  let l : Int := (1024 * e + log2Table f : Nat)
  clampI (-128) 127 (rhe ((l - c.logOfs) * c.logMul) 65536)

/-- One output line of band energies with its tag, and whether a band saturated (R336). -/
def bandLine (c : SpecConf) (es : List Nat) : (List Byte × BitVec 16) × Bool :=
  let vs := es.map (logBand c)
  let sat := (vs.filter (·.2)).length
  ((padTo (vs.map (fun v => BitVec.ofInt 8 v.1)) 64, mkTag c.outExp sat 2), sat != 0)

/-- The mean over the segments of each band (R334 step 4). -/
def meanBands (segs : List (List Nat)) : List Nat :=
  (List.range (segs.headD []).length).map (fun b =>
    (rhe ((segs.map (fun e => e.getD b 0)).foldl (· + ·) 0 : Nat) segs.length).toNat)

/-- The header line of an output (R336), from the header line of its block (R304). -/
def specHeader (c : SpecConf) (lines : Nat) (hdr : List Byte) : List Byte :=
  padTo (slice hdr 0 4 ++ leBytes lines 2 ++ leBytes c.bands 1 ++ leBytes (if byteAt hdr 7 % 4 = 0 then 0 else 1) 1 ++
    slice hdr 0xA 2) 64

/-- The spectral front on block k of chain i (R334 to R337). The job's inputs are complete once no output is left and no chain of
the job is still capturing. -/
def spectralRun (w : Watch) (q : AdcSeq) (ch : ChainDesc) (c : SpecConf) (k : Nat) (s : State) : State :=
  let n := w.entry.num
  let src := blockAddr w ch k
  let dst := w.entry.hbrBase + c.outOff + k * c.outStride
  let lines := c.lines q.blockLen
  if !w.inWindow src (64 + 2 * q.blockLen) || !w.inWindow dst (64 + 64 * lines) then stemWindow n (popStem s)
  else if poisonIn s.harbour src (64 + 2 * q.blockLen) then stemError s
  else
    let b := s.hbrBytesAt src (64 + 2 * q.blockLen)
    let seg := fun (i : Nat) =>
      bandEnergies c ((List.range c.n).map (fun m => toSigned (leAt b (64 + 2 * (i * c.h + m)) 2) 14))
    let segs := (List.range (c.segs q.blockLen)).map seg
    let outs := (if c.avg = 1 then [meanBands segs] else segs).map (bandLine c)
    let s := ((useStem w (popStem s)).stemReads [(src, 64 + 2 * q.blockLen)]).putHbrLines (dst / 64) ((specHeader c lines b, 0) :: outs.map (·.1))
    let s := stemSat n (outs.any (·.2)) s
    let left := match w.job with
      | some j => j.spectralLeft - 1
      | none => 0
    let s := s.modJob n (fun j => { j with spectralLeft := left })
    let capturing := s.adc.cap.any (fun c => c.watch == n)
    if left = 0 && !capturing then inputsDone n s else s

/-- SPECTRAL_FRONT: the engine serves the block at the front of its queue (R320, R337). -/
def spectralFront (s : State) : State :=
  withFront s (fun r w s =>
    match r.kind with
    | .spectral i k =>
      let q := s.adcSeq w
      match q.chains[i]?.bind (fun ch => (s.specConf? w.entry ch).map (fun c => (ch, c))) with
      | some (ch, c) => spectralRun w q ch c k s
      | none => popStem s
    | _ => s)

/-! ### Head mode (R338 to R347) -/

/-- A head descriptor of KIND 0, 1 or 2 (R338). -/
structure HeadDesc where
  /-- KIND -/
  kind : Nat
  /-- FLAGS -/
  flags : Nat
  /-- TOPK -/
  topk : Nat
  /-- N_OUT -/
  nOut : Nat
  /-- N_IN -/
  nIn : Nat
  /-- LOGIT_SHIFT -/
  shift : Nat
  /-- MAX_BOXES -/
  maxBoxes : Nat
  /-- LOGIT_MUL -/
  mul : Int
  /-- IN_OFFSET -/
  inOff : Nat
  /-- W_OFFSET -/
  wOff : Nat
  /-- B_OFFSET -/
  bOff : Nat
  /-- RESULT_OFFSET -/
  result : Nat
  /-- LUT_OFFSET -/
  lut : Nat
  /-- GW -/
  gw : Nat
  /-- GH -/
  gh : Nat
  /-- A -/
  anchors : Nat
  /-- REG_SHIFT -/
  regShift : Nat
  /-- WH_SHIFT -/
  whShift : Nat
  /-- STRIDE_X and STRIDE_Y -/
  stride : Nat × Nat
  /-- ORIGIN_X and ORIGIN_Y -/
  origin : Int × Int
  /-- IMG_W and IMG_H -/
  img : Nat × Nat
  /-- SCORE_MIN -/
  scoreMin : Nat
  /-- IOU_THR -/
  iou : Nat

/-- Read a head descriptor (R338). -/
def HeadDesc.read (b : List Byte) : HeadDesc :=
  { kind := byteAt b 0, flags := byteAt b 1, topk := byteAt b 2, nOut := byteAt b 3, nIn := leAt b 4 2, shift := byteAt b 6,
    maxBoxes := byteAt b 7, mul := toSigned (leAt b 8 4) 32, inOff := leAt b 0xC 4, wOff := leAt b 0x10 4,
    bOff := leAt b 0x14 4, result := leAt b 0x18 4, lut := leAt b 0x1C 4, gw := leAt b 0x20 2, gh := leAt b 0x22 2,
    anchors := byteAt b 0x24, regShift := byteAt b 0x25, whShift := byteAt b 0x26,
    stride := (leAt b 0x28 4, leAt b 0x2C 4), origin := (toSigned (leAt b 0x30 4) 32, toSigned (leAt b 0x34 4) 32),
    img := (leAt b 0x38 2, leAt b 0x3A 2), scoreMin := leAt b 0x3C 2, iou := leAt b 0x3E 2 }

/-- The bounds of R338: its table names a KIND only for N_OUT, N_IN and A = 1, and every other bound holds for each KIND. -/
def HeadDesc.ok (d : HeadDesc) (b : List Byte) : Bool :=
  decide (d.kind ≤ 2) && decide (d.flags < 8) && inRange 1 8 d.topk &&
  inRange 1 (if d.kind = 0 then 64 else 60) d.nOut && decide (d.shift ≤ 47) &&
  [d.inOff, d.wOff, d.bOff, d.result, d.lut].all (fun a => a % 64 == 0) && zeroAt b 0x27 1 && zeroAt b 0x40 64 &&
  (d.kind != 0 || inRange 1 4096 d.nIn) && inRange 1 64 d.maxBoxes && inRange 1 256 d.gw && inRange 1 256 d.gh &&
  inRange 1 8 d.anchors && (d.kind != 2 || d.anchors == 1) && decide (d.gw * d.gh * d.anchors ≤ 16384) &&
  decide (d.regShift ≤ 15) && decide (d.whShift ≤ 8)

/-- Bytes of a weight row (R340). -/
def rowBytes (nIn : Nat) : Nat := ceilDiv nIn 64 * 64

/-- The sums a_j and their logits u_j, with whether one saturated (R340): weights at wA, biases at bA. A sum outside 32 bits, of
which the spec states no value, is a free value of the exact sum, so that equal jobs have equal ones (R590, log 41). -/
def logits (m : List Host.Cell) (f : List Int) (wA bA : Nat) (nIn nOut : Nat) (mul : Int) (shift : Nat) :
    List Int × Bool :=
  let sums := (List.range nOut).map (fun j =>
    (List.range nIn).foldl (fun (a : Int) i => a + f.getD i 0 * (rdByte m (wA + j * rowBytes nIn + i)).toInt)
      (toSigned (rdLE m (bA + 4 * j) 4) 32))
  let out := fun (a : Int) => decide (a < -(2 ^ 31 : Nat)) || decide (((2 ^ 31 : Nat) : Int) ≤ a)
  let sums := sums.map (fun a => if out a then (Config.wide 0 a).toInt else a)
  let us := sums.map (fun a => clampI (-32768) 32767 (rhe (a * mul) (2 ^ shift)))
  (us.map (·.1), us.any (·.2))

/-- The softmax scores (R341). -/
def softmax (us : List Int) : List Nat :=
  let m := us.foldl max (us.headD 0)
  let es := us.map (fun u =>
    let d := (m - u).toNat
    if 8192 ≤ d then 0 else (rhe (exp2Table (d % 256) : Nat) (2 ^ (d / 256))).toNat)
  let sum := es.foldl (· + ·) 0
  es.map (fun e => min 65535 (rhe (e * 65536 : Nat) (max 1 sum)).toNat)

/-- The classes in descending score, the lower class first among equals (R342): selection of the best `k`. -/
def topK : Nat → List (Nat × Nat) → List (Nat × Nat)
  | 0, _ => []
  | k + 1, xs =>
    match xs with
    | [] => []
    | x :: t =>
      let best := t.foldl (fun (b : Nat × Nat) y => if b.2 < y.2 then y else b) x
      best :: topK k (xs.filter (fun y => y.1 ≠ best.1))

/-- A candidate or accepted box: its line index, score, class and corners in 16.16 (R343, R344). -/
structure Box where
  /-- line index -/
  line : Nat
  /-- score -/
  score : Nat
  /-- class -/
  cls : Nat
  /-- x0 -/
  x0 : Int
  /-- y0 -/
  y0 : Int
  /-- x1 -/
  x1 : Int
  /-- y1 -/
  y1 : Int

/-- Width or height of an anchor box (R344, KIND 1). -/
def anchorSize (size : Nat) (r : Int) (whShift : Nat) : Int :=
  let v := r * (2 ^ (8 - whShift) : Nat)
  let α := v.fdiv 256
  let i := (v - 256 * α).toNat
  if i = 0 then rheShift size α else rheShift ((size * exp2Table (256 - i) : Nat) : Int) (α + 1 - 16)

/-- Clip a coordinate to 0 to n pixels (R344). -/
def clipTo (n : Nat) (x : Int) : Int := (clampI 0 ((n * 65536 : Nat) : Int) x).1

/-- Decode the candidate of a prediction line, if its best score reaches SCORE_MIN (R343, R344). -/
def decodeLine (d : HeadDesc) (m : List Host.Cell) (base i : Nat) : Option Box :=
  let b := rdBytes m (base + d.inOff + 64 * i) 64
  let scores := (List.range d.nOut).map (fun c =>
    (c, rdLE m (base + d.lut + 2 * (toSigned (byteAt b (4 + c)) 8 + 128).toNat) 2))
  match topK 1 scores with
  | [] => none
  | (cls, score) :: _ =>
    if score < d.scoreMin then none
    else
      let a := i % d.anchors
      let gx := i / d.anchors % d.gw
      let gy := i / d.anchors / d.gw
      let r := fun (n : Nat) => toSigned (byteAt b n) 8
      let cx := d.origin.1 + rhe ((2 * gx + 1) * d.stride.1 : Nat) 2
      let cy := d.origin.2 + rhe ((2 * gy + 1) * d.stride.2 : Nat) 2
      let q := 2 ^ d.regShift
      let (x0, y0, x1, y1) :=
        if d.kind = 1 then
          let aw := rdLE m (base + d.wOff + 8 * a) 4
          let ah := rdLE m (base + d.wOff + 8 * a + 4) 4
          let cx := cx + rhe (r 0 * aw) q
          let cy := cy + rhe (r 1 * ah) q
          let hw := rhe (anchorSize aw (r 2) d.whShift) 2
          let hh := rhe (anchorSize ah (r 3) d.whShift) 2
          (cx - hw, cy - hh, cx + hw, cy + hh)
        else
          let p := fun (n : Nat) => max 0 (r n)
          (cx - rhe (p 0 * d.stride.1) q, cy - rhe (p 1 * d.stride.2) q, cx + rhe (p 2 * d.stride.1) q,
            cy + rhe (p 3 * d.stride.2) q)
      some { line := i, score := score, cls := cls, x0 := clipTo d.img.1 x0, y0 := clipTo d.img.2 y0,
             x1 := clipTo d.img.1 x1, y1 := clipTo d.img.2 y1 }

/-- Area of a box. -/
def Box.area (b : Box) : Int := (b.x1 - b.x0) * (b.y1 - b.y0)

/-- An accepted box suppresses a later one (R345). -/
def Box.suppresses (d : HeadDesc) (a b : Box) : Bool :=
  let iw := max 0 (min a.x1 b.x1 - max a.x0 b.x0)
  let ih := max 0 (min a.y1 b.y1 - max a.y0 b.y0)
  let inter := iw * ih
  let union := a.area + b.area - inter
  (!bitN d.flags 1 || a.cls == b.cls) && decide ((d.iou : Int) * union < 65536 * inter)

/-- Insert a candidate in descending score, ascending line among equals (R345). -/
def insertBox (b : Box) : List Box → List Box
  | [] => [b]
  | x :: t => if x.score < b.score then b :: x :: t else x :: insertBox b t

/-- Non-maximum suppression: the accepted boxes in acceptance order (R345). -/
def nms (d : HeadDesc) (cands : List Box) : List Box :=
  cands.foldl (fun (acc : List Box) b =>
    if d.maxBoxes ≤ acc.length || acc.any (fun a => a.suppresses d b) then acc else acc ++ [b]) []

/-- The first line of a result area (R346): top-k classes and scores, accepted boxes, candidates beyond 256. -/
def resultLine (top : List (Nat × Nat)) (boxes beyond : Nat) : List Byte :=
  padTo ((List.range 8).flatMap (fun i => leBytes ((top[i]?.map (·.1)).getD 0xFF) 1) ++
    (List.range 8).flatMap (fun i => leBytes ((top[i]?.map (·.2)).getD 0) 2) ++ leBytes boxes 2 ++
    leBytes (min beyond 0xFFFFFFFF) 4) 64

/-- A box in a result area: 32 bytes (R346). -/
def Box.bytes (b : Box) : List Byte :=
  [b.x0, b.y0, b.x1, b.y1].flatMap (fun x => leBytes (ofSigned x 32) 4) ++ leBytes b.score 2 ++ leBytes b.cls 1 ++ zeros 13

/-- A 12.4 coordinate of a record (R649). -/
def coord124 (x : Int) : Nat := (clampI 0 65535 (rhe x 4096)).1.toNat
/-- A whole-pixel coordinate of a record (R649). -/
def coordPix (x : Int) : Nat := (clampI 0 4095 (rhe x 65536)).1.toNat

/-- The LABEL record (R347, R649). -/
def labelDraft (w : Watch) (d : HeadDesc) (top : List (Nat × Nat)) : Draft :=
  let cls := fun n => (List.range n).flatMap (fun i => leBytes ((top[i]?.map (·.1)).getD 0xFF) 1)
  let sc := fun n => (List.range n).flatMap (fun i => leBytes ((top[i]?.map (·.2)).getD 0) 2)
  jobDraft w 1 false (cls 4 ++ sc 4 ++ leBytes d.topk 1) (cls 2 ++ sc 2 ++ leBytes d.topk 1)

/-- A BOX record, number i of n (R347, R649). -/
def boxDraft (w : Watch) (n : Nat) (b : Box) (i : Nat) : Draft :=
  let cs := [b.x0, b.y0, b.x1, b.y1]
  let packed := (cs.map coordPix).zipIdx.foldl (fun (t : Nat) x => t + x.1 * 2 ^ (12 * x.2)) 0
  jobDraft w 2 (decide (i + 1 < n))
    (cs.flatMap (fun x => leBytes (coord124 x) 2) ++ leBytes b.cls 1 ++ leBytes i 1 ++ leBytes b.score 2 ++ leBytes n 2)
    (leBytes packed 6 ++ leBytes b.cls 1 ++ leBytes (min 255 (rhe b.score 256).toNat) 1)

/-- Release the records of a request; the classes and scores they carry join what the job emitted (R47, R347). -/
def emitHead (w : Watch) (emit : Bool) (ds : List Draft) (fired : List (Nat × Nat)) (s : State) : State :=
  if emit then (releaseAll ds s).modJob w.entry.num (fun j => { j with fired := j.fired ++ fired }) else s

/-! #### The adapted head in service (R513, R516) -/

/-- Bytes of the weight rows of a service buffer (R516). -/
def weightBytes (nIn nOut : Nat) : Nat := nOut * rowBytes nIn
/-- SS: the service size (R513). -/
def serviceSize (nIn nOut : Nat) : Nat := weightBytes nIn nOut + 64 * ceilDiv nOut 16

/-- Harbour offset of a service buffer of watch w: A, or B when `b` (R513). -/
def serviceAddr (w : Watch) (a : AdaptBlock) (nIn nOut : Nat) (b : Bool) : Nat :=
  w.entry.hbrBase + a.serviceOff + (if b then serviceSize nIn nOut else 0)

/-- The adapted head that a request with USE_ADAPTED takes: the block and whether buffer B is active (R339, R516). -/
def State.adapted? (s : State) (w : Watch) (d : HeadDesc) : Option (AdaptBlock × Bool) :=
  if bitN d.flags 2 && d.kind == 0 then
    match s.adaptBlock? w, w.adapt with
    | some b, some a => some (b, a.activeB)
    | _, _ => none
  else none

/-- Keep the features of a request with USE_ADAPTED (R518): the ring entry (JOBS mod RING_LEN). -/
def keepFeatures (w : Watch) (b : AdaptBlock) (d : HeadDesc) (top : Nat × Nat) (s : State) : State :=
  let e := w.jobs % max 1 b.ringLen
  let a := ringAddr w b d.nIn e
  let num := (w.job.getD {}).unitNum
  let hdr := padTo (leBytes num 4 ++ leBytes 1 1 ++ leBytes top.1 1 ++ leBytes top.2 2) 64
  let f := padTo (s.hbrBytesAt (w.entry.hbrBase + d.inOff) d.nIn) (rowBytes d.nIn)
  ((s.putHbrLines (a / 64) [(hdr, 0)]).putHbr (a + 64) f).modJob w.entry.num (fun j => { j with kept := some (e, top.1, top.2) })

/-- The Harbour ranges that a request reads, relative to nothing: Harbour offsets and sizes. -/
def HeadDesc.reads (d : HeadDesc) (base wA bA : Nat) : List (Nat × Nat) :=
  if d.kind = 0 then [(base + d.inOff, d.nIn), (wA, weightBytes d.nIn d.nOut), (bA, 4 * d.nOut)]
  else [(base + d.inOff, 64 * d.gw * d.gh * d.anchors), (base + d.lut, 512)] ++
    (if d.kind = 1 then [(base + d.wOff, 8 * d.anchors)] else [])

/-- Classify (R340 to R342, R346, R347). The class and score that the record brings to a chained trigger or a self-label are the
first, its top ones (R47, log 71). -/
def classify (w : Watch) (d : HeadDesc) (wA bA : Nat) (ad : Option AdaptBlock) (s : State) : State :=
  let base := w.entry.hbrBase
  let f := (s.hbrBytesAt (base + d.inOff) d.nIn).map (fun x => x.toInt)
  let (us, sat) := logits s.harbour.data f wA bA d.nIn d.nOut d.mul d.shift
  let s := stemSat w.entry.num sat s
  let top := topK d.topk ((softmax us).zipIdx.map (fun x => (x.2, x.1)))
  let s := s.putHbrLines ((base + d.result) / 64) [(resultLine top 0 0, 0)]
  let s := match ad with
    | some b => keepFeatures w b d (top.headD (0, 0)) s
    | none => s
  emitHead w (bitN d.flags 0 && w.entry.recordKinds.getLsbD 0) [labelDraft w d top] [top.headD (0, 0)] s

/-- Decode boxes and suppress (R343 to R347). The lines written, those of the boxes accepted, are checked against the window
(R321). -/
def detect (w : Watch) (d : HeadDesc) (s : State) : Option State :=
  let base := w.entry.hbrBase
  let cands := ((List.range (d.gw * d.gh * d.anchors)).filterMap (decodeLine d s.harbour.data base)).foldl
    (fun (l : List Box) b => insertBox b l) []
  let acc := nms d (cands.take 256)
  let top := (acc.take d.topk).map (fun b => (b.cls, b.score))
  let body := resultLine top acc.length (cands.length - 256) ++ acc.flatMap Box.bytes
  let n := 1 + ceilDiv acc.length 2
  if !w.inWindow (base + d.result) (64 * n) then none
  else
    let s := s.putHbrLines ((base + d.result) / 64) ((toLines body n).map (fun l => (l, 0)))
    some (emitHead w (bitN d.flags 0 && w.entry.recordKinds.getLsbD 1) (acc.zipIdx.map (fun x => boxDraft w acc.length x.1 x.2))
      (acc.map (fun b => (b.cls, b.score))) s)

/-- A range of the Harbour touches no line of an absent record (R235, R242). -/
def State.present (s : State) (a n : Nat) : Bool :=
  s.image.absent.all (fun r => decide (a + n ≤ r.1) || decide (r.1 + r.2 ≤ a))

/-- The weights or tables that a descriptor names by an offset: weight rows (KIND 0), the score table, the anchor table (R338). -/
def HeadDesc.tables (d : HeadDesc) (base : Nat) (adapted : Bool) : List (Nat × Nat) :=
  if d.kind = 0 then (if adapted then [] else [(base + d.wOff, weightBytes d.nIn d.nOut)])
  else (base + d.lut, 512) :: (if d.kind = 1 then [(base + d.wOff, 8 * d.anchors)] else [])

/-- Serve a head request of KIND 0, 1 or 2 (R338 to R348). A weight or table in the lines of a record that is absent is not
present (R235, R242, R348, log 72). -/
def serveHead (w : Watch) (core : Option Nat) (event a : Nat) (b : List Byte) (s : State) : State :=
  let n := w.entry.num
  let d := HeadDesc.read b
  let base := w.entry.hbrBase
  if !d.ok b then headBad n (popStem s)
  else
    let ad := s.adapted? w d
    let shape := match ad with
      | some (a, _) => s.headShape w a
      | none => (d.nIn, d.nOut)
    if ad.any (fun x => poisonIn s.harbour (base + x.1.headDesc) 64) then stemError s
    else if shape ≠ (d.nIn, d.nOut) || !(d.tables base ad.isSome).all (fun r => s.present r.1 r.2) then headBad n (popStem s)
    else
      let wA := match ad with
        | some (a, act) => serviceAddr w a d.nIn d.nOut act
        | none => base + d.wOff
      let bA := match ad with
        | some _ => wA + weightBytes d.nIn d.nOut
        | none => base + d.bOff
      let rs := d.reads base wA bA
      if !rs.all (fun r => w.inWindow r.1 r.2) then stemWindow n (popStem s)
      else if rs.any (fun r => poisonIn s.harbour r.1 r.2) then stemError s
      else
        let s := (useStem w (popStem s)).stemReads ((a, 128) :: rs)
        let done := if d.kind = 0 then
            (if w.inWindow (base + d.result) 64 then some (classify w d wA bA (ad.map (·.1)) s) else none)
          else detect w d s
        match done with
        | some t => headDone n core event t
        | none => stemWindow n s

/-- HEAD_REQUEST: the engine serves the head request at the front of its queue; an export request is ROI_EXPORT's (R320, R348). -/
def headRequest (s : State) : State :=
  withFront s (fun r w s =>
    match r.kind with
    | .head core a ev =>
      if !w.inWindow a 128 then stemWindow r.watch (popStem s)
      else if poisonIn s.harbour a 128 then stemError s
      else
        let b := s.hbrBytesAt a 128
        if byteAt b 0 = 3 then s else serveHead w core ev a b s
    | _ => s)

/-! ### ROI export (R451 to R455) -/

/-- An export descriptor is as R451 has it. -/
def exportOk (b : List Byte) : Bool :=
  decide (byteAt b 1 ≤ 1) && inRange 1 64 (byteAt b 2) && inRange 1 64 (byteAt b 3) && decide (leAt b 4 4 % 512 = 0) &&
  (decide (byteAt b 0x1A ≤ 63) || byteAt b 0x1A == 0xFF) && zeroAt b 0x1C 100

/-- The life-cycle states decoded at boot in which an export may be emitted: TEST, FACTORY, PROVISIONED, FIELD (R453). -/
def exportState (lc : Nat) : Bool := decide (1 ≤ lc) && decide (lc ≤ 4)

/-- The berth of the watch that an export names (R452). -/
def State.exportBerth? (s : State) (w : Watch) (off : Nat) : Option (Nat × Nat) :=
  ((List.range 64).filter (fun i => w.entry.berthMask.getLsbD i)).findSome? (fun i =>
    (s.berthPlace? i).bind (fun p => if p.1 = w.entry.hbrBase + off then some (i, p.1) else none))

/-- The samples of an export in row-major order (R446 to R449, R454). -/
def exportSamples (m : List Host.Cell) (a inW inH ow oh : Nat) (nearest : Bool) (box : Nat → Int) (extrap : Nat) : List Byte :=
  let row := ceilDiv inW 64 * 64
  let px := fun (y x : Nat) => (FVal.fin false (rdByte m (a + 64 + y * row + x)).toNat 0, (0 : BitVec 4))
  (List.range oh).flatMap (fun v => (List.range ow).map (fun u =>
    let ax := cropAxis nearest (cropPos u ow (box 0) (box 2)) inW
    let ay := cropAxis nearest (cropPos v oh (box 1) (box 3)) inH
    match ax, ay with
    | some ax, some ay => BitVec.ofNat 8 (cropSample (.int 8 false) nearest ax ay px).code
    | _, _ => BitVec.ofNat 8 extrap))

/-- The lines of the berth that the samples of an export read, as Harbour line numbers: those of the neighbours of every sample
inside the image (R447 to R449, R454, R615). -/
def exportLines (a inW inH ow oh : Nat) (nearest : Bool) (box : Nat → Int) : List Nat :=
  let row := ceilDiv inW 64 * 64
  let xs := (List.range ow).filterMap (fun u => cropAxis nearest (cropPos u ow (box 0) (box 2)) inW)
  let ys := (List.range oh).filterMap (fun v => cropAxis nearest (cropPos v oh (box 1) (box 3)) inH)
  let cols := (xs.flatMap (fun x => [x.1 / 64, x.2.1 / 64])).eraseDups
  ((ys.flatMap (fun y => [y.1, y.2.1])).eraseDups).flatMap (fun y => cols.map (fun x => (a + 64 + y * row) / 64 + x))

/-- The records of an export (R454, R649). -/
def exportDrafts (w : Watch) (b : List Byte) (samples : List Byte) (box : Nat → Int) : List Draft :=
  let p := if w.flag 3 then 8 else 16
  let n := ceilDiv samples.length p
  let head := slice b 2 2 ++ slice b 0x1A 1 ++ slice b 1 1 ++ slice b 0x18 2 ++ leBytes n 2
  let bx := (List.range 4).flatMap (fun i => leBytes (coord124 (box i)) 2)
  jobDraft w 3 true (head ++ bx) head ::
  (List.range n).map (fun i =>
    let d := padTo (slice samples (i * p) p) p
    jobDraft w 4 (decide (i + 1 < n)) d d)

/-- Serve an export request (R452 to R454); only the lines it reads are checked (R321, R615). -/
def serveExport (w : Watch) (core : Option Nat) (event : Nat) (b : List Byte) (s : State) : State :=
  let n := w.entry.num
  match (if exportOk b then s.exportBerth? w (leAt b 4 4) else none) with
  | none => headBad n (popStem s)
  | some (i, a) =>
    if !w.inWindow a 64 then stemWindow n (popStem s)
    else if poisonIn s.harbour a 64 then stemError s
    else if byteAt (s.hbrBytesAt a 64) 5 ≠ 0 || s.berth i ≠ .ready then headBad n (popStem s)
    else if !(w.flag 4 && w.entry.recordKinds.getLsbD 2 && exportState s.otp.lcBoot) then
      let s := popStem s
      headDone n core event { s with stem := { s.stem with roiRefused := satAdd s.stem.roiRefused 1 0xFFFF } }
    else
      let inW := s.hbr (a + 6) 2
      let inH := s.hbr (a + 8) 2
      let box := fun (i : Nat) => toSigned (leAt b (8 + 4 * i) 4) 32
      let ls := exportLines a inW inH (byteAt b 2) (byteAt b 3) (byteAt b 1 == 1) box
      if !ls.all (fun l => w.inWindow (64 * l) 64) then stemWindow n (popStem s)
      else if ls.any s.harbour.poisoned then stemError s
      else
        let ss := exportSamples s.harbour.data a inW inH (byteAt b 2) (byteAt b 3) (byteAt b 1 == 1) box (byteAt b 0x1B)
        let s := (useStem w (popStem s)).stemReads ((a, 64) :: ls.map (fun l => (64 * l, 64)))
        let s := releaseAll (exportDrafts w b ss box) s
        headDone n core event { s with stem := { s.stem with roiEmitted := satAdd s.stem.roiEmitted 1 0xFFFF } }

/-- ROI_EXPORT: the engine serves the export request at the front of its queue (R320, R451). -/
def roiExport (s : State) : State :=
  withFront s (fun r w s =>
    match r.kind with
    | .head core a ev =>
      if !w.inWindow a 128 then stemWindow r.watch (popStem s)
      else if poisonIn s.harbour a 128 then stemError s
      else
        let b := s.hbrBytesAt a 128
        if byteAt b 0 = 3 then serveExport w core ev b s else s
    | _ => s)

/-! ### The group decision (R507, R508) -/

/-- The group entry g of a REQUANT_TABLE body, and the PROFILE of its layer i (R500, R501). -/
def groupEntry (b : List Byte) (g : Nat) : Nat × Nat × Bool :=
  let o := leAt b 4 4 + 16 * g
  (leAt b o 2, byteAt b (o + 2), bitN (byteAt b (o + 3)) 0)

/-- PROFILE of layer l (R501). -/
def layerProfile (b : List Byte) (l : Nat) : Nat := byteAt b (leAt b 8 4 + 16 * l)

/-- T_l of each layer: the cores' counters and the running totals (R507 step 1). -/
def State.groupTotals (s : State) (w : Watch) (j : Job) : List Nat :=
  (List.range 8).map (fun l =>
    w.coreList.foldl (fun (t : Nat) c => t + (((s.core c).regs.satc[l]?).getD 0).toNat) (j.totals.getD l 0))

/-- The decision is REPLAY (R507 step 2). -/
def replayDecision (b : List Byte) (g budget : Nat) (ts : List Nat) : Bool :=
  let (first, count, replayable) := groupEntry b g
  replayable && decide (budget ≠ 0xFFFFFFFF) &&
  (List.range (min count 8)).any (fun i => layerProfile b (first + i) == 0 && decide (budget < ts.getD i 0))

/-- The field of a total in a result line (R507 step 3). The spec states none for a total outside 32 bits: a free value of the
total, so that equal jobs have equal ones (R590, log 41). -/
def totalField (t : Nat) : Nat := if t < 2 ^ 32 then t else (Config.wide 1 t).toNat

/-- Make the decision of group g for the job of watch w (R507, R508). -/
def decideGroup (w : Watch) (j : Job) (body : List Byte) (g : Nat) (s : State) : State :=
  let n := w.entry.num
  let ts := s.groupTotals w j
  let again := replayDecision body g w.entry.satBudget ts
  let line := leBytes (b2n again) 1 ++ zeros 3 ++ ts.flatMap (fun t => leBytes (totalField t) 4)
  let rs := j.groupReqs.filter (fun r => r.group == g)
  let s := rs.foldl (fun s r => s.putHbrLines ((w.entry.hbrBase + r.result) / 64) [(padTo line 64, 0)]) s
  let s := s.modCores w.coreList (fun k => { k with regs := { k.regs with satc := Vector.replicate 8 0 } })
  let s := s.modJob n (fun j => { j with groupReqs := j.groupReqs.filter (fun r => r.group != g), totals := List.replicate 8 0,
                                         replayed := j.replayed + b2n again })
  let s := if again then
      { s.modWatch n (fun w => { w with replays := satAdd w.replays 1 0xFFFFFFFF }) with
          stem := { s.stem with replays := satAdd s.stem.replays 1 0xFFFF, lastReplayWatch := n } }
    else s
  rs.foldl (fun s r => headDone n (some r.core) r.event s) s

/-- The group whose round is complete in the job in Spring (R507). -/
def State.roundDone? (w : Watch) (j : Job) : Option Nat :=
  (j.groupReqs.map (·.group)).find? (fun g =>
    !w.coreList.isEmpty && w.coreList.all (fun c => j.groupReqs.any (fun r => r.core == c.val && r.group == g)))

/-- GROUP_DECISION: every core of the job has issued a request for the same group (R507). -/
def groupDecision (s : State) : State :=
  if s.stemRuns then
    let s := takeGroups s.stem.queue.length s
    match s.springWatch with
    | some w =>
      match w.job, s.quant? w with
      | some j, some r =>
        match (if s.stopping.isSome then none else State.roundDone? w j) with
        | some g => decideGroup w j r.body g s
        | none => s
      | _, _ => s
    | none => s
  else s

/-! ### On-sensor adaptation (R513 to R526) -/

/-- The state area of an adapted head (R514). -/
structure AdaptArea where
  /-- Harbour offset of the state area -/
  base : Nat
  /-- N_IN -/
  nIn : Nat
  /-- N_OUT -/
  nOut : Nat

/-- R1: bytes of a momentum row (R513). -/
def AdaptArea.r1 (a : AdaptArea) : Nat := alignUp (a.nIn + 1) 64
/-- R2: bytes of a master row (R513). -/
def AdaptArea.r2 (a : AdaptArea) : Nat := ceilDiv (a.nIn + 1) 32 * 64
/-- S: the state size (R513). -/
def AdaptArea.size (a : AdaptArea) : Nat := 64 + a.nOut * (a.r1 + a.r2) + 64 * ceilDiv a.nOut 16
/-- Offset of master i of row j (R514). -/
def AdaptArea.master (a : AdaptArea) (j i : Nat) : Nat := a.base + 64 + j * a.r2 + 2 * i
/-- Offset of momentum i of row j (R514). -/
def AdaptArea.momentum (a : AdaptArea) (j i : Nat) : Nat := a.base + 64 + a.nOut * a.r2 + j * a.r1 + i
/-- Offset of row scale j (R514). -/
def AdaptArea.sigma (a : AdaptArea) (j : Nat) : Nat := a.base + 64 + a.nOut * (a.r2 + a.r1) + 4 * j

/-- The state area of a watch (R513, R514). -/
def State.adaptArea (s : State) (w : Watch) (b : AdaptBlock) : AdaptArea :=
  let sh := s.headShape w b
  { base := w.entry.hbrBase + b.stateOff, nIn := sh.1, nOut := sh.2 }

/-- An exact value rounded to an integer format, with its flags (R462, R464, R476). -/
def fToInt (bits : Nat) (v : FVal) : Int × BitVec 4 :=
  match v with
  | .fin n m e =>
    let r := rheShift (signedOf n m) e
    let c := clampI (intLo bits true) (intHi bits true) r
    (c.1, if c.2 then flSat else if e < 0 && !exactDiv m (2 ^ (-e).toNat) then flInexact else 0)
  | .inf n => (if n then intLo bits true else intHi bits true, flSat)
  | .nan => (0, flInvalid)

/-- A value scaled by 2^k and rounded to an integer format. -/
def scaleToInt (bits : Nat) (v : FVal) (k : Nat) : Int × BitVec 4 := fToInt bits (v.scale k)

/-- Exact product of two values. -/
def FVal.times (x y : FVal) : FVal :=
  match x, y with
  | .fin n1 m1 e1, .fin n2 m2 e2 => .fin (n1 ^^ n2) (m1 * m2) (e1 + e2)
  | .nan, _ => .nan
  | _, .nan => .nan
  | _, _ => .inf (match x, y with
    | .inf a, .inf b => a ^^ b
    | .inf a, .fin b _ _ => a ^^ b
    | .fin a _ _, .inf b => a ^^ b
    | _, _ => false)

/-- An integer as a value. -/
def intVal (x : Int) (e : Int) : FVal := .fin (decide (x < 0)) x.natAbs e

/-- Read a code of a float format in sat mode. -/
def FFmt.get (f : FFmt) (code : Nat) : FVal × BitVec 4 := f.satOperand code

/-- Round a value to a format in sat mode. -/
def FFmt.put (f : FFmt) (v : FVal) : Nat × BitVec 4 :=
  match v with
  | .fin n m e => f.round n m e
  | .inf n => (f.maxOf n, flSat)
  | .nan => (f.nan, flInvalid)

/-- Magnitude of a value. -/
def FVal.abs : FVal → FVal
  | .nan => .nan
  | .inf _ => .inf false
  | .fin _ m e => .fin false m e

/-- Row j of one step (R522): new momentum, master and scale codes, and the flags. `f` holds f[0..N_IN], the bias column last. -/
def stepRow (m : List Host.Cell) (a : AdaptArea) (b : AdaptBlock) (j : Nat) (g : Int) (f : List Int) :
    (List Int × List Nat × Nat) × BitVec 4 :=
  let sg := fmtF32.get (rdLE m (a.sigma j) 4)
  let ms := f.zipIdx.map (fun x =>
    let gq := fmtE5M2.put (intVal (g * x.1) (-16))
    let old := (rdByte m (a.momentum j x.2)).toInt
    let p := fmtF32.put ((intVal (b.beta * old) (-8)).times sg.1)
    let r := fmtF32.add (fmtF32.get p.1).1 (fmtE5M2.get gq.1).1
    (r.1, gq.2 ||| p.2 ||| r.2))
  let fl := ms.foldl (fun (t : BitVec 4) x => t ||| x.2) sg.2
  let mx := ms.foldl (fun (t : Nat) x =>
    let v := x.1 % 2 ^ 31
    if (fmtF32.decode t).isNan || (fmtF32.decode v).isNan then fmtF32.nan
    else if (fmtF32.decode t).lt false (fmtF32.decode v) then v else t) 0
  let (mom, sig, fl2) :=
    if mx = 0 then (ms.map (fun _ => (0 : Int)), 0, (0 : BitVec 4))
    else
      let r := f32Rcp mx
      let s := match fmtF32.decode mx with
        | .fin n k e => fmtF32.roundQ false n k 127 e
        | _ => (fmtF32.nan, flInvalid)
      let xs := ms.map (fun x => fToInt 8 (((fmtF32.decode x.1).times (intVal 127 0)).times (fmtF32.decode r.1)))
      (xs.map (·.1), s.1, xs.foldl (fun (t : BitVec 4) x => t ||| x.2) (r.2 ||| s.2))
  let mast := ms.zipIdx.map (fun x =>
    let old := fmtBF16.get (rdLE m (a.master j x.2) 2)
    let r := fmtBF16.add old.1 ((fmtF32.decode x.1.1).scale (-(b.lrShift : Int))).neg
    (r.1, r.2 ||| old.2))
  ((mom, mast.map (·.1), sig), mast.foldl (fun (t : BitVec 4) x => t ||| x.2) (fl ||| fl2))

/-- The service weights and biases computed from the masters, as the bytes of a service buffer, with the flags (R516, R522). -/
def serviceBytes (m : List Host.Cell) (a : AdaptArea) (b : AdaptBlock) : List Byte × BitVec 4 :=
  let val := fun (j i : Nat) => fmtBF16.get (rdLE m (a.master j i) 2)
  let rows := (List.range a.nOut).map (fun j => (List.range a.nIn).map (fun i =>
    let v := val j i
    let r := scaleToInt 8 v.1 b.wqShift
    (r.1, r.2 ||| v.2)))
  let bias := (List.range a.nOut).map (fun j =>
    let v := val j a.nIn
    let r := scaleToInt 32 v.1 b.bqShift
    (r.1, r.2 ||| v.2))
  (rows.flatMap (fun r => padTo (r.map (fun x => BitVec.ofInt 8 x.1)) (rowBytes a.nIn)) ++
     padTo (bias.flatMap (fun x => leBytes (ofSigned x.1 32) 4)) (64 * ceilDiv a.nOut 16),
   (rows.flatten ++ bias).foldl (fun (t : BitVec 4) x => t ||| x.2) 0)

/-- Compute the service buffer from the masters into buffer A, or B (R522, R525). -/
def writeService (w : Watch) (b : AdaptBlock) (toB : Bool) (s : State) : State × BitVec 4 :=
  let a := s.adaptArea w b
  let r := serviceBytes s.harbour.data a b
  (s.putHbrWhole (serviceAddr w b a.nIn a.nOut toB) r.1, r.2)

/-- The ADAPT record (R526, R649, R650): the number of the ring entry, STEPS, the class, the source and the flags. -/
def adaptDraft (n num steps cls source : Nat) (fl : BitVec 4) : Draft :=
  let p := leBytes steps 4 ++ leBytes cls 1 ++ leBytes source 1 ++ leBytes fl.toNat 1
  { type := 9, watch := some n, frame := num, plain := p, short := p }

/-- Release the ADAPT record where RECORD_KINDS asks for it (R526). -/
def emitAdapt (w : Watch) (d : Draft) (s : State) : State := if w.entry.recordKinds.getLsbD 5 then release d s else s

/-- A commit of an adapted head that could not be made counts as failed (R524). -/
def headNotCommitted (byHost : Bool) (s : State) : State :=
  let s := { s with stem := { s.stem with adaptCommitFails := satAdd s.stem.adaptCommitFails 1 255 } }
  if byHost then labelComplete 6 s else s

/-- Request the commit of the state area to its adapted-head slot (R524). -/
def commitHead (w : Watch) (b : AdaptBlock) (byHost : Bool) (s : State) : State :=
  let a := s.adaptArea w b
  adaptRead [(a.base, a.size)] (headNotCommitted byHost) (fun s =>
    requestCommit { record := 1 + b.slot, body := s.hbrBytesAt a.base a.size, cause := .head w.entry.num byHost } s) s

/-- A step of the watch has ended: the inactive buffer is pending, and a trigger that waited for the watch's steps is accepted
once none is left (R517, R521). -/
def stepEnded (n : Nat) (s : State) : State :=
  tryHeld n (s.modWatch n (fun w => { w with adapt := w.adapt.map (fun a => { a with labels := a.labels.drop 1, pending := true }) }))

/-- One step on ring entry e with label y (R522 to R526). -/
def adaptStep (w : Watch) (b : AdaptBlock) (act : Bool) (e y : Nat) (byHost : Bool) (s : State) : State :=
  let n := w.entry.num
  let a := s.adaptArea w b
  let ring := ringAddr w b a.nIn e
  let num := s.hbr ring 4
  let f := (s.hbrBytesAt (ring + 64) a.nIn).map (fun x => x.toInt)
  let buf := serviceAddr w b a.nIn a.nOut act
  let desc := HeadDesc.read (s.hbrBytesAt (w.entry.hbrBase + b.headDesc) 128)
  let (us, sat) := logits s.harbour.data f buf (buf + weightBytes a.nIn a.nOut) a.nIn a.nOut desc.mul desc.shift
  let scores := softmax us
  let m := s.harbour.data
  let rows := (List.range a.nOut).map (fun j =>
    stepRow m a b j ((scores.getD j 0 : Int) - (if j = y then 65536 else 0)) (f ++ [1]))
  let fl := rows.foldl (fun (t : BitVec 4) r => t ||| r.2) (if sat then flSat else 0)
  let s := s.putHbrWhole (a.master 0 0) (rows.flatMap (fun r => padTo (r.1.2.1.flatMap (fun x => leBytes x 2)) a.r2))
  let s := s.putHbrWhole (a.momentum 0 0) (rows.flatMap (fun r => padTo (r.1.1.map (fun x => BitVec.ofInt 8 x)) a.r1))
  let s := s.putHbrWhole (a.sigma 0) (padTo (rows.flatMap (fun r => leBytes r.1.2.2 4)) (64 * ceilDiv a.nOut 16))
  let r := writeService w b (!act) s
  let steps := (s.hbr (a.base + 8) 4 + 1) % 2 ^ 32
  let since := min 255 (s.hbr (a.base + 14) 1 + 1)
  let s := (r.1.putHbr (a.base + 8) (leBytes steps 4)).putHbr (a.base + 14) (leBytes since 1)
  let s := { s with stem := { s.stem with adaptSteps := satAdd s.stem.adaptSteps 1 0xFFFF } }
  let s := emitAdapt w (adaptDraft n num steps y (if byHost then 1 else 2) (fl ||| r.2)) s
  let s := stepEnded n s
  if b.commitEvery ≤ since then commitHead w b byHost s else if byHost then labelComplete 0 s else s

/-- The Harbour ranges that a step of a watch reads. -/
def adaptReads (w : Watch) (b : AdaptBlock) (a : AdaptArea) (act : Bool) (e : Nat) : List (Nat × Nat) :=
  [(a.base, a.size), (ringAddr w b a.nIn e, 64 + rowBytes a.nIn), (w.entry.hbrBase + b.headDesc, 128),
   (serviceAddr w b a.nIn a.nOut act, serviceSize a.nIn a.nOut)]

/-- ADAPTATION_STEP: the step at the front of the queue (R320, R523), unless a commit of the watch's head slot runs or waits
(R704). -/
def adaptationStep (s : State) : State :=
  withFront s (fun r w s =>
    match r.kind with
    | .adapt =>
      match s.adaptBlock? w, w.adapt with
      | some b, some a =>
        match a.labels with
        | (e, y, byHost) :: _ =>
          if s.committing (1 + b.slot) then s
          else if (adaptReads w b (s.adaptArea w b) a.activeB e).any (fun r => poisonIn s.harbour r.1 r.2) then stemError s
          else
            let rs := adaptReads w b (s.adaptArea w b) a.activeB e
            adaptStep w b a.activeB e y byHost ((useStem w (popStem s)).stemReads rs)
        | [] => popStem s
      | _, _ => popStem s
    | _ => s)

/-- The Harbour ranges from which the state area is rebuilt: HEAD_DESC and the weights and biases that it names (R525). -/
def imageReads (w : Watch) (b : AdaptBlock) (s : State) : List (Nat × Nat) :=
  let a := s.adaptArea w b
  let d := HeadDesc.read (s.hbrBytesAt (w.entry.hbrBase + b.headDesc) 128)
  [(w.entry.hbrBase + b.headDesc, 128), (w.entry.hbrBase + d.wOff, weightBytes a.nIn a.nOut), (w.entry.hbrBase + d.bOff, 4 * a.nOut)]

/-- The state area rebuilt from the image (R525): masters from the weights and biases of HEAD_DESC, the rest zero. -/
def imageState (w : Watch) (b : AdaptBlock) (s : State) : List Byte :=
  let a := s.adaptArea w b
  let d := HeadDesc.read (s.hbrBytesAt (w.entry.hbrBase + b.headDesc) 128)
  let m := s.harbour.data
  let base := w.entry.hbrBase
  let row := fun (j : Nat) =>
    ((List.range a.nIn).flatMap (fun i =>
      leBytes (fmtBF16.put (intVal (rdByte m (base + d.wOff + j * rowBytes a.nIn + i)).toInt (-(b.wqShift : Int)))).1 2)) ++
    leBytes (fmtBF16.put (intVal (toSigned (rdLE m (base + d.bOff + 4 * j) 4) 32) (-(b.bqShift : Int)))).1 2
  padTo (padTo (leBytes w.entry.num 2 ++ leBytes a.nIn 2 ++ leBytes a.nOut 1 ++ leBytes b.wqShift 1 ++ leBytes b.bqShift 1) 64 ++
    (List.range a.nOut).flatMap (fun j => padTo (row j) a.r2)) a.size

/-- A stored record fits the watch: its header matches (R525). -/
def recordFits (w : Watch) (b : AdaptBlock) (a : AdaptArea) (body : List Byte) : Bool :=
  leAt body 0 2 == w.entry.num && leAt body 2 2 == a.nIn && byteAt body 4 == a.nOut && byteAt body 5 == b.wqShift &&
  byteAt body 6 == b.bqShift && decide (body.length = a.size)

/-- Build the adapted head of an ADAPT watch at table build (R525). -/
def buildAdapt (w : Watch) (s : State) : State :=
  match s.adaptBlock? w with
  | none => s
  | some b =>
    let a := s.adaptArea w b
    let n := w.entry.num
    let body := (s.force (1 + b.slot)).bind (fun c =>
      (slotNames s.strand.data (1 + b.slot) c.1).map (fun h => slotBody s.strand.data (1 + b.slot) c.1 h.2.1))
    let (st, reset) := match body with
      | some x => if recordFits w b a x then (x, false) else (imageState w b s, true)
      | none => (imageState w b s, false)
    let s := s.putHbrWhole a.base st
    let s := (writeService w b false s).1
    let s := (List.range b.ringLen).foldl (fun s e => s.putHbr (ringAddr w b a.nIn e + 4) [0]) s
    let s := s.modWatch n (fun w => { w with adapt := some {} })
    if reset then release { type := 6, watch := some n, plain := leBytes 7 1, short := leBytes 7 1 } s else s

/-! ### Errors in the line buffers (R351) and the release of the engine (R168) -/

/-- The engine's drain has ended: every outstanding request completes with ABORTED, the frame in readout is dropped, and the
engine is released (R168, R170, R351). Steps of adapted heads, which belong to no job, stay queued (log 42). -/
def stemReleased (s : State) : State :=
  let q := s.stem.queue
  let s := { s with stem := { s.stem with queue := q.filter (fun r => r.kind = .adapt), lineMem := [] },
                    sys := { s.sys with resetting := s.sys.resetting.filter (fun u => u ≠ .stem) } }
  let groups := s.watches.flatMap (fun w => (w.job.getD {}).groupReqs.map (fun r => (w.entry.num, r.core)))
  let s := q.foldl (fun s r =>
    match r.kind with
    | .head c _ _ => headAborted r.watch c s
    | .spectral _ _ => headAborted r.watch none s
    | .adapt => s) s
  let s := groups.foldl (fun s g =>
    headAborted g.1 (some g.2) (s.modJob g.1 (fun j => { j with groupReqs := [] }))) s
  match s.pix.cap with
  | some c => if c.reading.isSome then watchFatal c.watch 0x2B 0 none s else s
  | none => s

/-- STEM_BUFFER_ERROR (R351, R615). -/
def stemBufferError (s : State) : State := if s.stemRuns then stemError s else s

/-- SPECTRAL_FRONT (R334) -/
def execSpectralFront (s : State) : Host.Outcome State Fault Refusal := .next (inService s spectralFront)
/-- HEAD_REQUEST (R346) -/
def execHeadRequest (s : State) : Host.Outcome State Fault Refusal := .next (inService s headRequest)
/-- ROI_EXPORT (R454) -/
def execRoiExport (s : State) : Host.Outcome State Fault Refusal := .next (inService s roiExport)
/-- GROUP_DECISION (R507) -/
def execGroupDecision (s : State) : Host.Outcome State Fault Refusal := .next (inService s groupDecision)
/-- ADAPTATION_STEP (R522) -/
def execAdaptationStep (s : State) : Host.Outcome State Fault Refusal := .next (inService s adaptationStep)
/-- STEM_BUFFER_ERROR (R351) -/
def execStemBufferError (s : State) : Host.Outcome State Fault Refusal := .next (inService s stemBufferError)

end Sys2Proof.Machine
end

