-- ==== Sys2Proof/Machine/Pixel.lean ====
section
/-! DEFINITION. Machine/Pixel.lean: the pixel array: acquiring an input (R60), XREF and VPIX (R84, R90, R286, R287), exposure and
readout (R253 to R260), STROBE and FSYNC (R275, R276), the correction pipeline (R271 to R274), berths (R266 to R270) and
sentinel readout (R280 to R283). -/
namespace Sys2Proof.Machine
open Sys2Proof

/-! ### Acquiring an input -/

/-- The watch waits in RUNNING for an input of its kind (R60). -/
def Watch.wantsInput (w : Watch) (kind : Nat) : Bool :=
  decide (w.state = .running) && w.entry.inputKind == kind &&
  (match w.job with
   | some j => !j.acquired && !j.inSpring
   | none => false)

/-- Watch w is the first in queue order among those that wait for the same input (R59, R60). -/
def State.firstFor (s : State) (w : Watch) : Bool :=
  s.watches.all (fun o => !o.wantsInput w.entry.inputKind || !keyLt o.queueKey w.queueKey)

/-- A pixel job takes the array: PIX_EN rises, where sentinel readout does not hold it high, and XREF is enabled (R60, R84, R90). -/
def acquirePixels (w : Watch) (s : State) : State :=
  let s := s.modJob w.entry.num (fun j => { j with acquired := true, unitNum := w.unitCounter })
  needXref (keepVpix s { s with pix := { s.pix with cap := some { watch := w.entry.num } },
                                tide := { s.tide with pixEn := true } })

/-- OFS and GAIN of a channel and gain code: of the set in use for AIN0 to AIN3, 0 and 2²² for an internal channel (R297). -/
def State.coefs (s : State) (p : Nat × Nat) : Int × Nat :=
  if p.1 ≤ 3 then calPair s.strand.cal (5 * p.1 + p.2) else (0, 0x400000)

/-- An Aux ADC job takes it: IEPE_EN lines, XREF, block numbers, coefficients (R60, R307, R308, R313, R337). -/
def acquireAdc (w : Watch) (s : State) : State :=
  let q := s.adcSeq w
  let n := w.entry.num
  let spec := (q.chains.filter (fun c => c.spectral)).length * w.entry.inputUnits
  let s := s.modJob n (fun j => { j with acquired := true, unitNum := w.unitCounter, spectralLeft := spec })
  let s := s.modWatch n (fun w => { w with unitCounter := (w.unitCounter + w.entry.inputUnits) % 2 ^ 32 })
  let chains : List ChainRun := (List.range q.chains.length).map (fun i =>
    let c := s.coefs (q.pair i)
    { ofs := c.1, gain := c.2 })
  needXref { s with adc := { s.adc with cap := some { watch := n, blockBase := w.unitCounter, iepeTick := s.sys.tick, chains := chains },
                                        iepeJob := BitVec.ofNat 4 q.iepe } }

/-- INPUT_ACQUIRE: a queued job gets its input once it is free (R60, R311). -/
def inputAcquire (n : Nat) (s : State) : State :=
  match s.watch? n with
  | some w =>
    if w.wantsInput w.entry.inputKind && s.firstFor w && !s.stopsJob n && decide (s.tide.power ≠ .neap) && !s.tide.thermalShutdown then
      if w.entry.inputKind = 1 && s.pix.cap.isNone then acquirePixels w s
      else if w.entry.inputKind = 2 && s.adc.cap.isNone && s.adc.cal.isNone && !decide (ResetUnit.adc ∈ s.sys.resetting) then
        acquireAdc w s
      else s
    else s
  | none => s

/-! ### XREF and VPIX -/

/-- XREF_READY (R89). -/
def xrefReady (s : State) : State := if s.tide.xrefOn then startPorts { s with tide := { s.tide with xrefReady := true } } else s

/-- XREF_TIMEOUT: every job that waits for XREF is watch-fatal with 0x2C, and its input is free (R286, R318). -/
def xrefTimeout (s : State) : State :=
  if s.tide.xrefOn && !s.tide.xrefReady then
    let s := { s with tide := { s.tide with xrefOn := false } }
    let s := match s.pix.cap with
      | some c => watchFatal c.watch 0x2C 0 none s
      | none => s
    match s.adc.cap with
    | some c => watchFatal c.watch 0x2C 0 none s
    | none => s
  else s

/-- VPIX_READY (R84). -/
def vpixReadyEvent (s : State) : State := if s.pixEnable then { s with tide := { s.tide with vpixReady := true } } else s

/-- R287: the frame is dropped and the job watch-fatal with 0x2D. -/
def pixelSupply (s : State) : State :=
  match s.pix.cap with
  | some c => watchFatal c.watch 0x2D 0 none s
  | none => s

/-- VPIX_WAIT_TIMEOUT (R84): a pixel job is stopped; in sentinel readout the frame is dropped, which changes no state (R287). -/
def vpixWaitTimeout (s : State) : State := if s.tide.pixEn && !s.tide.vpixReady then pixelSupply s else s

/-- VPIX_LOW: during a windowed readout the frame is dropped; in sentinel readout the sentinel frame is, which changes no state
(R287). -/
def vpixLow (s : State) : State :=
  match s.pix.cap with
  | some c => if c.reading.isSome then pixelSupply s else s
  | none => s

/-! ### Exposure -/

/-- Change the capture. -/
def modCap (f : Capture → Capture) (s : State) : State := { s with pix := { s.pix with cap := s.pix.cap.map f } }

/-- The capture, its watch and its frame program, while the job of the watch is not being stopped. -/
def State.capture? (s : State) : Option (Capture × Watch × PixProg) :=
  match s.pix.cap with
  | some c => if s.stopsJob c.watch then none else (s.watch? c.watch).map (fun w => (c, w, s.pixProg w))
  | none => none

/-- A frame is left to expose, and none is being exposed (R259, R263). -/
def Capture.mayExpose (c : Capture) (w : Watch) : Bool := c.expo.isNone && decide (c.next < w.entry.inputUnits)

/-- STROBE_LEAD_START (R275): there is no lead with FSYNC_START (R276). -/
def strobeLead (s : State) : State :=
  match s.capture? with
  | some (c, w, p) =>
    if bitN p.flags 0 && !bitN p.flags 1 && decide (c.next < w.entry.inputUnits) then
      modCap (fun c => { c with strobe := true, lead := true }) s
    else s
  | none => s

/-- An exposure starts: STROBE, the tick stamp and the frame number (R275, R277, R279). -/
def startExposure (c : Capture) (w : Watch) (p : PixProg) (missed : Bool) (s : State) : State :=
  let s := s.modWatch w.entry.num (fun w => { w with unitCounter := (w.unitCounter + 1) % 2 ^ 32 })
  modCap (fun x => { x with next := c.next + 1, waitFsync := false, strobe := bitN p.flags 0, lead := false,
                            expo := some { frame := c.next, frameNum := w.unitCounter, tick := s.sys.tick, fsyncMissed := missed } }) s

/-- XREF and VPIX are as a frame program needs them (R84, R253). -/
def State.pixReady (s : State) : Bool := s.tide.xrefReady && s.tide.vpixReady

/-- EXPOSURE_START: the scheduled exposure starts, or the frame begins its wait for FSYNC (R259, R276). -/
def exposureStart (s : State) : State :=
  match s.capture? with
  | some (c, w, p) =>
    if c.mayExpose w && s.pixReady then
      if bitN p.flags 1 then modCap (fun c => { c with waitFsync := true }) s else startExposure c w p false s
    else s
  | none => s

/-- FSYNC_EDGE: an edge starts the exposure of a frame that waits for it; others are ignored (R276). -/
def fsyncEdge (s : State) : State :=
  match s.capture? with
  | some (c, w, p) => if c.waitFsync && c.mayExpose w then startExposure c w p false s else s
  | none => s

/-- FSYNC_WAIT_EXPIRY (R276). -/
def fsyncExpiry (s : State) : State :=
  match s.capture? with
  | some (c, w, p) =>
    if c.waitFsync && c.mayExpose w then
      startExposure c w p true { s with pix := { s.pix with fsyncMisses := satAdd s.pix.fsyncMisses 1 255 } }
    else s
  | none => s

/-- EXPOSURE_END: readout of the frame begins and its berths are FILLING (R259, R269, R275, R283). -/
def exposureEnd (period : Nat) (s : State) : State :=
  match s.capture? with
  | some (c, w, p) =>
    match c.expo with
    | some e =>
      if c.reading.isSome then s
      else
        let s := modCap (fun c => { c with
          expo := none, strobe := c.lead, reading := some { e with period := if e.frame = 0 then 0 else period % 2 ^ 32 },
          rowsRead := 0, blackSums := [], blackTotal := 0, wins := p.windows.map (fun _ => {}) }) s
        let s := p.windows.foldl (fun s x => setBerth (x.berthFirst + e.frame) .filling s) s
        let _ := w
        { s with pix := { s.pix with reference := none } }
    | none => s
  | none => s

/-! ### The correction pipeline -/

/-- What a row needs: raw codes, the black level in 1/16 code, and the program. -/
structure RowRun where
  /-- the frame program -/
  p : PixProg
  /-- row number -/
  y : Nat
  /-- raw codes of the 2,048 active columns -/
  raw : List Nat
  /-- B_i (R271) -/
  black : Int

/-- Largest code of a depth. -/
def PixProg.top (p : PixProg) : Nat := if p.twelve then 4095 else 1023

/-- Steps 1 to 3 of R272 for column x: the clamped value, and whether it counts as saturated. -/
def RowRun.clamped (r : RowRun) (s : State) (x : Nat) : Nat × Bool :=
  let raw := min r.p.top (r.raw.getD x 0)
  let ofs := if bitN r.p.flags 2 then s.colOfs r.p.twelve x else 0
  let v := rhe ((raw : Int) * 16 - ofs - r.black + r.p.pedestal * 16) 16
  let c := clampI 0 r.p.top v
  (c.1.toNat, raw == r.p.top || decide ((r.p.top : Int) < v))

/-- The pair of columns at distance d of x that are not defective (R272 step 4). -/
def RowRun.near (r : RowRun) (s : State) (x d : Nat) : List Nat :=
  ((if d ≤ x then [x - d] else []) ++ (if x + d < 2048 then [x + d] else [])).filter (fun z => !s.isDefect z r.y)

/-- Mean of one or two values, half to even. -/
def meanOf (vs : List Nat) : Nat := (rhe (vs.foldl (· + ·) 0 : Nat) (max 1 vs.length)).toNat

/-- Steps 1 to 4 for column x: the value, its saturation mark, and 1 when a defect was replaced or 2 when it was not (R272, R273). -/
def RowRun.value (r : RowRun) (s : State) (x : Nat) : (Nat × Bool) × Nat :=
  let v := r.clamped s x
  if bitN r.p.flags 3 && s.isDefect x r.y then
    match r.near s x 1, r.near s x 2 with
    | [], [] => (v, 2)
    | [], l => ((meanOf (l.map (fun z => (r.clamped s z).1)), v.2), 1)
    | l, _ => ((meanOf (l.map (fun z => (r.clamped s z).1)), v.2), 1)
  else (v, 0)

/-- One output row of a window from its f rows of values: f × f blocks, with their saturation marks (R272 step 5). -/
def binRows (f : Nat) (rows : List (List (Nat × Bool))) (outW : Nat) : List (Nat × Bool) :=
  if f = 1 then rows.headD []
  else (List.range outW).map (fun j =>
    let cells := rows.flatMap (fun r => (r.drop (f * j)).take f)
    ((rhe (cells.foldl (fun (t : Nat) c => t + c.1) 0 : Nat) (f * f)).toNat, cells.any (·.2)))

/-- A pixel as RAW8 (R267). -/
def raw8 (twelve : Bool) (v : Nat) : Nat := min 255 (rhe v (if twelve then 16 else 4)).toNat

/-- The lines of one output row of a RAW8 or RAW16 berth, with their tags (R267, R268). -/
def rawLines (p : PixProg) (format : Nat) (px : List (Nat × Bool)) : List (List Byte × BitVec 16) :=
  let bytes := if format = 1 then 2 else 1
  let per := 64 / bytes
  let n := ceilDiv px.length per
  (List.range n).map (fun i =>
    let l := (px.drop (per * i)).take per
    (padTo (l.flatMap (fun v => leBytes (if format = 1 then v.1 else raw8 p.twelve v.1) bytes)) 64,
     mkTag 127 (l.filter (·.2)).length (if format = 1 then 0xB else 3)))

/-- Bytes of a row of a RAW8 or RAW16 berth (R267). -/
def rawRowBytes (format outW : Nat) : Nat := ceilDiv (outW * (if format = 1 then 2 else 1)) 64 * 64

/-- Write lines for a job, where its window holds them; none where the burst is refused (R68, R69). -/
def putForJob (w : Watch) (a : Nat) (ls : List (List Byte × BitVec 16)) (s : State) : Option State :=
  if w.inWindow a (64 * ls.length) then some (s.putHbrLines (a / 64) ls) else none

/-- A STEM window takes one output row of the binned frame: its x values, its history and every output row that is now due
(R324 to R329). None where a write is refused; true where the engine met a poisoned line. -/
def stemRow (w : Watch) (p : PixWin) (e : FrameRun) (r : WinRun) (px : List (Nat × Bool)) (s : State) :
    Option (WinRun × State) × Bool :=
  match s.stemRec? w.entry p with
  | none => (some (r, s), false)
  | some rec =>
    let c := StemConf.read (slice rec.body 8 64)
    let hist := w.entry.hbrBase + c.hist
    let old : FirstLayer :=
      { c := c, p := p, base := rec.load, k := e.frame, hist := hist, rows := r.rowsIn, h := s.harbour.data }
    if old.poisoned rec s.harbour then (none, true)
    else
      let rows := r.rowsIn ++ [px.map (fun v => stemX c.inShift v.1)]
      let f := { old with rows := rows }
      let size := c.t * c.hIn p * c.wIn p * c.cin
      if 1 < c.t && !w.inWindow hist size then (none, false)
      else
        let s := (old.reads rec).foldl (fun s x => s.visit x.1 x.2) s
        let s := if 1 < c.t && decide (old.arrived < f.arrived) then f.keep (f.arrived - 1) s else s
        let due := f.ready r.outRows
        let dst := w.entry.hbrBase + p.berthBase + e.frame * p.berthStride + 64
        let out := due.foldl (fun (t : Option State) oy =>
          t.bind (fun s =>
            let ls := (List.range (c.wOut p)).map (f.line oy)
            (putForJob w (dst + 64 * c.wOut p * oy) (ls.map (·.1)) s).map (stemSat w.entry.num (ls.any (·.2))))) (some s)
        (out.map (fun s => ({ r with rowsIn := rows, outRows := r.outRows + due.length }, useStem w s)), false)

/-- A window takes a row that it covers (R272, R273). None where a write is refused; true where the engine met a poisoned line. -/
def windowRow (w : Watch) (p : PixWin) (e : FrameRun) (row : RowRun) (r : WinRun) (s : State) : Option (WinRun × State) × Bool :=
  let vs := (List.range p.width).map (fun i => row.value s (p.x0 + i))
  let r := { r with sat := r.sat + (vs.filter (fun v => v.1.2)).length, fixed := r.fixed + (vs.filter (fun v => v.2 == 1)).length,
                    unresolved := r.unresolved || vs.any (fun v => v.2 == 2), binRows := r.binRows ++ [vs.map (·.1)] }
  if r.binRows.length < p.factor then (some (r, s), false)
  else
    let px := binRows p.factor r.binRows p.outW
    let r := { r with binRows := [] }
    if p.format = 2 then stemRow w p e r px s
    else
      let n := rawRowBytes p.format p.outW
      let a := w.entry.hbrBase + p.berthBase + e.frame * p.berthStride + 64 + n * r.outRows
      ((putForJob w a (rawLines row.p p.format px) s).map (fun s => ({ r with outRows := r.outRows + 1 }, s)), false)

/-- The windows of a frame program that cover row y, each with its place in the list. -/
def PixProg.covering (p : PixProg) (y : Nat) : List (PixWin × Nat) :=
  p.windows.zipIdx.filter (fun x => decide (x.1.y0 ≤ y) && decide (y < x.1.y0 + x.1.height))

/-- Distinct columns that the windows covering row y read (R256). -/
def PixProg.columns (p : PixProg) (y : Nat) : List Nat :=
  (List.range 2048).filter (fun x => (p.covering y).any (fun w => decide (w.1.x0 ≤ x) && decide (x < w.1.x0 + w.1.width)))

/-- The row is placed in each window that covers it, in window order; it stops at the first refused write or error. -/
def placeRow (w : Watch) (e : FrameRun) (row : RowRun) : List (PixWin × Nat) → State → State
  | [], s => s
  | (p, i) :: t, s =>
    match s.pix.cap with
    | some c =>
      match windowRow w p e row (c.wins.getD i {}) s with
      | (some (r, s), _) => placeRow w e row t (modCap (fun c => { c with wins := setAt c.wins i r }) s)
      | (none, true) => stemError s
      | (none, false) => watchFatal w.entry.num 0x20 0 none s
    | none => s

/-- PIXEL_ROW: the next row of the frame in readout: 16 optical-black codes and 2,048 active codes (R265, R271, R272). A row that
comes while the Stem engine is in partial reset is dropped with its frame (R168), and no row is read under a thermal shutdown
request (R127). -/
def pixelRow (black raw : List Nat) (s : State) : State :=
  match s.capture? with
  | some (c, w, p) =>
    match c.reading, p.rows[c.rowsRead]? with
    | some e, some y =>
      if decide (ResetUnit.stem ∈ s.sys.resetting) || s.tide.thermalShutdown then s
      else
        let sum : Int := 16 * (((List.range 16).map (fun i => min p.top (black.getD i 0))).foldl (· + ·) 0 : Nat)
        let sums := (sum :: c.blackSums).take 16
        let b := rhe (sums.foldl (· + ·) 0) (16 * sums.length)
        let row : RowRun := { p := p, y := y, raw := raw, black := b }
        let bad := if bitN p.flags 3 then ((p.columns y).filter (fun x => (row.value s x).2 == 2)).length else 0
        let s := { s with pix := { s.pix with defectUnres := satAdd s.pix.defectUnres bad 255 } }
        let s := modCap (fun c => { c with rowsRead := c.rowsRead + 1, blackSums := sums, blackTotal := c.blackTotal + b }) s
        placeRow w e row (p.covering y) s
    | _, _ => s
  | none => s

/-- The header line of a berth (R266). -/
def berthHeader (p : PixProg) (x : PixWin) (i : Nat) (e : FrameRun) (r : WinRun) (blackMean : Nat) : List Byte :=
  padTo (leBytes e.frameNum 4 ++ leBytes i 1 ++ leBytes x.format 1 ++ leBytes x.outW 2 ++ leBytes x.outH 2 ++ leBytes p.gain 2 ++
    leBytes p.exposure 4 ++ leBytes r.sat 4 ++ leBytes blackMean 2 ++ leBytes (min r.fixed 0xFFFF) 2 ++
    leBytes (b2n e.fsyncMissed + 2 * b2n r.unresolved) 1 ++ zeros 1 ++ leBytes e.tick 6 ++ leBytes e.period 4) 64

/-- FRAME_COMPLETE: the header lines are written last and the berths are READY; after the last frame the job leaves the array free
(R260, R269, R270). -/
def frameComplete (s : State) : State :=
  match s.capture? with
  | some (c, w, p) =>
    match c.reading with
    | some e =>
      if c.rowsRead < p.rows.length || decide (ResetUnit.stem ∈ s.sys.resetting) || s.tide.thermalShutdown then s
      else
        let mean := (rhe c.blackTotal (max 1 p.rows.length)).toNat
        let heads := p.windows.zipIdx.map (fun x =>
          (w.entry.hbrBase + x.1.berthBase + e.frame * x.1.berthStride, berthHeader p x.1 x.2 e (c.wins.getD x.2 {}) mean))
        if !heads.all (fun h => w.inWindow h.1 64) then watchFatal w.entry.num 0x20 0 none s
        else
          let s := heads.foldl (fun s h => s.putHbrLines (h.1 / 64) [(h.2, 0)]) s
          let s := p.windows.foldl (fun s x => setBerth (x.berthFirst + e.frame) .ready s) s
          let s := { s with pix := { s.pix with frames := (s.pix.frames + 1) % 2 ^ 32 } }
          let s := modCap (fun c => { c with reading := none, wins := [] }) s
          if e.frame + 1 = w.entry.inputUnits then
            inputsDone w.entry.num (keepVpix s { s with pix := { s.pix with cap := none }, tide := { s.tide with pixEn := false } })
          else s
    | none => s
  | none => s

/-! ### Sentinel readout -/

/-- |s − r| of a superpixel. -/
def superDiff (a b : List Byte) (i : Nat) : Nat :=
  let x := byteAt a i
  let y := byteAt b i
  if x < y then y - x else x - y

/-- The change energy of a zone x0, y0, x1, y1 in superpixels (R282). -/
def zoneEnergy (a b : List Byte) (x0 y0 x1 y1 : Nat) : Nat :=
  min 65535 ((List.range (y1 + 1 - y0)).foldl (fun (t : Nat) j =>
    (List.range (x1 + 1 - x0)).foldl (fun (t : Nat) i => t + superDiff a b (64 * (y0 + j) + x0 + i)) t) 0)

/-- The change energy of a watch's zone reaches its threshold (R47, R282). -/
def sentinelDue (a b : List Byte) (w : Watch) : Bool :=
  let z := w.entry.trigArg
  w.entry.trigKind == 5 && decide (w.state = .armed) &&
  decide (leAt z 4 2 ≤ zoneEnergy a b (byteAt z 0) (byteAt z 1) (byteAt z 2) (byteAt z 3))

/-- Superpixel (x, y) of a sentinel frame: the mean of its 32 × 32 active pixels, half to even (R280, R461). DESIGN CHOICE (log
67): the spec gives the conversion of a pixel in sentinel readout no scale; its codes are taken as 8-bit values. -/
def superpixel (rows : List (List Nat)) (x y : Nat) : Nat :=
  let sum := ((rows.drop (32 * y)).take 32).foldl (fun (t : Nat) r => ((r.drop (32 * x)).take 32).foldl (· + ·) t) 0
  min 255 (rhe sum 1024).toNat

/-- The 64 × 48 superpixels of a sentinel frame, row by row (R280). -/
def superpixels (rows : List (List Nat)) : List Byte :=
  (List.range 3072).map (fun i => BitVec.ofNat 8 (superpixel rows (i % 64) (i / 64)))

/-- SENTINEL_FRAME: the codes of the 1,536 active rows of a frame, once VPIX is ready (R84, R280 to R283). -/
def sentinelFrame (rows : List (List Nat)) (s : State) : State :=
  if s.sentinelOn && s.tide.vpixReady then
    let new : List Byte := superpixels rows
    let s1 := { s with pix := { s.pix with reference := some new, sentFrames := (s.pix.sentFrames + 1) % 65536 } }
    match s.pix.reference with
    | none => s1
    | some old =>
      let s2 := { s1 with pix := { s1.pix with sentEnergy := zoneEnergy new old 0 0 63 47 } }
      triggerAll ((s.watches.filter (sentinelDue new old)).map (fun w => w.entry.num)) 0 false s2
  else s

/-! ### The commands -/

/-- INPUT_ACQUIRE (R60) -/
def execInputAcquire (n : Nat) (s : State) : Host.Outcome State Fault Refusal := .next (inService s (inputAcquire n))
/-- XREF_READY (R89) -/
def execXrefReady (s : State) : Host.Outcome State Fault Refusal := .next (inService s xrefReady)
/-- XREF_TIMEOUT (R286) -/
def execXrefTimeout (s : State) : Host.Outcome State Fault Refusal := .next (inService s xrefTimeout)
/-- VPIX_READY (R84) -/
def execVpixReady (s : State) : Host.Outcome State Fault Refusal := .next (inService s vpixReadyEvent)
/-- VPIX_WAIT_TIMEOUT (R84) -/
def execVpixWaitTimeout (s : State) : Host.Outcome State Fault Refusal := .next (inService s vpixWaitTimeout)
/-- VPIX_LOW (R287) -/
def execVpixLow (s : State) : Host.Outcome State Fault Refusal := .next (inService s vpixLow)
/-- STROBE_LEAD_START (R275) -/
def execStrobeLeadStart (s : State) : Host.Outcome State Fault Refusal := .next (inService s strobeLead)
/-- EXPOSURE_START (R259) -/
def execExposureStart (s : State) : Host.Outcome State Fault Refusal := .next (inService s exposureStart)
/-- FSYNC_EDGE (R276) -/
def execFsyncEdge (s : State) : Host.Outcome State Fault Refusal := .next (inService s fsyncEdge)
/-- FSYNC_WAIT_EXPIRY (R276) -/
def execFsyncWaitExpiry (s : State) : Host.Outcome State Fault Refusal := .next (inService s fsyncExpiry)
/-- EXPOSURE_END (R259) -/
def execExposureEnd (period : Nat) (s : State) : Host.Outcome State Fault Refusal := .next (inService s (exposureEnd period))
/-- PIXEL_ROW (R272) -/
def execPixelRow (black raw : List Nat) (s : State) : Host.Outcome State Fault Refusal := .next (inService s (pixelRow black raw))
/-- FRAME_COMPLETE (R260) -/
def execFrameComplete (s : State) : Host.Outcome State Fault Refusal := .next (inService s frameComplete)
/-- SENTINEL_FRAME (R282) -/
def execSentinelFrame (pixels : List (List Nat)) (s : State) : Host.Outcome State Fault Refusal := .next (inService s (sentinelFrame pixels))

end Sys2Proof.Machine
end

