-- ==== Sys2Proof/Machine/Gpio.lean ====
section
/-! DEFINITION. Machine/Gpio.lean: the applied write of a register (20, R634), HOST_IRQ (R637, R638), the GPIO pins, their
output functions and the pin-interrupt lines (21), with the commands of the GPIO rows. -/
namespace Sys2Proof.Machine
open Sys2Proof

/-! ### Applied writes -/

/-- The slow domain applies the oldest captured word, which must be this word for this address: it leaves the buffer and `f`
acts (R634). -/
def applied (addr : Nat) (v : Word) (f : State → State) (s : State) : State :=
  match s.host.wbuf with
  | (a, w) :: rest => if a = addr && w = v then f { s with host := { s.host with wbuf := rest } } else s
  | [] => s

/-! ### HOST_IRQ -/

/-- The four sources of HOST_IRQ: REC, MBX, ALARM, BOOT (R637). -/
def State.irqSources (s : State) : BitVec 4 :=
  (s.host.irq &&& 0b1110) ||| (if s.host.thresh ≤ s.host.outbox.length then 1 else 0)

/-- HOST_IRQ is active (R638). -/
def State.hostIrq (s : State) : Bool :=
  if s.host.pulse then s.host.pulseEnd.isSome else decide (s.irqSources &&& s.host.irqEn ≠ 0)

/-- Level of the HOST_IRQ pin, none before the Host port answers (R637, R638). -/
def State.hostIrqLevel (s : State) : Option Bool :=
  if s.sys.hostAnswers then some (s.hostIrq == s.host.activeHigh) else none

/-- An LFCLK rising edge registers the sources; in pulse mode an enabled source that rose starts or restarts the pulse, which
lasts 2 tick periods (R638). -/
def registerIrq (s : State) : State :=
  let now := s.irqSources
  let rose := now &&& ~~~s.host.irqReg &&& s.host.irqEn
  { s with host := { s.host with irqReg := now,
                                 pulseEnd := if s.host.pulse && rose ≠ 0 then some (s.sys.tick + 2) else s.host.pulseEnd } }

/-- HOST_IRQ_PULSE_END: 2 tick periods have passed since the last registered rising source (R638). -/
def irqPulseEnd (s : State) : State := { s with host := { s.host with pulseEnd := none } }

/-! ### Output functions and pins -/

/-- VSEL as the pins carry it: the code chosen at admission, outside Spring VSEL_CODE[0] (R108, R663). -/
def State.vselCode (s : State) : Nat := s.tide.vsel

/-- The IEPE_EN lines that are active (R309). -/
def State.iepe (s : State) : BitVec 4 := s.adc.iepeJob ||| s.adc.iepeForce

/-- Value of output function f before its enable (R663). -/
def State.funcRaw (s : State) (f : Nat) : Bool :=
  if f < 8 then s.gpio.alarm.getLsbD f
  else match f with
    | 8 => match s.pix.cap with
      | some c => c.strobe
      | none => false
    | 9 => if s.otp.hold.isSome then s.otp.blinkHigh else decide (s.sys.alarm ≠ 0)
    | 10 => s.tide.coreEn
    | 11 => s.pixEnable
    | 12 => s.tide.chgEn
    | 13 => bitN s.vselCode 0
    | 14 => bitN s.vselCode 1
    | 15 => bitN s.vselCode 2
    | 16 => s.iepe.getLsbD 0
    | 17 => s.iepe.getLsbD 1
    | 18 => s.iepe.getLsbD 2
    | 19 => s.iepe.getLsbD 3
    | 20 => s.cw.wakeOut
    | 21 => s.hostIrq
    | 22 => decide (s.tide.power ≠ .neap)
    | 23 => decide (s.tide.power = .spring)
    | _ => false

/-- Enable of output function f: FAULT always, the others from the application of the pin map (R663). -/
def State.funcOn (s : State) (f : Nat) : Bool := f == 9 || s.gpio.funcsOn

/-- Value of output function f; 0 while its enable is 0 (R663). -/
def State.funcValue (s : State) (f : Nat) : Bool := s.funcOn f && s.funcRaw f

/-- Configuration of pin p. -/
def Gpio.pin (g : Gpio) (p : Nat) : Pin := g.pins.getD p {}

/-- The value v of pin p (R664). -/
def State.pinValue (s : State) (p : Nat) : Bool :=
  let x := s.gpio.pin p
  x.cfg.getLsbD 2 ^^ ((List.range 24).any (fun f => x.mask.getLsbD f && s.funcValue f) ||
    (s.gpio.oe.getLsbD p && s.gpio.out.getLsbD p))

/-- The enable e of pin p (R664). -/
def State.pinEnable (s : State) (p : Nat) : Bool :=
  (List.range 24).any (fun f => (s.gpio.pin p).mask.getLsbD f && s.funcOn f) || s.gpio.oe.getLsbD p

/-- What pin p drives: a level, or none while it is high-impedance (R664). -/
def State.pinDrive (s : State) (p : Nat) : Option Bool :=
  if (s.gpio.pin p).cfg.getLsbD 1 then (if s.pinEnable p && !s.pinValue p then some false else none)
  else if s.pinEnable p then some (s.pinValue p) else none

/-- The level that an input function or a pin-interrupt line sees at pin p, after IN_INV (R667, R669). -/
def Gpio.pinIn (g : Gpio) (p : Nat) : Bool := g.level.getLsbD p ^^ (g.pin p).cfg.getLsbD 3

/-! ### Pin-interrupt lines -/

/-- Pin that feeds line n, none while its selection is 0 (R669, R680). -/
def Gpio.linePin (g : Gpio) (n : Nat) : Option Nat :=
  let sel := fld g.pilSel.toNat (2 * n) 2
  if sel = 0 then none else some (8 * (sel - 1) + n)

/-- EVENT of line n: 0 rising, 1 falling, 2 both, 3 level (R660, R680). -/
def Gpio.lineEvent (g : Gpio) (n : Nat) : Nat := fld g.pilCfg.toNat (4 * n) 2

/-- DEB of line n (R670). -/
def Gpio.lineDeb (g : Gpio) (n : Nat) : Bool := bitN g.pilCfg.toNat (4 * n + 2)

/-- WAKE of line n (R672). -/
def Gpio.lineWake (g : Gpio) (n : Nat) : Bool := bitN g.pilCfg.toNat (4 * n + 3)

/-- Level at the source of line n (R669). -/
def Gpio.lineLevel (g : Gpio) (n : Nat) : Bool :=
  match g.linePin n with
  | some p => g.pinIn p
  | none => false

/-- Bit n of a byte set to a level. -/
def putBit (m : BitVec 8) (n : Nat) (x : Bool) : BitVec 8 :=
  if x then m ||| BitVec.ofNat 8 (2 ^ n) else m &&& ~~~(BitVec.ofNat 8 (2 ^ n))

/-- Load the filtered level of line n from its source; no event (R672, R673). -/
def Gpio.loadLine (g : Gpio) (n : Nat) : Gpio :=
  { g with pilLevel := putBit g.pilLevel n (g.lineLevel n), pilSample := putBit g.pilSample n (g.lineLevel n) }

/-- What line n does at a tick: its new filtered level and whether it reports its event (R670, R671). `rise` and `fall`: an edge
was captured since the last tick. -/
def Gpio.sampleLine (g : Gpio) (n : Nat) (rise fall : Bool) : Gpio × Bool :=
  let old := g.pilLevel.getLsbD n
  let now := g.lineLevel n
  let new := if g.lineDeb n then (if now = g.pilSample.getLsbD n then now else old) else now
  let up := (!old && new) || (!g.lineDeb n && rise)
  let down := (old && !new) || (!g.lineDeb n && fall)
  let due := match g.lineEvent n with
    | 0 => up
    | 1 => down
    | 2 => up || down
    | _ => new
  ({ g with pilLevel := putBit g.pilLevel n new, pilSample := putBit g.pilSample n now }, due)

/-- One line at a tick: not monitored in Neap without WAKE; reloaded without an edge at the first tick after Neap (R672). -/
def Gpio.lineTick (g : Gpio) (neap reload : Bool) (n : Nat) (rise fall : Bool) : Gpio × Bool :=
  if (g.linePin n).isNone || (neap && !g.lineWake n) then (g, false)
  else if reload && !g.lineWake n then
    let h := g.loadLine n
    (h, g.lineEvent n == 3 && h.pilLevel.getLsbD n)
  else g.sampleLine n rise fall

/-- The eight lines at a tick: the block after it and the lines that report an event. -/
def Gpio.linesTick (g : Gpio) (neap reload : Bool) (rise fall : BitVec 8) : Gpio × List Nat :=
  (List.range 8).foldl (fun a n =>
    let r := a.1.lineTick neap reload n (rise.getLsbD n) (fall.getLsbD n)
    (r.1, if r.2 then a.2 ++ [n] else a.2)) (g, [])

/-- A GPIO watch is named by a line that reports, and its hold-off has passed (R47, R671). -/
def gpioDue (tick : Nat) (lines : List Nat) (w : Watch) : Bool :=
  w.entry.trigKind == 2 && lines.contains (leAt w.entry.trigArg 0 1) &&
  (match w.lastGpio with
    | some t => decide (t + leAt w.entry.trigArg 2 2 ≤ tick)
    | none => true)

/-- PIN_INTERRUPT_EVENT: the pads as sampled at this tick and the edges captured since the last one; the lines register, set
EVENT and make their watches due, in ascending number (R667, R669 to R672). -/
def pinSample (pads : BitVec 24) (rise fall : BitVec 8) (s : State) : State :=
  let neap := decide (s.tide.power = .neap)
  let reload := s.gpio.reload && !neap
  let r := ({ s.gpio with level := pads } : Gpio).linesTick neap reload rise fall
  let ev := r.2.foldl (fun (m : BitVec 8) n => m ||| BitVec.ofNat 8 (2 ^ n)) 0
  let g := { r.1 with pilEvent := r.1.pilEvent ||| ev, reload := s.gpio.reload && neap }
  let s := { s with gpio := g, fresh := { s.fresh with pil := s.fresh.pil ||| ev } }
  triggerAll ((s.watches.filter (gpioDue s.sys.tick r.2)).map (fun w => w.entry.num)) 0 true s

/-! ### Host writes of the block -/

/-- R661 for one pin: its CFG byte and OUT_MASK. -/
def pinOk (p : Nat) (x : Pin) : Bool :=
  !x.cfg.getLsbD 7 &&
  (!x.cfg.getLsbD 0 || (decide (p < 8) && x.cfg.getLsbD 1 && fld x.cfg.toNat 4 2 == 0)) &&
  (!x.mask.getLsbD 20 || x.cfg.getLsbD 1)

/-- OUT_MASK bits 10 to 20, the functions that stay where the image routed them (R677). -/
def fixedFuncs : BitVec 24 := 0x1FFC00

/-- The configuration that a GPIO_PINn word gives (R680). -/
def Pin.ofWord (v : Word) : Pin := { cfg := BitVec.ofNat 8 v.toNat, mask := BitVec.ofNat 24 (v.toNat >>> 8) }

/-- A GPIO_PINn word as it reads (R680). -/
def Pin.word (x : Pin) : Nat := x.cfg.toNat + 256 * x.mask.toNat

/-- The conditions of R677 on a new configuration of pin p. -/
def pinWriteOk (p : Nat) (old new : Pin) : Bool :=
  pinOk p new && decide (new.mask &&& fixedFuncs = old.mask &&& fixedFuncs) &&
  (decide (old.mask &&& fixedFuncs = 0) || decide (new.cfg &&& 7 = old.cfg &&& 7))

/-- An applied write of GPIO_PINn (R677). -/
def writePin (p : Nat) (v : Word) (s : State) : State :=
  if s.gpio.mapApplied && pinWriteOk p (s.gpio.pin p) (Pin.ofWord v) then
    { s with gpio := { s.gpio with pins := s.gpio.pins.set p (Pin.ofWord v) } }
  else { s with gpio := { s.gpio with cfgReject := satAdd s.gpio.cfgReject 1 255 } }

/-- Load every line whose source or configuration differs from what it was (R673). -/
def reloadChanged (old : Gpio) (g : Gpio) : Gpio :=
  (List.range 8).foldl (fun g n =>
    if fld old.pilSel.toNat (2 * n) 2 = fld g.pilSel.toNat (2 * n) 2 &&
       fld old.pilCfg.toNat (4 * n) 4 = fld g.pilCfg.toNat (4 * n) 4 then g else g.loadLine n) g

/-- An applied write of GPIO_PILSEL (R673). -/
def writePilsel (v : Word) (s : State) : State :=
  { s with gpio := reloadChanged s.gpio { s.gpio with pilSel := BitVec.ofNat 16 v.toNat } }

/-- An applied write of GPIO_PILCFG (R673). -/
def writePilcfg (v : Word) (s : State) : State :=
  { s with gpio := reloadChanged s.gpio { s.gpio with pilCfg := v } }

/-- An applied write of GPIO_OUT (R676). -/
def writeGpioOut (v : Word) (s : State) : State := { s with gpio := { s.gpio with out := BitVec.ofNat 24 v.toNat } }

/-- An applied write of GPIO_OE (R676). -/
def writeGpioOe (v : Word) (s : State) : State := { s with gpio := { s.gpio with oe := BitVec.ofNat 24 v.toNat } }

/-- An applied W1C write of GPIO_PIL_STATUS.EVENT (R671); an event of the same tick stays (R712). -/
def clearPilEvents (v : Word) (s : State) : State :=
  { s with gpio := { s.gpio with pilEvent := s.gpio.pilEvent &&& ~~~(BitVec.ofNat 8 v.toNat &&& ~~~s.fresh.pil) } }

/-- An applied W1C write of GPIO_ALARM_STATUS (R665); a line that the device sets in the same tick stays at 1 (R666). -/
def clearAlarmLines (v : Word) (s : State) : State :=
  { s with gpio := { s.gpio with alarm := s.gpio.alarm &&& ~~~(BitVec.ofNat 8 v.toNat &&& ~~~s.fresh.lines) } }

/-- HOST_IRQ_PULSE_END. -/
def execHostIrqPulseEnd (s : State) : Host.Outcome State Fault Refusal := .next (inService s irqPulseEnd)

/-- GPIO_OUT. -/
def execGpioOut (v : Word) (s : State) : Host.Outcome State Fault Refusal := .next (inService s (applied 0x0504 v (writeGpioOut v)))

/-- GPIO_OE. -/
def execGpioOe (v : Word) (s : State) : Host.Outcome State Fault Refusal := .next (inService s (applied 0x0508 v (writeGpioOe v)))

/-- GPIO_PIN. -/
def execGpioPin (p : Fin 24) (v : Word) (s : State) : Host.Outcome State Fault Refusal :=
  .next (inService s (applied (0x0540 + 4 * p.val) v (writePin p.val v)))

/-- GPIO_PILSEL. -/
def execGpioPilsel (v : Word) (s : State) : Host.Outcome State Fault Refusal := .next (inService s (applied 0x050C v (writePilsel v)))

/-- GPIO_PILCFG. -/
def execGpioPilcfg (v : Word) (s : State) : Host.Outcome State Fault Refusal := .next (inService s (applied 0x0510 v (writePilcfg v)))

/-- GPIO_PIL_STATUS. -/
def execGpioPilStatus (v : Word) (s : State) : Host.Outcome State Fault Refusal :=
  .next (inService s (applied 0x0514 v (clearPilEvents v)))

/-- GPIO_ALARM_STATUS. -/
def execGpioAlarmStatus (v : Word) (s : State) : Host.Outcome State Fault Refusal :=
  .next (inService s (applied 0x0518 v (clearAlarmLines v)))

/-- PIN_INTERRUPT_EVENT. -/
def execPinInterruptEvent (pads : BitVec 24) (rise fall : BitVec 8) (s : State) : Host.Outcome State Fault Refusal :=
  .next (inService s (pinSample pads rise fall))

end Sys2Proof.Machine
end

