-- ==== Sys2Proof/Machine/Otp.lean ====
section
/-! DEFINITION. Machine/Otp.lean: the OTP (05): its error code and votes, the start-up check and its hold, key digests and
secrets, the locks, reads through the window, programming and the life cycle; with OTP_WORD_PROGRAMMED and FAULT_BLINK. -/
namespace Sys2Proof.Machine
open Sys2Proof

/-- Region code of a word address (R174). -/
def otpRegion (a : Nat) : Nat :=
  if a < 0x008 then 0 else if a < 0x040 then 1 else if a < 0x060 then 2 else if a < 0x068 then 3
  else if a < 0x080 then 4 else if a < 0x100 then 5 else if a < 0x400 then 6 else 7

/-- First word and number of words of a region (R174). -/
def otpBounds (region : Nat) : Nat × Nat :=
  match region with
  | 0 => (0x000, 8)
  | 1 => (0x008, 56)
  | 2 => (0x040, 32)
  | 3 => (0x060, 8)
  | 4 => (0x068, 24)
  | 5 => (0x080, 128)
  | 6 => (0x100, 768)
  | _ => (0x400, 1024)

/-- The reserved words of a region (R175). -/
def otpReserved (a : Nat) : Bool :=
  (3 ≤ a && a < 8) || a == 0x00F || (0x030 ≤ a && a < 0x040) || (0x064 ≤ a && a < 0x068) || (0x0D0 ≤ a && a < 0x100)

/-- Bits set among the low `n`. -/
def bitCount (x n : Nat) : Nat := ((List.range n).filter (bitN x)).length

/-! ### The error code (R177, R178) -/

/-- Check columns of the data bits: the seven-bit values with three bits set, in ascending order (R177). -/
def secdedCols : List Nat :=
  [0x07, 0x0B, 0x0D, 0x0E, 0x13, 0x15, 0x16, 0x19] ++
  [0x1A, 0x1C, 0x23, 0x25, 0x26, 0x29, 0x2A, 0x2C] ++
  [0x31, 0x32, 0x34, 0x38, 0x43, 0x45, 0x46, 0x49] ++
  [0x4A, 0x4C, 0x51, 0x52, 0x54, 0x58, 0x61, 0x62]

/-- Check bits of 32 data bits (R177). -/
def secdedCheck (d : Nat) : Nat :=
  (secdedCols.zipIdx).foldl (fun c x => if bitN d x.2 then c ^^^ x.1 else c) 0

/-- The 39 cells of a word (R177). -/
def secdedEncode (d : Word) : BitVec 39 := BitVec.ofNat 39 (d.toNat + 2 ^ 32 * secdedCheck d.toNat)

/-- A word as it decodes. -/
structure OtpWord where
  /-- the data in use, 0 when uncorrectable -/
  data : Nat := 0
  /-- it counts as corrected -/
  corrected : Bool := false
  /-- it is uncorrectable -/
  uncorr : Bool := false
  deriving DecidableEq, Repr

/-- Decode the cells of one read (R178). -/
def secdedDecode (w : BitVec 39) : OtpWord :=
  let d := w.toNat % 2 ^ 32
  let syn := (w.toNat / 2 ^ 32) ^^^ secdedCheck d
  if syn = 0 then { data := d }
  else if bitCount syn 7 = 1 then { data := d, corrected := true }
  else
    match secdedCols.findIdx? (· == syn) with
    | some i => { data := d ^^^ 2 ^ i, corrected := true }
    | none => { uncorr := true }

/-- Cells of a word at normal margin. -/
def State.otpNormal (s : State) (a : Nat) : BitVec 39 := sget 0 s.otp.cells a

/-- Cells of a word at high margin. -/
def State.otpHigh (s : State) (a : Nat) : BitVec 39 := sget 0 s.otp.cellsHigh a

/-- A SECDED word from its two reads (R185). -/
def State.otpWord (s : State) (a : Nat) : OtpWord :=
  let diff := bitCount (s.otpNormal a ^^^ s.otpHigh a).toNat 39
  let r := secdedDecode (s.otpNormal a)
  if 2 ≤ diff || r.uncorr then { uncorr := true } else { r with corrected := r.corrected || diff == 1 }

/-! ### Triplicated regions (R180 to R183) -/

/-- `n` words from address a as one number, 32 bits a word. -/
def wordsFrom (m : List (Nat × BitVec 39)) (a n : Nat) : Nat :=
  (List.range n).foldl (fun v k => v + (sget 0 m (a + k)).toNat % 2 ^ 32 * 2 ^ (32 * k)) 0

/-- The vote over three copies of n words: the voted value and the bits on which the copies do not all agree (R182). -/
def State.otpVote (s : State) (bases : List Nat) (n : Nat) : Nat × Nat :=
  let reads := bases.map (fun b => (wordsFrom s.otp.cells b n, wordsFrom s.otp.cellsHigh b n))
  let count := reads.map (fun r => r.1 &&& r.2)
  let a := count.getD 0 0
  let b := count.getD 1 0
  let c := count.getD 2 0
  ((a &&& b) ||| (a &&& c) ||| (b &&& c),
   reads.foldl (fun v r => v ||| (r.1 ^^^ r.2)) ((a ^^^ b) ||| (a ^^^ c)))

/-- The vote of LIFECYCLE. -/
def State.lcVote (s : State) : Nat × Nat := s.otpVote [0, 1, 2] 1

/-- The vote of ROLLBACK. -/
def State.rbVote (s : State) : Nat × Nat := s.otpVote [0x068, 0x070, 0x078] 8

/-- A value is a thermometer: consecutive ones from bit 0 (R180, R181). -/
def isThermo (v : Nat) : Bool := v &&& (v + 1) == 0

/-- Voted LIFECYCLE is uncorrectable (R183). -/
def lcBad (v : Nat) : Bool := !isThermo v || 64 ≤ v

/-- Rollback count of a voted value: its ones, or one more than the highest position set (R181, R191). -/
def rbCount (v : Nat) : Nat := if v = 0 then 0 else Nat.log2 v + 1

/-! ### Fields -/

/-- KEY_DIGEST slot n as an octet string (R175 table, R216). -/
def State.keyDigest (s : State) (n : Nat) : List Byte :=
  (List.range 8).flatMap (fun k => leBytes (s.otpWord (0x040 + 8 * n + k)).data 4)

/-- KEY_DIGEST slot n is programmed. -/
def State.keyThere (s : State) (n : Nat) : Bool := (s.keyDigest n).any (· != 0)

/-- Slot n is revoked: any value but blank, or uncorrectable (R191). -/
def State.keyRevoked (s : State) (n : Nat) : Bool :=
  let w := s.otpWord (0x060 + n)
  w.uncorr || w.data != 0

/-- A KEY_DIGEST slot is programmed and not revoked (R196, R203, R230). -/
def State.keyLive (s : State) (n : Nat) : Bool := s.keyThere n && !s.keyRevoked n

/-- Device serial as firmware reads it: none when a word of it is uncorrectable (R191), 0 while the read lock of MFG is set
(R211). -/
def State.serial (s : State) : Option (List Byte) :=
  let a := s.otpWord 8
  let b := s.otpWord 9
  if s.otp.lockRd.getLsbD 1 then some (zeros 8)
  else if a.uncorr || b.uncorr then none else some (leBytes a.data 4 ++ leBytes b.data 4)

/-- Variant of the part: PRODUCT bits [19:16], 0 when uncorrectable (R238). -/
def State.variant (s : State) : Nat := fld (s.otpWord 0x00B).data 16 4

/-- A 32-byte field of SECRETS as it loads: each programmed word descrambled, a blank word as 0 (R194, R205, R208; log 44). -/
def State.secret (s : State) (a : Nat) : List Byte :=
  (List.range 8).flatMap (fun k =>
    let d := (s.otpWord (a + k)).data
    leBytes (if d = 0 then 0 else ((Config.scramble (a + k)).symm (BitVec.ofNat 32 d)).toNat) 4)

/-- The OWNER_ROOT slot of owner o is programmed (R176). -/
def State.ownerThere (s : State) (o : Nat) : Bool := (List.range 8).any (fun k => (s.otpWord (0x090 + 8 * o + k)).data != 0)

/-! ### The start-up check (R184 to R192) -/

/-- The SECDED words that are not blank. -/
def State.otpListed (s : State) : List Nat :=
  ((s.otp.cells.map (·.1) ++ s.otp.cellsHigh.map (·.1)).eraseDups).filter (fun a => otpRegion a ≠ 0 && otpRegion a != 4)

/-- Regions with an uncorrectable word, as a mask (R185, R183). -/
def State.otpUncorr (s : State) : BitVec 8 :=
  let m : BitVec 8 := s.otpListed.foldl (fun (m : BitVec 8) a =>
    if (s.otpWord a).uncorr then m ||| BitVec.ofNat 8 (2 ^ otpRegion a) else m) 0
  let m := if lcBad s.lcVote.1 then m ||| 1 else m
  if isThermo s.rbVote.1 then m else m ||| 0x10

/-- BOOT_POLICY, none when no two copies qualify and agree (R190). -/
def State.bootPolicy (s : State) : Option Nat :=
  let good := ([0x00C, 0x00D, 0x00E].map s.otpWord).filter (fun w => !w.uncorr && decide (w.data < 16))
  (good.find? (fun w => 2 ≤ (good.filter (fun x => x.data == w.data)).length)).map OtpWord.data

/-- The blink code of an OTP_HOLD that a mask of uncorrectable regions and a policy cause (R187, R192). -/
def holdCode (m : BitVec 8) (policy : Nat) : Option Nat :=
  if m.getLsbD 0 then some 1
  else if m.getLsbD 2 then some 2
  else if m.getLsbD 5 then some 3
  else if (m.getLsbD 1 && bitN policy 0) || (m.getLsbD 4 && bitN policy 1) || (m.getLsbD 6 && bitN policy 2) ||
      (m.getLsbD 7 && bitN policy 3) then some 4
  else none

/-- The start-up check writes what it found (R180, R181, R186, R190, R191). OTP_ROLLBACK.COUNT reads "From check": a ROLLBACK
program that completes later shows at the next check (log 6). -/
def otpCheck (s : State) : State :=
  let m := s.otpUncorr
  let lc := s.lcVote
  let rb := s.rbVote
  let n := (s.otpListed.filter (fun a => (s.otpWord a).corrected)).length + bitCount lc.2 32 + bitCount rb.2 256
  let bits := fun (p : Nat → Bool) => BitVec.ofNat 4 (b2n (p 0) + 2 * b2n (p 1) + 4 * b2n (p 2) + 8 * b2n (p 3))
  { s with otp := { s.otp with
      lc := bitCount lc.1 6, lcBoot := bitCount lc.1 6, raw := BitVec.ofNat 6 lc.1, uncorr := m, corrected := min n 0xFFFF,
      policyDefault := s.bootPolicy.isNone, rollback := rbCount rb.1,
      programmed := bits s.keyThere, revoked := bits s.keyRevoked, hold := holdCode m (s.bootPolicy.getD 0) } }

/-- FAULT_BLINK: during an OTP_HOLD the blink timer expires and FAULT takes its next level: N high pulses of 8,192 ticks with as
many low, then 65,536 ticks low (R188). The phase is that of the edge in the frame. -/
def faultBlink (s : State) : State :=
  match s.otp.hold with
  | some n =>
    let p := match s.otp.blinkPhase with
      | some p => if p + 8192 < 16384 * n then p + 8192 else 0
      | none => 0
    { s with otp := { s.otp with blinkPhase := some p, blinkHigh := p / 8192 % 2 == 0 } }
  | none => s

/-! ### Life-cycle states and locks (R193, R202, R212) -/

/-- The debug access port is open in a state (R193). -/
def dapOpenIn (lc : Nat) : Bool := lc ≤ 2 || lc == 5

/-- The debug access port is open; in reset the life cycle is not decoded and the port is closed (R193, R713; log 49). -/
def State.dapOpen (s : State) : Bool := !s.sys.inReset && dapOpenIn s.otp.lc

/-- SECRETS load into the key slots in a state (R193). -/
def secretsLoad (lc : Nat) : Bool := 2 ≤ lc && lc ≤ 4

/-- A region may be programmed in a state (R202). -/
def regionOpen (region lc : Nat) : Bool :=
  match region with
  | 1 | 6 => lc == 1
  | 2 | 5 => lc == 2 || lc == 3
  | 3 | 4 | 7 => lc == 2 || lc == 3 || lc == 4
  | _ => false

/-- The write locks that the boot sets in a state (R212). -/
def bootWrLocks (lc : Nat) : BitVec 8 :=
  (List.range 8).foldl (fun (m : BitVec 8) r =>
    if (if r = 0 then lc == 6 else !regionOpen r lc) then m ||| BitVec.ofNat 8 (2 ^ r) else m) 0

/-- Set the locks of the boot for the present state (R212). -/
def setLocks (s : State) : State :=
  { s with otp := { s.otp with lockRd := s.otp.lockRd ||| 0x20, lockWr := s.otp.lockWr ||| bootWrLocks s.otp.lc } }

/-- The key slots are cleared, and with them the tag key and the SYS_OWNER_SRC field of every owner whose OWNER_ROOT slot is
programmed: such an owner has no key root any more (R195, R198, log 45). -/
def clearKeys (s : State) : State :=
  let owned := fun (o : Nat) => s.ownerThere o
  { s with ownerSrc := (List.range 8).foldl (fun (m : BitVec 16) o => if owned o then m &&& ~~~BitVec.ofNat 16 (3 * 4 ^ o) else m)
             s.ownerSrc,
           otp := { s.otp with keys := { tagKeys := (List.range 8).map (fun o =>
             if owned o then none else s.otp.keys.tagKeys.getD o none) } } }

/-- A life-cycle transition has completed: locks and key slots at once, while what the boot in progress or the image in service
takes from the state decoded at boot stays until the next full reset (R198). -/
def enterLifecycle (t : Nat) (s : State) : State :=
  let s := setLocks { s with otp := { s.otp with lc := t, raw := BitVec.ofNat 6 (2 ^ t - 1) } }
  if 5 ≤ t then clearKeys s else s

/-! ### The read window (R211, R758) -/

/-- Read a word into OTP_READ_DATA with its flags. -/
def otpRead (a : Nat) (s : State) : State :=
  let r := otpRegion a
  let n := (s.otpNormal a).toNat % 2 ^ 32
  let h := (s.otpHigh a).toNat % 2 ^ 32
  let put := fun (d : Nat) (u c l : Bool) =>
    { s with otp := { s.otp with readWord := a, readValid := true, readWait := false, readUncorr := u, readCorrected := c,
                                 readLocked := l, readData := BitVec.ofNat 32 d } }
  if s.otp.lockRd.getLsbD r then put 0 false false true
  else if 3 ≤ a && a < 8 then put n false false false
  else if r = 0 then put n (lcBad s.lcVote.1) (n ^^^ h != 0 || (n &&& h) != s.lcVote.1) false
  else if r = 4 then
    let v := s.rbVote.1 / 2 ^ (32 * ((a - 0x068) % 8)) % 2 ^ 32
    put n (!isThermo s.rbVote.1) (n ^^^ h != 0 || (n &&& h) != v) false
  else
    let w := s.otpWord a
    put w.data w.uncorr w.corrected false

/-- The word being programmed now. -/
def State.otpBusy (s : State) : Option Nat := (s.otp.run.bind (fun r => r.todo.head?)).map (·.1)

/-- A write of OTP_READ_ADDR is applied: VALID clears and the word is read, once no program of it is in progress. -/
def otpReadAddr (v : Word) (s : State) : State :=
  let a := v.toNat % 2048
  if s.otpBusy = some a then
    { s with otp := { s.otp with readWord := a, readValid := false, readWait := true } }
  else otpRead a s

/-! ### Programming (R196 to R209) -/

/-- The conditions before each word (R200): a junction temperature must have been sampled. -/
def State.otpConditions (s : State) : Bool :=
  s.tide.tempTaken && decide (s.sys.tick ≤ s.tide.tempTick + 8) && decide (0 ≤ s.tide.temp) && decide (s.tide.temp ≤ 5440) &&
  decide (s.sys.tick ≤ s.tide.vbatTick + 8) && decide (2500 ≤ s.tide.vbatMv)

/-- An OTP command ends with a status at a word (R209). -/
def otpEnd (code word : Nat) (mailbox : Bool) (s : State) : State :=
  let s := { s with otp := { s.otp with progStatus := code, progWord := word, run := none } }
  if mailbox then mbxComplete code none s else s

/-- The next word of a command starts, or the command ends (R200, R209). -/
def otpNext (r : OtpRun) (s : State) : State :=
  match r.todo with
  | [] => otpEnd 0 0 r.mailbox (match r.lifecycle with
      | some t => enterLifecycle t s
      | none => s)
  | (a, _) :: _ =>
    if s.otpConditions then { s with otp := { s.otp with run := some r } } else otpEnd 3 a r.mailbox s

/-- OTP_WORD_PROGRAMMED: a word's programming and verify end (R201): `normal` and `high` are what the cells now read. A reset
that waited for the word is taken (R158). -/
def otpWordProgrammed (normal high : BitVec 39) (s : State) : State :=
  match s.otp.run with
  | some { todo := (a, m) :: t, lifecycle := l, mailbox := b } =>
    let n := s.otpNormal a ||| (m &&& normal)
    let h := s.otpHigh a ||| (m &&& high)
    let s := { s with otp := { s.otp with cells := sput 0 s.otp.cells a n, cellsHigh := sput 0 s.otp.cellsHigh a h } }
    let s := if s.otp.readWait && s.otp.readWord == a then otpRead a s else s
    if s.sys.delayed.isSome then takeDelayed { s with otp := { s.otp with run := none } }
    else if m &&& ~~~h = 0 then otpNext { todo := t, lifecycle := l, mailbox := b } s
    else otpEnd 6 a b s
  | _ => s

/-- Cells of a thermometer of `count` positions that a copy of n words from address a still lacks at high margin, word by
word (R197, R204). -/
def State.thermoTodo (s : State) (a n count : Nat) : List (Nat × BitVec 39) :=
  (List.range n).filterMap (fun k =>
    let want := (2 ^ count - 1) / 2 ^ (32 * k) % 2 ^ 32
    let m : BitVec 39 := BitVec.ofNat 39 want &&& ~~~(s.otpHigh (a + k))
    if m = 0 then none else some (a + k, m))

/-- LIFECYCLE_ADVANCE with its arguments (R196, R197, R206, R207, R237). -/
def lifecycleAdvance (args : List Word) (mailbox : Bool) (s : State) : State :=
  let a0 := args.getD 0 0
  let t := fld a0.toNat 0 3
  let lc := s.otp.lc
  let refuse := fun (c : Nat) => otpEnd c 0 mailbox s
  let exitOk := t == 5 || (t == 6 && 3 ≤ lc)
  let keyOk := (List.range 4).any s.keyLive
  if args.getD 7 0 ≠ ~~~a0 then refuse 7
  else if t = 7 then refuse 5
  else if s.otp.lockWr.getLsbD 0 then refuse 2
  else if !((lc ≤ 3 && t == lc + 1) || ((lc == 3 || lc == 4) && t == 5) || (lc ≤ 5 && t == 6)) then refuse 1
  else if exitOk && !s.image.lcExit then refuse 8
  else if (t == 3 || t == 4) && !keyOk then refuse 9
  else
    let todo := [0, 1, 2].flatMap (fun c => s.thermoTodo c 1 t)
    otpNext { todo := todo, lifecycle := some t, mailbox := mailbox } s

/-- A ROLLBACK program (R204). -/
def programRollback (target : Nat) (mailbox : Bool) (s : State) : State :=
  if 256 < target || s.image.secVer < target then otpEnd 5 0 mailbox s
  else if target ≤ rbCount s.rbVote.1 then otpEnd 0 0 mailbox s
  else
    otpNext { todo := [0x068, 0x070, 0x078].flatMap (fun b => s.thermoTodo b 8 target), mailbox := mailbox } s

/-- OTP_PROGRAM with its arguments (R202 to R208). -/
def otpProgram (args : List Word) (mailbox : Bool) (s : State) : State :=
  let a0 := (args.getD 0 0).toNat
  let r := fld a0 0 8
  let a := fld a0 8 11
  let n := fld a0 24 3
  let ws := (List.range n).map (fun i => (a + i, args.getD (1 + i) 0))
  let refuse := fun (c w : Nat) => otpEnd c w mailbox s
  let rangeOk := 1 ≤ r && r ≤ 7 && (if r = 4 then a == 0 && n == 1 else
    1 ≤ n && n ≤ 6 && ws.all (fun w => otpRegion w.1 == r && decide (w.1 < 2048) && !otpReserved w.1))
  let revoked := fun (k : Nat) => s.keyRevoked k || ws.any (fun w => w.1 == 0x060 + k && w.2 != 0)
  if args.getD 7 0 ≠ ~~~(args.getD 0 0) then refuse 7 0
  else if !rangeOk then refuse 5 0
  else if s.otp.lockWr.getLsbD r then refuse 2 0
  else if !regionOpen r s.otp.lc then refuse 1 0
  else if r = 4 then programRollback (args.getD 1 0).toNat mailbox s
  else
    match ws.find? (fun w => s.otpNormal w.1 ||| s.otpHigh w.1 ≠ 0) with
    | some w => refuse 4 w.1
    | none =>
      if r = 3 && !(List.range 4).any (fun k => s.keyThere k && !revoked k) then refuse 9 0
      else
        let code := fun (w : Nat × Word) => secdedEncode (if r = 5 then Config.scramble w.1 w.2 else w.2)
        let todo := (ws.filter (fun w => w.2 ≠ 0)).map (fun w => (w.1, code w))
        otpNext { todo := todo.filter (fun w => w.2 ≠ 0), mailbox := mailbox } s

/-- An OTP command may run now: in Slack, with no core powered and no other OTP command in progress (R199). -/
def State.otpMayRun (s : State) : Bool := decide (s.tide.power = .slack) && !s.tide.coreEn && s.otp.run.isNone

/-- OTP_WORD_PROGRAMMED (R201) -/
def execOtpWordProgrammed (normal high : BitVec 39) (s : State) : Host.Outcome State Fault Refusal :=
  .next (inService s (otpWordProgrammed normal high))
/-- FAULT_BLINK (R188) -/
def execFaultBlink (s : State) : Host.Outcome State Fault Refusal := .next (faultBlink s)

end Sys2Proof.Machine
end

