-- ==== Sys2Proof/Machine/Table.lean ====
section
/-! DEFINITION. Machine/Table.lean: reading the watch table (R40, R44) and the validation of each entry: the checks 0x01 to
0x13 of R45, with the bounds that R264, R301, R332, R363, R425, R502 and R515 give. -/
namespace Sys2Proof.Machine
open Sys2Proof

/-! ### Entries (R40) -/

/-- Read an entry of 256 bytes (R40). INPUT_UNITS, INPUT_KIND and WATCH_NUM outside their ranges count as reserved values
(log 46). -/
def WatchEntry.read (b : List Byte) : WatchEntry :=
  let ik := byteAt b 0x18
  let iu := byteAt b 0x19
  { num := leAt b 0 2, flags := BitVec.ofNat 8 (byteAt b 2), owner := byteAt b 3 % 8, priority := byteAt b 4, group := byteAt b 5,
    trigKind := byteAt b 6, cores := BitVec.ofNat 8 (byteAt b 7), trigArg := slice b 8 16, inputKind := ik, inputUnits := iu,
    inputRec := leAt b 0x1A 2, admitTimeout := leAt b 0x1C 4, berthMask := BitVec.ofNat 64 (leAt b 0x20 8),
    hbrBase := leAt b 0x28 4, hbrSize := leAt b 0x2C 4,
    persist := (List.range 4).map (fun i => (leAt b (0x30 + 8 * i) 4, leAt b (0x34 + 8 * i) 4)),
    ceiling := leAt b 0x50 4, satBudget := leAt b 0x54 4, recordKinds := BitVec.ofNat 16 (leAt b 0x58 2),
    ckptOffset := leAt b 0x5C 4, ckptSize := leAt b 0x60 4, progFirst := leAt b 0x64 2, progCount := leAt b 0x66 2,
    tensorFirst := leAt b 0x68 2, tensorCount := leAt b 0x6A 2, streamRec := leAt b 0x6C 2, requantRec := leAt b 0x6E 2,
    reservedNonzero := !zeroAt b 0x5A 2 || !zeroAt b 0x70 144 || 8 ≤ byteAt b 3 || 64 ≤ byteAt b 7 || 64 ≤ leAt b 0x58 2 ||
      3 ≤ ik || 1024 ≤ leAt b 0 2 || (if ik = 0 then iu != 0 else iu == 0 || decide (8 < iu)) }

/-- The entries of a WATCH_TABLE body (R221). -/
def tableEntries (body : List Byte) : List WatchEntry :=
  (List.range (body.length / 256)).map (fun i => WatchEntry.read (slice body (256 * i) 256))

/-- WATCH_NUM rises strictly from entry to entry (R44). -/
def numsRise : List WatchEntry → Bool
  | a :: b :: t => decide (a.num < b.num) && numsRise (b :: t)
  | _ => true

/-! ### Ranges -/

/-- [a, a + n) lies within [b, b + m). -/
def within (a n b m : Nat) : Bool := b ≤ a && decide (a + n ≤ b + m)

/-- [a, a + n) and [b, b + m) share a byte. -/
def meets (a n b m : Nat) : Bool := 0 < n && 0 < m && decide (a < b + m) && decide (b < a + n)

/-- No two ranges of a list share a byte. -/
def apart : List (Nat × Nat) → Bool
  | [] => true
  | r :: t => t.all (fun x => !meets r.1 r.2 x.1 x.2) && apart t

/-- No number stands twice in a list. -/
def distinct (l : List Nat) : Bool := decide l.Nodup

/-- The watches lie in the same non-zero share group. -/
def sameGroup (a b : WatchEntry) : Bool := a.group != 0 && a.group == b.group

/-! ### Checks 0x01 to 0x06, 0x08, 0x0C, 0x0D -/

/-- The key root of an owner comes from the OTP or the image (R73 to R76). -/
def State.hasRoot (s : State) (o : Nat) : Bool := fld s.ownerSrc.toNat (2 * o) 2 != 0

/-- 0x02: the window, and every field that R40 declares a multiple of 4,096. -/
def badWindow (e : WatchEntry) : Bool :=
  e.hbrSize == 0 || ([e.hbrBase, e.hbrSize, e.ckptSize] ++ e.persist.flatMap (fun p => [p.1, p.2])).any (fun x => x % 4096 != 0) ||
  decide (0x1F00000 < e.hbrBase + e.hbrSize)

/-- 0x04: persistence regions and the checkpoint area. -/
def badPersist (e : WatchEntry) : Bool :=
  e.persist.any (fun p => p.2 != 0 && decide (e.hbrSize < p.1 + p.2)) ||
  (e.ckptSize != 0 && decide (e.hbrSize < e.ckptOffset + e.ckptSize)) ||
  (e.progCount != 0 && decide (e.ckptSize < 4096))

/-- The ids that a watch names, with their types: PROGRAM, TENSOR, STREAM_INDEX, REQUANT_TABLE and its input record. -/
def namedRecords (e : WatchEntry) : List (Nat × Nat) :=
  (List.range e.progCount).map (fun i => (3, e.progFirst + i)) ++ (List.range e.tensorCount).map (fun i => (4, e.tensorFirst + i)) ++
  (if e.streamRec = 0xFFFF then [] else [(0x0A, e.streamRec)]) ++ (if e.requantRec = 0xFFFF then [] else [(5, e.requantRec)]) ++
  (if e.inputKind = 1 then [(0x0C, e.inputRec)] else if e.inputKind = 2 then [(0x0B, e.inputRec)] else [])

/-- The first-layer and spectral-front configurations that the watch's input names, with their HEAD_REC, or none for a record
that is not a TENSOR record of the watch. -/
def State.namedConfigs (s : State) (w : Watch) : List (Option Nat) :=
  match w.entry.inputKind with
  | 1 => ((s.pixProg w).windows.filter (fun p => p.format == 2)).map (fun p => (s.stemConf? w.entry p).map StemConf.headRec)
  | 2 => ((s.adcSeq w).chains.filter ChainDesc.spectral).map (fun c => (s.specConf? w.entry c).map SpecConf.headRec)
  | _ => []

/-- 0x05: a named record is absent; for a watch without programs its head descriptors too. -/
def State.missing (s : State) (w : Watch) : Bool :=
  (namedRecords w.entry).any (fun r => (s.record? r.1 r.2).isNone) ||
  (s.namedConfigs w).any (fun c =>
    match c with
    | none => true
    | some h => w.entry.progCount == 0 && h != 0xFFFF && (s.tensor? w.entry h).isNone)

/-- 0x06: a PROGRAM or TENSOR record of the watch is placed partly outside its window (R64). -/
def State.loadOutside (s : State) (e : WatchEntry) : Bool :=
  (namedRecords e).any (fun r =>
    (r.1 == 3 || r.1 == 4) &&
    match s.record? r.1 r.2 with
    | some p => !within p.load p.placed e.hbrBase e.hbrSize
    | none => false)

/-- 0x08: the trigger kind and its argument, unused bytes zero (R47). DESIGN CHOICE (log 86): a SENTINEL zone with x0 above x1 or
y0 above y1 passes, as an empty zone of energy 0. -/
def badTrigger (e : WatchEntry) : Bool :=
  let a := e.trigArg
  match e.trigKind with
  | 0 => !zeroAt a 0 16
  | 1 => leAt a 0 4 == 0 || !zeroAt a 8 8
  | 2 => 8 ≤ byteAt a 0 || !zeroAt a 1 1 || !zeroAt a 4 12
  | 3 => 16 ≤ byteAt a 0 || !zeroAt a 1 1 || !zeroAt a 4 12
  | 4 => 1024 ≤ leAt a 0 2 || !zeroAt a 4 4
  | 5 => 64 ≤ byteAt a 0 || 48 ≤ byteAt a 1 || 64 ≤ byteAt a 2 || 48 ≤ byteAt a 3 || !zeroAt a 6 10
  | _ => true

/-! ### Chains and groups: 0x09 to 0x0B -/

/-- The chained source of a watch that is itself in the table. -/
def chainSource (ws : List WatchEntry) (n : Nat) : Option Nat :=
  (ws.find? (fun e => e.num == n && e.trigKind == 4)).map (fun e => leAt e.trigArg 0 2)

/-- Walk up a chain of sources from n for at most `fuel` links: the watches met. -/
def chainUp (ws : List WatchEntry) : Nat → Nat → List Nat
  | 0, _ => []
  | fuel + 1, n =>
    match chainSource ws n with
    | some m => m :: chainUp ws fuel m
    | none => []

/-- 0x09: the watch lies on a cycle. -/
def onCycle (ws : List WatchEntry) (n : Nat) : Bool := (chainUp ws ws.length n).contains n

/-- 0x0A: more than 8 links lie between the watch and one whose trigger is not chained. -/
def tooDeep (ws : List WatchEntry) (n : Nat) : Bool := decide (8 < (chainUp ws 9 n).length)

/-- 0x0B: the chained source or a member of the share group has another owner (R80). -/
def otherOwner (ws : List WatchEntry) (e : WatchEntry) : Bool :=
  (match chainSource ws e.num with
    | some m => ws.any (fun o => o.num == m && o.owner != e.owner)
    | none => false) ||
  ws.any (fun o => sameGroup o e && o.owner != e.owner)

/-! ### Berths and blocks: 0x07, 0x0E -/

/-- 0x07: the watch's own assignments (R263), then every berth of its mask (R45, R264). -/
def State.badBerths (s : State) (w : Watch) : Bool :=
  let own := s.berthsOf w
  let e := w.entry
  own.any (fun b => 64 ≤ b.1 || !e.berthMask.getLsbD b.1 || !within b.2.1 b.2.2 e.hbrBase e.hbrSize) ||
  !distinct (own.map (fun b => b.1)) || !apart (own.map (fun b => b.2)) ||
  own.any (fun b => s.watches.any (fun o => decide (o.entry.num < e.num) && (s.berthsOf o).any (fun x => x.1 == b.1))) ||
  (List.range 64).any (fun b => e.berthMask.getLsbD b &&
    (s.watches.any (fun o => o.entry.num != e.num && o.entry.berthMask.getLsbD b && !sameGroup o.entry e) ||
     match s.berthPlace? b with
     | some p => !within p.1 p.2 e.hbrBase e.hbrSize
     | none => true))

/-- 0x0E: the block ranges of the chains (R301). -/
def State.badBlocks (s : State) (w : Watch) : Bool :=
  w.entry.inputKind == 2 &&
  let q := s.adcSeq w
  let n := 64 + 2 * q.blockLen
  let rs := q.chains.flatMap (fun c => (List.range w.entry.inputUnits).map (fun k => (blockAddr w c k, n)))
  rs.any (fun r => !within r.1 r.2 w.entry.hbrBase w.entry.hbrSize) || !apart rs

/-! ### Stem configurations: 0x0F (R332) -/

/-- A HEAD_REC as R323 and R332 have it for the watch: 0xFFFF with programs; else a head descriptor in two units. -/
def State.headRecOk (s : State) (w : Watch) (h : Nat) : Bool :=
  if w.entry.progCount ≠ 0 then h == 0xFFFF
  else
    match s.tensor? w.entry h with
    | some r =>
      let b := padTo (slice r.unitData 0 128) 128
      2 ≤ r.units && (HeadDesc.read b).ok b
    | none => h != 0xFFFF

/-- Bounds of a first-layer configuration line (R323, R326). -/
def StemConf.ok (c : StemConf) (b : List Byte) (units : Nat) (p : PixWin) : Bool :=
  byteAt b 0 == 1 && inRange 1 7 c.kh && inRange 1 7 c.kw && decide (c.cinMode ≤ 2) && inRange 1 8 c.t && inRange 1 32 c.cout &&
  inRange 1 4 c.sx && inRange 1 4 c.sy && decide (c.pad 0 < c.kh) && decide (c.pad 1 < c.kh) && decide (c.pad 2 < c.kw) &&
  decide (c.pad 3 < c.kw) && decide (c.inShift ≤ 4) && decide (c.outExp ≤ 254) && zeroAt b 0xF 1 && zeroAt b 0x16 42 &&
  c.hist % 512 == 0 && units == 7 + ceilDiv (32 * c.taps) 64 && decide (1 ≤ c.wOut p) && decide (1 ≤ c.hOut p)

/-- The weight bytes of the channels from COUT up are 0 in the units of a first-layer record (R323). -/
def StemConf.weightsOk (c : StemConf) (units : List Byte) : Bool :=
  (List.range c.taps).all (fun i => zeroAt units (64 + 32 * i + c.cout) (32 - c.cout))

/-- The history area of a window lies in the watch's window and overlaps no berth (R327). -/
def State.historyOk (s : State) (w : Watch) (p : PixWin) (c : StemConf) : Bool :=
  let a := w.entry.hbrBase + c.hist
  let n := c.t * c.hIn p * c.wIn p * c.cin
  c.t == 1 || (within a n w.entry.hbrBase w.entry.hbrSize &&
    (s.watches.flatMap s.berthsOf).all (fun b => !meets a n b.2.1 b.2.2))

/-- Engine cycles that a STEM window asks of a sensor row, in 1/96 (R330). -/
def StemConf.demand (c : StemConf) (p : PixWin) : Nat :=
  c.wOut p * ceilDiv c.taps 16 * 96 / (c.sy * (p.factor * (if c.cinMode = 2 then 2 else 1)))

/-- Engine cycles of a row's period, in 1/96: 600 cycles a µs (R256, R330). -/
def PixProg.rowCycles (q : PixProg) (y : Nat) : Nat :=
  let cols := ((q.windows.filter (fun p => decide (p.y0 ≤ y) && decide (y < p.y0 + p.height))).map (fun p => p.width)).sum
  (if q.twelve then 3840 else 1920) * 96 / 8 * (if 1536 < cols then 9 else 8)

/-- The STEM windows of a frame program with their configurations. -/
def State.stemWins (s : State) (w : Watch) : List (PixWin × StemConf) :=
  (s.pixProg w).windows.filterMap (fun p => (s.stemConf? w.entry p).map (fun c => (p, c)))

/-- The line rate of R330, at the rows where the set of windows that cover a row changes, and the buffers of
R331. -/
def State.rateOk (s : State) (w : Watch) : Bool :=
  let q := s.pixProg w
  let ws := s.stemWins w
  (q.windows.flatMap (fun p => [p.y0, p.y0 + p.height])).all (fun y =>
    ((ws.filter (fun x => decide (x.1.y0 ≤ y) && decide (y < x.1.y0 + x.1.height))).map (fun x => x.2.demand x.1)).sum ≤ q.rowCycles y) &&
  decide ((ws.map (fun x => (x.2.kh + 2) * x.2.wIn x.1 * x.2.cin * x.2.t + 32 * x.2.taps)).sum ≤ 131072)

/-- Bounds of a spectral-front configuration (R333) for blocks of `len` samples. -/
def SpecConf.ok (c : SpecConf) (b : List Byte) (units len : Nat) : Bool :=
  byteAt b 0 == 2 && inRange 8 10 c.nlog && decide (c.window ≤ 3) && decide (c.hop ≤ 1) && inRange 1 64 c.bands &&
  decide (c.avg ≤ 1) && decide (c.outExp ≤ 254) && zeroAt b 7 1 && zeroAt b 0x18 40 && units == 5 && decide (c.n ≤ len) &&
  c.outOff % 512 == 0 && c.outStride % 512 == 0 && decide (64 + 64 * c.lines len ≤ c.outStride) &&
  (c.table.zipIdx).all (fun e => if e.2 < c.bands then decide (e.1.1 ≤ c.n / 2) && decide (e.1.2 ≤ c.n / 2) else e.1 == (0, 0))

/-- 0x0F: a configuration breaks its bounds. -/
def State.badStem (s : State) (w : Watch) : Bool :=
  match w.entry.inputKind with
  | 1 =>
    (s.pixProg w).windows.any (fun p =>
      match s.stemRec? w.entry p, s.stemConf? w.entry p with
      | some r, some c =>
        !c.ok (slice r.body 8 64) r.units p || !c.weightsOk r.unitData || !s.historyOk w p c || !s.headRecOk w c.headRec
      | _, _ => false) || !s.rateOk w
  | 2 =>
    let q := s.adcSeq w
    q.chains.any (fun c =>
      match (if c.spectral then s.tensor? w.entry c.stemRec else none), s.specConf? w.entry c with
      | some r, some x => !x.ok r.unitData r.units q.blockLen || !s.headRecOk w x.headRec
      | _, _ => false)
  | _ => false

/-! ### Programs: 0x10, 0x11 -/

/-- 0x10: the main PROGRAM records against the core mask, and their ENTRY (R363). -/
def State.badPrograms (s : State) (w : Watch) : Bool :=
  (s.mains w.entry).length != w.coreList.length ||
  (s.mains w.entry).any (fun r => decide (min r.bundles 4096 ≤ r.entryIndex))

/-- A slot 13 syllable that an ordered watch may not hold (R425). -/
def orderedBad (x : Nat) : Bool :=
  sClass x == 11 && (bitN x 43 || sOp x == 8 || sOp x == 9 || (5 ≤ sOp x && decide (sOp x ≤ 7) && !bitN x 45))

/-- 0x11: a program of an ORDERED watch holds such a syllable. -/
def State.badOrdered (s : State) (w : Watch) : Bool :=
  w.flag 7 && (s.programs w.entry).any (fun r =>
    (List.range r.bundles).any (fun i => orderedBad (leAt r.body (8 + 128 * i + 104) 8)))

/-! ### REQUANT_TABLE: 0x12 (R499 to R502) -/

/-- A group entry (R500, R502). -/
def State.groupOk (s : State) (e : WatchEntry) (b : List Byte) (layers : Nat) : Bool :=
  let fl := byteAt b 3
  let n := byteAt b 2
  let alt := leAt b 4 2
  decide (fl < 4) && inRange 1 8 n && zeroAt b 6 10 && decide (leAt b 0 2 + n ≤ layers) && decide (fl ≠ 3) &&
  (decide (fl ≠ 1) || alt != 0xFFFF) &&
  (alt == 0xFFFF || (decide (e.progFirst ≤ alt) && decide (alt < e.progFirst + e.progCount) &&
    match s.record? 3 alt with
    | some r => r.progKind == 1
    | none => false))

/-- A layer entry against a body of n bytes (R501, R502). -/
def layerOk (b : List Byte) (n : Nat) : Bool :=
  let ch := leAt b 2 2
  let rq := leAt b 4 4
  let bias := leAt b 8 4
  decide (byteAt b 0 ≤ 1) && decide (byteAt b 1 ≤ 9) && inRange 1 4096 ch && rq % 64 == 0 && zeroAt b 12 4 &&
  decide (rq + 8 * ch ≤ n) && (bias == 0xFFFFFFFF || (bias % 64 == 0 && decide (bias + 4 * ch ≤ n)))

/-- 0x12: the REQUANT_TABLE that the watch names. -/
def State.badQuant (s : State) (w : Watch) : Bool :=
  match s.quant? w with
  | none => false
  | some r =>
    let b := r.body
    let n := b.length
    let gt := leAt b 4 4
    let lt := leAt b 8 4
    let ab := leAt b 0xC 4
    let gs := leAt b 0 2
    let ls := leAt b 2 2
    !(decide (64 ≤ n) && inRange 1 256 gs && inRange 1 2048 ls && gt % 64 == 0 && lt % 64 == 0 && ab % 64 == 0 && zeroAt b 0x10 48 &&
      decide (gt + 16 * gs ≤ n) && decide (lt + 16 * ls ≤ n) && (ab == 0 || decide (ab + 64 ≤ n)) &&
      (List.range gs).all (fun g => s.groupOk w.entry (slice b (gt + 16 * g) 16) ls) &&
      (List.range ls).all (fun l => layerOk (slice b (lt + 16 * l) 16) n) && decide (4096 ≤ w.entry.ckptSize))

/-! ### Adaptation: 0x13 (R513, R515) -/

/-- Bounds of an adaptation block (R513). -/
def adaptOk (b : AdaptBlock) (raw : List Byte) : Bool :=
  [b.headDesc, b.stateOff, b.serviceOff, b.ringOff].all (fun a => a % 64 == 0) && inRange 1 64 b.ringLen && decide (b.slot ≤ 3) &&
  decide (b.lrShift ≤ 31) && decide (b.wqShift ≤ 15) && decide (b.bqShift ≤ 31) && decide (b.selfMode ≤ 1) &&
  decide (1 ≤ b.commitEvery) && zeroAt raw 0x1D 35

/-- 0x13: the adaptation block of an ADAPT watch. -/
def State.badAdapt (s : State) (w : Watch) : Bool :=
  w.flag 6 &&
  match s.adaptBlock? w, s.quant? w with
  | some b, some r =>
    let raw := slice r.body (leAt r.body 0xC 4) 64
    let base := w.entry.hbrBase
    let at_ := base + b.headDesc
    let desc := s.hbrBytesAt at_ 128
    let d := HeadDesc.read desc
    let a := s.adaptArea w b
    let ring := b.ringLen * (64 + alignUp d.nIn 64)
    let ss := serviceSize d.nIn d.nOut
    let tensors := (List.range w.entry.tensorCount).filterMap (fun i => s.record? 4 (w.entry.tensorFirst + i))
    let kept := w.entry.persist.filter (fun p => p.2 != 0)
    let inKept := fun (x n : Nat) => kept.any (fun p => within x n p.1 p.2)
    let inRec := fun (x n : Nat) => (s.placedOf w.entry).any (fun p => within (base + x) n p.load p.placed)
    !(adaptOk b raw && d.kind == 0 && d.ok desc && tensors.any (fun p => within at_ 128 p.load p.placed) &&
      decide (a.size ≤ 32704) && inKept b.stateOff a.size && inKept b.ringOff ring &&
      [b.serviceOff, b.serviceOff + ss].all (fun x => inKept x ss || inRec x ss) &&
      apart [(b.stateOff, a.size), (b.ringOff, ring), (b.serviceOff, 2 * ss)] &&
      s.watches.all (fun o => o.entry.num == w.entry.num ||
        match s.adaptBlock? o with
        | some x => x.slot != b.slot
        | none => true) &&
      (b.selfMode ≠ 1 || decide (b.baseClass < d.nOut)))
  | _, _ => true

/-! ### The whole validation (R45) -/

/-- The codes of the checks that a watch fails, in ascending order. -/
def State.failures (s : State) (w : Watch) : List Nat :=
  let e := w.entry
  let ws := s.watches.map (fun x => x.entry)
  ([(1, w.flag 3 && (!s.hasRoot e.owner)), (2, badWindow e),
    (3, ws.any (fun o => o.num != e.num && meets o.hbrBase o.hbrSize e.hbrBase e.hbrSize && !sameGroup o e)), (4, badPersist e),
    (5, s.missing w), (6, s.loadOutside e), (7, s.badBerths w), (8, badTrigger e), (9, onCycle ws e.num), (0xA, tooDeep ws e.num),
    (0xB, otherOwner ws e), (0xC, e.progCount != 0 && w.coreList.isEmpty), (0xD, e.reservedNonzero), (0xE, s.badBlocks w),
    (0xF, s.badStem w), (0x10, s.badPrograms w), (0x11, s.badOrdered w), (0x12, s.badQuant w), (0x13, s.badAdapt w)].filter
      (fun x => x.2)).map (fun x => x.1)

/-- Validate one watch (R45, R46). -/
def validateWatch (n : Nat) (s : State) : State :=
  match s.watch? n with
  | some w =>
    match s.failures w with
    | c :: _ => faultWatch n c s
    | [] => s.modWatch n (fun x => { x with state := if x.flag 1 then .armed else .dormant })
  | none => s

/-- Build and validate the watch table (R40, R44 to R46, R221). -/
def buildTable (s : State) : State :=
  match s.image.records.find? (fun r => r.type == 2) with
  | none => raiseAlarm 2 { s with image := { s.image with noTable := true }, tableBuilt := true }
  | some r =>
    let es := tableEntries r.body
    let s := s.putHbr 0x01F00000 (r.body.take 0x40000)
    if 1024 < es.length || !numsRise es then raiseAlarm 2 { s with tableBuilt := true }
    else
      let ws : List Watch := (es.filter (fun e => e.flags.getLsbD 0)).map (fun e => { entry := e })
      let s := { s with watches := ws, tableBuilt := true }
      let s := (ws.map (fun w => w.entry.num)).foldl (fun s n => validateWatch n s) s
      s.watches.foldl (fun s w => if w.flag 6 && w.state != .faulted then buildAdapt w s else s) s

end Sys2Proof.Machine
end

