-- ==== Sys2Proof/Machine/Adc.lean ====
section
/-! DEFINITION. Machine/Adc.lean: the Aux ADC: the bandgap check and the start of capture (R308, R316), conversion,
decimation, the correction of chain outputs, over-range marking and blocks (R291 to R307), overruns (R317), and system calibration (R310 to R314). -/
namespace Sys2Proof.Machine
open Sys2Proof

/-- Change the capture of the Aux ADC. -/
def modAdcCap (f : AdcCapture → AdcCapture) (s : State) : State := { s with adc := { s.adc with cap := s.adc.cap.map f } }

/-- The Aux ADC's capture and its watch, while the job is not being stopped and the unit is not in partial reset (R168). -/
def State.adcCapture? (s : State) : Option (AdcCapture × Watch) :=
  match s.adc.cap with
  | some c =>
    if s.stopsJob c.watch || decide (ResetUnit.adc ∈ s.sys.resetting) then none else (s.watch? c.watch).map (fun w => (c, w))
  | none => none

/-! ### The start of a capture -/

/-- A bandgap check has failed (R316). -/
def bandgapFails (s : State) : State := { s with adc := { s.adc with bgFails := satAdd s.adc.bgFails 1 255 } }

/-- A calibration command ends with a code (R314). -/
def calEnd (code : Nat) (s : State) : State := calComplete code { s with adc := { s.adc with cal := none } }

/-- ADC_BANDGAP_CHECK: the sum of 64 conversions of BANDGAP, whose mean must be 4,915 ± 98 codes (R308, R311, R316). -/
def bandgapCheck (sum : Nat) (s : State) : State :=
  let mean := rhe sum 64
  let good := decide (4817 ≤ mean) && decide (mean ≤ 5013)
  let note := fun (s : State) => { s with adc := { s.adc with bgCode := BitVec.ofInt 14 mean } }
  if s.tide.xrefReady then
    match s.adc.cap, s.adcCapture?, s.adc.cal with
    | some _, some (c, _), _ =>
      if c.bgDone then s
      else if good then modAdcCap (fun c => { c with bgDone := true }) (note s)
      else startPartial .adc (bandgapFails (note s))
    | none, _, some r =>
      if r.bgDone || decide (ResetUnit.adc ∈ s.sys.resetting) then s
      else if good then note { s with adc := { s.adc with cal := some { r with bgDone := true } } }
      else calEnd 9 (bandgapFails (note s))
    | _, _, _ => s
  else s

/-- ADC_SEQUENCER_START: at the later of the check's end and SETTLE ticks after IEPE_EN, on slot 0 (R308): no slot has been
converted before it, so no discard clock precedes it (R293, log 70). -/
def sequencerStart (s : State) : State :=
  match s.adcCapture? with
  | some (c, w) =>
    if c.bgDone && !c.running && decide (c.iepeTick + (s.adcSeq w).settle ≤ s.sys.tick) then
      modAdcCap (fun c => { c with running := true, clock := if (s.adcSeq w).cycle.head? = some none then 1 else 0 }) s
    else s
  | none => s

/-! ### Conversion and decimation -/

/-- One ADC clock: the converter's unclamped code, and whether the input is beyond the range of its first stage. The code that
enters a chain, and whether the sample is over-range (R291). An input beyond the first stage whose code is within range is
clamped to the side of its sign (log 70). -/
def convert (x : Int × Bool) : Int × Bool :=
  if x.2 || decide (8191 < x.1) || decide (x.1 < -8192) then (if 0 ≤ x.1 then 8191 else -8192, true) else (x.1, false)

/-- REACH (R298). -/
def ChainDesc.reachOf (c : ChainDesc) : Nat := c.m * (22 * 2 ^ c.hb - 18)
/-- Input samples to one output (R295). -/
def ChainDesc.ratio (c : ChainDesc) : Nat := c.m * 2 ^ c.hb
/-- Input samples on which one CIC output depends (R295). -/
def ChainDesc.cicSpan (c : ChainDesc) : Nat := 4 * c.m - 3
/-- CIC outputs on which one output of the chain depends: H half-band stages of 23 taps, each decimating by 2 (R295). -/
def ChainDesc.hbSpan (c : ChainDesc) : Nat := 22 * (2 ^ c.hb - 1) + 1

/-- The sums of every m consecutive values. -/
def movingSums (m : Nat) (l : List Int) : List Int := (List.range (l.length + 1 - m)).map (fun i => ((l.drop i).take m).sum)

/-- One output of the fourth-order CIC of ratio m over its span, in units of m⁻⁴ code (R295). -/
def cicOut (m : Nat) (hist : List Int) : Int := (movingSums m (movingSums m (movingSums m (movingSums m hist)))).headD 0

/-- The chain's output in 1/16 code from the CIC outputs it depends on (R295, R297): a steady input comes out as it is, since
the DC gain is 1 within ±2⁻¹⁸; any other output is that of half-band stages whose taps the spec does not give (log 68). -/
def ChainDesc.output (c : ChainDesc) (cic : List Int) : Int :=
  match cic with
  | [] => 0
  | v :: t => if t.all (· == v) then rhe (16 * v) (c.m ^ 4) else Config.halfBands c.m c.hb cic

/-- One chain output x as a sample word: corrected, saturated and marked (R297, R298, R303). -/
def ChainRun.word (r : ChainRun) (x : Int) : Nat × Bool × Bool :=
  let y := clampI (-8192) 8191 (rhe ((x - r.ofs) * r.gain) (2 ^ 26))
  (ofSigned y.1 14, r.reach != 0 || r.entered, y.2)

/-- A sample enters a chain: the first fills the chain's state as if it had always been there (R296), a later one moves the
filters on, and the last of every M × 2^H forms an output (R295, R298). -/
def chainSample (c : ChainDesc) (r : ChainRun) (x : Int × Bool) : ChainRun :=
  let r := { r with reach := if x.2 then c.reachOf else r.reach - 1, entered := r.entered || x.2 }
  if !r.started then
    { r with started := true, hist := List.replicate c.cicSpan x.1, cic := List.replicate c.hbSpan (x.1 * (c.m ^ 4 : Nat)) }
  else
    let hist := (x.1 :: r.hist).take c.cicSpan
    let phase := r.phase + 1
    let cic := if phase % c.m = 0 then (cicOut c.m hist :: r.cic).take c.hbSpan else r.cic
    let r := { r with hist := hist, cic := cic }
    if phase < c.ratio then { r with phase := phase } else { r with phase := 0, words := r.word (c.output cic) :: r.words }

/-- One ADC clock of the sequencer: its sample goes to the chain of its slot, that of a discard clock or of a chain that has
written its last block goes nowhere (R292, R293, R307). -/
def adcClock (q : AdcSeq) (units : Nat) (a : Nat × List ChainRun) (x : Int × Bool) : Nat × List ChainRun :=
  let next := (a.1 + 1) % max 1 q.frameLen
  match q.cycle.getD a.1 none with
  | none => (next, a.2)
  | some i =>
    match q.chains[i]?, a.2[i]? with
    | some c, some r => if r.done < units then (next, setAt a.2 i (chainSample c r (convert x))) else (next, a.2)
    | _, _ => (next, a.2)

/-! ### Blocks -/

/-- The lines of a block's words with their tags (R302, R305). -/
def blockBody (ws : List (Nat × Bool × Bool)) : List (List Byte × BitVec 16) :=
  (List.range (ceilDiv ws.length 32)).map (fun i =>
    let l := ((ws.zipIdx).drop (32 * i)).take 32
    (padTo (l.flatMap (fun w => leBytes (w.1.1 + 2 ^ 14 * b2n w.1.2.1 + 2 ^ 15 * b2n (w.2 == 0)) 2)) 64,
     mkTag 127 (l.filter (fun w => w.1.2.1 || w.1.2.2)).length 0xC))

/-- Output rate in S/s × 65,536 / 10⁶ of a chain (R294, R295, R304), rounded half to even (R461). -/
def AdcSeq.rate (q : AdcSeq) (chain : Nat) (c : ChainDesc) : Nat :=
  let n := (q.slots.filter (fun s => s.2.2 == chain)).length
  (rhe (240 * n * 65536 : Nat) (max 1 (q.clkDiv * q.frameLen * c.ratio))).toNat

/-- The header line of a block (R304). -/
def blockHeader (q : AdcSeq) (chain : Nat) (c : ChainDesc) (num tick : Nat) (r : ChainRun) : List Byte :=
  let ws := r.words.reverse
  let ovr := (ws.filter (fun w => w.2.1)).length
  let sat := (ws.filter (fun w => w.2.2)).length
  let first := (ws.findIdx? (fun w => w.2.1)).getD 0xFFFF
  let p := q.pair chain
  padTo (leBytes num 4 ++ leBytes chain 1 ++ leBytes p.1 1 ++ leBytes p.2 1 ++
    leBytes (b2n r.entered + 2 * b2n r.carry + 4 * b2n (sat != 0)) 1 ++ leBytes q.blockLen 2 ++ leBytes ovr 2 ++ leBytes first 2 ++
    leBytes sat 2 ++ leBytes (q.rate chain c) 4 ++ leBytes tick 6) 64

/-- The chain after its block is written: the next block starts empty, and a marking that reaches its first output is carried
in (R303, R304). -/
def ChainRun.nextBlock (r : ChainRun) (c : ChainDesc) : ChainRun :=
  { r with done := r.done + 1, words := [], entered := false, carry := decide (c.ratio < r.reach) }

/-- Every used chain has made its last block visible: the Aux ADC is free and IEPE_EN falls (R306, R309); the spectral front may
still have blocks of the job to do (R337). -/
def adcInputs (w : Watch) (s : State) : State :=
  match s.adc.cap with
  | some c =>
    if c.chains.all (fun r => w.entry.inputUnits ≤ r.done) then
      let s := { s with adc := { s.adc with cap := none, iepeJob := 0 } }
      match (s.watch? w.entry.num).bind (fun w => w.job) with
      | some j => if j.spectralLeft = 0 then inputsDone w.entry.num s else s
      | none => s
    else s
  | none => s

/-- The block of a chain is full after the conversions given, and no other chain's block is (R306). -/
def blockFull (q : AdcSeq) (chain : Nat) (rs : List ChainRun) : Bool :=
  rs.zipIdx.all (fun x => if x.2 = chain then decide (x.1.words.length = q.blockLen) else decide (x.1.words.length < q.blockLen))

/-- ADC_BLOCK_COMPLETE: the conversions of the ADC clocks since the last block of any chain, the last of which forms the last
output of a chain's next block, with the tick at which the block's first sample was written (R291 to R307). -/
def blockComplete (chain first : Nat) (clocks : List (Int × Bool)) (s : State) : State :=
  match s.adcCapture? with
  | some (cap, w) =>
    let q := s.adcSeq w
    let (clk, rs) := clocks.foldl (adcClock q w.entry.inputUnits) (cap.clock, cap.chains)
    match q.chains[chain]?, rs[chain]? with
    | some c, some r =>
      if !cap.running || decide (w.entry.inputUnits ≤ r.done) || !blockFull q chain rs then s
      else
        let hdr := blockHeader q chain c ((cap.blockBase + r.done) % 2 ^ 32) (first % 2 ^ 48) r
        let a := blockAddr w c r.done
        match putForJob w a ((hdr, 0) :: blockBody r.words.reverse) s with
        | none => watchFatal w.entry.num 0x20 0 none s
        | some s =>
          let sat := r.words.any (fun w => w.2.2)
          let s := { s with adc := { s.adc with ovrBlocks := satAdd s.adc.ovrBlocks (b2n (r.entered || r.carry)) 0xFFFF,
                                                satBlocks := satAdd s.adc.satBlocks (b2n sat) 0xFFFF } }
          let s := modAdcCap (fun x => { x with clock := clk, chains := setAt rs chain (r.nextBlock c) }) s
          if c.spectral && decide (ResetUnit.stem ∈ s.sys.resetting) then watchFatal w.entry.num 0x2B 0 none s
          else
            let req : StemReq := { watch := w.entry.num, kind := .spectral chain r.done }
            adcInputs w (if c.spectral then { s with stem := { s.stem with queue := s.stem.queue ++ [req] } } else s)
    | _, _ => s
  | none => s

/-- ADC_OVERRUN: a sequencer error (R317). -/
def adcOverrun (s : State) : State :=
  match s.adcCapture? with
  | some (c, _) => if c.running then startPartial .adc s else s
  | none => s

/-- The partial reset of the Aux ADC ends: the partial block is discarded and the job that held it is watch-fatal (R168, R170). -/
def adcReleased (s : State) : State :=
  let s := { s with sys := { s.sys with resetting := s.sys.resetting.filter (fun u => u ≠ ResetUnit.adc) } }
  match s.adc.cap with
  | some c => watchFatalAt 16 0 c.watch 0x2B 0 none s
  | none => s

/-! ### System calibration -/

/-- Find the value of a (channel, gain) pair in a list. -/
def pairGet {α : Type} (l : List ((Nat × Nat) × α)) (p : Nat × Nat) : Option α := (l.find? (fun e => e.1 == p)).map (·.2)

/-- Put the value of a pair into a list. -/
def pairPut {α : Type} (l : List ((Nat × Nat) × α)) (p : Nat × Nat) (x : α) : List ((Nat × Nat) × α) :=
  l.filter (fun e => e.1 != p) ++ [(p, x)]

/-- The gain of a gain code (R289). -/
def gainOf (code : Nat) : Nat := 2 ^ code

/-- The magnitude of E is below 4,096 codes, E = V × g × 8,192 / 10⁶ (R312, R314). -/
def calSmall (v : Int) (gain : Nat) : Bool := decide ((v * (gainOf gain * 8192 : Nat)).natAbs < 4096 * 1000000)

/-- GAIN = E × 16 × 2²² / (M1 − M0), rounded half to even; none where M1 = M0 (R312). -/
def calGain (v : Int) (gain : Nat) (m1 m0 : Int) : Option Int :=
  let d := m1 - m0
  if d = 0 then none
  else
    let num := v * (gainOf gain * 8192 * 16 * 2 ^ 22 : Nat) * (if d < 0 then -1 else 1)
    some (rhe num (1000000 * d.natAbs))

/-- CAL_MEASUREMENT_DONE: the sum of the 4,096 outputs in 1/16 code, and whether one had OVR set (R311, R312, R314). -/
def calMeasured (sum : Int) (ovr : Bool) (s : State) : State :=
  match s.adc.cap, s.adc.cal with
  | none, some r =>
    if !r.bgDone then s
    else
      let mean := rhe sum 4096
      let s := { s with adc := { s.adc with calMean := mean } }
      let p := (r.channel, r.gain)
      if ovr then calEnd 3 s
      else
        match r.applied with
        | none =>
          if 6400 < mean.natAbs then calEnd 5 s
          else calEnd 0 { s with adc := { s.adc with m0 := pairPut s.adc.m0 p mean } }
        | some v =>
          match pairGet s.adc.m0 p with
          | none => calEnd 2 s
          | some m0 =>
            match calGain v r.gain mean m0 with
            | some g =>
              if g < 3145728 || 5242880 < g then calEnd 5 s
              else calEnd 0 { s with adc := { s.adc with pending := pairPut s.adc.pending p (m0, g) } }
            | none => calEnd 5 s
  | _, _ => s

/-- Arguments of CAL_ZERO and CAL_FULL: channel and gain code, none where out of range (R310). -/
def calArgs (a0 : Word) : Option (Nat × Nat) :=
  let gain := fld a0.toNat 4 3
  if a0.toNat &&& 0x73 = a0.toNat && decide (gain ≤ 4) then some (fld a0.toNat 0 2, gain) else none

/-- CAL_ZERO or CAL_FULL begins: it waits until no job holds the Aux ADC, then holds it itself (R311); XREF is enabled for it. -/
def calBegin (p : Nat × Nat) (applied : Option Int) (s : State) : State :=
  needXref { s with adc := { s.adc with cal := some { channel := p.1, gain := p.2, applied := applied } } }

/-- CAL_ZERO (R310, R311, R314). -/
def calZero (args : List Word) (s : State) : State :=
  match calArgs (args.getD 0 0) with
  | some p => calBegin p none s
  | none => calComplete 1 s

/-- CAL_FULL (R310 to R314). -/
def calFull (args : List Word) (s : State) : State :=
  match calArgs (args.getD 0 0) with
  | some p =>
    let v := toSigned (args.getD 1 0).toNat 32
    if (pairGet s.adc.m0 p).isNone then calComplete 2 s
    else if calSmall v p.2 then calComplete 4 s
    else calBegin p (some v) s
  | none => calComplete 1 s

/-- CAL_COMMIT (R310, R313, R314). -/
def calCommit (args : List Word) (s : State) : State :=
  if args.getD 0 0 ≠ 0 || args.getD 7 0 ≠ 0xFFFFFFFF then calComplete 8 s
  else if s.adc.pending.isEmpty then calComplete 6 s
  else requestCommit { record := 0, cause := .cal } s

/-- ADC_BANDGAP_CHECK (R308) -/
def execAdcBandgapCheck (sum : Nat) (s : State) : Host.Outcome State Fault Refusal := .next (inService s (bandgapCheck sum))
/-- ADC_SEQUENCER_START (R308) -/
def execAdcSequencerStart (s : State) : Host.Outcome State Fault Refusal := .next (inService s sequencerStart)
/-- ADC_BLOCK_COMPLETE (R306) -/
def execAdcBlockComplete (chain : Fin 4) (first : Nat) (clocks : List (Int × Bool)) (s : State) :
    Host.Outcome State Fault Refusal :=
  .next (inService s (blockComplete chain.val first clocks))
/-- ADC_OVERRUN (R317) -/
def execAdcOverrun (s : State) : Host.Outcome State Fault Refusal := .next (inService s adcOverrun)
/-- CAL_MEASUREMENT_DONE (R311) -/
def execCalMeasurementDone (sum : Int) (ovr : Bool) (s : State) : Host.Outcome State Fault Refusal :=
  .next (inService s (calMeasured sum ovr))

end Sys2Proof.Machine
end

