-- ==== Sys2Proof/Machine/Causeway.lean ====
section
/-! DEFINITION. Machine/Causeway.lean: the Causeway link (17): training, epochs and what their change does, control words,
sequence numbers, retry, credits, sleep, and the packets a port receives; with the commands of those rows. -/
namespace Sys2Proof.Machine
open Sys2Proof

/-! ### Ports -/

/-- The port is in partial reset (R168). -/
def State.portInReset (s : State) (p : PortId) : Bool := decide (ResetUnit.port p ∈ s.sys.resetting)

/-- Chips on the far side of a port (R568). -/
def State.farSide (s : State) (p : PortId) : List Nat :=
  match s.cw.chip with
  | none => []
  | some me => (List.range 16).filter (fun c => match p with
    | .up => decide (c < me)
    | .dn => decide (me < c))

/-- A partial reset of the port starts: it refuses requests, and it will train in full (R165, R167, R565). -/
def portReset (p : PortId) (s : State) : State :=
  if s.portInReset p then s else startTraining p false (startPartial (.port p) s)

/-- The port works: it is UP and not in partial reset. -/
def State.portUp (s : State) (p : PortId) : Bool := decide ((s.port p).state = .up) && !s.portInReset p

/-- An operation of a core that goes through the port is outstanding (R573, R582). -/
def Pend.through (q : Pend) (chips : List Nat) : Bool :=
  match q.chip with
  | some c => chips.contains c && !q.reqs.isEmpty
  | none => false

/-- The port is idle: nothing queued, unacknowledged, unreturned or outstanding through it (R582). -/
def State.portIdle (s : State) (p : PortId) : Bool :=
  let x := s.port p
  x.queue.isEmpty && x.retry.isEmpty && decide (x.credits = [16, 16, 16]) && decide (x.owed = [0, 0, 0]) &&
  coreIds.all (fun c => !(s.core c).pend.any (fun q => q.through (s.farSide p)))

/-- Ports may sleep: FORCE_AWAKE is 0, and the pin map routes CW_WAKE in both directions (R582, R668). -/
def State.maySleep (s : State) : Bool :=
  !s.cw.forceAwake && decide (s.gpio.cwWakePin ≠ 31) && s.gpio.pins.any (fun x => x.mask.getLsbD 20)

/-! ### Completing operations -/

/-- An operation of a core completes with OK (R374, R380, R577). -/
def completeRemote (c : Fin 4) (i : Nat) (q : Pend) (s : State) : State :=
  if q.slot = 13 then
    let s := removePend c i s
    let s := if q.op = 0xD then s.modCore c closeWindow else s
    settle c (giveStatus c q.st 0 q.pc s)
  else completeDma c i q s

/-- An operation of a core completes with EPOCH_LOST (R392, R420, R573): to its status register under CHECK, else exception UNIT; a
DMA transfer, whose descriptor has no CHECK, raises it always (R391, R392). The completion of a marker closes the window (R608). -/
def loseOne (c : Fin 4) (i : Nat) (q : Pend) (s : State) : State :=
  let s := removePend c i s
  let source := portSource (s.portToward (q.chip.getD 0))
  if q.slot = 13 then
    let s := if q.op = 0xD then s.modCore c closeWindow else s
    settle c (if q.st.isSome then giveStatus c q.st 2 q.pc s else coreExceptionAt source c causeUnit 13 q.pc s)
  else settle c (coreExceptionAt source c causeUnit q.slot q.pc s)

/-- Every operation of a core toward a chip that is outstanding completes with EPOCH_LOST; `n` bounds their number (R573). -/
def loseOps (c : Fin 4) (chip : Nat) : Nat → State → State
  | 0, s => s
  | n + 1, s =>
    match (s.core c).pend.zipIdx.find? (fun x => x.1.through [chip]) with
    | some (q, i) => loseOps c chip n (loseOne c i q s)
    | none => s

/-- A chip leaves doubt for a core: its operations toward it complete with EPOCH_LOST (R573). -/
def endDoubt (c : Fin 4) (chip : Nat) (s : State) : State :=
  if s.cw.doubts.any (fun d => d.core == c.val && d.chip == chip) then
    settle c (loseOps c chip (s.core c).pend.length
      { s with cw := { s.cw with doubts := s.cw.doubts.filter (fun d => !(d.core == c.val && d.chip == chip)) } })
  else s

/-! ### Epoch changes (R572 to R575) -/

/-- Clear the marker entries of a set of chips; an `ewait` in progress on one of them completes with EPOCH_LOST, once
the chip is not in doubt (R544, R572, R578). -/
def clearMarkers (chips : List Nat) (s : State) : State :=
  let s := { s with cw := { s.cw with markers := s.cw.markers.map (fun m =>
    if chips.contains m.chip then { m with count := 0, epochs := [none, none, none, none] } else m) } }
  coreIds.foldl (fun s c =>
    match (s.core c).wait with
    | some (.epoch chip _ st) =>
      if chips.contains chip then settle c (s.modCore c (fun k => { k with wait := some (.lost chip st) })) else s
    | _ => s) s

/-- Add chips to a tainted set. -/
def addTaint (written : List (Nat × Nat)) (chips tainted : List Nat) : List Nat :=
  tainted ++ ((written.map (·.1)).filter (fun c => chips.contains c && !tainted.contains c))

/-- The cores in Spring and the cores of CHECKPOINTED jobs that had written a chip of the set lose it until the job ends (R575). -/
def taintChips (chips : List Nat) (s : State) : State :=
  let s := s.modCores coreIds (fun k => { k with tainted := addTaint k.written chips k.tainted })
  { s with watches := s.watches.map (fun w =>
      { w with job := w.job.map (fun j => { j with cwSets := j.cwSets.map (fun x => (x.1, addTaint x.1 chips x.2)) }) }) }

/-- Every chip of the set is in doubt for each core with an operation toward it outstanding (R573). -/
def doubtChips (chips : List Nat) (s : State) : State :=
  let fresh := coreIds.flatMap (fun c => (chips.filter (fun ch => (s.core c).pend.any (fun q => q.through [ch]))).map
    (fun ch => ({ core := c.val, chip := ch, tick := s.sys.tick } : Doubt)))
  let keep := s.cw.doubts.filter (fun d => !fresh.any (fun f => f.core == d.core && f.chip == d.chip))
  { s with cw := { s.cw with doubts := keep ++ fresh } }

/-- Send the FLUSH of each chip in doubt whose path is UP and whose FLUSH has not gone (R573). -/
def sendFlushes (s : State) : State :=
  s.cw.doubts.foldl (fun s d =>
    if !d.flushed && s.portUp (s.portToward d.chip) then
      let (t, s) := takeTxn (Fin.ofNat 4 d.core) s
      let s := { s with cw := { s.cw with doubts := s.cw.doubts.map (fun e => if e = d then { e with flushed := true } else e) } }
      sendPacket { type := 6, dest := d.chip, src := s.myChip, core := d.core, txn := t } s
    else s) s

/-- What this chip does of an epoch change once it has learnt of it: the chips beyond the link are in doubt, and what it has
written there is lost (R572, R573, R575). -/
def learnChange (chips : List Nat) (s : State) : State := sendFlushes (clearMarkers chips (doubtChips chips (taintChips chips s)))

/-- Send a NOTICE of a changed link through a port (R572). -/
def sendNotice (p : PortId) (upper epoch : Nat) (s : State) : State :=
  if p ∈ s.usedPorts then
    let me := s.myChip
    enqueue p none { type := 0xD, dest := (match p with
      | .up => me - 1
      | .dn => me + 1) % 16, src := me, arg := upper + 256 * epoch } s
  else s

/-- MSG packets of a queue, retry buffer or list: each that is discarded is a lost message (R581). -/
def msgCount (ps : List Packet) : Nat := (ps.filter (fun p => p.type == 0xC)).length

/-- The port's epoch has changed to `e` (R572): what was still to cross is discarded, the units of its transit packets going
back to the chip they came from, with bursts from beyond whose LAST had not come; what came through the port before the change
and waits at the other goes on (R574; log 38); an event-log entry is written (R624). A MSG that either end discards counts at both
(R581): the peer's are a free number, since nothing tells it here (log 38). -/
def epochChanged (p : PortId) (e : Nat) (s : State) : State :=
  let x := s.port p
  let far := s.farSide p
  let lost := msgCount (x.queue.map (·.pkt)) + msgCount (x.retry.map (·.2)) + Config.freeNat s.free
  let s := { s with free := s.free + 1 }
  let s := s.setPort p { x with epoch := e, valid := true, queue := [], retry := [], retrains := satAdd x.retrains 1 255 }
  let s := { s with cw := { s.cw with
      msgLost := satAdd s.cw.msgLost lost 255, firsts := s.cw.firsts.filter (fun k => !far.contains k.src) } }
  let s := returnUnits x.queue [] s
  let s := logEntry { cls := 7, source := 10 + p.idx, epoch := e } s
  let upper := match p with
    | .up => s.myChip - 1
    | .dn => s.myChip
  learnChange far (sendNotice p.other upper e s)

/-! ### Training (R550, R551, R557, R558, R571) -/

/-- The epoch that both ends adopt, and whether it is kept (R571). Two valid epochs that stand 128 apart have no higher one in
the spec: a free one of the two (log 2). -/
def State.nextEpoch (s : State) (x : Port) (t : TrainSet) : Nat × Bool :=
  let e := x.epoch
  let f := t.epoch % 256
  if x.resume && t.resume && x.valid && t.epochValid && e = f then (e, true)
  else if x.valid && t.epochValid then
    let d := (e + 256 - f) % 256
    let high := if e = f then e else if d ≤ 127 then e else if 129 ≤ d then f
      else if Config.freeNat s.free % 2 = 0 then e else f
    ((high + 1) % 256, false)
  else if x.valid then ((e + 1) % 256, false)
  else if t.epochValid then ((f + 1) % 256, false)
  else (1, false)

/-- TS2 of a port, with the agreed values (R557). -/
def State.ts2Of (s : State) (p : PortId) (x : Port) (e : Nat) (keep : Bool) : TrainSet :=
  { epoch := e, epochValid := true, chip := s.myChip + (match p with
      | .up => 0
      | .dn => 1), chipValid := true, role := s.cw.cfg.role, resume := keep && x.resume }

/-- Two valid TS1 have come: epoch and number are agreed and TS2 is sent. A chip whose number would exceed 15 keeps none, its port
goes DOWN and SYS_ALARM is set (R550); the downstream port waits for the chip's own number (R550). -/
def agree (p : PortId) (t : TrainSet) (s : State) : State :=
  let x := s.port p
  let (e, keep) := s.nextEpoch x t
  let s := { s with free := s.free + 1 }
  match p with
  | .up =>
    if 15 ≤ t.chip % 16 then
      raiseAlarmAt 10 7 ({ s with cw := { s.cw with chip := none } }.setPort .up { x with state := .down })
    else
      let n := t.chip % 16 + 1
      control .up (.ts2 { s.ts2Of .up x e keep with chip := n }) (s.setPort .up { x with agreed := some (e, keep, some n) })
  | .dn =>
    if s.cw.chip.isNone then s
    else control .dn (.ts2 (s.ts2Of .dn x e keep)) (s.setPort .dn { x with agreed := some (e, keep, none) })

/-- The port trains and hears its peer (R557 step 3). -/
def State.hears (s : State) (p : PortId) : Bool :=
  decide ((s.port p).state = .training) && (s.port p).aligned && !s.portInReset p

/-- TS1 received (R557): one that gives the upstream port no chip number is not valid for it (R550). -/
def ts1Received (p : PortId) (t : TrainSet) (s : State) : State :=
  let s := beginPort p s
  if s.hears p && (p = .dn || t.chipValid) && (s.port p).agreed.isNone then
    let s := s.modPort p (fun x => { x with ts1 := min 2 (x.ts1 + 1) })
    if (s.port p).ts1 = 2 then agree p t s else s
  else s

/-- TS2 received with the agreed epoch (R557). -/
def ts2Received (p : PortId) (t : TrainSet) (s : State) : State :=
  let s := beginPort p s
  match (s.port p).agreed with
  | some (e, _, _) =>
    if s.hears p && t.epochValid && t.epoch = e then s.modPort p (fun x => { x with ts2 := min 2 (x.ts2 + 1) }) else s
  | none => s

/-- TS1_SEND: the port sends TS1 while it trains, or TS2 once the values are agreed (R557). -/
def ts1Send (p : PortId) (s : State) : State :=
  let s := beginPort p s
  if s.hears p then
    let x := s.port p
    match x.agreed with
    | some (e, keep, n) => control p (.ts2 { s.ts2Of p x e keep with chip := n.getD (s.myChip + 1) }) s
    | none =>
      control p (.ts1 { epoch := x.epoch, epochValid := x.valid, chip := s.myChip, chipValid := s.cw.chip.isSome,
                        role := s.cw.cfg.role, resume := x.resume }) s
  else s

/-- LANE_PLL_LOCKED (R557 step 2). -/
def lanePllLocked (p : PortId) (s : State) : State :=
  if (s.port p).state = .training && s.tide.xrefReady && !s.portInReset p then s.modPort p (fun x => { x with pll := true }) else s

/-- RECEIVER_ALIGNED (R557 step 3). -/
def receiverAligned (p : PortId) (s : State) : State :=
  if (s.port p).state = .training && (s.port p).pll && !s.portInReset p then s.modPort p (fun x => { x with aligned := true })
  else s

/-- A value found differs from the one LINK_CONFIG expects (R551). -/
def mismatch (s : State) : State := raiseAlarmAt 10 7 { s with cw := { s.cw with mismatch := true } }

/-- Take a chip number (R550, R551). -/
def takeNumber (n : Nat) (s : State) : State :=
  let s := { s with cw := { s.cw with chip := some n } }
  if s.cw.cfg.expectNum ≠ 255 && s.cw.cfg.expectNum ≠ n then mismatch s else s

/-- Record the chain length (R551). -/
def takeLength (n : Nat) (s : State) : State :=
  let s := { s with cw := { s.cw with chainLen := n } }
  if s.cw.cfg.expectLen ≠ 0 && s.cw.cfg.expectLen ≠ n then mismatch s else s

/-- Send a CHAIN packet with the chain length through a port (R551). -/
def sendChain (p : PortId) (n : Nat) (s : State) : State :=
  if p ∈ s.usedPorts then
    let me := s.myChip
    enqueue p none { type := 0xE, dest := (match p with
      | .up => me - 1
      | .dn => me + 1) % 16, src := me, arg := n } s
  else s

/-- CW_WAKE is released once the ports the chip needs are UP: those that hold something to send (R583). -/
def releaseWake (s : State) : State :=
  if s.usedPorts.all (fun p => decide ((s.port p).state = .up) || ((s.port p).queue.isEmpty && (s.port p).retry.isEmpty)) then
    { s with cw := { s.cw with wakeOut := false } }
  else s

/-- LINK_TRAINED: after two valid TS2 the port is UP, with SEQ 0 and 16 credits (R557); with RESUME the epoch stays, and what
the retry buffer held is queued again; otherwise the epoch changes. -/
def linkTrained (p : PortId) (s : State) : State :=
  let s := beginPort p s
  match (s.port p).agreed with
  | some (e, keep, n) =>
    if s.hears p && (s.port p).ts2 = 2 then
      let s := match n with
        | some n => takeNumber n s
        | none => s
      let s := s.modPort p (fun x =>
        { x with state := .up, txSeq := 0, rxSeq := 0, naked := false, unacked := 0, retransmits := 0, codeWindow := 0,
                 credits := [16, 16, 16], owed := [0, 0, 0], retry := if keep then [] else x.retry,
                 queue := (if keep then x.retry.map (fun r => ({ pkt := r.2, tick := s.sys.tick } : Queued)) else []) ++ x.queue })
      let s := forgiveUnits p s
      let s := if keep then s else epochChanged p e s
      let s := match p, s.cw.cfg.role with
        | .up, 3 => if keep then s else sendChain .up (s.myChip + 1) (takeLength (s.myChip + 1) s)
        | _, _ => s
      pumpPort p (sendFlushes (releaseWake s))
    else s
  | none => s

/-- TRAINING_TIMEOUT (R558). -/
def trainingTimeout (p : PortId) (s : State) : State :=
  if (s.port p).state = .training then raiseAlarmAt (10 + p.idx) 7 (s.modPort p (fun x => { x with state := .down })) else s

/-- TRAINING_RETRY (R558). -/
def trainingRetry (p : PortId) (s : State) : State :=
  if (s.port p).state = .down && s.tide.xrefReady && !s.portInReset p then startTraining p false (beginPort p s) else s

/-! ### Control words (R564 to R566, R582) -/

/-- SEQ a is at or before b (R563). -/
def seqUpTo (a b : Nat) : Bool := decide ((b + 4096 - a) % 4096 < 2048)

/-- ACK frees what it covers (R563, R565). -/
def ackReceived (p : PortId) (q : Nat) (s : State) : State :=
  let s := beginPort p s
  if s.portUp p then
    pumpPort p (s.modPort p (fun x =>
      let rest := x.retry.filter (fun e => !seqUpTo e.1 q)
      { x with retry := rest, retransmits := if rest.length < x.retry.length then 0 else x.retransmits }))
  else s

/-- Retransmit every unacknowledged packet in SEQ order; the sixteenth in a row without progress is the retry limit (R565). -/
def retransmit (p : PortId) (s : State) : State :=
  let s := beginPort p s
  if s.portUp p && !(s.port p).retry.isEmpty then
    let s := s.modPort p (fun x =>
      { x with replays := satAdd x.replays 1 255, retransmits := x.retransmits + 1,
               sent := x.sent ++ x.retry.map (fun r => LaneItem.packet r.1 x.epoch r.2) })
    if 16 ≤ (s.port p).retransmits then portReset p s else s
  else s

/-- CREDIT returns units (R566). -/
def creditReceived (p : PortId) (v n : Nat) (s : State) : State :=
  let s := beginPort p s
  if s.portUp p then pumpPort p (s.modPort p (fun x => { x with credits := modAt x.credits v (fun c => min 16 (c + n)) })) else s

/-- The book of Causeway credits fails: nothing waits for its return and credits are missing (R621). -/
def State.creditsLost (s : State) (p : PortId) : Bool := (s.port p).retry.isEmpty && decide ((s.port p).credits ≠ [16, 16, 16])

/-- SLEEP_REQ (R582, R621). -/
def sleepReq (p : PortId) (s : State) : State :=
  let s := beginPort p s
  if s.portUp p then
    if s.creditsLost p then portReset p s
    else if s.portIdle p && s.maySleep then (control p .sleepAck s).modPort p (fun x => { x with state := .sleep })
    else control p .sleepNak s
  else s

/-- SLEEP_ACK (R582, R621). -/
def sleepAck (p : PortId) (s : State) : State :=
  let s := beginPort p s
  if s.portUp p then
    if s.creditsLost p then portReset p s
    else
      let s := s.modPort p (fun x => { x with state := .sleep })
      if (s.port p).queue.isEmpty && (s.port p).retry.isEmpty then s else needPort p s
  else s

/-- SLEEP_IDLE (R582). -/
def sleepIdle (p : PortId) (s : State) : State :=
  let s := beginPort p s
  if s.portUp p && s.portIdle p && s.maySleep then control p .sleepReq s else s

/-- Send ACK for what has been accepted (R564). -/
def sendAck (p : PortId) (s : State) : State :=
  control p (.ack (((s.port p).rxSeq + 4095) % 4096)) (s.modPort p (fun x => { x with unacked := 0 }))

/-- ACK_DEADLINE (R564). -/
def ackDeadline (p : PortId) (s : State) : State :=
  let s := beginPort p s
  if s.portUp p && decide ((s.port p).unacked ≠ 0) then sendAck p s else s

/-- One NAK with the expected SEQ, until that SEQ arrives (R564). -/
def sendNak (p : PortId) (s : State) : State :=
  if (s.port p).naked then s
  else control p (.nak (s.port p).rxSeq) (s.modPort p (fun x => { x with naked := true }))

/-- CRC_ERROR: a packet whose CRC fails (`readPacket`), or a gap (R564). -/
def crcError (p : PortId) (s : State) : State :=
  let s := beginPort p s
  if s.portUp p then sendNak p (s.modPort p (fun x => { x with crcErrs := satAdd x.crcErrs 1 255 })) else s

/-- CODE_ERROR: a control word whose CHK fails (`readControl`) is only counted (R556); a code group that does not decode also brings a NAK, and
the sixteenth within 1,024 code groups the partial reset (R564, R565). `inWindow` counts those of the last 1,024 code groups. -/
def codeError (p : PortId) (isControl : Bool) (inWindow : Nat) (s : State) : State :=
  let s := beginPort p s
  if (s.portUp p || s.hears p) then
    let s := s.modPort p (fun x => { x with codeErrs := satAdd x.codeErrs 1 255 })
    if isControl then s
    else
      let s := s.modPort p (fun x => { x with codeWindow := inWindow })
      if 16 ≤ inWindow then portReset p s else if s.portUp p then sendNak p s else s
  else s

/-- LANE_LOCK_LOSS (R565). -/
def laneLockLoss (p : PortId) (s : State) : State :=
  if s.portUp p || s.hears p then portReset p (beginPort p s) else s

/-- TRANSIT_TIMEOUT: the transit packet that has waited longest at the port is discarded (R570, R581). -/
def transitTimeout (p : PortId) (s : State) : State :=
  match (s.port p).queue.find? (fun e => e.transit) with
  | some e =>
    let s := s.modPort p (fun x => { x with queue := dropQueued e x.queue })
    let s := { s with cw := { s.cw with dropTransit := satAdd s.cw.dropTransit 1 255,
                                        msgLost := satAdd s.cw.msgLost (b2n (e.pkt.type == 0xC)) 255 } }
    returnUnits [e] [] (beginPort p.other (beginPort p s))
  | none => s

/-- FLUSH_TIMEOUT: no path to a chip in doubt has come UP, at this chip's port or at a link farther on, where its FLUSH was lost
(R573). -/
def flushTimeout (c : Fin 4) (chip : Nat) (s : State) : State := endDoubt c chip s

/-- CW_WAKE: the level of the net at its input pin, where the pin map routes one (R583, R667). -/
def cwWake (level : Bool) (s : State) : State :=
  if s.gpio.cwWakePin = 31 then s
  else
    let s := { s with cw := { s.cw with wakeIn := level } }
    if level && !s.usedPorts.isEmpty then startPorts (needXref (wake s)) else s

/-! ### Packets received -/

/-- Accept the next packet of a port: count it, acknowledge after every eighth (R564). -/
def acceptPacket (p : PortId) (k : Packet) (s : State) : State :=
  let s := s.modPort p (fun x => { x with rxSeq := (x.rxSeq + 1) % 4096, naked := false, unacked := x.unacked + 1,
                                          owed := modAt x.owed k.vc (fun o => o + k.cost) })
  if 8 ≤ (s.port p).unacked then sendAck p s else s

/-- A packet for this chip: NOTICE and CHAIN go from chip to chip (R551, R572). -/
def State.forMe (s : State) (k : Packet) : Bool := s.cw.chip == some k.dest || k.type == 0xD || k.type == 0xE

/-- Receive a packet of one type (R564, R568): out of order, of another epoch or at a port that is not UP it is not accepted; a
duplicate is acknowledged again, a gap answered with NAK. A packet for another chip goes to the port toward that chip; one for
this chip is served by `f` and its units are returned. -/
def receive (p : PortId) (type : Nat) (seq : BitVec 12) (epoch : BitVec 8) (k : Packet) (f : Packet → State → State) (s : State) :
    State :=
  let s := beginPort p s
  let x := s.port p
  let k := { k with type := type }
  if !s.portUp p || decide (epoch.toNat ≠ x.epoch) then s
  else if seq.toNat = x.rxSeq then
    let s := acceptPacket p k s
    if s.forMe k then returnCredit p k.vc k.cost (f k s)
    else
      let o := s.portToward k.dest
      if o ∈ s.usedPorts then enqueue o (some p) k (if o = p then s else beginPort o s) else returnCredit p k.vc k.cost s
  else if seqUpTo seq.toNat ((x.rxSeq + 4095) % 4096) then sendAck p s
  else sendNak p s

/-- Answer a packet (R561). -/
def answer (k : Packet) (type status : Nat) (s : State) : State :=
  sendPacket { type := type, dest := k.src, src := s.myChip, core := k.core, status := status, watch := k.watch, txn := k.txn } s

/-- This chip accepts a remote burst on its Harbour (R70). -/
def State.takesRemote (s : State) (k : Packet) (off n : Nat) : Bool :=
  match s.watch? k.watch with
  | some w => w.flag 5 && w.inWindow off n
  | none => false

/-- Refuse a request (R561). -/
def refuse (k : Packet) (type : Nat) (s : State) : State :=
  answer k type 1 { s with cw := { s.cw with refusedIn := satAdd s.cw.refusedIn 1 255 } }

/-- The lines of a payload with their tags (R560). -/
def packetLines (k : Packet) : List (List Byte × BitVec 16) :=
  (List.range k.lineCount).map (fun i => (slice k.payload (66 * i) 64, BitVec.ofNat 16 (leAt k.payload (66 * i + 64) 2)))

/-- Perform a remote write burst as one unit, or refuse it (R532, R561, R579). -/
def performBurst (k : Packet) (off : Nat) (ls : List (List Byte × BitVec 16)) (s : State) : State :=
  if s.takesRemote k off (64 * ls.length) then answer k 8 0 (s.putHbrLines (off / 64) ls) else refuse k 8 s

/-- WR (R561, R562): a FIRST waits for its LAST. -/
def wrPacket (k : Packet) (s : State) : State :=
  let same := fun (f : Packet) => f.src == k.src && f.txn == k.txn
  if k.first && !k.last then { s with cw := { s.cw with firsts := s.cw.firsts.filter (fun f => !same f) ++ [k] } }
  else if k.first then performBurst k k.arg (packetLines k) s
  else
    match s.cw.firsts.find? same with
    | some f =>
      performBurst k f.arg (packetLines f ++ packetLines k) { s with cw := { s.cw with firsts := s.cw.firsts.filter (fun f => !same f) } }
    | none => s

/-- A remote read or word write of a poisoned line is refused, with an event-log entry naming the line (R604, R616). The spec
does not give that entry's CLASS: a free value (log 2). -/
def refusePoisoned (k : Packet) (type line : Nat) (s : State) : State :=
  refuse k type (logEntry { cls := Config.freeNat s.free % 256, source := 1, addr := 0x40000000 + 64 * line, watch := some k.watch }
    { s with free := s.free + 1 })

/-- WRW (R561). -/
def wrwPacket (k : Packet) (s : State) : State :=
  if !s.takesRemote k k.arg 4 then refuse k 8 s
  else if s.harbour.poisoned (k.arg / 64) then refusePoisoned k 8 (k.arg / 64) s
  else answer k 8 0 (s.putHbr k.arg (padTo k.payload 4))

/-- RD: the block is read as one unit and returned in one or two RD_DATA packets (R561, R562, R616). -/
def rdPacket (k : Packet) (s : State) : State :=
  let n := k.lines
  let l := k.arg / 64
  if !s.takesRemote k k.arg (64 * n) then refuse k 9 s
  else
    match (List.range n).find? (fun i => s.harbour.poisoned (l + i)) with
    | some i => refusePoisoned k 9 (l + i) s
    | none =>
      let ls := (List.range n).map (fun i => (s.harbour.line (l + i), s.harbour.tag (l + i)))
      let pk := fun (first last : Bool) (off : Nat) (ls : List (List Byte × BitVec 16)) =>
        ({ type := 9, first := first, last := last, dest := k.src, src := s.myChip, core := k.core, lines := ls.length,
           watch := k.watch, arg := off, txn := k.txn, payload := ls.flatMap payloadLine } : Packet)
      let s := s.visit k.arg (64 * n)
      if n ≤ 4 then sendPacket (pk true true k.arg ls) s
      else sendPacket (pk false true (k.arg + 256) (ls.drop 4)) (sendPacket (pk true false k.arg (ls.take 4)) s)

/-- RDW (R561, R616). -/
def rdwPacket (k : Packet) (s : State) : State :=
  if !s.takesRemote k k.arg 4 then refuse k 0xA s
  else if s.harbour.poisoned (k.arg / 64) then refusePoisoned k 0xA (k.arg / 64) s
  else
    sendPacket { type := 0xA, dest := k.src, src := s.myChip, core := k.core, watch := k.watch, txn := k.txn,
                 payload := rdBytes s.harbour.data k.arg 4 } (s.visit k.arg 4)

/-- MARKER: accepted into a declared entry, or refused (R561, R577); a wait that it meets ends. -/
def markerPacket (k : Packet) (s : State) : State :=
  if s.markerOk k.watch k.src then
    let s := storeMarker k.watch k.src k.core (k.arg % 65536) (fld k.arg 16 3) s
    answer k 8 0 (coreIds.foldl (fun s c => settle c s) s)
  else refuse k 8 s

/-- FLUSH, behind every earlier request (R574). -/
def flushPacket (k : Packet) (s : State) : State := answer k 0xB 0 s

/-- The core and the outstanding operation that a response answers (R559). -/
def State.requester (s : State) (txn : Nat) : Option (Fin 4 × Pend × Nat × RemoteReq) :=
  let c : Fin 4 := Fin.ofNat 4 (txn / 16384)
  ((s.core c).pend.zipIdx.find? (fun x => x.1.reqs.any (fun r => r.txn == txn))).bind (fun x =>
    (x.1.reqs.find? (fun r => r.txn == txn)).map (fun r => (c, x.1, x.2, r)))

/-- An answered packet of operation i of a core: the operation completes with its last answer. -/
def answered (c : Fin 4) (i : Nat) (q : Pend) (txn : Nat) (s : State) : State :=
  let q := { q with reqs := q.reqs.filter (fun r => r.txn ≠ txn) }
  let s := s.modCore c (fun k => { k with pend := setAt k.pend i q })
  if q.reqs.isEmpty then completeRemote c i q s else s

/-- The far chip refused the request (R391, R561). -/
def refusedAt (c : Fin 4) (i : Nat) (q : Pend) (s : State) : State :=
  settle c (coreExceptionAt (portSource (s.portToward (q.chip.getD 0))) c causeRemoteRefused q.slot q.pc (removePend c i s))

/-- ACK response (R561). -/
def ackPacket (k : Packet) (s : State) : State :=
  match s.requester k.txn with
  | some (c, q, i, _) => if k.status = 0 then answered c i q k.txn s else refusedAt c i q s
  | none => s

/-- Write the lines of an RD_DATA into local memory, and into the entries of the retain buffer that the transfer has taken for them;
a line that an earlier row of the transfer has brought is taken from its entry (R377, R382, R384). -/
def readLines (q : Pend) (r : RemoteReq) (k : Packet) (x : Core) : Core :=
  let base := r.loc + (k.arg - r.off)
  let line := r.line + (k.arg - r.off) / 64
  (packetLines k).zipIdx.foldl (fun x d =>
    let v := if q.retain = 1 then (x.retained (line + d.2)).getD d.1 else d.1
    let x := putLocal (base + 64 * d.2) (v.1, q.setTag.getD v.2) x
    if q.retain = 1 then fillLine (line + d.2) d.1 x else x) x

/-- RD_DATA response (R561, R562). -/
def rdDataPacket (k : Packet) (s : State) : State :=
  match s.requester k.txn with
  | some (c, q, i, r) =>
    if k.status ≠ 0 then refusedAt c i q s
    else
      let s := s.modCore c (readLines q r k)
      if k.last then answered c i q k.txn s else s
  | none => s

/-- RDW_DATA response (R561). -/
def rdwDataPacket (k : Packet) (s : State) : State :=
  match s.requester k.txn with
  | some (c, q, i, _) =>
    if k.status ≠ 0 then refusedAt c i q s
    else
      let s := match q.sd with
        | some r => s.modCore c (fun x => x.setS r (BitVec.ofNat 32 (leNat (k.payload.take 4))))
        | none => s
      answered c i q k.txn s
  | none => s

/-- FLUSH_DONE response (R573). -/
def flushDonePacket (k : Packet) (s : State) : State :=
  if s.cw.doubts.any (fun d => d.core == k.core % 4 && d.chip == k.src && d.flushed) then endDoubt (Fin.ofNat 4 k.core) k.src s else s

/-- MSG: every CAUSEWAY watch of that source chip and message becomes due (R47, R580). -/
def msgPacket (k : Packet) (s : State) : State :=
  triggerAll ((s.watches.filter (fun w => w.entry.trigKind == 3 && leAt w.entry.trigArg 0 1 == k.src &&
    leAt w.entry.trigArg 2 2 == k.arg % 65536)).map (fun w => w.entry.num)) 0 false s

/-- NOTICE (R572): the chips beyond the named link are those at or below its upstream chip for a notice that came from upstream,
and those above it for one that came from downstream. -/
def noticePacket (p : PortId) (k : Packet) (s : State) : State :=
  let u := k.arg % 16
  let beyond := (List.range 16).filter (fun c => match p with
    | .up => decide (c ≤ u)
    | .dn => decide (u < c))
  learnChange beyond (sendNotice p.other u (fld k.arg 8 8) s)

/-- CHAIN (R551): recorded; the HEAD returns it downstream, every other chip passes it on. -/
def chainPacket (p : PortId) (k : Packet) (s : State) : State :=
  let n := k.arg % 32
  let s := takeLength n s
  match p with
  | .dn => if s.cw.cfg.role = 1 then sendChain .dn n s else sendChain .up n s
  | .up => sendChain .dn n s

/-! ### Release of a port (R168) -/

/-- The drain of a port has ended: its retry buffer and credits are cleared and it trains in full; local requests that wait for
a reply through it complete as R573 says (R168, R620). -/
def portReleased (p : PortId) (s : State) : State :=
  let s := { s with sys := { s.sys with resetting := s.sys.resetting.filter (fun u => u ≠ ResetUnit.port p) } }
  let s := beginPort p s
  let lost := msgCount ((s.port p).retry.map (·.2))
  let s := s.modPort p (fun x => { x with retry := [], credits := [16, 16, 16], owed := [0, 0, 0], retransmits := 0, unacked := 0 })
  let s := forgiveUnits p s
  startTraining p false { s with cw := { s.cw with msgLost := satAdd s.cw.msgLost lost 255 } }

/-! ### The commands -/

/-- LINK_TRAINED (R557) -/
def execLinkTrained (p : PortId) (s : State) : Host.Outcome State Fault Refusal := .next (inService s (linkTrained p))
/-- TRAINING_TIMEOUT (R558) -/
def execTrainingTimeout (p : PortId) (s : State) : Host.Outcome State Fault Refusal := .next (inService s (trainingTimeout p))
/-- TRAINING_RETRY (R558) -/
def execTrainingRetry (p : PortId) (s : State) : Host.Outcome State Fault Refusal := .next (inService s (trainingRetry p))
/-- TS1 (R557) -/
def execTs1 (p : PortId) (t : TrainSet) (s : State) : Host.Outcome State Fault Refusal := .next (inService s (ts1Received p t))
/-- TS2 (R557) -/
def execTs2 (p : PortId) (t : TrainSet) (s : State) : Host.Outcome State Fault Refusal := .next (inService s (ts2Received p t))
/-- TS1_SEND (R557) -/
def execTs1Send (p : PortId) (s : State) : Host.Outcome State Fault Refusal := .next (inService s (ts1Send p))
/-- LANE_PLL_LOCKED (R557) -/
def execLanePllLocked (p : PortId) (s : State) : Host.Outcome State Fault Refusal := .next (inService s (lanePllLocked p))
/-- RECEIVER_ALIGNED (R557) -/
def execReceiverAligned (p : PortId) (s : State) : Host.Outcome State Fault Refusal := .next (inService s (receiverAligned p))
/-- ACK_CONTROL_WORD (R565) -/
def execAckControlWord (p : PortId) (q : BitVec 12) (s : State) : Host.Outcome State Fault Refusal :=
  .next (inService s (ackReceived p q.toNat))
/-- NAK (R565) -/
def execNak (p : PortId) (_q : BitVec 12) (s : State) : Host.Outcome State Fault Refusal := .next (inService s (retransmit p))
/-- CREDIT (R566) -/
def execCredit (p : PortId) (v : Fin 3) (n : Nat) (s : State) : Host.Outcome State Fault Refusal :=
  .next (inService s (creditReceived p v.val n))
/-- SLEEP_REQ (R582) -/
def execSleepReq (p : PortId) (s : State) : Host.Outcome State Fault Refusal := .next (inService s (sleepReq p))
/-- SLEEP_ACK (R582) -/
def execSleepAck (p : PortId) (s : State) : Host.Outcome State Fault Refusal := .next (inService s (sleepAck p))
/-- SLEEP_NAK: the port stays awake (R582) -/
def execSleepNak (p : PortId) (s : State) : Host.Outcome State Fault Refusal := .next (inService s (beginPort p))
/-- SLEEP_IDLE (R582) -/
def execSleepIdle (p : PortId) (s : State) : Host.Outcome State Fault Refusal := .next (inService s (sleepIdle p))
/-- ACK_DEADLINE (R564) -/
def execAckDeadline (p : PortId) (s : State) : Host.Outcome State Fault Refusal := .next (inService s (ackDeadline p))
/-- RETRANSMIT_TIMEOUT (R565) -/
def execRetransmitTimeout (p : PortId) (s : State) : Host.Outcome State Fault Refusal := .next (inService s (retransmit p))
/-- LANE_LOCK_LOSS (R565) -/
def execLaneLockLoss (p : PortId) (s : State) : Host.Outcome State Fault Refusal := .next (inService s (laneLockLoss p))
/-- TRANSIT_TIMEOUT (R570) -/
def execTransitTimeout (p : PortId) (s : State) : Host.Outcome State Fault Refusal := .next (inService s (transitTimeout p))
/-- FLUSH_TIMEOUT (R573) -/
def execFlushTimeout (c : Fin 4) (chip : Fin 16) (s : State) : Host.Outcome State Fault Refusal :=
  .next (inService s (flushTimeout c chip.val))
/-- CRC_ERROR (R564) -/
def execCrcError (p : PortId) (s : State) : Host.Outcome State Fault Refusal := .next (inService s (crcError p))
/-- CODE_ERROR (R556) -/
def execCodeError (p : PortId) (isControl : Bool) (n : Nat) (s : State) : Host.Outcome State Fault Refusal :=
  .next (inService s (codeError p isControl n))
/-- CW_WAKE (R583) -/
def execCwWake (level : Bool) (s : State) : Host.Outcome State Fault Refusal := .next (inService s (cwWake level))
/-- WR (R562) -/
def execWr (p : PortId) (q : BitVec 12) (e : BitVec 8) (k : Packet) (s : State) : Host.Outcome State Fault Refusal :=
  .next (inService s (receive p 1 q e k wrPacket))
/-- WRW (R561) -/
def execWrw (p : PortId) (q : BitVec 12) (e : BitVec 8) (k : Packet) (s : State) : Host.Outcome State Fault Refusal :=
  .next (inService s (receive p 2 q e k wrwPacket))
/-- RD (R562) -/
def execRd (p : PortId) (q : BitVec 12) (e : BitVec 8) (k : Packet) (s : State) : Host.Outcome State Fault Refusal :=
  .next (inService s (receive p 3 q e k rdPacket))
/-- RDW (R561) -/
def execRdw (p : PortId) (q : BitVec 12) (e : BitVec 8) (k : Packet) (s : State) : Host.Outcome State Fault Refusal :=
  .next (inService s (receive p 4 q e k rdwPacket))
/-- MARKER (R577) -/
def execMarker (p : PortId) (q : BitVec 12) (e : BitVec 8) (k : Packet) (s : State) : Host.Outcome State Fault Refusal :=
  .next (inService s (receive p 5 q e k markerPacket))
/-- FLUSH (R574) -/
def execFlush (p : PortId) (q : BitVec 12) (e : BitVec 8) (k : Packet) (s : State) : Host.Outcome State Fault Refusal :=
  .next (inService s (receive p 6 q e k flushPacket))
/-- ACK (R561) -/
def execAck (p : PortId) (q : BitVec 12) (e : BitVec 8) (k : Packet) (s : State) : Host.Outcome State Fault Refusal :=
  .next (inService s (receive p 8 q e k ackPacket))
/-- RD_DATA (R561) -/
def execRdData (p : PortId) (q : BitVec 12) (e : BitVec 8) (k : Packet) (s : State) : Host.Outcome State Fault Refusal :=
  .next (inService s (receive p 9 q e k rdDataPacket))
/-- RDW_DATA (R561) -/
def execRdwData (p : PortId) (q : BitVec 12) (e : BitVec 8) (k : Packet) (s : State) : Host.Outcome State Fault Refusal :=
  .next (inService s (receive p 0xA q e k rdwDataPacket))
/-- FLUSH_DONE (R573) -/
def execFlushDone (p : PortId) (q : BitVec 12) (e : BitVec 8) (k : Packet) (s : State) : Host.Outcome State Fault Refusal :=
  .next (inService s (receive p 0xB q e k flushDonePacket))
/-- MSG (R580) -/
def execMsg (p : PortId) (q : BitVec 12) (e : BitVec 8) (k : Packet) (s : State) : Host.Outcome State Fault Refusal :=
  .next (inService s (receive p 0xC q e k msgPacket))
/-- NOTICE (R572) -/
def execNotice (p : PortId) (q : BitVec 12) (e : BitVec 8) (k : Packet) (s : State) : Host.Outcome State Fault Refusal :=
  .next (inService s (receive p 0xD q e k (noticePacket p)))
/-- CHAIN (R551) -/
def execChain (p : PortId) (q : BitVec 12) (e : BitVec 8) (k : Packet) (s : State) : Host.Outcome State Fault Refusal :=
  .next (inService s (receive p 0xE q e k (chainPacket p)))

end Sys2Proof.Machine
end

