-- ==== Sys2Proof/Machine/Units.lean ====
section
/-! DEFINITION. Machine/Units.lean: the end of a partial reset (R168 to R171), the scrub of the Harbour (R606) and
the chip-fatal errors that the firmware finds (R619); with the commands PARTIAL_RESET_RELEASE, DRAIN_TIMEOUT, SCRUB and FATAL. -/
namespace Sys2Proof.Machine
open Sys2Proof

/-! ### Partial resets -/

/-- A core is among the units in partial reset. -/
def State.coresResetting (s : State) : Bool :=
  s.sys.resetting.any (fun u => match u with
    | .core _ => true
    | _ => false)

/-- The drain of a core has ended: its writes are performed and visible, its state is cleared and the unit released; with the
last core of a stopped job the job is closed (R168, R170, R617). -/
def coreReleased (c : Fin 4) (s : State) : State :=
  let s := drainWords true (s.core c).pend s
  let s := s.modCore c (fun k => { coreOff k with point := k.point, powered := k.powered })
  let s := { s with sys := { s.sys with resetting := s.sys.resetting.filter (fun u => u ≠ ResetUnit.core c) } }
  if s.coresResetting then s
  else
    match s.stopping with
    | some x => finishStop x { s with stopping := none }
    | none => s

/-- PARTIAL_RESET_RELEASE: the drain of a unit in partial reset ends (R168). -/
def partialResetRelease (u : ResetUnit) (s : State) : State :=
  if u ∈ s.sys.resetting then
    match u with
    | .core c => coreReleased c s
    | .stem => stemReleased s
    | .adc => adcReleased s
    | .port p => portReleased p s
  else s

/-- SOURCE of a CHIP_FATAL entry: the part of the device that its FATAL_CODE names (R619, R623; log 43). -/
def fatalSource (code : Nat) : Nat :=
  match code with
  | 2 => 1
  | 4 => 9
  | _ => 8

/-- A replay drains the core, within the limit of R171 (R611). -/
def State.replaysOn (s : State) (u : ResetUnit) : Bool :=
  match u with
  | .core c => (s.core c).replaying
  | _ => false

/-- DRAIN_TIMEOUT: a drain exceeds its limit, that of a partial reset or of a replay (R171, R611). -/
def drainTimeout (u : ResetUnit) (s : State) : State :=
  if u ∈ s.sys.resetting || s.replaysOn u then chipFatal 3 (fatalSource 3) s else s

/-- FATAL: the firmware takes a chip-fatal error of the table of R619. -/
def fatalError (code : Nat) (s : State) : State :=
  if 1 ≤ code && decide (code ≤ 6) && s.sys.wdtArmed then chipFatal code (fatalSource code) s else s

/-! ### The scrub -/

/-- Lines of a bank (R65). -/
def bankLines : Nat := 0x4000

/-- The retained banks in ascending order (R123). -/
def State.retainedBanks (s : State) : List Nat := (List.range 32).filter (fun b => s.tide.retain.getLsbD b)

/-- Place of line l in the retained set: the number of its lines below l. -/
def linePlace (banks : List Nat) (l : Nat) : Nat :=
  banks.foldl (fun n b => n + min bankLines (l - bankLines * b)) 0

/-- The line at place i of the retained set. -/
def placeLine (banks : List Nat) (i : Nat) : Nat := bankLines * banks.getD (i / bankLines) 0 + i % bankLines

/-- The scrub finds line l uncorrectable (R606): the system region is chip-fatal; a placed record of a valid watch faults the
watch, its job stopped first; elsewhere the line is poisoned and logged. A line already poisoned is skipped. A watch that
is FAULTED already stays as it is. -/
def scrubPoison (l : Nat) (s : State) : State :=
  if s.sys.inReset || s.harbour.poisoned l then s
  else
    let s := { s with harbour := s.harbour.mark l, err := { s.err with poisonFound := satAdd s.err.poisonFound 1 255 } }
    let s := logEntry { cls := 8, source := 1, addr := 0x40000000 + 64 * l } s
    if 0x1F00000 ≤ 64 * l then chipFatal 2 (fatalSource 2) s
    else
      let hit := (s.watches.filter (fun w => s.inPlaced w.entry l)).map (fun w => (w.entry.num, w.state))
      if hit.isEmpty then s
      else hit.foldl (fun s h =>
        if h.2 = .faulted then s else faultWatch h.1 0x14 (watchFatalAt 1 (0x40000000 + 64 * l) h.1 0x14 0 none s)) (raiseAlarm 9 s)

/-- SCRUB: `n` lines of the retained banks are scrubbed in Slack, at most 4,096, from where the last scrub stopped; `single`
and `double` are the lines that hold a single-bit and an uncorrectable error (R603, R604, R606); a single-bit error that it does
not reach stays for the next access. -/
def scrub (n : Nat) (single double : List Nat) (s : State) : State :=
  if s.tide.power = .slack then
    let banks := s.retainedBanks
    let total := bankLines * banks.length
    let n := min n 4096
    let start := linePlace banks s.err.scrubAt % total
    let done := fun (l : Nat) =>
      l / bankLines ∈ banks && decide ((linePlace banks l + total - start) % total < n)
    let upset := (single ++ s.harbour.upset).eraseDups
    let fixed := (upset.filter done).length
    let bad := (List.range n).filterMap (fun i =>
      let l := placeLine banks ((start + i) % total)
      if l ∈ double then some l else none)
    let s := { s with harbour := { s.harbour with upset := upset.filter (fun l => !done l) }, err := { s.err with
      eccHarbour := satAdd s.err.eccHarbour fixed 0xFFFF,
      scrubPasses := (s.err.scrubPasses + b2n (decide (total ≤ start + n))) % 256,
      scrubAt := placeLine banks ((start + n) % total) } }
    bad.foldl (fun s l => scrubPoison l s) s
  else s

/-- PARTIAL_RESET_RELEASE (R168) -/
def execPartialResetRelease (u : ResetUnit) (s : State) : Host.Outcome State Fault Refusal :=
  .next (inService s (partialResetRelease u))
/-- DRAIN_TIMEOUT (R171) -/
def execDrainTimeout (u : ResetUnit) (s : State) : Host.Outcome State Fault Refusal := .next (inService s (drainTimeout u))
/-- SCRUB (R606) -/
def execScrub (n : Nat) (single double : List Nat) (s : State) : Host.Outcome State Fault Refusal :=
  .next (inService s (scrub n single double))
/-- FATAL (R619) -/
def execFatal (code : Nat) (s : State) : Host.Outcome State Fault Refusal := .next (inService s (fatalError code))

end Sys2Proof.Machine
end

