-- ==== Sys2Proof/Machine/Boot.lean ====
section
/-! DEFINITION. Machine/Boot.lean: the reset sources and the release of a reset (04), the boot sequence: flash probe, manifest,
records and firmware start (04, 06), a failed boot (R152), and the changes of the LFCLK source (R92, R141). -/
namespace Sys2Proof.Machine
open Sys2Proof

/-! ### Registers that the boot reports -/

/-- SYS_RESET_CAUSE (R161). -/
def State.resetCauseWord (s : State) : Nat := s.sys.resetCause.toNat + s.sys.fatalCode * 2 ^ 16 + s.sys.loopShown * 2 ^ 24

/-- FLASH_MODE (R161 table). -/
def FlashMode.code : FlashMode → Nat
  | .s1 => 0
  | .s4 => 1
  | .d8 => 2

/-- SYS_BOOT (R161 table). -/
def State.bootWord (s : State) : Nat :=
  s.sys.stage.toNat + 256 * s.sys.fail.toNat + 2 ^ 16 * s.sys.flashMode.code + 2 ^ 18 * b2n s.sys.addr4 +
  2 ^ 19 * b2n s.sys.recopied + 2 ^ 20 * s.sys.bootMs

/-- The EVENT of cause BOOT or BOOT_FAIL (R151, R650). -/
def State.bootEvent (s : State) (cause : Nat) : Draft :=
  noWatchEvent cause (zeros 3 ++ leBytes s.resetCauseWord 4 ++ leBytes s.bootWord 4)

/-! ### A failed boot -/

/-- Part of the device that a boot failure names in the event log (R623; log 43). -/
def failSource (code : Nat) : Nat :=
  match code with
  | 0x09 => 17
  | 0x0A => 8
  | _ => 12

/-- The boot fails: the locks, FAIL, SYS_ALARM and its entries, the EVENT, then Neap (R152, R166). -/
def failBoot (code : Nat) (s : State) : State :=
  let s := setLocks s
  let s := { s with sys := { s.sys with fail := BitVec.ofNat 8 code } }
  let s := raiseAlarmAt (failSource code) 0 s
  let s := logEntry { cls := 4, source := failSource code, code := code } s
  neapEntry (release (s.bootEvent 2) s)

/-- The boot is at a stage and has not failed. -/
def State.atStage (s : State) (st : BitVec 8) : Bool := decide (s.sys.stage = st) && decide (s.sys.fail = 0)

/-- Move to a stage of the boot. -/
def toStage (st : BitVec 8) (s : State) : State := { s with sys := { s.sys with stage := st } }

/-! ### Reset sources (R154 to R160) -/

/-- BROWNOUT_VSYS and WATCHDOG act while the system controller runs, which it does not in Neap (R137, R162). -/
def State.controllerRuns (s : State) : Bool := s.sys.wdtArmed && decide (s.tide.power ≠ .neap)

/-- SYS_SOFT_RESET: the key requests a reset of cause SOFT (R160). -/
def softReset (v : Word) (s : State) : State :=
  if v = 0xA5C3 then
    match s.sys.delayed with
    | some _ => { s with sys := { s.sys with asserted := s.sys.asserted ||| 0x80 } }
    | none => { s with sys := { s.sys with asserted := 0x80, delayed := some .soft } }
  else s

/-- SOFT: the requested soft reset is taken, unless a unit in progress still delays it (R158, R160). -/
def softTaken (s : State) : State := if s.sys.delayed = some .soft then takeDelayed s else s

/-- THERMAL_RESET_END: the sensor reads 95 °C or below, in 1/64 °C (R129). -/
def thermalEnd (temp : Int) (s : State) : State :=
  if s.sys.inReset && s.tide.thermalShutdown && decide (temp ≤ 6080) then
    { s with tide := { s.tide with thermalShutdown := false } }
  else s

/-- Straps as sampled from PC0 to PC3 (R139). -/
def Straps.sample (b : BitVec 4) : Straps :=
  { hostIf := b.getLsbD 0, i2cAddr := b.getLsbD 1, lfSrc := b.getLsbD 2, bootHold := b.getLsbD 3 }

/-- Boot loop count at a release (R156, R165). The table gives each source its own column; where several were asserted in one
reset, POR, RESET_PIN or SOFT clears the count, else WATCHDOG or FATAL raises it (log 74). -/
def nextLoop (cause : BitVec 9) (n : Nat) : Nat :=
  if cause.getLsbD 0 || cause.getLsbD 3 || cause.getLsbD 7 then 0
  else if cause.getLsbD 4 || cause.getLsbD 8 then satAdd n 1 4
  else n

/-- RESET_RELEASE: straps, reset cause and loop count are written, the OTP is checked, the Host port answers and the boot
waits for the rails; a hold-class error keeps the device in reset (R139, R141, R143, R149, R161, R165, R187, R191). -/
def resetRelease (pads : BitVec 4) (s : State) : State :=
  if s.sys.inReset && s.sys.delayed.isNone && decide (s.sys.asserted ≠ 0) && !s.tide.thermalShutdown && s.otp.hold.isNone then
    let cause := s.sys.asserted
    let straps := if cause &&& 0xF = 0 then s.sys.straps else Straps.sample pads
    let s := { s with sys := { s.sys with straps := straps, asserted := 0, loopCount := nextLoop cause s.sys.loopCount },
                      tide := { s.tide with lfWait := if cause.getLsbD 0 then !straps.lfSrc else s.tide.lfWait } }
    let s := otpCheck s
    if s.otp.hold.isSome then s
    else
      let s := { s with sys := { s.sys with inReset := false, resetCause := cause,
                                            fatalCode := if cause.getLsbD 8 then s.sys.fatalPending else 0,
                                            loopShown := s.sys.loopCount,
                                            hostAnswers := true, stage := 0x02, releaseTick := s.sys.tick } }
      if s.otp.uncorr &&& 0xDA = 0 then s else raiseAlarm 1 s
  else s

/-! ### LFCLK and the core PLL -/

/-- LF_CRYSTAL_SWITCH: the crystal takes over (R141, R756). -/
def lfSwitch (s : State) : State :=
  if s.tide.lfWait then { s with tide := { s.tide with lfCrystal := true, lfWait := false } } else s

/-- LF_CRYSTAL_TIMEOUT: the crystal has not started (R141). -/
def lfTimeout (s : State) : State :=
  if s.tide.lfWait then { s with tide := { s.tide with lfWait := false, lfFallback := true } } else s

/-- LF_FALLBACK: the crystal in use stops (R92). -/
def lfFall (s : State) : State :=
  if s.tide.lfCrystal then { s with tide := { s.tide with lfCrystal := false, lfFallback := true } } else s

/-- CORE_PLL_LOCKED (R89, R143). -/
def pllLock (s : State) : State :=
  if s.sys.wdtArmed && decide (s.tide.power ≠ .neap) then { s with tide := { s.tide with pllLocked := true } } else s

/-! ### From the rails to the flash -/

/-- The key slots as the boot ROM loads them (R193, R194). -/
def loadKeys (s : State) : State :=
  if secretsLoad s.otp.lcBoot then
    { s with otp := { s.otp with keys := { s.otp.keys with
        dus := some (s.secret 0x080), idk := some (s.secret 0x088),
        otpRoots := (List.range 8).map (fun o => if s.ownerThere o then some (s.secret (0x090 + 8 * o)) else none) } } }
  else s

/-- BOOT_HOLD is honoured in TEST and FACTORY (R142). -/
def State.holdsBoot (s : State) : Bool := s.sys.straps.bootHold && (s.otp.lcBoot == 1 || s.otp.lcBoot == 2)

/-- The boot ROM or the firmware restarts the watchdog (R163). -/
def restartWatchdog (s : State) : State := { s with sys := { s.sys with wdtCount := 0 } }

/-- The boot ROM has copied n bytes more, and restarts the watchdog after every 1 MiB (R163, R164). -/
def copiedBytes (n : Nat) (s : State) : State :=
  let t := { s with image := { s.image with copied := s.image.copied + n } }
  if s.image.copied / 0x100000 < (s.image.copied + n) / 0x100000 then restartWatchdog t else t

/-- RAIL_WAIT_END: VSYS and VDDIO_F are good; the boot ROM runs and the watchdog is armed (R136, R142, R143). -/
def railWaitEnd (s : State) : State :=
  if s.atStage 0x02 && !s.sys.wdtArmed then
    let s := loadKeys { s with sys := { s.sys with wdtArmed := true } }
    if s.otp.lcBoot = 0 || s.otp.lcBoot = 6 then failBoot 0x09 s
    else if s.holdsBoot then toStage 0x03 s
    else toStage 0x04 s
  else s

/-- A flash mode by what the SFDP lists (R145). -/
def flashModeOf (r : FlashReply) : FlashMode := if r.octal then .d8 else if r.quad then .s4 else .s1

/-- Highest clock of a mode in MHz (R145). -/
def FlashMode.limit : FlashMode → Nat
  | .d8 => 200
  | _ => 133

/-- The image header as R213 and R251 want it. -/
def headerOk (h : List Byte) (addr4 : Bool) : Bool :=
  let len := leAt h 8 4
  let off := leAt h 0xC 4
  leAt h 0 4 == 0x4D495154 && leAt h 4 2 == 1 && leAt h 6 2 == 64 && decide (4096 ≤ len) && decide (len ≤ 0x4000000) &&
  (addr4 || decide (len ≤ 0x1000000)) && off % 64 == 0 && decide (64 ≤ off) && zeroAt h 0x16 2 && leAt h 0x18 2 == 0x6120 &&
  zeroAt h 0x1A 34 && leAt h 0x3C 4 == crc32 (h.take 60)

/-- FLASH_PROBE: the SFDP answers, the mode and the addressing are chosen, and the header is read at probe speed (R144 to R146,
R213). -/
def flashProbe (r : FlashReply) (s : State) : State :=
  if s.atStage 0x04 && s.tide.pllLocked then
    if !r.present then failBoot 0x01 s
    else if !r.sfdpOk then failBoot 0x02 s
    else
      let s := { s with sys := { s.sys with flashMode := flashModeOf r, addr4 := r.addr4 } }
      let h := padTo r.header 64
      if !headerOk h r.addr4 then failBoot 0x03 s
      else
        toStage 0x05 { s with image := { s.image with
          header := some (leAt h 0xC 4, leAt h 0x10 4, leAt h 8 4, leAt h 0x14 2),
          clockMhz := min (max (leAt h 0x14 2) 25) (flashModeOf r).limit } }
  else s

/-! ### The manifest (R214, R215, R230, R238) -/

/-- Read a manifest entry (R214). -/
def MfEntry.read (b : List Byte) : MfEntry :=
  { type := byteAt b 0, flags := byteAt b 1, id := leAt b 2 2, offset := leAt b 4 4, length := leAt b 8 4, load := leAt b 0xC 4,
    sha := slice b 0x20 32, reservedNonzero := !zeroAt b 0x10 16 }

/-- Read a manifest that has passed its checks (R214, R231). -/
def Manifest.read (b : List Byte) (offset imageLen : Nat) : Manifest :=
  { secVer := leAt b 8 2, permit := leAt b 0xA 2, imageId := slice b 0x10 8, offset := offset, imageLen := imageLen,
    entries := (List.range (leAt b 6 2)).map (fun i => MfEntry.read (slice b (128 + 64 * i) 64)),
    reservedNonzero := decide (2 ≤ leAt b 0xA 2) || decide (4 ≤ byteAt b 0xE) || !zeroAt b 0x18 8 || !zeroAt b 0x60 32 }

/-- The manifest header and MANIFEST_LEN (R214, R251). -/
def manifestHeaderOk (b : List Byte) (off len imageLen : Nat) : Bool :=
  let n := leAt b 6 2
  leAt b 0 4 == 0x464D5154 && leAt b 4 2 == 1 && decide (1 ≤ n) && decide (n ≤ 4096) && len == 192 + 64 * n &&
  decide (off + len ≤ imageLen) && decide (leAt b 8 2 ≤ 256) && leAt b 0xC 2 == 0x6120

/-- The slot whose digest accepts a public key in the life-cycle state decoded at the release (R198): 0 to 3, or 4 for the ROM provisioning key (R193,
R230). -/
def State.bootKey (s : State) (pub : List Byte) : Option Nat :=
  let d := sha256 pub
  let lc := s.otp.lcBoot
  match (List.range 4).find? (fun n => decide (2 ≤ lc) && decide (lc ≤ 5) && s.keyLive n && s.keyDigest n == d) with
  | some n => some n
  | none => if (lc == 1 || lc == 2) && Config.romKeyDigest == d then some 4 else none

/-- The first failing manifest check of R251, or the key slot that verified it. -/
def State.manifestCheck (s : State) (b : List Byte) (off len imageLen : Nat) : Except Nat Nat :=
  if !manifestHeaderOk b off len imageLen then .error 0x03
  else
    match s.bootKey (slice b 0x20 64) with
    | none => .error 0x05
    | some k =>
      let n := 128 + 64 * leAt b 6 2
      if ecdsaVerify (sha256 (b.take n)) (slice b n 64) (slice b 0x20 64) then .ok k else .error 0x04

/-- A verified manifest: its slot is reported, and the variant and stepping decide (R230, R238). -/
def manifestGood (b : List Byte) (off imageLen slot : Nat) (s : State) : State :=
  let s := { s with otp := { s.otp with bootSlot := slot } }
  if bitN (byteAt b 0xE) s.variant && decide (byteAt b 0xF ≤ 0x0A) then
    toStage 0x06 { s with image := { s.image with manifest := some (Manifest.read b off imageLen), rereadDue := false } }
  else failBoot 0x03 s

/-- MANIFEST_CHECK: the first copy of the manifest; a failed check leads to a reread (R251, R761). -/
def manifestFirst (bytes : List Byte) (s : State) : State :=
  match s.image.header with
  | some (off, len, imageLen, _) =>
    if s.atStage 0x05 && !s.image.rereadDue then
      let b := padTo bytes len
      match s.manifestCheck b off len imageLen with
      | .ok k => manifestGood b off imageLen k s
      | .error _ => { s with image := { s.image with rereadDue := true } }
    else s
  | none => s

/-- MANIFEST_REREAD: the second copy, read in 1S-1S-1S at 25 MHz, decides (R761). -/
def manifestSecond (bytes : List Byte) (s : State) : State :=
  match s.image.header with
  | some (off, len, imageLen, _) =>
    if s.atStage 0x05 && s.image.rereadDue then
      let b := padTo bytes len
      match s.manifestCheck b off len imageLen with
      | .ok k => manifestGood b off imageLen k { s with sys := { s.sys with recopied := true } }
      | .error c => failBoot c s
    else s
  | none => s

/-! ### Records (R217 to R235, R242, R244) -/

/-- Alignment of LOAD for a record of the Harbour, none for another destination (R218). -/
def loadAlign (type : Nat) : Option Nat :=
  match type with
  | 3 => some 512
  | 4 | 5 => some 64
  | _ => none

/-- ENCRYPTED is allowed for the type (R218). -/
def mayEncrypt (type : Nat) : Bool := type == 3 || type == 4 || type == 5 || type == 9

/-- At most one record of the type (R218). -/
def single (type : Nat) : Bool := type == 1 || type == 2 || (6 ≤ type && decide (type ≤ 9))

/-- The check of entry i before its record is copied (R218, R232). -/
def entryOk (m : Manifest) (i : Nat) (e : MfEntry) : Bool :=
  let before := m.entries.take i
  let mlen := 192 + 64 * m.entries.length
  !m.reservedNonzero && m.entries.all (fun x => !x.reservedNonzero) && decide (e.flags < 2) && decide (1 ≤ e.type) && decide (e.type ≤ 0xC) &&
  (e.flags == 0 || mayEncrypt e.type) && (!single e.type || !before.any (fun x => x.type == e.type)) &&
  (match loadAlign e.type with
    | some k => e.load % k == 0
    | none => e.load == 0xFFFFFFFF) &&
  e.id != 0xFFFF && !before.any (fun x => x.id == e.id) && e.offset % 64 == 0 &&
  (match before.getLast? with
    | some x => decide (x.offset < e.offset) && decide (x.offset + x.length ≤ e.offset)
    | none => true) &&
  decide (e.offset + e.length ≤ m.imageLen) && decide (64 ≤ e.offset) &&
  (decide (e.offset + e.length ≤ m.offset) || decide (m.offset + mlen ≤ e.offset))

/-- A little-endian bound check. -/
def between (lo hi x : Nat) : Bool := decide (lo ≤ x) && decide (x ≤ hi)

/-- Bounds of a LINK_CONFIG body (R585). -/
def linkBodyOk (b : List Byte) : Bool :=
  let n := byteAt b 3
  let k := byteAt b 6
  b.length == 536 && decide (byteAt b 0 ≤ 3) && (byteAt b 1 == 255 || decide (byteAt b 1 ≤ 15)) && decide (byteAt b 2 ≤ 16) &&
  decide (n ≤ 32) && between 50 65535 (leAt b 4 2) && decide (k ≤ 64) && zeroAt b 7 1 && between 5 1000 (leAt b 8 2) &&
  zeroAt b 10 14 && (List.range 32).all (fun i => zeroAt b (24 + 8 * i + 6) 2) && zeroAt b (24 + 8 * n) (8 * (32 - n)) &&
  (List.range k).all (fun i => decide (byteAt b (280 + 4 * i + 2) ≤ 15) && zeroAt b (280 + 4 * i + 3) 1) &&
  zeroAt b (280 + 4 * k) (4 * (64 - k))

/-- Bounds of one window of a frame program (R261), but for the stride of a STEM window, which needs its configuration
(`stemStridesOk`). -/
def windowOk (b : List Byte) (o : Nat) : Bool :=
  let p := PixWin.read b o
  p.x0 % 16 == 0 && p.y0 % 8 == 0 && between 16 2048 p.width && p.width % 16 == 0 && decide (p.x0 + p.width ≤ 2048) &&
  between 8 1536 p.height && p.height % 8 == 0 && decide (p.y0 + p.height ≤ 1536) && decide (p.bin ≤ 2) && decide (p.format ≤ 2) &&
  decide (p.berthFirst ≤ 63) && zeroAt b (o + 0xB) 1 && zeroAt b (o + 0x16) 10 && p.berthBase % 512 == 0 && p.berthStride % 512 == 0 &&
  (p.format == 2 || decide (berthBytes p none ≤ p.berthStride)) && (p.format == 2 || p.stemRec == 0xFFFF)

/-- Bounds of a PIXEL_PROGRAM body (R261, R262). -/
def pixelBodyOk (b : List Byte) : Bool :=
  let n := byteAt b 0
  between 1 16 n && b.length == 32 + 32 * n && decide (byteAt b 1 ≤ 1) && decide (byteAt b 2 < 16) &&
  between 24 24000000 (leAt b 4 4) && between 256 4096 (leAt b 8 2) && decide (leAt b 0xA 2 ≤ 1000) &&
  decide (1 ≤ leAt b 0x10 2) && zeroAt b 0x12 14 &&
  (List.range n).all (fun i => windowOk b (0x20 + 32 * i))

/-- BERTH_STRIDE of every STEM window is at least its berth size (R261, R262, R328), for the windows whose configuration is among
the records: the check of a frame program is made again with each record copied after it (log 47). -/
def stemStridesOk (rs : List PlacedRecord) : Bool :=
  rs.all (fun r => r.type != 0xC || (PixProg.read r.body).windows.all (fun p => p.format != 2 ||
    match rs.find? (fun x => x.type == 4 && x.id == p.stemRec) with
    | some x =>
      let b := slice x.body 8 64
      byteAt b 0 != 1 || decide (berthBytes p (some (StemConf.read b)) ≤ p.berthStride)
    | none => true))

/-- Clocks of one cycle of a sequence at which each slot converts, in order (R292, R293). -/
def slotClocks (q : AdcSeq) : List Nat :=
  let gains := q.slots.map (fun s => s.2.1)
  let prev := gains.drop (gains.length - 1) ++ gains
  (((gains.zip prev).foldl (fun (a : Nat × List Nat) g =>
    let t := if g.1 = g.2 then a.1 else a.1 + 1
    (t + 1, a.2 ++ [t])) (0, [])).2)

/-- The slots of a chain have one channel and gain, and stand at equal distances around the cycle (R294). -/
def chainSpaced (q : AdcSeq) (c : Nat) : Bool :=
  let own := (q.slots.zip (slotClocks q)).filter (fun x => x.1.2.2 == c)
  let ts := own.map (fun x => x.2)
  let f := q.frameLen
  match own with
  | [] => false
  | x :: _ =>
    let n := ts.length
    own.all (fun y => y.1.1 == x.1.1 && y.1.2.1 == x.1.2.1) &&
    (ts.zip (ts.drop 1 ++ [f + ts.headD 0])).all (fun p => (p.2 - p.1) * n == f)

/-- Bounds of an ADC_SEQUENCE body (R289, R294, R295, R299, R300). -/
def adcBodyOk (b : List Byte) : Bool :=
  let q := AdcSeq.read b
  let ns := byteAt b 0
  let nc := byteAt b 1
  b.length == 184 && between 1 16 ns && between 1 4 nc && between 12 240 q.clkDiv && decide (byteAt b 3 < 16) &&
  between 32 4096 q.blockLen && q.blockLen % 32 == 0 && zeroAt b 8 16 &&
  (List.range ns).all (fun i => decide (byteAt b (0x18 + 2 * i) < 128) && decide (byteAt b (0x19 + 2 * i) < 4)) &&
  zeroAt b (0x18 + 2 * ns) (2 * (16 - ns)) && zeroAt b (0x38 + 32 * nc) (32 * (4 - nc)) &&
  q.slots.all (fun x => decide (x.2.2 < nc) && ((decide (x.1 < 4) && decide (x.2.1 ≤ 4)) || (between 8 12 x.1 && x.2.1 == 0))) &&
  (q.chains.zipIdx).all (fun x =>
    let c := x.1
    let o := 0x38 + 32 * x.2
    let n := (q.slots.filter (fun s => s.2.2 == x.2)).length
    let d := q.clkDiv * q.frameLen * c.ratio
    between 8 256 c.m && between 1 4 c.hb && decide (byteAt b (o + 3) ≤ 1) && c.buf % 512 == 0 && c.stride % 512 == 0 &&
    decide (64 + 2 * q.blockLen ≤ c.stride) && (c.spectral || c.stemRec == 0xFFFF) && zeroAt b (o + 0xE) 18 &&
    chainSpaced q x.2 && decide (1250 * d ≤ 240000000 * n) && decide (240000000 * n ≤ 625000 * d))

/-- Input functions that the pin section names (R660). -/
def inputCodes (b : List Byte) : List Nat := (List.range 24).map (fun p => byteAt b (0x30 + 8 * p + 1))

/-- The configuration that a pin entry gives (R660). -/
def Pin.ofEntry (b : List Byte) (p : Nat) : Pin :=
  { cfg := BitVec.ofNat 8 (byteAt b (0x30 + 8 * p)), mask := BitVec.ofNat 24 (leAt b (0x30 + 8 * p + 4) 3) }

/-- PIL_SEL of a pin entry. -/
def pilFed (b : List Byte) (p : Nat) : Bool := bitN (byteAt b (0x30 + 8 * p + 2)) 0

/-- The pin section passes R661. -/
def pinBodyOk (b : List Byte) : Bool :=
  b.length == 240 &&
  (List.range 24).all (fun p =>
    let o := 0x30 + 8 * p
    pinOk p (Pin.ofEntry b p) && decide (byteAt b (o + 1) ≤ 2) && decide (byteAt b (o + 2) < 32) && zeroAt b (o + 3) 1 &&
    zeroAt b (o + 7) 1) &&
  [1, 2].all (fun f => decide (((inputCodes b).filter (fun x => x == f)).length ≤ 1)) &&
  (List.range 8).all (fun n => decide (([n, 8 + n, 16 + n].filter (pilFed b)).length ≤ 1))

/-- Bounds of a STREAM_INDEX body and its streamed area (R243, R244). R234 names length and placement rules: that ENC above 1, a
non-zero reserved byte and a non-zero GCM tag of a plain block break them is the model's choice (log 75). -/
def streamBodyOk (m : Manifest) (b : List Byte) : Bool :=
  let n := leAt b 0 4
  let a := leAt b 4 4
  let clear := fun (o k : Nat) => decide (a + 4096 * n ≤ o) || decide (o + k ≤ a)
  between 1 8192 n && b.length == 24 + 48 * n && a % 4096 == 0 && decide (byteAt b 8 ≤ 1) && zeroAt b 9 3 && zeroAt b 16 8 &&
  decide (a + 4096 * n ≤ m.imageLen) && clear 0 64 && clear m.offset (192 + 64 * m.entries.length) &&
  m.entries.all (fun e => clear e.offset e.length) &&
  (byteAt b 8 == 1 || (List.range n).all (fun i => zeroAt b (24 + 48 * i + 32) 16))

/-- Placed size of a record by its body from record byte 0x08 (R220 to R224). -/
def placedSize (type : Nat) (b : List Byte) : Nat :=
  match type with
  | 3 => 128 * leAt b 0 4
  | 4 => 64 * leAt b 0 4
  | 5 => alignUp b.length 64
  | _ => 0

/-- The length and layout rules of a type on its body from record byte 0x08 (R221 to R228, R234). -/
def bodyOk (m : Manifest) (type : Nat) (encrypted : Bool) (b : List Byte) : Bool :=
  match type with
  | 1 => between 8 131080 b.length
  | 2 => b.length % 256 == 0
  | 3 => decide (8 ≤ b.length) && decide (1 ≤ leAt b 0 4) && b.length == 8 + 128 * leAt b 0 4 && decide (byteAt b 6 ≤ 2) && zeroAt b 7 1
  | 4 => decide (8 ≤ b.length) && decide (1 ≤ leAt b 0 4) && b.length == 8 + 66 * leAt b 0 4
  | 5 => true
  | 6 => calBodyOk b
  | 7 => pinBodyOk b
  | 8 => linkBodyOk b
  | 9 => !encrypted || (between 1 8 (byteAt b 0) && b.length == 8 + 40 * byteAt b 0)
  | 0xA => streamBodyOk m b
  | 0xB => adcBodyOk b
  | 0xC => pixelBodyOk b
  | _ => false

/-- Types that lie in the image area (R218, R219). -/
def inImageArea (type : Nat) : Bool := type == 6 || type == 7 || type == 8 || (10 ≤ type && decide (type ≤ 12))

/-- Bytes of the image area in use (R219). -/
def imageAreaUsed (rs : List PlacedRecord) : Nat :=
  (rs.filter (fun r => inImageArea r.type)).foldl (fun n r => n + alignUp r.length 64) 0

/-- A new record's placement (R219, R220), an empty one included (R224). -/
def placementOk (rs : List PlacedRecord) (r : PlacedRecord) : Bool :=
  (if inImageArea r.type then decide (imageAreaUsed rs + alignUp r.length 64 ≤ 0x80000) else true) &&
  (if (loadAlign r.type).isNone then true
    else decide (r.load + r.placed ≤ 0x1F00000) && rs.all (fun x => !meets x.load x.placed r.load r.placed))

/-- The lines that a record puts into the Harbour, with their tags (R222 to R224). -/
def recordLines (r : PlacedRecord) : List (List Byte × BitVec 16) :=
  match r.type with
  | 3 => (toLines (r.body.drop 8) (2 * leAt r.body 0 4)).map (fun l => (l, 0))
  | 4 => (List.range (leAt r.body 0 4)).map (fun i =>
      let u := slice r.body (8 + 66 * i) 66
      (u.take 64, BitVec.ofNat 16 (leAt u 64 2)))
  | 5 => (toLines r.body (ceilDiv r.body.length 64)).map (fun l => (l, 0))
  | _ => []

/-- The entries of a decrypted OWNER_KEYS body: owner and root (R226). -/
def ownerEntries (b : List Byte) : List (Nat × List Byte) :=
  (List.range (byteAt b 0)).map (fun i => (byteAt b (8 + 40 * i), slice b (16 + 40 * i) 32))

/-- An accepted OWNER_KEYS body fills the image roots, unless it names an owner twice or above 7 (R75, R226). -/
def takeOwnerKeys (b : List Byte) (s : State) : State :=
  let es := ownerEntries b
  if es.any (fun e => 7 < e.1) || !distinct (es.map (fun e => e.1)) then
    raiseAlarm 2 { s with image := { s.image with ownerKeysRefused := true } }
  else
    { s with otp := { s.otp with keys := { s.otp.keys with
        imageRoots := (List.range 8).map (fun o => (es.find? (fun e => e.1 == o)).map (fun e => e.2)) } } }

/-- Decrypt an encrypted record under IDK: the plain body, none when its tag fails or IDK is not loaded (R239, R242). -/
def State.decrypt (s : State) (bytes : List Byte) : Option (List Byte) :=
  match s.otp.keys.idk with
  | none => none
  | some k =>
    let p := gcmOpen k (slice bytes 8 12) (bytes.take 8) (bytes.drop 0x24)
    if p.2 = slice bytes 0x14 16 then some p.1 else none

/-- The last record is done: the rollback check (R143, R236). -/
def rollbackCheck (s : State) : State :=
  match s.image.manifest with
  | some m =>
    if s.image.nextRecord < m.entries.length then s
    else
      let s := toStage 0x07 s
      if m.secVer < s.otp.rollback then failBoot 0x07 s else s
  | none => s

/-- Go on to the next record. -/
def nextRecord (s : State) : State :=
  rollbackCheck { s with image := { s.image with nextRecord := s.image.nextRecord + 1, recopyDue := false } }

/-- The range of the Harbour that the device had written for an entry before its check failed: as many lines as the record's
LENGTH holds (R235, log 73). -/
def MfEntry.lines (e : MfEntry) : Nat × Nat :=
  let n := e.length - (if e.flags = 1 then 0x24 else 8)
  match e.type with
  | 2 => (0x01F00000, min n 0x40000)
  | 3 => (e.load, (n - 8) / 64 * 64)
  | 4 => (e.load, (n - 8) / 66 * 64)
  | 5 => (e.load, alignUp n 64)
  | _ => (0, 0)

/-- Every line placed for a failed record is overwritten with zero data and tag 0x0000 (R235, R242). -/
def clearPlaced (e : MfEntry) (s : State) : State :=
  let r := e.lines
  let top := if e.type = 2 then 0x01F40000 else 0x01F00000
  { s with harbour := s.harbour.zero (r.1 / 64) (min (r.1 + r.2) top / 64) }

/-- A record whose hash passed: its header, decryption, body and placement; then it is placed (R217, R233 to R235, R239 to R242).
An authentication failure leaves it absent. -/
def acceptRecord (m : Manifest) (e : MfEntry) (bytes : List Byte) (s : State) : State :=
  let enc := e.flags == 1
  let head := byteAt bytes 0 == e.type && byteAt bytes 1 == e.flags && leAt bytes 2 2 == e.id && leAt bytes 4 4 == e.length
  if !head || decide (e.length < (if enc then 0x24 else 8)) then failBoot 0x08 (clearPlaced e s)
  else
    match (if enc then s.decrypt bytes else some (bytes.drop 8)) with
    | none =>
      let keys := s.image.ownerKeysRefused || e.type == 9
      let s := clearPlaced e s
      nextRecord (raiseAlarm 2 { s with image := { s.image with authFailed := true, ownerKeysRefused := keys,
                                                                absent := s.image.absent ++ [e.lines] } })
    | some body =>
      let r : PlacedRecord := { type := e.type, id := e.id, load := e.load, placed := placedSize e.type body,
                                length := 8 + body.length, body := body }
      if !bodyOk m e.type enc body || !placementOk s.image.records r || !stemStridesOk (s.image.records ++ [r]) then
        failBoot 0x08 (clearPlaced e s)
      else if e.type = 9 then
        nextRecord (if enc then takeOwnerKeys body s
          else raiseAlarm 2 { s with image := { s.image with ownerKeysRefused := true } })
      else
        let s := { s with image := { s.image with records := s.image.records ++ [r] } }
        let s := if e.type = 1 then { s with sram := wrBytes s.sram 0 (body.take 0x20000) } else s
        nextRecord (if r.placed = 0 then s else s.putHbrLines (r.load / 64) (recordLines r))

/-- The manifest and the entry whose record comes next. -/
def State.nextEntry (s : State) : Option (Manifest × MfEntry) :=
  match s.image.manifest with
  | some m => (m.entries[s.image.nextRecord]?).map (fun e => (m, e))
  | none => none

/-- RECORD_COPY: the entry is checked, the record copied and hashed (R232, R233, R147). -/
def recordCopy (bytes : List Byte) (s : State) : State :=
  match s.nextEntry with
  | some (m, e) =>
    if s.atStage 0x06 && !s.image.recopyDue then
      if !entryOk m s.image.nextRecord e then failBoot 0x08 s
      else
        let b := padTo bytes e.length
        let s := copiedBytes e.length s
        if sha256 b = e.sha then acceptRecord m e b s
        else { clearPlaced e s with image := { s.image with recopyDue := true } }
    else s
  | none => s

/-- RECORD_RECOPY: the second copy in 1S-1S-1S at 25 MHz decides (R147). -/
def recordRecopy (bytes : List Byte) (s : State) : State :=
  match s.nextEntry with
  | some (m, e) =>
    if s.atStage 0x06 && s.image.recopyDue then
      let b := padTo bytes e.length
      let s := copiedBytes e.length s
      if sha256 b = e.sha then acceptRecord m e b { s with sys := { s.sys with recopied := true } }
      else failBoot 0x06 (clearPlaced e s)
    else s
  | none => s

/-! ### Firmware start -/

/-- SYS_IMAGE_ID and SYS_IMAGE from the verified manifest, and AUTH_FAIL (R252). -/
def imageRegisters (s : State) : State :=
  match s.image.manifest with
  | some m => { s with image := { s.image with imageId := m.imageId, secVer := m.secVer, entries := m.entries.length,
                                               lcExit := bitN m.permit 0, authFail := s.image.authFailed } }
  | none => s

/-- FIRMWARE_PATCH (R225). -/
def applyPatch (s : State) : State :=
  match s.image.records.find? (fun r => r.type == 1) with
  | some r =>
    if leAt r.body 0 4 = 0x6120A101 then
      { s with image := { s.image with patch := some (leAt r.body 4 2, r.body.drop 8) } }
    else raiseAlarm 2 { s with image := { s.image with patchSkipped := true } }
  | none => s

/-- Where owner o's key root comes from, as SYS_OWNER_SRC codes it, and the root (R73, R74, R76, R195). -/
def State.rootOf (s : State) (o : Nat) : Nat × Option (List Byte) :=
  let img := s.otp.keys.imageRoots.getD o none
  if s.ownerThere o then
    match s.otp.keys.otpRoots.getD o none with
    | some k => (if img.isSome then 3 else 1, some k)
    | none => (0, none)
  else (if img.isSome then 2 else 0, img)

/-- Owner key roots and tag keys; none while a word of DEVICE_SERIAL is uncorrectable (R76, R77, R191). -/
def deriveTagKeys (s : State) : State :=
  match s.serial with
  | some sn =>
    let src : BitVec 16 := (List.range 8).foldl (fun (m : BitVec 16) o => m ||| BitVec.ofNat 16 ((s.rootOf o).1 * 4 ^ o)) 0
    let label : List Byte := [0x54, 0x51, 0x54, 0x41, 0x47]
    { s with ownerSrc := src,
             otp := { s.otp with keys := { s.otp.keys with
               tagKeys := (List.range 8).map (fun o => (s.rootOf o).2.map (fun k => hmacSha256 k (label ++ sn))) } } }
  | none => s

/-- The board power block from the first 48 bytes of a PIN_MAP body, none where R94 calls it invalid (R93, R94, R227). -/
def readPower (b : List Byte) : Option PowerBlock :=
  let cap := leAt b 4 4
  let res := leAt b 8 4
  let vmax := leAt b 0xC 2
  let hyst := leAt b 0xE 2
  let guard := leAt b 0x10 2
  let vmin := leAt b 0x12 2
  let vbat := leAt b 0x14 2
  let eff := leAt b 0x16 2
  let dly := leAt b 0x18 2
  let nom := (List.range 4).map (fun i => leAt b (0x1C + 2 * i) 2)
  let code := (List.range 4).map (fun i => byteAt b (0x24 + i))
  if leAt b 0 2 == 1 && leAt b 2 2 == 48 && between 1 10000000 cap && decide (res ≤ 10000000) && decide (vmax ≤ 3900) &&
      between 10 500 hyst && decide (vmin + 50 ≤ guard) && decide (guard < vmax) && decide (500 ≤ vmin) && between 2000 3600 vbat &&
      between 128 256 eff && between 10 900 dly && nom.all (fun v => between 650 850 v) && code.all (fun c => decide (c < 8)) &&
      zeroAt b 0x1A 2 && zeroAt b 0x28 8 then
    some { capNomUf := cap, reserveUj := res, vmaxMv := vmax, hystMv := hyst, guardMv := guard, vminMv := vmin,
           vbatChgMinMv := vbat, buckEffQ8 := eff, coreEnDelayUs := dly, vcoreNomMv := nom, vselCode := code }
  else none

/-- The PIN_MAP body. -/
def State.pinMap (s : State) : Option (List Byte) := (s.image.records.find? (fun r => r.type == 7)).map (fun r => r.body)

/-- The board power block comes into force, or SYS_ALARM is set (R93, R94). -/
def applyPower (s : State) : State :=
  match s.pinMap.bind readPower with
  | some p => { s with tide := { s.tide with block := some p, vsel := p.vselCode.getD 0 0 } }
  | none => raiseAlarm 3 s

/-- Read a LINK_CONFIG body (R585). -/
def LinkConfig.read (b : List Byte) : LinkConfig :=
  { role := byteAt b 0, expectNum := byteAt b 1, expectLen := byteAt b 2, sleepIdleUs := leAt b 4 2, trainTimeoutMs := leAt b 8 2,
    messages := (List.range (byteAt b 3)).map (fun i => (leAt b (24 + 8 * i) 2, leAt b (26 + 8 * i) 2, leAt b (28 + 8 * i) 2)),
    markers := (List.range (byteAt b 6)).map (fun i => (leAt b (280 + 4 * i) 2, byteAt b (282 + 4 * i))) }

/-- LINK_CONFIG: the role, the HEAD's number, the declared markers; ports need XREF (R549, R550, R554, R576). -/
def applyLink (s : State) : State :=
  match s.image.records.find? (fun r => r.type == 8) with
  | some r =>
    let c := LinkConfig.read r.body
    let ms : List MarkerEntry := c.markers.map (fun m => { watch := m.1, chip := m.2 })
    let s := { s with cw := { s.cw with cfg := c, markers := ms } }
    let s := if c.role = 1 then takeNumber 0 s else s
    if c.role = 0 then s else needXref s
  | none => s

/-- The pin that carries input function f, 31 for none (R680). -/
def inputPin (b : List Byte) (f : Nat) : Nat := ((inputCodes b).findIdx? (fun x => x == f)).getD 31

/-- GPIO_PILSEL as the pin section gives it (R662, R680). -/
def mapPilSel (b : List Byte) : BitVec 16 :=
  (List.range 24).foldl (fun (m : BitVec 16) p =>
    if pilFed b p then m ||| BitVec.ofNat 16 ((p / 8 + 1) * 4 ^ (p % 8)) else m) 0

/-- GPIO_PILCFG as the pin section gives it (R660, R662, R680). -/
def mapPilCfg (b : List Byte) : BitVec 32 :=
  (List.range 24).foldl (fun (m : BitVec 32) p =>
    if pilFed b p then m ||| BitVec.ofNat 32 (fld (byteAt b (0x30 + 8 * p + 2)) 1 4 * 16 ^ (p % 8)) else m) 0

/-- The pin map is applied, or there is none and every pin keeps its reset state (R227, R662). -/
def applyPins (s : State) : State :=
  match s.pinMap with
  | some b =>
    let g := { s.gpio with pins := (List.range 24).map (Pin.ofEntry b), pilSel := mapPilSel b, pilCfg := mapPilCfg b,
                           fsyncPin := inputPin b 1, cwWakePin := inputPin b 2, mapApplied := true, funcsOn := true }
    { s with gpio := (List.range 8).foldl (fun (g : Gpio) n => g.loadLine n) g }
  | none => { s with gpio := { s.gpio with mapApplied := true, funcsOn := true } }

/-- A chain role without CW_WAKE routed both ways (R668). -/
def State.wakeUnrouted (s : State) : Bool :=
  s.cw.cfg.role != 0 && (s.gpio.cwWakePin == 31 || !s.gpio.pins.any (fun x => x.mask.getLsbD 20))

/-- FIRMWARE_START (R143, R151, R166, R212): the locks, the image registers; unless the loop guard halts the boot, the patch, the
Strand recovery and calibration set, the tag keys, the watch table, the power block, the link and the pin map; the EVENT of
cause BOOT; DONE; Neap. DESIGN CHOICE (log 76): the image whose registers are written is the running image of R204 and R237 from
then on, that of a boot that the loop guard halts included. -/
def firmwareStart (s : State) : State :=
  if s.atStage 0x07 then
    let s := imageRegisters (setLocks s)
    if 4 ≤ s.sys.loopCount then failBoot 0x0A (toStage 0x0E s)
    else
      let s := toStage 0x09 (deriveTagKeys (strandRecovery (applyPatch (toStage 0x08 s))))
      let s := applyPins (applyLink (applyPower (buildTable s)))
      let s := if s.wakeUnrouted then raiseAlarm 10 s else s
      neapEntry (toStage 0x0F (release (s.bootEvent 1) s))
  else s

/-! ### Commands -/

/-- POR (R131) -/
def execPor (s : State) : Host.Outcome State Fault Refusal := .next (assertReset .por s)
/-- BROWNOUT_VBAT (R132) -/
def execBrownoutVbat (s : State) : Host.Outcome State Fault Refusal := .next (assertReset .borVbat s)
/-- BROWNOUT_VSYS (R137) -/
def execBrownoutVsys (s : State) : Host.Outcome State Fault Refusal :=
  .next (inService s (fun s => if s.controllerRuns then assertReset .borVsys s else s))
/-- RESET_PIN (R154) -/
def execResetPin (s : State) : Host.Outcome State Fault Refusal := .next (assertReset .pin s)
/-- SYS_SOFT_RESET (R160) -/
def execSysSoftReset (v : Word) (s : State) : Host.Outcome State Fault Refusal := .next (inService s (applied 0x001C v (softReset v)))
/-- SOFT (R160) -/
def execSoft (s : State) : Host.Outcome State Fault Refusal := .next (inService s softTaken)
/-- WATCHDOG: 32,768 ticks have passed without a restart (R164) -/
def execWatchdog (s : State) : Host.Outcome State Fault Refusal :=
  .next (inService s (fun s => if s.controllerRuns && decide (32768 ≤ s.sys.wdtCount) then assertReset .wdt s else s))
/-- THERMAL_REQ (R127, R158) -/
def execThermalReq (s : State) : Host.Outcome State Fault Refusal :=
  .next (inService s (fun s => if s.tide.thermalShutdown then assertReset .thermReq s else s))
/-- THERMAL_TRIP (R128) -/
def execThermalTrip (s : State) : Host.Outcome State Fault Refusal := .next (assertReset .thermTrip s)
/-- THERMAL_RESET_END (R129) -/
def execThermalResetEnd (t : Int) (s : State) : Host.Outcome State Fault Refusal := .next (thermalEnd t s)
/-- RESET_RELEASE (R143) -/
def execResetRelease (straps : BitVec 4) (s : State) : Host.Outcome State Fault Refusal := .next (resetRelease straps s)
/-- RAIL_WAIT_END (R136) -/
def execRailWaitEnd (s : State) : Host.Outcome State Fault Refusal := .next (inService s railWaitEnd)
/-- FLASH_PROBE (R145) -/
def execFlashProbe (r : FlashReply) (s : State) : Host.Outcome State Fault Refusal := .next (inService s (flashProbe r))
/-- MANIFEST_CHECK (R251) -/
def execManifestCheck (b : List Byte) (s : State) : Host.Outcome State Fault Refusal := .next (inService s (manifestFirst b))
/-- MANIFEST_REREAD (R761) -/
def execManifestReread (b : List Byte) (s : State) : Host.Outcome State Fault Refusal := .next (inService s (manifestSecond b))
/-- RECORD_COPY (R233) -/
def execRecordCopy (b : List Byte) (s : State) : Host.Outcome State Fault Refusal := .next (inService s (recordCopy b))
/-- RECORD_RECOPY (R147) -/
def execRecordRecopy (b : List Byte) (s : State) : Host.Outcome State Fault Refusal := .next (inService s (recordRecopy b))
/-- FIRMWARE_START (R143) -/
def execFirmwareStart (s : State) : Host.Outcome State Fault Refusal := .next (inService s firmwareStart)
/-- LF_CRYSTAL_SWITCH (R141) -/
def execLfCrystalSwitch (s : State) : Host.Outcome State Fault Refusal := .next (lfSwitch s)
/-- LF_CRYSTAL_TIMEOUT (R141) -/
def execLfCrystalTimeout (s : State) : Host.Outcome State Fault Refusal := .next (lfTimeout s)
/-- LF_FALLBACK (R92) -/
def execLfFallback (s : State) : Host.Outcome State Fault Refusal := .next (lfFall s)
/-- CORE_PLL_LOCKED (R89) -/
def execCorePllLocked (s : State) : Host.Outcome State Fault Refusal := .next (inService s pllLock)

end Sys2Proof.Machine
end

