-- ==== Sys2Proof/Machine/Quay.lean ====
section
/-! DEFINITION. Machine/Quay.lean: the Quay register map (23, R709): what each word reads (R15, R710, R713), what an applied
write of each register does (R711, R716), and the commands of the applied writes that no other file holds. -/
namespace Sys2Proof.Machine
open Sys2Proof

/-! ### Reads: the SYS block -/

/-- POWER code (R718). -/
def Power.code : Power → Nat
  | .neap => 0
  | .slack => 1
  | .spring => 2

/-- The boot is done. -/
def State.booted (s : State) : Bool := decide (s.sys.stage = 0x0F)

/-- SYS_STATUS (R718). -/
def State.statusWord (s : State) : Nat :=
  s.tide.power.code + 4 * b2n s.booted + 8 * b2n (s.sys.fail ≠ 0) + 16 * s.watches.length + 2 ^ 15 * b2n (!s.sys.firstNeapDue) +
  2 ^ 16 * s.host.wrIgnored

/-- SYS_ALARM (R719). -/
def State.alarmWord (s : State) : Nat := s.sys.alarm.toNat + 2 ^ 31 * b2n (s.sys.alarm ≠ 0)

/-- SYS_STRAPS (R161 table). -/
def State.strapsWord (s : State) : Nat :=
  b2n s.sys.straps.hostIf + 2 * b2n s.sys.straps.i2cAddr + 4 * b2n s.sys.straps.lfSrc + 8 * b2n s.sys.straps.bootHold

/-- SYS_FAULT (R718). -/
def State.faultWord (s : State) : Nat :=
  match s.err.fault with
  | some (n, c) => n + 2 ^ 10 + 2 ^ 16 * c
  | none => 0

/-- SYS_UNIT_RESETS (R173). -/
def State.unitResetsWord (s : State) : Nat := (List.range 8).foldl (fun w i => w + s.sys.unitResets.getD i 0 * 16 ^ i) 0

/-- SYS_IMAGE (R252). -/
def State.imageWord (s : State) : Nat :=
  s.image.secVer + 2 ^ 12 * s.image.entries + 2 ^ 25 * b2n s.image.patchSkipped + 2 ^ 26 * b2n s.image.authFail +
  2 ^ 27 * b2n s.image.noTable + 2 ^ 28 * b2n s.image.lcExit

/-- Four bits, one for each core. -/
def State.coreBits (s : State) (f : RunState → Bool) : Nat :=
  b2n (f s.core0.run) + 2 * b2n (f s.core1.run) + 4 * b2n (f s.core2.run) + 8 * b2n (f s.core3.run)

/-- SYS_CORES (R393). -/
def State.coresWord (s : State) : Nat :=
  b2n s.core0.powered + 2 * b2n s.core1.powered + 4 * b2n s.core2.powered + 8 * b2n s.core3.powered +
  16 * s.coreBits (fun r => decide (r = .running) || decide (r = .halting)) +
  256 * s.coreBits (fun r => decide (r = .halted) || decide (r = .stopped)) + 2 ^ 12 * s.tide.step +
  (match (if s.tide.coreEn then s.springWatch else none) with
    | some w => 2 ^ 16 * w.entry.num + 2 ^ 26
    | none => 0)

/-- SYS_CORE_EXCn (R393). -/
def Core.excWord (k : Core) : Nat := k.excCause + 256 * k.excSlot + 2 ^ 12 * k.excPc + 2 ^ 24 * b2n k.excValid

/-- NEWEST of SYS_LOG_STATUS (R627). -/
def State.newestWord (s : State) : Nat :=
  match s.err.newest with
  | some (_, q) => q % 65536
  | none => 0

/-- A word of the 64 bytes that a register group holds; an empty list stands for zeros. -/
def groupWord (b : List Byte) (i : Nat) : Nat := leAt b (4 * i) 4

/-- Words 0x0000 to 0x00C4 (R709, R718 to R722). -/
def State.readSys (s : State) (a : Nat) : Nat :=
  if 0x80 ≤ a && a < 0xC0 then groupWord s.err.logData ((a - 0x80) / 4)
  else match a with
    | 0x00 => 0x61200A10
    | 0x04 => s.statusWord
    | 0x08 => s.resetCauseWord
    | 0x0C => s.alarmWord
    | 0x10 => s.faultWord
    | 0x14 => s.ownerSrc.toNat
    | 0x18 => s.strapsWord
    | 0x20 => s.bootWord
    | 0x24 => s.err.stops + 2 ^ 16 * s.err.validation
    | 0x28 => s.unitResetsWord
    | 0x30 => leAt s.image.imageId 0 4
    | 0x34 => leAt s.image.imageId 4 4
    | 0x38 => s.imageWord
    | 0x3C => s.image.streamFetches + 2 ^ 16 * s.image.streamRereads + 2 ^ 24 * s.image.streamFails
    | 0x40 => s.stem.heads + 2 ^ 16 * s.stem.aborts + 2 ^ 24 * s.stem.descErrors
    | 0x44 => s.coresWord
    | 0x48 => s.stem.roiEmitted + 2 ^ 16 * s.stem.roiRefused
    | 0x4C => s.stem.replays + 2 ^ 16 * s.stem.lastReplayWatch
    | 0x50 => s.core0.excWord
    | 0x54 => s.core1.excWord
    | 0x58 => s.core2.excWord
    | 0x5C => s.core3.excWord
    | 0x60 => s.stem.adaptSteps + 2 ^ 16 * s.stem.adaptCommitFails + 2 ^ 24 * s.stem.adaptStatus
    | 0x64 => s.err.eccHarbour + 2 ^ 16 * s.err.eccCore + 2 ^ 24 * s.err.eccOther
    | 0x68 => s.err.replays + 2 ^ 8 * s.err.uncorrFatal + 2 ^ 16 * s.err.poisonFound + 2 ^ 24 * s.err.scrubPasses
    | 0x6C => s.err.logIndex + 2 ^ 16 * b2n s.err.logValid + 2 ^ 17 * b2n s.err.logEmpty
    | 0x70 => s.newestWord + 2 ^ 16 * s.err.suppressed
    | 0x74 => s.sys.tick % 2 ^ 32
    | 0x78 => s.sys.tick / 2 ^ 32 % 2 ^ 16
    | 0xC0 => (s.otpWord 8).data
    | 0xC4 => (s.otpWord 9).data
    | _ => 0

/-! ### Reads: OBX, TIDE, MBX -/

/-- Word i of the head record, 0 when the Outbox is empty (20, registers). -/
def State.headWord (s : State) (i : Nat) : Nat :=
  match s.host.outbox with
  | b :: _ => groupWord b i
  | [] => 0

/-- OBX_IRQ (20, registers). -/
def State.irqWord (s : State) : Nat :=
  s.host.thresh + 2 ^ 8 * s.host.irqEn.toNat + 2 ^ 12 * b2n s.host.pulse + 2 ^ 13 * b2n s.host.activeHigh

/-- Words 0x0100 to 0x0134 and 0x0200 to 0x021C (R644, R709). -/
def State.readObx (s : State) (a : Nat) : Nat :=
  if 0x110 ≤ a && a < 0x130 then s.headWord ((a - 0x110) / 4)
  else if 0x200 ≤ a && a < 0x220 then s.headWord ((a - 0x200) / 4)
  else match a with
    | 0x100 => s.host.outbox.length + 2 ^ 8 * s.host.backlog.length
    | 0x104 => s.irqWord
    | 0x108 => s.irqSources.toNat
    | 0x130 => s.host.lostRecords + 2 ^ 16 * s.host.lostMerges
    | 0x134 => s.host.aborted + 2 ^ 8 * s.host.badCmd + 2 ^ 16 * s.host.wrDropped
    | _ => 0

/-- TIDE_STATUS (R723). -/
def State.tideStatus (s : State) : Nat :=
  s.tide.power.code + 4 * b2n s.tide.capNominal + 8 * b2n s.tide.capMismatch + 16 * b2n s.tide.chgStall +
  32 * b2n s.tide.lfFallback + 64 * b2n (s.tide.thermalCap < 3) + 128 * b2n s.tide.chgEn + 256 * b2n s.tide.coreEn +
  512 * b2n s.tide.block.isSome + 1024 * s.tide.thermalCap + 4096 * b2n s.tide.tempDeferred

/-- TIDE_ADMIT (R723). -/
def State.admitWord (s : State) : Nat :=
  match s.queueHead with
  | some w => w.entry.num + 2 ^ 10 + 2 ^ 12 * min (s.needUj w) 1048575
  | none => 0

/-- Words 0x0300 to 0x0328 (R723). -/
def State.readTide (s : State) (a : Nat) : Nat :=
  match a with
  | 0x300 => s.tideStatus
  | 0x304 => b2n s.tide.chgInhibit + 16 * s.tide.clkCap.toNat
  | 0x308 => s.tide.energy
  | 0x30C => s.tide.rsvMv
  | 0x310 => s.tide.vbatMv
  | 0x314 => ofSigned s.tide.temp 16
  | 0x318 => s.tide.meterUj
  | 0x31C => s.admitWord
  | 0x320 => s.tide.retain.toNat
  | 0x324 => s.tide.throttleTicks
  | 0x328 => s.tide.collapses
  | _ => 0

/-- MBX_STATUS (20, registers). -/
def State.mbxWord (s : State) : Nat :=
  s.host.mbxCode + 2 ^ 8 * s.host.mbxLastCmd + 2 ^ 16 * s.host.mbxTag + 2 ^ 24 * s.host.mbx.length + 2 ^ 27 * b2n s.host.mbxRun.isSome +
  2 ^ 28 * b2n s.host.mbxDropped + 2 ^ 29 * s.host.mbxDone

/-- Words 0x0400 to 0x047C. -/
def State.readMbx (s : State) (a : Nat) : Nat :=
  if 0x404 ≤ a && a ≤ 0x420 then (s.host.mbxArgs.getD ((a - 0x404) / 4) 0).toNat
  else if a = 0x424 then s.mbxWord
  else if 0x440 ≤ a && a < 0x480 then groupWord s.host.mbxData ((a - 0x440) / 4)
  else 0

/-! ### Reads: GPIO, ADC, CW, OTP, STR, PIX, WATCH_STATE -/

/-- Words 0x0500 to 0x059C (R680). -/
def State.readGpio (s : State) (a : Nat) : Nat :=
  let g := s.gpio
  if 0x520 ≤ a && a < 0x540 then (g.alarmCfg.getD ((a - 0x520) / 4) 0).toNat
  else if 0x540 ≤ a && a < 0x5A0 then (g.pin ((a - 0x540) / 4)).word
  else match a with
    | 0x500 => g.level.toNat
    | 0x504 => g.out.toNat
    | 0x508 => g.oe.toNat
    | 0x50C => g.pilSel.toNat
    | 0x510 => g.pilCfg.toNat
    | 0x514 => g.pilEvent.toNat + 256 * g.pilLevel.toNat
    | 0x518 => g.alarm.toNat
    | 0x51C => g.fsyncPin + 32 * g.cwWakePin + 1024 * b2n g.mapApplied + 2 ^ 16 * g.cfgReject
    | _ => 0

/-- Chains that are still writing, one bit each (08, ADC_STATUS). -/
def State.chainsWriting (s : State) : Nat :=
  match s.adcCapture? with
  | some (c, w) =>
    if c.running then ((c.chains.zipIdx).filter (fun x => decide (x.1.done < w.entry.inputUnits))).foldl (fun m x => m + 2 ^ x.2) 0
    else 0
  | none => 0

/-- ADC_STATUS (08, registers). -/
def State.adcStatus (s : State) : Nat :=
  (match s.adc.cap with
    | some c => b2n c.running + 4 + 8 * c.watch
    | none => 2 * b2n s.adc.cal.isSome) + 2 ^ 16 * s.chainsWriting + 2 ^ 20 * s.iepe.toNat

/-- Words 0x0600 to 0x0614. -/
def State.readAdc (s : State) (a : Nat) : Nat :=
  match a with
  | 0x600 => s.adcStatus
  | 0x604 => s.adc.ovrBlocks + 2 ^ 16 * s.adc.satBlocks
  | 0x608 => s.adc.bgCode.toNat + 2 ^ 24 * s.adc.bgFails
  | 0x60C => s.adc.iepeForce.toNat
  | 0x610 => s.adc.calStatus + 256 * s.adc.pending.length
  | 0x614 => ofSigned s.adc.calMean 32
  | _ => 0

/-- Code of a port state (R586). -/
def PortState.code : PortState → Nat
  | .off => 0
  | .training => 1
  | .up => 2
  | .sleep => 3
  | .down => 4

/-- CW_STATUS (R586). -/
def State.cwStatus (s : State) : Nat :=
  s.cw.chip.getD 0 + 16 * b2n s.cw.chip.isSome + 32 * s.cw.cfg.role + 128 * b2n s.cw.mismatch + 256 * s.cw.up.state.code +
  4096 * s.cw.dn.state.code + 2 ^ 16 * s.cw.chainLen + 2 ^ 24 * b2n s.cw.wakeIn + 2 ^ 25 * b2n s.cw.wakeOut

/-- CW_ERR_UP and CW_ERR_DN (R586). -/
def Port.errWord (x : Port) : Nat := x.crcErrs + 2 ^ 8 * x.codeErrs + 2 ^ 16 * x.replays + 2 ^ 24 * x.retrains

/-- Words 0x0700 to 0x0714 (R586). -/
def State.readCw (s : State) (a : Nat) : Nat :=
  match a with
  | 0x700 => s.cwStatus
  | 0x704 => s.cw.up.epoch + 2 ^ 8 * s.cw.dn.epoch + 2 ^ 16 * b2n s.cw.up.valid + 2 ^ 17 * b2n s.cw.dn.valid
  | 0x708 => s.cw.up.errWord
  | 0x70C => s.cw.dn.errWord
  | 0x710 => s.cw.dropTransit + 2 ^ 8 * s.cw.refusedIn + 2 ^ 16 * s.cw.msgLost + 2 ^ 24 * s.cw.unroutable
  | 0x714 => b2n s.cw.forceAwake
  | _ => 0

/-- Words 0x0800 to 0x0820 (05, registers). -/
def State.readOtp (s : State) (a : Nat) : Nat :=
  let o := s.otp
  match a with
  | 0x800 => o.lc + 256 * o.raw.toNat + 2 ^ 16 * b2n s.dapOpen
  | 0x804 => o.lockRd.toNat
  | 0x808 => o.lockWr.toNat
  | 0x80C => o.uncorr.toNat + 256 * o.corrected + 2 ^ 24 * b2n o.policyDefault
  | 0x810 => o.rollback
  | 0x814 => o.programmed.toNat + 16 * o.revoked.toNat + 256 * o.bootSlot
  | 0x818 => o.readWord + 2 ^ 16 * b2n o.readValid + 2 ^ 17 * b2n o.readUncorr + 2 ^ 18 * b2n o.readCorrected +
      2 ^ 19 * b2n o.readLocked
  | 0x81C => o.readData.toNat
  | 0x820 => o.progStatus + 256 * o.progWord
  | _ => 0

/-- STR_STATUS (R708). -/
def State.strStatus (s : State) : Nat :=
  s.strand.calSrc + 4 * (match s.force 0 with
    | some (t, _) => t
    | none => 0) + 8 * b2n (s.strand.run.isSome || !s.strand.commits.isEmpty) +
  ([1, 2, 3, 4].foldl (fun m h => m + b2n (s.force h).isSome * 2 ^ (3 + h)) 0) + 256 * s.strand.fallback.toNat

/-- Words 0x0900 to 0x0914 (R708). -/
def State.readStr (s : State) (a : Nat) : Nat :=
  match a with
  | 0x900 => s.strStatus
  | 0x904 => (match s.force 0 with
      | some (_, q) => q
      | none => 0)
  | 0x908 => s.strand.units + 2 ^ 16 * s.strand.verifyFails + 2 ^ 24 * s.strand.commitFails
  | 0x90C => if s.strand.recovered then s.wear.1 + 2 ^ 20 * s.wear.2 else 0
  | 0x910 => b2n s.strand.learn + 256 * s.strand.samples.length + 2 ^ 16 * s.strand.capStatus
  | 0x914 => s.strand.lastUf
  | _ => 0

/-- Mask of the READY berths among 32 (07, registers). -/
def State.readyMask (s : State) (base : Nat) : Nat :=
  (List.range 32).foldl (fun m i => m + b2n (s.berth (base + i) == .ready) * 2 ^ i) 0

/-- PIX_STATUS (07, registers). -/
def State.pixStatus (s : State) : Nat :=
  (match s.pix.cap with
    | some c => b2n c.reading.isSome + 8 + 16 * c.watch
    | none => 0) + 2 * b2n s.sentinelOn + 4 * b2n s.tide.xrefReady + 2 ^ 16 * s.pix.fsyncMisses + 2 ^ 24 * s.pix.defectUnres

/-- Words 0x0A00 to 0x0A14 (07, registers). -/
def State.readPix (s : State) (a : Nat) : Nat :=
  match a with
  | 0xA00 => s.pixStatus
  | 0xA04 => s.pix.sentPeriod + 2 ^ 20 * s.pix.sentExposure + 2 ^ 26 * s.pix.sentGain
  | 0xA08 => s.pix.sentEnergy + 2 ^ 16 * s.pix.sentFrames
  | 0xA0C => s.pix.frames
  | 0xA10 => s.readyMask 0
  | 0xA14 => s.readyMask 32
  | _ => 0

/-- State code of a watch (R53). -/
def WState.code : WState → Nat
  | .dormant => 0
  | .armed => 1
  | .waitingEnergy => 2
  | .running => 3
  | .checkpointed => 4
  | .done => 5
  | .faulted => 6

/-- WATCH_STATE of watch n (R58, R725). -/
def State.watchWord (s : State) (n : Nat) : Nat :=
  match s.watch? n with
  | some w => w.state.code + 8 * b2n w.pending + 16 * b2n w.groupWait + 32 * w.entry.owner + 256 * (w.faultCode % 256) +
      2 ^ 16 * min w.missed 255 + 2 ^ 24 * w.lastSeq
  | none => 0

/-- The word at a Quay address that is a multiple of 4; 0 where no register stands, and for a write-only one (R15, R630, R709). -/
def State.quayWord (s : State) (a : Nat) : Word :=
  BitVec.ofNat 32 (
    if a < 0x100 then s.readSys a
    else if a < 0x300 then s.readObx a
    else if a < 0x400 then s.readTide a
    else if a < 0x500 then s.readMbx a
    else if a < 0x600 then s.readGpio a
    else if a < 0x700 then s.readAdc a
    else if a < 0x800 then s.readCw a
    else if a < 0x900 then s.readOtp a
    else if a < 0xA00 then s.readStr a
    else if a < 0xB00 then s.readPix a
    else if 0x1000 ≤ a && a < 0x2000 then s.watchWord ((a - 0x1000) / 4)
    else 0)

/-- The byte at a Quay address: registers transfer lowest byte first (R9, R630). -/
def State.quayByte (s : State) (a : Nat) : Byte := BitVec.ofNat 8 ((s.quayWord (a / 4 * 4)).toNat / 256 ^ (a % 4))

/-! ### Writes -/

/-- A W1C write of SYS_ALARM: bits [10:1] (R719, R721); a bit that the device sets in the same tick stays at 1 (R712). -/
def clearAlarm (v : Word) (s : State) : State :=
  { s with sys := { s.sys with alarm := s.sys.alarm &&& ~~~(BitVec.ofNat 11 (v.toNat % 2 ^ 11 / 2 * 2) &&& ~~~s.fresh.alarm) } }

/-- The event-log unit that INDEX selects (R626). -/
def State.logUnitOf (s : State) (i : Nat) : Option (List Byte) :=
  if s.err.logReady then
    match s.err.newest with
    | some (u, _) =>
      let b := rdBytes s.strand.data (logUnitAddr ((u + 1024 - i) % 1024)) 64
      if leAt b 0 4 ≠ 0 && leAt b 0x3C 4 = crc32 (b.take 60) then some b else none
    | none => none
  else none

/-- A write of SYS_LOG_CTRL.INDEX: the selected unit comes into SYS_LOG_DATA, and VALID is set (R626, R716). -/
def selectLog (v : Word) (s : State) : State :=
  let i := v.toNat % 1024
  let b := s.logUnitOf i
  { s with err := { s.err with logIndex := i, logValid := true, logEmpty := b.isNone, logData := b.getD [] } }

/-- Pop the head record; the backlog moves up at BACKLOG_REFILL (R644). A stream slot that carries it pops nothing more (R762). -/
def popHead (s : State) : State :=
  match s.host.outbox with
  | _ :: t =>
    { s with host := { s.host with outbox := t, stream := s.host.stream.map (fun r => { r with gone := true }) } }
  | [] => s

/-- A write of OBX_POP (R644). -/
def writePop (v : Word) (s : State) : State := if v.getLsbD 0 then popHead s else s

/-- A write of OBX_IRQ (R637, R638). -/
def writeIrq (v : Word) (s : State) : State :=
  let t := v.toNat % 128
  { s with host := { s.host with thresh := min 64 (max 1 t), irqEn := BitVec.ofNat 4 (v.toNat / 256),
                                 pulse := v.getLsbD 12, activeHigh := v.getLsbD 13,
                                 pulseEnd := if v.getLsbD 12 then s.host.pulseEnd else none } }

/-- A W1C write of OBX_IRQ_STATUS: MBX, ALARM and BOOT (R637); one that is set in the same tick stays at 1 (R712). -/
def clearIrq (v : Word) (s : State) : State :=
  { s with host := { s.host with irq := s.host.irq &&& ~~~(BitVec.ofNat 4 (v.toNat % 16) &&& ~~~s.fresh.irq) } }

/-- A write of MBX_CMD queues a command with a copy of the arguments and wakes the device (R86, R654). -/
def writeMbxCmd (v : Word) (s : State) : State :=
  let s := wake s
  if s.host.mbx.length < 4 then
    let c : MbxCmd := { cmd := v.toNat % 256, tag := v.toNat / 256 % 256, args := s.host.mbxArgs }
    { s with host := { s.host with mbx := s.host.mbx ++ [c] } }
  else { s with host := { s.host with mbxDropped := true } }

/-- A write of MBX_ARGn (R654). -/
def writeMbxArg (n : Nat) (v : Word) (s : State) : State :=
  { s with host := { s.host with mbxArgs := setAt s.host.mbxArgs n v } }

/-- A write of MBX_STATUS: DROPPED (R654). -/
def clearDropped (v : Word) (s : State) : State :=
  if v.getLsbD 28 then { s with host := { s.host with mbxDropped := false } } else s

/-- A write of TIDE_CTRL: CHG_INHIBIT acts at the next sample, CLK_CAP on the step in force (R100, R125, R724). -/
def writeTideCtrl (v : Word) (s : State) : State :=
  applyStep { s with tide := { s.tide with chgInhibit := v.getLsbD 0, clkCap := BitVec.ofNat 2 (v.toNat / 16) } }

/-- A W1C write of TIDE_STATUS.CAP_MISMATCH (R130); one that is set in the same tick stays at 1 (R712). -/
def clearMismatch (v : Word) (s : State) : State :=
  if v.getLsbD 3 && !s.fresh.mismatch then { s with tide := { s.tide with capMismatch := false } } else s

/-- A write of GPIO_ALARMn; its reserved bits are ignored (R665, R680). -/
def writeAlarmCfg (n : Nat) (v : Word) (s : State) : State :=
  { s with gpio := { s.gpio with alarmCfg := setAt s.gpio.alarmCfg n (v &&& 0xFF7F0FFF) } }

/-- A write of ADC_IEPE.FORCE (R309); what SHUTDOWN clears in the same tick stays clear (R657, R712). -/
def writeIepe (v : Word) (s : State) : State :=
  if s.fresh.iepe then s else { s with adc := { s.adc with iepeForce := BitVec.ofNat 4 v.toNat } }

/-- A write of CW_CTRL.FORCE_AWAKE (R582). -/
def writeForceAwake (v : Word) (s : State) : State := { s with cw := { s.cw with forceAwake := v.getLsbD 0 } }

/-- A write of OTP_LOCK_RD: its bits stick (R210). -/
def writeLockRd (v : Word) (s : State) : State :=
  { s with otp := { s.otp with lockRd := s.otp.lockRd ||| BitVec.ofNat 8 v.toNat } }

/-- A write of OTP_LOCK_WR: its bits stick (R210). -/
def writeLockWr (v : Word) (s : State) : State :=
  { s with otp := { s.otp with lockWr := s.otp.lockWr ||| BitVec.ofNat 8 v.toNat } }

/-- A write ignored under R716. -/
def ignoreWrite (s : State) : State := { s with host := { s.host with wrIgnored := satAdd s.host.wrIgnored 1 255 } }

/-- A commit asked for by a capacitance batch. -/
def Commit.isLearn (c : Commit) : Bool := decide (c.cause = .learn)

/-- A write of STR_CAP_CTRL.LEARN starts a batch; 0 discards the samples taken so far, with the commit that waits to write
their mean (R702, R703, R716). A LEARN bit that the device clears in the same tick stays 0 (R712). -/
def writeLearn (v : Word) (s : State) : State :=
  if s.booted && s.tide.block.isSome then
    if v.getLsbD 0 then
      if s.strand.learn || s.fresh.learn then s else { s with strand := { s.strand with learn := true, samples := [] } }
    else { s with strand := { s.strand with learn := false, samples := [],
                                            commits := s.strand.commits.filter (fun c => !c.isLearn) } }
  else ignoreWrite s

/-- A write of PIX_SENT_CFG, from the next sentinel frame, which only becomes the reference (R281, R283). -/
def writeSentCfg (v : Word) (s : State) : State :=
  let n := v.toNat
  { s with pix := { s.pix with sentPeriod := max 16384 (fld n 0 20), sentExposure := max 1 (fld n 20 6),
                               sentGain := min 4 (fld n 26 3), reference := none } }

/-- What an applied write of any register does (R634, R711, R716); an unassigned or read-only address ignores it (R16). -/
def writeReg (a : Nat) (v : Word) (s : State) : State :=
  if 0x404 ≤ a && a ≤ 0x420 && a % 4 == 0 then writeMbxArg ((a - 0x404) / 4) v s
  else if 0x520 ≤ a && a < 0x540 && a % 4 == 0 then writeAlarmCfg ((a - 0x520) / 4) v s
  else if 0x540 ≤ a && a < 0x5A0 && a % 4 == 0 then writePin ((a - 0x540) / 4) v s
  else match a with
    | 0x00C => clearAlarm v s
    | 0x01C => softReset v s
    | 0x06C => selectLog v s
    | 0x104 => writeIrq v s
    | 0x108 => clearIrq v s
    | 0x10C => writePop v s
    | 0x300 => clearMismatch v s
    | 0x304 => writeTideCtrl v s
    | 0x400 => writeMbxCmd v s
    | 0x424 => clearDropped v s
    | 0x504 => writeGpioOut v s
    | 0x508 => writeGpioOe v s
    | 0x50C => writePilsel v s
    | 0x510 => writePilcfg v s
    | 0x514 => clearPilEvents v s
    | 0x518 => clearAlarmLines v s
    | 0x60C => writeIepe v s
    | 0x714 => writeForceAwake v s
    | 0x804 => writeLockRd v s
    | 0x808 => writeLockWr v s
    | 0x818 => otpReadAddr v s
    | 0x910 => writeLearn v s
    | 0xA04 => writeSentCfg v s
    | _ => s

/-! ### Commands -/

/-- REGISTER_WRITE (R634) -/
def execRegisterWrite (a : BitVec 16) (v : Word) (s : State) : Host.Outcome State Fault Refusal :=
  .next (inService s (applied a.toNat v (writeReg a.toNat v)))
/-- SYS_ALARM (R721) -/
def execSysAlarm (v : Word) (s : State) : Host.Outcome State Fault Refusal := .next (inService s (applied 0x00C v (clearAlarm v)))
/-- SYS_LOG_CTRL (R626) -/
def execSysLogCtrl (v : Word) (s : State) : Host.Outcome State Fault Refusal := .next (inService s (applied 0x06C v (selectLog v)))
/-- OBX_POP (R644) -/
def execObxPop (v : Word) (s : State) : Host.Outcome State Fault Refusal := .next (inService s (applied 0x10C v (writePop v)))
/-- OBX_IRQ (R637) -/
def execObxIrq (v : Word) (s : State) : Host.Outcome State Fault Refusal := .next (inService s (applied 0x104 v (writeIrq v)))
/-- OBX_IRQ_STATUS (R637) -/
def execObxIrqStatus (v : Word) (s : State) : Host.Outcome State Fault Refusal := .next (inService s (applied 0x108 v (clearIrq v)))
/-- MBX_STATUS (R654) -/
def execMbxStatus (v : Word) (s : State) : Host.Outcome State Fault Refusal := .next (inService s (applied 0x424 v (clearDropped v)))
/-- CHG_INHIBIT (R100) -/
def execChgInhibit (v : Word) (s : State) : Host.Outcome State Fault Refusal := .next (inService s (applied 0x304 v (writeTideCtrl v)))
/-- CLK_CAP (R724) -/
def execClkCap (v : Word) (s : State) : Host.Outcome State Fault Refusal := .next (inService s (applied 0x304 v (writeTideCtrl v)))
/-- CAP_MISMATCH (R130) -/
def execCapMismatch (v : Word) (s : State) : Host.Outcome State Fault Refusal := .next (inService s (applied 0x300 v (clearMismatch v)))
/-- ADC_IEPE (R309) -/
def execAdcIepe (v : Word) (s : State) : Host.Outcome State Fault Refusal := .next (inService s (applied 0x60C v (writeIepe v)))
/-- FORCE_AWAKE (R582) -/
def execForceAwake (v : Word) (s : State) : Host.Outcome State Fault Refusal := .next (inService s (applied 0x714 v (writeForceAwake v)))
/-- OTP_LOCK_RD (R210) -/
def execOtpLockRd (v : Word) (s : State) : Host.Outcome State Fault Refusal := .next (inService s (applied 0x804 v (writeLockRd v)))
/-- OTP_LOCK_WR (R210) -/
def execOtpLockWr (v : Word) (s : State) : Host.Outcome State Fault Refusal := .next (inService s (applied 0x808 v (writeLockWr v)))
/-- OTP_READ_ADDR (R758) -/
def execOtpReadAddr (v : Word) (s : State) : Host.Outcome State Fault Refusal := .next (inService s (applied 0x818 v (otpReadAddr v)))
/-- LEARN (R702) -/
def execLearn (v : Word) (s : State) : Host.Outcome State Fault Refusal := .next (inService s (applied 0x910 v (writeLearn v)))
/-- PIX_SENT_CFG (R281) -/
def execPixSentCfg (v : Word) (s : State) : Host.Outcome State Fault Refusal := .next (inService s (applied 0xA04 v (writeSentCfg v)))

end Sys2Proof.Machine
end

