-- ==== Sys2Proof/Machine/HostPort.lean ====
section
/-! DEFINITION. Machine/HostPort.lean: the Host port (20): the SPI frames and I²C transfers that read the Quay, capture
writes and stream records (R628 to R636, R642 to R644, R762), and the backlog's two events (R640, R645). -/
namespace Sys2Proof.Machine
open Sys2Proof

/-! ### Frames -/

/-- A stream read ends: it pops nothing more, and a record in a slot whose commit edge did not come is an aborted one (R644). -/
def endStream (s : State) : State :=
  match s.host.stream with
  | some r =>
    let cut := r.slot.isSome && decide (0 < r.done)
    { s with host := { s.host with stream := none, aborted := satAdd s.host.aborted (b2n cut) 255 } }
  | none => s

/-- A frame or transfer begins: any stream read before it has ended, and no byte has been shifted yet. -/
def beginFrame (s : State) : State :=
  let s := endStream s
  { s with host := { s.host with out := [], cut := [] } }

/-- The bits of a byte in the order in which SPI and I²C shift them: most significant first (R9, R10). -/
def msbFirst (b : Byte) : List Bool := (List.range 8).map (fun i => b.getLsbD (7 - i))

/-- The data bits that the device has shifted out in the last frame or transfer, in order (R9, R10, R630, R642). -/
def HostPort.shifted (h : HostPort) : List Bool := h.out.flatMap msbFirst ++ h.cut

/-- Whole bytes among k clocks, `per` clocks a byte: 8 in SPI, 9 in I²C with its acknowledge clock. -/
def wholeBytes (per k : Nat) : Nat := (k + per - 8) / per

/-- The bits of byte number k / per that k clocks have shifted, where they do not make it whole. -/
def cutBits (per k : Nat) (f : Nat → Byte) : List Bool := if k % per < 8 then (msbFirst (f (k / per))).take (k % per) else []

/-- Bytes of the Quay from an address upward, wrapping after 0xFFFF, all sampled in this state (R630, R632). -/
def State.quayBytes (s : State) (a n : Nat) : List Byte := (List.range n).map (fun i => s.quayByte ((a + i) % 65536))

/-- The device shifts out n clocks from address a, `per` clocks a byte (R630). -/
def shiftQuay (per a n : Nat) (s : State) : State :=
  let bs := s.quayBytes a (wholeBytes per n)
  { s with host := { s.host with out := s.host.out ++ bs, cut := cutBits per n (fun i => s.quayByte ((a + i) % 65536)) } }

/-- Capture one word for an address; with the buffer full it is dropped (R634). -/
def captureWord (a : Nat) (v : Word) (s : State) : State :=
  if s.host.wbuf.length < 16 then { s with host := { s.host with wbuf := s.host.wbuf ++ [(a, v)] } }
  else { s with host := { s.host with wrDropped := satAdd s.host.wrDropped 1 255 } }

/-- Capture words from address a upward, 4 a word (R633). -/
def captureWords (a : Nat) : List Word → State → State
  | [], s => s
  | v :: t, s => captureWords ((a + 4) % 65536) t (captureWord a v s)

/-- The words of a WRITE frame: an address that is no multiple of 4 drops the frame (R633). -/
def hostWrite (a : Nat) (ws : List Word) (s : State) : State :=
  if a % 4 = 0 then captureWords a ws s
  else { s with host := { s.host with wrDropped := satAdd s.host.wrDropped 1 255 } }

/-- The complete words of a byte stream, lowest byte first (R9, R633). -/
def wordsOf (bs : List Byte) : List Word :=
  (List.range (bs.length / 4)).map (fun i => BitVec.ofNat 32 (leAt bs (4 * i) 4))

/-! ### Stream reads -/

/-- The device decides a slot at its first bit: the head record, or NONE while the Outbox is empty (R643, R762). -/
def decideSlot (s : State) : State :=
  { s with host := { s.host with stream := some { done := 0, slot := s.host.outbox.head?, gone := false } } }

/-- The commit edge of a slot: its record leaves the Outbox unless it has left already (R642, R762). -/
def endSlot (r : StreamRun) (s : State) : State :=
  let s := { s with host := { s.host with stream := some {} } }
  if r.slot.isSome && !r.gone then { s with host := { s.host with outbox := s.host.outbox.drop 1 } } else s

/-- Shift part of the current slot: at most n clocks, `per` clocks a byte, 8 in SPI and 9 in I²C. The slot is decided at its
first bit, and its pop commits at its last clock (R642 to R644). -/
def shiftSlot (per n : Nat) (s : State) : State :=
  let s := match s.host.stream with
    | some r => if r.done = 0 then decideSlot s else s
    | none => decideSlot s
  match s.host.stream with
  | some r =>
    let stop := min (32 * per) (r.done + n)
    let record := padTo (r.slot.getD []) 32
    let whole := wholeBytes per
    let s := { s with host := { s.host with out := s.host.out ++ (record.drop (whole r.done)).take (whole stop - whole r.done),
                                            cut := cutBits per stop (record.getD · 0) } }
    if stop = 32 * per then endSlot r s else { s with host := { s.host with stream := some { r with done := stop } } }
  | none => s

/-- Shift n clocks of slots; `k` bounds the slots they touch. -/
def shiftSlots (per : Nat) : Nat → Nat → State → State
  | 0, _, s => s
  | k + 1, n, s =>
    if n = 0 then s
    else
      let done := match s.host.stream with
        | some r => r.done
        | none => 0
      shiftSlots per k (n - min n (32 * per - done)) (shiftSlot per n s)

/-- A piece of a stream read: its begin where it has one, n clocks, its end where it has one. A piece that begins none goes
on with the stream in progress. -/
def streamPiece (per : Nat) (first last : Bool) (n : Nat) (s : State) : State :=
  let s := if first then beginFrame s else s
  let s := if first then { s with host := { s.host with stream := some {} } } else s
  if s.host.stream.isNone then s
  else
    let s := shiftSlots per (n + 1) n s
    if last then endStream s else s

/-! ### SPI and I²C -/

/-- An SPI frame reaches the device: the Host port answers and HOST_IF is 0. A frame that breaks the timing of R736 acts as
none, which R628 allows. -/
def spi (timed : Bool) (f : State → State) (s : State) : State :=
  if s.sys.hostAnswers && !s.sys.straps.hostIf && timed then f s else s

/-- The device's I²C target address (R635). -/
def State.i2cTarget (s : State) : Nat := if s.sys.straps.i2cAddr then 0x3B else 0x3A

/-- An I²C transfer addresses the device: the Host port answers, HOST_IF is 1 and the target address is its own (R635). -/
def i2c (target : BitVec 7) (f : State → State) (s : State) : State :=
  if s.sys.hostAnswers && s.sys.straps.hostIf && decide (target.toNat = s.i2cTarget) then f s else s

/-- An I²C read or write leaves the address that follows its last byte (R636). -/
def leaveAt (a : Nat) (s : State) : State := { s with host := { s.host with i2cNext := a % 65536 } }

/-- READ: n bits from an address (R630). -/
def spiRead (a n : Nat) (s : State) : State := shiftQuay 8 a n (beginFrame s)

/-- WRITE: whole words; what is left of a word when CS_N rises is discarded (R633). -/
def spiWrite (a : Nat) (ws : List Word) (s : State) : State := hostWrite a ws (beginFrame s)

/-- STREAM: at 0x0200 a stream read, at any other address a READ (R642). -/
def spiStream (a : Nat) (first last : Bool) (bits : Nat) (s : State) : State :=
  if a = 0x0200 then streamPiece 8 first last bits s
  else if first then spiRead a bits s
  else s

/-- An unknown command byte: the rest of the frame is ignored (R629). -/
def spiUnknown (cmd : Nat) (s : State) : State :=
  if cmd = 0x0B || cmd = 0x02 || cmd = 0x0D then s
  else
    let s := beginFrame s
    { s with host := { s.host with badCmd := satAdd s.host.badCmd 1 255 } }

/-- An I²C write transfer (R636, R633). -/
def i2cWrite (a : Nat) (bs : List Byte) (s : State) : State := leaveAt (a + bs.length) (hostWrite a (wordsOf bs) (beginFrame s))

/-- An I²C stream read: 9 clocks a byte, the address held at 0x0200 (R636, R644). A piece that goes on with a transfer that began
before the port answered belongs to a transfer ignored as a whole (R149). -/
def i2cStream (first last : Bool) (clocks : Nat) (s : State) : State :=
  if first || s.host.stream.isSome then leaveAt 0x0200 (streamPiece 9 first last clocks s) else s

/-- An I²C read of n clocks from an address, or from where the last transfer ended; at 0x0200 it is a stream read (R636). -/
def i2cRead (addr : Option Nat) (n : Nat) (s : State) : State :=
  let a := addr.getD s.host.i2cNext
  if a = 0x0200 then i2cStream true true n s else leaveAt (a + wholeBytes 9 n) (shiftQuay 9 a n (beginFrame s))

/-- A piece of an I²C stream read; where it begins at another address it is a plain read (R636). -/
def i2cStreamPiece (addr : Option Nat) (first last : Bool) (clocks : Nat) (s : State) : State :=
  if first && addr.getD s.host.i2cNext != 0x0200 then i2cRead addr clocks s else i2cStream first last clocks s

/-! ### The backlog -/

/-- HELD_RECORD_PLACE: held records are numbered and placed in release order for as long as they can be (R645). -/
def heldRecordPlace (s : State) : State := placeHeld s.host.held.length s

/-- BACKLOG_REFILL: in Slack or Spring the head of the backlog moves to a free Outbox entry (R640). -/
def backlogRefill (s : State) : State := if s.tide.power = .neap then s else refillOne s

/-! ### Commands -/

/-- READ (R630) -/
def execRead (timed : Bool) (a : BitVec 16) (n : Nat) (s : State) : Host.Outcome State Fault Refusal :=
  .next (inService s (spi timed (spiRead a.toNat (8 * n))))
/-- WRITE: its operand is the words that the frame's bits make, each byte most significant bit first and each word's lowest byte
first (R9, R633) -/
def execWrite (timed : Bool) (a : BitVec 16) (ws : List Word) (_extra : Nat) (s : State) : Host.Outcome State Fault Refusal :=
  .next (inService s (spi timed (spiWrite a.toNat ws)))
/-- STREAM (R642) -/
def execStream (timed : Bool) (a : BitVec 16) (first last : Bool) (bits : Nat) (s : State) : Host.Outcome State Fault Refusal :=
  .next (inService s (spi timed (spiStream a.toNat first last bits)))
/-- UNKNOWN_COMMAND (R629) -/
def execUnknownCommand (timed : Bool) (cmd : BitVec 8) (s : State) : Host.Outcome State Fault Refusal :=
  .next (inService s (spi timed (spiUnknown cmd.toNat)))
/-- I2C_WRITE_TRANSFER: its operand is the bytes that the transfer's bits make, most significant first (R10, R636) -/
def execI2cWriteTransfer (t : BitVec 7) (a : BitVec 16) (bs : List Byte) (s : State) : Host.Outcome State Fault Refusal :=
  .next (inService s (i2c t (i2cWrite a.toNat bs)))
/-- I2C_READ_TRANSFER (R636) -/
def execI2cReadTransfer (t : BitVec 7) (a : Option (BitVec 16)) (n : Nat) (s : State) : Host.Outcome State Fault Refusal :=
  .next (inService s (i2c t (i2cRead (a.map (·.toNat)) (9 * n))))
/-- I2C_STREAM_READ (R644) -/
def execI2cStreamRead (t : BitVec 7) (a : Option (BitVec 16)) (first last : Bool) (clocks : Nat) (s : State) :
    Host.Outcome State Fault Refusal :=
  .next (inService s (i2c t (i2cStreamPiece (a.map (·.toNat)) first last clocks)))
/-- HELD_RECORD_PLACE (R645) -/
def execHeldRecordPlace (s : State) : Host.Outcome State Fault Refusal := .next (inService s heldRecordPlace)
/-- BACKLOG_REFILL (R640) -/
def execBacklogRefill (s : State) : Host.Outcome State Fault Refusal := .next (inService s backlogRefill)

end Sys2Proof.Machine
end

