-- ==== Sys2Proof/Machine/Mailbox.lean ====
section
/-! DEFINITION. Machine/Mailbox.lean: the mailbox commands (20, R654 to R657): the watch commands, calibration, adaptation,
OTP programming, STATS and SHUTDOWN. -/
namespace Sys2Proof.Machine
open Sys2Proof

/-! ### Execution -/

/-- The device may execute the command at the front: none executes, the boot has reached Neap, no job is in Spring (R150, R654). -/
def State.mbxReady (s : State) : Bool := s.host.mbxRun.isNone && !s.sys.firstNeapDue && decide (s.tide.power ≠ .spring)

/-- Take the front command off the queue and make it the one that executes, in Slack (R654). -/
def beginMbx (c : MbxCmd) (rest : List MbxCmd) (s : State) : State :=
  let s := wake s
  { s with host := { s.host with mbx := rest, mbxRun := some c } }

/-- Execute the front command if it is of the wanted kind. After a failed boot every command but STATS and READ_CAL completes
with NO_IMAGE (R152, R656). -/
def mbxExec (want : MbxCmd → Bool) (always : Bool) (f : List Word → State → State) (s : State) : State :=
  match s.host.mbx with
  | c :: rest =>
    if want c && s.mbxReady then
      let s := beginMbx c rest s
      if s.sys.fail ≠ 0 && !always then mbxComplete 0x13 none s else f c.args s
    else s
  | [] => s

/-- The command has this CMD code. -/
def isCmd (code : Nat) (c : MbxCmd) : Bool := decide (c.cmd = code)

/-- Arguments hold no bit outside their masks; arguments beyond the masks must be 0 (R655). -/
def argsOk (masks : List Nat) (args : List Word) : Bool :=
  (List.range 8).all (fun i => (args.getD i 0).toNat &&& masks.getD i 0 == (args.getD i 0).toNat)

/-- Complete with UNKNOWN where an unused bit is set, else go on (R655, R656). -/
def checked (masks : List Nat) (f : List Word → State → State) (args : List Word) (s : State) : State :=
  if argsOk masks args then f args s else mbxComplete 0x10 none s

/-- Complete with OK. -/
def mbxOk (s : State) : State := mbxComplete 0 none s

/-- A command on a watch: ARG0 [9:0]; NO_WATCH where the table has none (R655, R656). -/
def watchCommand (f : Watch → State → State) (args : List Word) (s : State) : State :=
  checked [0x3FF] (fun args s =>
    match s.watch? (fld (args.getD 0 0).toNat 0 10) with
    | some w => f w s
    | none => mbxComplete 0x11 none s) args s

/-! ### The commands -/

/-- NOP: the Outbox is filled from the backlog (R640, R655). -/
def mbxNop (args : List Word) (s : State) : State := checked [] (fun _ s => mbxOk (refill 64 s)) args s

/-- TRIGGER_WATCH: due now for an ARMED or busy watch; a watch that ignores triggers refuses it (R48, R49). -/
def mbxTrigger (w : Watch) (s : State) : State :=
  if w.state = .dormant || w.state = .faulted || (w.state = .done && w.flag 2) then mbxComplete 0x12 none s
  else mbxOk (trigger w.entry.num s.sys.tick 0 false s)

/-- ARM (R54, R55): DORMANT, a DONE one-shot and a watch FAULTED at run time become ARMED, and a pending trigger starts its job. -/
def mbxArm (w : Watch) (s : State) : State :=
  let n := w.entry.num
  let arm := fun (s : State) => mbxOk (startPending n (keepVpix s (s.modWatch n (fun w => { w with state := .armed, faultCode := 0 }))))
  match w.state with
  | .dormant => arm s
  | .done => if w.flag 2 then arm s else mbxOk s
  | .faulted => if w.faultCode < 0x20 then mbxComplete 0x12 none s else arm s
  | _ => mbxOk s

/-- Disarm one watch (R54, R63): an ARMED or DONE watch drops its triggers, a waiting job is abandoned, a running one finishes
first; the last two keep a pending trigger. -/
def disarmWatch (n : Nat) (s : State) : State :=
  match s.watch? n with
  | none => s
  | some w =>
    let admitted := match w.job with
      | some j => j.inSpring
      | none => false
    match w.state with
    | .armed | .done =>
      s.modWatch n (fun w => { w with state := .dormant, pending := false, held := none, heldGpio := false, groupWait := false })
    | .waitingEnergy | .checkpointed =>
      if admitted then s.modJob n (fun j => { j with disarm := true }) else abandon n 6 .dormant s
    | .running => s.modJob n (fun j => { j with disarm := true })
    | _ => s

/-- DISARM (R54, R656). -/
def mbxDisarm (w : Watch) (s : State) : State :=
  if w.state = .faulted then mbxComplete 0x12 none s else mbxOk (disarmWatch w.entry.num s)

/-- A unit of the calibration copy in force; 64 zero bytes where there is none (R700). -/
def State.calUnit (s : State) (u : Nat) : List Byte :=
  match s.force 0 with
  | some (t, _) => if u ≤ 390 then rdBytes s.strand.data (slotAddr 0 t + 64 * u) 64 else zeros 64
  | none => zeros 64

/-- READ_CAL (R655, R700). -/
def mbxReadCal (args : List Word) (s : State) : State :=
  checked [0x3FF] (fun args s => mbxComplete 0 (some (s.calUnit (fld (args.getD 0 0).toNat 0 10))) s) args s

/-- RUNTIME bytes of a watch (R42). -/
def Watch.runtime (w : Watch) : List Byte :=
  leBytes w.nextSeq 2 ++ zeros 2 ++ leBytes w.jobs 4 ++ leBytes w.missed 4 ++ leBytes w.replays 4 ++ leBytes w.checkpoints 4 ++
  leBytes w.faultCode 2 ++ leBytes w.lastDue 6 ++ zeros 36

/-- STATS (R42, R655). -/
def mbxStats (w : Watch) (s : State) : State := mbxComplete 0 (some w.runtime) s

/-- A calibration command: unused bits of the arguments that R310 does not name complete with UNKNOWN. -/
def calCommand (masks : List Nat) (f : List Word → State → State) (args : List Word) (s : State) : State := checked masks f args s

/-! ### ADAPT_LABEL (R519, R520) -/

/-- Every bit of a word. -/
def allBits : Nat := 0xFFFFFFFF

/-- OP of an ADAPT_LABEL command (R519). -/
def labelOp (args : List Word) : Nat := fld (args.getD 0 0).toNat 16 2

/-- Bits that an operation may set (R519). -/
def labelMasks (op : Nat) : List Nat := if op = 0 then [0x303FF, allBits, 0xFF] else [0x303FF]

/-- Run an operation on its watch once the watch and the arguments are good (R520). -/
def labelCommand (f : Watch → AdaptBlock → List Word → State → State) (args : List Word) (s : State) : State :=
  match s.watch? (fld (args.getD 0 0).toNat 0 10) with
  | some w =>
    match s.adaptBlock? w with
    | some b =>
      if w.state = .faulted || !w.flag 6 then labelComplete 1 s
      else if labelOp args = 3 || !argsOk (labelMasks (labelOp args)) args then labelComplete 4 s
      else f w b args s
    | none => labelComplete 1 s
  | none => labelComplete 1 s

/-- The ring entry that holds a number, the lowest one (R518, R519). -/
def State.ringEntry? (s : State) (w : Watch) (b : AdaptBlock) (num : Nat) : Option Nat :=
  (List.range b.ringLen).find? (fun e =>
    let a := ringAddr w b (s.headShape w b).1 e
    s.hbr (a + 4) 1 != 0 && s.hbr a 4 == num)

/-- LABEL: the step joins the queue, and the command completes when it has run (R519, R520). -/
def opLabel (w : Watch) (b : AdaptBlock) (args : List Word) (s : State) : State :=
  let sh := s.headShape w b
  let cls := fld (args.getD 2 0).toNat 0 8
  adaptRead ((w.entry.hbrBase + b.headDesc, 64) :: (List.range b.ringLen).map (fun e => (ringAddr w b sh.1 e, 64)))
    (labelComplete 2) (fun s =>
  match s.ringEntry? w b (args.getD 1 0).toNat with
  | none => labelComplete 2 s
  | some e =>
    let a := ringAddr w b sh.1 e
    if sh.2 ≤ cls then labelComplete 3 s
    else if s.hbr (a + 4) 1 = 2 || s.hbr (a + 4) 1 = 4 then labelComplete 5 s
    else queueLabel w.entry.num e cls true (markEntry a true s)) s

/-- REVERT: the state area from the image, a pending service buffer, and a commit at once (R519, R524, R525). -/
def opRevert (w : Watch) (b : AdaptBlock) (_ : List Word) (s : State) : State :=
  let n := w.entry.num
  let act := (w.adapt.getD {}).activeB
  adaptRead (imageReads w b s) (labelComplete 2) (fun s =>
  let s := s.putHbrWhole (s.adaptArea w b).base (imageState w b s)
  let r := writeService w b (!act) s
  let s := r.1.modWatch n (fun w => { w with adapt := w.adapt.map (fun a => { a with pending := true }) })
  commitHead w b true (emitAdapt w (adaptDraft n 0 0 0 3 r.2) s)) s

/-- RESTART_BASELINE: BASE_COUNT becomes 0 (R519). -/
def opRestart (w : Watch) (b : AdaptBlock) (_ : List Word) (s : State) : State :=
  labelComplete 0 (s.putHbr (w.entry.hbrBase + b.stateOff + 12) (zeros 2))

/-- The front command is ADAPT_LABEL with one of these operations. -/
def isLabel (ops : List Nat) (c : MbxCmd) : Bool := decide (c.cmd = 0x20) && ops.contains (labelOp c.args)

/-- A commit of the head slot of the front command's watch runs or waits, so a REVERT waits too (R704). -/
def State.slotBusy (s : State) : Bool :=
  match s.host.mbx with
  | c :: _ =>
    match (s.watch? (fld (c.args.getD 0 0).toNat 0 10)).bind s.adaptBlock? with
    | some b => s.committing (1 + b.slot)
    | none => false
  | [] => false

/-! ### OTP commands -/

/-- Bits of ARG0 to ARG7 that OTP_PROGRAM names (R206). -/
def programMasks : List Nat := [0x0707FFFF, allBits, allBits, allBits, allBits, allBits, allBits, allBits]

/-- Bits that LIFECYCLE_ADVANCE names (R206). -/
def advanceMasks : List Nat := [7, 0, 0, 0, 0, 0, 0, allBits]

/-- A mailbox OTP command waits until one may run (R199). -/
def otpCommand (code : Nat) (masks : List Nat) (f : List Word → State → State) (s : State) : State :=
  if s.tide.coreEn || s.otp.run.isSome then s else mbxExec (isCmd code) false (checked masks f) s

/-! ### SHUTDOWN (R657) -/

/-- SHUTDOWN: every watch is disarmed; SHUTDOWN_COMPLETE ends the command. -/
def mbxShutdown (args : List Word) (s : State) : State :=
  checked [allBits, 0, 0, 0, 0, 0, 0, allBits] (fun args s =>
    if args.getD 0 0 ≠ 0 || args.getD 7 0 ≠ 0xFFFFFFFF then mbxComplete 0x14 none s
    else
      let s := (s.watches.map (fun w => w.entry.num)).foldl (fun s n => disarmWatch n s) s
      { s with shutdown := some (match s.host.mbxRun with
          | some c => c.tag
          | none => 0) }) args s

/-- The running job has ended, and every commit: what SHUTDOWN waits for (R657, R705). -/
def State.shutdownMayEnd (s : State) : Bool :=
  s.shutdown.isSome && s.watches.all (fun w => !w.state.busy) && s.strand.run.isNone && s.strand.commits.isEmpty

/-- SHUTDOWN_COMPLETE: the power functions fall, the EVENT goes out, the command completes and the device enters Neap. -/
def shutdownComplete (s : State) : State :=
  if s.shutdownMayEnd then
    let s := { s with shutdown := none,
                      tide := { s.tide with coreEn := false, chgEn := false, pixEn := false },
                      adc := { s.adc with iepeJob := 0, iepeForce := 0 },
                      fresh := { s.fresh with iepe := true } }
    neapEntry (mbxOk (release (noWatchEvent 8 []) s))
  else s

/-! ### Reserved commands -/

/-- CMD codes of R655's table. -/
def mailboxCodes : List Nat := [0x00, 0x01, 0x02, 0x03, 0x10, 0x11, 0x12, 0x13, 0x20, 0x30, 0x31, 0x40, 0x50]

/-- A reserved command at the front completes with UNKNOWN (R656). -/
def mbxReserved (s : State) : State :=
  mbxExec (fun c => !mailboxCodes.contains c.cmd) true (fun _ s => mbxComplete 0x10 none s) s

/-! ### Commands -/

/-- NOP (R655) -/
def execNop (s : State) : Host.Outcome State Fault Refusal := .next (inService s (mbxExec (isCmd 0x00) false mbxNop))
/-- TRIGGER_WATCH (R48) -/
def execTriggerWatch (s : State) : Host.Outcome State Fault Refusal :=
  .next (inService s (mbxExec (isCmd 0x01) false (watchCommand mbxTrigger)))
/-- ARM (R54) -/
def execArm (s : State) : Host.Outcome State Fault Refusal := .next (inService s (mbxExec (isCmd 0x02) false (watchCommand mbxArm)))
/-- DISARM (R54) -/
def execDisarm (s : State) : Host.Outcome State Fault Refusal :=
  .next (inService s (mbxExec (isCmd 0x03) false (watchCommand mbxDisarm)))
/-- CAL_ZERO (R311) -/
def execCalZero (s : State) : Host.Outcome State Fault Refusal :=
  .next (inService s (mbxExec (isCmd 0x10) false (calCommand [allBits] calZero)))
/-- CAL_FULL (R312) -/
def execCalFull (s : State) : Host.Outcome State Fault Refusal :=
  .next (inService s (mbxExec (isCmd 0x11) false (calCommand [allBits, allBits] calFull)))
/-- CAL_COMMIT (R313) -/
def execCalCommit (s : State) : Host.Outcome State Fault Refusal :=
  .next (inService s (mbxExec (isCmd 0x12) false (calCommand [allBits, 0, 0, 0, 0, 0, 0, allBits] calCommit)))
/-- READ_CAL (R700) -/
def execReadCal (s : State) : Host.Outcome State Fault Refusal := .next (inService s (mbxExec (isCmd 0x13) true mbxReadCal))
/-- LABEL (R519); a command with the reserved OP completes here with status OP (R520) -/
def execLabel (s : State) : Host.Outcome State Fault Refusal :=
  .next (inService s (mbxExec (isLabel [0, 3]) false (labelCommand opLabel)))
/-- REVERT (R519) -/
def execRevert (s : State) : Host.Outcome State Fault Refusal :=
  .next (inService s (fun s => if s.slotBusy then s else mbxExec (isLabel [1]) false (labelCommand opRevert) s))
/-- RESTART_BASELINE (R519) -/
def execRestartBaseline (s : State) : Host.Outcome State Fault Refusal :=
  .next (inService s (mbxExec (isLabel [2]) false (labelCommand opRestart)))
/-- OTP_PROGRAM (R207) -/
def execOtpProgram (s : State) : Host.Outcome State Fault Refusal :=
  .next (inService s (otpCommand 0x30 programMasks (fun args => otpProgram args true)))
/-- LIFECYCLE_ADVANCE (R197) -/
def execLifecycleAdvance (s : State) : Host.Outcome State Fault Refusal :=
  .next (inService s (otpCommand 0x31 advanceMasks (fun args => lifecycleAdvance args true)))
/-- STATS (R655) -/
def execStats (s : State) : Host.Outcome State Fault Refusal :=
  .next (inService s (mbxExec (isCmd 0x40) true (watchCommand mbxStats)))
/-- SHUTDOWN (R657) -/
def execShutdown (s : State) : Host.Outcome State Fault Refusal := .next (inService s (mbxExec (isCmd 0x50) false mbxShutdown))
/-- SHUTDOWN_COMPLETE (R657) -/
def execShutdownComplete (s : State) : Host.Outcome State Fault Refusal := .next (inService s shutdownComplete)

end Sys2Proof.Machine
end

