-- ==== Sys2Proof/Machine/Dap.lean ====
section
/-! DEFINITION. Machine/Dap.lean: the TAP and the debug access port (24, R742 to R747). -/
namespace Sys2Proof.Machine
open Sys2Proof

/-! ### The TAP -/

/-- Select a TAP instruction (R743). -/
def selectIr (i : TapIr) (s : State) : State := { s with tap := { s.tap with ir := i } }

/-- EXTEST is there only where the debug access port is open; elsewhere its code selects BYPASS (R742, R743). -/
def extest (s : State) : State := selectIr (if s.dapOpen then .extest else .bypass) s

/-- A 4-bit code of the instruction register selects its instruction; a code that the table does not list selects BYPASS (R743). -/
def selectCode (code : BitVec 4) (s : State) : State :=
  match code.toNat with
  | 0 => extest s
  | 1 => selectIr .idcode s
  | 2 => selectIr .sample s
  | 8 => selectIr .dap s
  | _ => selectIr .bypass s

/-- Bits of a number, least significant first. -/
def lsbFirst (w n : Nat) : List Bool := (List.range w).map (fun i => bitN n i)

/-- The identification register: stepping A1 and part number 0x6120 (R742); bit 0 and the place of the maker's number are those of
IEEE 1149.1 (R18), and the spec does not state that number (log 84). -/
def idcodeWord : Nat := 0x16120001 + 2 * Config.maker.toNat

/-- What the selected data register loads at Capture-DR, in the order in which it shifts out (R742 to R744): the spec states
neither the cells of the boundary-scan register nor their order, so it has no bits here (log 84). -/
def State.captureDr (s : State) : List Bool :=
  match s.tap.ir with
  | .idcode => lsbFirst 32 idcodeWord
  | .bypass => [false]
  | .dap => lsbFirst 72 (s.tap.status + 2 ^ 8 * s.tap.addr.toNat + 2 ^ 40 * s.tap.result.toNat)
  | .sample | .extest => []

/-! ### DAP operations -/

/-- An operation ends with its STATUS, its ADDR and its result (R744). -/
def dapEnd (status : Nat) (addr result : Word) (s : State) : State :=
  { s with tap := { s.tap with status := status, addr := addr, result := result } }

/-- Start a DAP operation other than NOP: BUSY while an OTP_EXEC waits, CLOSED while the port is closed (R744, R745). -/
def dapOp (addr : Word) (f : State → State) (s : State) : State :=
  let s := selectIr .dap s
  if s.tap.wait.isSome then { s with tap := { s.tap with status := 1 } }
  else if !s.dapOpen then dapEnd 2 addr 0 s
  else f s

/-- An address below a bound and a multiple of 4 (R744). -/
def dapAddrOk (addr : Word) (top : Nat) : Bool := decide (addr.toNat < top) && addr.toNat % 4 == 0

/-- NOP: the capture reports the last operation (R744). -/
def dapNop (s : State) : State := selectIr .dap s

/-- QUAY_READ: the word, with no side effect (R632, R744). -/
def dapQuayRead (addr : Word) (s : State) : State :=
  if dapAddrOk addr 0x10000 then dapEnd 0 addr (s.quayWord addr.toNat) s else dapEnd 3 addr 0 s

/-- QUAY_WRITE: a word captured as a host write (R634, R744). -/
def dapQuayWrite (addr data : Word) (s : State) : State :=
  if dapAddrOk addr 0x10000 then dapEnd 0 addr 0 (captureWord addr.toNat data s) else dapEnd 3 addr 0 s

/-- The watch table stands here in the system region (R39, R218). -/
def tableBase : Nat := 0x01F00000

/-- A byte of the watch table: the RUNTIME bytes of an entry are the live ones (R42). -/
def State.tableByte (s : State) (a : Nat) : Byte :=
  let o := a - tableBase
  if o % 256 < 0xC0 then rdByte s.harbour.data a
  else
    match s.watch? (rdLE s.harbour.data (a - o % 256) 2) with
    | some w => w.runtime.getD (o % 256 - 0xC0) 0
    | none => 0

/-- The backlog stands here in the system region (R639). -/
def backlogBase : Nat := 0x01FC0000

/-- The record of the backlog, counted from the oldest, whose 32 bytes hold a Harbour offset (R39, R639; log 60). -/
def State.backlogPlace (s : State) (a : Nat) : Option Nat :=
  if backlogBase ≤ a && decide (a < backlogBase + 0x4000) && decide ((a - backlogBase) / 32 < s.host.backlog.length) then
    some ((a - backlogBase) / 32)
  else none

/-- The word at a Harbour offset as the debug access port reads it, and the state after: the watch table and the backlog are where
R218 and R639 put them; the spec does not say what else of the system region holds what, so there it is a free value (log 60). -/
def memWord (a : Nat) (s : State) : Word × State :=
  if a < tableBase then (BitVec.ofNat 32 (rdLE s.harbour.data a 4), s)
  else if a < tableBase + 0x40000 && s.tableBuilt then
    (BitVec.ofNat 32 (leNat ((List.range 4).map (fun i => s.tableByte (a + i)))), s)
  else
    match s.backlogPlace a with
    | some i => (BitVec.ofNat 32 (leAt ((s.host.backlog.getD i {}).bytes) (a % 32) 4), s)
    | none => (BitVec.ofNat 32 (Config.freeNat s.free), { s with free := s.free + 1 })

/-- A memory operation: refused in Spring; else the device comes into Slack and is held there for 1 s, the bank powers up
(R745, R757), and a single-bit error in the line is corrected (R603); a poisoned line ends it with MEMORY (R744). -/
def memOp (addr : Word) (f : State → State) (s : State) : State :=
  if !dapAddrOk addr hbrBytes then dapEnd 3 addr 0 s
  else if s.tide.power = .spring then dapEnd 5 addr 0 s
  else
    let s := wake s
    let s := { s with tap := { s.tap with slackHold := true, slackTick := s.sys.tick } }
    let s := s.visit addr.toNat 4
    if s.harbour.poisoned (addr.toNat / 64) then dapEnd 4 addr 0 s else f s

/-- MEM_READ (R744, R745). -/
def dapMemRead (addr : Word) (s : State) : State :=
  memOp addr (fun s => let r := memWord addr.toNat s; dapEnd 0 addr r.1 r.2) s

/-- Four bytes at a Harbour offset, where a record of the backlog may stand (R639, R744). -/
def State.putMem (s : State) (a : Nat) (bs : List Byte) : State :=
  match s.backlogPlace a with
  | some i => { s with host := { s.host with backlog := modAt s.host.backlog i (fun e =>
      { e with bytes := e.bytes.take (a % 32) ++ bs ++ e.bytes.drop (a % 32 + 4) }) } }
  | none => s.putHbr a bs

/-- MEM_WRITE: the word, and the line keeps its tag (R744, R745). -/
def dapMemWrite (addr data : Word) (s : State) : State :=
  memOp addr (fun s => dapEnd 0 addr 0 (s.putMem addr.toNat (leBytes data.toNat 4))) s

/-- OTP_ARG: DAP argument n (R744). -/
def dapArg (addr data : Word) (s : State) : State :=
  if addr.toNat < 8 then dapEnd 0 addr 0 { s with tap := { s.tap with args := setAt s.tap.args addr.toNat data } }
  else dapEnd 3 addr 0 s

/-- Run an accepted OTP command on the DAP arguments, in Slack (R199, R747). -/
def dapRunOtp (code : Nat) (s : State) : State :=
  if code = 0x30 then otpProgram s.tap.args false s else lifecycleAdvance s.tap.args false s

/-- An accepted OTP_EXEC that waits for Slack starts (R199, R747). -/
def dapStartOtp (s : State) : State :=
  match s.tap.wait with
  | some code =>
    if s.tide.power ≠ .spring then
      let s := wake s
      if s.otpMayRun then dapRunOtp code { s with tap := { s.tap with wait := none } } else s
    else s
  | none => s

/-- OTP_EXEC: accepted with OK, in every boot stage; it runs once the device is in Slack (R744, R747). -/
def dapExec (addr : Word) (s : State) : State :=
  if addr = 0x30 || addr = 0x31 then
    dapStartOtp { dapEnd 0 addr 0 s with tap := { (dapEnd 0 addr 0 s).tap with wait := some addr.toNat } }
  else dapEnd 3 addr 0 s

/-- BOOT_RELEASE: a BOOT_HOLD wait ends; in any other stage nothing happens (R746). -/
def dapBootRelease (s : State) : State := dapEnd 0 0 0 (if s.atStage 0x03 then toStage 0x04 s else s)

/-- DAP_SLACK_EXPIRY: 1 s after the last DAP memory operation, the device is no longer held in Slack (R745). -/
def slackExpiry (s : State) : State := { s with tap := { s.tap with slackHold := false } }

/-- A reserved operation completes with RANGE (R744). -/
def dapReserved (op : BitVec 4) (addr : Word) (s : State) : State :=
  if op.getLsbD 3 then dapOp addr (dapEnd 3 addr 0) s else s

/-! ### Commands -/

/-- DAP_NOP (R744) -/
def execDapNop (s : State) : Host.Outcome State Fault Refusal := .next (inService s dapNop)
/-- QUAY_READ (R744) -/
def execQuayRead (a : Word) (s : State) : Host.Outcome State Fault Refusal := .next (inService s (dapOp a (dapQuayRead a)))
/-- QUAY_WRITE (R744) -/
def execQuayWrite (a d : Word) (s : State) : Host.Outcome State Fault Refusal := .next (inService s (dapOp a (dapQuayWrite a d)))
/-- MEM_READ (R745) -/
def execMemRead (a : Word) (s : State) : Host.Outcome State Fault Refusal := .next (inService s (dapOp a (dapMemRead a)))
/-- MEM_WRITE (R745) -/
def execMemWrite (a d : Word) (s : State) : Host.Outcome State Fault Refusal := .next (inService s (dapOp a (dapMemWrite a d)))
/-- OTP_ARG (R744) -/
def execOtpArg (a d : Word) (s : State) : Host.Outcome State Fault Refusal := .next (inService s (dapOp a (dapArg a d)))
/-- OTP_EXEC (R747) -/
def execOtpExec (a : Word) (s : State) : Host.Outcome State Fault Refusal := .next (inService s (dapOp a (dapExec a)))
/-- DAP_RESERVED_OP (R744) -/
def execDapReservedOp (op : BitVec 4) (a _d : Word) (s : State) : Host.Outcome State Fault Refusal :=
  .next (inService s (dapReserved op a))
/-- BOOT_RELEASE (R746) -/
def execBootRelease (s : State) : Host.Outcome State Fault Refusal := .next (inService s (dapOp 0 dapBootRelease))
/-- DAP_SLACK_EXPIRY (R745) -/
def execDapSlackExpiry (s : State) : Host.Outcome State Fault Refusal := .next (inService s slackExpiry)
/-- EXTEST (R743) -/
def execExtest (s : State) : Host.Outcome State Fault Refusal := .next (selectCode 0 s)
/-- IDCODE (R742) -/
def execIdcode (s : State) : Host.Outcome State Fault Refusal := .next (selectCode 1 s)
/-- SAMPLE_PRELOAD (R743) -/
def execSamplePreload (s : State) : Host.Outcome State Fault Refusal := .next (selectCode 2 s)
/-- BYPASS (R743): its own code or one that the table does not list -/
def execBypass (code : BitVec 4) (s : State) : Host.Outcome State Fault Refusal := .next (selectCode code s)

end Sys2Proof.Machine
end

