-- ==== Sys2Proof/Machine/Tick.lean ====
section
/-! DEFINITION. Machine/Tick.lean: what one LFCLK tick does by itself (log 1): the counters that count ticks and the time limits
they reach (R12, R57, R102, R126, R638, R745), the standing alarms (R721), the registering of HOST_IRQ (R638), a reserved
mailbox command (R656) and an OTP_EXEC that waited for Slack (R199). What the table has a row for, such as a due trigger or the
sampling of the pins, comes as that command. -/
namespace Sys2Proof.Machine
open Sys2Proof

/-- The tick counter, 48 bits (R12). A new tick has no device updates of its own yet (R712; log 87). -/
def countTick (s : State) : State := { s with sys := { s.sys with tick := (s.sys.tick + 1) % 2 ^ 48 }, fresh := {} }

/-- The watchdog counts a tick while the system controller runs: armed, not in Neap, where it pauses (R162). While the boot holds,
the boot ROM restarts it (R746); the firmware restarts it at ticks that the spec does not state, which is free (R163, log 77). -/
def countWatchdog (s : State) : State :=
  if s.controllerRuns then
    let kicks := s.atStage 0x03 || (decide (0x08 ≤ s.sys.stage.toNat) && Config.firmwareKicks s.sys.tick)
    { s with sys := { s.sys with wdtCount := if kicks then 0 else satAdd s.sys.wdtCount 1 32768 } }
  else s

/-- The single-bit errors of the SRAM and the Crossing parity errors that a retry has cleared are counted (R601, R602; log 79). -/
def countUpsets (s : State) : State :=
  { s with err := { s.err with eccOther := satAdd s.err.eccOther s.sys.upset 0xFF }, sys := { s.sys with upset := 0 } }

/-- TIDE_THROTTLE_TICKS counts ticks with the thermal cap in force (R126). -/
def countThrottle (s : State) : State :=
  if s.tide.thermalCap < 3 then
    { s with tide := { s.tide with throttleTicks := satAdd s.tide.throttleTicks 1 0xFFFFFFFF } }
  else s

/-- The job of a watch waits for admission (R57). -/
def Watch.waits (w : Watch) : Bool :=
  (decide (w.state = .waitingEnergy) || decide (w.state = .checkpointed)) &&
  match w.job with
  | some j => !j.inSpring
  | none => false

/-- One tick of the waits for admission; one that reaches ADMIT_TIMEOUT ends (R57). -/
def countWaits (s : State) : State :=
  let ns := (s.watches.filter (fun w => w.waits)).map (fun w => w.entry.num)
  let s := ns.foldl (fun s n => s.modJob n (fun j => { j with waitTicks := j.waitTicks + 1 })) s
  (s.watches.filter (fun w => w.waits && decide (w.entry.admitTimeout ≠ 0) && (match w.job with
    | some j => decide (w.entry.admitTimeout ≤ j.waitTicks)
    | none => false))).foldl (fun s w => admitTimeout w.entry.num s) s

/-- A standing cause sets its bit again at a tick, with its event-log entry (R624, R720, R721). -/
def standAlarm (source b : Nat) (holds : Bool) (s : State) : State :=
  if holds && !s.sys.alarm.getLsbD b then
    let s := logEntry { cls := 5, source := source, code := b } s
    let bit := BitVec.ofNat 11 (2 ^ b)
    { s with sys := { s.sys with alarm := s.sys.alarm ||| bit }, fresh := { s.fresh with alarm := s.fresh.alarm ||| bit } }
  else s

/-- A used port of the Causeway is DOWN (R719). -/
def State.portDown (s : State) : Bool := s.usedPorts.any (fun p => decide ((s.port p).state = .down))

/-- The standing conditions (R721): POWER_BLOCK, LINK, STRAND and PIN_MAP, once the boot has read what they rest on. -/
def standingAlarms (s : State) : State :=
  let s := standAlarm (alarmSource 3) 3 (s.booted && s.tide.block.isNone) s
  let s := standAlarm (alarmSource 7) 7 s.portDown s
  let s := standAlarm (alarmSource 8) 8 (s.strand.recovered && decide (s.strand.calSrc ≠ 0)) s
  standAlarm (alarmSource 10) 10 (s.gpio.mapApplied && s.wakeUnrouted) s

/-- The pulse of HOST_IRQ ends at its tick (R638). -/
def pulseTick (s : State) : State :=
  match s.host.pulseEnd with
  | some t => if t ≤ s.sys.tick then irqPulseEnd s else s
  | none => s

/-- 1 s after the last debug memory operation the hold in Slack ends (R745). -/
def slackTick (s : State) : State :=
  if s.tap.slackHold && decide (s.tap.slackTick + 32768 ≤ s.sys.tick) then slackExpiry s else s

/-- What a tick does to a device that is not in reset. -/
def tickActs (s : State) : State :=
  let s := dapStartOtp (mbxReserved (slackTick s))
  let s := countWaits (countThrottle (stallTick (countWatchdog (countUpsets s))))
  registerIrq (pulseTick (standingAlarms s))

/-- One tick of LFCLK. -/
def tick (s : State) : State := inService (countTick s) tickActs

end Sys2Proof.Machine
end

