-- ==== Sys2Proof/Machine/Dispatch.lean ====
section
/-! DEFINITION. Machine/Dispatch.lean: the meaning of every command, one arm a command. -/
namespace Sys2Proof.Machine
open Sys2Proof

/-- The effect of a command on everything but the queue. -/
def exec (i : Instr) (s : State) : Host.Outcome State Fault Refusal :=
  match i with
  | .read timed addr n => Sys2Proof.Machine.execRead timed addr n s
  | .write timed addr words extra => Sys2Proof.Machine.execWrite timed addr words extra s
  | .stream timed addr first last bits => Sys2Proof.Machine.execStream timed addr first last bits s
  | .unknownCommand timed cmd => Sys2Proof.Machine.execUnknownCommand timed cmd s
  | .i2cWriteTransfer target addr bytes => Sys2Proof.Machine.execI2cWriteTransfer target addr bytes s
  | .i2cReadTransfer target addr n => Sys2Proof.Machine.execI2cReadTransfer target addr n s
  | .i2cStreamRead target addr first last clocks => Sys2Proof.Machine.execI2cStreamRead target addr first last clocks s
  | .registerWrite addr v => Sys2Proof.Machine.execRegisterWrite addr v s
  | .sysSoftReset v => Sys2Proof.Machine.execSysSoftReset v s
  | .sysAlarm v => Sys2Proof.Machine.execSysAlarm v s
  | .sysLogCtrl v => Sys2Proof.Machine.execSysLogCtrl v s
  | .obxPop v => Sys2Proof.Machine.execObxPop v s
  | .obxIrq v => Sys2Proof.Machine.execObxIrq v s
  | .obxIrqStatus v => Sys2Proof.Machine.execObxIrqStatus v s
  | .mbxStatus v => Sys2Proof.Machine.execMbxStatus v s
  | .chgInhibit v => Sys2Proof.Machine.execChgInhibit v s
  | .clkCap v => Sys2Proof.Machine.execClkCap v s
  | .capMismatch v => Sys2Proof.Machine.execCapMismatch v s
  | .gpioOut v => Sys2Proof.Machine.execGpioOut v s
  | .gpioOe v => Sys2Proof.Machine.execGpioOe v s
  | .gpioPin p v => Sys2Proof.Machine.execGpioPin p v s
  | .gpioPilsel v => Sys2Proof.Machine.execGpioPilsel v s
  | .gpioPilcfg v => Sys2Proof.Machine.execGpioPilcfg v s
  | .gpioPilStatus v => Sys2Proof.Machine.execGpioPilStatus v s
  | .gpioAlarmStatus v => Sys2Proof.Machine.execGpioAlarmStatus v s
  | .adcIepe v => Sys2Proof.Machine.execAdcIepe v s
  | .forceAwake v => Sys2Proof.Machine.execForceAwake v s
  | .otpLockRd v => Sys2Proof.Machine.execOtpLockRd v s
  | .otpLockWr v => Sys2Proof.Machine.execOtpLockWr v s
  | .otpReadAddr v => Sys2Proof.Machine.execOtpReadAddr v s
  | .learn v => Sys2Proof.Machine.execLearn v s
  | .pixSentCfg v => Sys2Proof.Machine.execPixSentCfg v s
  | .otpWordProgrammed normal high => Sys2Proof.Machine.execOtpWordProgrammed normal high s
  | .fatal code => Sys2Proof.Machine.execFatal code s
  | .thermalResetEnd temp => Sys2Proof.Machine.execThermalResetEnd temp s
  | .resetRelease straps => Sys2Proof.Machine.execResetRelease straps s
  | .flashProbe reply => Sys2Proof.Machine.execFlashProbe reply s
  | .manifestCheck bytes => Sys2Proof.Machine.execManifestCheck bytes s
  | .manifestReread bytes => Sys2Proof.Machine.execManifestReread bytes s
  | .recordCopy bytes => Sys2Proof.Machine.execRecordCopy bytes s
  | .recordRecopy bytes => Sys2Proof.Machine.execRecordRecopy bytes s
  | .harbourBankPowerUp bank => Sys2Proof.Machine.execHarbourBankPowerUp bank s
  | .reservoirSample rsvMv vbatMv => Sys2Proof.Machine.execReservoirSample rsvMv vbatMv s
  | .vbatSample vbatMv => Sys2Proof.Machine.execVbatSample vbatMv s
  | .tempSample coarse => Sys2Proof.Machine.execTempSample coarse s
  | .admissionRequest watch => Sys2Proof.Machine.execAdmissionRequest watch s
  | .meterCharge us c0 c1 c2 c3 => Sys2Proof.Machine.execMeterCharge us c0 c1 c2 c3 s
  | .admitTimeout watch => Sys2Proof.Machine.execAdmitTimeout watch s
  | .inputAcquire watch => Sys2Proof.Machine.execInputAcquire watch s
  | .groupRelease watch => Sys2Proof.Machine.execGroupRelease watch s
  | .scrub lines single double => Sys2Proof.Machine.execScrub lines single double s
  | .exposureEnd period => Sys2Proof.Machine.execExposureEnd period s
  | .pixelRow black raw => Sys2Proof.Machine.execPixelRow black raw s
  | .sentinelFrame rows => Sys2Proof.Machine.execSentinelFrame rows s
  | .adcBandgapCheck sum => Sys2Proof.Machine.execAdcBandgapCheck sum s
  | .adcBlockComplete chain first clocks => Sys2Proof.Machine.execAdcBlockComplete chain first clocks s
  | .calMeasurementDone sum ovr => Sys2Proof.Machine.execCalMeasurementDone sum ovr s
  | .partialResetRelease unit => Sys2Proof.Machine.execPartialResetRelease unit s
  | .drainTimeout unit => Sys2Proof.Machine.execDrainTimeout unit s
  | .bundleIssue core => Sys2Proof.Machine.execBundleIssue core s
  | .br core w imm => Sys2Proof.Machine.execBr core w imm s
  | .brs core w imm => Sys2Proof.Machine.execBrs core w imm s
  | .loop core w imm => Sys2Proof.Machine.execLoop core w imm s
  | .halt core w imm => Sys2Proof.Machine.execHalt core w imm s
  | .add core w imm => Sys2Proof.Machine.execAdd core w imm s
  | .sub core w imm => Sys2Proof.Machine.execSub core w imm s
  | .mul core w imm => Sys2Proof.Machine.execMul core w imm s
  | .mulh core w imm => Sys2Proof.Machine.execMulh core w imm s
  | .mulhu core w imm => Sys2Proof.Machine.execMulhu core w imm s
  | .and core w imm => Sys2Proof.Machine.execAnd core w imm s
  | .or core w imm => Sys2Proof.Machine.execOr core w imm s
  | .xor core w imm => Sys2Proof.Machine.execXor core w imm s
  | .shl core w imm => Sys2Proof.Machine.execShl core w imm s
  | .shr core w imm => Sys2Proof.Machine.execShr core w imm s
  | .sra core w imm => Sys2Proof.Machine.execSra core w imm s
  | .min core w imm => Sys2Proof.Machine.execMin core w imm s
  | .max core w imm => Sys2Proof.Machine.execMax core w imm s
  | .minu core w imm => Sys2Proof.Machine.execMinu core w imm s
  | .maxu core w imm => Sys2Proof.Machine.execMaxu core w imm s
  | .mov core w imm => Sys2Proof.Machine.execMov core w imm s
  | .cmpeq core w imm => Sys2Proof.Machine.execCmpeq core w imm s
  | .cmpne core w imm => Sys2Proof.Machine.execCmpne core w imm s
  | .cmplt core w imm => Sys2Proof.Machine.execCmplt core w imm s
  | .cmple core w imm => Sys2Proof.Machine.execCmple core w imm s
  | .cmpltu core w imm => Sys2Proof.Machine.execCmpltu core w imm s
  | .cmpleu core w imm => Sys2Proof.Machine.execCmpleu core w imm s
  | .pand core w imm => Sys2Proof.Machine.execPand core w imm s
  | .pxor core w imm => Sys2Proof.Machine.execPxor core w imm s
  | .pnot core w imm => Sys2Proof.Machine.execPnot core w imm s
  | .mfa core w imm => Sys2Proof.Machine.execMfa core w imm s
  | .rdfl core w imm => Sys2Proof.Machine.execRdfl core w imm s
  | .lcrd core w imm => Sys2Proof.Machine.execLcrd core w imm s
  | .aadd core w imm => Sys2Proof.Machine.execAadd core w imm s
  | .amadd core w imm => Sys2Proof.Machine.execAmadd core w imm s
  | .amov core w imm => Sys2Proof.Machine.execAmov core w imm s
  | .amovs core w imm => Sys2Proof.Machine.execAmovs core w imm s
  | .ld core w imm => Sys2Proof.Machine.execLd core w imm s
  | .st core w imm => Sys2Proof.Machine.execSt core w imm s
  | .ldtag core w imm => Sys2Proof.Machine.execLdtag core w imm s
  | .sttag core w imm => Sys2Proof.Machine.execSttag core w imm s
  | .copyIn core w imm => Sys2Proof.Machine.execCopyIn core w imm s
  | .copyOut core w imm => Sys2Proof.Machine.execCopyOut core w imm s
  | .streamFetch core w imm => Sys2Proof.Machine.execStreamFetch core w imm s
  | .imem core w imm => Sys2Proof.Machine.execImem core w imm s
  | .dmaComplete core n block reread => Sys2Proof.Machine.execDmaComplete core n block reread s
  | .mm core w imm => Sys2Proof.Machine.execMm core w imm s
  | .conv core w imm => Sys2Proof.Machine.execConv core w imm s
  | .aclr core w imm => Sys2Proof.Machine.execAclr core w imm s
  | .vadd core w imm => Sys2Proof.Machine.execVadd core w imm s
  | .vsub core w imm => Sys2Proof.Machine.execVsub core w imm s
  | .vmul core w imm => Sys2Proof.Machine.execVmul core w imm s
  | .vmla core w imm => Sys2Proof.Machine.execVmla core w imm s
  | .vmin core w imm => Sys2Proof.Machine.execVmin core w imm s
  | .vmax core w imm => Sys2Proof.Machine.execVmax core w imm s
  | .vabs core w imm => Sys2Proof.Machine.execVabs core w imm s
  | .vneg core w imm => Sys2Proof.Machine.execVneg core w imm s
  | .vand core w imm => Sys2Proof.Machine.execVand core w imm s
  | .vor core w imm => Sys2Proof.Machine.execVor core w imm s
  | .vxor core w imm => Sys2Proof.Machine.execVxor core w imm s
  | .vshl core w imm => Sys2Proof.Machine.execVshl core w imm s
  | .vshr core w imm => Sys2Proof.Machine.execVshr core w imm s
  | .vsra core w imm => Sys2Proof.Machine.execVsra core w imm s
  | .vaddsat core w imm => Sys2Proof.Machine.execVaddsat core w imm s
  | .vcmpeq core w imm => Sys2Proof.Machine.execVcmpeq core w imm s
  | .vcmplt core w imm => Sys2Proof.Machine.execVcmplt core w imm s
  | .vcmple core w imm => Sys2Proof.Machine.execVcmple core w imm s
  | .vcvtif core w imm => Sys2Proof.Machine.execVcvtif core w imm s
  | .vcvtfi core w imm => Sys2Proof.Machine.execVcvtfi core w imm s
  | .vperm core w imm => Sys2Proof.Machine.execVperm core w imm s
  | .vbcast core w imm => Sys2Proof.Machine.execVbcast core w imm s
  | .vred core w imm => Sys2Proof.Machine.execVred core w imm s
  | .vmovs core w imm => Sys2Proof.Machine.execVmovs core w imm s
  | .vld core w imm => Sys2Proof.Machine.execVld core w imm s
  | .vst core w imm => Sys2Proof.Machine.execVst core w imm s
  | .rqa core w imm => Sys2Proof.Machine.execRqa core w imm s
  | .rqv core w imm => Sys2Proof.Machine.execRqv core w imm s
  | .pool core w imm => Sys2Proof.Machine.execPool core w imm s
  | .gpool core w imm => Sys2Proof.Machine.execGpool core w imm s
  | .crop core w imm => Sys2Proof.Machine.execCrop core w imm s
  | .fenceCore core w imm => Sys2Proof.Machine.execFenceCore core w imm s
  | .fenceChip core w imm => Sys2Proof.Machine.execFenceChip core w imm s
  | .fenceSys core w imm => Sys2Proof.Machine.execFenceSys core w imm s
  | .acqChip core w imm => Sys2Proof.Machine.execAcqChip core w imm s
  | .acqSys core w imm => Sys2Proof.Machine.execAcqSys core w imm s
  | .ldw core w imm => Sys2Proof.Machine.execLdw core w imm s
  | .stw core w imm => Sys2Proof.Machine.execStw core w imm s
  | .atadd core w imm => Sys2Proof.Machine.execAtadd core w imm s
  | .atmin core w imm => Sys2Proof.Machine.execAtmin core w imm s
  | .atmax core w imm => Sys2Proof.Machine.execAtmax core w imm s
  | .atswap core w imm => Sys2Proof.Machine.execAtswap core w imm s
  | .atcas core w imm => Sys2Proof.Machine.execAtcas core w imm s
  | .evwait core w imm => Sys2Proof.Machine.execEvwait core w imm s
  | .head core w imm => Sys2Proof.Machine.execHead core w imm s
  | .ckpt core w imm => Sys2Proof.Machine.execCkpt core w imm s
  | .epub core w imm => Sys2Proof.Machine.execEpub core w imm s
  | .ewait core w imm => Sys2Proof.Machine.execEwait core w imm s
  | .waitTimeout core => Sys2Proof.Machine.execWaitTimeout core s
  | .uncorrectableError core src addr slot pc => Sys2Proof.Machine.execUncorrectableError core src addr slot pc s
  | .pinInterruptEvent pads rise fall => Sys2Proof.Machine.execPinInterruptEvent pads rise fall s
  | .cwWake asserted => Sys2Proof.Machine.execCwWake asserted s
  | .linkTrained port => Sys2Proof.Machine.execLinkTrained port s
  | .trainingTimeout port => Sys2Proof.Machine.execTrainingTimeout port s
  | .trainingRetry port => Sys2Proof.Machine.execTrainingRetry port s
  | .ts1 port t => Sys2Proof.Machine.execTs1 port t s
  | .ts2 port t => Sys2Proof.Machine.execTs2 port t s
  | .ackControlWord port seq => Sys2Proof.Machine.execAckControlWord port seq s
  | .nak port seq => Sys2Proof.Machine.execNak port seq s
  | .credit port vc units => Sys2Proof.Machine.execCredit port vc units s
  | .sleepReq port => Sys2Proof.Machine.execSleepReq port s
  | .sleepAck port => Sys2Proof.Machine.execSleepAck port s
  | .sleepNak port => Sys2Proof.Machine.execSleepNak port s
  | .sleepIdle port => Sys2Proof.Machine.execSleepIdle port s
  | .ackDeadline port => Sys2Proof.Machine.execAckDeadline port s
  | .retransmitTimeout port => Sys2Proof.Machine.execRetransmitTimeout port s
  | .laneLockLoss port => Sys2Proof.Machine.execLaneLockLoss port s
  | .transitTimeout port => Sys2Proof.Machine.execTransitTimeout port s
  | .flushTimeout core chip => Sys2Proof.Machine.execFlushTimeout core chip s
  | .wr port seq epoch p => Sys2Proof.Machine.execWr port seq epoch p s
  | .wrw port seq epoch p => Sys2Proof.Machine.execWrw port seq epoch p s
  | .rd port seq epoch p => Sys2Proof.Machine.execRd port seq epoch p s
  | .rdw port seq epoch p => Sys2Proof.Machine.execRdw port seq epoch p s
  | .marker port seq epoch p => Sys2Proof.Machine.execMarker port seq epoch p s
  | .flush port seq epoch p => Sys2Proof.Machine.execFlush port seq epoch p s
  | .ack port seq epoch p => Sys2Proof.Machine.execAck port seq epoch p s
  | .rdData port seq epoch p => Sys2Proof.Machine.execRdData port seq epoch p s
  | .rdwData port seq epoch p => Sys2Proof.Machine.execRdwData port seq epoch p s
  | .flushDone port seq epoch p => Sys2Proof.Machine.execFlushDone port seq epoch p s
  | .msg port seq epoch p => Sys2Proof.Machine.execMsg port seq epoch p s
  | .notice port seq epoch p => Sys2Proof.Machine.execNotice port seq epoch p s
  | .chain port seq epoch p => Sys2Proof.Machine.execChain port seq epoch p s
  | .strandUnitWritten same => Sys2Proof.Machine.execStrandUnitWritten same s
  | .quayRead addr => Sys2Proof.Machine.execQuayRead addr s
  | .quayWrite addr data => Sys2Proof.Machine.execQuayWrite addr data s
  | .memRead addr => Sys2Proof.Machine.execMemRead addr s
  | .memWrite addr data => Sys2Proof.Machine.execMemWrite addr data s
  | .otpArg addr data => Sys2Proof.Machine.execOtpArg addr data s
  | .otpExec addr => Sys2Proof.Machine.execOtpExec addr s
  | .dapReservedOp op addr data => Sys2Proof.Machine.execDapReservedOp op addr data s
  | .bypass code => Sys2Proof.Machine.execBypass code s
  | .porSyllable core w imm => Sys2Proof.Machine.execPorSyllable core w imm s
  | .lanePllLocked port => Sys2Proof.Machine.execLanePllLocked port s
  | .receiverAligned port => Sys2Proof.Machine.execReceiverAligned port s
  | .ts1Send port => Sys2Proof.Machine.execTs1Send port s
  | .crcError port => Sys2Proof.Machine.execCrcError port s
  | .codeError port control inWindow => Sys2Proof.Machine.execCodeError port control inWindow s
  | .harbourWordAccessDone core => Sys2Proof.Machine.execHarbourWordAccessDone core s
  | .hostIrqPulseEnd => Sys2Proof.Machine.execHostIrqPulseEnd s
  | .nop => Sys2Proof.Machine.execNop s
  | .triggerWatch => Sys2Proof.Machine.execTriggerWatch s
  | .arm => Sys2Proof.Machine.execArm s
  | .disarm => Sys2Proof.Machine.execDisarm s
  | .calZero => Sys2Proof.Machine.execCalZero s
  | .calFull => Sys2Proof.Machine.execCalFull s
  | .calCommit => Sys2Proof.Machine.execCalCommit s
  | .readCal => Sys2Proof.Machine.execReadCal s
  | .label => Sys2Proof.Machine.execLabel s
  | .revert => Sys2Proof.Machine.execRevert s
  | .restartBaseline => Sys2Proof.Machine.execRestartBaseline s
  | .otpProgram => Sys2Proof.Machine.execOtpProgram s
  | .lifecycleAdvance => Sys2Proof.Machine.execLifecycleAdvance s
  | .stats => Sys2Proof.Machine.execStats s
  | .shutdown => Sys2Proof.Machine.execShutdown s
  | .shutdownComplete => Sys2Proof.Machine.execShutdownComplete s
  | .faultBlink => Sys2Proof.Machine.execFaultBlink s
  | .por => Sys2Proof.Machine.execPor s
  | .brownoutVbat => Sys2Proof.Machine.execBrownoutVbat s
  | .brownoutVsys => Sys2Proof.Machine.execBrownoutVsys s
  | .resetPin => Sys2Proof.Machine.execResetPin s
  | .soft => Sys2Proof.Machine.execSoft s
  | .watchdog => Sys2Proof.Machine.execWatchdog s
  | .thermalReq => Sys2Proof.Machine.execThermalReq s
  | .thermalTrip => Sys2Proof.Machine.execThermalTrip s
  | .railWaitEnd => Sys2Proof.Machine.execRailWaitEnd s
  | .bootRelease => Sys2Proof.Machine.execBootRelease s
  | .firmwareStart => Sys2Proof.Machine.execFirmwareStart s
  | .lfCrystalSwitch => Sys2Proof.Machine.execLfCrystalSwitch s
  | .lfCrystalTimeout => Sys2Proof.Machine.execLfCrystalTimeout s
  | .lfFallback => Sys2Proof.Machine.execLfFallback s
  | .neapEntry => Sys2Proof.Machine.execNeapEntry s
  | .chgStall => Sys2Proof.Machine.execChgStall s
  | .coreRelease => Sys2Proof.Machine.execCoreRelease s
  | .vcoreFail => Sys2Proof.Machine.execVcoreFail s
  | .reservoirGuardTrip => Sys2Proof.Machine.execReservoirGuardTrip s
  | .checkpointComplete => Sys2Proof.Machine.execCheckpointComplete s
  | .reservoirCollapse => Sys2Proof.Machine.execReservoirCollapse s
  | .computeEnd => Sys2Proof.Machine.execComputeEnd s
  | .doneRearm => Sys2Proof.Machine.execDoneRearm s
  | .tickTrigger => Sys2Proof.Machine.execTickTrigger s
  | .xrefReady => Sys2Proof.Machine.execXrefReady s
  | .xrefTimeout => Sys2Proof.Machine.execXrefTimeout s
  | .vpixReady => Sys2Proof.Machine.execVpixReady s
  | .vpixWaitTimeout => Sys2Proof.Machine.execVpixWaitTimeout s
  | .vpixLow => Sys2Proof.Machine.execVpixLow s
  | .exposureStart => Sys2Proof.Machine.execExposureStart s
  | .fsyncEdge => Sys2Proof.Machine.execFsyncEdge s
  | .fsyncWaitExpiry => Sys2Proof.Machine.execFsyncWaitExpiry s
  | .frameComplete => Sys2Proof.Machine.execFrameComplete s
  | .adcSequencerStart => Sys2Proof.Machine.execAdcSequencerStart s
  | .adcOverrun => Sys2Proof.Machine.execAdcOverrun s
  | .spectralFront => Sys2Proof.Machine.execSpectralFront s
  | .headRequest => Sys2Proof.Machine.execHeadRequest s
  | .groupDecision => Sys2Proof.Machine.execGroupDecision s
  | .roiExport => Sys2Proof.Machine.execRoiExport s
  | .adaptationStep => Sys2Proof.Machine.execAdaptationStep s
  | .stemBufferError => Sys2Proof.Machine.execStemBufferError s
  | .strandCommit => Sys2Proof.Machine.execStrandCommit s
  | .strandConditionTimeout => Sys2Proof.Machine.execStrandConditionTimeout s
  | .eventLogEntry => Sys2Proof.Machine.execEventLogEntry s
  | .heldRecordPlace => Sys2Proof.Machine.execHeldRecordPlace s
  | .backlogRefill => Sys2Proof.Machine.execBacklogRefill s
  | .dapNop => Sys2Proof.Machine.execDapNop s
  | .dapSlackExpiry => Sys2Proof.Machine.execDapSlackExpiry s
  | .extest => Sys2Proof.Machine.execExtest s
  | .idcode => Sys2Proof.Machine.execIdcode s
  | .samplePreload => Sys2Proof.Machine.execSamplePreload s
  | .strobeLeadStart => Sys2Proof.Machine.execStrobeLeadStart s
  | .corePllLocked => Sys2Proof.Machine.execCorePllLocked s

end Sys2Proof.Machine
end

