-- ==== Sys2Proof/WellFormed.lean ====
section
/-! DEFINITION. WellFormed.lean: which commands the outside world can send: operands within the widths the spec gives them. A
command that is not well formed has a meaning all the same, but no sender produces it. -/
namespace Sys2Proof

/-- Header fields of a packet fit their widths, and a packet carries at most eight lines (R559, R560). -/
def Packet.wf (p : Packet) : Bool :=
  decide (p.type < 16) && decide (p.dest < 16) && decide (p.src < 16) && decide (p.core < 4) && decide (p.lines ≤ 8) &&
  decide (p.status < 2) && decide (p.watch < 1024) && decide (p.arg < 2 ^ 32) && decide (p.txn < 2 ^ 16)

/-- A payload of 1 to 4 lines of 66 bytes, as LINES says (R560). -/
def Packet.linesOk (p : Packet) : Bool :=
  decide (1 ≤ p.lines) && decide (p.lines ≤ 4) && decide (p.payload.length = 66 * p.lines)

/-- A packet of the row it stands in: its TYPE and its payload (R560, R561). -/
def Packet.isRow (p : Packet) (type : Nat) (payload : Bool) : Bool := p.wf && decide (p.type = type) && payload

/-- Fields of a training set (R556). -/
def TrainSet.wf (t : TrainSet) : Bool := decide (t.epoch < 256) && decide (t.chip < 16) && decide (t.role < 4)

/-- Operands within the widths that the spec gives them. -/
def Instr.wf : Instr → Bool
  | .write _ _ _ extra => decide (extra < 4)
  | .unknownCommand _ cmd => cmd ≠ 0x0B && cmd ≠ 0x02 && cmd ≠ 0x0D
  | .flashProbe r => decide (r.header.length = 64)
  | .reservoirSample rsv vbat => decide (rsv < 65536) && decide (vbat < 65536)
  | .vbatSample vbat => decide (vbat < 65536)
  | .admissionRequest w => decide (w < 1024)
  | .admitTimeout w => decide (w < 1024)
  | .inputAcquire w => decide (w < 1024)
  | .groupRelease w => decide (w < 1024)
  | .fatal code => decide (code < 256)
  | .exposureEnd period => decide (1 ≤ period)
  | .pixelRow black raw => (black ++ raw).all (fun x => decide (x < 4096))
  | .sentinelFrame rows =>
    decide (rows.length = 1536) && rows.all (fun r => decide (r.length = 2048) && r.all (fun x => decide (x < 256)))
  | .credit _ _ units => decide (units < 256)
  | .ts1 _ t => t.wf
  | .ts2 _ t => t.wf
  | .wr _ _ _ p => p.isRow 0x1 p.linesOk
  | .wrw _ _ _ p => p.isRow 0x2 (decide (p.payload.length = 4))
  | .rd _ _ _ p => p.isRow 0x3 (decide (1 ≤ p.lines) && p.payload.isEmpty)
  | .rdw _ _ _ p => p.isRow 0x4 p.payload.isEmpty
  | .marker _ _ _ p => p.isRow 0x5 p.payload.isEmpty
  | .flush _ _ _ p => p.isRow 0x6 p.payload.isEmpty
  | .ack _ _ _ p => p.isRow 0x8 p.payload.isEmpty
  | .rdData _ _ _ p => p.isRow 0x9 (if p.status = 0 then p.linesOk else p.payload.isEmpty)
  | .rdwData _ _ _ p => p.isRow 0xA (if p.status = 0 then decide (p.payload.length = 4) else p.payload.isEmpty)
  | .flushDone _ _ _ p => p.isRow 0xB p.payload.isEmpty
  | .msg _ _ _ p => p.isRow 0xC p.payload.isEmpty
  | .notice _ _ _ p => p.isRow 0xD p.payload.isEmpty
  | .chain _ _ _ p => p.isRow 0xE p.payload.isEmpty
  | .dapReservedOp op _ _ => op.getLsbD 3
  | _ => true

end Sys2Proof
end

