-- ==== Sys2Proof/Safety.lean ====
section
/-! DEFINITION. Safety.lean: the terms that statements about the device use: when a command acts, the memories' canonical form,
the depths of the queues, the one-way cells of the OTP, and when a core issues a bundle and what issuing alone changes. -/
namespace Sys2Proof.Machine
open Sys2Proof

/-! ### Memories and queues -/

/-- The memories of a core are in canonical form. -/
def Core.wf (k : Core) : Bool :=
  k.loc.wf && Memory.wf k.imem && swf (0 : BitVec 32) k.v && swf (0 : BitVec 48) k.acc && swf 0 k.accDom

/-- Every memory of the device is in canonical form: the Harbour, the system controller's SRAM, the line buffers of the Stem engine,
the Strand store, the OTP at both margins and what the four cores hold. -/
def State.memoriesWf (s : State) : Bool :=
  s.harbour.wf && Memory.wf s.sram && Memory.wf s.stem.lineMem && Memory.wf s.strand.data && swf (0 : BitVec 39) s.otp.cells && swf
  (0 : BitVec 39) s.otp.cellsHigh &&
  s.core0.wf && s.core1.wf && s.core2.wf && s.core3.wf

/-- The queues of the Host port are no longer than the device makes them: 64 records in the Outbox and 512 in the backlog
(R639), 16 captured words (R634), 4 mailbox commands (R654); the tick counter has 48 bits (R12); and no core has more than the 16
descriptor tokens of a DMA slot in use (R376, R621). -/
def State.withinDepths (s : State) : Bool :=
  decide (s.host.outbox.length ≤ 64) && decide (s.host.backlog.length ≤ 512) && decide (s.host.wbuf.length ≤ 16) &&
  decide (s.host.mbx.length ≤ 4) && decide (s.sys.tick < 2 ^ 48) && coreIds.all (fun c => (s.core c).tokensBalance)

/-- No cell of the OTP that reads 1 in s reads 0 in t, at either margin (R174, R179). -/
def fusesKept (s t : State) : Prop :=
  ∀ a i, ((s.otpNormal a).getLsbD i = true → (t.otpNormal a).getLsbD i = true) ∧
    ((s.otpHigh a).getLsbD i = true → (t.otpHigh a).getLsbD i = true)

/-- The commands that act while the device is held in reset: reset sources, what ends a reset, the LFCLK source, FAULT's blink and the
selection of a TAP instruction (R137, R154 to R160, R188, R743). -/
def actsInReset (i : Instr) : Bool :=
  match i with
  | .por | .brownoutVbat | .resetPin | .thermalTrip | .thermalResetEnd _ | .resetRelease _ | .lfCrystalSwitch
  | .lfCrystalTimeout | .lfFallback | .faultBlink | .extest | .idcode | .samplePreload | .bypass _ => true
  | _ => false

/-! ### Host commands -/

/-- The device is not in reset, so that commands act on it. -/
def State.live (s : State) : Prop := s.sys.inReset = false

/-- The oldest captured word of the Host port is v for address a, with `rest` behind it (R634). -/
def State.captured (s : State) (a : Nat) (v : Word) (rest : List (Nat × Word)) : Prop :=
  s.live ∧ s.host.wbuf = (a, v) :: rest

/-- The state once the oldest captured word has been taken (R634). -/
def State.took (s : State) (rest : List (Nat × Word)) : State := { s with host := { s.host with wbuf := rest } }

/-! ### Host port -/

/-- An SPI frame reaches the device: the Host port answers with HOST_IF at 0, and no stream read is open (R628, R149). -/
def State.spiReady (s : State) : Prop :=
  s.live ∧ s.sys.hostAnswers = true ∧ s.sys.straps.hostIf = false ∧ s.host.stream = none

/-- An I²C transfer to `target` reaches the device: the Host port answers with HOST_IF at 1, the target address is 0x3A or 0x3B by
I2C_ADDR, and no stream read is open (R635). -/
def State.i2cReady (s : State) (target : BitVec 7) : Prop :=
  s.live ∧ s.sys.hostAnswers = true ∧ s.sys.straps.hostIf = true ∧ s.host.stream = none ∧
  target = (if s.sys.straps.i2cAddr then 0x3B else 0x3A)

/-- The bytes are n bytes of the Quay from address a upward, which wraps after 0xFFFF, each register lowest byte first (R9, R630). -/
def State.quayBytesAre (s : State) (a n : Nat) (bs : List Byte) : Prop :=
  bs.length = n ∧ ∀ i, i < n →
    bs[i]? = some ((s.quayWord ((a + i) % 65536 / 4 * 4)).extractLsb' (8 * ((a + i) % 65536 % 4)) 8)

/-- The n bits shifted out are those of the Quay from address a upward: each byte most significant bit first, each register lowest
byte first (R9, R10). -/
def State.quayBitsAre (s : State) (a n : Nat) (h : HostPort) : Prop :=
  h.shifted.length = n ∧ ∀ i, i < n →
    h.shifted[i]? = some ((s.quayWord ((a + i / 8) % 65536 / 4 * 4)).getLsbD (8 * ((a + i / 8) % 65536 % 4) + (7 - i % 8)))

/-- Words with their addresses from a upward, 4 apart (R633). -/
def addressed (a : Nat) (ws : List Word) : List (Nat × Word) := ws.zipIdx.map (fun x => ((a + 4 * x.2) % 65536, x.1))

/-- The Host port after capturing words: those that find room among the 16 entries stand in the buffer, the others raise
WR_DROPPED (R634). -/
def HostPort.captures (h : HostPort) (a : Nat) (ws : List Word) : HostPort :=
  { h with wbuf := h.wbuf ++ (addressed a ws).take (16 - h.wbuf.length),
           wrDropped := if ws.length ≤ 16 - h.wbuf.length then h.wrDropped
             else min 255 (h.wrDropped + (ws.length - (16 - h.wbuf.length))) }

/-- The Host port after a stream read of k whole slots and `part` whole bytes of the next, with the bits `cut` of a byte cut short:
the first k records, with zeros where the Outbox has run out, leave it, and a record cut short raises ABORTED (R642 to R644). -/
def HostPort.streamed (h : HostPort) (k part : Nat) (cut : List Bool) (begun : Bool) : HostPort :=
  { h with out := ((List.range k).flatMap (fun i => h.outbox.getD i (List.replicate 32 0))) ++
             (h.outbox.getD k (List.replicate 32 0)).take part,
           cut := cut,
           outbox := h.outbox.drop k,
           aborted := if begun = true ∧ k < h.outbox.length then min 255 (h.aborted + 1) else h.aborted }

/-- The 32 bits of a word as a little-endian field of a byte list (R633). -/
def wordIn (bs : List Byte) (i : Nat) : Word :=
  (bs.getD (4 * i + 3) 0) ++ (bs.getD (4 * i + 2) 0) ++ (bs.getD (4 * i + 1) 0) ++ (bs.getD (4 * i) 0)

/-! ### Resets and the boot -/

/-- Nothing of the OTP or the Strand store is in progress, nothing holds the device in reset and no reset waits (R158, R159). -/
def State.idleStores (s : State) : Prop :=
  s.otp.hold = none ∧ s.otp.run = none ∧ s.strand.writing = none ∧ s.sys.delayed = none

/-- Pin p after a reset (R678): one that carries FAULT keeps its configuration with FAULT alone, but for PC7 and at POR. -/
def pinAfterReset (por : Bool) (pins : List Pin) (p : Nat) : Pin :=
  match pins[p]? with
  | some x => if por = false ∧ p ≠ 23 ∧ x.mask.getLsbD 9 = true then { x with mask := 0x000200 } else Pin.atReset p
  | none => Pin.atReset p

/-- The state in reset, entered by the one source of bit b: the tick counter, the causes, the loop count, the straps, LFCLK's
source, the collapse count, the cells of the OTP, the pins that carry FAULT, the Strand store and the TAP are kept as R156 and
R678 say, and everything else takes its reset value. -/
def State.inResetBy (s : State) (b : Nat) : State :=
  { pending := s.pending,
    sys := { tick := if b = 0 then 0 else s.sys.tick, inReset := true, asserted := BitVec.ofNat 9 (2 ^ b),
             fatalPending := s.sys.fatalPending, resetCause := s.sys.resetCause, fatalCode := s.sys.fatalCode,
             loopCount := s.sys.loopCount, loopShown := s.sys.loopShown, straps := s.sys.straps },
    tide := if b = 0 then {}
      else { lfFallback := s.tide.lfFallback, lfCrystal := s.tide.lfCrystal, lfWait := s.tide.lfWait,
             collapses := s.tide.collapses, thermalShutdown := b == 5 || b == 6 },
    otp := { cells := s.otp.cells, cellsHigh := s.otp.cellsHigh },
    gpio := { pins := (List.range 24).map (pinAfterReset (b == 0) s.gpio.pins) },
    strand := { data := s.strand.data },
    tap := { s.tap with slackHold := false, wait := none },
    free := s.free }

/-- The boot is at stage st, released from reset and without a failure; the Outbox and the backlog are within their sizes, as every
step keeps them. -/
def State.bootAt (s : State) (st : BitVec 8) : Prop := s.live ∧ s.sys.stage = st ∧ s.sys.fail = 0 ∧ s.outboxBalance = true

/-- The boot of s fails with a code and leaves t: FAIL holds the code at the stage reached, the BOOT cause of SYS_ALARM is set,
SECRETS is locked against reads and every region that the life cycle closes against programming, the EVENT of cause BOOT_FAIL
is released, and the image, the OTP cells, the cores and the watches stay as they are (R152, R212, R650). -/
def bootFails (s t : State) (code : Nat) : Prop :=
  t.sys.fail = BitVec.ofNat 8 code ∧ t.sys.stage = s.sys.stage ∧ t.sys.alarm.getLsbD 0 = true ∧
  t.otp.lockRd = s.otp.lockRd ||| 0x20 ∧ t.otp.cells = s.otp.cells ∧ t.otp.cellsHigh = s.otp.cellsHigh ∧
  (∀ r, r < 8 → (if r = 0 then s.otp.lc = 6 else regionOpen r s.otp.lc = false) → t.otp.lockWr.getLsbD r = true) ∧
  (s.host.held = [] ∧ s.host.backlog = [] ∧ s.host.outbox.length < 64 → ∃ b, t.host.outbox = s.host.outbox ++ [b] ∧
    b.length = 32 ∧ byteAt b 0 = 6 ∧ byteAt b 16 = 2) ∧
  t.image = { s.image with copied := t.image.copied } ∧ t.watches = s.watches ∧ (∀ c, t.core c = s.core c) ∧ t.pix = s.pix ∧
    t.adc = s.adc ∧ t.stem = s.stem ∧
  t.cw = s.cw ∧ t.strand.data = s.strand.data

/-- The watchdog's count once the boot ROM has copied n bytes more: restarted where they complete another 1 MiB (R163, R164). -/
def State.countAfterCopy (s : State) (n : Nat) : Nat :=
  if s.image.copied / 0x100000 < (s.image.copied + n) / 0x100000 then 0 else s.sys.wdtCount

/-- The lines that entry e had placed hold zero data and tag 0x0000 in t, and every other line of the Harbour is as in s (R235). -/
def linesCleared (s t : State) (e : MfEntry) : Prop :=
  ∀ l, let c := e.lines.1 / 64 ≤ l ∧ l < min (e.lines.1 + e.lines.2) (if e.type = 2 then 0x01F40000 else 0x01F00000) / 64;
    (c → t.harbour.line l = List.replicate 64 0 ∧ t.harbour.tag l = 0 ∧ t.harbour.poisoned l = false) ∧
    (¬c → t.harbour.line l = s.harbour.line l ∧ t.harbour.tag l = s.harbour.tag l ∧ t.harbour.poisoned l = s.harbour.poisoned l)

/-- Record r of the manifest's next entry, of n bytes, is placed: it joins the records, its lines stand in the Harbour, and the boot
goes on to the next record, or after the last one to stage 0x07 (R143, R233). -/
def recordTaken (s t : State) (m : Manifest) (r : PlacedRecord) (n : Nat) : Prop :=
  t.image = { s.image with records := s.image.records ++ [r], nextRecord := s.image.nextRecord + 1, recopyDue := false,
                           copied := s.image.copied + n } ∧
  (r.placed = 0 → t.harbour = s.harbour) ∧
  (r.placed ≠ 0 → t.harbour = s.harbour.putLines (r.load / 64) (recordLines r)) ∧
  t.sys = { s.sys with stage := if s.image.nextRecord + 1 < m.entries.length then 0x06 else 0x07, recopied := t.sys.recopied,
                                wdtCount := s.countAfterCopy n } ∧
  t.host = s.host ∧ t.otp = s.otp ∧ t.watches = s.watches ∧ t.strand = s.strand

/-- The bytes b of the next entry e are an unencrypted record other than OWNER_KEYS that passes the checks of its header, body and
placement (R217, R233 to R235). -/
def State.recordGood (s : State) (m : Manifest) (e : MfEntry) (b : List Byte) (r : PlacedRecord) : Prop :=
  e.flags = 0 ∧ e.type ≠ 9 ∧ 8 ≤ e.length ∧ byteAt b 0 = e.type ∧ byteAt b 1 = 0 ∧ leAt b 2 2 = e.id ∧ leAt b 4 4 = e.length ∧
  r = { type := e.type, id := e.id, load := e.load, placed := placedSize e.type (b.drop 8), length := 8 + (b.drop 8).length,
        body := b.drop 8 } ∧
  bodyOk m e.type false r.body = true ∧ placementOk s.image.records r = true ∧
  stemStridesOk (s.image.records ++ [r]) = true ∧ s.otp.rollback ≤ m.secVer

/-! ### The mailbox and the watches -/

/-- The mailbox can execute the command at the front of its queue, which is c: in Slack, after the first entry into Neap, with none
executing (R150, R654). -/
def State.mbxFront (s : State) (c : MbxCmd) (rest : List MbxCmd) : Prop :=
  s.live ∧ s.tide.power = .slack ∧ s.sys.firstNeapDue = false ∧ s.host.mbxRun = none ∧ s.host.mbx = c :: rest

/-- Command c has left the queue and executes (R654). -/
def State.mbxTaken (s : State) (c : MbxCmd) (rest : List MbxCmd) : State :=
  { s with host := { s.host with mbx := rest, mbxRun := some c } }

/-- Command c has left the queue and has completed with a code and, where it returns data, MBX_DATA (R656). -/
def State.mbxAnswered (s : State) (c : MbxCmd) (rest : List MbxCmd) (code : Nat) (data : Option (List Byte) := none) : State :=
  { s with host := { s.host with mbx := rest, mbxCode := code, mbxLastCmd := c.cmd, mbxTag := c.tag,
                                 mbxDone := (s.host.mbxDone + 1) % 8, irq := s.host.irq ||| 2,
                                 mbxData := data.getD s.host.mbxData },
           fresh := { s.fresh with irq := s.fresh.irq ||| 2 } }

/-- Bits of argument i of a command (R655). -/
def MbxCmd.arg (c : MbxCmd) (i : Nat) : Word := c.args.getD i 0

/-- The arguments of a command from i upward are 0 (R655). -/
def MbxCmd.zeroFrom (c : MbxCmd) (i : Nat) : Prop := ∀ j, i ≤ j → j < 8 → c.arg j = 0

/-- The watch n of t is what the one of s becomes under f, and every other watch is as it was. -/
def onlyWatch (s t : State) (n : Nat) (f : Watch → Watch) : Prop :=
  t.watch? n = (s.watch? n).map f ∧ ∀ m, m ≠ n → t.watch? m = s.watch? m

/-- The job of a trigger that became due at tick `due` with chained order `order` (R54, R63). -/
def Watch.started (due order : Nat) (w : Watch) : Watch :=
  { w with state := .running, held := none, heldGpio := false, groupWait := false, jobs := (w.jobs + 1) % 2 ^ 32, lastDue := due % 2 ^ 48,
           job := some { due := due, order := order, inputsDone := decide (w.entry.inputKind = 0) } }

/-- A trigger finds the watch busy, DONE but no one-shot, or with a trigger held already (R54, R56, R63). -/
def Watch.busyOrHeld (w : Watch) : Prop :=
  w.state = .running ∨ w.state = .waitingEnergy ∨ w.state = .checkpointed ∨ (w.state = .done ∧ w.flag 2 = false) ∨
  (w.state = .armed ∧ w.held ≠ none)

/-- A trigger that became due at tick `due` with chained order `order` sets the pending bit, with LAST_DUE, or is missed where one
is pending already (R42, R56). -/
def Watch.pends (due order : Nat) (w : Watch) : Watch :=
  if w.pending then { w with missed := min 0xFFFFFFFF (w.missed + 1) }
  else { w with pending := true, pendingDue := (due, order), lastDue := due % 2 ^ 48 }

/-- The 64 bytes are the RUNTIME fields of watch w: NEXT_SEQ, JOBS, MISSED, REPLAYS,
CHECKPOINTS, FAULT_CODE and LAST_DUE, little-endian (R42). -/
def isRuntime (w : Watch) (b : List Byte) : Prop :=
  b.length = 64 ∧ leAt b 0 2 = w.nextSeq % 2 ^ 16 ∧ leAt b 2 2 = 0 ∧ leAt b 4 4 = w.jobs % 2 ^ 32 ∧ leAt b 8 4 = w.missed % 2 ^ 32 ∧
  leAt b 12 4 = w.replays % 2 ^ 32 ∧ leAt b 16 4 = w.checkpoints % 2 ^ 32 ∧ leAt b 20 2 = w.faultCode % 2 ^ 16 ∧
  leAt b 22 6 = w.lastDue % 2 ^ 48

/-! ### The OTP -/

/-- The conditions before each OTP word: temperature and VBAT no older than 8 ticks, 0 to 85 °C and at least 2,500 mV (R200). -/
def State.otpFit (s : State) : Prop :=
  s.tide.tempTaken = true ∧ s.sys.tick ≤ s.tide.tempTick + 8 ∧ 0 ≤ s.tide.temp ∧ s.tide.temp ≤ 85 * 64 ∧ s.sys.tick ≤ s.tide.vbatTick + 8 ∧
  2500 ≤ s.tide.vbatMv

/-- An OTP command at the front of the mailbox may run (R199). -/
def State.otpFront (s : State) (c : MbxCmd) (rest : List MbxCmd) : Prop :=
  s.mbxFront c rest ∧ s.sys.fail = 0 ∧ s.tide.coreEn = false ∧ s.otp.run = none

/-- The command has completed with an OTP status at a word (R209). -/
def State.otpAnswered (s : State) (c : MbxCmd) (rest : List MbxCmd) (status word : Nat) : State :=
  { s.mbxAnswered c rest status with otp := { s.otp with progStatus := status, progWord := word, run := none } }

/-- The words that OTP_PROGRAM names: address and data (R206). -/
def MbxCmd.otpWords (c : MbxCmd) : List (Nat × Word) :=
  (List.range (fld (c.arg 0).toNat 24 3)).map (fun i => (fld (c.arg 0).toNat 8 11 + i, c.arg (1 + i)))

/-! ### The Tide -/

/-- The watches of the table have distinct numbers, in ascending order (R40, R45). -/
def State.tableOk (s : State) : Prop := s.watches.Pairwise (fun a b => a.entry.num < b.entry.num)

/-- No job but that of watch n waits for admission or stands at a checkpoint (R61). -/
def State.onlyWaiting (s : State) (n : Nat) : Prop :=
  ∀ x ∈ s.watches, x.entry.num ≠ n → x.queued = false ∧ x.state ≠ .checkpointed

/-- No job waits for admission or stands at a checkpoint. -/
def State.noneWaiting (s : State) : Prop := ∀ x ∈ s.watches, x.queued = false ∧ x.state ≠ .checkpointed

/-- Energy in µJ of C µF between V mV and Vmin (R98), rounded down; 0 at or below Vmin. -/
def reservoirUj (c v vmin : Nat) : Nat := if v ≤ vmin then 0 else c * (v * v - vmin * vmin) / 2000000

/-- CHG_EN after a sample of v mV with the level `old` before it (R100, R101, R127). -/
def chargeLevel (t : Tide) (b : PowerBlock) (v : Nat) (old : Bool) : Bool :=
  if t.chgInhibit = true ∨ t.vbatMv < b.vbatChgMinMv ∨ t.thermalShutdown = true then false
  else if t.coreEn = true then old
  else if b.vmaxMv ≤ v then false
  else if v + b.hystMv ≤ b.vmaxMv then true
  else old

/-- The thermal cap after a sample of c/64 °C that found cap `old` (R125): 105, 107 and 109 °C cap at steps 2, 1 and 0; a cap is
lifted by one step 3 °C below the threshold that set it. -/
def capAfter (old : Nat) (c : Int) : Nat :=
  let set : Nat := if 109 * 64 ≤ c then 0 else if 107 * 64 ≤ c then 1 else if 105 * 64 ≤ c then 2 else 3
  if set < old then set
  else if (old = 0 ∧ c < 106 * 64) ∨ (old = 1 ∧ c < 104 * 64) ∨ (old = 2 ∧ c < 102 * 64) then old + 1
  else old

/-- Watch n of s is FAULTED in t with a code, without a job or a held trigger; SYS_FAULT names it; no other watch changes (R42, R617,
R718). -/
def watchFaulted (s t : State) (n code : Nat) : Prop :=
  (∀ w, s.watch? n = some w → ∃ w', t.watch? n = some w' ∧ w'.entry = w.entry ∧ w'.state = .faulted ∧ w'.faultCode = code ∧
    w'.job = none ∧ w'.held = none) ∧
  (∀ m, m ≠ n → t.watch? m = s.watch? m) ∧ t.err.fault = some (n, code)

/-- Every core of t has no power: nothing runs on it and its registers and memories are those of power-up (R88, R172). -/
def coresOff (t : State) : Prop :=
  ∀ c, (t.core c).run = .off ∧ (t.core c).regs = {} ∧ (t.core c).v = [] ∧ (t.core c).acc = [] ∧ (t.core c).loc = {} ∧
    (t.core c).imem = [] ∧ (t.core c).pend = []

/-- The job of watch w is in Spring, and no stop is in progress (R61, R617). -/
def State.inSpringJob (s : State) (w : Watch) (j : Job) : Prop :=
  s.live ∧ s.springWatch = some w ∧ w.job = some j ∧ s.stopping = none ∧ s.watch? w.entry.num = some w

/-- The event counts of a core in the order of their classes (R109). -/
def Meter.counts (m : Meter) : List Nat := [m.mac8, m.mac4, m.mac16, m.macf8, m.macf16, m.vec, m.line, m.cyc]

/-- Sum in fJ of the event counts of the job's cores in t times their energies (R109). -/
def State.countedFj (s t : State) (w : Watch) : Nat :=
  (w.coreList.map (fun c => (((t.core c).meter.counts.zipIdx).map (fun x => x.1 * s.energyOf x.2 s.tide.stepAdmitted)).sum)).sum

/-- The registers at the start of a job (R359): s0 core index, s1 cores, s2 watch, s3 unit number, s5 chip number, a0 window
base, a1 window size, the PC; all else 0. -/
def startsWith (r : Regs) (index cores watch unit chip base size entry : Nat) : Prop :=
  (∀ i, i < 32 → (r.s[i]?).getD 0 = (match i with
    | 0 => BitVec.ofNat 32 index
    | 1 => BitVec.ofNat 32 cores
    | 2 => BitVec.ofNat 32 watch
    | 3 => BitVec.ofNat 32 unit
    | 5 => BitVec.ofNat 32 chip
    | _ => 0)) ∧
  (∀ i, i < 16 → (r.a[i]?).getD 0 = (match i with
    | 0 => BitVec.ofNat 40 (0x40000000 + base)
    | 1 => BitVec.ofNat 40 size
    | _ => 0)) ∧
  r = { s := r.s, a := r.a, pc := BitVec.ofNat 13 entry }

/-! ### Inputs -/

/-- The value that RAW16 holds of a raw code under black level b in 1/16 code, without column offsets (R271, R272): the code less
the black level plus the pedestal, rounded half to even and clamped to the depth. -/
def PixProg.corrected (p : PixProg) (raw : Nat) (b : Int) : Nat :=
  let top : Nat := if p.twelve then 4095 else 1023
  let code : Nat := min top raw
  let level : Int := (code : Int) * 16 - b + ((p.pedestal * 16 : Nat) : Int)
  (max 0 (min (top : Int) (rhe level 16))).toNat

/-- The black level of a row in 1/16 code: the mean over the sums of this row and of up to 15 rows before it, rounded half to
even (R271). -/
def PixProg.blackLevel (p : PixProg) (black : List Nat) (before : List Int) : Int :=
  let top : Nat := if p.twelve then 4095 else 1023
  let total : Nat := ((List.range 16).map (fun i => min top (black.getD i 0))).sum
  let sums : List Int := (((16 * total : Nat) : Int) :: before).take 16
  rhe sums.sum (16 * sums.length)

/-- The change energy of a zone x0, y0, x1, y1 between two sentinel frames of 64 × 48 superpixels (R47, R282): the sum of the
differences of its superpixels, saturated at 65,535. -/
def zoneSum (z : List Byte) (a b : List Byte) : Nat :=
  min 65535 (((List.range 3072).filter (fun i => byteAt z 0 ≤ i % 64 && i % 64 ≤ byteAt z 2 &&
    byteAt z 1 ≤ i / 64 && i / 64 ≤ byteAt z 3)).map (fun i => ((byteAt a i : Int) - byteAt b i).natAbs)).sum

/-- No Causeway port is in use (R549). -/
def State.single (s : State) : Prop := s.cw.cfg.role = 0

/-! ### The Stem engine -/

/-- The Stem engine can serve the request at the front of its queue, which is r of watch w; no line of the Harbour is poisoned or
holds a single-bit error, nor does a word of the line buffers. -/
def State.stemServes (s : State) (r : StemReq) (rest : List StemReq) (w : Watch) : Prop :=
  s.live ∧ s.stemRuns = true ∧ s.stem.queue = r :: rest ∧ s.watch? r.watch = some w ∧ r.watch = w.entry.num ∧ s.stopping = none ∧
  s.harbour.wf = true ∧ s.harbour.poison = [] ∧ s.harbour.upset = [] ∧ s.stem.lineUpset = 0

/-- The system controller has issued every head request of its jobs: none is left that waits for room in the engine (R338, R349). -/
def State.headsIssued (s : State) : Prop := ∀ w ∈ s.watches, ∀ j, w.job = some j → j.headsLeft = []

/-- What waits for a head request can take its completion (R348, R539), and no request waits for the room it leaves: a running core
that neither waits nor replays, whose counter of the event is below 255; or the system controller, which waits for another head of
the watch. -/
def State.headTaker (s : State) (rest : List StemReq) (n : Nat) (core : Option (Fin 4)) (event : Nat) : Prop :=
  s.headsIssued ∧
  match core with
  | some c => (s.core c).run = .running ∧ (s.core c).wait = none ∧ (s.core c).replaying = false ∧
    ((s.core c).evreg event).toNat < 255
  | none => ∃ a e, { watch := n, kind := .head none a e } ∈ rest

/-- The request has completed with DONE (R348, R539): SYS_STEM.HEADS counts it, and its event counter rises at the core. -/
def headCompleted (s t : State) (core : Option (Fin 4)) (event : Nat) : Prop :=
  t.stem.heads = min 0xFFFF (s.stem.heads + 1) ∧
  (∀ c, core = some c → t.core c =
    Core.setEv { s.core c with heads := (s.core c).heads - 1 } event ((s.core c).evreg event + 1)) ∧
  (∀ c, core ≠ some c → t.core c = s.core c)

/-- The Outbox takes n records now: none is held or in the backlog (R639). -/
def State.outboxTakes (s : State) (n : Nat) : Prop :=
  s.host.held = [] ∧ s.host.backlog = [] ∧ s.host.outbox.length + n ≤ 64

/-- b is an untagged record of 32 bytes: TYPE, WATCH, SEQ, TICK, the frame number and the 16 payload bytes (R647). -/
def isRecord (b : List Byte) (type watch seq tick frame : Nat) (payload : List Byte) : Prop :=
  b.length = 32 ∧ byteAt b 0 = type ∧ leAt b 2 2 = watch % 2 ^ 16 ∧ leAt b 4 2 = seq % 2 ^ 16 ∧ leAt b 6 6 = tick % 2 ^ 48 ∧
  leAt b 12 4 = frame % 2 ^ 32 ∧ slice b 16 16 = payload

/-- The code of one band (R335): log2 of its energy plus one with ten fraction bits, less LOG_OFS, times LOG_MUL over 65,536,
rounded half to even and saturated to INT8. -/
def SpecConf.code (c : SpecConf) (energy : Nat) : Int :=
  let e := Nat.log2 (energy + 1)
  let f := (if 10 ≤ e then (energy + 1) / 2 ^ (e - 10) else (energy + 1) * 2 ^ (10 - e)) - 1024
  max (-128) (min 127 (rhe (((1024 * e + log2Table f : Nat) - c.logOfs) * c.logMul) 65536))

/-- The sum a_j of a head: the bias and the products of the N_IN features with weight row j (R340). -/
def headSum (m : List Host.Cell) (inA wA bA nIn j : Nat) : Int :=
  toSigned (rdLE m (bA + 4 * j) 4) 32 +
    ((List.range nIn).map (fun i => (rdByte m (inA + i)).toInt * (rdByte m (wA + j * ((nIn + 63) / 64 * 64) + i)).toInt)).sum

/-- The 32-bit sum of a head that enters its logit: the exact sum where it lies in 32 bits, else a number that the spec does not
state and that equal sums share (log 69). -/
def headSum32 (m : List Host.Cell) (inA wA bA nIn j : Nat) : Int :=
  let a := headSum m inA wA bA nIn j
  if -(2 ^ 31 : Int) ≤ a ∧ a < (2 ^ 31 : Int) then a else (Config.wide 0 a).toInt

/-- The scores of a head's classes (R340, R341). -/
def headScores (m : List Host.Cell) (inA wA bA nIn nOut : Nat) (mul : Int) (shift : Nat) : List Nat :=
  softmax ((List.range nOut).map (fun j =>
    max (-32768) (min 32767 (rhe (headSum32 m inA wA bA nIn j * mul) (2 ^ shift)))))

/-- The classes and scores of the first line of a result area at a, and the boxes it counts (R346). -/
def resultIs (m : List Host.Cell) (a : Nat) (top : List (Nat × Nat)) (boxes : Nat) : Prop :=
  (∀ i, i < 8 → (rdByte m (a + i)).toNat = ((top[i]?).map (·.1)).getD 0xFF ∧
    rdLE m (a + 8 + 2 * i) 2 = ((top[i]?).map (·.2)).getD 0) ∧
  rdLE m (a + 24) 2 = boxes

/-- The saturation totals of group decision: per layer, the running total of the job and the counters of its cores (R507). -/
def State.satTotal (s : State) (w : Watch) (j : Job) (l : Nat) : Nat :=
  j.totals.getD l 0 + (w.coreList.map (fun c => (((s.core c).regs.satc[l]?).getD 0).toNat)).sum

/-- The group is replayed (R507): it is REPLAYABLE, the watch has a SAT_BUDGET, and a layer of PROFILE 0 has gone beyond it. -/
def State.groupReplays (s : State) (w : Watch) (j : Job) (table : List Byte) (g : Nat) : Prop :=
  let e := groupEntry table g
  e.2.2 = true ∧ w.entry.satBudget ≠ 0xFFFFFFFF ∧
  ∃ i, i < min e.2.1 8 ∧ layerProfile table (e.1 + i) = 0 ∧ w.entry.satBudget < s.satTotal w j i

/-- Two byte ranges have no byte in common. -/
def disjointRanges (a n b m : Nat) : Prop := a + n ≤ b ∨ b + m ≤ a

/-- The ADAPT_LABEL command at the front completes with a status, which SYS_ADAPT shows too (R520). -/
def State.labelAnswered (s : State) (c : MbxCmd) (rest : List MbxCmd) (status : Nat) : State :=
  { s.mbxAnswered c rest status with stem := { s.stem with adaptStatus := status } }

/-- LABEL ends with a status and nothing else changes but the power of the banks that it has read (R520, R757). -/
def labelRefused (s : State) (c : MbxCmd) (rest : List MbxCmd) (status : Nat) : Prop :=
  ∃ t, exec .label s = .next t ∧
    t = { s.labelAnswered c rest status with tide := { s.tide with banksOn := t.tide.banksOn } }

/-! ### Units in partial reset, the scrub and the Strand store -/

/-- The state once line n of the retained banks was scrubbed next, its place in the set taken from 0 at the next line due (R606). -/
def State.scrubLine (s : State) (i : Nat) : Nat :=
  placeLine s.retainedBanks ((linePlace s.retainedBanks s.err.scrubAt + i) % (0x4000 * s.retainedBanks.length))

/-- The write engine starts a unit now (R158, R684, R685): it is idle, VBAT is at least 2,050 mV, the die is below 120 °C and no reset
waits. -/
def State.engineReady (s : State) : Prop :=
  s.strand.writing = none ∧ 2050 ≤ s.tide.vbatMv ∧ s.tide.tempTaken = true ∧ s.tide.temp < 120 * 64 ∧ s.sys.delayed = none

/-- The slot that a commit of a record writes, and its SEQ (R690): the one that is not in force, with the next SEQ, which skips 0. -/
def commitTarget (force : Option (Nat × Nat)) : Nat × Nat :=
  match force with
  | none => (0, 1)
  | some (t, q) => (1 - t, if q + 1 = 2 ^ 32 then 1 else q + 1)

/-- The port of the debug access takes an operation: it is open and no OTP_EXEC waits (R744). -/
def State.dapTakes (s : State) : Prop := s.live ∧ dapOpenIn s.otp.lc = true ∧ s.tap.wait = none

/-- The TAP after a DAP operation: STATUS, ADDR and the result (R744). -/
def State.dapEnded (s : State) (status : Nat) (addr result : Word) : State :=
  { s with tap := { s.tap with ir := .dap, status := status, addr := addr, result := result } }

/-- What a pin-interrupt line without an exception of Neap does at a tick (R667 to R671): its filtered level and whether it
reports, from the pads and the edges captured since the last tick. -/
def Gpio.lineAfter (g : Gpio) (pads : BitVec 24) (n : Nat) (rise fall : Bool) : Bool × Bool :=
  match g.linePin n with
  | none => (g.pilLevel.getLsbD n, false)
  | some p =>
    let now := pads.getLsbD p ^^ (g.pin p).cfg.getLsbD 3
    let old := g.pilLevel.getLsbD n
    let deb := g.lineDeb n
    let new := if deb = true ∧ now ≠ g.pilSample.getLsbD n then old else now
    let up := (!old && new) || (!deb && rise)
    let down := (old && !new) || (!deb && fall)
    (new, if g.lineEvent n = 0 then up else if g.lineEvent n = 1 then down else if g.lineEvent n = 2 then up || down else new)

/-! ### The Causeway -/

/-- The port works: it is UP and not in partial reset (R168, R557). -/
def State.linkUp (s : State) (p : PortId) : Prop := s.live ∧ (s.port p).state = .up ∧ ResetUnit.port p ∉ s.sys.resetting

/-- The port trains, its receiver aligned (R557). -/
def State.linkTrains (s : State) (p : PortId) : Prop :=
  s.live ∧ (s.port p).state = .training ∧ (s.port p).aligned = true ∧ ResetUnit.port p ∉ s.sys.resetting

/-- The state once port p has become `f` of what it was and has driven the items. -/
def State.drives (s : State) (p : PortId) (items : List LaneItem) (f : Port → Port := id) : State :=
  s.modPort p (fun x => { f x.restart with sent := items })

/-- The fields of a control word fit their widths (R556). -/
def LaneItem.fits : LaneItem → Prop
  | .ack q => q < 4096
  | .nak q => q < 4096
  | .credit v n => v < 4 ∧ n < 256
  | .ts1 t => t.wf = true
  | .ts2 t => t.wf = true
  | .sleepReq | .sleepAck | .sleepNak | .packet _ _ _ => True

/-- The port is in partial reset and will train in full (R168, R565). -/
def linkResets (s t : State) (p : PortId) : Prop :=
  t.sys.resetting = s.sys.resetting ++ [.port p] ∧ (t.port p).state = .training ∧ (t.port p).resume = false ∧
  (t.port p).agreed = none ∧ t.port p.other = s.port p.other ∧ t.watches = s.watches ∧ t.harbour = s.harbour

/-- The epoch that follows two epochs, none where not valid (R571): above the higher of two, which may lie at most 127 apart, or
above the one that is valid, or 1. -/
def epochAfter (own peer : Option Nat) : Nat :=
  match own, peer with
  | some a, some b => ((if (a + 256 - b) % 256 < 128 then a else b) + 1) % 256
  | some a, none => (a + 1) % 256
  | none, some b => (b + 1) % 256
  | none, none => 1

/-- Port p takes packet k for this chip: it is UP, its epoch and SEQ are those expected, and the answer can leave at once by the same
port, which holds no packet and all credits (R563 to R568). -/
def State.takesPacket (s : State) (p : PortId) (seq : BitVec 12) (epoch : BitVec 8) (k : Packet) : Prop :=
  s.linkUp p ∧ epoch.toNat = (s.port p).epoch ∧ seq.toNat = (s.port p).rxSeq ∧ (s.port p).unacked < 7 ∧
  s.cw.chip = some k.dest ∧ s.portToward k.src = p ∧ p ∈ s.usedPorts ∧ (s.port p).queue = [] ∧ (s.port p).retry = [] ∧
  (s.port p).credits = [16, 16, 16] ∧ (s.port p).txSeq < 4096 ∧ s.harbour.wf = true ∧ s.harbour.upset = []

/-- Port p has sent these packets in their order, and then the credits of the packet k of a type (R563, R566). -/
def sends (s t : State) (p : PortId) (type : Nat) (k : Packet) (out : List Packet) : Prop :=
  (t.port p).sent = out.zipIdx.map (fun x => .packet (((s.port p).txSeq + x.2) % 4096) (s.port p).epoch x.1) ++
    [.credit (if type ≤ 6 then 0 else if type ≤ 11 then 1 else 2) (1 + k.payload.length / 66)] ∧
  (t.port p).rxSeq = ((s.port p).rxSeq + 1) % 4096 ∧ t.port p.other = s.port p.other

/-- The answer of this chip to packet k: ACK, a refused RD_DATA or RDW_DATA, or FLUSH_DONE (R561). -/
def State.reply (s : State) (k : Packet) (type status : Nat) : Packet :=
  { type := type, dest := k.src, src := s.cw.chip.getD 0, core := k.core, status := status, watch := k.watch, txn := k.txn }

/-- A watch that MULTICHIP admits and whose window holds n bytes at a Harbour offset (R70). -/
def State.admits (s : State) (watch off n : Nat) : Prop :=
  ∃ w, s.watch? watch = some w ∧ w.flag 5 = true ∧ w.inWindow off n = true

/-- The one outstanding operation of core c, on chip k.src, has the one unanswered packet that packet k answers (R559). -/
def State.awaits (s : State) (c : Fin 4) (k : Packet) (q : Pend) : Prop :=
  (s.core c).pend = [q] ∧ (∃ r, q.reqs = [r] ∧ r.txn = k.txn) ∧ k.txn / 16384 = c.val ∧ (s.core c).run = .running ∧
  (s.core c).wait = none ∧ (s.core c).replaying = false ∧ q.poison = none

/-! ### Cores -/

/-- The bundle of syllables l can issue on core c: it runs, nothing holds it, no slot of the bundle has acted already, every syllable
is legal in its slot, and no register or instruction line it needs is still owed (R353, R355, R366, R367, R399, R611); the core's
memories are in canonical form, as every step keeps them. -/
def State.canIssue (s : State) (c : Fin 4) (l : List Nat) : Prop :=
  s.live ∧ (s.core c).run = .running ∧ (s.core c).wait = none ∧ (s.core c).replaying = false ∧ (s.core c).early = [] ∧
  (s.core c).before = none ∧ (s.core c).regs.pc.toNat < 4096 ∧
  illegalSlot l = none ∧ operandStall (s.core c) l (s.core c).regs.pc.toNat = false ∧ (s.core c).wf = true

/-- A core whose next bundle is the one at index t, its own bundle having issued (R366). -/
def Core.goto (k : Core) (t : Nat) : Core :=
  { k with regs := { k.regs with pc := BitVec.ofNat 13 t }, lastPc := k.regs.pc.toNat, early := [], before := none }

/-- What issuing a bundle does to a core besides the effects of its syllables other than a branch: the loops that end there are
decided and the next bundle is chosen (R366, R371). -/
def Core.advance (k : Core) : Core :=
  let r := decideLoops (endingLoops k k.regs.pc.toNat) k
  r.2.goto (r.1.getD (k.regs.pc.toNat + 1))

/-- A row of the syllables: OP and the constructor of Instr. -/
abbrev SylRow := Nat × (Fin 4 → BitVec 64 → BitVec 64 → Instr)

/-- Operand B of a SALU syllable: with IB the low 32 bits of slot 14 under LI or IMM sign-extended from 24 bits, else s[SB]
(R398, R401). -/
def Core.aluB (k : Core) (w imm : BitVec 64) : BitVec 32 :=
  if w.getLsbD 33 then (if w.getLsbD 17 then imm.setWidth 32 else (w.extractLsb' 34 24).signExtend 32)
  else k.sreg (fld w.toNat 28 5)

/-- The integer results of the scalar ALU (R401): OP, constructor, result of operands A and B. -/
def aluRows : List (SylRow × (BitVec 32 → BitVec 32 → BitVec 32)) :=
  [((0x01, .add), fun a b => a + b), ((0x02, .sub), fun a b => a - b), ((0x03, .mul), fun a b => a * b),
   ((0x04, .mulh), fun a b => ((a.signExtend 64 * b.signExtend 64) >>> 32).setWidth 32),
   ((0x05, .mulhu), fun a b => ((a.setWidth 64 * b.setWidth 64) >>> 32).setWidth 32),
   ((0x06, .and), fun a b => a &&& b), ((0x07, .or), fun a b => a ||| b), ((0x08, .xor), fun a b => a ^^^ b),
   ((0x09, .shl), fun a b => a <<< (b &&& 31)), ((0x0A, .shr), fun a b => a >>> (b &&& 31)),
   ((0x0B, .sra), fun a b => a.sshiftRight (b.toNat % 32)),
   ((0x0C, .min), fun a b => if a.slt b then a else b), ((0x0D, .max), fun a b => if a.slt b then b else a),
   ((0x0E, .minu), fun a b => if a.ult b then a else b), ((0x0F, .maxu), fun a b => if a.ult b then b else a),
   ((0x10, .mov), fun _ b => b)]

/-- The compares of the scalar ALU (R401). -/
def compareRows : List (SylRow × (BitVec 32 → BitVec 32 → Bool)) :=
  [((0x20, .cmpeq), fun a b => a == b), ((0x21, .cmpne), fun a b => a != b), ((0x22, .cmplt), BitVec.slt),
   ((0x23, .cmple), BitVec.sle), ((0x24, .cmpltu), BitVec.ult), ((0x25, .cmpleu), BitVec.ule)]

/-- The operations between predicate registers (R401). -/
def predRows : List (SylRow × (BitVec 128 → BitVec 128 → BitVec 128)) :=
  [((0x28, .pand), fun a b => a &&& b), ((0x29, .porSyllable), fun a b => a ||| b), ((0x2A, .pxor), fun a b => a ^^^ b),
   ((0x2B, .pnot), fun a _ => ~~~a)]

/-- Operand B of a VECTOR syllable in lane l: with BB slot 14 under LI or s[SBB], else lane l of v[VB] (R398, R412). -/
def Core.vecB (k : Core) (w imm : BitVec 64) (l : Nat) : BitVec 32 :=
  if w.getLsbD 41 then (if w.getLsbD 17 then imm.setWidth 32 else k.sreg (fld w.toNat 36 5)) else k.lane (fld w.toNat 30 6) l

/-- The INT32 lane operations (R412): OP, constructor, result of A, B and the old destination. -/
def intLaneRows : List (SylRow × (BitVec 32 → BitVec 32 → BitVec 32 → BitVec 32)) :=
  [((0x01, .vadd), fun a b _ => a + b), ((0x02, .vsub), fun a b _ => a - b), ((0x03, .vmul), fun a b _ => a * b),
   ((0x04, .vmla), fun a b d => d + a * b), ((0x05, .vmin), fun a b _ => if a.sle b then a else b),
   ((0x06, .vmax), fun a b _ => if b.sle a then a else b), ((0x07, .vabs), fun a _ _ => if a.msb then -a else a),
   ((0x08, .vneg), fun a _ _ => -a), ((0x09, .vand), fun a b _ => a &&& b), ((0x0A, .vor), fun a b _ => a ||| b),
   ((0x0B, .vxor), fun a b _ => a ^^^ b), ((0x0C, .vshl), fun a b _ => a <<< (b &&& 31)),
   ((0x0D, .vshr), fun a b _ => a >>> (b &&& 31)), ((0x0E, .vsra), fun a b _ => a.sshiftRight (b.toNat % 32))]

/-- A float result as a lane with its flags. -/
def asLane (r : Nat × BitVec 4) : BitVec 32 × BitVec 4 := (BitVec.ofNat 32 r.1, r.2)

/-- Lane operations that set flags (R412, R467, R481): OP, constructor, T, and the result with its flags. -/
def flagLaneRows : List (SylRow × Bool × (BitVec 32 → BitVec 32 → BitVec 32 → BitVec 32 × BitVec 4)) :=
  [((0x01, .vadd), true, fun a b _ => asLane (f32Add a.toNat b.toNat)),
   ((0x02, .vsub), true, fun a b _ => asLane (f32Sub a.toNat b.toNat)),
   ((0x03, .vmul), true, fun a b _ => asLane (f32Mul a.toNat b.toNat)),
   ((0x04, .vmla), true, fun a b d =>
      ((asLane (f32Add d.toNat (f32Mul a.toNat b.toNat).1)).1,
       (f32Mul a.toNat b.toNat).2 ||| (f32Add d.toNat (f32Mul a.toNat b.toNat).1).2)),
   ((0x05, .vmin), true, laneOp 0x05 true), ((0x06, .vmax), true, laneOp 0x06 true),
   ((0x07, .vabs), true, laneOp 0x07 true), ((0x08, .vneg), true, laneOp 0x08 true),
   ((0x0F, .vaddsat), false, fun a b _ =>
      if a.saddOverflow b then (if a.msb then 0x80000000 else 0x7FFFFFFF, flSat) else (a + b, 0)),
   ((0x18, .vcvtif), false, fun a _ _ => asLane (fmtF32.round (decide (a.toInt < 0)) a.toInt.natAbs 0)),
   ((0x18, .vcvtif), true, fun a _ _ => asLane (fmtF32.round (decide (a.toInt < 0)) a.toInt.natAbs 0)),
   ((0x19, .vcvtfi), false, laneOp 0x19 false), ((0x19, .vcvtfi), true, laneOp 0x19 true)]

/-- The core after a bundle whose one VECTOR syllable wrote the lanes `v` and set flags: nothing else of it differs from what
issuing alone leaves, but for the metered lane operations (R109, R412). -/
def Core.vectorDone (k : Core) (v : List (Nat × BitVec 32)) (fl : BitVec 4) : Core :=
  { k.advance with v := v, regs := { k.advance.regs with fl := k.regs.fl ||| fl },
                   meter := { k.meter with vec := k.meter.vec + 128 } }

/-- The lanes of core k' are those of core k but for the active lanes of v[vd], which hold f (R396, R412). -/
def lanesWritten (k k' : Core) (w vd : Nat) (f : Nat → BitVec 32) : Prop :=
  ∀ r l, r < 64 → l < 128 → k'.lane r l = if r = vd ∧ predBit k w l = true then f l else k.lane r l

/-- The flags of the active lanes together (R396, R476). -/
def activeFlags (k : Core) (w : Nat) (f : Nat → BitVec 4) : BitVec 4 :=
  ((List.range 128).filter (predBit k w)).foldl (fun x l => x ||| f l) 0

/-- Some lane of a VECTOR syllable is active (R396). -/
def someLane (k : Core) (w : Nat) : Prop := ∃ l, l < 128 ∧ predBit k w l = true

/-- Nothing of the core is outstanding, and no line of its local memory is poisoned or holds a single-bit error, so that no access of
it waits, meets an error or corrects one (R361, R373, R604). -/
def Core.quiet (k : Core) : Prop := k.pend = [] ∧ k.loc.poison = [] ∧ k.loc.upset = []

/-! ### Tensor, rescale and pool operations -/

/-- Address of the descriptor that a syllable's AD names. -/
def Core.descAt (k : Core) (w : BitVec 64) : Nat := (k.areg (fld w.toNat 18 4)).toNat

/-- The tensor descriptor that a syllable names. -/
def Core.tensorDesc (k : Core) (w : BitVec 64) : TDesc := TDesc.read (rdBytes k.loc.data (k.descAt w) 64)

/-- First accumulator row of a TENSOR or RESCALE syllable: 128 × AC + ROW (R405). -/
def accRow (w : BitVec 64) : Nat := 128 * fld w.toNat 22 2 + fld w.toNat 24 7

/-- A `mm` or `conv` syllable meets what the spec asks of it: descriptor and operands aligned and in local memory, the bounds of
its table, rows inside the accumulators, and no row of the other domain to accumulate into (R405 to R411). -/
def Core.tensorOk (k : Core) (w : BitVec 64) (conv : Bool) : Prop :=
  let d := k.tensorDesc w
  let mode := fld w.toNat 31 4
  let sp := d.inSpan conv (tensorMode mode).1.bits
  k.descAt w % 64 = 0 ∧ k.descAt w + 64 ≤ 0x500000 ∧
  d.ok (rdBytes k.loc.data (k.descAt w) 64) conv mode = true ∧ accRow w + d.m ≤ 512 ∧
  (w.getLsbD 35 = true → ∀ j, j < d.m → sget 0 k.accDom (accRow w + j) = if 4 ≤ mode then 1 else 0) ∧
  sp.1 + (sp.2 - sp.1) ≤ 0x500000 ∧
  d.wt + ((d.kg conv - 1) * d.wtRow + ceilDiv (d.n * (tensorMode mode).2.1.bits) 8) ≤ 0x500000

/-- The accumulator element that a `mm` or `conv` syllable leaves in row j, column n of its output: the integer reduction of R407
to R409 and R491, or the binary32 one of R482 and R493, onto the old element under ACC and onto zero otherwise. -/
def Core.tensorElement (k : Core) (w : BitVec 64) (conv : Bool) (j n : Nat) : BitVec 48 :=
  let d := k.tensorDesc w
  let old : BitVec 48 := if w.getLsbD 35 then k.accel (accRow w + j) n else 0
  match tensorMode (fld w.toNat 31 4) with
  | (.flt xf, .flt wf, _) => BitVec.ofNat 48 (fltElement k.loc d conv xf wf j n (fld old.toNat 0 32)).1
  | (xe, we, _) => BitVec.ofNat 48 (ofSigned (intElement k.loc d conv xe.bits we.bits j n old.toInt).1 48)

/-- The rescale descriptor that a syllable names. -/
def Core.rescaleDesc (k : Core) (w : BitVec 64) : RDesc := RDesc.read (rdBytes k.loc.data (k.descAt w) 64)

/-- Lines of an output pixel or row of `n` elements in an output format. -/
def outLines (n ofmt : Nat) : Nat := ceilDiv (n * (ofmtElem ofmt).bits) 512

/-- A `rqa` or `rqv` syllable meets what the spec asks of it (R414, R415). -/
def Core.rescaleOk (k : Core) (w : BitVec 64) (rqv : Bool) : Prop :=
  let d := k.rescaleDesc w
  k.descAt w % 64 = 0 ∧ k.descAt w + 64 ≤ 0x500000 ∧
  d.ok (rdBytes k.loc.data (k.descAt w) 64) rqv = true ∧ (rqv = true ∨ accRow w + d.m ≤ 512) ∧
  d.out + ((d.m - 1) * d.stride + 64 * outLines d.n d.ofmt) ≤ 0x500000 ∧ d.rq + 8 * d.n ≤ 0x500000 ∧
  d.bias + (if bitN d.flags 0 then 4 * d.n else 1) ≤ 0x500000 ∧ (d.act = 3 → d.lut + 256 ≤ 0x500000)

/-- The exact value that enters the rescale of element n of row j, and the flags of reading it: an accumulator element or a lane,
with its bias (R415, R497). -/
def Core.rescaleInput (k : Core) (w : BitVec 64) (rqv : Bool) (j n : Nat) : Exact × BitVec 4 :=
  let d := k.rescaleDesc w
  let ieee := bitN d.flags 1 && decide (7 ≤ d.ofmt)
  let isF := if rqv then bitN d.flags 2 else sget 0 k.accDom (accRow w + j) == 1
  let raw := if rqv then (k.lane (fld w.toNat 31 6) n).toNat else (k.accel (accRow w + j) n).toNat
  let bias := rdLE k.loc.data (d.bias + 4 * n) 4
  if isF then
    let p := rescaleOperand ieee (fld raw 0 32)
    if bitN d.flags 0 then (p.1.add (rescaleOperand ieee bias).1, p.2 ||| (rescaleOperand ieee bias).2) else (p.1, p.2)
  else (.num false (toSigned raw (if rqv then 32 else 48) + (if bitN d.flags 0 then toSigned bias 32 else 0)) 0, 0)

/-- Element n of row j that a rescale writes (R415, R495 to R498). -/
def Core.rescaled (k : Core) (w : BitVec 64) (rqv : Bool) (j n : Nat) : OutEl :=
  let d := k.rescaleDesc w
  rescaleEl d (rdLE k.loc.data (d.rq + 8 * n) 8) (k.rescaleInput w rqv j n).1 (fun i => (rdByte k.loc.data (d.lut + i)).toNat)

/-- The lines from line l of a memory hold the elements es in output format ofmt, packed upward with zeros after the last, each
line tagged with the scale, its count of saturated elements and the format (R415, R418, R490). -/
def holdsElements (m : Lines) (l ofmt scale : Nat) (es : List OutEl) : Prop :=
  let bits := (ofmtElem ofmt).bits
  ∀ i, i < outLines es.length ofmt →
    m.line (l + i) = (toLines (packElems bits (es.map OutEl.code)) (outLines es.length ofmt)).getD i [] ∧
    m.tag (l + i) = mkTag scale (((es.drop (512 / bits * i)).take (512 / bits)).filter OutEl.sat).length (ofmtTag ofmt)

/-- Outside [lo, hi) two memories hold the same bytes, and outside the lines of that range the same tags. -/
def sameOutside (m m' : Lines) (lo hi : Nat) : Prop :=
  (∀ b, b < lo ∨ hi ≤ b → rdByte m'.data b = rdByte m.data b) ∧
  (∀ l, 64 * l + 64 ≤ lo ∨ hi ≤ 64 * l → m'.tag l = m.tag l)

/-- The 64 bytes of the descriptor that a POOL syllable names (R439 to R449). -/
def Core.poolBytes (k : Core) (w : BitVec 64) : List Byte := rdBytes k.loc.data (k.descAt w) 64

/-- Span of an image of rows in local memory: `h` rows of `row` bytes, the last of `wd` pixels of `cl` lines. -/
def imageSpan (h row wd cl : Nat) : Nat := (h - 1) * row + wd * cl * 64

/-- Along one axis: o outputs of a window of k with step s and dilation d fit i inputs with pads p and q (R444). -/
def windowsFit (o i p q k s d : Nat) : Prop := d * (k - 1) + 1 ≤ i + p + q ∧ o ≤ (i + p + q - d * (k - 1) - 1) / s + 1

/-- A `pool` or `gpool` syllable meets what the spec asks of it (R439 to R445). -/
def Core.poolOk (k : Core) (w : BitVec 64) (global : Bool) : Prop :=
  let b := k.poolBytes w
  let g := fun i => byteAt b (0x1C + i)
  let cl := leAt b 0x18 2
  let inN := imageSpan (leAt b 0x12 2) (leAt b 0x28 4) (leAt b 0x10 2) cl
  let outN := imageSpan (leAt b 0x16 2) (leAt b 0x2C 4) (leAt b 0x14 2) cl
  k.descAt w % 64 = 0 ∧ k.descAt w + 64 ≤ 0x500000 ∧
  leAt b 0 8 % 64 = 0 ∧ leAt b 8 8 % 64 = 0 ∧ leAt b 0x28 4 % 64 = 0 ∧ leAt b 0x2C 4 % 64 = 0 ∧
  (∀ o, o ∈ [0x10, 0x12, 0x14, 0x16] → 1 ≤ leAt b o 2 ∧ leAt b o 2 ≤ 4096) ∧ 1 ≤ cl ∧ cl ≤ 64 ∧
  byteAt b 0x1A ≤ 9 ∧ byteAt b 0x1A ≠ 2 ∧ zeroAt b 0x26 2 = true ∧ zeroAt b 0x30 16 = true ∧
  (if global then (∀ i, i < 10 → g i = 0) ∧ leAt b 0x14 2 = 1 ∧ leAt b 0x16 2 = 1 ∧ 1 ≤ byteAt b 0x1B ∧ byteAt b 0x1B ≤ 2
   else (∀ i, i < 2 → 1 ≤ g i ∧ g i ≤ 15) ∧ (∀ i, i < 4 → 1 ≤ g (2 + i) ∧ g (2 + i) ≤ 8) ∧ (∀ i, i < 4 → g (6 + i) ≤ 15) ∧
     byteAt b 0x1B ≤ 2 ∧ windowsFit (leAt b 0x14 2) (leAt b 0x10 2) (g 8) (g 9) (g 1) (g 2) (g 4) ∧
     windowsFit (leAt b 0x16 2) (leAt b 0x12 2) (g 6) (g 7) (g 0) (g 3) (g 5)) ∧
  linesOverlap (leAt b 0 8) inN (leAt b 8 8) outN = false ∧
  leAt b 0 8 + inN ≤ 0x500000 ∧ leAt b 8 8 + outN ≤ 0x500000

/-- Input element of channel c of pixel (iy, ix) of a POOL or CROP input. -/
def poolPixelIn (m : Lines) (inp inRow cl fmt iy ix c : Nat) : FVal × BitVec 4 :=
  poolIn m (ofmtElem fmt) (inp + iy * inRow + ix * cl * 64) c

/-- Element of channel c of output pixel (oy, ox): GPOOL averages every input pixel; POOL takes the largest, the mean over the
positions inside the input, or the mean over the whole window with zeros outside (R444, R445). -/
def Core.pooled (k : Core) (w : BitVec 64) (global : Bool) (oy ox c : Nat) : OutEl :=
  let b := k.poolBytes w
  let g := fun i => byteAt b (0x1C + i)
  let inW := leAt b 0x10 2
  let inH := leAt b 0x12 2
  let fmt := byteAt b 0x1A
  let e := ofmtElem fmt
  let px := fun (q : Nat × Nat) => poolPixelIn k.loc (leAt b 0 8) (leAt b 0x28 4) (leAt b 0x18 2) fmt q.1 q.2 c
  if global then
    poolSum e ((List.range inH).flatMap (fun iy => (List.range inW).map (fun ix => (1, px (iy, ix))))) (inW * inH) 0
  else
    let at_ := (List.range (g 0)).flatMap (fun wy => (List.range (g 1)).filterMap (fun wx =>
      let y : Int := ((oy * g 3 + wy * g 5 : Nat) : Int) - g 6
      let x : Int := ((ox * g 2 + wx * g 4 : Nat) : Int) - g 8
      if 0 ≤ y ∧ y < (inH : Int) ∧ 0 ≤ x ∧ x < (inW : Int) then some (y.toNat, x.toNat) else none))
    let vs := at_.map px
    match byteAt b 0x1B with
    | 0 => poolMax e vs
    | 1 => if vs.isEmpty then poolOut e false 0 1 0 else poolSum e (vs.map (fun v => (1, v))) vs.length 0
    | _ => poolSum e (vs.map (fun v => (1, v)) ++
        (if at_.length < g 0 * g 1 then [(1, (FVal.fin false 0 0, (0 : BitVec 4)))] else [])) (g 0 * g 1) 0

/-- A `crop` syllable meets what the spec asks of it (R446 to R450). -/
def Core.cropOk (k : Core) (w : BitVec 64) : Prop :=
  let b := k.poolBytes w
  let cl := leAt b 0x1C 2
  let nb := leAt b 0x1E 2
  let px := byteAt b 0x20 * byteAt b 0x21 * cl * 64
  let inN := imageSpan (leAt b 0x1A 2) (leAt b 0x28 4) (leAt b 0x18 2) cl
  let outN := (nb - 1) * leAt b 0x2C 4 + px
  k.descAt w % 64 = 0 ∧ k.descAt w + 64 ≤ 0x500000 ∧
  (∀ o, o ∈ [0, 8, 0x10] → leAt b o 8 % 64 = 0) ∧ leAt b 0x28 4 % 64 = 0 ∧ leAt b 0x2C 4 % 64 = 0 ∧
  (∀ o, o ∈ [0x18, 0x1A] → 1 ≤ leAt b o 2 ∧ leAt b o 2 ≤ 4096) ∧ 1 ≤ cl ∧ cl ≤ 64 ∧ 1 ≤ nb ∧ nb ≤ 256 ∧
  (∀ o, o ∈ [0x20, 0x21] → 1 ≤ byteAt b o ∧ byteAt b o ≤ 64) ∧ byteAt b 0x22 ≤ 9 ∧ byteAt b 0x22 ≠ 2 ∧
  byteAt b 0x23 ≤ 1 ∧ zeroAt b 0x30 16 = true ∧ px ≤ leAt b 0x2C 4 ∧
  linesOverlap (leAt b 0 8) inN (leAt b 8 8) outN = false ∧
  linesOverlap (leAt b 0x10 8) (16 * nb) (leAt b 8 8) outN = false ∧
  leAt b 0 8 + inN ≤ 0x500000 ∧ leAt b 8 8 + outN ≤ 0x500000 ∧ leAt b 0x10 8 + 16 * nb ≤ 0x500000

/-- Element of channel c of output pixel (v, u) of box i: EXTRAP outside the image, else the sample of R448 or R449. -/
def Core.cropped (k : Core) (w : BitVec 64) (i v u c : Nat) : OutEl :=
  let b := k.poolBytes w
  let fmt := byteAt b 0x22
  let near := decide (byteAt b 0x23 = 1)
  let box := fun j => toSigned (rdLE k.loc.data (leAt b 0x10 8 + 16 * i + 4 * j) 4) 32
  match cropAxis near (cropPos u (byteAt b 0x20) (box 0) (box 2)) (leAt b 0x18 2),
    cropAxis near (cropPos v (byteAt b 0x21) (box 1) (box 3)) (leAt b 0x1A 2) with
  | some ax, some ay => cropSample (ofmtElem fmt) near ax ay (fun iy ix =>
      poolPixelIn k.loc (leAt b 0 8) (leAt b 0x28 4) (leAt b 0x1C 2) fmt iy ix c)
  | _, _ => ⟨leAt b 0x24 4 % 2 ^ (ofmtElem fmt).bits, 0, false⟩

/-! ### Synchronisation and DMA -/

/-- The 16-bit immediate of a SYNC syllable: slot 14 under LI, else IMM16 (R398, R419). -/
def sync16 (w imm : BitVec 64) : BitVec 16 := if w.getLsbD 17 then imm.setWidth 16 else w.extractLsb' 48 16

/-- The count or number of `evwait` and `ckpt`: the immediate with IB, else s[SB] (R419). -/
def Core.syncCount (k : Core) (w imm : BitVec 64) : BitVec 32 :=
  if w.getLsbD 44 then (sync16 w imm).setWidth 32 else k.sreg (fld w.toNat 27 5)

/-- The 40-bit address of a SYNC syllable: a[SA] plus the immediate times a unit. -/
def Core.syncAt (k : Core) (w imm : BitVec 64) (unit : BitVec 40) : Nat :=
  (k.areg (fld w.toNat 18 4) + (sync16 w imm).setWidth 40 * unit).toNat

/-- Status OK of a SYNC operation: 0 in s[ST] under CHECK, else nothing (R392, R420). -/
def Core.okStatus (k : Core) (w : BitVec 64) : Core := if w.getLsbD 43 then k.setS (fld w.toNat 32 5) 0 else k

/-- The core once an operation that may hold later bundles has issued: the tick at which its wait began is noted (R391). -/
def Core.waitedAt (k : Core) (tick : Nat) : Core := { k.advance with waitTick := tick }

/-- n bytes at a local 40-bit address lie in this chip's Harbour and in the window of the watch (R64, R68, R360). -/
def inOwnWindow (wt : Watch) (a n : Nat) : Prop :=
  0x40000000 + wt.entry.hbrBase ≤ a ∧ a + n ≤ 0x40000000 + wt.entry.hbrBase + wt.entry.hbrSize ∧ a + n ≤ 0x42000000

/-- The word accesses of slot 13 (R419): OP and constructor. -/
def wordRows : List SylRow :=
  [(0x03, .ldw), (0x04, .stw), (0x05, .atadd), (0x06, .atmin), (0x07, .atmax), (0x08, .atswap), (0x09, .atcas)]

/-- The DMA descriptor that a syllable names: at a[AD] plus 64 × OFS (R377, R404). -/
def Core.dmaAt (k : Core) (w : BitVec 64) : Nat :=
  (k.areg (fld w.toNat 18 4) + (w.extractLsb' 22 8).setWidth 40 * 64).toNat

/-- The descriptor's bytes. -/
def Core.dmaBytes (k : Core) (w : BitVec 64) : List Byte := rdBytes k.loc.data (k.dmaAt w) 64

/-- The descriptor. -/
def Core.dmaDesc (k : Core) (w : BitVec 64) : DDesc := DDesc.read (k.dmaBytes w)

/-- A transfer of a kind through a slot, on this chip, that the spec accepts for a job of watch wt (R377, R378, R68, R404). -/
def Core.dmaOk (k : Core) (w : BitVec 64) (wt : Watch) (kind slot : Nat) : Prop :=
  let d := k.dmaDesc w
  k.dmaAt w % 64 = 0 ∧ k.dmaAt w + 64 ≤ 0x500000 ∧ d.kind = kind ∧ d.bounds (k.dmaBytes w) = true ∧
  d.kindOk slot = true ∧ d.inWindow wt = true ∧ d.hbrBase < 2 ^ 36

/-- The outstanding operation that a transfer on this chip leaves until it completes (R373 to R375, R380). -/
def DDesc.pend (d : DDesc) (slot pc : Nat) : Pend :=
  { slot := slot, ranges := d.ranges, event := if d.event = 0xFF then none else some d.event, pc := pc, retain := d.retain,
    setTag := if d.tags = 1 then some (BitVec.ofNat 16 d.tagValue) else none }

/-- The core once a transfer has issued: it is outstanding and its lines are metered (R109, R380). -/
def Core.dmaIssued (k : Core) (d : DDesc) (p : Pend) : Core :=
  { k.advance with pend := [p], meter := { k.meter with line := k.meter.line + d.rows * d.planes * (d.rowBytes / 64) } }

end Sys2Proof.Machine
end

