-- ==== Sys2Proof/Certificates/Slice0/Obligations.lean ====
section
/-! DEFINITION. Certificates/Slice0/Obligations.lean: the statements about the TQ-6120 that the provers are asked for, by part of
the device. Each says of a command when it completes, the state it then leaves, and with that state what it leaves unchanged. -/
open Sys2Proof Sys2Proof.Machine

/-! ### The tensor cores -/

/-- R401: a scalar ALU syllable that acts writes its result to s[SD], from the registers as they stood before the bundle; nothing
else changes but the choice of the next bundle. R401: MFA, RDFL and LCRD write the low 32 bits of an a register, the sticky flags
zero-extended, and the iterations remaining in a loop counter. R401: a compare sets every bit of p[PD] to its outcome; the
predicate operations are bitwise over 128 bits. R402: the address generator computes modulo 2^40: a register plus an immediate or
a scalar, plus a scalar times an immediate, an immediate, a zero-extended scalar. -/
def Obligations.ScalarUnitsWriteTheirResults : Prop :=
  (∀ (c : Fin 4) (w imm : BitVec 64) (s : State) (op : Nat) (i : Fin 4 → BitVec 64 → BitVec 64 → Instr)
     (f : BitVec 32 → BitVec 32 → BitVec 32), ((op, i), f) ∈ aluRows →
     s.canIssue c (oneSyllable 1 (sylWord 2 op w) imm) → predBit (s.core c) w.toNat 0 = true →
     exec (i c w imm) s = .next (s.setCore c ((s.core c).advance.setS (fld w.toNat 18 5)
       (f ((s.core c).sreg (fld w.toNat 23 5)) ((s.core c).aluB w imm))))) ∧
  (∀ (c : Fin 4) (w imm : BitVec 64) (s : State), predBit (s.core c) w.toNat 0 = true →
     (s.canIssue c (oneSyllable 1 (sylWord 2 0x30 w) imm) →
       exec (.mfa c w imm) s = .next (s.setCore c ((s.core c).advance.setS (fld w.toNat 18 5)
         (((s.core c).areg (fld w.toNat 23 4)).setWidth 32)))) ∧
     (s.canIssue c (oneSyllable 1 (sylWord 2 0x31 w) imm) →
       exec (.rdfl c w imm) s = .next (s.setCore c ((s.core c).advance.setS (fld w.toNat 18 5)
         ((s.core c).regs.fl.setWidth 32)))) ∧
     (s.canIssue c (oneSyllable 1 (sylWord 2 0x32 w) imm) →
       exec (.lcrd c w imm) s = .next (s.setCore c ((s.core c).advance.setS (fld w.toNat 18 5)
         ((s.core c).lcreg (fld w.toNat 23 2)).count)))) ∧
  ((∀ (c : Fin 4) (w imm : BitVec 64) (s : State) (op : Nat) (i : Fin 4 → BitVec 64 → BitVec 64 → Instr)
     (f : BitVec 32 → BitVec 32 → Bool), ((op, i), f) ∈ compareRows →
     s.canIssue c (oneSyllable 1 (sylWord 2 op w) imm) → predBit (s.core c) w.toNat 0 = true →
     exec (i c w imm) s = .next (s.setCore c ((s.core c).advance.setP (fld w.toNat 18 3)
       (if f ((s.core c).sreg (fld w.toNat 23 5)) ((s.core c).aluB w imm) then BitVec.allOnes 128 else 0)))) ∧
   (∀ (c : Fin 4) (w imm : BitVec 64) (s : State) (op : Nat) (i : Fin 4 → BitVec 64 → BitVec 64 → Instr)
     (f : BitVec 128 → BitVec 128 → BitVec 128), ((op, i), f) ∈ predRows →
     s.canIssue c (oneSyllable 1 (sylWord 2 op w) imm) → predBit (s.core c) w.toNat 0 = true →
     exec (i c w imm) s = .next (s.setCore c ((s.core c).advance.setP (fld w.toNat 18 3)
       (f ((s.core c).preg (fld w.toNat 23 3)) ((s.core c).preg (fld w.toNat 28 3))))))) ∧
  (∀ (c : Fin 4) (w imm : BitVec 64) (s : State), predBit (s.core c) w.toNat 0 = true →
     let k := s.core c
     let im : BitVec 40 := if w.getLsbD 17 then imm.setWidth 40 else (w.extractLsb' 32 32).signExtend 40
     let aa := k.areg (fld w.toNat 22 4)
     let sb := k.sreg (fld w.toNat 26 5)
     let done := fun (r : BitVec 40) => Host.Outcome.next (s.setCore c (k.advance.setA (fld w.toNat 18 4) r))
     (s.canIssue c (oneSyllable 3 (sylWord 3 1 w) imm) →
       exec (.aadd c w imm) s = done (aa + if w.getLsbD 31 then im else sb.signExtend 40)) ∧
     (s.canIssue c (oneSyllable 3 (sylWord 3 2 w) imm) → exec (.amadd c w imm) s = done (aa + sb.signExtend 40 * im)) ∧
     (s.canIssue c (oneSyllable 3 (sylWord 3 3 w) imm) → exec (.amov c w imm) s = done im) ∧
     (s.canIssue c (oneSyllable 3 (sylWord 3 4 w) imm) → exec (.amovs c w imm) s = done (sb.setWidth 40)))

/-- R403: scalar loads and stores of local memory move 1, 2 or 4 bytes at a naturally aligned address, little-endian, a load zero-
or sign-extended; LDTAG and STTAG move the tag of a line. A store changes those bytes alone and no tag. The model's choice: a long
immediate is a signed offset (log 17). -/
def Obligations.LocalLoadsAndStoresMoveTheirBytes : Prop :=
  ∀ (c : Fin 4) (w imm : BitVec 64) (s : State), predBit (s.core c) w.toNat 0 = true → (s.core c).quiet →
    let k := s.core c
    let a := (k.areg (fld w.toNat 23 4) +
      if w.getLsbD 17 then (imm.setWidth 32).signExtend 40 else (w.extractLsb' 27 24).signExtend 40).toNat
    let r := fld w.toNat 18 5
    let n := 2 ^ fld w.toNat 51 2
    let v := rdLE k.loc.data a n
    (s.canIssue c (oneSyllable 5 (sylWord 4 1 w) imm) → a % n = 0 → a + n ≤ 0x500000 →
      exec (.ld c w imm) s = .next (s.setCore c (k.advance.setS r
        (if w.getLsbD 53 then
            (if n = 1 then (BitVec.ofNat 8 v).signExtend 32 else if n = 2 then (BitVec.ofNat 16 v).signExtend 32
             else BitVec.ofNat 32 v)
         else BitVec.ofNat 32 v)))) ∧
    (s.canIssue c (oneSyllable 5 (sylWord 4 2 w) imm) → a % n = 0 → a + n ≤ 0x500000 →
      exec (.st c w imm) s = .next (s.setCore c { k.advance with
        loc := { k.loc with data := wrBytes k.loc.data a (leBytes (k.sreg r).toNat n) } })) ∧
    (s.canIssue c (oneSyllable 5 (sylWord 4 3 w) imm) → a % 64 = 0 → a + 64 ≤ 0x500000 →
      exec (.ldtag c w imm) s = .next (s.setCore c (k.advance.setS r ((k.loc.tag (a / 64)).setWidth 32)))) ∧
    (s.canIssue c (oneSyllable 5 (sylWord 4 4 w) imm) → a % 64 = 0 → a + 64 ≤ 0x500000 →
      exec (.sttag c w imm) s = .next (s.setCore c { k.advance with
        loc := { k.loc with tags := sput 0 k.loc.tags (a / 64) ((k.sreg r).setWidth 16) } }))

/-- R366, R370 to R372, R400: a branch, a loop and a halt that act at a bundle that ends no active loop: the next bundle, the loop
counter, the loops that a taken branch leaves, and the halt of a core with nothing outstanding. The model's choice: what a loop
counter holds after a loop with count 0 (log 14). -/
def Obligations.BranchesLoopsAndHaltChooseTheNextBundle : Prop :=
  ∀ (c : Fin 4) (w imm : BitVec 64) (s : State), predBit (s.core c) w.toNat 0 = true →
    let k := s.core c
    let p := k.regs.pc.toNat
    endingLoops k p = [] →
    (s.canIssue c (oneSyllable 0 (sylWord 1 1 w) imm) →
      exec (.br c w imm) s = .next (s.setCore c ((leaveLoops (fld w.toNat 18 12) k).goto (fld w.toNat 18 12)))) ∧
    (s.canIssue c (oneSyllable 0 (sylWord 1 2 w) imm) → (k.sreg (fld w.toNat 44 5)).toNat < 4096 →
      exec (.brs c w imm) s = .next (s.setCore c
        ((leaveLoops (k.sreg (fld w.toNat 44 5)).toNat k).goto (k.sreg (fld w.toNat 44 5)).toNat))) ∧
    (s.canIssue c (oneSyllable 0 (sylWord 1 3 w) imm) →
      let i := fld w.toNat 30 2
      let e := fld w.toNat 32 12
      let n : BitVec 32 := if w.getLsbD 49 then (if w.getLsbD 17 then imm.setWidth 32 else (w.extractLsb' 50 14).setWidth 32)
        else k.sreg (fld w.toNat 44 5)
      (k.lcreg i).active = false → p < e →
      (∀ j, j < 4 → (k.lcreg j).active = true → inBody (k.lcreg j) p = true → e ≤ (k.lcreg j).stop) →
      exec (.loop c w imm) s = .next (s.setCore c
        (if n = 0 then (leaveLoops (e + 1) (k.setLc i { count := 0, start := p, stop := e, active := false })).goto (e + 1)
         else (k.setLc i { count := n, start := p, stop := e, active := true }).goto (p + 1)))) ∧
    (s.canIssue c (oneSyllable 0 (sylWord 1 4 w) imm) → k.pend = [] →
      exec (.halt c w imm) s = .next (s.setCore c { k.goto (p + 1) with run := .halted, winOpen := false, shadow := none }))

/-- R396: a syllable other than a branch whose predicate is false has no effect: the bundle issues, and only the next bundle is
chosen. R353, R355, R356: BUNDLE_ISSUE issues the sixteen syllables at the PC: one of all-zero slots only chooses the next bundle;
one with a single syllable does what that row does; and two syllables of one bundle both read the registers as they stood before
it. R602: a single-bit error in the bundle fetched is corrected and counted, and the bundle issues. R355, R359, R421, R422, R611: a
core that does not run, or that a wait or a replay holds, issues nothing: the state is unchanged. R391, R393: a
bundle with an illegal syllable raises ILLEGAL in the lowest slot at fault, and a bundle beyond index 4,095 raises PC_RANGE:
cause, slot and bundle index stand in SYS_CORE_EXCn. The model's choice: which fields a syllable may set (log 24). -/
def Obligations.BundlesIssueUnderTheirRules : Prop :=
  (∀ (c : Fin 4) (w : Nat) (imm : BitVec 64) (slot : Nat) (s : State), 0 < slot → slot < 14 →
     s.canIssue c (oneSyllable slot w imm) → sylActs (s.core c) w = false →
     issue c (oneSyllable slot w imm) s = s.setCore c (s.core c).advance) ∧
  (∀ (c : Fin 4) (s : State),
     let k := s.core c
     let p := k.regs.pc.toNat
     let l := fetched k p
     (p ∈ k.imemUpset → s.live → exec (.bundleIssue c) s = exec (.bundleIssue c)
       { s.setCore c { k with imemUpset := k.imemUpset.filter (fun i => i ≠ p) } with
         err := { s.err with eccCore := min 0xFF (s.err.eccCore + 1) } }) ∧
     (p ∉ k.imemUpset → l = List.replicate 16 0 → s.canIssue c l → exec (.bundleIssue c) s = .next (s.setCore c k.advance)) ∧
     (∀ w imm : BitVec 64, p ∉ k.imemUpset → l = oneSyllable 1 (sylWord 2 1 w) imm → exec (.bundleIssue c) s = exec (.add c w imm) s) ∧
     (∀ w w' : BitVec 64, p ∉ k.imemUpset → l = ((List.replicate 16 0).set 1 (sylWord 2 1 w)).set 2 (sylWord 2 2 w') → s.canIssue c l →
       predBit k w.toNat 0 = true → predBit k w'.toNat 0 = true →
       exec (.bundleIssue c) s = .next (s.setCore c ((k.advance.setS (fld w.toNat 18 5)
         (k.sreg (fld w.toNat 23 5) + k.aluB w 0)).setS (fld w'.toNat 18 5) (k.sreg (fld w'.toNat 23 5) - k.aluB w' 0))))) ∧
  (∀ (c : Fin 4) (l : List Nat) (s : State), (s.core c).run ≠ .running ∨ (s.core c).wait.isSome = true ∨ (s.core c).replaying = true →
     issue c l s = s) ∧
  (∀ (c : Fin 4) (l : List Nat) (s : State), (s.core c).run = .running → (s.core c).wait = none → (s.core c).replaying = false →
     let p := (s.core c).regs.pc.toNat
     let t := issue c l s
     (∀ i, p < 4096 → illegalSlot l = some i →
       (t.core c).excCause = 0x01 ∧ (t.core c).excSlot = i ∧ (t.core c).excPc = p ∧ (t.core c).excValid = true) ∧
     (4096 ≤ p → (t.core c).excCause = 0x02 ∧ (t.core c).excSlot = 0 ∧ (t.core c).excValid = true))

/-- R412: the INT32 lane operations write the active lanes of v[VD], each from the same lane of its operands as they stood before
the bundle; every other lane and register is unchanged. R412, R467, R471, R481: the binary32 lane operations, the saturating add
and the conversions write the active lanes and join the flags of those lanes to fl. R412: a lane comparison writes the active
lanes' bits of p[PD] and leaves the others; only its flags and metering change besides. R412, R472: what an INT32 comparison says
of its lanes: equal, less, less or equal, without a flag. -/
def Obligations.LaneOperationsWriteTheActiveLanes : Prop :=
  (∀ (c : Fin 4) (w imm : BitVec 64) (s : State) (op : Nat) (i : Fin 4 → BitVec 64 → BitVec 64 → Instr)
     (f : BitVec 32 → BitVec 32 → BitVec 32 → BitVec 32), ((op, i), f) ∈ intLaneRows →
     s.canIssue c (oneSyllable 9 (sylWord 8 op w) imm) → w.getLsbD 42 = false → someLane (s.core c) w.toNat →
     ∃ k', exec (i c w imm) s = .next (s.setCore c k') ∧ k' = (s.core c).vectorDone k'.v 0 ∧
       lanesWritten (s.core c) k' w.toNat (fld w.toNat 18 6) (fun l =>
         f ((s.core c).lane (fld w.toNat 24 6) l) ((s.core c).vecB w imm l) ((s.core c).lane (fld w.toNat 18 6) l))) ∧
  (∀ (c : Fin 4) (w imm : BitVec 64) (s : State) (op : Nat) (i : Fin 4 → BitVec 64 → BitVec 64 → Instr) (t : Bool)
     (f : BitVec 32 → BitVec 32 → BitVec 32 → BitVec 32 × BitVec 4), ((op, i), t, f) ∈ flagLaneRows →
     s.canIssue c (oneSyllable 9 (sylWord 8 op w) imm) → w.getLsbD 42 = t → someLane (s.core c) w.toNat →
     let r := fun l =>
       f ((s.core c).lane (fld w.toNat 24 6) l) ((s.core c).vecB w imm l) ((s.core c).lane (fld w.toNat 18 6) l)
     ∃ k', exec (i c w imm) s = .next (s.setCore c k') ∧
       k' = (s.core c).vectorDone k'.v (activeFlags (s.core c) w.toNat (fun l => (r l).2)) ∧
       lanesWritten (s.core c) k' w.toNat (fld w.toNat 18 6) (fun l => (r l).1)) ∧
  (∀ (c : Fin 4) (w imm : BitVec 64) (s : State) (op : Nat) (i : Fin 4 → BitVec 64 → BitVec 64 → Instr),
     (op, i) ∈ ([(0x10, .vcmpeq), (0x11, .vcmplt), (0x12, .vcmple)] : List SylRow) →
     s.canIssue c (oneSyllable 9 (sylWord 8 op w) imm) → someLane (s.core c) w.toNat →
     let k := s.core c
     let r := fun l => laneCmp op (w.getLsbD 42) (k.lane (fld w.toNat 24 6) l) (k.vecB w imm l)
     ∃ p, exec (i c w imm) s = .next (s.setCore c
         ((k.vectorDone k.v (activeFlags k w.toNat (fun l => (r l).2))).setP (fld w.toNat 18 3) p)) ∧
       ∀ l, l < 128 → p.getLsbD l = if predBit k w.toNat l then (r l).1 else (k.preg (fld w.toNat 18 3)).getLsbD l) ∧
  (∀ a b : BitVec 32, laneCmp 0x10 false a b = (a == b, 0) ∧ laneCmp 0x11 false a b = (a.slt b, 0) ∧
     laneCmp 0x12 false a b = (a.sle b, 0))

/-- R412: VPERM takes lane index modulo 128, VBCAST copies a scalar to the active lanes, VRED leaves the sum of all lanes of a
balanced pairwise tree in lane 0 and 0 elsewhere, and VMOVS copies lane 0 to s[SD]. R412: the INT32 reduction tree sums all 128
lanes modulo 2^32. -/
def Obligations.VectorMovesAndReductions : Prop :=
  (∀ (c : Fin 4) (w imm : BitVec 64) (s : State), someLane (s.core c) w.toNat →
     let k := s.core c
     let va := fld w.toNat 24 6
     let vd := fld w.toNat 18 6
     (s.canIssue c (oneSyllable 9 (sylWord 8 0x20 w) imm) →
       ∃ k', exec (.vperm c w imm) s = .next (s.setCore c k') ∧ k' = k.vectorDone k'.v 0 ∧
         lanesWritten k k' w.toNat vd (fun l => k.lane va ((k.lane (fld w.toNat 30 6) l).toNat % 128))) ∧
     (s.canIssue c (oneSyllable 9 (sylWord 8 0x21 w) imm) →
       ∃ k', exec (.vbcast c w imm) s = .next (s.setCore c k') ∧ k' = k.vectorDone k'.v 0 ∧
         lanesWritten k k' w.toNat vd (fun _ => k.sreg (fld w.toNat 36 5))) ∧
     (s.canIssue c (oneSyllable 9 (sylWord 8 0x22 w) imm) →
       let r := laneTree (w.getLsbD 42) 7 ((List.range 128).map (k.lane va))
       ∃ k', exec (.vred c w imm) s = .next (s.setCore c k') ∧ k' = k.vectorDone k'.v r.2 ∧
         lanesWritten k k' w.toNat vd (fun l => if l = 0 then r.1.headD 0 else 0)) ∧
     (s.canIssue c (oneSyllable 9 (sylWord 8 0x23 w) imm) →
       exec (.vmovs c w imm) s = .next (s.setCore c
         (if predBit k w.toNat 0 then (k.vectorDone k.v 0).setS (fld w.toNat 36 5) (k.lane va 0) else k.vectorDone k.v 0)))) ∧
  (∀ l : List (BitVec 32), l.length = 128 → (laneTree false 7 l).1.headD 0 = l.sum ∧ (laneTree false 7 l).2 = 0)

/-- R413: VLD widens 128 packed elements from an aligned address of local memory into the active lanes; VST writes the active
lanes of whole lines with a tag of scale 127 and the lane type, and no byte outside its 512. -/
def Obligations.VectorLoadsAndStoresUseWholeLines : Prop :=
  ∀ (c : Fin 4) (w imm : BitVec 64) (s : State), someLane (s.core c) w.toNat → (s.core c).quiet →
    let k := s.core c
    let vd := fld w.toNat 18 6
    let a := (k.areg (fld w.toNat 47 4) + ((w.extractLsb' 51 13).signExtend 40) * 64).toNat
    (s.canIssue c (oneSyllable 9 (sylWord 8 0x30 w) imm) →
      let e := vldElem (fld w.toNat 43 4)
      a % 64 = 0 → a + 16 * e.bits ≤ 0x500000 →
      ∃ k', exec (.vld c w imm) s = .next (s.setCore c k') ∧ k' = k.vectorDone k'.v 0 ∧
        lanesWritten k k' w.toNat vd (fun l => vldWiden e (elemCode k.loc.data a l e.bits))) ∧
    (s.canIssue c (oneSyllable 9 (sylWord 8 0x31 w) imm) → a % 64 = 0 → a + 512 ≤ 0x500000 →
      ∃ loc, exec (.vst c w imm) s = .next (s.setCore c { k.vectorDone k.v 0 with loc := loc }) ∧
        (∀ l j, l < 128 → j < 4 → rdByte loc.data (a + 4 * l + j) =
          if predBit k w.toNat l then (k.lane vd l).extractLsb' (8 * j) 8 else rdByte k.loc.data (a + 4 * l + j)) ∧
        (∀ b, b < a ∨ a + 512 ≤ b → rdByte loc.data b = rdByte k.loc.data b) ∧
        (∀ i, i < 8 → loc.tag (a / 64 + i) =
          if (List.range 16).any (fun j => predBit k w.toNat (16 * i + j)) then
            (if w.getLsbD 42 then 0xA07F else 0x507F) else k.loc.tag (a / 64 + i)))

/-- R405 to R411: MM and CONV that meet the descriptor's bounds leave the reduction of their operands in rows ROW to ROW + M - 1
and columns 0 to N - 1 of the accumulator, in the domain of their mode; no other accumulator element and no register changes.
R407, R409, R468, R491: an INT8 by INT8 element of MM with at most 64 reduction elements in lines of scale 127 is the old element
plus the sum of the products, saturated to 48 bits. R405: ACLR clears CM rows of the accumulator, in every column. The
model's choice: the domain bit of a cleared row reads integer (log 80). -/
def Obligations.TensorOperationsWriteTheAccumulator : Prop :=
  (∀ (c : Fin 4) (w imm : BitVec 64) (s : State) (conv : Bool),
     let k := s.core c
     let d := k.tensorDesc w
     s.canIssue c (oneSyllable 8 (sylWord 7 (if conv then 2 else 1) w) imm) → predBit k w.toNat 0 = true → k.quiet →
     k.tensorOk w conv →
     ∃ k', exec (if conv then .conv c w imm else .mm c w imm) s = .next (s.setCore c k') ∧
       k' = { k.advance with acc := k'.acc, accDom := k'.accDom, regs := { k.advance.regs with fl := k'.regs.fl },
                             meter := meterMacs (fld w.toNat 31 4) (d.m * d.kg conv * d.n) k.meter } ∧
       (∀ j n, j < d.m → n < d.n → k'.accel (accRow w + j) n = k.tensorElement w conv j n) ∧
       (∀ r n, r < 512 → n < 128 → r < accRow w ∨ accRow w + d.m ≤ r ∨ d.n ≤ n → k'.accel r n = k.accel r n) ∧
       (∀ j, j < d.m → sget 0 k'.accDom (accRow w + j) = if 4 ≤ fld w.toNat 31 4 then 1 else 0)) ∧
  (∀ (m : Lines) (d : TDesc) (j n : Nat) (a0 : Int), 1 ≤ d.k → d.k ≤ 64 → d.inp % 64 = 0 → d.inRow % 64 = 0 →
     tagScale (m.tag ((d.inp + j * d.inRow) / 64)) = 127 →
     tagScale (m.tag ((d.wt + n) / 64)) = 127 →
     let sum := ((List.range d.k).map (fun i =>
       (rdByte m.data (d.inp + j * d.inRow + i)).toInt * (rdByte m.data (d.wt + i * d.wtRow + n)).toInt)).sum
     (intElement m d false 8 8 j n a0).1 = max (-(2 ^ 47)) (min (2 ^ 47 - 1) (a0 + sum))) ∧
  (∀ (c : Fin 4) (w imm : BitVec 64) (s : State),
     let k := s.core c
     let n := fld w.toNat 36 10
     s.canIssue c (oneSyllable 8 (sylWord 7 3 w) imm) → predBit k w.toNat 0 = true → accRow w + n ≤ 512 →
     ∃ k', exec (.aclr c w imm) s = .next (s.setCore c k') ∧
       k' = { k.advance with acc := k'.acc, accDom := k'.accDom } ∧
       (∀ r i, r < 512 → i < 128 → k'.accel r i = if accRow w ≤ r ∧ r < accRow w + n then 0 else k.accel r i) ∧
       (∀ r, sget 0 k'.accDom r = if accRow w ≤ r ∧ r < accRow w + n then 0 else sget 0 k.accDom r))

/-- R414, R415, R418, R495 to R498: RQA and RQV write M rows of N rescaled elements, each row packed in whole lines tagged with
OUT_EXP, its saturation count and the output format; nothing outside the output changes in local memory, and of the core only
flags and group saturation counters besides. R464, R497: an integer value is rescaled to INT8 as the value times M, divided by 2^S
rounding half to even, plus the zero point, saturated; the element counts as saturated exactly where that leaves the range. -/
def Obligations.RescaleWritesItsOutputRows : Prop :=
  (∀ (c : Fin 4) (w imm : BitVec 64) (s : State) (rqv : Bool),
     let k := s.core c
     let d := k.rescaleDesc w
     s.canIssue c (oneSyllable 11 (sylWord 9 (if rqv then 2 else 1) w) imm) → predBit k w.toNat 0 = true → k.quiet →
     k.rescaleOk w rqv →
     ∃ k', exec (if rqv then .rqv c w imm else .rqa c w imm) s = .next (s.setCore c k') ∧
       k' = { k.advance with loc := k'.loc, regs := { k.advance.regs with fl := k'.regs.fl, satc := k'.regs.satc } } ∧
       (∀ j, j < d.m → holdsElements k'.loc (d.out / 64 + j * (d.stride / 64)) d.ofmt d.exp
         ((List.range d.n).map (k.rescaled w rqv j))) ∧
       sameOutside k.loc k'.loc d.out (d.out + (d.m - 1) * d.stride + 64 * outLines d.n d.ofmt)) ∧
  (∀ (d : RDesc) (entry : Nat) (a : Int) (lut : Nat → Nat), d.ofmt = 0 → d.act = 0 → bitN entry 59 = false →
     let v := rhe (a * fld entry 0 24) (2 ^ fld entry 24 6) + toSigned (fld entry 32 8) 8
     (rescaleEl d entry (.num false a 0) lut).code = ofSigned (max (-128) (min 127 v)) 8 ∧
     ((rescaleEl d entry (.num false a 0) lut).sat = true ↔ v < -128 ∨ 127 < v))

/-- R417, R418, R439 to R445: POOL and GPOOL write one pixel of whole lines, scale 127, for each output position, from the input
as it stood; outside the output local memory is unchanged, and only flags besides. The elements are stated for outputs whose rows
do not overlap. R417, R418, R446 to R450: CROP writes, for each box, a pixel of whole lines for each output position. -/
def Obligations.PoolAndCropWriteTheirOutputs : Prop :=
  (∀ (c : Fin 4) (w imm : BitVec 64) (s : State) (global : Bool),
     let k := s.core c
     let b := k.poolBytes w
     let out := leAt b 8 8
     let cl := leAt b 0x18 2
     let fmt := byteAt b 0x1A
     s.canIssue c (oneSyllable 12 (sylWord 10 (if global then 2 else 1) w) imm) → predBit k w.toNat 0 = true → k.quiet →
     k.poolOk w global →
     ∃ k', exec (if global then .gpool c w imm else .pool c w imm) s = .next (s.setCore c k') ∧
       k' = { k.advance with loc := k'.loc, regs := { k.advance.regs with fl := k'.regs.fl } } ∧
       sameOutside k.loc k'.loc out (out + imageSpan (leAt b 0x16 2) (leAt b 0x2C 4) (leAt b 0x14 2) cl) ∧
       (leAt b 0x14 2 * cl * 64 ≤ leAt b 0x2C 4 ∨ leAt b 0x16 2 = 1 →
         ∀ oy ox, oy < leAt b 0x16 2 → ox < leAt b 0x14 2 →
           holdsElements k'.loc ((out + oy * leAt b 0x2C 4 + ox * cl * 64) / 64) fmt 127
             ((List.range (cl * (512 / (ofmtElem fmt).bits))).map (k.pooled w global oy ox)))) ∧
  (∀ (c : Fin 4) (w imm : BitVec 64) (s : State),
     let k := s.core c
     let b := k.poolBytes w
     let out := leAt b 8 8
     let cl := leAt b 0x1C 2
     let fmt := byteAt b 0x22
     s.canIssue c (oneSyllable 12 (sylWord 10 3 w) imm) → predBit k w.toNat 0 = true → k.quiet → k.cropOk w →
     ∃ k', exec (.crop c w imm) s = .next (s.setCore c k') ∧
       k' = { k.advance with loc := k'.loc, regs := { k.advance.regs with fl := k'.regs.fl } } ∧
       sameOutside k.loc k'.loc out (out + (leAt b 0x1E 2 - 1) * leAt b 0x2C 4 + byteAt b 0x20 * byteAt b 0x21 * cl * 64) ∧
       ∀ i v u, i < leAt b 0x1E 2 → v < byteAt b 0x21 → u < byteAt b 0x20 →
         holdsElements k'.loc ((out + i * leAt b 0x2C 4 + (v * byteAt b 0x20 + u) * cl * 64) / 64) fmt 127
           ((List.range (cl * (512 / (ofmtElem fmt).bits))).map (k.cropped w i v u)))

/-- R374, R419: a word access or an atomic on this chip's Harbour, aligned and in the job's window, becomes outstanding with its
operands as they stood; nothing else changes until it is performed. R374, R419, R420, R542: HARBOUR_WORD_ACCESS_DONE performs the
oldest word access of a core in one step: the word read goes to its s register, the word written is the operand or the atomic's
result, status OK goes to s[ST] under CHECK, and the access is no longer outstanding; it powers the bank and corrects a single-bit
error of the line (R603, R757). R419: the results of the atomics: add,
signed minimum and maximum, swap, compare and swap. -/
def Obligations.WordAccessesAndAtomicsAreOneStep : Prop :=
  (∀ (c : Fin 4) (w imm : BitVec 64) (s : State) (wt : Watch) (op : Nat) (i : Fin 4 → BitVec 64 → BitVec 64 → Instr),
     (op, i) ∈ wordRows →
     let k := s.core c
     let a := k.syncAt w imm 4
     let sb := fld w.toNat 27 5
     s.canIssue c (oneSyllable 13 (sylWord 11 op w) imm) → predBit k w.toNat 0 = true → s.springWatch = some wt → k.pend = [] →
     a % 4 = 0 → inOwnWindow wt a 4 →
     exec (i c w imm) s = .next (s.setCore c { k.advance with pend := [
       { slot := 13, op := op, addr := a, val := k.sreg sb, val2 := k.sreg (sb + 1),
         sd := if op = 4 ∨ (5 ≤ op ∧ w.getLsbD 45 = true) then none else some (fld w.toNat 22 5),
         st := if w.getLsbD 43 then some (fld w.toNat 32 5) else none, pc := k.regs.pc.toNat,
         ranges := [⟨a / 64, a / 64, decide (op ≠ 3)⟩] }] })) ∧
  (∀ (c : Fin 4) (s : State) (p : Pend) (rest : List Pend), s.live →
     let k := s.core c
     let a := p.addr - 0x40000000
     let old : BitVec 32 := BitVec.ofNat 32 (s.hbr a 4)
     let new : BitVec 32 := if p.op = 4 then p.val else atomicResult p.op old p.val p.val2
     k.run = .running → k.wait = none → k.replaying = false → k.pend = p :: rest → p.localWord = true →
     0x40000000 ≤ p.addr → p.addr < 2 ^ 36 → s.harbour.poisoned (a / 64) = false →
     let k1 := match p.sd with
       | some r => Core.setS { k with pend := rest } r old
       | none => { k with pend := rest }
     let k2 := if 5 ≤ p.op then { k1 with winOpen := false, shadow := none } else k1
     let k3 := match p.st with
       | some r => k2.setS r 0
       | none => k2
     exec (.harbourWordAccessDone c) s =
       .next ((if p.op = 3 then s.visit a 4 else (s.visit a 4).putHbr a (leBytes new.toNat 4)).setCore c k3)) ∧
  (∀ old v v2 : BitVec 32, atomicResult 5 old v v2 = old + v ∧ atomicResult 6 old v v2 = (if v.slt old then v else old) ∧
     atomicResult 7 old v v2 = (if old.slt v then v else old) ∧ atomicResult 8 old v v2 = v ∧
     atomicResult 9 old v v2 = if old = v then v2 else old)

/-- R421, R537: FENCE and ACQ complete at once when what they wait for has completed: a fence closes the replay window, an acquire
frees the retained lines of its range; FENCE otherwise holds every later bundle. R422: EVWAIT takes its count from the event
counter once that holds it, and holds the core until then. R386, R422, R539, R608: HEAD queues a request of its job at the Stem
engine and closes the replay window, and holds the bundle while the engine holds four (R349) or a stream fetch of the core is
outstanding; CKPT passes the next point, opens the window with a shadow of the registers, and stops the
core where a checkpoint started with that point. R423, R576 to R578: EPUB to the job's own chip sets the marker entry of its core
and closes the window; EWAIT goes on when every core of the source job has published the epoch, and holds the core until then. The
model's choices: EWAIT before any marker (log 16), EPUB to the own chip (log 32). -/
def Obligations.SyncSyllablesHoldOrComplete : Prop :=
  (∀ (c : Fin 4) (w imm : BitVec 64) (s : State) (wt : Watch) (scope : Nat) (f q : Fin 4 → BitVec 64 → BitVec 64 → Instr),
     let k := s.core c
     let st : Option Nat := if w.getLsbD 43 then some (fld w.toNat 32 5) else none
     predBit k w.toNat 0 = true → s.springWatch = some wt →
     ((scope, f) ∈ ([(0, .fenceCore), (1, .fenceChip), (2, .fenceSys)] : List SylRow) →
       s.canIssue c (oneSyllable 13 (syncScoped 1 scope w) imm) →
       (fenceDone scope k = true → k.tainted = [] →
         exec (f c w imm) s = .next (s.setCore c (Core.okStatus { k.waitedAt s.sys.tick with winOpen := false, shadow := none } w))) ∧
       (fenceDone scope k = false →
         exec (f c w imm) s = .next (s.setCore c { k.waitedAt s.sys.tick with wait := some (.fence scope st) }))) ∧
     ((scope, q) ∈ ([(1, .acqChip), (2, .acqSys)] : List SylRow) →
       s.canIssue c (oneSyllable 13 (syncScoped 2 scope w) imm) → k.pend = [] → k.tainted = [] →
       let a := (k.areg (fld w.toNat 18 4)).toNat
       let n := (k.sreg (fld w.toNat 27 5)).toNat
       0 < n → (harbourAddr (64 * (a / 64)) (64 * ((a + n - 1) / 64 - a / 64 + 1))).isSome = true →
       exec (q c w imm) s = .next (s.setCore c (Core.okStatus { k.waitedAt s.sys.tick with
         retain := k.retain.filter (fun e =>
           !(decide (a / 64 ≤ e.1) && decide (e.1 ≤ (a + n - 1) / 64) && (scope == 2 || decide (e.1 < 2 ^ 30)))) } w)))) ∧
  (∀ (c : Fin 4) (w imm : BitVec 64) (s : State) (wt : Watch),
     let k := s.core c
     let e := fld w.toNat 37 4
     let n := (k.syncCount w imm).toNat
     s.canIssue c (oneSyllable 13 (sylWord 11 0xA w) imm) → predBit k w.toNat 0 = true → s.springWatch = some wt →
     (n ≤ (k.evreg e).toNat →
       exec (.evwait c w imm) s = .next (s.setCore c ((k.waitedAt s.sys.tick).setEv e (BitVec.ofNat 8 ((k.evreg e).toNat - n))))) ∧
     ((k.evreg e).toNat < n →
       exec (.evwait c w imm) s = .next (s.setCore c { k.waitedAt s.sys.tick with wait := some (.event e n) }))) ∧
  (∀ (c : Fin 4) (w imm : BitVec 64) (s : State) (wt : Watch),
     let k := s.core c
     predBit k w.toNat 0 = true → s.springWatch = some wt →
     (let a := k.syncAt w imm 64;
       s.canIssue c (oneSyllable 13 (sylWord 11 0xB w) imm) → a % 64 = 0 → inOwnWindow wt a 64 →
       ResetUnit.stem ∉ s.sys.resetting →
       (4 ≤ s.heldHeads ∨ (∃ p ∈ k.pend, p.stream.isSome = true) → exec (.head c w imm) s = .next s) ∧
       (s.heldHeads < 4 → (∀ p ∈ k.pend, (p.localWord = true → p.op = 3) ∧ p.stream = none) →
        exec (.head c w imm) s = .next ((({ s with stem := { s.stem with queue := s.stem.queue ++
           [{ watch := wt.entry.num, kind := .head (some c.val) (a - 0x40000000) (fld w.toNat 37 4) }] } } : State)).setCore c
         { k.advance with heads := k.heads + 1, winOpen := false, shadow := none }))) ∧
     (let n := (k.syncCount w imm).toNat % 65536;
       s.canIssue c (oneSyllable 13 (sylWord 11 0xC w) imm) → n = k.point + 1 →
       exec (.ckpt c w imm) s = .next (s.setCore c { k.advance with
         point := n, winOpen := true, winReplayed := false,
         shadow := some { regs := k.advance.regs, point := n, loadLog := k.loadLog },
         run := if wt.job.bind (fun j => j.ckpt) = some n then .stopped else .running }))) ∧
  (∀ (c : Fin 4) (w imm : BitVec 64) (s : State) (wt : Watch),
     let k := s.core c
     let chip := (k.sreg (fld w.toNat 27 5)).toNat % 16
     let n := (sync16 w imm).toNat
     let st : Option Nat := if w.getLsbD 43 then some (fld w.toNat 32 5) else none
     predBit k w.toNat 0 = true → s.springWatch = some wt → k.tainted = [] →
     (s.canIssue c (oneSyllable 13 (sylWord 11 0xD w) imm) → k.pend = [] → chip = s.myChip → s.markerOk wt.entry.num chip = true →
       exec (.epub c w imm) s = .next ((storeMarker wt.entry.num chip (coreIndex wt c) n wt.coreList.length s).setCore c
         (Core.okStatus { k.waitedAt s.sys.tick with winOpen := false, shadow := none } w))) ∧
     (s.canIssue c (oneSyllable 13 (sylWord 11 0xE w) imm) → ∀ m, s.marker? wt.entry.num chip = some m →
       (m.reached n = true → exec (.ewait c w imm) s = .next (s.setCore c ((k.waitedAt s.sys.tick).okStatus w))) ∧
       (m.reached n = false →
         exec (.ewait c w imm) s = .next (s.setCore c { k.waitedAt s.sys.tick with wait := some (.epoch chip n st) }))))

/-- R376 to R382, R404: the transfers on this chip: each becomes outstanding under its ranges and its event, and moves the lines
of its rows with their tags. COPY_IN and IMEM change nothing outside the core; STREAM_FETCH moves nothing until its block has
come, and takes its place in the order of the fetches (R249); COPY_OUT changes the Harbour alone besides the core. A bank of the
Harbour that a transfer reads or writes is powered (R757). What a row of lines holds afterwards is stated for a transfer of one
row. R380, R391: DMA_COMPLETE ends an outstanding transfer of this chip and raises its event counter by one, or raises
EVENT_OVERFLOW where the counter stands at 255. The model's choices: the data move at issue (log 15), a misaligned end is DMA_DESC
(log 33), the entries of the load log (log 35). -/
def Obligations.DmaMovesItsRowsAndCompletes : Prop :=
  (∀ (c : Fin 4) (w imm : BitVec 64) (s : State) (wt : Watch),
     let k := s.core c
     let d := k.dmaDesc w
     let p := k.regs.pc.toNat
     predBit k w.toNat 0 = true → s.springWatch = some wt → k.quiet → k.retain = [] → s.harbour.poison = [] → s.harbour.upset = [] →
     s.harbour.wf = true →
     (s.canIssue c (oneSyllable 6 (sylWord 5 1 w) imm) → k.dmaOk w wt 0 6 →
       ∃ t k', exec (.copyIn c w imm) s = .next t ∧
         t = ({ s with tide := { s.tide with banksOn := t.tide.banksOn } } : State).setCore c k' ∧
         k' = { k.dmaIssued d (d.pend 6 p) with loc := k'.loc, retain := k'.retain } ∧
         (d.rows = 1 → d.planes = 1 → ∀ i, i < d.rowBytes / 64 →
           k'.loc.line (d.dst / 64 + i) = s.harbour.line ((d.src - 0x40000000) / 64 + i) ∧
           k'.loc.tag (d.dst / 64 + i) =
             if d.tags = 1 then BitVec.ofNat 16 d.tagValue else s.harbour.tag ((d.src - 0x40000000) / 64 + i)) ∧
         (d.rows = 1 → d.planes = 1 → sameOutside k.loc k'.loc d.dst (d.dst + d.rowBytes))) ∧
     (s.canIssue c (oneSyllable 7 (sylWord 6 1 w) imm) → k.dmaOk w wt 1 7 →
       ∃ t, exec (.copyOut c w imm) s = .next t ∧
         t = ({ s with harbour := t.harbour, tide := { s.tide with banksOn := t.tide.banksOn } } : State).setCore c
           (k.dmaIssued d (d.pend 7 p)) ∧
         (d.rows = 1 → d.planes = 1 → ∀ i, i < d.rowBytes / 64 →
           t.harbour.line ((d.dst - 0x40000000) / 64 + i) = k.loc.line (d.src / 64 + i) ∧
           t.harbour.tag ((d.dst - 0x40000000) / 64 + i) =
             if d.tags = 1 then BitVec.ofNat 16 d.tagValue else k.loc.tag (d.src / 64 + i)) ∧
         (d.rows = 1 → d.planes = 1 →
           sameOutside s.harbour t.harbour (d.dst - 0x40000000) (d.dst - 0x40000000 + d.rowBytes))) ∧
     (s.canIssue c (oneSyllable 6 (sylWord 5 1 w) imm) → k.dmaOk w wt 2 6 → d.src < s.blockCount wt →
       exec (.streamFetch c w imm) s = .next
         (({ s with image := { s.image with streamIssued := s.image.streamIssued + 1 } } : State).setCore c
           (k.dmaIssued d { d.pend 6 p with stream := some (d.src, d.dst - 0x40000000), order := s.image.streamIssued }))) ∧
     (s.canIssue c (oneSyllable 6 (sylWord 5 1 w) imm) → k.dmaOk w wt 3 6 → (wt.flag 7 = true → d.ordered s wt = true) →
       ∃ t k', exec (.imem c w imm) s = .next t ∧
         t = ({ s with tide := { s.tide with banksOn := t.tide.banksOn } } : State).setCore c k' ∧
         k' = { k.dmaIssued d (d.pend 6 p) with imem := k'.imem, loadLog := k'.loadLog } ∧
         (d.rows = 1 → d.planes = 1 → ∀ b, rdByte k'.imem b =
           if d.dst - 0x500000 ≤ b ∧ b < d.dst - 0x500000 + d.rowBytes
           then rdByte s.harbour.data (d.src - 0x40000000 + (b - (d.dst - 0x500000))) else rdByte k.imem b) ∧
         (d.rows = 1 → d.planes = 1 → k'.loadLog = (k.loadLog ++
           [({ src := d.src - 0x40000000, first := (d.dst - 0x500000) / 128, count := d.rowBytes / 128 } : LoadLog)]).drop
              (k.loadLog.length + 1 - 8)))) ∧
  (∀ (c : Fin 4) (s : State) (n : Nat) (p : Pend) (block reread : List Byte), s.live →
     let k := s.core c
     k.run = .running → k.wait = none → k.replaying = false → k.pend[n]? = some p → p.slot = 6 ∨ p.slot = 7 → p.chip = none →
       p.stream = none →
     p.poison = none →
     (p.event = none →
       exec (.dmaComplete c n block reread) s = .next (s.setCore c { k with pend := k.pend.eraseIdx n })) ∧
     (∀ e : Nat, p.event = some e → (k.evreg e).toNat < 255 →
       exec (.dmaComplete c n block reread) s = .next (s.setCore c (Core.setEv { k with pend := k.pend.eraseIdx n } e (k.evreg e + 1)))) ∧
     (∀ e : Nat, p.event = some e → (k.evreg e).toNat = 255 → ∃ t, exec (.dmaComplete c n block reread) s = .next t ∧
       (t.core c).excCause = 0x08 ∧ (t.core c).excSlot = p.slot ∧ (t.core c).excValid = true))

/-- R391: a wait that lasts too long raises WAIT_TIMEOUT in slot 13; it stands in SYS_CORE_EXCn. R609 to R611, R613: an
uncorrectable error inside an open replay window that has not been replayed yet is a tile replay: the core's registers, point and
load log are those of the shadow frame, its retain buffer is empty and SYS_ERR.REPLAYS counts it; outside any window it is the
exception MEMORY. -/
def Obligations.CoreErrorsRaiseOrReplay : Prop :=
  (∀ (c : Fin 4) (s : State), s.live → (s.core c).wait.isSome = true → (s.core c).run = .running →
     ∃ t, exec (.waitTimeout c) s = .next t ∧ (t.core c).excCause = 0x09 ∧ (t.core c).excSlot = 13 ∧
       (t.core c).excPc = (s.core c).lastPc % 4096 ∧ (t.core c).excValid = true) ∧
  (∀ (c : Fin 4) (s : State) (w : Watch) (j : Job) (addr : Nat) (slot : Fin 16) (pc : BitVec 12), s.live →
     let k := s.core c
     k.run = .running → k.wait = none → k.pend = [] → s.springWatch = some w → s.watch? w.entry.num = some w →
     (∀ f, k.winOpen = true → k.winReplayed = false → k.shadow = some f →
       ∃ t, exec (.uncorrectableError c .acc addr slot pc) s = .next t ∧
         t.core c = { k with regs := f.regs, point := f.point, loadLog := f.loadLog, retain := [], winReplayed := true,
                             early := [], before := none, replaying := false, replayLoads := false } ∧
         t.err.replays = min 255 (s.err.replays + 1) ∧ t.harbour = s.harbour ∧ t.tide = s.tide ∧
         (w.job = some j → t.watch? w.entry.num = some { w with job := some { j with tileReplays := j.tileReplays + 1 } })) ∧
     (k.winOpen = false →
       ∃ t, exec (.uncorrectableError c .acc addr slot pc) s = .next t ∧ (t.core c).excCause = 0x15 ∧
         (t.core c).excSlot = slot.val ∧ (t.core c).excPc = pc.toNat ∧ (t.core c).excValid = true))

/-! ### Steps and the queue of commands -/

/-- A step takes the command at the front of the queue and is exec of it with the rest of the queue. -/
def Obligations.StepRunsTheFrontCommand : Prop :=
  ∀ (s : State) (i : Instr) (rest : List Instr),
    step { s with pending := i :: rest } = exec i { s with pending := rest }

/-- On an empty queue a step is one LFCLK tick (the model's choice, log 1): the 48-bit tick counter counts (R12), a device in
reset does nothing else, and out of reset TIDE_STATUS.THROTTLE reads 1 while a thermal cap is in force and TIDE_THROTTLE_TICKS
counts the tick, saturating (R126). No command changes the queue of waiting commands, and every command ends in a next state. -/
def Obligations.CommandsAndTicksAnswerANextState : Prop :=
  (∀ s : State, s.pending = [] → ∃ t, step s = .next t ∧ t.pending = [] ∧ t.sys.tick = (s.sys.tick + 1) % 2 ^ 48 ∧
     (s.sys.inReset = true → t = { s with sys := { s.sys with tick := (s.sys.tick + 1) % 2 ^ 48 }, fresh := {} }) ∧
     (s.live → t.tide.throttleTicks =
       if s.tide.thermalCap < 3 then min 0xFFFFFFFF (s.tide.throttleTicks + 1) else s.tide.throttleTicks) ∧
     (s.quayWord 0x300).getLsbD 6 = decide (s.tide.thermalCap < 3)) ∧
  (∀ (i : Instr) (s : State), ∃ t, exec i s = .next t ∧ t.pending = s.pending)

/-- At power-on reset the Quay words read their reset values (R714): SYS_ID, SYS_STATUS, SYS_BOOT, OBX_IRQ, TIDE_STATUS,
TIDE_CTRL, TIDE_RETAIN, GPIO_STATUS, the pins (R659), OTP_KEYS and PIX_SENT_CFG, and every other word of the map reads 0; no core
runs, no record is held, the Harbour and the Strand store list nothing, and reset is asserted by POR alone (R143, R161). The state
after reset has the invariants that every step keeps. The model's choice: the values for which the spec gives none (log 3). -/
def Obligations.ResetStateHoldsItsValues : Prop :=
  ((∀ a : Nat, a < 0x2000 → a % 4 = 0 → State.reset.quayWord a =
     if a = 0x000 then 0x61200A10 else if a = 0x004 ∨ a = 0x020 then 1 else if a = 0x104 then 0xF01 else if a = 0x304 then 0x30
     else if a = 0x300 then 0xC01 else if a = 0x320 then 0x80000000
     else if a = 0x51C then 0x3FF
     else if 0x540 ≤ a ∧ a < 0x560 then 0x03 else if 0x560 ≤ a ∧ a < 0x580 then 0x30 else if 0x580 ≤ a ∧ a < 0x590 then 0x20
     else if 0x590 ≤ a ∧ a < 0x59C then 0x30 else if a = 0x59C then 0x20000
     else if a = 0x814 then 0x700 else if a = 0xA04 then 0x08408000 else 0) ∧
   State.reset.sys.inReset = true ∧ State.reset.sys.asserted = 1 ∧ State.reset.pending = [] ∧
   (∀ c, (State.reset.core c).run = .off) ∧ State.reset.watches = [] ∧ State.reset.host.outbox = [] ∧
   State.reset.harbour = {} ∧ State.reset.strand.data = []) ∧
  (State.reset.memoriesWf = true ∧ State.reset.withinDepths = true ∧ State.reset.tableOk)

/-! ### The Host port -/

/-- A READ, a STREAM frame at another address than 0x0200 and an I²C read shift out bits of the Quay, each byte most significant bit
first, and change nothing else but the address that an I²C transfer leaves (R9, R10, R630, R632, R636, R642). A WRITE frame and an
I²C write transfer capture their whole
words for rising addresses, a misaligned one is dropped with WR_DROPPED, and an unknown command byte raises BAD_CMD (R629, R633,
R634, R636). -/
def Obligations.HostReadsAndWrites : Prop :=
  ((∀ (s : State) (a : BitVec 16) (n : Nat), s.spiReady → ∃ t, exec (.read true a n) s = .next t ∧
     t = { s with host := { s.host with out := t.host.out, cut := [] } } ∧ s.quayBytesAre a.toNat n t.host.out ∧
     s.quayBitsAre a.toNat (8 * n) t.host) ∧
   (∀ (s : State) (a : BitVec 16) (last : Bool) (bits : Nat), s.spiReady → a ≠ 0x0200 →
     ∃ t, exec (.stream true a true last bits) s = .next t ∧
       t = { s with host := { s.host with out := t.host.out, cut := t.host.cut } } ∧
       s.quayBytesAre a.toNat (bits / 8) t.host.out ∧ s.quayBitsAre a.toNat bits t.host) ∧
   (∀ (s : State) (d : BitVec 7) (o : Option (BitVec 16)) (n : Nat), s.i2cReady d →
     (o.map (·.toNat)).getD s.host.i2cNext ≠ 0x0200 → ∃ t, exec (.i2cReadTransfer d o n) s = .next t ∧
       t = { s with host := { s.host with
         out := t.host.out, cut := [], i2cNext := ((o.map (·.toNat)).getD s.host.i2cNext + n) % 65536 } } ∧
       s.quayBytesAre ((o.map (·.toNat)).getD s.host.i2cNext) n t.host.out ∧
       s.quayBitsAre ((o.map (·.toNat)).getD s.host.i2cNext) (8 * n) t.host) ∧
   (∀ (s : State) (a : BitVec 16) (n : Nat), s.live → s.sys.hostAnswers = false → exec (.read true a n) s = .next s)) ∧
  ((∀ (s : State) (a : BitVec 16) (ws : List Word) (x : Nat), s.spiReady → a.toNat % 4 = 0 →
     exec (.write true a ws x) s = .next { s with host := { s.host.captures a.toNat ws with out := [], cut := [] } }) ∧
   (∀ (s : State) (a : BitVec 16) (ws : List Word) (x : Nat), s.spiReady → a.toNat % 4 ≠ 0 →
     exec (.write true a ws x) s =
       .next { s with host := { s.host with out := [], cut := [], wrDropped := min 255 (s.host.wrDropped + 1) } }) ∧
   (∀ (s : State) (d : BitVec 7) (a : BitVec 16) (bs : List Byte), s.i2cReady d → a.toNat % 4 = 0 →
     exec (.i2cWriteTransfer d a bs) s =
       .next { s with host := { s.host.captures a.toNat ((List.range (bs.length / 4)).map (wordIn bs)) with
         out := [], cut := [], i2cNext := (a.toNat + bs.length) % 65536 } }) ∧
   (∀ (s : State) (d : BitVec 7) (a : BitVec 16) (bs : List Byte), s.i2cReady d → a.toNat % 4 ≠ 0 →
     exec (.i2cWriteTransfer d a bs) s =
       .next { s with host := { s.host with out := [], cut := [], wrDropped := min 255 (s.host.wrDropped + 1),
                                            i2cNext := (a.toNat + bs.length) % 65536 } }) ∧
   (∀ (s : State) (c : BitVec 8), s.spiReady → c ≠ 0x0B → c ≠ 0x02 → c ≠ 0x0D →
     exec (.unknownCommand true c) s =
       .next { s with host := { s.host with out := [], cut := [], badCmd := min 255 (s.host.badCmd + 1) } }))

/-- A stream read shifts the head records in whole slots and pops each at the end of its slot; an empty slot is 32 zero bytes, and
a record cut short stays at the head and raises ABORTED (R642 to R644). A byte counts 8 clocks in SPI and 9 in I²C, most
significant bit first (R9, R10). The model's
choice: the edges of a slot (log 56). -/
def Obligations.StreamReadsPopWholeSlots : Prop :=
  (∀ (s : State) (k r : Nat), s.spiReady → r < 256 → (∀ b ∈ s.host.outbox, b.length = 32) →
    let slot := s.host.outbox.getD k (List.replicate 32 0)
    exec (.stream true 0x0200 true true (256 * k + r)) s =
      .next { s with host := s.host.streamed k (r / 8) ((msbFirst (slot.getD (r / 8) 0)).take (r % 8)) (decide (0 < r)) }) ∧
  (∀ (s : State) (d : BitVec 7) (k r : Nat), s.i2cReady d → r < 288 → (∀ b ∈ s.host.outbox, b.length = 32) →
    let slot := s.host.outbox.getD k (List.replicate 32 0)
    let cut := if r % 9 < 8 then (msbFirst (slot.getD (r / 9) 0)).take (r % 9) else []
    exec (.i2cStreamRead d (some 0x0200) true true (288 * k + r)) s =
      .next { s with host := { s.host.streamed k ((r + 1) / 9) cut (decide (0 < r)) with i2cNext := 0x0200 } }) ∧
  (∀ (s : State) (d : BitVec 7) (k m : Nat), s.i2cReady d → m < 32 → (∀ b ∈ s.host.outbox, b.length = 32) →
    exec (.i2cReadTransfer d (some 0x0200) (32 * k + m)) s =
      .next { s with host := { s.host.streamed k m [] (decide (0 < m)) with i2cNext := 0x0200 } })

/-! ### Applied writes of the Quay registers -/

/-- What an applied write of the SYS and OBX registers and of MBX_STATUS does (R626, R637, R638, R644, R654, R719, R762); a W1C
bit that the device has set in the same tick stays at 1 (R712). The
model's choice: a row acts on the word at the head of the write buffer (log 53). -/
def Obligations.SysAndOutboxWritesTakeEffect : Prop :=
  ∀ (s : State) (v : Word) (rest : List (Nat × Word)),
    (s.captured 0x00C v rest → ∃ t, exec (.sysAlarm v) s = .next t ∧
      t = { s.took rest with sys := { s.sys with alarm := t.sys.alarm } } ∧
      ∀ i, t.sys.alarm.getLsbD i = (s.sys.alarm.getLsbD i && !(decide (1 ≤ i) && v.getLsbD i && !s.fresh.alarm.getLsbD i))) ∧
    (s.captured 0x01C v rest → v = 0xA5C3 → s.sys.delayed = none →
      exec (.sysSoftReset v) s =
        .next { s.took rest with sys := { s.sys with asserted := 0x080, delayed := some .soft } }) ∧
    (s.captured 0x01C v rest → v ≠ 0xA5C3 → exec (.sysSoftReset v) s = .next (s.took rest)) ∧
    (s.captured 0x06C v rest → ∃ t, exec (.sysLogCtrl v) s = .next t ∧
      t = { s.took rest with err := { s.err with logIndex := v.toNat % 1024, logValid := true, logEmpty := t.err.logEmpty,
                                                 logData := t.err.logData } } ∧
      ∀ u q, s.err.logReady = true → s.err.newest = some (u, q) →
        let b := rdBytes s.strand.data (0x70000 + 64 * ((u + 1024 - v.toNat % 1024) % 1024)) 64
        if leAt b 0 4 ≠ 0 ∧ leAt b 60 4 = crc32 (b.take 60) then t.err.logEmpty = false ∧ t.err.logData = b
        else t.err.logEmpty = true ∧ t.err.logData = []) ∧
    (s.captured 0x10C v rest → v.getLsbD 0 = true → exec (.obxPop v) s =
      .next { s.took rest with host := { (s.took rest).host with
        outbox := s.host.outbox.drop 1,
        stream := if s.host.outbox = [] then s.host.stream else s.host.stream.map (fun r => { r with gone := true }) } }) ∧
    (s.captured 0x10C v rest → v.getLsbD 0 = false → exec (.obxPop v) s = .next (s.took rest)) ∧
    (s.captured 0x104 v rest → exec (.obxIrq v) s =
      .next { s.took rest with host := { (s.took rest).host with
        thresh := if v.toNat % 128 = 0 then 1 else min 64 (v.toNat % 128), irqEn := v.extractLsb' 8 4, pulse := v.getLsbD 12,
        activeHigh := v.getLsbD 13, pulseEnd := if v.getLsbD 12 then s.host.pulseEnd else none } }) ∧
    (s.captured 0x108 v rest → exec (.obxIrqStatus v) s =
      .next { s.took rest with host := { (s.took rest).host with irq := s.host.irq &&& ~~~(v.extractLsb' 0 4 &&& ~~~s.fresh.irq) } }) ∧
    (s.captured 0x424 v rest → exec (.mbxStatus v) s =
      .next { s.took rest with host := { (s.took rest).host with mbxDropped := s.host.mbxDropped && !v.getLsbD 28 } })

/-- What an applied write of the other registers does: TIDE_CTRL, TIDE_STATUS, ADC_IEPE, CW_CTRL, the OTP locks, which stick
(R210), the OTP read window, STR_CAP_CTRL and PIX_SENT_CFG (R100, R125, R130, R211, R281, R309, R582, R702, R716); what the device
has changed in the same tick stands (R712). The model's
choice: LEARN at 0 drops a learn commit, and PIX_SENT_CFG clears the reference at every write (log 54). -/
def Obligations.OtherRegisterWritesTakeEffect : Prop :=
  ∀ (s : State) (v : Word) (rest : List (Nat × Word)),
    (s.captured 0x304 v rest → ∀ i ∈ [Instr.chgInhibit v, Instr.clkCap v],
      exec i s = .next { s.took rest with tide := { s.tide with
        chgInhibit := v.getLsbD 0, clkCap := v.extractLsb' 4 2,
        step := match s.springWatch with
          | some w => min (fld w.entry.cores.toNat 4 2) (min (v.extractLsb' 4 2).toNat s.tide.thermalCap)
          | none => s.tide.step } }) ∧
    (s.captured 0x300 v rest → exec (.capMismatch v) s =
      .next { s.took rest with tide := { s.tide with capMismatch := s.tide.capMismatch && !(v.getLsbD 3 && !s.fresh.mismatch) } }) ∧
    (s.captured 0x60C v rest → exec (.adcIepe v) s =
      .next { s.took rest with adc := { s.adc with
        iepeForce := if s.fresh.iepe then s.adc.iepeForce else v.extractLsb' 0 4 } }) ∧
    (s.captured 0x714 v rest → exec (.forceAwake v) s =
      .next { s.took rest with cw := { s.cw with forceAwake := v.getLsbD 0 } }) ∧
    (s.captured 0x804 v rest → exec (.otpLockRd v) s =
      .next { s.took rest with otp := { s.otp with lockRd := s.otp.lockRd ||| v.extractLsb' 0 8 } }) ∧
    (s.captured 0x808 v rest → exec (.otpLockWr v) s =
      .next { s.took rest with otp := { s.otp with lockWr := s.otp.lockWr ||| v.extractLsb' 0 8 } }) ∧
    (s.captured 0xA04 v rest → exec (.pixSentCfg v) s =
      .next { s.took rest with pix := { s.pix with
        sentPeriod := max 16384 (v.extractLsb' 0 20).toNat, sentExposure := max 1 (v.extractLsb' 20 6).toNat,
        sentGain := min 4 (v.extractLsb' 26 3).toNat, reference := none } }) ∧
    (s.captured 0x910 v rest → (s.sys.stage = 0x0F ∧ s.tide.block ≠ none → exec (.learn v) s =
      .next { s.took rest with strand := { s.strand with
        learn := v.getLsbD 0 && (s.strand.learn || !s.fresh.learn),
        samples := if v.getLsbD 0 && (s.strand.learn || s.fresh.learn) then s.strand.samples else [],
        commits := if v.getLsbD 0 then s.strand.commits else s.strand.commits.filter (fun c => c.cause ≠ .learn) } }) ∧
      (¬(s.sys.stage = 0x0F ∧ s.tide.block ≠ none) → exec (.learn v) s =
        .next { s.took rest with host := { (s.took rest).host with wrIgnored := min 255 (s.host.wrIgnored + 1) } })) ∧
    (s.captured 0x818 v rest → s.otp.run = none → ∃ t, exec (.otpReadAddr v) s = .next t ∧
      t = { s.took rest with otp := { s.otp with
        readWord := v.toNat % 2048, readValid := true, readWait := false, readUncorr := t.otp.readUncorr,
        readCorrected := t.otp.readCorrected, readLocked := t.otp.readLocked, readData := t.otp.readData } } ∧
      (s.otp.lockRd.getLsbD (otpRegion (v.toNat % 2048)) = true →
        t.otp.readLocked = true ∧ t.otp.readData = 0 ∧ t.otp.readUncorr = false ∧ t.otp.readCorrected = false) ∧
      (s.otp.lockRd.getLsbD (otpRegion (v.toNat % 2048)) = false → t.otp.readLocked = false ∧
        (otpRegion (v.toNat % 2048) = 0 ∨ otpRegion (v.toNat % 2048) = 4 →
          t.otp.readData = (s.otpNormal (v.toNat % 2048)).extractLsb' 0 32) ∧
        (otpRegion (v.toNat % 2048) ≠ 0 ∧ otpRegion (v.toNat % 2048) ≠ 4 →
          t.otp.readUncorr = (s.otpWord (v.toNat % 2048)).uncorr ∧
          t.otp.readCorrected = (s.otpWord (v.toNat % 2048)).corrected ∧
          t.otp.readData = BitVec.ofNat 32 (s.otpWord (v.toNat % 2048)).data)))

/-- What an applied write of the GPIO registers does (R673, R676, R677, R671, R665): the software output, the pin-interrupt
selection with the reload of the lines it changes, the W1C events and alarm lines, where a bit that the device has set in the same
tick stays at 1 (R666, R712), and the pin configurations. -/
def Obligations.GpioWritesTakeEffect : Prop :=
  ∀ (s : State) (v : Word) (rest : List (Nat × Word)),
    (s.captured 0x504 v rest → exec (.gpioOut v) s =
      .next { s.took rest with gpio := { s.gpio with out := v.extractLsb' 0 24 } }) ∧
    (s.captured 0x508 v rest → exec (.gpioOe v) s =
      .next { s.took rest with gpio := { s.gpio with oe := v.extractLsb' 0 24 } }) ∧
    (s.captured 0x514 v rest → exec (.gpioPilStatus v) s =
      .next { s.took rest with gpio := { s.gpio with pilEvent := s.gpio.pilEvent &&& ~~~(v.extractLsb' 0 8 &&& ~~~s.fresh.pil) } }) ∧
    (s.captured 0x518 v rest → exec (.gpioAlarmStatus v) s =
      .next { s.took rest with gpio := { s.gpio with alarm := s.gpio.alarm &&& ~~~(v.extractLsb' 0 8 &&& ~~~s.fresh.lines) } }) ∧
    (s.captured 0x50C v rest → ∃ t, exec (.gpioPilsel v) s = .next t ∧
      t = { s.took rest with gpio := { s.gpio with
        pilSel := v.extractLsb' 0 16, pilLevel := t.gpio.pilLevel, pilSample := t.gpio.pilSample } } ∧
      ∀ n, n < 8 → t.gpio.pilLevel.getLsbD n =
        if v.extractLsb' (2 * n) 2 = s.gpio.pilSel.extractLsb' (2 * n) 2 then s.gpio.pilLevel.getLsbD n
        else t.gpio.lineLevel n) ∧
    (s.captured 0x510 v rest → ∃ t, exec (.gpioPilcfg v) s = .next t ∧
      t = { s.took rest with gpio := { s.gpio with
        pilCfg := v, pilLevel := t.gpio.pilLevel, pilSample := t.gpio.pilSample } } ∧
      ∀ n, n < 8 → t.gpio.pilLevel.getLsbD n =
        if v.extractLsb' (4 * n) 4 = s.gpio.pilCfg.extractLsb' (4 * n) 4 then s.gpio.pilLevel.getLsbD n
        else t.gpio.lineLevel n) ∧
    (∀ p : Fin 24, s.captured (0x540 + 4 * p.val) v rest →
      let old := s.gpio.pin p
      let new : Pin := { cfg := v.extractLsb' 0 8, mask := v.extractLsb' 8 24 }
      let ok := s.gpio.mapApplied = true ∧ pinOk p new = true ∧ new.mask &&& 0x1FFC00 = old.mask &&& 0x1FFC00 ∧
        (old.mask &&& 0x1FFC00 = 0 ∨ new.cfg &&& 7 = old.cfg &&& 7)
      (ok → exec (.gpioPin p v) s =
        .next { s.took rest with gpio := { s.gpio with pins := s.gpio.pins.set p new } }) ∧
      (¬ok → exec (.gpioPin p v) s =
        .next { s.took rest with gpio := { s.gpio with cfgReject := min 255 (s.gpio.cfgReject + 1) } }))

/-- REGISTER_WRITE applies the oldest captured word to the register at its address: it does what the register's own row does; an
argument or alarm-line word is stored, MBX_CMD queues a command with its arguments, and an address without a writable register
changes nothing (R16, R634, R654, R665). The model's choice: a row acts on the word at the head of the write buffer (log 53). -/
def Obligations.RegisterWriteAppliesTheOldestWord : Prop :=
  ∀ (s : State) (a : BitVec 16) (v : Word) (rest : List (Nat × Word)), s.captured a.toNat v rest →
    (∀ x ∈ [(0x00C, Instr.sysAlarm v), (0x01C, .sysSoftReset v), (0x06C, .sysLogCtrl v), (0x104, .obxIrq v),
        (0x108, .obxIrqStatus v), (0x10C, .obxPop v), (0x300, .capMismatch v), (0x304, .chgInhibit v), (0x424, .mbxStatus v),
        (0x504, .gpioOut v), (0x508, .gpioOe v), (0x50C, .gpioPilsel v), (0x510, .gpioPilcfg v), (0x514, .gpioPilStatus v),
        (0x518, .gpioAlarmStatus v), (0x60C, .adcIepe v), (0x714, .forceAwake v), (0x804, .otpLockRd v), (0x808, .otpLockWr v),
        (0x818, .otpReadAddr v), (0x910, .learn v), (0xA04, .pixSentCfg v)],
      a.toNat = x.1 → exec (.registerWrite a v) s = exec x.2 s) ∧
    (∀ p : Fin 24, a.toNat = 0x540 + 4 * p.val → exec (.registerWrite a v) s = exec (.gpioPin p v) s) ∧
    (∀ n, n < 8 → a.toNat = 0x404 + 4 * n → exec (.registerWrite a v) s =
      .next { s.took rest with host := { (s.took rest).host with mbxArgs := s.host.mbxArgs.set n v } }) ∧
    (∀ n, n < 8 → a.toNat = 0x520 + 4 * n → exec (.registerWrite a v) s =
      .next { s.took rest with gpio := { s.gpio with alarmCfg := s.gpio.alarmCfg.set n (v &&& 0xFF7F0FFF) } }) ∧
    (a.toNat = 0x400 → ∃ t, exec (.registerWrite a v) s = .next t ∧
      (s.tide.power ≠ .neap → t.tide = s.tide) ∧ t.tide.power = (if s.tide.power = .neap then .slack else s.tide.power) ∧
      (s.host.mbx.length < 4 → t.host.mbx = s.host.mbx ++
        [{ cmd := (v.extractLsb' 0 8).toNat, tag := (v.extractLsb' 8 8).toNat, args := s.host.mbxArgs }]) ∧
      (4 ≤ s.host.mbx.length → t.host.mbx = s.host.mbx ∧ t.host.mbxDropped = true)) ∧
    (a.toNat ∉ [0x00C, 0x01C, 0x06C, 0x104, 0x108, 0x10C, 0x300, 0x304, 0x400, 0x424, 0x504, 0x508, 0x50C, 0x510, 0x514, 0x518,
        0x60C, 0x714, 0x804, 0x808, 0x818, 0x910, 0xA04] →
      (∀ n, n < 8 → a.toNat ≠ 0x404 + 4 * n) → (∀ n, n < 8 → a.toNat ≠ 0x520 + 4 * n) →
      (∀ n, n < 24 → a.toNat ≠ 0x540 + 4 * n) → exec (.registerWrite a v) s = .next (s.took rest))

/-! ### Resets -/

/-- With no store busy, each reset source puts the device into the reset state under its own cause, and with a unit or OTP word in
progress a pin reset waits for it (R131, R132, R137, R154 to R160, R164). -/
def Obligations.ResetSourcesEnterTheResetState : Prop :=
  (∀ s : State, s.idleStores → s.live →
    (∀ x ∈ [(Instr.por, 0), (.brownoutVbat, 1), (.resetPin, 3), (.thermalTrip, 6)], exec x.1 s = .next (s.inResetBy x.2)) ∧
    (s.sys.wdtArmed = true → s.tide.power ≠ .neap → exec .brownoutVsys s = .next (s.inResetBy 2) ∧
      (32768 ≤ s.sys.wdtCount → exec .watchdog s = .next (s.inResetBy 4)) ∧
      (s.sys.wdtCount < 32768 → exec .watchdog s = .next s)) ∧
    (s.tide.thermalShutdown = true → exec .thermalReq s = .next (s.inResetBy 5)) ∧
    (∀ code, 1 ≤ code → code ≤ 6 → s.sys.wdtArmed = true → (∀ b ∈ s.strand.logQueue, b.length = 56) →
      Memory.wf s.strand.data = true →
      ∃ t, exec (.fatal code) s = .next t ∧
      t = { s.inResetBy 8 with sys := { (s.inResetBy 8).sys with fatalPending := code }, strand := { data := t.strand.data } } ∧
      ∀ a, a < 0x70000 ∨ 0x80000 ≤ a → rdByte t.strand.data a = rdByte s.strand.data a)) ∧
  (∀ s : State, s.live → s.otp.run = none → s.strand.writing = none → s.sys.delayed = some .soft → s.sys.asserted = 0x080 →
    exec .soft s = .next (s.inResetBy 7)) ∧
  (∀ s : State, s.live → s.otp.hold = none → s.sys.delayed = none → s.otp.run ≠ none ∨ s.strand.writing ≠ none →
    exec .resetPin s = .next { s with sys := { s.sys with asserted := 8, delayed := some .pin } }) ∧
  (∀ s : State, s.sys.inReset = true → s.idleStores →
    ∀ x ∈ [(Instr.por, 0), (.brownoutVbat, 1), (.resetPin, 3), (.thermalTrip, 6)], ∃ t, exec x.1 s = .next t ∧
      t.sys.inReset = true ∧ t.sys.asserted = s.sys.asserted ||| BitVec.ofNat 9 (2 ^ x.2))

/-- Every Quay word that R714 does not list as kept reads its reset value after any full reset, whatever the device did before;
SYS_OTP serials, read from the OTP itself, and the pins that carry FAULT are left out. -/
def Obligations.QuayFieldsTakeTheirResetValues : Prop :=
  ∀ (s t : State) (i : Instr), i ∈ [Instr.por, .brownoutVbat, .resetPin, .thermalTrip] → s.idleStores →
    exec i s = .next t → ∀ a, a < 0x540 ∨ (0x5A0 ≤ a ∧ a < 0x2000) → a % 4 = 0 →
      a ∉ [0x008, 0x018, 0x074, 0x078, 0x0C0, 0x0C4, 0x300, 0x328] → t.quayWord a = State.reset.quayWord a

/-- A reset is released with its cause, the straps and the loop count, and the OTP check then lets the Host port answer or holds
the device in reset; the thermal wait ends at 95 °C; the LFCLK source changes (R92, R129, R139, R141, R149, R161, R165, R187,
R188). While the device is held in reset, no command acts but those of the reset itself, of LFCLK, of FAULT and of the TAP (R143,
R156). -/
def Obligations.ResetReleaseAndWhatActsInReset : Prop :=
  ((∀ (s : State) (pads : BitVec 4), s.sys.inReset = true → s.sys.delayed = none → s.sys.asserted ≠ 0 →
     s.tide.thermalShutdown = false → s.otp.hold = none → ∃ t, exec (.resetRelease pads) s = .next t ∧
       t.sys.straps = (if s.sys.asserted &&& 0xF = 0 then s.sys.straps
         else { hostIf := pads.getLsbD 0, i2cAddr := pads.getLsbD 1, lfSrc := pads.getLsbD 2, bootHold := pads.getLsbD 3 }) ∧
       t.sys.loopCount = (if s.sys.asserted &&& 0x089 ≠ 0 then 0 else if s.sys.asserted &&& 0x110 ≠ 0 then min 4 (s.sys.loopCount + 1)
         else s.sys.loopCount) ∧
       t.otp.uncorr = s.otpUncorr ∧ t.otp.hold = holdCode s.otpUncorr (s.bootPolicy.getD 0) ∧ t.otp.cells = s.otp.cells ∧
       t.otp.cellsHigh = s.otp.cellsHigh ∧ t.pending = s.pending ∧ t.strand.data = s.strand.data ∧ t.watches = s.watches ∧
       (∀ c, t.core c = s.core c) ∧ t.harbour = s.harbour ∧
       (t.otp.hold = none → t.sys.inReset = false ∧ t.sys.hostAnswers = true ∧ t.sys.stage = 0x02 ∧
         t.sys.resetCause = s.sys.asserted ∧ t.sys.loopShown = t.sys.loopCount ∧ t.otp.lcBoot = t.otp.lc ∧
           t.sys.fatalCode = (if s.sys.asserted.getLsbD 8 then s.sys.fatalPending else 0) ∧
         t.sys.asserted = 0) ∧
       (t.otp.hold ≠ none → t.sys.inReset = true ∧ t.sys.hostAnswers = s.sys.hostAnswers)) ∧
   (∀ (s : State) (c : Int), s.sys.inReset = true → s.tide.thermalShutdown = true → exec (.thermalResetEnd c) s =
     .next (if c ≤ 95 * 64 then { s with tide := { s.tide with thermalShutdown := false } } else s)) ∧
   (∀ s : State, s.tide.lfWait = true →
     exec .lfCrystalSwitch s = .next { s with tide := { s.tide with lfCrystal := true, lfWait := false } } ∧
     exec .lfCrystalTimeout s = .next { s with tide := { s.tide with lfFallback := true, lfWait := false } }) ∧
   (∀ s : State, s.tide.lfCrystal = true →
     exec .lfFallback s = .next { s with tide := { s.tide with lfFallback := true, lfCrystal := false } }) ∧
   (∀ s : State, s.live → s.sys.wdtArmed = true → s.tide.power ≠ .neap →
     exec .corePllLocked s = .next { s with tide := { s.tide with pllLocked := true } }) ∧
   (∀ (s : State) (n : Nat), s.otp.hold = some n → exec .faultBlink s = .next { s with otp := { s.otp with
     blinkPhase := some (match s.otp.blinkPhase with
       | none => 0
       | some p => if p + 8192 < 16384 * n then p + 8192 else 0),
     blinkHigh := match s.otp.blinkPhase with
       | none => true
       | some p => if p + 8192 < 16384 * n then decide ((p + 8192) / 8192 % 2 = 0) else true } })) ∧
  (∀ (s : State) (i : Instr), s.sys.inReset = true → actsInReset i = false → exec i s = .next s)

/-! ### The boot -/

/-- From the rails to the image header: the life cycle stops a BLANK or RETIRED part with code 0x09, BOOT_HOLD waits in TEST and
FACTORY until a debug BOOT_RELEASE, and the flash probe fails with codes 0x01 to 0x03 or takes mode and header (R136, R142 to
R146, R193, R213, R746). The firmware starts: a loop count of 4 halts the boot with code 0x0A, else the boot ends at stage 0x0F
with its locks, its image registers and the EVENT of cause BOOT, and the device enters Neap where it may (R143, R151, R166, R212,
R252). The model's choices: a boot ends by entering Neap within the same command where it may (log 52), and the image of a boot
that the loop guard halts is the running image (log 76). -/
def Obligations.BootReachesTheImageAndEnds : Prop :=
  ((∀ s : State, s.bootAt 0x02 → s.sys.wdtArmed = false →
     (s.otp.lcBoot = 0 ∨ s.otp.lcBoot = 6 → ∃ t, exec .railWaitEnd s = .next t ∧ t.sys.fail = 0x09 ∧ t.sys.stage = 0x02 ∧
       t.sys.alarm.getLsbD 0 = true ∧ t.sys.wdtArmed = true) ∧
     (1 ≤ s.otp.lcBoot ∧ s.otp.lcBoot ≤ 5 → ∃ t, exec .railWaitEnd s = .next t ∧
       t = { s with sys := { s.sys with wdtArmed := true, stage := if s.sys.straps.bootHold = true ∧ s.otp.lcBoot ≤ 2 then 0x03 else 0x04 },
                    otp := { s.otp with keys := t.otp.keys } } ∧
       (s.otp.lcBoot < 2 ∨ s.otp.lcBoot = 5 → t.otp.keys = s.otp.keys) ∧
       (2 ≤ s.otp.lcBoot ∧ s.otp.lcBoot ≤ 4 → t.otp.keys.dus = some (s.secret 0x080) ∧ t.otp.keys.idk = some (s.secret 0x088) ∧
         t.otp.keys.imageRoots = s.otp.keys.imageRoots ∧ t.otp.keys.tagKeys = s.otp.keys.tagKeys))) ∧
   (∀ s : State, s.bootAt 0x03 → s.dapOpen = true → s.tap.wait = none →
     exec .bootRelease s = .next { s with sys := { s.sys with stage := 0x04 },
                                          tap := { s.tap with ir := .dap, status := 0, addr := 0, result := 0 } }) ∧
   (∀ (s : State) (r : FlashReply), s.bootAt 0x04 → s.tide.pllLocked = true →
     (r.present = false → ∃ t, exec (.flashProbe r) s = .next t ∧ bootFails s t 0x01) ∧
     (r.present = true → r.sfdpOk = false → ∃ t, exec (.flashProbe r) s = .next t ∧ bootFails s t 0x02) ∧
     (r.present = true → r.sfdpOk = true →
       let h := padTo r.header 64
       let mode : FlashMode := if r.octal then .d8 else if r.quad then .s4 else .s1
       (headerOk h r.addr4 = false → ∃ t, exec (.flashProbe r) s = .next t ∧ bootFails s t 0x03) ∧
       (headerOk h r.addr4 = true → exec (.flashProbe r) s = .next { s with
         sys := { s.sys with stage := 0x05, flashMode := mode, addr4 := r.addr4 },
         image := { s.image with header := some (leAt h 12 4, leAt h 16 4, leAt h 8 4, leAt h 20 2),
                                 clockMhz := min (max (leAt h 20 2) 25) (if r.octal then 200 else 133) } })))) ∧
  (∀ s : State, s.bootAt 0x07 →
     (4 ≤ s.sys.loopCount → ∃ t, exec .firmwareStart s = .next t ∧ t.sys.stage = 0x0E ∧ t.sys.fail = 0x0A ∧
       t.sys.alarm.getLsbD 0 = true ∧ t.watches = s.watches ∧ t.tableBuilt = s.tableBuilt ∧ t.strand.data = s.strand.data ∧
       t.otp.lockRd = s.otp.lockRd ||| 0x20 ∧ (∀ m, s.image.manifest = some m → t.image.secVer = m.secVer) ∧
       (s.outboxTakes 1 → ∃ b, t.host.outbox = s.host.outbox ++ [b] ∧ b.length = 32 ∧ byteAt b 0 = 6 ∧ byteAt b 16 = 2)) ∧
     (s.sys.loopCount < 4 → ∃ t, exec .firmwareStart s = .next t ∧ t.sys.stage = 0x0F ∧ t.sys.fail = 0 ∧ t.tableBuilt = true ∧
       t.strand.recovered = true ∧ t.gpio.mapApplied = true ∧ t.otp.lockRd = s.otp.lockRd ||| 0x20 ∧
       t.otp.cells = s.otp.cells ∧ t.otp.cellsHigh = s.otp.cellsHigh ∧ t.strand.data = s.strand.data ∧
       (∀ m, s.image.manifest = some m → t.image.secVer = m.secVer ∧ t.image.entries = m.entries.length ∧
         t.image.imageId = m.imageId) ∧
       (s.host.held = [] → s.host.backlog = [] → t.host.held = [] → t.host.backlog = [] →
         ∃ l b, t.host.outbox = s.host.outbox ++ l ++ [b] ∧ b.length = 32 ∧ byteAt b 0 = 6 ∧ byteAt b 16 = 1) ∧
       (t.tide.power = .neap ∨ t.mayNeap = false) ∧
       ∀ p, s.pinMap.bind readPower = some p → t.tide.block = some p))

/-- The manifest and the records: a copy that fails its check or its hash is read once more, and the second copy decides; a good
record is placed, and after the last one the boot reaches stage 0x07; the lines that a failed copy had placed are cleared, and the
watchdog restarts with every 1 MiB copied (R147, R163, R232, R233, R235, R236, R251, R761). The model's choice:
which checks look at which bytes (log 52). -/
def Obligations.BootTakesTheManifestAndRecords : Prop :=
  (∀ (s : State) (b : List Byte) (off len il clk : Nat), s.bootAt 0x05 → s.image.header = some (off, len, il, clk) →
    (s.image.rereadDue = false → (∀ c, s.manifestCheck (padTo b len) off len il = .error c →
        exec (.manifestCheck b) s = .next { s with image := { s.image with rereadDue := true } }) ∧
      (∀ k, s.manifestCheck (padTo b len) off len il = .ok k → bitN (byteAt (padTo b len) 14) s.variant = true →
        byteAt (padTo b len) 15 ≤ 0x0A → exec (.manifestCheck b) s = .next { s with
          sys := { s.sys with stage := 0x06 }, otp := { s.otp with bootSlot := k },
          image := { s.image with manifest := some (Manifest.read (padTo b len) off il), rereadDue := false } })) ∧
    (s.image.rereadDue = true → (∀ c, s.manifestCheck (padTo b len) off len il = .error c →
        ∃ t, exec (.manifestReread b) s = .next t ∧ bootFails s t c) ∧
      (∀ k, s.manifestCheck (padTo b len) off len il = .ok k → bitN (byteAt (padTo b len) 14) s.variant = true →
        byteAt (padTo b len) 15 ≤ 0x0A → exec (.manifestReread b) s = .next { s with
          sys := { s.sys with stage := 0x06, recopied := true }, otp := { s.otp with bootSlot := k },
          image := { s.image with manifest := some (Manifest.read (padTo b len) off il), rereadDue := false } }))) ∧
  (∀ (s : State) (b : List Byte) (m : Manifest) (e : MfEntry), s.bootAt 0x06 → s.image.manifest = some m →
    m.entries[s.image.nextRecord]? = some e →
    (s.image.recopyDue = false →
      (entryOk m s.image.nextRecord e = false → ∃ t, exec (.recordCopy b) s = .next t ∧ bootFails s t 0x08) ∧
      (entryOk m s.image.nextRecord e = true → sha256 (padTo b e.length) ≠ e.sha →
        ∃ t, exec (.recordCopy b) s = .next t ∧
          t = { s with image := { s.image with recopyDue := true, copied := s.image.copied + e.length }, harbour := t.harbour,
                       sys := { s.sys with wdtCount := s.countAfterCopy e.length } } ∧
          (s.harbour.wf = true → linesCleared s t e)) ∧
      (∀ r, entryOk m s.image.nextRecord e = true → sha256 (padTo b e.length) = e.sha →
        s.recordGood m e (padTo b e.length) r → ∃ t, exec (.recordCopy b) s = .next t ∧ recordTaken s t m r e.length ∧
          t.sys.recopied = s.sys.recopied)) ∧
    (s.image.recopyDue = true →
      (sha256 (padTo b e.length) ≠ e.sha → ∃ t, exec (.recordRecopy b) s = .next t ∧ bootFails s t 0x06) ∧
      (∀ r, sha256 (padTo b e.length) = e.sha → s.recordGood m e (padTo b e.length) r →
        ∃ t, exec (.recordRecopy b) s = .next t ∧ recordTaken s t m r e.length ∧ t.sys.recopied = true)))

/-! ### The mailbox -/

/-- NOP, ARM, DISARM, TRIGGER_WATCH, STATS and READ_CAL take the command at the front of the queue, act on the watch that it names
and complete with their code, CMD, TAG and the MBX source of HOST_IRQ; reserved bits complete with UNKNOWN, a missing watch with
NO_WATCH, a refused state with STATE, and after a failed boot the others than STATS and READ_CAL with NO_IMAGE (R48, R49, R54 to
R56, R152, R640, R654 to R656, R700). The model's choices: which bits are unused (log 57), DISARM of a RUNNING watch (log 58). -/
def Obligations.MailboxCommandsActOnTheirWatch : Prop :=
  (∀ (s : State) (c : MbxCmd) (rest : List MbxCmd), s.mbxFront c rest → s.sys.fail = 0 →
    (c.cmd = 0x00 → c.zeroFrom 0 → s.host.backlog = [] → exec .nop s = .next (s.mbxAnswered c rest 0)) ∧
    (c.cmd = 0x00 → c.zeroFrom 0 → ∃ t, exec .nop s = .next t ∧
      t.host.outbox = s.host.outbox ++ (s.host.backlog.take (64 - s.host.outbox.length)).map (·.bytes) ∧
      t.host.backlog = s.host.backlog.drop (64 - s.host.outbox.length) ∧ t.host.mbxCode = 0 ∧ t.host.mbxRun = none ∧
      t.watches = s.watches) ∧
    (∀ x ∈ [(0x01, Instr.triggerWatch), (0x02, .arm), (0x03, .disarm), (0x40, .stats)], c.cmd = x.1 →
      ((c.arg 0).toNat ≥ 1024 ∨ ¬c.zeroFrom 1 → exec x.2 s = .next (s.mbxAnswered c rest 0x10)) ∧
      ((c.arg 0).toNat < 1024 → c.zeroFrom 1 → s.watch? (c.arg 0).toNat = none →
        exec x.2 s = .next (s.mbxAnswered c rest 0x11))) ∧
    (∀ w, (c.arg 0).toNat < 1024 → c.zeroFrom 1 → s.watch? (c.arg 0).toNat = some w →
      (c.cmd = 0x01 → (w.state = .armed ∨ w.state = .running ∨ w.state = .waitingEnergy ∨ w.state = .checkpointed →
          ∃ t, exec .triggerWatch s = .next t ∧ t.host.mbxCode = 0 ∧ t.host.mbxRun = none) ∧
        (w.state = .dormant ∨ w.state = .faulted ∨ (w.state = .done ∧ w.flag 2 = true) →
          exec .triggerWatch s = .next (s.mbxAnswered c rest 0x12)) ∧
        (w.state = .armed → w.held = none → w.entry.group = 0 → w.adapt = none → ∃ t, exec .triggerWatch s = .next t ∧
          t = { s.mbxAnswered c rest 0 with watches := t.watches } ∧ onlyWatch s t w.entry.num (Watch.started s.sys.tick 0)) ∧
        (w.busyOrHeld → ∃ t, exec .triggerWatch s = .next t ∧
          t = { s.mbxAnswered c rest 0 with watches := t.watches } ∧ onlyWatch s t w.entry.num (Watch.pends s.sys.tick 0))) ∧
      (c.cmd = 0x02 → w.pending = false →
        (w.state = .faulted ∧ w.faultCode < 0x20 → exec .arm s = .next (s.mbxAnswered c rest 0x12)) ∧
        (w.state = .dormant ∨ (w.state = .done ∧ w.flag 2 = true) ∨ (w.state = .faulted ∧ 0x20 ≤ w.faultCode) →
          ∃ t, exec .arm s = .next t ∧
            t = { s.mbxAnswered c rest 0 with watches := t.watches, tide := { s.tide with vpixReady := t.tide.vpixReady } } ∧
            onlyWatch s t w.entry.num (fun w => { w with state := .armed, faultCode := 0 })) ∧
        (w.state = .armed ∨ w.state = .running ∨ w.state = .waitingEnergy ∨ w.state = .checkpointed →
          exec .arm s = .next (s.mbxAnswered c rest 0))) ∧
      (c.cmd = 0x03 → (w.state = .faulted → exec .disarm s = .next (s.mbxAnswered c rest 0x12)) ∧
        (w.state = .dormant → exec .disarm s = .next (s.mbxAnswered c rest 0)) ∧
        (w.state = .armed ∨ w.state = .done → ∃ t, exec .disarm s = .next t ∧
          t = { s.mbxAnswered c rest 0 with watches := t.watches } ∧
          onlyWatch s t w.entry.num (fun w => { w with
            state := .dormant, pending := false, held := none, heldGpio := false, groupWait := false })) ∧
        (w.state = .running → ∃ t, exec .disarm s = .next t ∧ t = { s.mbxAnswered c rest 0 with watches := t.watches } ∧
          onlyWatch s t w.entry.num (fun w => { w with job := w.job.map (fun j => { j with disarm := true }) })))) ∧
    (∀ i ∈ [(0x00, Instr.nop), (0x01, .triggerWatch), (0x02, .arm), (0x03, .disarm), (0x10, .calZero), (0x11, .calFull),
        (0x12, .calCommit), (0x50, .shutdown)], c.cmd = i.1 → ∀ f : BitVec 8, f ≠ 0 →
      exec i.2 { s with sys := { s.sys with fail := f } } =
        .next (State.mbxAnswered { s with sys := { s.sys with fail := f } } c rest 0x13))) ∧
  (∀ (s : State) (c : MbxCmd) (rest : List MbxCmd), s.mbxFront c rest → (c.arg 0).toNat < 1024 → c.zeroFrom 1 →
    (∀ w, c.cmd = 0x40 → s.watch? (c.arg 0).toNat = some w → ∃ d, isRuntime w d ∧
      exec .stats s = .next (s.mbxAnswered c rest 0 (some d))) ∧
    (c.cmd = 0x13 → ∃ d, exec .readCal s = .next (s.mbxAnswered c rest 0 (some d)) ∧ d.length = 64 ∧
      (∀ t q, s.force 0 = some (t, q) → (c.arg 0).toNat ≤ 390 →
        ∀ i, i < 64 → d[i]? = some (rdByte s.strand.data (0x8000 * t + 64 * (c.arg 0).toNat + i))) ∧
      (s.force 0 = none ∨ 390 < (c.arg 0).toNat → d = List.replicate 64 0)))

/-- SHUTDOWN with its key disarms the watches and waits; without it, it completes with ARG. Once no job and no commit is left,
SHUTDOWN_COMPLETE drives the power functions inactive, releases the EVENT of cause SHUTDOWN and completes the command (R657). The
model's choice: what SHUTDOWN clears and waits for (log 58). -/
def Obligations.ShutdownDisarmsAndCompletes : Prop :=
  (∀ (s : State) (c : MbxCmd) (rest : List MbxCmd), s.mbxFront c rest → s.sys.fail = 0 → c.cmd = 0x50 →
    (∀ j, 1 ≤ j → j < 7 → c.arg j = 0) →
    (c.arg 0 ≠ 0 ∨ c.arg 7 ≠ 0xFFFFFFFF → exec .shutdown s = .next (s.mbxAnswered c rest 0x14)) ∧
    (c.arg 0 = 0 → c.arg 7 = 0xFFFFFFFF → (∀ w ∈ s.watches, w.state ≠ .waitingEnergy ∧ w.state ≠ .checkpointed) →
      ∃ t, exec .shutdown s = .next t ∧ t = { s.mbxTaken c rest with watches := t.watches, shutdown := some c.tag } ∧
        ∀ n, t.watch? n = (s.watch? n).map (fun w => match w.state with
          | .armed | .done => { w with state := .dormant, pending := false, held := none, heldGpio := false, groupWait := false }
          | .running => { w with job := w.job.map (fun j => { j with disarm := true }) }
          | _ => w))) ∧
  (∀ (s : State) (c : MbxCmd), s.live → s.shutdown.isSome = true → s.host.mbxRun = some c →
    (∀ w ∈ s.watches, w.state ≠ .waitingEnergy ∧ w.state ≠ .running ∧ w.state ≠ .checkpointed) →
    s.strand.run = none → s.strand.commits = [] → ∃ t, exec .shutdownComplete s = .next t ∧ t.shutdown = none ∧
      t.tide.coreEn = false ∧ t.tide.chgEn = false ∧ t.tide.pixEn = false ∧ t.adc.iepeJob = 0 ∧ t.adc.iepeForce = 0 ∧
      t.host.mbxRun = none ∧ t.host.mbxCode = 0 ∧ t.host.mbxTag = c.tag ∧ t.host.mbxDone = (s.host.mbxDone + 1) % 8 ∧
      t.watches = s.watches ∧ t.strand = s.strand ∧ t.otp = s.otp ∧
      (s.host.held = [] → s.host.backlog = [] → s.host.outbox.length < 64 → ∃ b, t.host.outbox = s.host.outbox ++ [b] ∧
        byteAt b 0 = 6 ∧ leAt b 2 2 = 0xFFFF ∧ byteAt b 16 = 8))

/-! ### The OTP -/

/-- OTP_PROGRAM and LIFECYCLE_ADVANCE are checked in order and refused with CONFIRM, RANGE, STATE, LOCKED or NOT_BLANK, which
leave every cell as it was; accepted, they queue the words to program with the cells that change (R197, R199 to R209). The model's
choices: the order of the checks (log 4), reserved words and WORD on a refusal (log 5). -/
def Obligations.OtpCommandsCheckAndQueueTheirWords : Prop :=
  ∀ (s : State) (c : MbxCmd) (rest : List MbxCmd), s.otpFront c rest →
    (c.cmd = 0x30 → (c.arg 0).toNat &&& 0x0707FFFF = (c.arg 0).toNat →
      let r := fld (c.arg 0).toNat 0 8
      (c.arg 7 ≠ ~~~(c.arg 0) → exec .otpProgram s = .next (s.otpAnswered c rest 7 0)) ∧
      (c.arg 7 = ~~~(c.arg 0) → r = 0 ∨ 8 ≤ r → exec .otpProgram s = .next (s.otpAnswered c rest 5 0)) ∧
      (c.arg 7 = ~~~(c.arg 0) → r ∈ [1, 2, 3, 5, 6, 7] → c.otpWords ≠ [] → c.otpWords.length ≤ 6 →
        (∀ x ∈ c.otpWords, otpRegion x.1 = r ∧ x.1 < 2048 ∧ otpReserved x.1 = false) →
        (s.otp.lockWr.getLsbD r = true → exec .otpProgram s = .next (s.otpAnswered c rest 2 0)) ∧
        (s.otp.lockWr.getLsbD r = false → regionOpen r s.otp.lc = false →
          exec .otpProgram s = .next (s.otpAnswered c rest 1 0)) ∧
        (regionOpen r s.otp.lc = true → s.otp.lockWr.getLsbD r = false →
          (∀ x, c.otpWords.find? (fun x => s.otpNormal x.1 ||| s.otpHigh x.1 ≠ 0) = some x →
            exec .otpProgram s = .next (s.otpAnswered c rest 4 x.1)) ∧
          (r ∈ [1, 2, 6, 7] → (∀ x ∈ c.otpWords, s.otpNormal x.1 ||| s.otpHigh x.1 = 0 ∧ x.2 ≠ 0) → s.otpFit →
            exec .otpProgram s = .next { s.mbxTaken c rest with otp := { s.otp with
              run := some { todo := c.otpWords.map (fun x => (x.1, secdedEncode x.2)), lifecycle := none, mailbox := true } } })))) ∧
    (c.cmd = 0x31 → (c.arg 0).toNat < 8 → (∀ j, 1 ≤ j → j < 7 → c.arg j = 0) →
      let target := (c.arg 0).toNat
      (c.arg 7 ≠ ~~~(c.arg 0) → exec .lifecycleAdvance s = .next (s.otpAnswered c rest 7 0)) ∧
      (c.arg 7 = ~~~(c.arg 0) → target = 7 → exec .lifecycleAdvance s = .next (s.otpAnswered c rest 5 0)) ∧
      (c.arg 7 = ~~~(c.arg 0) → target < 7 → s.otp.lockWr.getLsbD 0 = true →
        exec .lifecycleAdvance s = .next (s.otpAnswered c rest 2 0)) ∧
      (c.arg 7 = ~~~(c.arg 0) → target < 7 → s.otp.lockWr.getLsbD 0 = false → target ≤ s.otp.lc →
        exec .lifecycleAdvance s = .next (s.otpAnswered c rest 1 0)) ∧
      (c.arg 7 = ~~~(c.arg 0) → target = s.otp.lc + 1 → target ≤ 2 → s.otp.lockWr.getLsbD 0 = false → s.otpFit →
        (∀ a, a < 3 → s.otpHigh a = BitVec.ofNat 39 (2 ^ s.otp.lc - 1)) →
        exec .lifecycleAdvance s = .next { s.mbxTaken c rest with otp := { s.otp with
          run := some { todo := [(0, BitVec.ofNat 39 (2 ^ s.otp.lc)), (1, BitVec.ofNat 39 (2 ^ s.otp.lc)),
                                 (2, BitVec.ofNat 39 (2 ^ s.otp.lc))], lifecycle := some target, mailbox := true } } }))

/-- A word that ends: the cells that were to change read what the environment says at each margin, no other cell of the OTP
changes and none falls to 0; a cell that does not verify at high margin ends the command with VERIFY, else the next word starts or
the command ends with OK, a life-cycle command in its new state (R174, R179, R198, R201, R209). -/
def Obligations.OtpWordProgrammedTurnsItsCells : Prop :=
  ∀ (s : State) (normal high : BitVec 39) (a : Nat) (m : BitVec 39) (rest : List (Nat × BitVec 39)) (l : Option Nat) (b : Bool),
    s.live → s.otp.run = some { todo := (a, m) :: rest, lifecycle := l, mailbox := b } → s.sys.delayed = none →
    swf 0 s.otp.cells = true → swf 0 s.otp.cellsHigh = true →
    ∃ t, exec (.otpWordProgrammed normal high) s = .next t ∧
      (∀ x, t.otpNormal x = if x = a then s.otpNormal a ||| (m &&& normal) else s.otpNormal x) ∧
      (∀ x, t.otpHigh x = if x = a then s.otpHigh a ||| (m &&& high) else s.otpHigh x) ∧ fusesKept s t ∧
      (m &&& ~~~(t.otpHigh a) ≠ 0 → t.otp.run = none ∧ t.otp.progStatus = 6 ∧ t.otp.progWord = a ∧ t.otp.lc = s.otp.lc) ∧
      (m &&& ~~~(t.otpHigh a) = 0 → rest ≠ [] → s.otpFit →
        t.otp.run = some { todo := rest, lifecycle := l, mailbox := b } ∧ t.otp.lc = s.otp.lc) ∧
      (m &&& ~~~(t.otpHigh a) = 0 → rest = [] → t.otp.run = none ∧ t.otp.progStatus = 0 ∧ t.otp.progWord = 0 ∧
        t.otp.lc = l.getD s.otp.lc) ∧
      t.tide = s.tide ∧ t.watches = s.watches ∧ t.strand = s.strand ∧ t.harbour = s.harbour

/-! ### The Tide controller -/

/-- RESERVOIR_SAMPLE sets the readings and the account and drives CHG_EN, VBAT_SAMPLE drives CHG_EN, CHG_STALL is set after 65,536
ticks of the count, TEMP_SAMPLE sets the temperature and the thermal cap, a bank powers up with zero lines, and Neap is entered
only where R87 allows it (R84, R87, R95 to R102, R123 to R127, R757). The model's choices: CHG_EN while CORE_EN is high (log 10),
a held trigger and Neap (log 8), the row CHG_STALL (log 7). -/
def Obligations.TideSamplesDriveTheirOutputs : Prop :=
  (∀ (s : State) (b : PowerBlock) (v u : Nat), s.live → s.tide.coreEn = false → s.tide.block = some b →
    s.tide.afterSpring = false → s.noneWaiting → ∃ t, exec (.reservoirSample v u) s = .next t ∧
      t.tide.rsvMv = v ∧ t.tide.vbatMv = u ∧ t.tide.rsvTick = s.sys.tick ∧ t.tide.vbatTick = s.sys.tick ∧
      t.tide.energy = reservoirUj (if s.cal 4 4 = 0 then b.capNomUf else s.cal 4 4) v b.vminMv ∧
      t.tide.capNominal = decide (s.cal 4 4 = 0) ∧
      t.tide.chgEn = chargeLevel { s.tide with vbatMv := u } b v s.tide.chgEn ∧ t.tide.coreEn = false ∧
      t.watches = s.watches ∧ t.otp = s.otp ∧ t.harbour = s.harbour ∧ (∀ c, t.core c = s.core c) ∧ t.strand = s.strand) ∧
  (∀ (s : State) (v u : Nat), s.live → s.tide.coreEn = true → exec (.reservoirSample v u) s = .next s) ∧
  (∀ (s : State) (b : PowerBlock) (u : Nat), s.live → s.tide.block = some b → ∃ t, exec (.vbatSample u) s = .next t ∧
    t = { s with tide := { s.tide with vbatMv := u, vbatTick := s.sys.tick, chgEn := t.tide.chgEn, stallRef := t.tide.stallRef,
                                       stallCount := t.tide.stallCount } } ∧
    t.tide.chgEn = chargeLevel { s.tide with vbatMv := u } b s.tide.rsvMv s.tide.chgEn ∧
    (s.tide.chgEn = false → t.tide.chgEn = true → t.tide.stallRef = s.tide.rsvMv ∧ t.tide.stallCount = some 0)) ∧
  (∀ s : State, s.live → s.tide.stallCount ≠ none →
    exec .chgStall s = .next { s with tide := { s.tide with chgStall := true, stallCount := some 65536 } }) ∧
  (∀ (s : State) (c : Int), s.live → s.strand.cal = [] → s.springWatch = none → c < 120 * 64 → exec (.tempSample c) s =
    .next { s with tide := { s.tide with
      temp := c, tempTick := s.sys.tick, tempTaken := true, thermalCap := capAfter s.tide.thermalCap c } }) ∧
  (∀ (s : State) (c : Int), s.live → s.strand.cal = [] → 120 * 64 ≤ c → ∃ t, exec (.tempSample c) s = .next t ∧
    t.tide.thermalShutdown = true ∧ t.tide.chgEn = false ∧ t.tide.pixEn = false ∧ t.tide.coreEn = false) ∧
  (∀ (s : State) (n : Fin 32), s.live → (s.tide.banksOn.getLsbD n.val = true → exec (.harbourBankPowerUp n) s = .next s) ∧
    (s.tide.banksOn.getLsbD n.val = false → s.harbour.wf = true → ∃ t, exec (.harbourBankPowerUp n) s = .next t ∧
      t = { s with harbour := t.harbour, tide := { s.tide with banksOn := s.tide.banksOn ||| BitVec.ofNat 32 (2 ^ n.val) } } ∧
      (∀ a, rdByte t.harbour.data a = if n.val = a / 0x100000 then 0 else rdByte s.harbour.data a) ∧
      (∀ l, t.harbour.tag l = (if n.val = l / 0x4000 then 0 else s.harbour.tag l) ∧
        t.harbour.poisoned l = (if n.val = l / 0x4000 then false else s.harbour.poisoned l)))) ∧
  (∀ s : State, s.live → (s.mayNeap = false → exec .neapEntry s = .next s) ∧
    (s.mayNeap = true → s.outboxBalance = true → s.harbour.wf = true → ∃ t, exec .neapEntry s = .next t ∧ t.tide.power = .neap ∧
      t.tide.pllLocked = false ∧
      t.tide.xrefOn = false ∧ t.tide.retain = t.tide.banksOn ∧ t.tide.retain.getLsbD 31 = true ∧ t.sys.firstNeapDue = false ∧
      (∀ a, a / 0x100000 < 32 → rdByte t.harbour.data a =
        if t.tide.retain.getLsbD (a / 0x100000) then rdByte s.harbour.data a else 0) ∧
      t.watches = s.watches ∧ t.host = s.host ∧ t.otp = s.otp ∧ t.strand = s.strand ∧ t.image = s.image))

/-- ADMISSION_REQUEST admits the job at the head of the queue when the account holds its ceiling and the reserve, else the watch
waits for energy; a ceiling that E_full cannot reach is watch-fatal with code 0x25, and a wait that reaches ADMIT_TIMEOUT is
abandoned (R54, R57, R61, R94, R104 to R106, R108). The row ADMIT_TIMEOUT is taken at its word (log 7). -/
def Obligations.AdmissionTakesTheQueueInOrder : Prop :=
  ∀ (s : State) (n : Nat) (w : Watch) (j : Job), s.live → s.tableOk → s.watch? n = some w → w.job = some j → j.inSpring = false →
    (w.state = .running → j.inputsDone = true → j.requested = false → s.stopping = none → w.entry.progCount ≠ 0 →
      (∀ b, s.tide.block = some b → s.fullEnergy b < w.entry.ceiling + b.reserveUj →
        ∃ t, exec (.admissionRequest n) s = .next t ∧ watchFaulted s t n 0x25) ∧
      (s.tide.block = none → ∃ t, exec (.admissionRequest n) s = .next t ∧ watchFaulted s t n 0x25) ∧
      (∀ b, s.tide.block = some b → w.entry.ceiling + b.reserveUj ≤ s.fullEnergy b → s.onlyWaiting n → s.tide.coreEn = false →
        s.tide.thermalShutdown = false → s.otp.run = none → s.tap.wait = none → s.sys.tick ≤ s.tide.rsvTick + 8 →
        s.tide.power ≠ .neap →
        let step := min (fld w.entry.cores.toNat 4 2) (min s.tide.clkCap.toNat s.tide.thermalCap)
        (w.entry.ceiling + b.reserveUj ≤ s.tide.energy → s.tide.temp < 110 * 64 →
          ∃ t, exec (.admissionRequest n) s = .next t ∧
            t = { s with watches := t.watches, tide := { s.tide with
              coreEn := true, vsel := b.vselCode.getD step 0, stepAdmitted := step, step := step, tempDeferred := false,
              energyBefore := s.tide.energy, rsvBefore := s.tide.rsvMv, capClean := !s.tide.chgEn, meterUj := 0 } } ∧
            onlyWatch s t n (fun w => { w with job := some { j with
              requested := false, inSpring := true, allowance := w.entry.ceiling, grants := 1 } })) ∧
        (s.tide.energy < w.entry.ceiling + b.reserveUj → ∃ t, exec (.admissionRequest n) s = .next t ∧
          t = { s with watches := t.watches } ∧ onlyWatch s t n (fun w => { w with state := .waitingEnergy, job := some { j with
            requested := true, allowance := w.entry.ceiling, grants := 1, waitTicks := 0 } })))) ∧
    (w.state = .waitingEnergy ∨ w.state = .checkpointed → w.entry.admitTimeout ≠ 0 → w.pending = false →
      ∃ t w', exec (.admitTimeout n) s = .next t ∧ t.watch? n = some w' ∧ w'.state = .armed ∧ w'.job = none ∧
        w'.entry = w.entry ∧ (∀ m, m ≠ n → t.watch? m = s.watch? m) ∧ t.tide.coreEn = s.tide.coreEn ∧
        (∀ c, t.core c = s.core c))

/-- TICK_TRIGGER: an ARMED watch whose interval and phase match the tick starts a job, and one that is busy, DONE or held already
sets its pending bit or counts a missed trigger; no other watch changes its state. DONE_REARM: a DONE watch that is no one-shot is
ARMED again, and one with a pending trigger starts its job. GROUP_RELEASE: a held trigger is accepted once no member of its group
is busy and none before it in the queue is held, and stays held with GROUP_WAIT until then (R42, R47, R54, R56, R59, R62, R63). The
model's choice: the due tick of a job that a pending trigger starts (log 65). -/
def Obligations.TriggersStartOrHoldJobs : Prop :=
  (∀ (s : State) (n : Nat) (w : Watch), s.live → s.tableOk → s.watch? n = some w → w.entry.trigKind = 1 →
    leAt w.entry.trigArg 4 4 ≤ s.sys.tick → (s.sys.tick - leAt w.entry.trigArg 4 4) % leAt w.entry.trigArg 0 4 = 0 →
    s.tide.power ≠ .neap →
    (w.state = .armed → w.held = none → w.entry.group = 0 → w.adapt = none → ∃ t, exec .tickTrigger s = .next t ∧
      t = { s with watches := t.watches } ∧ t.watch? n = some (w.started s.sys.tick 0)) ∧
    (w.busyOrHeld → ∃ t, exec .tickTrigger s = .next t ∧ t = { s with watches := t.watches } ∧
      t.watch? n = some (w.pends s.sys.tick 0)) ∧
    (w.state = .dormant ∨ w.state = .faulted → ∃ t, exec .tickTrigger s = .next t ∧ t.watch? n = some w)) ∧
  (∀ (s : State) (n : Nat) (w : Watch), s.live → s.tableOk → s.watch? n = some w →
    w.entry.trigKind ≠ 1 ∨ s.sys.tick < leAt w.entry.trigArg 4 4 ∨
      (s.sys.tick - leAt w.entry.trigArg 4 4) % leAt w.entry.trigArg 0 4 ≠ 0 →
    ∃ t, exec .tickTrigger s = .next t ∧ t.watch? n = some w) ∧
  (∀ (s : State) (n : Nat) (w : Watch), s.live → s.tableOk → s.tide.power ≠ .neap → s.watch? n = some w → ∃ t,
    exec .doneRearm s = .next t ∧ t = { s with watches := t.watches, tide := { s.tide with vpixReady := t.tide.vpixReady } } ∧
    (w.pending = false → t.watch? n = some (if w.state = .done ∧ w.flag 2 = false then { w with state := .armed } else w)) ∧
    (w.pending = true → w.state = .done → w.flag 2 = false → w.entry.group = 0 → w.adapt = none →
      t.watch? n = some (Watch.started w.pendingDue.1 w.pendingDue.2 { w with pending := false })) ∧
    (w.state ≠ .done ∨ w.flag 2 = true → t.watch? n = some w)) ∧
  (∀ (s : State) (n due order : Nat) (w : Watch), s.live → s.tableOk → s.watch? n = some w → w.held = some (due, order) →
    (w.adapt = none → s.groupBusy w = false → s.groupHeldBefore w (due, order, n) = false →
      ∃ t, exec (.groupRelease n) s = .next t ∧ t = { s with watches := t.watches } ∧
        onlyWatch s t n (fun w => { w.started due order with lastGpio := if w.heldGpio then some s.sys.tick else w.lastGpio })) ∧
    (s.groupBusy w = true ∨ s.groupHeldBefore w (due, order, n) = true →
      ∃ t, exec (.groupRelease n) s = .next t ∧ t = { s with watches := t.watches } ∧
        onlyWatch s t n (fun w => { w with groupWait := true }))) ∧
  (∀ (s : State) (n : Nat) (w : Watch), s.watch? n = some w → w.held = none → exec (.groupRelease n) s = .next s)

/-- Spring: CORE_RELEASE starts each core of the mask with the registers of R359 and its PROGRAM, or from its frame after a
checkpoint; METER_CHARGE brings the metered energy up to its counts and leakage (R109, R110); RESERVOIR_GUARD_TRIP starts a
checkpoint one point on (R112, R113). The ends of a Spring: CHECKPOINT_COMPLETE leaves the watch CHECKPOINTED with valid frames,
COMPUTE_END leaves it DONE, and a VCORE failure or a reservoir collapse faults it with its code and alarm; each negates CORE_EN
and takes the cores' power (R54, R88, R107, R113, R116, R119, R372). A job that has metered more than its allowances and reserves
is watch-fatal with code 0x2A instead (R621). The model's choice: what the frames hold beyond R390 (log
13). -/
def Obligations.SpringReleasesMetersAndEnds : Prop :=
  (∀ (s : State) (w : Watch) (j : Job), s.inSpringJob w j → s.tableOk →
     (s.tide.coreEn = true → s.tide.power ≠ .spring → s.harbour.wf = true → (∀ l, s.harbour.poisoned l = false) →
       s.harbour.upset = [] →
       (j.frames = none → ∃ t, exec .coreRelease s = .next t ∧ t.tide = { s.tide with power := .spring, banksOn := t.tide.banksOn } ∧
         (∃ w', t.watch? w.entry.num = some w' ∧ w'.state = .running) ∧ t.otp = s.otp ∧ t.host = s.host ∧
         (∀ c, c ∉ w.coreList → t.core c = s.core c) ∧
         (w.entry.ckptSize = 0 → t.harbour = s.harbour) ∧
         ∀ i c r, w.coreList[i]? = some c → (s.mains w.entry)[i]? = some r →
           (t.core c).run = .running ∧ (t.core c).pend = [] ∧ (t.core c).loc = {} ∧ (t.core c).v = [] ∧
           startsWith (t.core c).regs i w.coreList.length w.entry.num j.unitNum (s.cw.chip.getD 0) w.entry.hbrBase w.entry.hbrSize
             r.entryIndex ∧
           (∀ a, rdByte (t.core c).imem a =
             if a < 128 * min r.bundles 4096 then rdByte t.harbour.data (r.load + a) else 0)) ∧
       (j.frames ≠ none → ∃ t, exec .coreRelease s = .next t ∧ t.harbour = s.harbour ∧
         t.tide.power = .spring ∧ ∀ c ∈ w.coreList,
           let f := rdBytes s.harbour.data (w.entry.hbrBase + w.entry.ckptOffset + 512 + 768 * c.val) 768
           (t.core c).run = (if byteAt f 0x1B6 = 1 then .halted else .running) ∧ (t.core c).point = leAt f 0x1B4 2 ∧
           (t.core c).regs.pc = BitVec.ofNat 13 (leAt f 0x1B0 4) ∧ (∀ i, i < 32 →
             ((t.core c).regs.s[i]?).getD 0 = BitVec.ofNat 32 (leAt f (4 * i) 4)))) ∧
     (s.tide.power = .spring → j.ckpt = none → ∀ (b : PowerBlock) (us c0 c1 c2 c3 : Nat), s.tide.block = some b →
       ∃ t, exec (.meterCharge us c0 c1 c2 c3) s = .next t ∧
         t.tide.meterUj =
           (rhe (((s.countedFj t w + (j.leakUs + us) * s.energyOf 8 s.tide.stepAdmitted) * 256 : Nat) : Int)
             (b.buckEffQ8 * 10 ^ 9)).toNat ∧
         t.tide = { s.tide with meterUj := t.tide.meterUj } ∧ t.harbour = s.harbour ∧ t.host = s.host ∧
         ∀ c, t.core c = { s.core c with meter := if (s.core c).run = .off then (s.core c).meter
           else { (s.core c).meter with cyc := (s.core c).meter.cyc + [c0, c1, c2, c3].getD c.val 0 } }) ∧
     (s.tide.power = .spring → j.ckpt = none → ∃ t, exec .reservoirGuardTrip s = .next t ∧
       t = { s with watches := t.watches } ∧ onlyWatch s t w.entry.num (fun w => { w with job := some { j with
         ckpt := some (w.coreList.foldl (fun m c => max m (s.core c).point) 0 + 1), ckptStart := j.grantFj } }))) ∧
  (∀ (s : State) (w : Watch) (j : Job), s.inSpringJob w j → s.tide.coreEn = true → s.tide.power = .spring → s.tableOk →
     s.withinDepths = true →
     (∀ k, j.ckpt = some k → s.drained w = true → w.coreList.any (fun c => decide ((s.core c).run = .stopped)) = true →
       s.overspent w j (j.ckpts + 1) = false → ∃ t, exec .checkpointComplete s = .next t ∧ t.tide.coreEn = false ∧
         t.tide.power = .slack ∧ coresOff t ∧
         (∃ w' j', t.watch? w.entry.num = some w' ∧ w'.state = .checkpointed ∧ w'.job = some j' ∧ j'.frames = some k ∧
           j'.requested = true ∧ j'.inSpring = false ∧ j'.ckpt = none ∧ j'.ckpts = j.ckpts + 1) ∧
         (∀ m, m ≠ w.entry.num → t.watch? m = s.watch? m) ∧ t.strand = s.strand ∧ t.otp = s.otp ∧ t.host = s.host) ∧
     (s.drained w = true → w.coreList.all (fun c => decide ((s.core c).run = .halted)) = true → j.disarm = false → w.adapt = none →
       w.flag 6 = false → s.cw.cfg.messages = [] → (∀ x ∈ s.watches, x.entry.trigKind ≠ 4) →
       (j.ckpt = none → s.overspent w j j.ckpts = false) → (w.entry.inputKind = 1 → s.berthsBalance = true) →
       ∃ t w', exec .computeEnd s = .next t ∧ t.tide.coreEn = false ∧ t.tide.power = .slack ∧ coresOff t ∧
         t.watch? w.entry.num = some w' ∧ w'.state = .done ∧ w'.job = none ∧ w'.entry = w.entry ∧
         (∀ m, m ≠ w.entry.num → t.watch? m = s.watch? m) ∧ t.harbour = s.harbour ∧ t.otp = s.otp) ∧
     (∀ k, s.drained w = true → j.ckpt = some k ∧ s.overspent w j (j.ckpts + 1) = true ∧
         w.coreList.any (fun c => decide ((s.core c).run = .stopped)) = true →
       ∃ t, exec .checkpointComplete s = .next t ∧ (t.stopping.map (fun x => (x.watch, x.code))) = some (w.entry.num, 0x2A)) ∧
     (∃ t, exec .vcoreFail s = .next t ∧ watchFaulted s t w.entry.num 0x27 ∧ coresOff t ∧ t.tide.coreEn = false ∧
       t.sys.alarm.getLsbD 4 = true ∧ t.harbour = s.harbour ∧ t.otp = s.otp) ∧
     (∃ t, exec .reservoirCollapse s = .next t ∧ watchFaulted s t w.entry.num 0x28 ∧ coresOff t ∧ t.tide.coreEn = false ∧
       t.sys.alarm.getLsbD 5 = true ∧ t.tide.collapses = min 0xFFFF (s.tide.collapses + 1) ∧ t.harbour = s.harbour ∧
       t.otp = s.otp))

/-! ### The pixel array and the Aux ADC -/

/-- A queued job takes the pixel array or the Aux ADC once it is free; XREF and VPIX become ready, or their time-outs and a low
VPIX make the job watch-fatal with codes 0x2C and 0x2D (R60, R84, R89, R90, R286, R287, R307, R308). The model's choice:
VPIX_READY and XREF (log 27). -/
def Obligations.InputsAreAcquiredAndSupplied : Prop :=
  (∀ (s : State) (n : Nat) (w : Watch) (j : Job), s.live → s.tableOk → s.watch? n = some w → w.job = some j → w.state = .running →
    j.acquired = false → j.inSpring = false → s.firstFor w = true → s.stopping = none → s.tide.power ≠ .neap →
      s.tide.thermalShutdown = false →
    (w.entry.inputKind = 1 → s.pix.cap = none → ∃ t, exec (.inputAcquire n) s = .next t ∧
      t = { s with watches := t.watches, pix := { s.pix with cap := some { watch := n } },
                   tide := { s.tide with pixEn := true, vpixReady := s.pixEnable && s.tide.vpixReady, xrefOn := true,
                                         xrefReady := s.tide.xrefOn && s.tide.xrefReady } } ∧
      onlyWatch s t n (fun w => { w with job := some { j with acquired := true, unitNum := w.unitCounter } })) ∧
    (w.entry.inputKind = 2 → s.adc.cap = none → s.adc.cal = none → ResetUnit.adc ∉ s.sys.resetting →
      ∃ t a, exec (.inputAcquire n) s = .next t ∧ t.adc.cap = some a ∧ a.watch = n ∧ a.blockBase = w.unitCounter ∧
        a.iepeTick = s.sys.tick ∧ a.bgDone = false ∧ a.running = false ∧ a.chains.length = (s.adcSeq w).chains.length ∧
        t.adc.iepeJob = BitVec.ofNat 4 (s.adcSeq w).iepe ∧ t.tide.xrefOn = true ∧ t.pix = s.pix ∧
        (∀ m, m ≠ n → t.watch? m = s.watch? m) ∧
        ∃ w', t.watch? n = some w' ∧ w'.unitCounter = (w.unitCounter + w.entry.inputUnits) % 2 ^ 32)) ∧
  (∀ s : State, s.live → s.tide.xrefOn = true → s.single →
    exec .xrefReady s = .next { s with tide := { s.tide with xrefReady := true } }) ∧
  (∀ s : State, s.live → s.pixEnable = true → exec .vpixReady s = .next { s with tide := { s.tide with vpixReady := true } }) ∧
  (∀ (s : State) (c : Capture) (w : Watch) (j : Job), s.live → s.tableOk → s.pix.cap = some c → s.watch? c.watch = some w →
    w.job = some j → j.inSpring = false →
    (s.tide.xrefOn = true → s.tide.xrefReady = false → s.adc.cap = none → ∃ t, exec .xrefTimeout s = .next t ∧
      watchFaulted s t c.watch 0x2C ∧ t.pix.cap = none ∧ t.tide.pixEn = false ∧ t.tide.xrefOn = false) ∧
    (s.tide.pixEn = true → s.tide.vpixReady = false → ∃ t, exec .vpixWaitTimeout s = .next t ∧
      watchFaulted s t c.watch 0x2D ∧ t.pix.cap = none ∧ t.tide.pixEn = false) ∧
    (c.reading ≠ none → ∃ t, exec .vpixLow s = .next t ∧ watchFaulted s t c.watch 0x2D ∧ t.pix.cap = none ∧
      (∀ b, t.berth b ≠ .filling) ∧ ∀ b, s.berth b ≠ .filling → t.berth b = s.berth b) ∧
    (c.reading = none → exec .vpixLow s = .next s))

/-- A frame is exposed at its start or at the edge or expiry of FSYNC, takes the watch's next frame number, and is read out row by
row into its berths, which are FILLING and then READY; the last frame frees the array (R259, R260, R266 to R279). The model's
choice: the corrections at their edges (log 22). -/
def Obligations.FramesAreExposedAndReadOut : Prop :=
  ∀ (s : State) (c : Capture) (w : Watch) (p : PixProg), s.live → s.tableOk → s.capture? = some (c, w, p) →
    s.tide.thermalShutdown = false →
    (p.flags % 4 = 1 → c.next < w.entry.inputUnits → exec .strobeLeadStart s =
      .next { s with pix := { s.pix with cap := some { c with strobe := true, lead := true } } }) ∧
    (c.expo = none → c.next < w.entry.inputUnits → s.tide.xrefReady = true → s.tide.vpixReady = true →
      (bitN p.flags 1 = true → exec .exposureStart s =
        .next { s with pix := { s.pix with cap := some { c with waitFsync := true } } }) ∧
      (∀ x ∈ [(Instr.exposureStart, false, false), (.fsyncEdge, true, false), (.fsyncWaitExpiry, true, true)],
        bitN p.flags 1 = x.2.1 → c.waitFsync = x.2.1 → ∃ t, exec x.1 s = .next t ∧
          t = { s with watches := t.watches, pix := { s.pix with
            fsyncMisses := if x.2.2 then min 255 (s.pix.fsyncMisses + 1) else s.pix.fsyncMisses,
            cap := some { c with next := c.next + 1, waitFsync := false, strobe := bitN p.flags 0, lead := false,
                                 expo := some { frame := c.next, frameNum := w.unitCounter, tick := s.sys.tick,
                                                fsyncMissed := x.2.2 } } } } ∧
          onlyWatch s t w.entry.num (fun w => { w with unitCounter := (w.unitCounter + 1) % 2 ^ 32 }))) ∧
    (∀ (e : FrameRun) (per : Nat), c.expo = some e → c.reading = none → ∃ t, exec (.exposureEnd per) s = .next t ∧
      t = { s with pix := { s.pix with reference := none, berths := t.pix.berths, cap := some { c with
        expo := none, strobe := c.lead, rowsRead := 0, blackSums := [], blackTotal := 0, wins := p.windows.map (fun _ => {}),
        reading := some { e with period := if e.frame = 0 then 0 else per % 2 ^ 32 } } } } ∧
      (∀ x ∈ p.windows, t.berth (x.berthFirst + e.frame) = .filling) ∧
      (∀ b, (∀ x ∈ p.windows, b ≠ x.berthFirst + e.frame) → t.berth b = s.berth b)) ∧
    (∀ (e : FrameRun) (y : Nat) (x : PixWin) (black raw : List Nat), c.reading = some e → p.rows[c.rowsRead]? = some y →
      p.windows = [x] → x.format = 1 → x.bin = 0 → p.flags % 16 < 4 → ResetUnit.stem ∉ s.sys.resetting → c.wins = [{}] →
      s.harbour.wf = true → x.x0 + x.width ≤ 2048 →
      let a := w.entry.hbrBase + x.berthBase + e.frame * x.berthStride + 64
      let n := (2 * x.width + 63) / 64 * 64
      a % 64 = 0 → w.inWindow a n = true → ∃ t, exec (.pixelRow black raw) s = .next t ∧ t.watches = s.watches ∧
        (∃ c', t.pix.cap = some c' ∧ c'.rowsRead = c.rowsRead + 1 ∧ c'.reading = c.reading) ∧
        (∀ i, i < x.width → rdLE t.harbour.data (a + 2 * i) 2 =
          p.corrected (raw.getD (x.x0 + i) 0) (p.blackLevel black c.blackSums)) ∧
        (∀ i, 2 * x.width ≤ i → i < n → rdByte t.harbour.data (a + i) = 0) ∧ sameOutside s.harbour t.harbour a (a + n)) ∧
    (∀ e : FrameRun, c.reading = some e → p.rows.length ≤ c.rowsRead → ResetUnit.stem ∉ s.sys.resetting →
      (∀ x ∈ p.windows, w.inWindow (w.entry.hbrBase + x.berthBase + e.frame * x.berthStride) 64 = true) →
      ∃ t, exec .frameComplete s = .next t ∧ t.pix.frames = (s.pix.frames + 1) % 2 ^ 32 ∧
        (∀ x ∈ p.windows, t.berth (x.berthFirst + e.frame) = .ready) ∧
        (e.frame + 1 ≠ w.entry.inputUnits → t.watches = s.watches ∧ t.pix.cap = some { c with reading := none, wins := [] }) ∧
        (e.frame + 1 = w.entry.inputUnits → w.entry.progCount ≠ 0 → t.pix.cap = none ∧ t.tide.pixEn = false ∧
          ∀ j, w.job = some j → ∃ w' j', t.watch? w.entry.num = some w' ∧ w'.job = some j' ∧ j'.inputsDone = true) ∧
        (∀ x, p.windows = [x] → s.harbour.wf = true →
          let h := w.entry.hbrBase + x.berthBase + e.frame * x.berthStride
          h % 64 = 0 → e.frame + 1 ≠ w.entry.inputUnits → sameOutside s.harbour t.harbour h (h + 64) ∧
            rdLE t.harbour.data h 4 = e.frameNum % 2 ^ 32 ∧ rdLE t.harbour.data (h + 26) 6 = e.tick % 2 ^ 48 ∧
            rdLE t.harbour.data (h + 32) 4 = e.period % 2 ^ 32 ∧ t.harbour.tag (h / 64) = 0))

/-- A sentinel frame is dropped while VPIX is not ready (R84). Its superpixels are the means of 32 × 32 active pixels; it becomes the
reference frame, and one that has a reference is evaluated: its change energy over the array is reported, and the armed sentinel
watches whose zone reaches their threshold become due (R280 to R283). The model's choices: the codes of a sentinel frame are 8-bit
values (log 67), and an empty zone has energy 0 (log 86). -/
def Obligations.SentinelFramesAreEvaluated : Prop :=
  ∀ (s : State) (px : List (List Nat)), s.live → s.sentinelOn = true →
    let new : List Byte := (List.range 3072).map (fun i =>
      let sum : Nat := ((List.range 32).map (fun r => ((List.range 32).map (fun c =>
        (px.getD (32 * (i / 64) + r) []).getD (32 * (i % 64) + c) 0)).sum)).sum
      BitVec.ofNat 8 (min 255 (rhe sum 1024).toNat))
    (s.tide.vpixReady = false → exec (.sentinelFrame px) s = .next s) ∧
    (s.tide.vpixReady = true → s.pix.reference = none → exec (.sentinelFrame px) s =
      .next { s with pix := { s.pix with reference := some new, sentFrames := (s.pix.sentFrames + 1) % 65536 } }) ∧
    (∀ old, s.tide.vpixReady = true → s.pix.reference = some old → s.tableOk → ∃ t, exec (.sentinelFrame px) s = .next t ∧
      t.pix = { s.pix with reference := some new, sentFrames := (s.pix.sentFrames + 1) % 65536,
                           sentEnergy := min 65535 ((List.range 3072).map (fun i =>
                             ((byteAt new i : Int) - byteAt old i).natAbs)).sum } ∧
      (∀ n w, s.watch? n = some w → w.entry.trigKind ≠ 5 → t.watch? n = some w) ∧
      (∀ n w, s.watch? n = some w → w.entry.trigKind = 5 → w.state = .armed → w.held = none → w.entry.group = 0 → w.adapt = none →
        byteAt w.entry.trigArg 2 < 64 → byteAt w.entry.trigArg 3 < 48 →
        t.watch? n = some (if leAt w.entry.trigArg 4 2 ≤ zoneSum w.entry.trigArg new old then w.started s.sys.tick 0 else w)))

/-- The Aux ADC: the bandgap check decides the start, and the sequencer runs after its settling time (R308, R316). A code beyond the
converter's range is clamped and over-range; the first sample fills a chain's state, a discard clock's sample enters none, and a
steady input comes out of a chain corrected (R291, R293, R295 to R298). A block of outputs reaches the Harbour marked, and an overrun
resets the unit (R302 to R307, R317). A calibration measures its mean and takes its pair (R310 to R314). The model's choices: the
roundings and the order of the refusals (log 23), the half-band taps (log 68), the discard clock before the first slot (log 70). -/
def Obligations.AuxAdcCapturesAndCalibrates : Prop :=
  (∀ (s : State) (sum : Nat), s.live → s.tide.xrefReady = true →
    let mean := rhe sum 64
    let noted : Adc := { s.adc with bgCode := BitVec.ofInt 14 mean }
    (∀ c w, s.adcCapture? = some (c, w) → c.bgDone = false →
      (4817 ≤ mean ∧ mean ≤ 5013 → exec (.adcBandgapCheck sum) s =
        .next { s with adc := { noted with cap := some { c with bgDone := true } } }) ∧
      (mean < 4817 ∨ 5013 < mean → ∃ t, exec (.adcBandgapCheck sum) s = .next t ∧
        t = { s with adc := { noted with bgFails := min 255 (s.adc.bgFails + 1) }, sys := { s.sys with
          resetting := s.sys.resetting ++ [.adc], unitResets := t.sys.unitResets } } ∧
        (t.sys.unitResets.getD 5 0 = if 5 < s.sys.unitResets.length then min 15 (s.sys.unitResets.getD 5 0 + 1) else 0))) ∧
    (∀ r, s.adc.cap = none → s.adc.cal = some r → r.bgDone = false → ResetUnit.adc ∉ s.sys.resetting →
      (4817 ≤ mean ∧ mean ≤ 5013 → exec (.adcBandgapCheck sum) s =
        .next { s with adc := { noted with cal := some { r with bgDone := true } } }) ∧
      (mean < 4817 ∨ 5013 < mean → ∃ t, exec (.adcBandgapCheck sum) s = .next t ∧ t.adc = { noted with
        cal := none, bgFails := min 255 (s.adc.bgFails + 1), calStatus := 9 }))) ∧
  (∀ (s : State) (c : AdcCapture) (w : Watch), s.live → s.tableOk → s.adcCapture? = some (c, w) →
    (c.bgDone = true → c.running = false → c.iepeTick + (s.adcSeq w).settle ≤ s.sys.tick →
      exec .adcSequencerStart s = .next { s with adc := { s.adc with cap := some { c with
        running := true, clock := if (s.adcSeq w).cycle.head? = some none then 1 else 0 } } }) ∧
    (c.running = true → ∃ t, exec .adcOverrun s = .next t ∧ t = { s with sys := { s.sys with
      resetting := s.sys.resetting ++ [.adc], unitResets := t.sys.unitResets } }) ∧
    (∀ (i : Fin 4) (d : ChainDesc) (r : ChainRun) (rs : List ChainRun) (clk first : Nat) (codes : List (Int × Bool)),
      c.running = true → (s.adcSeq w).chains[i.val]? = some d →
      codes.foldl (adcClock (s.adcSeq w) w.entry.inputUnits) (c.clock, c.chains) = (clk, rs) → rs[i.val]? = some r →
      blockFull (s.adcSeq w) i.val rs = true → r.done + 1 < w.entry.inputUnits → d.spectral = false → s.harbour.wf = true →
      let a := w.entry.hbrBase + d.buf + r.done * d.stride
      let n := 64 + (2 * r.words.length + 63) / 64 * 64
      a % 64 = 0 → w.inWindow a n = true → ∃ t, exec (.adcBlockComplete i first codes) s = .next t ∧ t.watches = s.watches ∧
        rdLE t.harbour.data a 4 = (c.blockBase + r.done) % 2 ^ 32 ∧ rdLE t.harbour.data (a + 20) 6 = first % 2 ^ 48 ∧
        (∀ k x, r.words.reverse[k]? = some x → rdLE t.harbour.data (a + 64 + 2 * k) 2 =
          (x.1 + (if x.2.1 then 2 ^ 14 else 0) + (if k = 0 then 2 ^ 15 else 0)) % 65536) ∧
        sameOutside s.harbour t.harbour a (a + n) ∧
        t.adc.cap = some { c with clock := clk, chains := rs.set i.val { r with
          done := r.done + 1, words := [], entered := false, carry := decide (d.ratio < r.reach) } })) ∧
  ((∀ x : Int, convert (x, false) = if 8191 < x then (8191, true) else if x < -8192 then (-8192, true) else (x, false)) ∧
   (∀ (q : AdcSeq) (u k : Nat) (rs : List ChainRun) (x : Int × Bool), q.cycle.getD k none = none →
     adcClock q u (k, rs) x = ((k + 1) % max 1 q.frameLen, rs)) ∧
   (∀ (d : ChainDesc) (r : ChainRun) (x : Int × Bool), r.started = false →
     (chainSample d r x).hist = List.replicate (4 * d.m - 3) x.1 ∧
     (chainSample d r x).cic = List.replicate (22 * (2 ^ d.hb - 1) + 1) (x.1 * (d.m ^ 4 : Nat)) ∧
     (chainSample d r x).started = true ∧ (chainSample d r x).words = r.words) ∧
   (∀ (d : ChainDesc) (r : ChainRun) (v : Int), 1 ≤ d.m → r.started = true → r.hist = List.replicate (4 * d.m - 3) v →
     r.cic = List.replicate (22 * (2 ^ d.hb - 1) + 1) (v * (d.m ^ 4 : Nat)) → r.phase + 1 = d.ratio →
     ((chainSample d r (v, false)).words.head?).map (fun x => (x.1, x.2.1)) =
       some (ofSigned (max (-8192) (min 8191 (rhe ((16 * v - r.ofs) * r.gain) (2 ^ 26)))) 14, r.entered || decide (1 < r.reach)))) ∧
  (∀ (s : State) (r : CalRun) (sum : Int) (ovr : Bool), s.live → s.adc.cap = none → s.adc.cal = some r → r.bgDone = true →
    let mean := rhe sum 4096
    ∃ t, exec (.calMeasurementDone sum ovr) s = .next t ∧ t.adc.calMean = mean ∧ t.adc.cal = none ∧ t.adc.iepeForce = s.adc.iepeForce ∧
      t.watches = s.watches ∧ t.strand = s.strand ∧
      (ovr = true → t.adc.calStatus = 3 ∧ t.adc.m0 = s.adc.m0 ∧ t.adc.pending = s.adc.pending) ∧
      (ovr = false → r.applied = none → 6400 < mean.natAbs → t.adc.calStatus = 5 ∧ t.adc.m0 = s.adc.m0) ∧
      (ovr = false → r.applied = none → mean.natAbs ≤ 6400 → t.adc.calStatus = 0 ∧ pairGet t.adc.m0 (r.channel, r.gain) = some mean ∧
        ∀ q, q ≠ (r.channel, r.gain) → pairGet t.adc.m0 q = pairGet s.adc.m0 q) ∧
      (∀ v m0, ovr = false → r.applied = some v → pairGet s.adc.m0 (r.channel, r.gain) = some m0 → m0 < mean →
        let g := rhe (v * (2 ^ r.gain * 8192 * 16 * 2 ^ 22 : Nat)) (1000000 * (mean - m0).natAbs)
        (3145728 ≤ g ∧ g ≤ 5242880 → t.adc.calStatus = 0 ∧ pairGet t.adc.pending (r.channel, r.gain) = some (m0, g)) ∧
        (g < 3145728 ∨ 5242880 < g → t.adc.calStatus = 5 ∧ t.adc.pending = s.adc.pending))) ∧
  (∀ (s : State) (c : MbxCmd) (rest : List MbxCmd), s.mbxFront c rest → s.sys.fail = 0 →
    (c.cmd = 0x10 → c.zeroFrom 1 → (c.arg 0).toNat &&& 0x73 = (c.arg 0).toNat → fld (c.arg 0).toNat 4 3 ≤ 4 →
      ∃ t, exec .calZero s = .next t ∧ t = { s.mbxTaken c rest with
        adc := { s.adc with cal := some { channel := (c.arg 0).toNat % 4, gain := fld (c.arg 0).toNat 4 3 } },
        tide := { s.tide with xrefOn := true, xrefReady := s.tide.xrefOn && s.tide.xrefReady } }) ∧
    (c.cmd = 0x10 → c.zeroFrom 1 → 4 < fld (c.arg 0).toNat 4 3 → exec .calZero s =
      .next { s.mbxAnswered c rest 1 with adc := { s.adc with calStatus := 1 } }) ∧
    (c.cmd = 0x11 → c.zeroFrom 2 → (c.arg 0).toNat &&& 0x73 = (c.arg 0).toNat → fld (c.arg 0).toNat 4 3 ≤ 4 →
      let q := ((c.arg 0).toNat % 4, fld (c.arg 0).toNat 4 3)
      let v := (c.arg 1).toInt
      (pairGet s.adc.m0 q = none → exec .calFull s = .next { s.mbxAnswered c rest 2 with adc := { s.adc with calStatus := 2 } }) ∧
      (pairGet s.adc.m0 q ≠ none → (v * (2 ^ q.2 * 8192 : Nat)).natAbs < 4096 * 1000000 →
        exec .calFull s = .next { s.mbxAnswered c rest 4 with adc := { s.adc with calStatus := 4 } }) ∧
      (pairGet s.adc.m0 q ≠ none → 4096 * 1000000 ≤ (v * (2 ^ q.2 * 8192 : Nat)).natAbs → ∃ t, exec .calFull s = .next t ∧
        t.adc = { s.adc with cal := some { channel := q.1, gain := q.2, applied := some v } } ∧ t.host.mbxRun = some c ∧
        t.watches = s.watches)) ∧
    (c.cmd = 0x12 → (∀ j, 1 ≤ j → j < 7 → c.arg j = 0) →
      (c.arg 0 ≠ 0 ∨ c.arg 7 ≠ 0xFFFFFFFF →
        exec .calCommit s = .next { s.mbxAnswered c rest 8 with adc := { s.adc with calStatus := 8 } }) ∧
      (c.arg 0 = 0 → c.arg 7 = 0xFFFFFFFF → s.adc.pending = [] →
        exec .calCommit s = .next { s.mbxAnswered c rest 6 with adc := { s.adc with calStatus := 6 } }) ∧
      (c.arg 0 = 0 → c.arg 7 = 0xFFFFFFFF → s.adc.pending ≠ [] → exec .calCommit s = .next { s.mbxTaken c rest with
        strand := { s.strand with commits := s.strand.commits ++ [{ record := 0, cause := .cal }] } })))

/-! ### The Stem engine -/

/-- SPECTRAL_FRONT serves the block at the front of the queue: the header line names its block and its lines, and each line holds
the codes of the bands of a segment, or of their mean, with zeros above; with the last output of the job its inputs are complete,
once no chain of it captures (R320, R333 to R337). The model's choice: the rounding of a butterfly (log 21). -/
def Obligations.SpectralFrontWritesItsBands : Prop :=
  ∀ (s : State) (rest : List StemReq) (w : Watch) (j : Job) (i k : Nat) (ch : ChainDesc) (c : SpecConf),
    s.stemServes { watch := w.entry.num, kind := .spectral i k } rest w → w.job = some j →
    1 < j.spectralLeft ∨ (j.spectralLeft = 1 ∧ w.entry.progCount ≠ 0 ∧ w.vib = false) →
    (s.adcSeq w).chains[i]? = some ch → s.specConf? w.entry ch = some c → c.bands ≤ 64 →
    let len := (s.adcSeq w).blockLen
    let src := w.entry.hbrBase + ch.buf + k * ch.stride
    let dst := w.entry.hbrBase + c.outOff + k * c.outStride
    let lines := if c.avg = 1 then 1 else c.segs len
    let segment := fun (g : Nat) => bandEnergies c ((List.range c.n).map (fun m =>
      toSigned (rdLE s.harbour.data (src + 64 + 2 * (g * c.h + m)) 2) 14))
    (∀ g, g < c.segs len → g * c.h + c.n ≤ len) → 0 < c.segs len →
    dst % 64 = 0 → w.inWindow src (64 + 2 * len) = true → w.inWindow dst (64 + 64 * lines) = true →
    ∃ t, exec .spectralFront s = .next t ∧ t.stem.queue = rest ∧ t.stem.owner = some w.entry.owner ∧
      sameOutside s.harbour t.harbour dst (dst + 64 + 64 * lines) ∧ t.host = s.host ∧ t.strand = s.strand ∧
      (∃ w' j', t.watch? w.entry.num = some w' ∧ w'.job = some j' ∧ j'.spectralLeft = j.spectralLeft - 1 ∧
        j'.inputsDone = (j.inputsDone || (j.spectralLeft == 1 && !s.adc.cap.any (fun c => c.watch == w.entry.num)))) ∧
      (∀ b, b < 4 → rdByte t.harbour.data (dst + b) = rdByte s.harbour.data (src + b)) ∧
      rdLE t.harbour.data (dst + 4) 2 = lines % 2 ^ 16 ∧ (rdByte t.harbour.data (dst + 6)).toNat = c.bands ∧
      (rdByte t.harbour.data (dst + 7)).toNat = (if (rdByte s.harbour.data (src + 7)).toNat % 4 = 0 then 0 else 1) ∧
      rdLE t.harbour.data (dst + 8) 2 = rdLE s.harbour.data (src + 10) 2 ∧
      (∀ l b, l < lines → b < 64 → rdByte t.harbour.data (dst + 64 + 64 * l + b) =
        if b < min c.bands c.table.length then
          BitVec.ofInt 8 (c.code (if c.avg = 1 then
              (rhe (((List.range (c.segs len)).map (fun g => (segment g).getD b 0)).sum : Nat) (c.segs len)).toNat
            else (segment l).getD b 0))
        else 0)

/-- HEAD_REQUEST serves the head at the front of the queue. KIND 0: the classes with the best scores fill the first line of the
result area, and a LABEL record goes out where EMIT and RECORD_KINDS ask for it. KIND 1 and 2: the accepted boxes follow it. The
request completes with its event; a descriptor out of bounds, or one that names weights or a table in the place of an absent record,
is watch-fatal with code 0x2E (R320, R338 to R348, R649). The model's choices: a sum outside 32 bits is free (log 69), the anchors'
sign (log 28), what is not present (log 72). -/
def Obligations.HeadRequestsClassifyAndDetect : Prop :=
  ∀ (s : State) (rest : List StemReq) (w : Watch) (core : Option (Fin 4)) (a ev : Nat),
    s.stemServes { watch := w.entry.num, kind := .head (core.map (·.val)) a ev } rest w → s.headTaker rest w.entry.num core ev →
    w.inWindow a 128 = true →
    let b := rdBytes s.harbour.data a 128
    let d := HeadDesc.read b
    let base := w.entry.hbrBase
    let res := base + d.result
    (d.ok b = true → res % 64 = 0 → d.kind = 0 → bitN d.flags 2 = false → w.inWindow (base + d.inOff) d.nIn = true →
      w.inWindow (base + d.wOff) (d.nOut * ((d.nIn + 63) / 64 * 64)) = true → w.inWindow (base + d.bOff) (4 * d.nOut) = true →
      w.inWindow res 64 = true → (d.tables base false).all (fun r => s.present r.1 r.2) = true →
      let scores := headScores s.harbour.data (base + d.inOff) (base + d.wOff) (base + d.bOff) d.nIn d.nOut d.mul d.shift
      let top := topK d.topk (scores.zipIdx.map (fun x => (x.2, x.1)))
      let emits := bitN d.flags 0 && w.entry.recordKinds.getLsbD 0
      ∃ t, exec .headRequest s = .next t ∧ t.stem.queue = rest ∧ headCompleted s t core ev ∧
        resultIs t.harbour.data res top 0 ∧ sameOutside s.harbour t.harbour res (res + 64) ∧ t.strand = s.strand ∧
        (emits = false → t.host = s.host) ∧
        (∀ j, emits = true → w.job = some j → w.flag 3 = false → s.outboxTakes 1 → ∃ r, t.host.outbox = s.host.outbox ++ [r] ∧
          isRecord r 1 w.entry.num w.nextSeq s.sys.tick j.unitNum (padTo (
            (List.range 4).map (fun i => BitVec.ofNat 8 (((top[i]?).map (·.1)).getD 0xFF)) ++
            (List.range 4).flatMap (fun i => leBytes (((top[i]?).map (·.2)).getD 0) 2) ++ [BitVec.ofNat 8 d.topk]) 16))) ∧
    (d.ok b = true → res % 64 = 0 → d.kind = 1 ∨ d.kind = 2 →
      w.inWindow (base + d.inOff) (64 * d.gw * d.gh * d.anchors) = true → w.inWindow (base + d.lut) 512 = true →
      (d.kind = 1 → w.inWindow (base + d.wOff) (8 * d.anchors) = true) →
      (d.tables base false).all (fun r => s.present r.1 r.2) = true → bitN d.flags 0 = false →
      let found := (List.range (d.gw * d.gh * d.anchors)).filterMap (decodeLine d s.harbour.data base)
      let kept := nms d ((found.foldl (fun l x => insertBox x l) []).take 256)
      w.inWindow res (64 + 64 * ((kept.length + 1) / 2)) = true →
      ∃ t, exec .headRequest s = .next t ∧ t.stem.queue = rest ∧ headCompleted s t core ev ∧
        resultIs t.harbour.data res ((kept.take d.topk).map (fun x => (x.cls, x.score))) kept.length ∧
        (∀ i x, kept[i]? = some x → ∀ n v, [x.x0, x.y0, x.x1, x.y1][n]? = some v →
          rdLE t.harbour.data (res + 64 + 32 * i + 4 * n) 4 = ofSigned v 32) ∧
        (∀ i x, kept[i]? = some x → rdLE t.harbour.data (res + 64 + 32 * i + 16) 2 = x.score % 2 ^ 16) ∧
        sameOutside s.harbour t.harbour res (res + 64 + 64 * ((kept.length + 1) / 2)) ∧ t.host = s.host ∧ t.watches = s.watches) ∧
    (∀ j, w.job = some j → j.inSpring = false → s.tableOk → byteAt b 0 ≠ 3 → byteAt b 0 ≠ 4 →
      d.ok b = false ∨ (bitN d.flags 2 = false ∧ (d.tables base false).all (fun r => s.present r.1 r.2) = false) →
      ∃ t, exec .headRequest s = .next t ∧ watchFaulted s t w.entry.num 0x2E ∧
        t.stem.descErrors = min 255 (s.stem.descErrors + 1) ∧ t.harbour = s.harbour)

/-- GROUP_DECISION takes group requests from the queue and, once every core of the job has issued one for the same group, decides:
the totals and the decision stand in every result area, SATC and the totals are cleared, every request completes, and a replay is
counted (R505 to R508). The model's choice: the field of a total beyond 32 bits is free (log 69). -/
def Obligations.GroupRequestsDecideReplay : Prop :=
  ∀ (s : State) (w : Watch) (j : Job) (table : PlacedRecord), s.live → s.stemRuns = true → s.tableOk → s.harbour.wf = true →
    s.harbour.poison = [] → s.springWatch = some w → s.watch? w.entry.num = some w → w.job = some j → s.quant? w = some table →
    s.stopping = none → s.headsIssued →
    (∀ (c : Fin 4) (a ev : Nat), s.stem.queue = [{ watch := w.entry.num, kind := .head (some c.val) a ev }] →
      let b := rdBytes s.harbour.data a 128
      byteAt b 0 = 4 → leAt b 4 2 < groupCount table.body → groupDescOk b = true → w.inWindow a 128 = true →
      w.inWindow (w.entry.hbrBase + leAt b 24 4) 64 = true → j.groupReqs = [] → (∃ o ∈ w.coreList, o ≠ c) →
      ∃ t, exec .groupDecision s = .next t ∧ t = { s with watches := t.watches, stem := { s.stem with queue := [] } } ∧
        onlyWatch s t w.entry.num (fun w => { w with job := some { j with
          groupReqs := [{ core := c.val, group := leAt b 4 2, result := leAt b 24 4, event := ev }] } })) ∧
    (∀ (g : Nat) (area event : Fin 4 → Nat), s.stem.queue = [] → w.coreList ≠ [] →
      j.groupReqs = w.coreList.map (fun c => { core := c.val, group := g, result := area c, event := event c }) →
      (∀ c ∈ w.coreList, (w.entry.hbrBase + area c) % 64 = 0 ∧ (s.core c).run = .running ∧ (s.core c).wait = none ∧
        (s.core c).replaying = false ∧ ((s.core c).evreg (event c)).toNat < 255) →
      ∃ t, exec .groupDecision s = .next t ∧
        (∀ c ∈ w.coreList, let r := w.entry.hbrBase + area c;
          (∀ l, l < 8 → rdLE t.harbour.data (r + 4 + 4 * l) 4 = totalField (s.satTotal w j l)) ∧
          (s.groupReplays w j table.body g → rdLE t.harbour.data r 4 = 1) ∧
          (¬s.groupReplays w j table.body g → rdLE t.harbour.data r 4 = 0) ∧
          t.core c = Core.setEv { s.core c with heads := (s.core c).heads - 1,
                                                regs := { (s.core c).regs with satc := Vector.replicate 8 0 } }
            (event c) ((s.core c).evreg (event c) + 1)) ∧
        (∀ c, c ∉ w.coreList → t.core c = s.core c) ∧
        (∀ x, (∀ c ∈ w.coreList, x < w.entry.hbrBase + area c ∨ w.entry.hbrBase + area c + 64 ≤ x) →
          rdByte t.harbour.data x = rdByte s.harbour.data x) ∧
        (∃ w' j', t.watch? w.entry.num = some w' ∧ w'.job = some j' ∧ j'.groupReqs = [] ∧ j'.totals = List.replicate 8 0 ∧
          (s.groupReplays w j table.body g → w'.replays = min 0xFFFFFFFF (w.replays + 1) ∧ j'.replayed = j.replayed + 1 ∧
            t.stem.replays = min 0xFFFF (s.stem.replays + 1) ∧ t.stem.lastReplayWatch = w.entry.num) ∧
          (¬s.groupReplays w j table.body g → w'.replays = w.replays ∧ j'.replayed = j.replayed ∧
            t.stem.replays = s.stem.replays)) ∧
        t.stem.queue = [] ∧ t.host = s.host ∧ (∀ m, m ≠ w.entry.num → t.watch? m = s.watch? m))

/-- ROI_EXPORT emits the header and the samples of a crop as records where the watch and the life-cycle state decoded at boot allow
it, else it emits none and counts the refusal; either way the request completes (R451 to R454, R649). -/
def Obligations.RoiExportsAreEmittedOrRefused : Prop :=
  ∀ (s : State) (rest : List StemReq) (w : Watch) (j : Job) (core : Option (Fin 4)) (a ev i h : Nat),
    s.stemServes { watch := w.entry.num, kind := .head (core.map (·.val)) a ev } rest w → s.headTaker rest w.entry.num core ev →
    w.job = some j → w.inWindow a 128 = true →
    let b := rdBytes s.harbour.data a 128
    byteAt b 0 = 3 → exportOk b = true → s.exportBerth? w (leAt b 4 4) = some (i, h) → s.berth i = .ready →
    rdByte s.harbour.data (h + 5) = 0 →
    let inW := rdLE s.harbour.data (h + 6) 2
    let inH := rdLE s.harbour.data (h + 8) 2
    let allowed := w.flag 4 && w.entry.recordKinds.getLsbD 2 && decide (1 ≤ s.otp.lcBoot) && decide (s.otp.lcBoot ≤ 4)
    let box := fun (n : Nat) => toSigned (leAt b (8 + 4 * n) 4) 32
    let samples := exportSamples s.harbour.data h inW inH (byteAt b 2) (byteAt b 3) (byteAt b 1 == 1) box (byteAt b 27)
    let parts := (byteAt b 2 * byteAt b 3 + 15) / 16
    (allowed = false → w.inWindow h 64 = true → ∃ t, exec .roiExport s = .next t ∧ t.stem.queue = rest ∧ headCompleted s t core ev ∧
      t.stem.roiRefused = min 0xFFFF (s.stem.roiRefused + 1) ∧ t.stem.roiEmitted = s.stem.roiEmitted ∧ t.host = s.host ∧
      t.harbour = s.harbour ∧ t.watches = s.watches) ∧
    (allowed = true → w.inWindow h (64 + inH * ((inW + 63) / 64 * 64)) = true → w.flag 3 = false → s.outboxTakes (1 + parts) →
      ∃ t hd rs, exec .roiExport s = .next t ∧ t.stem.queue = rest ∧ headCompleted s t core ev ∧
        t.stem.roiEmitted = min 0xFFFF (s.stem.roiEmitted + 1) ∧ t.harbour = s.harbour ∧
        t.host.outbox = s.host.outbox ++ hd :: rs ∧ rs.length = parts ∧
        isRecord hd 3 w.entry.num w.nextSeq s.sys.tick j.unitNum
          (slice b 2 2 ++ slice b 26 1 ++ slice b 1 1 ++ slice b 24 2 ++ leBytes parts 2 ++
            (List.range 4).flatMap (fun n => leBytes (max 0 (min 65535 (rhe (box n) 4096))).toNat 2)) ∧
        bitN (byteAt hd 1) 1 = true ∧
        (∀ n r, rs[n]? = some r → isRecord r 4 w.entry.num (w.nextSeq + 1 + n) s.sys.tick j.unitNum
            (padTo (slice samples (16 * n) 16) 16) ∧ bitN (byteAt r 1) 1 = decide (n + 1 < parts)))

/-! ### On-sensor adaptation -/

/-- ADAPTATION_STEP runs the oldest waiting step of a watch: masters, momenta and row scales take the values of R522, STEPS counts
it, the inactive service buffer is computed from the new masters and becomes pending, a job that waited for the watch's steps
starts after the last of them with that buffer active, and a commit is requested where COMMIT_EVERY is reached (R513 to R517, R522
to R524). The model's choices: which flags a step joins (log 26), a sum outside 32 bits is free (log 69). -/
def Obligations.AdaptationStepsUpdateTheHead : Prop :=
  ∀ (s : State) (rest : List StemReq) (w : Watch) (b : AdaptBlock) (ad : Adapt) (e y : Nat) (byHost : Bool)
    (ls : List (Nat × Nat × Bool)), s.stemServes { watch := w.entry.num, kind := .adapt } rest w → s.tableOk →
    s.adaptBlock? w = some b → w.adapt = some ad → ad.labels = (e, y, byHost) :: ls → s.committing (1 + b.slot) = false →
    let a := s.adaptArea w b
    let ring := ringAddr w b a.nIn e
    let d := HeadDesc.read (rdBytes s.harbour.data (w.entry.hbrBase + b.headDesc) 128)
    let size := serviceSize a.nIn a.nOut
    let inUse := serviceAddr w b a.nIn a.nOut ad.activeB
    let spare := serviceAddr w b a.nIn a.nOut (!ad.activeB)
    disjointRanges a.base a.size spare size → disjointRanges a.base a.size (w.entry.hbrBase + b.headDesc) 128 →
    disjointRanges spare size (w.entry.hbrBase + b.headDesc) 128 →
    a.base % 64 = 0 → spare % 64 = 0 →
    let scores := headScores s.harbour.data (ring + 64) inUse (inUse + weightBytes a.nIn a.nOut) a.nIn a.nOut d.mul d.shift
    let row := fun (r : Nat) => (stepRow s.harbour.data a b r ((scores.getD r 0 : Int) - (if r = y then 65536 else 0))
      ((rdBytes s.harbour.data (ring + 64) a.nIn).map (fun x => x.toInt) ++ [1])).1
    ∃ t, exec .adaptationStep s = .next t ∧ t.stem.queue = rest ∧ t.stem.adaptSteps = min 0xFFFF (s.stem.adaptSteps + 1) ∧
      (∀ r n, r < a.nOut → n ≤ a.nIn →
        rdLE t.harbour.data (a.master r n) 2 = (row r).2.1.getD n 0 % 2 ^ 16 ∧
        rdByte t.harbour.data (a.momentum r n) = BitVec.ofInt 8 ((row r).1.getD n 0)) ∧
      (∀ r, r < a.nOut → rdLE t.harbour.data (a.sigma r) 4 = (row r).2.2 % 2 ^ 32) ∧
      rdLE t.harbour.data (a.base + 8) 4 = (rdLE s.harbour.data (a.base + 8) 4 + 1) % 2 ^ 32 ∧
      (∀ n, n < size → rdByte t.harbour.data (spare + n) = (serviceBytes t.harbour.data a b).1.getD n 0) ∧
      (∀ x, (x < a.base ∨ a.base + a.size ≤ x) → (x < spare ∨ spare + size ≤ x) →
        rdByte t.harbour.data x = rdByte s.harbour.data x) ∧
      (∃ w', t.watch? w.entry.num = some w' ∧
        (w.held = none ∨ ls ≠ [] → w'.adapt = some { ad with labels := ls, pending := true } ∧ w'.state = w.state ∧ w'.held = w.held) ∧
        (w.held ≠ none → ls = [] → w.entry.group = 0 → w'.state = .running ∧ w'.held = none ∧
          w'.adapt = some { ad with labels := [], pending := false, activeB := !ad.activeB })) ∧
      (let since := min 255 ((rdByte s.harbour.data (a.base + 14)).toNat + 1);
        (b.commitEvery ≤ since → t.strand.commits = s.strand.commits ++
          [{ record := 1 + b.slot, body := rdBytes t.harbour.data a.base a.size, cause := .head w.entry.num byHost }]) ∧
        (since < b.commitEvery → t.strand.commits = s.strand.commits ∧ (byHost = true → s.host.mbxRun.isSome = true →
          t.host.mbxRun = none ∧ t.host.mbxCode = 0 ∧ t.stem.adaptStatus = 0)))

/-- LABEL, REVERT and RESTART_BASELINE check their watch and arguments and complete with their status, or queue the step, rebuild
the head from the image and request its commit, or clear BASE_COUNT (R518 to R520, R524, R525). The model's choices: the order of
the checks and reserved bits (log 57), the lines it reads, none of them poisoned here (log 81). -/
def Obligations.LabelCommandsActOnTheirHead : Prop :=
  ∀ (s : State) (c : MbxCmd) (rest : List MbxCmd), s.mbxFront c rest → s.sys.fail = 0 → s.slotBusy = false → c.cmd = 0x20 →
    let n := fld (c.arg 0).toNat 0 10
    let op := fld (c.arg 0).toNat 16 2
    (∀ x ∈ [(0, Instr.label), (1, .revert), (2, .restartBaseline), (3, .label)], op = x.1 →
      (s.watch? n = none ∨ (∃ w, s.watch? n = some w ∧ (s.adaptBlock? w = none ∨ w.state = .faulted)) →
        exec x.2 s = .next (s.labelAnswered c rest 1)) ∧
      (∀ w b, s.watch? n = some w → s.adaptBlock? w = some b → w.state ≠ .faulted →
        (op = 3 ∨ (c.arg 0).toNat &&& 0x303FF ≠ (c.arg 0).toNat → exec x.2 s = .next (s.labelAnswered c rest 4)) ∧
        (op ≠ 0 → ¬c.zeroFrom 1 → exec x.2 s = .next (s.labelAnswered c rest 4)))) ∧
    (∀ w b, s.watch? n = some w → s.adaptBlock? w = some b → w.state ≠ .faulted →
      (c.arg 0).toNat &&& 0x303FF = (c.arg 0).toNat → s.harbour.wf = true → s.harbour.poison = [] → s.harbour.upset = [] →
      (op = 0 → c.zeroFrom 3 → (c.arg 2).toNat < 256 →
        let sh := s.headShape w b
        (s.ringEntry? w b (c.arg 1).toNat = none → labelRefused s c rest 2) ∧
        (∀ e, s.ringEntry? w b (c.arg 1).toNat = some e →
          let a := ringAddr w b sh.1 e
          let mark := (rdByte s.harbour.data (a + 4)).toNat
          (sh.2 ≤ (c.arg 2).toNat → labelRefused s c rest 3) ∧
          ((c.arg 2).toNat < sh.2 → mark = 2 ∨ mark = 4 → labelRefused s c rest 5) ∧
          ((c.arg 2).toNat < sh.2 → mark ≠ 2 → mark ≠ 4 → ∃ t, exec .label s = .next t ∧
            t.host = (s.mbxTaken c rest).host ∧
            t.stem = { s.stem with queue := s.stem.queue ++ [{ watch := n, kind := .adapt }] } ∧
            (rdByte t.harbour.data (a + 4)).toNat = (if mark = 3 then 4 else 2) ∧
            (∀ x, x ≠ a + 4 → rdByte t.harbour.data x = rdByte s.harbour.data x) ∧
            onlyWatch s t n (fun w => { w with adapt := w.adapt.map (fun ad =>
              { ad with labels := ad.labels ++ [(e, (c.arg 2).toNat, true)] }) })))) ∧
      (op = 1 → c.zeroFrom 1 →
        let a := s.adaptArea w b
        let spare := serviceAddr w b a.nIn a.nOut (!(w.adapt.getD {}).activeB)
        a.base % 64 = 0 → spare % 64 = 0 →
        disjointRanges a.base a.size spare (serviceSize a.nIn a.nOut) → disjointRanges a.base a.size (w.entry.hbrBase + b.headDesc) 128 →
        disjointRanges spare (serviceSize a.nIn a.nOut) (w.entry.hbrBase + b.headDesc) 128 →
        ∃ t, exec .revert s = .next t ∧ t.host.mbxRun = some c ∧ t.host.mbx = rest ∧
          rdBytes t.harbour.data a.base a.size = imageState w b s ∧
          (∀ i, i < serviceSize a.nIn a.nOut →
            rdByte t.harbour.data (spare + i) = (serviceBytes t.harbour.data a b).1.getD i 0) ∧
          t.strand.commits = s.strand.commits ++
            [{ record := 1 + b.slot, body := imageState w b s, cause := .head n true }] ∧
          (∀ ad, w.adapt = some ad → ∃ w', t.watch? n = some w' ∧ w'.adapt = some { ad with pending := true })) ∧
      (op = 2 → c.zeroFrom 1 → ∃ t, exec .restartBaseline s = .next t ∧
        t = { s.labelAnswered c rest 0 with harbour := t.harbour, tide := t.tide } ∧
        rdLE t.harbour.data (w.entry.hbrBase + b.stateOff + 12) 2 = 0 ∧
        (∀ x, x ≠ w.entry.hbrBase + b.stateOff + 12 → x ≠ w.entry.hbrBase + b.stateOff + 13 →
          rdByte t.harbour.data x = rdByte s.harbour.data x) ∧ t.harbour.tags = s.harbour.tags))

/-! ### Units, the scrub, the Strand store and the Outbox -/

/-- A buffer error puts the Stem engine into partial reset; PARTIAL_RESET_RELEASE ends that of a unit, with its job watch-fatal or
its retry buffer empty; DRAIN_TIMEOUT, of a partial reset or of a replay, is chip-fatal with code 3 (R167 to R173, R351, R611, R617,
R619). The model's choice: adaptation steps stay queued (log 42). -/
def Obligations.PartialResetsEndAndDrainsTimeOut : Prop :=
  ∀ s : State, s.live →
    (s.stemRuns = true → ∃ t, exec .stemBufferError s = .next t ∧ t = { s with sys := { s.sys with
      resetting := s.sys.resetting ++ [.stem], unitResets := t.sys.unitResets } } ∧
      (4 < s.sys.unitResets.length → t.sys.unitResets.getD 4 0 = min 15 (s.sys.unitResets.getD 4 0 + 1))) ∧
    (∀ u, u ∉ s.sys.resetting → exec (.partialResetRelease u) s = .next s ∧
      (s.replaysOn u = false → exec (.drainTimeout u) s = .next s)) ∧
    (∀ u, u ∈ s.sys.resetting ∨ s.replaysOn u = true → s.idleStores → (∀ b ∈ s.strand.logQueue, b.length = 56) →
      Memory.wf s.strand.data = true →
      ∃ t, exec (.drainTimeout u) s = .next t ∧ t = { s.inResetBy 8 with
        sys := { (s.inResetBy 8).sys with fatalPending := 3 }, strand := { data := t.strand.data } } ∧
        ∀ a, a < 0x70000 ∨ 0x80000 ≤ a → rdByte t.strand.data a = rdByte s.strand.data a) ∧
    (ResetUnit.adc ∈ s.sys.resetting →
      (s.adc.cap = none → exec (.partialResetRelease .adc) s =
        .next { s with sys := { s.sys with resetting := s.sys.resetting.filter (fun u => u ≠ .adc) } }) ∧
      (∀ c w j, s.tableOk → s.adc.cap = some c → s.watch? c.watch = some w → w.job = some j → j.inSpring = false →
        ∃ t, exec (.partialResetRelease .adc) s = .next t ∧ watchFaulted s t c.watch 0x2B ∧ t.adc.cap = none ∧ t.adc.iepeJob = 0 ∧
          t.sys.resetting = s.sys.resetting.filter (fun u => u ≠ .adc))) ∧
    (ResetUnit.stem ∈ s.sys.resetting → (∀ w ∈ s.watches, ∀ j, w.job = some j → j.groupReqs = []) → s.pix.cap = none →
      (∀ r ∈ s.stem.queue, r.kind = .adapt) → exec (.partialResetRelease .stem) s =
        .next { s with sys := { s.sys with resetting := s.sys.resetting.filter (fun u => u ≠ .stem) },
                       stem := { s.stem with lineMem := [] } }) ∧
    (∀ (n a e : Nat) (kind : StemKind) (w : Watch) (j : Job), ResetUnit.stem ∈ s.sys.resetting → s.tableOk →
      s.stem.queue = [{ watch := n, kind := kind }] → kind = .head none a e ∨ kind = .spectral a e →
      (∀ w ∈ s.watches, ∀ j, w.job = some j → j.groupReqs = []) → s.pix.cap = none → s.watch? n = some w → w.job = some j →
        j.inSpring = false →
      ∃ t, exec (.partialResetRelease .stem) s = .next t ∧ watchFaulted s t n 0x2B ∧ t.stem.queue = [] ∧
        t.stem.aborts = min 255 (s.stem.aborts + 1)) ∧
    (∀ c : Fin 4, ResetUnit.core c ∈ s.sys.resetting → (s.core c).pend = [] →
      (∀ c', c' ≠ c → ResetUnit.core c' ∉ s.sys.resetting) →
      (s.stopping = none → ∃ t, exec (.partialResetRelease (.core c)) s = .next t ∧
        t.sys = { s.sys with resetting := s.sys.resetting.filter (fun u => u ≠ .core c) } ∧ (t.core c).run = .off ∧
        (t.core c).regs = {} ∧ (t.core c).loc = {} ∧ (t.core c).imem = [] ∧ (t.core c).v = [] ∧ (t.core c).acc = [] ∧
        (∀ c', c' ≠ c → t.core c' = s.core c') ∧ t.harbour = s.harbour ∧ t.watches = s.watches ∧ t.host = s.host) ∧
      (∀ x w j, s.tableOk → s.stopping = some x → s.watch? x.watch = some w → w.job = some j → j.inSpring = true →
        s.tide.coreEn = true → (∀ k, (s.core k).tokensBalance = true) →
        ∃ t, exec (.partialResetRelease (.core c)) s = .next t ∧ watchFaulted s t x.watch x.code ∧ coresOff t ∧
          t.stopping = none ∧ t.tide.coreEn = false ∧ t.tide.power = .slack)) ∧
    (∀ p : PortId, ResetUnit.port p ∈ s.sys.resetting → ∃ t, exec (.partialResetRelease (.port p)) s = .next t ∧
      t.sys = { s.sys with resetting := s.sys.resetting.filter (fun u => u ≠ .port p) } ∧ (t.port p).state = .training ∧
      (t.port p).retry = [] ∧ (t.port p).credits = [16, 16, 16] ∧
      t.cw.msgLost = min 255 (s.cw.msgLost + ((s.port p).retry.filter (fun r => r.2.type == 0xC)).length) ∧
      (∀ q, q ≠ p → t.port q = { s.port q with queue := (s.port q).queue.map (fun e => if e.owes = some p then { e with owes := none } else e) }) ∧
      t.watches = s.watches)

/-- SCRUB corrects single-bit errors and counts them, poisons and logs an uncorrectable line, faults a watch whose placed record
the line holds and is chip-fatal in the system region; it goes on where it stopped (R603, R604, R606, R619). The model's choice: a
watch that is FAULTED already stays as it is (log 50). -/
def Obligations.ScrubFindsItsErrors : Prop :=
  ∀ (s : State) (n : Nat), s.live → s.tide.retain ≠ 0 → s.harbour.upset = [] →
    (s.tide.power ≠ .slack → ∀ single double, exec (.scrub n single double) s = .next s) ∧
    (s.tide.power = .slack →
      let total := 0x4000 * s.retainedBanks.length
      let start := linePlace s.retainedBanks s.err.scrubAt % total
      let moved : Errors := { s.err with
        scrubPasses := if total ≤ start + min n 4096 then (s.err.scrubPasses + 1) % 256 else s.err.scrubPasses % 256,
        scrubAt := s.scrubLine (min n 4096) }
      (s.err.eccHarbour ≤ 0xFFFF → exec (.scrub n [] []) s = .next { s with err := moved }) ∧
      (∀ i, i < min n 4096 → exec (.scrub n [s.scrubLine i] []) s =
        .next { s with err := { moved with eccHarbour := min 0xFFFF (s.err.eccHarbour + 1) } } ∧
        exec (.scrub n [] []) { s with harbour := { s.harbour with upset := [s.scrubLine i] } } =
          .next { s with err := { moved with eccHarbour := min 0xFFFF (s.err.eccHarbour + 1) } }) ∧
      (∀ i, i < min n 4096 → s.err.eccHarbour ≤ 0xFFFF → s.harbour.wf = true →
        let l := s.scrubLine i
        (s.harbour.poisoned l = true → exec (.scrub n [] [l]) s = .next { s with err := moved }) ∧
        (s.harbour.poisoned l = false → 64 * l < 0x1F00000 → (∀ w ∈ s.watches, s.inPlaced w.entry l = false) →
          ∃ t, exec (.scrub n [] [l]) s = .next t ∧ t = { s with harbour := t.harbour, err := t.err, strand := t.strand } ∧
            t.err.poisonFound = min 255 (s.err.poisonFound + 1) ∧ t.err.scrubAt = moved.scrubAt ∧
            t.harbour.data = s.harbour.data ∧ t.harbour.tags = s.harbour.tags ∧
            (∀ m, t.harbour.poisoned m = if m = l then true else s.harbour.poisoned m) ∧
            (s.err.hour = [] → t.strand.logQueue.length = s.strand.logQueue.length + 1)) ∧
        (∀ w, s.harbour.poisoned l = false → 64 * l < 0x1F00000 → s.tableOk → w ∈ s.watches → w.state ≠ .faulted → w.job = none →
          s.inPlaced w.entry l = true → (∀ x ∈ s.watches, x ≠ w → s.inPlaced x.entry l = false) →
          ∃ t, exec (.scrub n [] [l]) s = .next t ∧ watchFaulted s t w.entry.num 0x14 ∧ t.sys.alarm.getLsbD 9 = true ∧
            t.harbour.poisoned l = true) ∧
        (s.harbour.poisoned l = false → 0x1F00000 ≤ 64 * l → s.idleStores → ∃ t, exec (.scrub n [] [l]) s = .next t ∧
          t.sys.inReset = true ∧ t.sys.asserted = 0x100 ∧ t.sys.fatalPending = 2)))

/-- The write engine: EVENT_LOG_ENTRY starts the oldest entry, and STRAND_COMMIT, with no entry waiting, the oldest queued commit at its target slot, each in
one unit at a time and only as R685 allows; a written unit stands in the store and leads to the next, the header last, at which
the copy comes into force; a unit that differs is written again, twice at most, and a unit that waits 1 s is given up (R158, R623,
R684 to R686, R689 to R691). The model's choice: the row of a unit's wait is taken at its word (log 7). -/
def Obligations.StrandUnitsAreWrittenInOrder : Prop :=
  (∀ (s : State) (c : Commit) (cs : List Commit), s.live → s.strand.run = none → s.strand.commits = c :: cs →
    (∃ n b, c.cause = .head n b) →
    let g := commitTarget (s.force c.record)
    let r : CommitRun := { commit := c, slot := g.1, seq := g.2 }
    (∀ t q, s.force c.record = some (t, q) → q < 2 ^ 32) →
    (s.strand.logQueue ≠ [] → exec .strandCommit s = .next s) ∧
    (s.strand.logQueue = [] → s.engineReady → exec .strandCommit s = .next { s with strand := { s.strand with
      commits := cs, run := some r,
      writing := some { unit := slotAddr c.record g.1 / 64 + 1, bytes := padTo c.body 64 } } }) ∧
    (s.strand.logQueue = [] → ¬s.engineReady → exec .strandCommit s = .next { s with strand := { s.strand with commits := cs, run := some r } })) ∧
  (∀ (s : State) (b : List Byte) (l : List (List Byte)), s.live → s.strand.logQueue = b :: l → b.length = 56 → s.err.logReady = true →
    (s.engineReady → ∃ bs, exec .eventLogEntry s = .next { s with strand := { s.strand with writing := some {
        unit := 0x1C00 + (s.err.newest.map (fun x => (x.1 + 1) % 1024)).getD 0, bytes := bs, log := true } } } ∧ bs.length = 64 ∧
      leAt bs 0 4 = (s.err.newest.map (fun x => if (x.2 + 1) % 2 ^ 32 = 0 then 1 else (x.2 + 1) % 2 ^ 32)).getD 1 ∧
      slice bs 4 56 = b ∧ leAt bs 60 4 = crc32 (bs.take 60) % 2 ^ 32) ∧
    (¬s.engineReady → exec .eventLogEntry s = .next s)) ∧
  (∀ (s : State) (u : UnitRun), s.live → s.strand.writing = some u → s.sys.delayed = none → u.bytes.length = 64 →
    Memory.wf s.strand.data = true →
    (u.log = true → ∃ t, exec (.strandUnitWritten true) s = .next t ∧
      (∀ a, rdByte t.strand.data a = if 64 * u.unit ≤ a ∧ a < 64 * u.unit + 64 then u.bytes.getD (a - 64 * u.unit) 0
        else rdByte s.strand.data a) ∧ t.strand.logQueue = s.strand.logQueue.drop 1 ∧
      t.err.newest = some (u.unit - 0x1C00, leAt u.bytes 0 4) ∧ t.strand.units = min 0xFFFF (s.strand.units + 1) ∧
      t.strand.inForce = s.strand.inForce) ∧
    (∀ r : CommitRun, u.log = false → s.strand.run = some r → r.clearing = false → (∃ n b, r.commit.cause = .head n b) →
      r.commit.record ≠ 0 → s.strand.logQueue = [] → 2050 ≤ s.tide.vbatMv → s.tide.tempTaken = true →
      s.tide.temp < 120 * 64 → ∃ t, exec (.strandUnitWritten true) s = .next t ∧
        (∀ a, rdByte t.strand.data a = if 64 * u.unit ≤ a ∧ a < 64 * u.unit + 64 then u.bytes.getD (a - 64 * u.unit) 0
          else rdByte s.strand.data a) ∧
        (∀ k, r.unit = k + 1 → r.unit < (r.commit.body.length + 63) / 64 →
          t.strand.run = some { r with unit := r.unit + 1 } ∧ t.strand.inForce = s.strand.inForce ∧
          t.strand.writing = some { unit := slotAddr r.commit.record r.slot / 64 + r.unit + 1,
                                    bytes := padTo (r.commit.body.drop (64 * r.unit)) 64 }) ∧
        (∀ k, r.unit = k + 1 → (r.commit.body.length + 63) / 64 ≤ r.unit →
          t.strand.run = some { r with unit := 0 } ∧ t.strand.inForce = s.strand.inForce ∧
          t.strand.writing = some { unit := slotAddr r.commit.record r.slot / 64,
                                    bytes := slotHeader r.commit.record r.seq s.sys.tick r.commit.body }) ∧
        (r.unit = 0 → t.strand.run = none ∧ t.strand.writing = none ∧
          t.strand.inForce = s.strand.inForce.set r.commit.record (some (r.slot, r.seq)) ∧ t.strand.cal = s.strand.cal)) ∧
    (u.fails < 2 → ∃ t, exec (.strandUnitWritten false) s = .next t ∧
      t = { s with strand := { s.strand with data := t.strand.data, writing := some { u with fails := u.fails + 1 } }, free := t.free } ∧
      ∀ a, a < 64 * u.unit ∨ 64 * u.unit + 64 ≤ a → rdByte t.strand.data a = rdByte s.strand.data a) ∧
    (∀ r : CommitRun, ¬u.fails < 2 → u.log = false → s.strand.run = some r → r.clearing = false → s.strand.logQueue = [] →
      (∃ n b, r.commit.cause = .head n b) → ∃ t, exec (.strandUnitWritten false) s = .next t ∧ t.strand.run = none ∧
        t.strand.writing = none ∧ t.strand.verifyFails = min 255 (s.strand.verifyFails + 1) ∧
        t.strand.commitFails = min 255 (s.strand.commitFails + 1) ∧ t.strand.inForce = s.strand.inForce ∧
        t.sys.alarm.getLsbD 8 = true ∧ t.stem.adaptCommitFails = min 255 (s.stem.adaptCommitFails + 1))) ∧
  (∀ s : State, s.live → s.strand.writing = none →
    (2050 ≤ s.tide.vbatMv → s.tide.tempTaken = true → s.tide.temp < 120 * 64 → exec .strandConditionTimeout s = .next s) ∧
    (s.tide.vbatMv < 2050 ∨ s.tide.tempTaken = false ∨ 120 * 64 ≤ s.tide.temp →
      (∀ b l, s.strand.logQueue = b :: l → exec .strandConditionTimeout s = .next { s with
        strand := { s.strand with logQueue := l }, err := { s.err with suppressed := min 0xFFFF (s.err.suppressed + 1) } }) ∧
      (s.strand.logQueue = [] → s.strand.run = none → s.strand.commits = [] → exec .strandConditionTimeout s = .next s) ∧
      (∀ c cs, s.strand.logQueue = [] → s.strand.run = none → s.strand.commits = c :: cs → (∃ n b, c.cause = .head n b) →
        ∃ t, exec .strandConditionTimeout s = .next t ∧ t.strand.commits = cs ∧ t.strand.run = none ∧
          t.strand.commitFails = min 255 (s.strand.commitFails + 1) ∧ t.strand.data = s.strand.data ∧
          t.strand.inForce = s.strand.inForce)))

/-- Held records go out in order once there is room, the backlog moves one entry into the Outbox outside Neap, a pulse of HOST_IRQ
ends, and the pin-interrupt lines take the sampled pads: each line that sees its event reports it and makes its watch due once the
hold-off has passed (R47, R638 to R640, R645, R667 to R672). The model's choice: the pads are sampled by PIN_INTERRUPT_EVENT (log
62). -/
def Obligations.OutboxAndPinEventsTakeEffect : Prop :=
  ∀ s : State, s.live →
    (s.host.held = [] → exec .heldRecordPlace s = .next s) ∧
    (s.host.backlog = [] → s.host.outbox.length + s.host.held.length ≤ 64 → ∃ t rs, exec .heldRecordPlace s = .next t ∧
      t.host.held = [] ∧ t.host.outbox = s.host.outbox ++ rs ∧ rs.length = s.host.held.length ∧ t.host.backlog = [] ∧
      t.strand = s.strand ∧ t.harbour = s.harbour ∧ ∀ (i : Nat) (d : Draft) (b : List Byte), s.host.held[i]? = some d → rs[i]? = some b →
        b.length = 32 ∧ byteAt b 0 = d.type % 256 ∧ leAt b 2 2 = d.watch.getD 0xFFFF % 2 ^ 16 ∧ leAt b 12 4 = d.frame % 2 ^ 32) ∧
    (512 ≤ s.host.backlog.length → s.watches = [] → exec .heldRecordPlace s = .next s) ∧
    (s.tide.power = .neap ∨ s.host.backlog = [] ∨ 64 ≤ s.host.outbox.length → exec .backlogRefill s = .next s) ∧
    (∀ e es, s.tide.power ≠ .neap → s.host.backlog = e :: es → s.host.outbox.length < 64 → exec .backlogRefill s =
      .next { s with host := { s.host with backlog := es, outbox := s.host.outbox ++ [e.bytes],
                                           irq := if isBootEvent e.bytes then s.host.irq ||| 8 else s.host.irq },
                     fresh := { s.fresh with irq := if isBootEvent e.bytes then s.fresh.irq ||| 8 else s.fresh.irq } }) ∧
    exec .hostIrqPulseEnd s = .next { s with host := { s.host with pulseEnd := none } } ∧
    (∀ (pads : BitVec 24) (rise fall : BitVec 8), s.tide.power ≠ .neap → s.gpio.reload = false → ∃ t,
      exec (.pinInterruptEvent pads rise fall) s = .next t ∧
      t = { s with gpio := t.gpio, watches := t.watches, fresh := { s.fresh with pil := t.fresh.pil } } ∧ t.gpio.level = pads ∧ t.gpio.pins = s.gpio.pins ∧
      t.gpio.pilSel = s.gpio.pilSel ∧ t.gpio.pilCfg = s.gpio.pilCfg ∧
      (∀ n, n < 8 → let r := s.gpio.lineAfter pads n (rise.getLsbD n) (fall.getLsbD n);
        t.gpio.pilLevel.getLsbD n = r.1 ∧ t.gpio.pilEvent.getLsbD n = (s.gpio.pilEvent.getLsbD n || r.2) ∧
        t.fresh.pil.getLsbD n = (s.fresh.pil.getLsbD n || r.2)) ∧
      (s.tableOk → ∀ m w, s.watch? m = some w → w.state = .armed → w.held = none → w.entry.group = 0 → w.adapt = none →
        let n := leAt w.entry.trigArg 0 1
        let waited := match w.lastGpio with
          | some x => decide (x + leAt w.entry.trigArg 2 2 ≤ s.sys.tick)
          | none => true
        t.watch? m = some (if w.entry.trigKind = 2 ∧ n < 8 ∧ waited = true ∧
              (s.gpio.lineAfter pads n (rise.getLsbD n) (fall.getLsbD n)).2 = true
            then { w.started s.sys.tick 0 with lastGpio := some s.sys.tick } else w))) ∧
    (∀ (pads : BitVec 24) (rise fall : BitVec 8) (n : Nat), s.tide.power = .neap → n < 8 → s.gpio.lineWake n = false → ∃ t,
      exec (.pinInterruptEvent pads rise fall) s = .next t ∧ t.gpio.pilLevel.getLsbD n = s.gpio.pilLevel.getLsbD n ∧
        t.gpio.pilEvent.getLsbD n = s.gpio.pilEvent.getLsbD n)

/-! ### Debug access -/

/-- The TAP selects its instruction in every state, and an open debug access port runs its operations: each ends with its STATUS,
ADDR and result; a closed port answers CLOSED and one with a waiting OTP_EXEC answers BUSY (R193, R713, R742 to R745, R747). The
model's choices: a bank just powered reads zeros, and an OTP_EXEC that waits (log 61), the port in reset (log 49), the system
region and the place of the backlog's records in it (log 60), the maker's number (log 84). -/
def Obligations.DebugAccessRunsItsOperations : Prop :=
  (∀ s : State,
    exec .idcode s = .next { s with tap := { s.tap with ir := .idcode } } ∧
    exec .samplePreload s = .next { s with tap := { s.tap with ir := .sample } } ∧
    exec .extest s = .next { s with tap := { s.tap with
      ir := if s.sys.inReset = false ∧ dapOpenIn s.otp.lc = true then .extest else .bypass } } ∧
    (∀ code : BitVec 4, code.toNat ∉ [0, 1, 2, 8] → exec (.bypass code) s = .next { s with tap := { s.tap with ir := .bypass } }) ∧
    (s.tap.ir = .idcode → s.captureDr = lsbFirst 32 idcodeWord) ∧ (s.tap.ir = .bypass → s.captureDr = [false])) ∧
  fld idcodeWord 28 4 = 1 ∧ fld idcodeWord 12 16 = 0x6120 ∧
  (∀ s : State, s.live → exec .dapNop s = .next { s with tap := { s.tap with ir := .dap } } ∧
    exec .dapSlackExpiry s = .next { s with tap := { s.tap with slackHold := false } }) ∧
  (∀ (s : State) (a d : Word), s.live →
    ∀ i ∈ [Instr.quayRead a, .quayWrite a d, .memRead a, .memWrite a d, .otpArg a d, .otpExec a, .dapReservedOp 8 a d],
      (s.tap.wait ≠ none → exec i s = .next { s with tap := { s.tap with ir := .dap, status := 1 } }) ∧
      (s.tap.wait = none → dapOpenIn s.otp.lc = false → exec i s = .next (s.dapEnded 2 a 0))) ∧
  (∀ (s : State) (a d : Word), s.dapTakes →
    (65536 ≤ a.toNat ∨ a.toNat % 4 ≠ 0 → exec (.quayRead a) s = .next (s.dapEnded 3 a 0) ∧
      exec (.quayWrite a d) s = .next (s.dapEnded 3 a 0)) ∧
    (a.toNat < 65536 → a.toNat % 4 = 0 → exec (.quayRead a) s = .next (s.dapEnded 0 a (s.quayWord a.toNat)) ∧
      exec (.quayWrite a d) s = .next { s.dapEnded 0 a 0 with host := s.host.captures a.toNat [d] }) ∧
    (a.toNat < 8 → exec (.otpArg a d) s =
      .next { s.dapEnded 0 a 0 with tap := { (s.dapEnded 0 a 0).tap with args := s.tap.args.set a.toNat d } }) ∧
    (8 ≤ a.toNat → exec (.otpArg a d) s = .next (s.dapEnded 3 a 0)) ∧
    (∀ op : BitVec 4, exec (.dapReservedOp op a d) s = .next (if op.getLsbD 3 then s.dapEnded 3 a 0 else s)) ∧
    (a ≠ 0x30 → a ≠ 0x31 → exec (.otpExec a) s = .next (s.dapEnded 3 a 0)) ∧
    (a = 0x30 ∨ a = 0x31 →
      (s.tide.power = .spring → exec (.otpExec a) s =
        .next { s.dapEnded 0 a 0 with tap := { (s.dapEnded 0 a 0).tap with wait := some a.toNat } }) ∧
      (s.tide.power = .slack → s.tide.coreEn = false → s.otp.run = none →
        s.tap.args.getD 7 0 ≠ ~~~(s.tap.args.getD 0 0) → exec (.otpExec a) s =
          .next { s.dapEnded 0 a 0 with otp := { s.otp with progStatus := 7, progWord := 0, run := none } })) ∧
    (0x2000000 ≤ a.toNat ∨ a.toNat % 4 ≠ 0 → exec (.memRead a) s = .next (s.dapEnded 3 a 0) ∧
      exec (.memWrite a d) s = .next (s.dapEnded 3 a 0)) ∧
    (a.toNat < 0x2000000 → a.toNat % 4 = 0 → s.harbour.upset = [] →
      (s.tide.power = .spring → exec (.memRead a) s = .next (s.dapEnded 5 a 0) ∧ exec (.memWrite a d) s = .next (s.dapEnded 5 a 0)) ∧
      (s.tide.power = .slack → s.harbour.poisoned (a.toNat / 64) = true → ∃ t, exec (.memRead a) s = .next t ∧
        exec (.memWrite a d) s = .next t ∧ t.tap.status = 4 ∧ t.tap.addr = a ∧ t.harbour = s.harbour ∧ t.tap.slackHold = true) ∧
      (s.tide.power = .slack → s.harbour.poisoned (a.toNat / 64) = false →
        (a.toNat < 0x1F00000 → ∃ t, exec (.memRead a) s = .next t ∧ t.tap.status = 0 ∧ t.tap.addr = a ∧
          t.tap.result.toNat = rdLE s.harbour.data a.toNat 4 ∧ t.tap.slackHold = true ∧ t.tap.slackTick = s.sys.tick ∧
          t.harbour = s.harbour ∧ t.host = s.host ∧ t.watches = s.watches ∧ t.tide.banksOn.getLsbD (a.toNat / 0x100000) = true) ∧
        (0x1F00000 ≤ a.toNat → a.toNat < 0x1F40000 → s.tableBuilt = true → 0xC0 ≤ a.toNat % 256 →
          ∀ w, s.watch? (rdLE s.harbour.data (a.toNat / 256 * 256) 2) = some w → ∃ t, exec (.memRead a) s = .next t ∧
            t.tap.status = 0 ∧ t.tap.result.toNat = leAt w.runtime (a.toNat % 256 - 0xC0) 4) ∧
        (∀ i e, s.backlogPlace a.toNat = some i → s.host.backlog[i]? = some e → e.bytes.length = 32 →
          (∃ t, exec (.memRead a) s = .next t ∧ t.tap.status = 0 ∧ t.tap.result.toNat = leAt e.bytes (a.toNat % 32) 4) ∧
          ∃ t, exec (.memWrite a d) s = .next t ∧ t.tap.status = 0 ∧ t.harbour = s.harbour ∧ t.host = { s.host with
            backlog := s.host.backlog.set i { e with
              bytes := e.bytes.take (a.toNat % 32) ++ leBytes d.toNat 4 ++ e.bytes.drop (a.toNat % 32 + 4) } }) ∧
        (s.backlogPlace a.toNat = none → s.harbour.wf = true → ∃ t, exec (.memWrite a d) s = .next t ∧ t.tap.status = 0 ∧
          t.tap.addr = a ∧ t.tap.result = 0 ∧
          rdLE t.harbour.data a.toNat 4 = d.toNat ∧ sameOutside s.harbour t.harbour a.toNat (a.toNat + 4) ∧
          t.harbour.tags = s.harbour.tags ∧ t.tap.slackHold = true ∧ t.host = s.host ∧ t.watches = s.watches))))

/-! ### The Causeway link -/

/-- A port trains through its steps: lane PLL, alignment, TS1 with this chip's values, TS2 with the agreed ones, and after two
valid TS2 it is UP with SEQ 0 and 16 credits, on a new epoch unless both ends resumed; a time-out or a number above 15 puts it
DOWN with an alarm, a retry trains it again, and CW_WAKE trains a sleeping port (R550, R557, R558, R571, R583). The model's
choices: TS2's chip field, the kept packets and the first epoch (log 37), time-outs taken at their word (log 7). -/
def Obligations.PortsTrainUntilTheyAreUp : Prop :=
  (∀ (s : State) (p : PortId), s.live → (s.port p).state = .training → ResetUnit.port p ∉ s.sys.resetting →
    exec (.lanePllLocked p) s = .next (if s.tide.xrefReady then s.modPort p (fun x => { x with pll := true }) else s) ∧
    exec (.receiverAligned p) s = .next (if (s.port p).pll then s.modPort p (fun x => { x with aligned := true }) else s) ∧
    ∃ t, exec (.trainingTimeout p) s = .next t ∧ (t.port p).state = .down ∧ t.sys.alarm.getLsbD 7 = true ∧
      t.port p.other = s.port p.other ∧ t.watches = s.watches) ∧
  (∀ (s : State) (p : PortId), s.live → (s.port p).state = .down → s.tide.xrefReady = true → ResetUnit.port p ∉ s.sys.resetting →
    exec (.trainingRetry p) s = .next (s.drives p [] (fun x => { x with
      state := .training, enabledTick := s.sys.tick, pll := false, aligned := false, resume := false, ts1 := 0, ts2 := 0,
      agreed := none }))) ∧
  (∀ (s : State) (p : PortId), s.linkTrains p →
    let x := s.port p
    (x.agreed = none → exec (.ts1Send p) s = .next (s.drives p [.ts1 {
      epoch := x.epoch, epochValid := x.valid,
      chip := s.cw.chip.getD 0, chipValid := s.cw.chip.isSome, role := s.cw.cfg.role, resume := x.resume }])) ∧
    (∀ e keep n, x.agreed = some (e, keep, n) → ∃ a, exec (.ts1Send p) s = .next (s.drives p [.ts2 a]) ∧ a.epoch = e ∧
      a.epochValid = true ∧ a.resume = (keep && x.resume) ∧ a.role = s.cw.cfg.role ∧ a.chip = n.getD (s.cw.chip.getD 0 + 1)) ∧
    (∀ t : TrainSet, x.agreed = none → p = .up → t.chipValid = false → exec (.ts1 p t) s = .next (s.drives p [])) ∧
    (∀ t : TrainSet, x.agreed = none → p = .dn ∨ t.chipValid = true → x.ts1 = 0 →
      exec (.ts1 p t) s = .next (s.drives p [] (fun x => { x with ts1 := 1 }))) ∧
    (∀ t : TrainSet, x.agreed = none → (p = .dn ∧ s.cw.chip ≠ none) ∨ (p = .up ∧ t.chipValid = true ∧ t.chip < 15) → x.ts1 = 1 →
      x.epoch < 256 → t.epoch < 256 → ∃ u e keep, exec (.ts1 p t) s = .next u ∧
        (u.port p).agreed = some (e, keep, if p = .up then some (t.chip + 1) else none) ∧ (u.port p).state = .training ∧
        (keep = true ↔ x.resume = true ∧ t.resume = true ∧ x.valid = true ∧ t.epochValid = true ∧ x.epoch = t.epoch) ∧
        (keep = true → e = x.epoch) ∧
        (keep = false → (x.epoch + 256 - t.epoch) % 256 ≠ 128 ∨ x.valid = false ∨ t.epochValid = false →
          e = epochAfter (if x.valid then some x.epoch else none) (if t.epochValid then some t.epoch else none)) ∧
        (∃ a, (u.port p).sent = [.ts2 a] ∧ a.epoch = e)) ∧
    (∀ t : TrainSet, x.agreed = none → p = .up → t.chipValid = true → 15 ≤ t.chip → t.chip < 16 → x.ts1 = 1 →
      ∃ u, exec (.ts1 p t) s = .next u ∧ (u.port .up).state = .down ∧ u.cw.chip = none ∧ u.sys.alarm.getLsbD 7 = true) ∧
    (∀ (t : TrainSet) e keep n, x.agreed = some (e, keep, n) → exec (.ts2 p t) s = .next
      (if t.epochValid = true ∧ t.epoch = e then s.drives p [] (fun x => { x with ts2 := min 2 (x.ts2 + 1) }) else s.drives p [])) ∧
    (∀ e keep n, x.agreed = some (e, keep, n) → x.ts2 < 2 → exec (.linkTrained p) s = .next (s.drives p [])) ∧
    (∀ e keep n, x.agreed = some (e, keep, n) → x.ts2 = 2 → x.queue = [] → (keep = true → x.retry = []) → s.cw.doubts = [] →
      (∀ c, (s.core c).pend = []) → s.cw.cfg.role ≠ 3 → ∃ t, exec (.linkTrained p) s = .next t ∧ (t.port p).state = .up ∧
        (t.port p).txSeq = 0 ∧ (t.port p).rxSeq = 0 ∧ (t.port p).credits = [16, 16, 16] ∧ (t.port p).retry = [] ∧
        (t.port p).epoch = (if keep then x.epoch else e) ∧ (t.port p).valid = (if keep then x.valid else true) ∧
        (t.port p).retrains = (if keep then x.retrains else min 255 (x.retrains + 1)) ∧
        (∀ m, n = some m → t.cw.chip = some m ∧ (s.cw.cfg.expectNum ≠ 255 → s.cw.cfg.expectNum ≠ m →
          t.cw.mismatch = true ∧ t.sys.alarm.getLsbD 7 = true)) ∧
        (s.usedPorts = [p] → t.cw.wakeOut = false) ∧ t.watches.map (·.entry) = s.watches.map (·.entry))) ∧
  (∀ (s : State) (level : Bool), s.live →
    (s.gpio.cwWakePin = 31 → exec (.cwWake level) s = .next s) ∧
    (s.gpio.cwWakePin ≠ 31 → level = false ∨ s.single → exec (.cwWake level) s =
      .next { s with cw := { s.cw with wakeIn := level } }) ∧
    (∀ p, s.gpio.cwWakePin ≠ 31 → level = true → s.tide.power ≠ .neap → s.tide.xrefOn = true → s.tide.xrefReady = true →
      p ∈ s.usedPorts → (s.port p).state = .sleep → ∃ t, exec (.cwWake level) s = .next t ∧ t.cw.wakeIn = true ∧
        (t.port p).state = .training ∧ (t.port p).resume = true ∧ (t.port p).epoch = (s.port p).epoch))

/-- The control words and timers of a port that is UP: ACK frees what it covers, NAK and the time-out retransmit in SEQ order up
to the retry limit, CREDIT returns units, sleep is asked, granted or refused, the receiver acknowledges or asks again, errors are
counted, and lost lock, sixteen code errors or missing credits reset the port; the operations toward a chip whose doubt times out
end with EPOCH_LOST, and every control word reads back from its seven bytes (R556, R563 to R566, R570, R573, R581, R582, R621). The
model's choices: transmission at once (log 30), REPLAYS and CRC_ERRS (log 29), the window of code errors (log 39). -/
def Obligations.LinkControlWordsAreServed : Prop :=
  (∀ (s : State) (p : PortId), s.linkUp p →
    let x := s.port p
    (∀ q : BitVec 12, x.queue = [] →
      let covered := fun (n : Nat) => decide ((q.toNat + 4096 - n) % 4096 < 2048)
      exec (.ackControlWord p q) s = .next (s.drives p [] (fun x => { x with
        retry := x.retry.filter (fun r => !covered r.1),
        retransmits := if x.retry.any (fun r => covered r.1) then 0 else x.retransmits }))) ∧
    (∀ q : BitVec 12, ∀ i ∈ [Instr.nak p q, .retransmitTimeout p],
      (x.retry = [] → exec i s = .next (s.drives p [])) ∧
      (x.retry ≠ [] → x.retransmits < 15 → exec i s = .next (s.drives p (x.retry.map (fun r => .packet r.1 x.epoch r.2))
        (fun x => { x with replays := min 255 (x.replays + 1), retransmits := x.retransmits + 1 }))) ∧
      (x.retry ≠ [] → 15 ≤ x.retransmits → ∃ t, exec i s = .next t ∧ linkResets s t p)) ∧
    (∀ (v : Fin 3) (n : Nat), x.queue = [] → x.credits.length = 3 → exec (.credit p v n) s = .next (s.drives p [] (fun x => { x with
      credits := x.credits.set v.val (min 16 (x.credits.getD v.val 0 + n)) }))) ∧
    (∀ i ∈ [Instr.sleepReq p, .sleepAck p], x.retry = [] → x.credits ≠ [16, 16, 16] → ∃ t, exec i s = .next t ∧ linkResets s t p) ∧
    (x.credits = [16, 16, 16] ∨ x.retry ≠ [] →
      (s.portIdle p = true → s.maySleep = true → exec (.sleepReq p) s = .next (s.drives p [.sleepAck] (fun x => { x with state := .sleep }))) ∧
      (s.portIdle p = false ∨ s.maySleep = false → exec (.sleepReq p) s = .next (s.drives p [.sleepNak])) ∧
      (x.queue = [] → x.retry = [] → exec (.sleepAck p) s = .next (s.drives p [] (fun x => { x with state := .sleep })))) ∧
    exec (.sleepNak p) s = .next (s.drives p []) ∧
    exec (.sleepIdle p) s = .next (s.drives p (if s.portIdle p && s.maySleep then [.sleepReq] else [])) ∧
    exec (.ackDeadline p) s = .next (if x.unacked = 0 then s.drives p []
      else s.drives p [.ack ((x.rxSeq + 4095) % 4096)] (fun x => { x with unacked := 0 })) ∧
    exec (.crcError p) s = .next (s.drives p (if x.naked then [] else [.nak x.rxSeq])
      (fun x => { x with crcErrs := min 255 (x.crcErrs + 1), naked := true })) ∧
    (∀ n, exec (.codeError p true n) s = .next (s.drives p [] (fun x => { x with codeErrs := min 255 (x.codeErrs + 1) }))) ∧
    (∀ n, n < 16 → exec (.codeError p false n) s = .next (s.drives p (if x.naked then [] else [.nak x.rxSeq])
      (fun x => { x with codeErrs := min 255 (x.codeErrs + 1), codeWindow := n, naked := true }))) ∧
    (∀ n, 16 ≤ n → ∃ t, exec (.codeError p false n) s = .next t ∧ linkResets s t p) ∧
    ∃ t, exec (.laneLockLoss p) s = .next t ∧ linkResets s t p) ∧
  (∀ (s : State) (p : PortId), s.live →
    ((∀ e ∈ (s.port p).queue, e.transit = false) → exec (.transitTimeout p) s = .next s) ∧
    (∀ a e b, (s.port p).queue = a ++ e :: b → (∀ y ∈ a, y.transit = false) → e.transit = true →
      ∃ t, exec (.transitTimeout p) s = .next t ∧ (t.port p).queue = a ++ b ∧
        t.cw.dropTransit = min 255 (s.cw.dropTransit + 1) ∧
        t.cw.msgLost = min 255 (s.cw.msgLost + (if e.pkt.type = 0xC then 1 else 0)) ∧
        (∀ o, (t.port o).sent = if e.owes = some o ∧ (s.port o).state = .up then [.credit e.pkt.vc e.pkt.cost] else []) ∧
        t.watches = s.watches ∧ t.harbour = s.harbour)) ∧
  (∀ (s : State) (c : Fin 4) (chip : Fin 16), s.live →
    ((∀ d ∈ s.cw.doubts, d.core = c.val → d.chip ≠ chip.val) → exec (.flushTimeout c chip) s = .next s) ∧
    (∀ (d : Doubt) (q : Pend) (r : Nat), d ∈ s.cw.doubts → d.core = c.val → d.chip = chip.val →
      (s.core c).pend = [q] → q.chip = some chip.val → q.reqs ≠ [] →
      (s.core c).run = .running → (s.core c).wait = none → (s.core c).replaying = false →
      (q.slot = 13 → q.op ≠ 0xD → q.st = some r → ∃ t, exec (.flushTimeout c chip) s = .next t ∧
        t.core c = Core.setS { s.core c with pend := [] } r 2 ∧
        (∀ x ∈ t.cw.doubts, ¬(x.core = c.val ∧ x.chip = chip.val)) ∧ t.harbour = s.harbour ∧ t.watches = s.watches) ∧
      (q.slot = 7 → ∃ t, exec (.flushTimeout c chip) s = .next t ∧ (t.core c).excCause = 0x14 ∧ (t.core c).excSlot = 7 ∧
        (t.core c).excValid = true))) ∧
  (∀ (i : LaneItem) (t a : Nat), i.controlWord = some (t, a) → i.fits → readControl (controlBytes t a) = some i)

/-- A packet is accepted only in its order, in the port's epoch and while the port is UP: another is ignored, a duplicate is
acknowledged again, a gap is answered by one NAK; a packet for another chip goes on by the port toward it, its credits returned as
it leaves, waits there, or is discarded at the end of the chain; every packet reads back from its bytes (R559, R563, R564, R566,
R568, R569). The model's choices: transmission at once (log 30), where a lost MSG counts (log 38). -/
def Obligations.PacketsAreAcceptedInOrder : Prop :=
  ∀ (s : State) (p : PortId) (seq : BitVec 12) (epoch : BitVec 8) (k : Packet), s.live →
    ∀ r ∈ [(1, Instr.wr p seq epoch k), (2, .wrw p seq epoch k), (3, .rd p seq epoch k), (4, .rdw p seq epoch k),
        (5, .marker p seq epoch k), (6, .flush p seq epoch k), (8, .ack p seq epoch k), (9, .rdData p seq epoch k),
        (10, .rdwData p seq epoch k), (11, .flushDone p seq epoch k), (12, .msg p seq epoch k), (13, .notice p seq epoch k),
        (14, .chain p seq epoch k)],
      let x := s.port p
      let vc := if r.1 ≤ 6 then 0 else if r.1 ≤ 11 then 1 else 2
      let cost := 1 + k.payload.length / 66
      (x.state ≠ .up ∨ ResetUnit.port p ∈ s.sys.resetting ∨ epoch.toNat ≠ x.epoch → exec r.2 s = .next (s.drives p [])) ∧
      (s.linkUp p → epoch.toNat = x.epoch → x.rxSeq < 4096 →
        (seq.toNat ≠ x.rxSeq → (x.rxSeq + 4095 - seq.toNat) % 4096 < 2048 →
          exec r.2 s = .next (s.drives p [.ack ((x.rxSeq + 4095) % 4096)] (fun x => { x with unacked := 0 }))) ∧
        (seq.toNat ≠ x.rxSeq → 2048 ≤ (x.rxSeq + 4095 - seq.toNat) % 4096 →
          exec r.2 s = .next (s.drives p (if x.naked then [] else [.nak x.rxSeq]) (fun x => { x with naked := true }))) ∧
        (seq.toNat = x.rxSeq → r.1 < 13 → s.cw.chip ≠ some k.dest → x.unacked < 7 →
          let o := s.portToward k.dest
          (o ∉ s.usedPorts → exec r.2 s = .next (s.drives p [.credit vc cost] (fun x => { x with
            rxSeq := (x.rxSeq + 1) % 4096, naked := false, unacked := x.unacked + 1 }))) ∧
          (o ∈ s.usedPorts → (s.port o).state = .up → (s.port o).queue = [] → (s.port o).retry = [] →
            (s.port o).credits = [16, 16, 16] → cost ≤ 16 →
            let pk := LaneItem.packet (s.port o).txSeq (s.port o).epoch { k with type := r.1 }
            ∃ t, exec r.2 s = .next t ∧ (t.port o).sent = (if o = p then [pk, .credit vc cost] else [pk]) ∧
              (o ≠ p → (t.port p).sent = [.credit vc cost]) ∧ (t.port p).rxSeq = (x.rxSeq + 1) % 4096) ∧
          (o ≠ p → o ∈ s.usedPorts → (s.port o).state ≠ .up → (s.port o).state ≠ .sleep →
            ∃ t, exec r.2 s = .next t ∧
              t = (s.drives p [] (fun x => { x with rxSeq := (x.rxSeq + 1) % 4096, naked := false, unacked := x.unacked + 1,
                                                    owed := (t.port p).owed })).drives o [] (fun y => { y with
                queue := y.queue ++ [{ pkt := { k with type := r.1 }, transit := true, tick := s.sys.tick, owes := some p }] })))) ∧
      (k.wf = true → readPacket (packetBytes seq.toNat epoch.toNat k) = some (seq.toNat, epoch.toNat, k))

/-- A request for this chip is performed in the window of a MULTICHIP watch, or refused and counted, and answered: WR and WRW
write, RD and RDW return what they read, an uncorrectable line is refused, a FIRST waits for its LAST, MARKER enters a declared
entry, FLUSH is answered behind them (R70, R559 to R562, R574, R577, R579, R616). The model's choices: transmission at once (log
30), a WRW to a poisoned line and its entry (log 38, log 2), a LAST without FIRST (log 39). -/
def Obligations.RequestsArePerformedAndAnswered : Prop :=
  ∀ (s : State) (p : PortId) (seq : BitVec 12) (epoch : BitVec 8) (k : Packet), s.takesPacket p seq epoch k →
    let lines := k.payload.length / 66
    let refused := fun (i : Instr) (type answer : Nat) => ∃ t, exec i s = .next t ∧ sends s t p type k [s.reply k answer 1] ∧
      t.cw.refusedIn = min 255 (s.cw.refusedIn + 1) ∧ t.harbour = s.harbour ∧ t.watches = s.watches ∧ ∀ c, t.core c = s.core c
    (k.payload.length = 66 * lines → k.first = true → k.last = true →
      (¬s.admits k.watch k.arg (64 * lines) → refused (.wr p seq epoch k) 1 8) ∧
      (s.admits k.watch k.arg (64 * lines) → k.arg % 64 = 0 → ∃ t, exec (.wr p seq epoch k) s = .next t ∧
        sends s t p 1 k [s.reply k 8 0] ∧ sameOutside s.harbour t.harbour k.arg (k.arg + 64 * lines) ∧ t.watches = s.watches ∧
        ∀ i, i < lines → t.harbour.tag (k.arg / 64 + i) = BitVec.ofNat 16 (leAt k.payload (66 * i + 64) 2) ∧
          ∀ j, j < 64 → rdByte t.harbour.data (k.arg + 64 * i + j) = k.payload.getD (66 * i + j) 0)) ∧
    (k.first = true → k.last = false → ∃ t, exec (.wr p seq epoch k) s = .next t ∧ sends s t p 1 k [] ∧
      { k with type := 1 } ∈ t.cw.firsts ∧ (∀ f ∈ t.cw.firsts, f.src = k.src → f.txn = k.txn → f = { k with type := 1 }) ∧
      t.harbour = s.harbour ∧ t.cw.refusedIn = s.cw.refusedIn) ∧
    (∀ f, k.first = false → k.last = true → s.cw.firsts = [f] → f.src = k.src → f.txn = k.txn → f.payload.length = 66 * 4 →
      k.payload.length = 66 * lines → f.arg % 64 = 0 → s.admits k.watch f.arg (64 * (4 + lines)) →
      ∃ t, exec (.wr p seq epoch k) s = .next t ∧ sends s t p 1 k [s.reply k 8 0] ∧ t.cw.firsts = [] ∧
        sameOutside s.harbour t.harbour f.arg (f.arg + 64 * (4 + lines)) ∧
        ∀ i j, i < 4 + lines → j < 64 → rdByte t.harbour.data (f.arg + 64 * i + j) =
          if i < 4 then f.payload.getD (66 * i + j) 0 else k.payload.getD (66 * (i - 4) + j) 0) ∧
    (∀ i ∈ [(Instr.wrw p seq epoch k, 2, 8), (.rdw p seq epoch k, 4, 10)],
      (¬s.admits k.watch k.arg 4 → refused i.1 i.2.1 i.2.2) ∧
      (s.admits k.watch k.arg 4 → s.harbour.poisoned (k.arg / 64) = true → ∃ t, exec i.1 s = .next t ∧
        sends s t p i.2.1 k [s.reply k i.2.2 1] ∧ t.harbour = s.harbour ∧ t.cw.refusedIn = min 255 (s.cw.refusedIn + 1) ∧
        (s.err.hour = [] → t.strand.logQueue.length = s.strand.logQueue.length + 1))) ∧
    (s.admits k.watch k.arg 4 → s.harbour.poisoned (k.arg / 64) = false →
      (∃ t, exec (.wrw p seq epoch k) s = .next t ∧ sends s t p 2 k [s.reply k 8 0] ∧
        (∀ j, j < 4 → rdByte t.harbour.data (k.arg + j) = k.payload.getD j 0) ∧
        sameOutside s.harbour t.harbour k.arg (k.arg + 4) ∧ t.harbour.tags = s.harbour.tags ∧ t.watches = s.watches) ∧
      ∃ t, exec (.rdw p seq epoch k) s = .next t ∧
        sends s t p 4 k [{ s.reply k 10 0 with payload := rdBytes s.harbour.data k.arg 4 }] ∧ t.harbour = s.harbour ∧
        t.watches = s.watches) ∧
    (¬s.admits k.watch k.arg (64 * k.lines) → refused (.rd p seq epoch k) 3 9) ∧
    (s.admits k.watch k.arg (64 * k.lines) → 1 ≤ k.lines → k.lines ≤ 8 →
      (∀ i, i < k.lines → s.harbour.poisoned (k.arg / 64 + i) = false) →
      let part := fun (lo n : Nat) (first last : Bool) => { s.reply k 9 0 with
        first := first, last := last, lines := n, arg := k.arg + 64 * lo,
        payload := (List.range n).flatMap (fun i => s.harbour.line (k.arg / 64 + lo + i) ++
          leBytes (s.harbour.tag (k.arg / 64 + lo + i)).toNat 2) }
      ∃ t, exec (.rd p seq epoch k) s = .next t ∧ t.harbour = s.harbour ∧ t.watches = s.watches ∧ sends s t p 3 k
        (if k.lines ≤ 4 then [part 0 k.lines true true] else [part 0 4 true false, part 4 (k.lines - 4) false true])) ∧
    (∃ t, exec (.flush p seq epoch k) s = .next t ∧ sends s t p 6 k [s.reply k 11 0] ∧ t.harbour = s.harbour) ∧
    (s.marker? k.watch k.src = none ∨ (∀ w, s.watch? k.watch = some w → w.flag 5 = false) → refused (.marker p seq epoch k) 5 8) ∧
    (∀ m w, s.cw.markers = [m] → m.watch = k.watch → m.chip = k.src → s.watch? k.watch = some w → w.flag 5 = true → k.core < 4 →
      m.epochs.length = 4 → (∀ c, (s.core c).run = .running ∧ (s.core c).wait = none ∧ (s.core c).replaying = false) →
      ∃ t m', exec (.marker p seq epoch k) s = .next t ∧ sends s t p 5 k [s.reply k 8 0] ∧ t.cw.markers = [m'] ∧
        m'.count = fld k.arg 16 3 ∧ (∀ c, c ≠ k.core → m'.epochs[c]? = m.epochs[c]?) ∧
        m'.epochs[k.core]? = some (some (match m.epochs.getD k.core none with
          | some e => if 1 ≤ (k.arg % 65536 + 65536 - e) % 65536 ∧ (k.arg % 65536 + 65536 - e) % 65536 < 32768
              then k.arg % 65536 else e
          | none => k.arg % 65536)) ∧ t.harbour = s.harbour)

/-- A response completes the operation that waits for it, or raises REMOTE_REFUSED; RD_DATA and RDW_DATA deliver what they carry;
FLUSH_DONE ends a doubt, and a wait on the chip with EPOCH_LOST; MSG makes its watches due; NOTICE forgets the markers of the chips
beyond the changed link; CHAIN tells
the chain length (R47, R374, R391, R419, R551, R561, R562, R572, R573, R580). The model's choices: how a lost transfer ends (log
16), who writes the entry of a change (log 38), CHAIN (log 39). -/
def Obligations.ResponsesAndMessagesTakeEffect : Prop :=
  ∀ (s : State) (p : PortId) (seq : BitVec 12) (epoch : BitVec 8) (k : Packet), s.takesPacket p seq epoch k →
    (∀ (c : Fin 4) (q : Pend), s.awaits c k q →
      (k.status ≠ 0 → ∀ i ∈ [Instr.ack p seq epoch k, .rdData p seq epoch k, .rdwData p seq epoch k], ∃ t, exec i s = .next t ∧
        (t.core c).excCause = 0x11 ∧ (t.core c).excSlot = q.slot ∧ (t.core c).excValid = true) ∧
      (∀ r, k.status = 0 → q.slot = 13 → q.op ≠ 0xD → q.st = some r → ∃ t, exec (.ack p seq epoch k) s = .next t ∧
        t.core c = Core.setS { s.core c with pend := [] } r 0 ∧ (∀ o, o ≠ c → t.core o = s.core o) ∧ sends s t p 8 k [] ∧
        t.harbour = s.harbour ∧ t.watches = s.watches) ∧
      (∀ e, k.status = 0 → q.slot = 7 → q.event = some e → ((s.core c).evreg e).toNat < 255 →
        ∃ t, exec (.ack p seq epoch k) s = .next t ∧ sends s t p 8 k [] ∧
          t.core c = Core.setEv { s.core c with pend := [] } e ((s.core c).evreg e + 1)) ∧
      (∀ r, k.status = 0 → q.slot = 13 → q.op ≠ 0xD → q.st = none → q.sd = some r → ∃ t,
        exec (.rdwData p seq epoch k) s = .next t ∧ sends s t p 10 k [] ∧
        t.core c = { Core.setS (s.core c) r (BitVec.ofNat 32 (leNat (k.payload.take 4))) with pend := [] }) ∧
      (∀ r lines, k.status = 0 → q.slot = 6 → q.event = none → q.retain = 0 → q.setTag = none → q.reqs = [r] → k.last = true →
        r.off ≤ k.arg → k.payload.length = 66 * lines → (s.core c).loc.wf = true →
        let base := r.loc + (k.arg - r.off)
        base % 64 = 0 → ∃ t, exec (.rdData p seq epoch k) s = .next t ∧ sends s t p 9 k [] ∧
          t.core c = { s.core c with pend := [], loc := (t.core c).loc } ∧
          sameOutside (s.core c).loc (t.core c).loc base (base + 64 * lines) ∧
          ∀ i, i < lines → (t.core c).loc.tag (base / 64 + i) = BitVec.ofNat 16 (leAt k.payload (66 * i + 64) 2) ∧
            ∀ j, j < 64 → rdByte (t.core c).loc.data (base + 64 * i + j) = k.payload.getD (66 * i + j) 0)) ∧
    (∀ d, s.cw.doubts = [d] → d.core = k.core → k.core < 4 → d.chip = k.src → d.flushed = true →
      (∀ c, (s.core c).pend = [] ∧ (s.core c).run = .running ∧ (s.core c).replaying = false) →
      ((∀ c, (s.core c).wait = none) → ∃ t, exec (.flushDone p seq epoch k) s = .next t ∧ sends s t p 11 k [] ∧ t.cw.doubts = [] ∧
        (∀ c, t.core c = s.core c)) ∧
      (∀ (c : Fin 4) (r : Nat), c.val = k.core → (s.core c).wait = some (.lost k.src (some r)) →
        ∃ t, exec (.flushDone p seq epoch k) s = .next t ∧ t.cw.doubts = [] ∧ t.core c = Core.setS { s.core c with wait := none } r 2)) ∧
    (s.tide.power ≠ .neap → ∃ t, exec (.msg p seq epoch k) s = .next t ∧ sends s t p 12 k [] ∧ t.harbour = s.harbour ∧
      (s.tableOk → ∀ n w, s.watch? n = some w → w.state = .armed → w.held = none → w.entry.group = 0 → w.adapt = none →
        t.watch? n = some (if w.entry.trigKind = 3 ∧ leAt w.entry.trigArg 0 1 = k.src ∧ leAt w.entry.trigArg 2 2 = k.arg % 65536
          then w.started s.sys.tick 0 else w))) ∧
    ((∀ c, (s.core c).wait = none) → (∀ c, (s.core c).pend = []) → s.cw.doubts = [] →
      ∃ t, exec (.notice p seq epoch k) s = .next t ∧ t.cw.markers = s.cw.markers.map (fun m =>
        if m.chip < 16 ∧ (if p = .up then m.chip ≤ k.arg % 16 else k.arg % 16 < m.chip)
        then { m with count := 0, epochs := [none, none, none, none] } else m)) ∧
    ∃ t, exec (.chain p seq epoch k) s = .next t ∧ t.cw.chainLen = k.arg % 32 ∧
      (s.cw.cfg.expectLen ≠ 0 → s.cw.cfg.expectLen ≠ k.arg % 32 → t.cw.mismatch = true ∧ t.sys.alarm.getLsbD 7 = true)

/-! ### Invariants of every step -/

/-- Every step keeps every memory in its canonical form: rising addresses, nothing listed that an unlisted address reads as. -/
def Obligations.StepKeepsTheMemoriesCanonical : Prop :=
  ∀ s t : State, s.memoriesWf = true → step s = .next t → t.memoriesWf = true

/-- Every step keeps the Outbox within 64 records, the backlog within 512, the write buffer within 16 words, the mailbox within 4
commands, the tick counter within 48 bits and the descriptor tokens of each DMA slot within 16 (R12, R376, R621, R634, R639,
R654). -/
def Obligations.StepKeepsTheQueuesWithinTheirDepths : Prop :=
  ∀ s t : State, s.withinDepths = true → step s = .next t → t.withinDepths = true

/-- No step turns a cell of the OTP from 1 to 0, at either margin (R174, R179). -/
def Obligations.OtpCellsNeverClear : Prop :=
  ∀ s t : State, s.memoriesWf = true → step s = .next t → fusesKept s t

/-- Every step keeps the watches of the table distinct and in ascending order (R40, R45). -/
def Obligations.StepKeepsTheWatchTableInOrder : Prop :=
  ∀ s t : State, s.tableOk → step s = .next t → t.tableOk
end

