-- ==== Sys2Proof/Laws/Core.lean ====
section
/-! SUPPORT. Laws/Core.lean: the small lemmas of a tensor core's accessors, of the fields of a syllable built for a row, and what
the issue of a bundle with one syllable comes to. -/
namespace Sys2Proof.Machine
open Sys2Proof

/-! ### Cores of the state -/

@[simp] theorem core_setCore (s : State) (c : Fin 4) (k : Core) : (s.setCore c k).core c = k := by fin_cases c <;> rfl

theorem core_setCore_ne (s : State) {c d : Fin 4} (h : d ≠ c) (k : Core) : (s.setCore c k).core d = s.core d := by
  revert h; fin_cases c <;> fin_cases d <;> intro h <;> first | exact absurd rfl h | rfl

@[simp] theorem setCore_setCore (s : State) (c : Fin 4) (k k' : Core) : (s.setCore c k).setCore c k' = s.setCore c k' := by
  fin_cases c <;> rfl

@[simp] theorem setCore_self (s : State) (c : Fin 4) : s.setCore c (s.core c) = s := by fin_cases c <;> rfl

@[simp] theorem modCore_setCore (s : State) (c : Fin 4) (k : Core) (f : Core → Core) :
    (s.setCore c k).modCore c f = s.setCore c (f k) := by simp [State.modCore]

theorem modCore_fixed (s : State) (c : Fin 4) (f : Core → Core) (h : f (s.core c) = s.core c) : s.modCore c f = s := by
  unfold State.modCore; rw [h]; exact setCore_self s c

@[simp] theorem springWatch_setCore (s : State) (c : Fin 4) (k : Core) : (s.setCore c k).springWatch = s.springWatch := by
  fin_cases c <;> rfl

/-! ### Fields of a syllable built for a row -/

theorem fld_sylWord {cls op : Nat} (w : BitVec 64) {lo : Nat} (len : Nat) (h : 12 ≤ lo) (hb : 16 * op + cls < 4096) :
    fld (sylWord cls op w) lo len = fld w.toNat lo len := by
  unfold fld sylWord
  congr 1
  rw [Nat.shiftRight_eq_div_pow, Nat.shiftRight_eq_div_pow]
  obtain ⟨k, rfl⟩ := Nat.exists_eq_add_of_le h
  rw [Nat.pow_add, ← Nat.div_div_eq_div_mul, ← Nat.div_div_eq_div_mul]
  congr 1
  omega

theorem bitN_sylWord {cls op : Nat} (w : BitVec 64) {i : Nat} (h : 12 ≤ i) (hb : 16 * op + cls < 4096) :
    bitN (sylWord cls op w) i = bitN w.toNat i := by
  have := fld_sylWord w 1 h hb
  simp only [fld, pow_one] at this
  unfold bitN
  rw [this]

theorem sOp_sylWord {cls op : Nat} (w : BitVec 64) (h1 : cls < 16) (h2 : op < 256) : sOp (sylWord cls op w) = op := by
  unfold sOp fld sylWord
  rw [Nat.shiftRight_eq_div_pow]
  omega

theorem sClass_sylWord {cls op : Nat} (w : BitVec 64) (h1 : cls < 16) : sClass (sylWord cls op w) = cls := by
  unfold sClass fld sylWord
  rw [Nat.shiftRight_eq_div_pow]
  omega

theorem sylWord_ne_zero {cls op : Nat} (w : BitVec 64) (h : 0 < cls) : sylWord cls op w ≠ 0 := by
  unfold sylWord; omega

theorem predBit_sylWord (k : Core) {cls op : Nat} (w : BitVec 64) (l : Nat) (hb : 16 * op + cls < 4096) :
    predBit k (sylWord cls op w) l = predBit k w.toNat l := by
  unfold predBit sPE
  rw [bitN_sylWord w (by omega) hb, bitN_sylWord w (by omega) hb, fld_sylWord w 3 (by omega) hb]

theorem bitN_toNat (w : BitVec 64) (i : Nat) : bitN w.toNat i = w.getLsbD i := by
  unfold bitN BitVec.getLsbD
  rw [Nat.testBit, Nat.shiftRight_eq_div_pow]
  simp [Nat.one_and_eq_mod_two]

/-! ### One syllable in a bundle -/

theorem runSlots_append (l : List Nat) (p : Nat) (a b : List Nat) (x : Ctx) :
    runSlots l p (a ++ b) x = match runSlots l p a x with
      | .ok y => runSlots l p b y
      | .error e => .error e := by
  induction a generalizing x with
  | nil => rfl
  | cons i t ih =>
    simp only [List.cons_append, runSlots]
    cases runSlot l p i { x with slot := i } with
    | ok y => exact ih y
    | error e => rfl

/-- Slots other than 0 that hold no syllable do nothing. -/
theorem runSlots_skip (l : List Nat) (p : Nat) (is : List Nat) (x : Ctx) (h : ∀ i ∈ is, i ≠ 0 ∧ l.getD i 0 = 0) :
    ∃ n, runSlots l p is x = .ok { x with slot := n } := by
  induction is generalizing x with
  | nil => exact ⟨x.slot, rfl⟩
  | cons i t ih =>
    obtain ⟨h0, hz⟩ := h i (by simp)
    obtain ⟨n, hn⟩ := ih { x with slot := i } (fun j hj => h j (by simp [hj]))
    refine ⟨n, ?_⟩
    have : runSlot l p i { x with slot := i } = .ok { x with slot := i } := by
      unfold runSlot slotActs
      rw [hz]
      simp [h0]
    simp only [runSlots, this, hn]

/-- Slot 0 without a syllable decides the loops that end at the bundle (R371). -/
theorem runSlot_zero (l : List Nat) (p : Nat) (x : Ctx) (h : l.getD 0 0 = 0) :
    runSlot l p 0 x = .ok { x with k := (decideLoops (endingLoops x.k0 p) x.k).2, target := some ((decideLoops (endingLoops x.k0 p) x.k).1.getD (p + 1)) } := by
  unfold runSlot slotActs branchOp
  rw [h]
  simp

theorem oneSyllable_getD (i w : Nat) (imm : BitVec 64) (j : Nat) (hi : i < 14) :
    (oneSyllable i w imm).getD j 0 = if j = 14 then imm.toNat else if j = i then w else 0 := by
  unfold oneSyllable
  rw [List.getD_eq_getElem?_getD, List.getElem?_set, List.getElem?_set]
  by_cases h14 : j = 14
  · subst h14; simp
  · rw [if_neg (by omega), if_neg h14]
    by_cases hj : j = i
    · subst hj; simp only [List.length_replicate, if_true]; rw [if_pos (by omega)]; rfl
    · rw [if_neg (by omega), if_neg hj]
      rw [List.getElem?_replicate]
      split <;> rfl

/-- The context in which the one syllable of a bundle acts, the loops having been decided by slot 0. -/
def oneCtx (s : State) (c : Fin 4) (slot : Nat) (imm : BitVec 64) : Ctx :=
  let k := s.core c
  let r := decideLoops (endingLoops k k.regs.pc.toNat) k
  { s := s, c := c, k := r.2, k0 := k, li := imm.toNat, slot := slot, target := some (r.1.getD (k.regs.pc.toNat + 1)) }

theorem range14 (slot : Nat) (h0 : 0 < slot) (h14 : slot < 14) :
    List.range 14 = 0 :: ((List.range 14).filter (fun i => decide (0 < i) && decide (i < slot)) ++
      slot :: (List.range 14).filter (fun i => decide (slot < i))) := by
  interval_cases slot <;> decide

/-- The slots of a bundle that holds one syllable in slot 1 to 13: what that slot's syllable comes to. -/
theorem runSlots_one (s : State) (c : Fin 4) (slot w : Nat) (imm : BitVec 64) (h0 : 0 < slot) (h14 : slot < 14) (y : Ctx)
    (hy : runSlot (oneSyllable slot w imm) (s.core c).regs.pc.toNat slot (oneCtx s c slot imm) = .ok y) :
    ∃ n, runSlots (oneSyllable slot w imm) (s.core c).regs.pc.toNat (List.range 14)
      { s := s, c := c, k := s.core c, k0 := s.core c, li := (oneSyllable slot w imm).getD 14 0 } = .ok { y with slot := n } := by
  have hz : ∀ j, j ≠ slot → j ≠ 14 → (oneSyllable slot w imm).getD j 0 = 0 := fun j h1 h2 => by
    rw [oneSyllable_getD _ _ _ _ h14, if_neg h2, if_neg h1]
  have hli : (oneSyllable slot w imm).getD 14 0 = imm.toNat := by rw [oneSyllable_getD _ _ _ _ h14]; simp
  obtain ⟨n, hn⟩ := runSlots_skip (oneSyllable slot w imm) (s.core c).regs.pc.toNat
    ((List.range 14).filter (fun i => decide (0 < i) && decide (i < slot))) (oneCtx s c 0 imm)
    (fun i hi => by
      simp only [List.mem_filter, List.mem_range, Bool.and_eq_true, decide_eq_true_eq] at hi
      exact ⟨by omega, hz i (by omega) (by omega)⟩)
  have h1 : runSlots (oneSyllable slot w imm) (s.core c).regs.pc.toNat
      (0 :: (List.range 14).filter (fun i => decide (0 < i) && decide (i < slot)))
      { s := s, c := c, k := s.core c, k0 := s.core c, li := imm.toNat } = .ok (oneCtx s c n imm) := by
    rw [runSlots, runSlot_zero _ _ _ (hz 0 (by omega) (by omega))]
    exact hn
  have h2 : runSlots (oneSyllable slot w imm) (s.core c).regs.pc.toNat
      (slot :: (List.range 14).filter (fun i => decide (slot < i))) (oneCtx s c n imm) =
      runSlots (oneSyllable slot w imm) (s.core c).regs.pc.toNat ((List.range 14).filter (fun i => decide (slot < i))) y := by
    rw [runSlots]
    have : ({ oneCtx s c n imm with slot := slot } : Ctx) = oneCtx s c slot imm := rfl
    rw [this, hy]
  obtain ⟨m, hm⟩ := runSlots_skip (oneSyllable slot w imm) (s.core c).regs.pc.toNat
    ((List.range 14).filter (fun i => decide (slot < i))) y
    (fun i hi => by
      simp only [List.mem_filter, List.mem_range, decide_eq_true_eq] at hi
      exact ⟨by omega, hz i (by omega) (by omega)⟩)
  refine ⟨m, ?_⟩
  rw [range14 slot h0 h14, hli, ← List.cons_append, runSlots_append, h1]
  exact h2.trans hm

/-- A running core with no wait that replays nothing is as it was after a completion check. -/
theorem settle_running (s : State) (c : Fin 4) (h : (s.core c).run = .running) (hw : (s.core c).wait = none)
    (hrp : (s.core c).replaying = false) : settle c s = s := by
  have hr : tryReplay c s = s := by unfold tryReplay; simp [hrp]
  have ht : tryWait c s = s := by unfold tryWait; simp [hw]
  unfold settle
  rw [hr, ht]
  exact modCore_fixed _ _ _ (by simp [tryHalt, h])

theorem decideLoops_frame (l : List Nat) (k : Core) :
    ∃ lc, (decideLoops l k).2 = { k with regs := { k.regs with lc := lc } } := by
  induction l generalizing k with
  | nil => exact ⟨_, rfl⟩
  | cons i t ih =>
    unfold decideLoops
    simp only
    split
    · exact ⟨_, rfl⟩
    · obtain ⟨lc, h⟩ := ih (endLoop i k)
      exact ⟨lc, by rw [h]; rfl⟩

/-- Where no slot of the bundle has acted yet, it starts from the core as it stands. -/
theorem startCtx_whole (s : State) (c : Fin 4) (l : List Nat) (h : (s.core c).before = none) :
    startCtx c l s = { s := s, c := c, k := s.core c, k0 := s.core c, li := l.getD 14 0 } := by
  have e : ∀ k : Core, k.before = none → ({ k with regs := k.before.getD k.regs } : Core) = k := by
    intro k hk
    cases k
    simp only at hk
    subst hk
    rfl
  simp only [startCtx, e _ h]

/-- A bundle of one syllable in slot 1 to 13 that issues, whose syllable neither waits nor raises. -/
theorem issue_one (s : State) (c : Fin 4) (slot w : Nat) (imm : BitVec 64) (h0 : 0 < slot) (h14 : slot < 14) (y : Ctx)
    (hi : s.canIssue c (oneSyllable slot w imm))
    (hy : runSlot (oneSyllable slot w imm) (s.core c).regs.pc.toNat slot (oneCtx s c slot imm) = .ok y)
    (hs : y.stall = false) (he : y.hold = none) :
    ∃ n, issue c (oneSyllable slot w imm) s = commitBundle (s.core c).regs.pc.toNat { y with slot := n } := by
  obtain ⟨-, hr, hw, hrp, -, hb, hp, hl, ho, -⟩ := hi
  obtain ⟨n, hn⟩ := runSlots_one s c slot w imm h0 h14 y hy
  refine ⟨n, ?_⟩
  have hx := startCtx_whole s c (oneSyllable slot w imm) hb
  unfold issue
  simp only [hr, hw, hrp, hl, ho, hx, hn, hs, he]
  simp
  omega

/-- The issue of a bundle that closes no window, passes no checkpoint point and meets no poisoned line. -/
theorem commitBundle_plain (p : Nat) (x : Ctx) (hc : x.closes = false) (hp : x.k.point = x.k0.point) (hb : x.bad = none) :
    commitBundle p x = settle x.c (x.s.setCore x.c { x.k with
      regs := { x.k.regs with pc := BitVec.ofNat 13 (x.target.getD (p + 1)) },
      pend := x.k0.pend ++ x.fresh, lastPc := p, early := [], before := none }) := by
  cases x
  simp only at hc hp hb
  subst hc hb
  simp [commitBundle, hp]

/-- A bundle of one syllable that only changes the core, and neither its waits nor its outstanding operations. -/
theorem issue_regs (s : State) (c : Fin 4) (slot w : Nat) (imm : BitVec 64) (h0 : 0 < slot) (h14 : slot < 14) (g : Core → Core)
    (hi : s.canIssue c (oneSyllable slot w imm))
    (hy : runSlot (oneSyllable slot w imm) (s.core c).regs.pc.toNat slot (oneCtx s c slot imm) =
      .ok { oneCtx s c slot imm with k := g (oneCtx s c slot imm).k })
    (hg : ∀ k, (g k).run = k.run ∧ (g k).wait = k.wait ∧ (g k).point = k.point ∧ (g k).pend = k.pend ∧
      (g k).replaying = k.replaying)
    (hc : ∀ k lp e pc p b, { g k with regs := { (g k).regs with pc := pc }, pend := p, lastPc := lp, early := e, before := b } =
      g { k with regs := { k.regs with pc := pc }, pend := p, lastPc := lp, early := e, before := b }) :
    issue c (oneSyllable slot w imm) s = s.setCore c (g (s.core c).advance) := by
  obtain ⟨n, hn⟩ := issue_one s c slot w imm h0 h14 _ hi hy rfl rfl
  obtain ⟨hlive, hr, hw, hrp, -, -, hp, hl, ho, -⟩ := hi
  obtain ⟨lc, hd⟩ := decideLoops_frame (endingLoops (s.core c) (s.core c).regs.pc.toNat) (s.core c)
  rw [hn]
  have hadv : g (s.core c).advance = { g (decideLoops (endingLoops (s.core c) (s.core c).regs.pc.toNat) (s.core c)).2 with
      regs := { (g (decideLoops (endingLoops (s.core c) (s.core c).regs.pc.toNat) (s.core c)).2).regs with
        pc := BitVec.ofNat 13 ((decideLoops (endingLoops (s.core c) (s.core c).regs.pc.toNat) (s.core c)).1.getD
          ((s.core c).regs.pc.toNat + 1)) },
      pend := (s.core c).pend ++ [], lastPc := (s.core c).regs.pc.toNat, early := [], before := none } := by
    rw [hc]
    unfold Core.advance Core.goto
    simp only [hd, List.append_nil]
  have hpt : (g (decideLoops (endingLoops (s.core c) (s.core c).regs.pc.toNat) (s.core c)).2).point = (s.core c).point := by
    rw [(hg _).2.2.1, hd]
  have hrun : (g (s.core c).advance).run = .running := by
    rw [hadv]; exact ((hg _).1.trans (by rw [hd])).trans hr
  have hwait : (g (s.core c).advance).wait = none := by
    rw [hadv]; exact ((hg _).2.1.trans (by rw [hd])).trans hw
  have hrep : (g (s.core c).advance).replaying = false := by
    rw [hadv]; exact ((hg _).2.2.2.2.trans (by rw [hd])).trans hrp
  have : commitBundle (s.core c).regs.pc.toNat { oneCtx s c slot imm with k := g (oneCtx s c slot imm).k, slot := n } =
      settle c (s.setCore c (g (s.core c).advance)) := by
    rw [hadv, commitBundle_plain]
    · rfl
    · rfl
    · exact hpt
    · rfl
  rw [this]
  exact settle_running _ _ (by rw [core_setCore]; exact hrun) (by rw [core_setCore]; exact hwait) (by rw [core_setCore]; exact hrep)

end Sys2Proof.Machine
end

