-- ==== Sys2Proof/Laws/Memory.lean ====
section
/-! SUPPORT. Laws/Memory.lean: the laws of the sparse memories: every operation over a memory keeps its canonical form, a read
after a write to the same key gives what was written, and a write leaves every other key alone. -/
namespace Sys2Proof.Machine
open Sys2Proof

/-! ### Rising keys -/

theorem keysRise_mono {α : Type} {b b' : Int} (m : List (Nat × α)) (h : b' ≤ b) (hm : keysRise b m = true) :
    keysRise b' m = true := by
  cases m with
  | nil => rfl
  | cons e t =>
    simp only [keysRise, Bool.and_eq_true, decide_eq_true_eq] at hm ⊢
    exact ⟨by omega, hm.2⟩

/-- A key at or below the bound of a rising list is unlisted. -/
theorem sget_below {α : Type} (d : α) (m : List (Nat × α)) (k : Nat) {b : Int} (hk : (k : Int) ≤ b) (hm : keysRise b m = true) :
    sget d m k = d := by
  cases m with
  | nil => rfl
  | cons e t =>
    simp only [keysRise, Bool.and_eq_true, decide_eq_true_eq] at hm
    simp only [sget]
    rw [if_pos (by omega)]

theorem keysRise_sput {α : Type} [DecidableEq α] (d : α) (m : List (Nat × α)) (k : Nat) (x : α) {b : Int} (hb : b < (k : Int))
    (hm : keysRise b m = true) : keysRise b (sput d m k x) = true := by
  induction m generalizing b with
  | nil => simp only [sput]; split <;> simp [keysRise, hb]
  | cons e t ih =>
    simp only [keysRise, Bool.and_eq_true, decide_eq_true_eq] at hm
    simp only [sput]
    split
    · split <;> simp only [keysRise, Bool.and_eq_true, decide_eq_true_eq] <;> refine ⟨by omega, ?_⟩
      · exact hm.2
      · exact ⟨by omega, hm.2⟩
    · split
      · rename_i h1 h2
        split
        · exact keysRise_mono t (by omega) hm.2
        · simp only [keysRise, Bool.and_eq_true, decide_eq_true_eq]
          exact ⟨hb, by rw [h2]; exact hm.2⟩
      · simp only [keysRise, Bool.and_eq_true, decide_eq_true_eq]
        exact ⟨hm.1, ih (by omega) hm.2⟩

theorem all_sput {α : Type} [DecidableEq α] (d : α) (m : List (Nat × α)) (k : Nat) (x : α)
    (hm : ∀ e ∈ m, e.2 ≠ d) : ∀ e ∈ sput d m k x, e.2 ≠ d := by
  induction m with
  | nil => simp only [sput]; split <;> simp_all
  | cons e t ih =>
    have ht : ∀ e ∈ t, e.2 ≠ d := fun a ha => hm a (List.mem_cons_of_mem _ ha)
    simp only [sput]
    split
    · split <;> intro a ha
      · exact hm a ha
      · rcases List.mem_cons.mp ha with h | h
        · subst h; assumption
        · exact hm a h
    · split
      · split <;> intro a ha
        · exact ht a ha
        · rcases List.mem_cons.mp ha with h | h
          · subst h; assumption
          · exact ht a h
      · intro a ha
        rcases List.mem_cons.mp ha with h | h
        · subst h; exact hm _ (by simp)
        · exact ih ht a h

/-! ### The canonical form is kept -/

theorem swf_iff {α : Type} [DecidableEq α] (d : α) (m : List (Nat × α)) :
    swf d m = true ↔ keysRise (-1) m = true ∧ ∀ e ∈ m, e.2 ≠ d := by
  simp [swf]

theorem swf_nil {α : Type} [DecidableEq α] (d : α) : swf d ([] : List (Nat × α)) = true := rfl

/-- A write keeps the canonical form. -/
theorem swf_sput {α : Type} [DecidableEq α] (d : α) (m : List (Nat × α)) (k : Nat) (x : α) (h : swf d m = true) :
    swf d (sput d m k x) = true := by
  rw [swf_iff] at h ⊢
  exact ⟨keysRise_sput d m k x (by omega) h.1, all_sput d m k x h.2⟩

theorem keysRise_filter {α : Type} (m : List (Nat × α)) (p : Nat × α → Bool) {b : Int} (h : keysRise b m = true) :
    keysRise b (m.filter p) = true := by
  induction m generalizing b with
  | nil => rfl
  | cons e t ih =>
    simp only [keysRise, Bool.and_eq_true, decide_eq_true_eq] at h
    rw [List.filter_cons]
    split
    · simp only [keysRise, Bool.and_eq_true, decide_eq_true_eq]
      exact ⟨h.1, ih h.2⟩
    · exact ih (keysRise_mono t (by omega) h.2)

/-- Clearing a range keeps the canonical form. -/
theorem swf_sclear {α : Type} [DecidableEq α] (d : α) (m : List (Nat × α)) (lo hi : Nat) (h : swf d m = true) :
    swf d (sclear m lo hi) = true := by
  rw [swf_iff] at h ⊢
  exact ⟨keysRise_filter m _ h.1, fun e he => h.2 e (List.mem_of_mem_filter he)⟩

/-- A write of one byte keeps the canonical form. -/
theorem wf_wrByte (m : List Host.Cell) (a : Nat) (x : Byte) (h : Memory.wf m = true) : Memory.wf (wrByte m a x) = true :=
  swf_sput 0 m a x h

/-- A write of bytes keeps the canonical form. -/
theorem wf_wrBytes (bs : List Byte) (m : List Host.Cell) (a : Nat) (h : Memory.wf m = true) : Memory.wf (wrBytes m a bs) = true := by
  induction bs generalizing m a with
  | nil => exact h
  | cons b t ih => exact ih _ _ (wf_wrByte m a b h)

/-- Clearing a range of bytes keeps the canonical form. -/
theorem wf_sclear (m : List Host.Cell) (lo hi : Nat) (h : Memory.wf m = true) : Memory.wf (sclear m lo hi) = true :=
  swf_sclear 0 m lo hi h

theorem Lines.wf_iff (m : Lines) :
    m.wf = true ↔ Memory.wf m.data = true ∧ swf (0 : BitVec 16) m.tags = true ∧ swf false m.poison = true := by
  simp [Lines.wf, and_assoc]

/-- Writing a line keeps the canonical form. -/
theorem Lines.wf_putLine (m : Lines) (l : Nat) (bs : List Byte) (t : BitVec 16) (h : m.wf = true) : (m.putLine l bs t).wf = true := by
  rw [Lines.wf_iff] at h ⊢
  exact ⟨wf_wrBytes _ _ _ h.1, swf_sput 0 _ _ _ h.2.1, swf_sput false _ _ _ h.2.2⟩

/-- Writing lines keeps the canonical form. -/
theorem Lines.wf_putLines (ls : List (List Byte × BitVec 16)) (m : Lines) (l : Nat) (h : m.wf = true) :
    (m.putLines l ls).wf = true := by
  induction ls generalizing m l with
  | nil => exact h
  | cons e r ih => exact ih _ _ (Lines.wf_putLine m l e.1 e.2 h)

/-- Writing bytes beside their tags keeps the canonical form. -/
theorem Lines.wf_putBytes (m : Lines) (a : Nat) (bs : List Byte) (h : m.wf = true) : (m.putBytes a bs).wf = true := by
  rw [Lines.wf_iff] at h ⊢
  exact ⟨wf_wrBytes _ _ _ h.1, h.2⟩

/-- Writing a tag keeps the canonical form. -/
theorem Lines.wf_putTag (m : Lines) (l : Nat) (t : BitVec 16) (h : m.wf = true) : (m.putTag l t).wf = true := by
  rw [Lines.wf_iff] at h ⊢
  exact ⟨h.1, swf_sput 0 _ _ _ h.2.1, h.2.2⟩

/-- Marking a line poisoned keeps the canonical form. -/
theorem Lines.wf_mark (m : Lines) (l : Nat) (h : m.wf = true) : (m.mark l).wf = true := by
  rw [Lines.wf_iff] at h ⊢
  exact ⟨h.1, h.2.1, swf_sput false _ _ _ h.2.2⟩

/-- Zeroing lines keeps the canonical form. -/
theorem Lines.wf_zero (m : Lines) (lo hi : Nat) (h : m.wf = true) : (m.zero lo hi).wf = true := by
  rw [Lines.wf_iff] at h ⊢
  exact ⟨wf_sclear _ _ _ h.1, swf_sclear 0 _ _ _ h.2.1, swf_sclear false _ _ _ h.2.2⟩

/-- Writing a vector lane keeps the canonical form of the vector registers. -/
theorem swf_setLane (k : Core) (r l : Nat) (x : BitVec 32) (h : swf 0 k.v = true) : swf 0 (k.setLane r l x).v = true :=
  swf_sput 0 _ _ _ h

/-! ### Read after write -/

/-- A read of the key just written gives what was written. -/
theorem sget_sput_self {α : Type} [DecidableEq α] (d : α) (m : List (Nat × α)) (k : Nat) (x : α) {b : Int}
    (hm : keysRise b m = true) : sget d (sput d m k x) k = x := by
  induction m generalizing b with
  | nil => simp only [sput]; split <;> simp_all [sget]
  | cons e t ih =>
    simp only [keysRise, Bool.and_eq_true, decide_eq_true_eq] at hm
    simp only [sput]
    split
    · split
      · simp_all [sget]
      · simp [sget]
    · split
      · rename_i h1 h2
        split
        · rename_i h3; rw [h3]; exact sget_below d t k (by omega) hm.2
        · simp [sget]
      · rename_i h1 h2
        simp only [sget]
        rw [if_neg h1, if_neg h2]
        exact ih hm.2

/-- A write leaves every other key alone. -/
theorem sget_sput_ne {α : Type} [DecidableEq α] (d : α) (m : List (Nat × α)) (k j : Nat) (x : α) (hj : j ≠ k) {b : Int}
    (hm : keysRise b m = true) : sget d (sput d m k x) j = sget d m j := by
  induction m generalizing b with
  | nil =>
    simp only [sput, sget]
    split
    · rfl
    · simp [sget, hj]
  | cons e t ih =>
    simp only [keysRise, Bool.and_eq_true, decide_eq_true_eq] at hm
    simp only [sput]
    split
    · rename_i h1
      split
      · rfl
      · simp only [sget]
        by_cases hjk : j < k
        · rw [if_pos hjk, if_pos (by omega)]
        · rw [if_neg hjk, if_neg hj]
    · split
      · rename_i h1 h2
        split
        · simp only [sget]
          by_cases hje : j < e.1
          · rw [if_pos hje]; exact sget_below d t j (by omega) hm.2
          · rw [if_neg hje, if_neg (by omega)]
        · simp only [sget]
          by_cases hje : j < k
          · rw [if_pos hje, if_pos (by omega)]
          · rw [if_neg hje, if_neg hj, if_neg (by omega), if_neg (by omega)]
      · simp only [sget]
        split
        · rfl
        · split
          · rfl
          · exact ih hm.2

theorem keysRise_of_wf {m : List Host.Cell} (h : Memory.wf m = true) : keysRise (-1) m = true := ((swf_iff _ _).mp h).1

/-- A byte read back is the byte written. -/
theorem rdByte_wrByte_self (m : List Host.Cell) (a : Nat) (x : Byte) (h : Memory.wf m = true) : rdByte (wrByte m a x) a = x :=
  sget_sput_self 0 m a x (keysRise_of_wf h)

/-- A write of a byte leaves every other byte alone. -/
theorem rdByte_wrByte_ne (m : List Host.Cell) (a j : Nat) (x : Byte) (hj : j ≠ a) (h : Memory.wf m = true) :
    rdByte (wrByte m a x) j = rdByte m j :=
  sget_sput_ne 0 m a j x hj (keysRise_of_wf h)

/-- What a byte reads as after bytes are written from address a. -/
theorem rdByte_wrBytes (bs : List Byte) (m : List Host.Cell) (a j : Nat) (h : Memory.wf m = true) :
    rdByte (wrBytes m a bs) j = if a ≤ j ∧ j < a + bs.length then bs.getD (j - a) 0 else rdByte m j := by
  induction bs generalizing m a with
  | nil => simp only [wrBytes, List.length_nil]; rw [if_neg (by omega)]
  | cons b t ih =>
    simp only [wrBytes, List.length_cons]
    rw [ih _ _ (wf_wrByte m a b h)]
    by_cases h1 : a + 1 ≤ j ∧ j < a + 1 + t.length
    · rw [if_pos h1, if_pos (by omega)]
      obtain ⟨n, rfl⟩ := Nat.exists_eq_add_of_le h1.1
      rw [show a + 1 + n - (a + 1) = n by omega, show a + 1 + n - a = n + 1 by omega]
      rfl
    · rw [if_neg h1]
      by_cases h2 : j = a
      · subst h2
        rw [if_pos (by omega), rdByte_wrByte_self _ _ _ h, Nat.sub_self]
        rfl
      · rw [if_neg (by omega), rdByte_wrByte_ne _ _ _ _ h2 h]

theorem length_rdBytes (m : List Host.Cell) (a n : Nat) : (rdBytes m a n).length = n := by
  induction n generalizing a with
  | zero => rfl
  | succ n ih => simp [rdBytes, ih]

theorem getD_rdBytes (m : List Host.Cell) (a n i : Nat) (h : i < n) : (rdBytes m a n).getD i 0 = rdByte m (a + i) := by
  induction n generalizing a i with
  | zero => omega
  | succ n ih =>
    cases i with
    | zero => rfl
    | succ i =>
      simp only [rdBytes, List.getD_cons_succ]
      rw [ih (a + 1) i (by omega)]
      congr 1; omega

/-- A filtered sparse memory reads the default where the entry is removed, and as before elsewhere. -/
theorem sget_sclear {α : Type} [DecidableEq α] (d : α) (m : List (Nat × α)) (lo hi k : Nat) {b : Int} (hm : keysRise b m = true) :
    sget d (sclear m lo hi) k = if lo ≤ k ∧ k < hi then d else sget d m k := by
  unfold sclear
  induction m generalizing b with
  | nil => simp [sget]
  | cons e t ih =>
    simp only [keysRise, Bool.and_eq_true, decide_eq_true_eq] at hm
    rw [List.filter_cons]
    have := ih hm.2
    split
    · rename_i h1
      simp only [Bool.or_eq_true, decide_eq_true_eq] at h1
      simp only [sget]
      rw [this]
      by_cases h2 : k < e.1
      · simp [h2]
      · rw [if_neg h2, if_neg h2]
        by_cases h3 : k = e.1
        · rw [if_pos h3, if_pos h3, if_neg (by omega)]
        · rw [if_neg h3, if_neg h3]
    · rename_i h1
      simp only [Bool.or_eq_true, decide_eq_true_eq] at h1
      rw [this]
      by_cases h2 : lo ≤ k ∧ k < hi
      · rw [if_pos h2, if_pos h2]
      · rw [if_neg h2, if_neg h2]
        simp only [sget]
        by_cases h3 : k < e.1
        · rw [if_pos h3]; exact sget_below d t k (by omega) hm.2
        · rw [if_neg h3, if_neg (by omega)]

end Sys2Proof.Machine
end

