-- ==== Sys2Proof/Laws/State.lean ====
section
/-! SUPPORT. Laws/State.lean: for each named update of the state, one lemma per field: what the field is after it. -/
namespace Sys2Proof.Machine
open Sys2Proof

/-! ### Replacing a core -/

@[simp] theorem pending_setCore (s : State) (c : Fin 4) (k : Core) : (s.setCore c k).pending = s.pending := by fin_cases c <;> rfl
@[simp] theorem sys_setCore (s : State) (c : Fin 4) (k : Core) : (s.setCore c k).sys = s.sys := by fin_cases c <;> rfl
@[simp] theorem tide_setCore (s : State) (c : Fin 4) (k : Core) : (s.setCore c k).tide = s.tide := by fin_cases c <;> rfl
@[simp] theorem otp_setCore (s : State) (c : Fin 4) (k : Core) : (s.setCore c k).otp = s.otp := by fin_cases c <;> rfl
@[simp] theorem image_setCore (s : State) (c : Fin 4) (k : Core) : (s.setCore c k).image = s.image := by fin_cases c <;> rfl
@[simp] theorem pix_setCore (s : State) (c : Fin 4) (k : Core) : (s.setCore c k).pix = s.pix := by fin_cases c <;> rfl
@[simp] theorem adc_setCore (s : State) (c : Fin 4) (k : Core) : (s.setCore c k).adc = s.adc := by fin_cases c <;> rfl
@[simp] theorem stem_setCore (s : State) (c : Fin 4) (k : Core) : (s.setCore c k).stem = s.stem := by fin_cases c <;> rfl
@[simp] theorem harbour_setCore (s : State) (c : Fin 4) (k : Core) : (s.setCore c k).harbour = s.harbour := by fin_cases c <;> rfl
@[simp] theorem sram_setCore (s : State) (c : Fin 4) (k : Core) : (s.setCore c k).sram = s.sram := by fin_cases c <;> rfl
@[simp] theorem watches_setCore (s : State) (c : Fin 4) (k : Core) : (s.setCore c k).watches = s.watches := by fin_cases c <;> rfl
@[simp] theorem tableBuilt_setCore (s : State) (c : Fin 4) (k : Core) : (s.setCore c k).tableBuilt = s.tableBuilt := by fin_cases c <;> rfl
@[simp] theorem nextOrder_setCore (s : State) (c : Fin 4) (k : Core) : (s.setCore c k).nextOrder = s.nextOrder := by fin_cases c <;> rfl
@[simp] theorem ownerSrc_setCore (s : State) (c : Fin 4) (k : Core) : (s.setCore c k).ownerSrc = s.ownerSrc := by fin_cases c <;> rfl
@[simp] theorem shutdown_setCore (s : State) (c : Fin 4) (k : Core) : (s.setCore c k).shutdown = s.shutdown := by fin_cases c <;> rfl
@[simp] theorem stopping_setCore (s : State) (c : Fin 4) (k : Core) : (s.setCore c k).stopping = s.stopping := by fin_cases c <;> rfl
@[simp] theorem cw_setCore (s : State) (c : Fin 4) (k : Core) : (s.setCore c k).cw = s.cw := by fin_cases c <;> rfl
@[simp] theorem err_setCore (s : State) (c : Fin 4) (k : Core) : (s.setCore c k).err = s.err := by fin_cases c <;> rfl
@[simp] theorem host_setCore (s : State) (c : Fin 4) (k : Core) : (s.setCore c k).host = s.host := by fin_cases c <;> rfl
@[simp] theorem gpio_setCore (s : State) (c : Fin 4) (k : Core) : (s.setCore c k).gpio = s.gpio := by fin_cases c <;> rfl
@[simp] theorem strand_setCore (s : State) (c : Fin 4) (k : Core) : (s.setCore c k).strand = s.strand := by fin_cases c <;> rfl
@[simp] theorem tap_setCore (s : State) (c : Fin 4) (k : Core) : (s.setCore c k).tap = s.tap := by fin_cases c <;> rfl
@[simp] theorem fresh_setCore (s : State) (c : Fin 4) (k : Core) : (s.setCore c k).fresh = s.fresh := by fin_cases c <;> rfl
@[simp] theorem free_setCore (s : State) (c : Fin 4) (k : Core) : (s.setCore c k).free = s.free := by fin_cases c <;> rfl

/-! ### Changing a core -/

@[simp] theorem pending_modCore (s : State) (c : Fin 4) (f : Core → Core) : (s.modCore c f).pending = s.pending := pending_setCore s c _
@[simp] theorem sys_modCore (s : State) (c : Fin 4) (f : Core → Core) : (s.modCore c f).sys = s.sys := sys_setCore s c _
@[simp] theorem tide_modCore (s : State) (c : Fin 4) (f : Core → Core) : (s.modCore c f).tide = s.tide := tide_setCore s c _
@[simp] theorem otp_modCore (s : State) (c : Fin 4) (f : Core → Core) : (s.modCore c f).otp = s.otp := otp_setCore s c _
@[simp] theorem image_modCore (s : State) (c : Fin 4) (f : Core → Core) : (s.modCore c f).image = s.image := image_setCore s c _
@[simp] theorem pix_modCore (s : State) (c : Fin 4) (f : Core → Core) : (s.modCore c f).pix = s.pix := pix_setCore s c _
@[simp] theorem adc_modCore (s : State) (c : Fin 4) (f : Core → Core) : (s.modCore c f).adc = s.adc := adc_setCore s c _
@[simp] theorem stem_modCore (s : State) (c : Fin 4) (f : Core → Core) : (s.modCore c f).stem = s.stem := stem_setCore s c _
@[simp] theorem harbour_modCore (s : State) (c : Fin 4) (f : Core → Core) : (s.modCore c f).harbour = s.harbour := harbour_setCore s c _
@[simp] theorem sram_modCore (s : State) (c : Fin 4) (f : Core → Core) : (s.modCore c f).sram = s.sram := sram_setCore s c _
@[simp] theorem watches_modCore (s : State) (c : Fin 4) (f : Core → Core) : (s.modCore c f).watches = s.watches := watches_setCore s c _
@[simp] theorem tableBuilt_modCore (s : State) (c : Fin 4) (f : Core → Core) : (s.modCore c f).tableBuilt = s.tableBuilt := tableBuilt_setCore s c _
@[simp] theorem nextOrder_modCore (s : State) (c : Fin 4) (f : Core → Core) : (s.modCore c f).nextOrder = s.nextOrder := nextOrder_setCore s c _
@[simp] theorem ownerSrc_modCore (s : State) (c : Fin 4) (f : Core → Core) : (s.modCore c f).ownerSrc = s.ownerSrc := ownerSrc_setCore s c _
@[simp] theorem shutdown_modCore (s : State) (c : Fin 4) (f : Core → Core) : (s.modCore c f).shutdown = s.shutdown := shutdown_setCore s c _
@[simp] theorem stopping_modCore (s : State) (c : Fin 4) (f : Core → Core) : (s.modCore c f).stopping = s.stopping := stopping_setCore s c _
@[simp] theorem cw_modCore (s : State) (c : Fin 4) (f : Core → Core) : (s.modCore c f).cw = s.cw := cw_setCore s c _
@[simp] theorem err_modCore (s : State) (c : Fin 4) (f : Core → Core) : (s.modCore c f).err = s.err := err_setCore s c _
@[simp] theorem host_modCore (s : State) (c : Fin 4) (f : Core → Core) : (s.modCore c f).host = s.host := host_setCore s c _
@[simp] theorem gpio_modCore (s : State) (c : Fin 4) (f : Core → Core) : (s.modCore c f).gpio = s.gpio := gpio_setCore s c _
@[simp] theorem strand_modCore (s : State) (c : Fin 4) (f : Core → Core) : (s.modCore c f).strand = s.strand := strand_setCore s c _
@[simp] theorem tap_modCore (s : State) (c : Fin 4) (f : Core → Core) : (s.modCore c f).tap = s.tap := tap_setCore s c _
@[simp] theorem fresh_modCore (s : State) (c : Fin 4) (f : Core → Core) : (s.modCore c f).fresh = s.fresh := fresh_setCore s c _
@[simp] theorem free_modCore (s : State) (c : Fin 4) (f : Core → Core) : (s.modCore c f).free = s.free := free_setCore s c _

/-! ### Changing some cores -/

@[simp] theorem pending_modCores (s : State) (cs : List (Fin 4)) (f : Core → Core) : (s.modCores cs f).pending = s.pending := by
  unfold State.modCores
  induction cs generalizing s with
  | nil => rfl
  | cons c t ih => rw [List.foldl_cons, ih, pending_modCore]
@[simp] theorem sys_modCores (s : State) (cs : List (Fin 4)) (f : Core → Core) : (s.modCores cs f).sys = s.sys := by
  unfold State.modCores
  induction cs generalizing s with
  | nil => rfl
  | cons c t ih => rw [List.foldl_cons, ih, sys_modCore]
@[simp] theorem tide_modCores (s : State) (cs : List (Fin 4)) (f : Core → Core) : (s.modCores cs f).tide = s.tide := by
  unfold State.modCores
  induction cs generalizing s with
  | nil => rfl
  | cons c t ih => rw [List.foldl_cons, ih, tide_modCore]
@[simp] theorem otp_modCores (s : State) (cs : List (Fin 4)) (f : Core → Core) : (s.modCores cs f).otp = s.otp := by
  unfold State.modCores
  induction cs generalizing s with
  | nil => rfl
  | cons c t ih => rw [List.foldl_cons, ih, otp_modCore]
@[simp] theorem image_modCores (s : State) (cs : List (Fin 4)) (f : Core → Core) : (s.modCores cs f).image = s.image := by
  unfold State.modCores
  induction cs generalizing s with
  | nil => rfl
  | cons c t ih => rw [List.foldl_cons, ih, image_modCore]
@[simp] theorem pix_modCores (s : State) (cs : List (Fin 4)) (f : Core → Core) : (s.modCores cs f).pix = s.pix := by
  unfold State.modCores
  induction cs generalizing s with
  | nil => rfl
  | cons c t ih => rw [List.foldl_cons, ih, pix_modCore]
@[simp] theorem adc_modCores (s : State) (cs : List (Fin 4)) (f : Core → Core) : (s.modCores cs f).adc = s.adc := by
  unfold State.modCores
  induction cs generalizing s with
  | nil => rfl
  | cons c t ih => rw [List.foldl_cons, ih, adc_modCore]
@[simp] theorem stem_modCores (s : State) (cs : List (Fin 4)) (f : Core → Core) : (s.modCores cs f).stem = s.stem := by
  unfold State.modCores
  induction cs generalizing s with
  | nil => rfl
  | cons c t ih => rw [List.foldl_cons, ih, stem_modCore]
@[simp] theorem harbour_modCores (s : State) (cs : List (Fin 4)) (f : Core → Core) : (s.modCores cs f).harbour = s.harbour := by
  unfold State.modCores
  induction cs generalizing s with
  | nil => rfl
  | cons c t ih => rw [List.foldl_cons, ih, harbour_modCore]
@[simp] theorem sram_modCores (s : State) (cs : List (Fin 4)) (f : Core → Core) : (s.modCores cs f).sram = s.sram := by
  unfold State.modCores
  induction cs generalizing s with
  | nil => rfl
  | cons c t ih => rw [List.foldl_cons, ih, sram_modCore]
@[simp] theorem watches_modCores (s : State) (cs : List (Fin 4)) (f : Core → Core) : (s.modCores cs f).watches = s.watches := by
  unfold State.modCores
  induction cs generalizing s with
  | nil => rfl
  | cons c t ih => rw [List.foldl_cons, ih, watches_modCore]
@[simp] theorem tableBuilt_modCores (s : State) (cs : List (Fin 4)) (f : Core → Core) : (s.modCores cs f).tableBuilt = s.tableBuilt := by
  unfold State.modCores
  induction cs generalizing s with
  | nil => rfl
  | cons c t ih => rw [List.foldl_cons, ih, tableBuilt_modCore]
@[simp] theorem nextOrder_modCores (s : State) (cs : List (Fin 4)) (f : Core → Core) : (s.modCores cs f).nextOrder = s.nextOrder := by
  unfold State.modCores
  induction cs generalizing s with
  | nil => rfl
  | cons c t ih => rw [List.foldl_cons, ih, nextOrder_modCore]
@[simp] theorem ownerSrc_modCores (s : State) (cs : List (Fin 4)) (f : Core → Core) : (s.modCores cs f).ownerSrc = s.ownerSrc := by
  unfold State.modCores
  induction cs generalizing s with
  | nil => rfl
  | cons c t ih => rw [List.foldl_cons, ih, ownerSrc_modCore]
@[simp] theorem shutdown_modCores (s : State) (cs : List (Fin 4)) (f : Core → Core) : (s.modCores cs f).shutdown = s.shutdown := by
  unfold State.modCores
  induction cs generalizing s with
  | nil => rfl
  | cons c t ih => rw [List.foldl_cons, ih, shutdown_modCore]
@[simp] theorem stopping_modCores (s : State) (cs : List (Fin 4)) (f : Core → Core) : (s.modCores cs f).stopping = s.stopping := by
  unfold State.modCores
  induction cs generalizing s with
  | nil => rfl
  | cons c t ih => rw [List.foldl_cons, ih, stopping_modCore]
@[simp] theorem cw_modCores (s : State) (cs : List (Fin 4)) (f : Core → Core) : (s.modCores cs f).cw = s.cw := by
  unfold State.modCores
  induction cs generalizing s with
  | nil => rfl
  | cons c t ih => rw [List.foldl_cons, ih, cw_modCore]
@[simp] theorem err_modCores (s : State) (cs : List (Fin 4)) (f : Core → Core) : (s.modCores cs f).err = s.err := by
  unfold State.modCores
  induction cs generalizing s with
  | nil => rfl
  | cons c t ih => rw [List.foldl_cons, ih, err_modCore]
@[simp] theorem host_modCores (s : State) (cs : List (Fin 4)) (f : Core → Core) : (s.modCores cs f).host = s.host := by
  unfold State.modCores
  induction cs generalizing s with
  | nil => rfl
  | cons c t ih => rw [List.foldl_cons, ih, host_modCore]
@[simp] theorem gpio_modCores (s : State) (cs : List (Fin 4)) (f : Core → Core) : (s.modCores cs f).gpio = s.gpio := by
  unfold State.modCores
  induction cs generalizing s with
  | nil => rfl
  | cons c t ih => rw [List.foldl_cons, ih, gpio_modCore]
@[simp] theorem strand_modCores (s : State) (cs : List (Fin 4)) (f : Core → Core) : (s.modCores cs f).strand = s.strand := by
  unfold State.modCores
  induction cs generalizing s with
  | nil => rfl
  | cons c t ih => rw [List.foldl_cons, ih, strand_modCore]
@[simp] theorem tap_modCores (s : State) (cs : List (Fin 4)) (f : Core → Core) : (s.modCores cs f).tap = s.tap := by
  unfold State.modCores
  induction cs generalizing s with
  | nil => rfl
  | cons c t ih => rw [List.foldl_cons, ih, tap_modCore]
@[simp] theorem fresh_modCores (s : State) (cs : List (Fin 4)) (f : Core → Core) : (s.modCores cs f).fresh = s.fresh := by
  unfold State.modCores
  induction cs generalizing s with
  | nil => rfl
  | cons c t ih => rw [List.foldl_cons, ih, fresh_modCore]
@[simp] theorem free_modCores (s : State) (cs : List (Fin 4)) (f : Core → Core) : (s.modCores cs f).free = s.free := by
  unfold State.modCores
  induction cs generalizing s with
  | nil => rfl
  | cons c t ih => rw [List.foldl_cons, ih, free_modCore]

/-! ### Changing a watch or its job -/

@[simp] theorem pending_modWatch (s : State) (n : Nat) (f : Watch → Watch) : (s.modWatch n f).pending = s.pending := rfl
@[simp] theorem sys_modWatch (s : State) (n : Nat) (f : Watch → Watch) : (s.modWatch n f).sys = s.sys := rfl
@[simp] theorem tide_modWatch (s : State) (n : Nat) (f : Watch → Watch) : (s.modWatch n f).tide = s.tide := rfl
@[simp] theorem otp_modWatch (s : State) (n : Nat) (f : Watch → Watch) : (s.modWatch n f).otp = s.otp := rfl
@[simp] theorem image_modWatch (s : State) (n : Nat) (f : Watch → Watch) : (s.modWatch n f).image = s.image := rfl
@[simp] theorem pix_modWatch (s : State) (n : Nat) (f : Watch → Watch) : (s.modWatch n f).pix = s.pix := rfl
@[simp] theorem adc_modWatch (s : State) (n : Nat) (f : Watch → Watch) : (s.modWatch n f).adc = s.adc := rfl
@[simp] theorem stem_modWatch (s : State) (n : Nat) (f : Watch → Watch) : (s.modWatch n f).stem = s.stem := rfl
@[simp] theorem core0_modWatch (s : State) (n : Nat) (f : Watch → Watch) : (s.modWatch n f).core0 = s.core0 := rfl
@[simp] theorem core1_modWatch (s : State) (n : Nat) (f : Watch → Watch) : (s.modWatch n f).core1 = s.core1 := rfl
@[simp] theorem core2_modWatch (s : State) (n : Nat) (f : Watch → Watch) : (s.modWatch n f).core2 = s.core2 := rfl
@[simp] theorem core3_modWatch (s : State) (n : Nat) (f : Watch → Watch) : (s.modWatch n f).core3 = s.core3 := rfl
@[simp] theorem harbour_modWatch (s : State) (n : Nat) (f : Watch → Watch) : (s.modWatch n f).harbour = s.harbour := rfl
@[simp] theorem sram_modWatch (s : State) (n : Nat) (f : Watch → Watch) : (s.modWatch n f).sram = s.sram := rfl
theorem watches_modWatch (s : State) (n : Nat) (f : Watch → Watch) :
    (s.modWatch n f).watches = s.watches.map (fun w => if w.entry.num = n then f w else w) := rfl
@[simp] theorem tableBuilt_modWatch (s : State) (n : Nat) (f : Watch → Watch) : (s.modWatch n f).tableBuilt = s.tableBuilt := rfl
@[simp] theorem nextOrder_modWatch (s : State) (n : Nat) (f : Watch → Watch) : (s.modWatch n f).nextOrder = s.nextOrder := rfl
@[simp] theorem ownerSrc_modWatch (s : State) (n : Nat) (f : Watch → Watch) : (s.modWatch n f).ownerSrc = s.ownerSrc := rfl
@[simp] theorem shutdown_modWatch (s : State) (n : Nat) (f : Watch → Watch) : (s.modWatch n f).shutdown = s.shutdown := rfl
@[simp] theorem stopping_modWatch (s : State) (n : Nat) (f : Watch → Watch) : (s.modWatch n f).stopping = s.stopping := rfl
@[simp] theorem cw_modWatch (s : State) (n : Nat) (f : Watch → Watch) : (s.modWatch n f).cw = s.cw := rfl
@[simp] theorem err_modWatch (s : State) (n : Nat) (f : Watch → Watch) : (s.modWatch n f).err = s.err := rfl
@[simp] theorem host_modWatch (s : State) (n : Nat) (f : Watch → Watch) : (s.modWatch n f).host = s.host := rfl
@[simp] theorem gpio_modWatch (s : State) (n : Nat) (f : Watch → Watch) : (s.modWatch n f).gpio = s.gpio := rfl
@[simp] theorem strand_modWatch (s : State) (n : Nat) (f : Watch → Watch) : (s.modWatch n f).strand = s.strand := rfl
@[simp] theorem tap_modWatch (s : State) (n : Nat) (f : Watch → Watch) : (s.modWatch n f).tap = s.tap := rfl
@[simp] theorem fresh_modWatch (s : State) (n : Nat) (f : Watch → Watch) : (s.modWatch n f).fresh = s.fresh := rfl
@[simp] theorem free_modWatch (s : State) (n : Nat) (f : Watch → Watch) : (s.modWatch n f).free = s.free := rfl
@[simp] theorem pending_modJob (s : State) (n : Nat) (f : Job → Job) : (s.modJob n f).pending = s.pending := rfl
@[simp] theorem sys_modJob (s : State) (n : Nat) (f : Job → Job) : (s.modJob n f).sys = s.sys := rfl
@[simp] theorem tide_modJob (s : State) (n : Nat) (f : Job → Job) : (s.modJob n f).tide = s.tide := rfl
@[simp] theorem otp_modJob (s : State) (n : Nat) (f : Job → Job) : (s.modJob n f).otp = s.otp := rfl
@[simp] theorem image_modJob (s : State) (n : Nat) (f : Job → Job) : (s.modJob n f).image = s.image := rfl
@[simp] theorem pix_modJob (s : State) (n : Nat) (f : Job → Job) : (s.modJob n f).pix = s.pix := rfl
@[simp] theorem adc_modJob (s : State) (n : Nat) (f : Job → Job) : (s.modJob n f).adc = s.adc := rfl
@[simp] theorem stem_modJob (s : State) (n : Nat) (f : Job → Job) : (s.modJob n f).stem = s.stem := rfl
@[simp] theorem core0_modJob (s : State) (n : Nat) (f : Job → Job) : (s.modJob n f).core0 = s.core0 := rfl
@[simp] theorem core1_modJob (s : State) (n : Nat) (f : Job → Job) : (s.modJob n f).core1 = s.core1 := rfl
@[simp] theorem core2_modJob (s : State) (n : Nat) (f : Job → Job) : (s.modJob n f).core2 = s.core2 := rfl
@[simp] theorem core3_modJob (s : State) (n : Nat) (f : Job → Job) : (s.modJob n f).core3 = s.core3 := rfl
@[simp] theorem harbour_modJob (s : State) (n : Nat) (f : Job → Job) : (s.modJob n f).harbour = s.harbour := rfl
@[simp] theorem sram_modJob (s : State) (n : Nat) (f : Job → Job) : (s.modJob n f).sram = s.sram := rfl
theorem watches_modJob (s : State) (n : Nat) (f : Job → Job) :
    (s.modJob n f).watches = s.watches.map (fun w => if w.entry.num = n then { w with job := w.job.map f } else w) := rfl
@[simp] theorem tableBuilt_modJob (s : State) (n : Nat) (f : Job → Job) : (s.modJob n f).tableBuilt = s.tableBuilt := rfl
@[simp] theorem nextOrder_modJob (s : State) (n : Nat) (f : Job → Job) : (s.modJob n f).nextOrder = s.nextOrder := rfl
@[simp] theorem ownerSrc_modJob (s : State) (n : Nat) (f : Job → Job) : (s.modJob n f).ownerSrc = s.ownerSrc := rfl
@[simp] theorem shutdown_modJob (s : State) (n : Nat) (f : Job → Job) : (s.modJob n f).shutdown = s.shutdown := rfl
@[simp] theorem stopping_modJob (s : State) (n : Nat) (f : Job → Job) : (s.modJob n f).stopping = s.stopping := rfl
@[simp] theorem cw_modJob (s : State) (n : Nat) (f : Job → Job) : (s.modJob n f).cw = s.cw := rfl
@[simp] theorem err_modJob (s : State) (n : Nat) (f : Job → Job) : (s.modJob n f).err = s.err := rfl
@[simp] theorem host_modJob (s : State) (n : Nat) (f : Job → Job) : (s.modJob n f).host = s.host := rfl
@[simp] theorem gpio_modJob (s : State) (n : Nat) (f : Job → Job) : (s.modJob n f).gpio = s.gpio := rfl
@[simp] theorem strand_modJob (s : State) (n : Nat) (f : Job → Job) : (s.modJob n f).strand = s.strand := rfl
@[simp] theorem tap_modJob (s : State) (n : Nat) (f : Job → Job) : (s.modJob n f).tap = s.tap := rfl
@[simp] theorem fresh_modJob (s : State) (n : Nat) (f : Job → Job) : (s.modJob n f).fresh = s.fresh := rfl
@[simp] theorem free_modJob (s : State) (n : Nat) (f : Job → Job) : (s.modJob n f).free = s.free := rfl

@[simp] theorem core_modWatch (s : State) (n : Nat) (f : Watch → Watch) (c : Fin 4) : (s.modWatch n f).core c = s.core c := by
  fin_cases c <;> rfl

@[simp] theorem core_modJob (s : State) (n : Nat) (f : Job → Job) (c : Fin 4) : (s.modJob n f).core c = s.core c := by
  fin_cases c <;> rfl

/-! ### Replacing a port -/

@[simp] theorem pending_setPort (s : State) (p : PortId) (x : Port) : (s.setPort p x).pending = s.pending := by cases p <;> rfl
@[simp] theorem sys_setPort (s : State) (p : PortId) (x : Port) : (s.setPort p x).sys = s.sys := by cases p <;> rfl
@[simp] theorem tide_setPort (s : State) (p : PortId) (x : Port) : (s.setPort p x).tide = s.tide := by cases p <;> rfl
@[simp] theorem otp_setPort (s : State) (p : PortId) (x : Port) : (s.setPort p x).otp = s.otp := by cases p <;> rfl
@[simp] theorem image_setPort (s : State) (p : PortId) (x : Port) : (s.setPort p x).image = s.image := by cases p <;> rfl
@[simp] theorem pix_setPort (s : State) (p : PortId) (x : Port) : (s.setPort p x).pix = s.pix := by cases p <;> rfl
@[simp] theorem adc_setPort (s : State) (p : PortId) (x : Port) : (s.setPort p x).adc = s.adc := by cases p <;> rfl
@[simp] theorem stem_setPort (s : State) (p : PortId) (x : Port) : (s.setPort p x).stem = s.stem := by cases p <;> rfl
@[simp] theorem core0_setPort (s : State) (p : PortId) (x : Port) : (s.setPort p x).core0 = s.core0 := by cases p <;> rfl
@[simp] theorem core1_setPort (s : State) (p : PortId) (x : Port) : (s.setPort p x).core1 = s.core1 := by cases p <;> rfl
@[simp] theorem core2_setPort (s : State) (p : PortId) (x : Port) : (s.setPort p x).core2 = s.core2 := by cases p <;> rfl
@[simp] theorem core3_setPort (s : State) (p : PortId) (x : Port) : (s.setPort p x).core3 = s.core3 := by cases p <;> rfl
@[simp] theorem harbour_setPort (s : State) (p : PortId) (x : Port) : (s.setPort p x).harbour = s.harbour := by cases p <;> rfl
@[simp] theorem sram_setPort (s : State) (p : PortId) (x : Port) : (s.setPort p x).sram = s.sram := by cases p <;> rfl
@[simp] theorem watches_setPort (s : State) (p : PortId) (x : Port) : (s.setPort p x).watches = s.watches := by cases p <;> rfl
@[simp] theorem tableBuilt_setPort (s : State) (p : PortId) (x : Port) : (s.setPort p x).tableBuilt = s.tableBuilt := by cases p <;> rfl
@[simp] theorem nextOrder_setPort (s : State) (p : PortId) (x : Port) : (s.setPort p x).nextOrder = s.nextOrder := by cases p <;> rfl
@[simp] theorem ownerSrc_setPort (s : State) (p : PortId) (x : Port) : (s.setPort p x).ownerSrc = s.ownerSrc := by cases p <;> rfl
@[simp] theorem shutdown_setPort (s : State) (p : PortId) (x : Port) : (s.setPort p x).shutdown = s.shutdown := by cases p <;> rfl
@[simp] theorem stopping_setPort (s : State) (p : PortId) (x : Port) : (s.setPort p x).stopping = s.stopping := by cases p <;> rfl
@[simp] theorem err_setPort (s : State) (p : PortId) (x : Port) : (s.setPort p x).err = s.err := by cases p <;> rfl
@[simp] theorem host_setPort (s : State) (p : PortId) (x : Port) : (s.setPort p x).host = s.host := by cases p <;> rfl
@[simp] theorem gpio_setPort (s : State) (p : PortId) (x : Port) : (s.setPort p x).gpio = s.gpio := by cases p <;> rfl
@[simp] theorem strand_setPort (s : State) (p : PortId) (x : Port) : (s.setPort p x).strand = s.strand := by cases p <;> rfl
@[simp] theorem tap_setPort (s : State) (p : PortId) (x : Port) : (s.setPort p x).tap = s.tap := by cases p <;> rfl
@[simp] theorem fresh_setPort (s : State) (p : PortId) (x : Port) : (s.setPort p x).fresh = s.fresh := by cases p <;> rfl
@[simp] theorem free_setPort (s : State) (p : PortId) (x : Port) : (s.setPort p x).free = s.free := by cases p <;> rfl
@[simp] theorem cw_cfg_setPort (s : State) (p : PortId) (x : Port) : (s.setPort p x).cw.cfg = s.cw.cfg := by cases p <;> rfl
@[simp] theorem cw_chip_setPort (s : State) (p : PortId) (x : Port) : (s.setPort p x).cw.chip = s.cw.chip := by cases p <;> rfl
@[simp] theorem cw_chainLen_setPort (s : State) (p : PortId) (x : Port) : (s.setPort p x).cw.chainLen = s.cw.chainLen := by cases p <;> rfl
@[simp] theorem cw_mismatch_setPort (s : State) (p : PortId) (x : Port) : (s.setPort p x).cw.mismatch = s.cw.mismatch := by cases p <;> rfl
@[simp] theorem cw_markers_setPort (s : State) (p : PortId) (x : Port) : (s.setPort p x).cw.markers = s.cw.markers := by cases p <;> rfl
@[simp] theorem cw_firsts_setPort (s : State) (p : PortId) (x : Port) : (s.setPort p x).cw.firsts = s.cw.firsts := by cases p <;> rfl
@[simp] theorem cw_doubts_setPort (s : State) (p : PortId) (x : Port) : (s.setPort p x).cw.doubts = s.cw.doubts := by cases p <;> rfl
@[simp] theorem cw_txn_setPort (s : State) (p : PortId) (x : Port) : (s.setPort p x).cw.txn = s.cw.txn := by cases p <;> rfl
@[simp] theorem cw_dropTransit_setPort (s : State) (p : PortId) (x : Port) : (s.setPort p x).cw.dropTransit = s.cw.dropTransit := by cases p <;> rfl
@[simp] theorem cw_refusedIn_setPort (s : State) (p : PortId) (x : Port) : (s.setPort p x).cw.refusedIn = s.cw.refusedIn := by cases p <;> rfl
@[simp] theorem cw_msgLost_setPort (s : State) (p : PortId) (x : Port) : (s.setPort p x).cw.msgLost = s.cw.msgLost := by cases p <;> rfl
@[simp] theorem cw_unroutable_setPort (s : State) (p : PortId) (x : Port) : (s.setPort p x).cw.unroutable = s.cw.unroutable := by cases p <;> rfl
@[simp] theorem cw_forceAwake_setPort (s : State) (p : PortId) (x : Port) : (s.setPort p x).cw.forceAwake = s.cw.forceAwake := by cases p <;> rfl
@[simp] theorem cw_wakeIn_setPort (s : State) (p : PortId) (x : Port) : (s.setPort p x).cw.wakeIn = s.cw.wakeIn := by cases p <;> rfl
@[simp] theorem cw_wakeOut_setPort (s : State) (p : PortId) (x : Port) : (s.setPort p x).cw.wakeOut = s.cw.wakeOut := by cases p <;> rfl

@[simp] theorem port_setPort (s : State) (p : PortId) (x : Port) : (s.setPort p x).port p = x := by cases p <;> rfl

theorem port_setPort_ne (s : State) {p q : PortId} (h : q ≠ p) (x : Port) : (s.setPort p x).port q = s.port q := by
  cases p <;> cases q <;> first | exact absurd rfl h | rfl

@[simp] theorem core_setPort (s : State) (p : PortId) (x : Port) (c : Fin 4) : (s.setPort p x).core c = s.core c := by
  cases p <;> fin_cases c <;> rfl

/-! ### Registers of a core -/

@[simp] theorem run_setS (k : Core) (i : Nat) (x : BitVec 32) : (k.setS i x).run = k.run := rfl
@[simp] theorem v_setS (k : Core) (i : Nat) (x : BitVec 32) : (k.setS i x).v = k.v := rfl
@[simp] theorem acc_setS (k : Core) (i : Nat) (x : BitVec 32) : (k.setS i x).acc = k.acc := rfl
@[simp] theorem accDom_setS (k : Core) (i : Nat) (x : BitVec 32) : (k.setS i x).accDom = k.accDom := rfl
@[simp] theorem loc_setS (k : Core) (i : Nat) (x : BitVec 32) : (k.setS i x).loc = k.loc := rfl
@[simp] theorem imem_setS (k : Core) (i : Nat) (x : BitVec 32) : (k.setS i x).imem = k.imem := rfl
@[simp] theorem retain_setS (k : Core) (i : Nat) (x : BitVec 32) : (k.setS i x).retain = k.retain := rfl
@[simp] theorem loadLog_setS (k : Core) (i : Nat) (x : BitVec 32) : (k.setS i x).loadLog = k.loadLog := rfl
@[simp] theorem pend_setS (k : Core) (i : Nat) (x : BitVec 32) : (k.setS i x).pend = k.pend := rfl
@[simp] theorem lastPc_setS (k : Core) (i : Nat) (x : BitVec 32) : (k.setS i x).lastPc = k.lastPc := rfl
@[simp] theorem early_setS (k : Core) (i : Nat) (x : BitVec 32) : (k.setS i x).early = k.early := rfl
@[simp] theorem wait_setS (k : Core) (i : Nat) (x : BitVec 32) : (k.setS i x).wait = k.wait := rfl
@[simp] theorem waitTick_setS (k : Core) (i : Nat) (x : BitVec 32) : (k.setS i x).waitTick = k.waitTick := rfl
@[simp] theorem heads_setS (k : Core) (i : Nat) (x : BitVec 32) : (k.setS i x).heads = k.heads := rfl
@[simp] theorem point_setS (k : Core) (i : Nat) (x : BitVec 32) : (k.setS i x).point = k.point := rfl
@[simp] theorem owner_setS (k : Core) (i : Nat) (x : BitVec 32) : (k.setS i x).owner = k.owner := rfl
@[simp] theorem winOpen_setS (k : Core) (i : Nat) (x : BitVec 32) : (k.setS i x).winOpen = k.winOpen := rfl
@[simp] theorem winReplayed_setS (k : Core) (i : Nat) (x : BitVec 32) : (k.setS i x).winReplayed = k.winReplayed := rfl
@[simp] theorem shadow_setS (k : Core) (i : Nat) (x : BitVec 32) : (k.setS i x).shadow = k.shadow := rfl
@[simp] theorem written_setS (k : Core) (i : Nat) (x : BitVec 32) : (k.setS i x).written = k.written := rfl
@[simp] theorem tainted_setS (k : Core) (i : Nat) (x : BitVec 32) : (k.setS i x).tainted = k.tainted := rfl
@[simp] theorem meter_setS (k : Core) (i : Nat) (x : BitVec 32) : (k.setS i x).meter = k.meter := rfl
@[simp] theorem excCause_setS (k : Core) (i : Nat) (x : BitVec 32) : (k.setS i x).excCause = k.excCause := rfl
@[simp] theorem excSlot_setS (k : Core) (i : Nat) (x : BitVec 32) : (k.setS i x).excSlot = k.excSlot := rfl
@[simp] theorem excPc_setS (k : Core) (i : Nat) (x : BitVec 32) : (k.setS i x).excPc = k.excPc := rfl
@[simp] theorem excValid_setS (k : Core) (i : Nat) (x : BitVec 32) : (k.setS i x).excValid = k.excValid := rfl
@[simp] theorem powered_setS (k : Core) (i : Nat) (x : BitVec 32) : (k.setS i x).powered = k.powered := rfl
@[simp] theorem before_setS (k : Core) (i : Nat) (x : BitVec 32) : (k.setS i x).before = k.before := rfl
@[simp] theorem replaying_setS (k : Core) (i : Nat) (x : BitVec 32) : (k.setS i x).replaying = k.replaying := rfl
@[simp] theorem replayLoads_setS (k : Core) (i : Nat) (x : BitVec 32) : (k.setS i x).replayLoads = k.replayLoads := rfl
@[simp] theorem imemUpset_setS (k : Core) (i : Nat) (x : BitVec 32) : (k.setS i x).imemUpset = k.imemUpset := rfl
@[simp] theorem regs_a_setS (k : Core) (i : Nat) (x : BitVec 32) : (k.setS i x).regs.a = k.regs.a := rfl
@[simp] theorem regs_p_setS (k : Core) (i : Nat) (x : BitVec 32) : (k.setS i x).regs.p = k.regs.p := rfl
@[simp] theorem regs_lc_setS (k : Core) (i : Nat) (x : BitVec 32) : (k.setS i x).regs.lc = k.regs.lc := rfl
@[simp] theorem regs_ev_setS (k : Core) (i : Nat) (x : BitVec 32) : (k.setS i x).regs.ev = k.regs.ev := rfl
@[simp] theorem regs_fl_setS (k : Core) (i : Nat) (x : BitVec 32) : (k.setS i x).regs.fl = k.regs.fl := rfl
@[simp] theorem regs_pc_setS (k : Core) (i : Nat) (x : BitVec 32) : (k.setS i x).regs.pc = k.regs.pc := rfl
@[simp] theorem regs_satc_setS (k : Core) (i : Nat) (x : BitVec 32) : (k.setS i x).regs.satc = k.regs.satc := rfl
@[simp] theorem run_setA (k : Core) (i : Nat) (x : BitVec 40) : (k.setA i x).run = k.run := rfl
@[simp] theorem v_setA (k : Core) (i : Nat) (x : BitVec 40) : (k.setA i x).v = k.v := rfl
@[simp] theorem acc_setA (k : Core) (i : Nat) (x : BitVec 40) : (k.setA i x).acc = k.acc := rfl
@[simp] theorem accDom_setA (k : Core) (i : Nat) (x : BitVec 40) : (k.setA i x).accDom = k.accDom := rfl
@[simp] theorem loc_setA (k : Core) (i : Nat) (x : BitVec 40) : (k.setA i x).loc = k.loc := rfl
@[simp] theorem imem_setA (k : Core) (i : Nat) (x : BitVec 40) : (k.setA i x).imem = k.imem := rfl
@[simp] theorem retain_setA (k : Core) (i : Nat) (x : BitVec 40) : (k.setA i x).retain = k.retain := rfl
@[simp] theorem loadLog_setA (k : Core) (i : Nat) (x : BitVec 40) : (k.setA i x).loadLog = k.loadLog := rfl
@[simp] theorem pend_setA (k : Core) (i : Nat) (x : BitVec 40) : (k.setA i x).pend = k.pend := rfl
@[simp] theorem lastPc_setA (k : Core) (i : Nat) (x : BitVec 40) : (k.setA i x).lastPc = k.lastPc := rfl
@[simp] theorem early_setA (k : Core) (i : Nat) (x : BitVec 40) : (k.setA i x).early = k.early := rfl
@[simp] theorem wait_setA (k : Core) (i : Nat) (x : BitVec 40) : (k.setA i x).wait = k.wait := rfl
@[simp] theorem waitTick_setA (k : Core) (i : Nat) (x : BitVec 40) : (k.setA i x).waitTick = k.waitTick := rfl
@[simp] theorem heads_setA (k : Core) (i : Nat) (x : BitVec 40) : (k.setA i x).heads = k.heads := rfl
@[simp] theorem point_setA (k : Core) (i : Nat) (x : BitVec 40) : (k.setA i x).point = k.point := rfl
@[simp] theorem owner_setA (k : Core) (i : Nat) (x : BitVec 40) : (k.setA i x).owner = k.owner := rfl
@[simp] theorem winOpen_setA (k : Core) (i : Nat) (x : BitVec 40) : (k.setA i x).winOpen = k.winOpen := rfl
@[simp] theorem winReplayed_setA (k : Core) (i : Nat) (x : BitVec 40) : (k.setA i x).winReplayed = k.winReplayed := rfl
@[simp] theorem shadow_setA (k : Core) (i : Nat) (x : BitVec 40) : (k.setA i x).shadow = k.shadow := rfl
@[simp] theorem written_setA (k : Core) (i : Nat) (x : BitVec 40) : (k.setA i x).written = k.written := rfl
@[simp] theorem tainted_setA (k : Core) (i : Nat) (x : BitVec 40) : (k.setA i x).tainted = k.tainted := rfl
@[simp] theorem meter_setA (k : Core) (i : Nat) (x : BitVec 40) : (k.setA i x).meter = k.meter := rfl
@[simp] theorem excCause_setA (k : Core) (i : Nat) (x : BitVec 40) : (k.setA i x).excCause = k.excCause := rfl
@[simp] theorem excSlot_setA (k : Core) (i : Nat) (x : BitVec 40) : (k.setA i x).excSlot = k.excSlot := rfl
@[simp] theorem excPc_setA (k : Core) (i : Nat) (x : BitVec 40) : (k.setA i x).excPc = k.excPc := rfl
@[simp] theorem excValid_setA (k : Core) (i : Nat) (x : BitVec 40) : (k.setA i x).excValid = k.excValid := rfl
@[simp] theorem powered_setA (k : Core) (i : Nat) (x : BitVec 40) : (k.setA i x).powered = k.powered := rfl
@[simp] theorem before_setA (k : Core) (i : Nat) (x : BitVec 40) : (k.setA i x).before = k.before := rfl
@[simp] theorem replaying_setA (k : Core) (i : Nat) (x : BitVec 40) : (k.setA i x).replaying = k.replaying := rfl
@[simp] theorem replayLoads_setA (k : Core) (i : Nat) (x : BitVec 40) : (k.setA i x).replayLoads = k.replayLoads := rfl
@[simp] theorem imemUpset_setA (k : Core) (i : Nat) (x : BitVec 40) : (k.setA i x).imemUpset = k.imemUpset := rfl
@[simp] theorem regs_s_setA (k : Core) (i : Nat) (x : BitVec 40) : (k.setA i x).regs.s = k.regs.s := rfl
@[simp] theorem regs_p_setA (k : Core) (i : Nat) (x : BitVec 40) : (k.setA i x).regs.p = k.regs.p := rfl
@[simp] theorem regs_lc_setA (k : Core) (i : Nat) (x : BitVec 40) : (k.setA i x).regs.lc = k.regs.lc := rfl
@[simp] theorem regs_ev_setA (k : Core) (i : Nat) (x : BitVec 40) : (k.setA i x).regs.ev = k.regs.ev := rfl
@[simp] theorem regs_fl_setA (k : Core) (i : Nat) (x : BitVec 40) : (k.setA i x).regs.fl = k.regs.fl := rfl
@[simp] theorem regs_pc_setA (k : Core) (i : Nat) (x : BitVec 40) : (k.setA i x).regs.pc = k.regs.pc := rfl
@[simp] theorem regs_satc_setA (k : Core) (i : Nat) (x : BitVec 40) : (k.setA i x).regs.satc = k.regs.satc := rfl
@[simp] theorem run_setP (k : Core) (i : Nat) (x : BitVec 128) : (k.setP i x).run = k.run := rfl
@[simp] theorem v_setP (k : Core) (i : Nat) (x : BitVec 128) : (k.setP i x).v = k.v := rfl
@[simp] theorem acc_setP (k : Core) (i : Nat) (x : BitVec 128) : (k.setP i x).acc = k.acc := rfl
@[simp] theorem accDom_setP (k : Core) (i : Nat) (x : BitVec 128) : (k.setP i x).accDom = k.accDom := rfl
@[simp] theorem loc_setP (k : Core) (i : Nat) (x : BitVec 128) : (k.setP i x).loc = k.loc := rfl
@[simp] theorem imem_setP (k : Core) (i : Nat) (x : BitVec 128) : (k.setP i x).imem = k.imem := rfl
@[simp] theorem retain_setP (k : Core) (i : Nat) (x : BitVec 128) : (k.setP i x).retain = k.retain := rfl
@[simp] theorem loadLog_setP (k : Core) (i : Nat) (x : BitVec 128) : (k.setP i x).loadLog = k.loadLog := rfl
@[simp] theorem pend_setP (k : Core) (i : Nat) (x : BitVec 128) : (k.setP i x).pend = k.pend := rfl
@[simp] theorem lastPc_setP (k : Core) (i : Nat) (x : BitVec 128) : (k.setP i x).lastPc = k.lastPc := rfl
@[simp] theorem early_setP (k : Core) (i : Nat) (x : BitVec 128) : (k.setP i x).early = k.early := rfl
@[simp] theorem wait_setP (k : Core) (i : Nat) (x : BitVec 128) : (k.setP i x).wait = k.wait := rfl
@[simp] theorem waitTick_setP (k : Core) (i : Nat) (x : BitVec 128) : (k.setP i x).waitTick = k.waitTick := rfl
@[simp] theorem heads_setP (k : Core) (i : Nat) (x : BitVec 128) : (k.setP i x).heads = k.heads := rfl
@[simp] theorem point_setP (k : Core) (i : Nat) (x : BitVec 128) : (k.setP i x).point = k.point := rfl
@[simp] theorem owner_setP (k : Core) (i : Nat) (x : BitVec 128) : (k.setP i x).owner = k.owner := rfl
@[simp] theorem winOpen_setP (k : Core) (i : Nat) (x : BitVec 128) : (k.setP i x).winOpen = k.winOpen := rfl
@[simp] theorem winReplayed_setP (k : Core) (i : Nat) (x : BitVec 128) : (k.setP i x).winReplayed = k.winReplayed := rfl
@[simp] theorem shadow_setP (k : Core) (i : Nat) (x : BitVec 128) : (k.setP i x).shadow = k.shadow := rfl
@[simp] theorem written_setP (k : Core) (i : Nat) (x : BitVec 128) : (k.setP i x).written = k.written := rfl
@[simp] theorem tainted_setP (k : Core) (i : Nat) (x : BitVec 128) : (k.setP i x).tainted = k.tainted := rfl
@[simp] theorem meter_setP (k : Core) (i : Nat) (x : BitVec 128) : (k.setP i x).meter = k.meter := rfl
@[simp] theorem excCause_setP (k : Core) (i : Nat) (x : BitVec 128) : (k.setP i x).excCause = k.excCause := rfl
@[simp] theorem excSlot_setP (k : Core) (i : Nat) (x : BitVec 128) : (k.setP i x).excSlot = k.excSlot := rfl
@[simp] theorem excPc_setP (k : Core) (i : Nat) (x : BitVec 128) : (k.setP i x).excPc = k.excPc := rfl
@[simp] theorem excValid_setP (k : Core) (i : Nat) (x : BitVec 128) : (k.setP i x).excValid = k.excValid := rfl
@[simp] theorem powered_setP (k : Core) (i : Nat) (x : BitVec 128) : (k.setP i x).powered = k.powered := rfl
@[simp] theorem before_setP (k : Core) (i : Nat) (x : BitVec 128) : (k.setP i x).before = k.before := rfl
@[simp] theorem replaying_setP (k : Core) (i : Nat) (x : BitVec 128) : (k.setP i x).replaying = k.replaying := rfl
@[simp] theorem replayLoads_setP (k : Core) (i : Nat) (x : BitVec 128) : (k.setP i x).replayLoads = k.replayLoads := rfl
@[simp] theorem imemUpset_setP (k : Core) (i : Nat) (x : BitVec 128) : (k.setP i x).imemUpset = k.imemUpset := rfl
@[simp] theorem regs_s_setP (k : Core) (i : Nat) (x : BitVec 128) : (k.setP i x).regs.s = k.regs.s := rfl
@[simp] theorem regs_a_setP (k : Core) (i : Nat) (x : BitVec 128) : (k.setP i x).regs.a = k.regs.a := rfl
@[simp] theorem regs_lc_setP (k : Core) (i : Nat) (x : BitVec 128) : (k.setP i x).regs.lc = k.regs.lc := rfl
@[simp] theorem regs_ev_setP (k : Core) (i : Nat) (x : BitVec 128) : (k.setP i x).regs.ev = k.regs.ev := rfl
@[simp] theorem regs_fl_setP (k : Core) (i : Nat) (x : BitVec 128) : (k.setP i x).regs.fl = k.regs.fl := rfl
@[simp] theorem regs_pc_setP (k : Core) (i : Nat) (x : BitVec 128) : (k.setP i x).regs.pc = k.regs.pc := rfl
@[simp] theorem regs_satc_setP (k : Core) (i : Nat) (x : BitVec 128) : (k.setP i x).regs.satc = k.regs.satc := rfl
@[simp] theorem run_setLc (k : Core) (i : Nat) (x : LoopCtr) : (k.setLc i x).run = k.run := rfl
@[simp] theorem v_setLc (k : Core) (i : Nat) (x : LoopCtr) : (k.setLc i x).v = k.v := rfl
@[simp] theorem acc_setLc (k : Core) (i : Nat) (x : LoopCtr) : (k.setLc i x).acc = k.acc := rfl
@[simp] theorem accDom_setLc (k : Core) (i : Nat) (x : LoopCtr) : (k.setLc i x).accDom = k.accDom := rfl
@[simp] theorem loc_setLc (k : Core) (i : Nat) (x : LoopCtr) : (k.setLc i x).loc = k.loc := rfl
@[simp] theorem imem_setLc (k : Core) (i : Nat) (x : LoopCtr) : (k.setLc i x).imem = k.imem := rfl
@[simp] theorem retain_setLc (k : Core) (i : Nat) (x : LoopCtr) : (k.setLc i x).retain = k.retain := rfl
@[simp] theorem loadLog_setLc (k : Core) (i : Nat) (x : LoopCtr) : (k.setLc i x).loadLog = k.loadLog := rfl
@[simp] theorem pend_setLc (k : Core) (i : Nat) (x : LoopCtr) : (k.setLc i x).pend = k.pend := rfl
@[simp] theorem lastPc_setLc (k : Core) (i : Nat) (x : LoopCtr) : (k.setLc i x).lastPc = k.lastPc := rfl
@[simp] theorem early_setLc (k : Core) (i : Nat) (x : LoopCtr) : (k.setLc i x).early = k.early := rfl
@[simp] theorem wait_setLc (k : Core) (i : Nat) (x : LoopCtr) : (k.setLc i x).wait = k.wait := rfl
@[simp] theorem waitTick_setLc (k : Core) (i : Nat) (x : LoopCtr) : (k.setLc i x).waitTick = k.waitTick := rfl
@[simp] theorem heads_setLc (k : Core) (i : Nat) (x : LoopCtr) : (k.setLc i x).heads = k.heads := rfl
@[simp] theorem point_setLc (k : Core) (i : Nat) (x : LoopCtr) : (k.setLc i x).point = k.point := rfl
@[simp] theorem owner_setLc (k : Core) (i : Nat) (x : LoopCtr) : (k.setLc i x).owner = k.owner := rfl
@[simp] theorem winOpen_setLc (k : Core) (i : Nat) (x : LoopCtr) : (k.setLc i x).winOpen = k.winOpen := rfl
@[simp] theorem winReplayed_setLc (k : Core) (i : Nat) (x : LoopCtr) : (k.setLc i x).winReplayed = k.winReplayed := rfl
@[simp] theorem shadow_setLc (k : Core) (i : Nat) (x : LoopCtr) : (k.setLc i x).shadow = k.shadow := rfl
@[simp] theorem written_setLc (k : Core) (i : Nat) (x : LoopCtr) : (k.setLc i x).written = k.written := rfl
@[simp] theorem tainted_setLc (k : Core) (i : Nat) (x : LoopCtr) : (k.setLc i x).tainted = k.tainted := rfl
@[simp] theorem meter_setLc (k : Core) (i : Nat) (x : LoopCtr) : (k.setLc i x).meter = k.meter := rfl
@[simp] theorem excCause_setLc (k : Core) (i : Nat) (x : LoopCtr) : (k.setLc i x).excCause = k.excCause := rfl
@[simp] theorem excSlot_setLc (k : Core) (i : Nat) (x : LoopCtr) : (k.setLc i x).excSlot = k.excSlot := rfl
@[simp] theorem excPc_setLc (k : Core) (i : Nat) (x : LoopCtr) : (k.setLc i x).excPc = k.excPc := rfl
@[simp] theorem excValid_setLc (k : Core) (i : Nat) (x : LoopCtr) : (k.setLc i x).excValid = k.excValid := rfl
@[simp] theorem powered_setLc (k : Core) (i : Nat) (x : LoopCtr) : (k.setLc i x).powered = k.powered := rfl
@[simp] theorem before_setLc (k : Core) (i : Nat) (x : LoopCtr) : (k.setLc i x).before = k.before := rfl
@[simp] theorem replaying_setLc (k : Core) (i : Nat) (x : LoopCtr) : (k.setLc i x).replaying = k.replaying := rfl
@[simp] theorem replayLoads_setLc (k : Core) (i : Nat) (x : LoopCtr) : (k.setLc i x).replayLoads = k.replayLoads := rfl
@[simp] theorem imemUpset_setLc (k : Core) (i : Nat) (x : LoopCtr) : (k.setLc i x).imemUpset = k.imemUpset := rfl
@[simp] theorem regs_s_setLc (k : Core) (i : Nat) (x : LoopCtr) : (k.setLc i x).regs.s = k.regs.s := rfl
@[simp] theorem regs_a_setLc (k : Core) (i : Nat) (x : LoopCtr) : (k.setLc i x).regs.a = k.regs.a := rfl
@[simp] theorem regs_p_setLc (k : Core) (i : Nat) (x : LoopCtr) : (k.setLc i x).regs.p = k.regs.p := rfl
@[simp] theorem regs_ev_setLc (k : Core) (i : Nat) (x : LoopCtr) : (k.setLc i x).regs.ev = k.regs.ev := rfl
@[simp] theorem regs_fl_setLc (k : Core) (i : Nat) (x : LoopCtr) : (k.setLc i x).regs.fl = k.regs.fl := rfl
@[simp] theorem regs_pc_setLc (k : Core) (i : Nat) (x : LoopCtr) : (k.setLc i x).regs.pc = k.regs.pc := rfl
@[simp] theorem regs_satc_setLc (k : Core) (i : Nat) (x : LoopCtr) : (k.setLc i x).regs.satc = k.regs.satc := rfl
@[simp] theorem run_setEv (k : Core) (i : Nat) (x : BitVec 8) : (k.setEv i x).run = k.run := rfl
@[simp] theorem v_setEv (k : Core) (i : Nat) (x : BitVec 8) : (k.setEv i x).v = k.v := rfl
@[simp] theorem acc_setEv (k : Core) (i : Nat) (x : BitVec 8) : (k.setEv i x).acc = k.acc := rfl
@[simp] theorem accDom_setEv (k : Core) (i : Nat) (x : BitVec 8) : (k.setEv i x).accDom = k.accDom := rfl
@[simp] theorem loc_setEv (k : Core) (i : Nat) (x : BitVec 8) : (k.setEv i x).loc = k.loc := rfl
@[simp] theorem imem_setEv (k : Core) (i : Nat) (x : BitVec 8) : (k.setEv i x).imem = k.imem := rfl
@[simp] theorem retain_setEv (k : Core) (i : Nat) (x : BitVec 8) : (k.setEv i x).retain = k.retain := rfl
@[simp] theorem loadLog_setEv (k : Core) (i : Nat) (x : BitVec 8) : (k.setEv i x).loadLog = k.loadLog := rfl
@[simp] theorem pend_setEv (k : Core) (i : Nat) (x : BitVec 8) : (k.setEv i x).pend = k.pend := rfl
@[simp] theorem lastPc_setEv (k : Core) (i : Nat) (x : BitVec 8) : (k.setEv i x).lastPc = k.lastPc := rfl
@[simp] theorem early_setEv (k : Core) (i : Nat) (x : BitVec 8) : (k.setEv i x).early = k.early := rfl
@[simp] theorem wait_setEv (k : Core) (i : Nat) (x : BitVec 8) : (k.setEv i x).wait = k.wait := rfl
@[simp] theorem waitTick_setEv (k : Core) (i : Nat) (x : BitVec 8) : (k.setEv i x).waitTick = k.waitTick := rfl
@[simp] theorem heads_setEv (k : Core) (i : Nat) (x : BitVec 8) : (k.setEv i x).heads = k.heads := rfl
@[simp] theorem point_setEv (k : Core) (i : Nat) (x : BitVec 8) : (k.setEv i x).point = k.point := rfl
@[simp] theorem owner_setEv (k : Core) (i : Nat) (x : BitVec 8) : (k.setEv i x).owner = k.owner := rfl
@[simp] theorem winOpen_setEv (k : Core) (i : Nat) (x : BitVec 8) : (k.setEv i x).winOpen = k.winOpen := rfl
@[simp] theorem winReplayed_setEv (k : Core) (i : Nat) (x : BitVec 8) : (k.setEv i x).winReplayed = k.winReplayed := rfl
@[simp] theorem shadow_setEv (k : Core) (i : Nat) (x : BitVec 8) : (k.setEv i x).shadow = k.shadow := rfl
@[simp] theorem written_setEv (k : Core) (i : Nat) (x : BitVec 8) : (k.setEv i x).written = k.written := rfl
@[simp] theorem tainted_setEv (k : Core) (i : Nat) (x : BitVec 8) : (k.setEv i x).tainted = k.tainted := rfl
@[simp] theorem meter_setEv (k : Core) (i : Nat) (x : BitVec 8) : (k.setEv i x).meter = k.meter := rfl
@[simp] theorem excCause_setEv (k : Core) (i : Nat) (x : BitVec 8) : (k.setEv i x).excCause = k.excCause := rfl
@[simp] theorem excSlot_setEv (k : Core) (i : Nat) (x : BitVec 8) : (k.setEv i x).excSlot = k.excSlot := rfl
@[simp] theorem excPc_setEv (k : Core) (i : Nat) (x : BitVec 8) : (k.setEv i x).excPc = k.excPc := rfl
@[simp] theorem excValid_setEv (k : Core) (i : Nat) (x : BitVec 8) : (k.setEv i x).excValid = k.excValid := rfl
@[simp] theorem powered_setEv (k : Core) (i : Nat) (x : BitVec 8) : (k.setEv i x).powered = k.powered := rfl
@[simp] theorem before_setEv (k : Core) (i : Nat) (x : BitVec 8) : (k.setEv i x).before = k.before := rfl
@[simp] theorem replaying_setEv (k : Core) (i : Nat) (x : BitVec 8) : (k.setEv i x).replaying = k.replaying := rfl
@[simp] theorem replayLoads_setEv (k : Core) (i : Nat) (x : BitVec 8) : (k.setEv i x).replayLoads = k.replayLoads := rfl
@[simp] theorem imemUpset_setEv (k : Core) (i : Nat) (x : BitVec 8) : (k.setEv i x).imemUpset = k.imemUpset := rfl
@[simp] theorem regs_s_setEv (k : Core) (i : Nat) (x : BitVec 8) : (k.setEv i x).regs.s = k.regs.s := rfl
@[simp] theorem regs_a_setEv (k : Core) (i : Nat) (x : BitVec 8) : (k.setEv i x).regs.a = k.regs.a := rfl
@[simp] theorem regs_p_setEv (k : Core) (i : Nat) (x : BitVec 8) : (k.setEv i x).regs.p = k.regs.p := rfl
@[simp] theorem regs_lc_setEv (k : Core) (i : Nat) (x : BitVec 8) : (k.setEv i x).regs.lc = k.regs.lc := rfl
@[simp] theorem regs_fl_setEv (k : Core) (i : Nat) (x : BitVec 8) : (k.setEv i x).regs.fl = k.regs.fl := rfl
@[simp] theorem regs_pc_setEv (k : Core) (i : Nat) (x : BitVec 8) : (k.setEv i x).regs.pc = k.regs.pc := rfl
@[simp] theorem regs_satc_setEv (k : Core) (i : Nat) (x : BitVec 8) : (k.setEv i x).regs.satc = k.regs.satc := rfl
@[simp] theorem run_setLane (k : Core) (r l : Nat) (x : BitVec 32) : (k.setLane r l x).run = k.run := rfl
@[simp] theorem regs_setLane (k : Core) (r l : Nat) (x : BitVec 32) : (k.setLane r l x).regs = k.regs := rfl
@[simp] theorem acc_setLane (k : Core) (r l : Nat) (x : BitVec 32) : (k.setLane r l x).acc = k.acc := rfl
@[simp] theorem accDom_setLane (k : Core) (r l : Nat) (x : BitVec 32) : (k.setLane r l x).accDom = k.accDom := rfl
@[simp] theorem loc_setLane (k : Core) (r l : Nat) (x : BitVec 32) : (k.setLane r l x).loc = k.loc := rfl
@[simp] theorem imem_setLane (k : Core) (r l : Nat) (x : BitVec 32) : (k.setLane r l x).imem = k.imem := rfl
@[simp] theorem retain_setLane (k : Core) (r l : Nat) (x : BitVec 32) : (k.setLane r l x).retain = k.retain := rfl
@[simp] theorem loadLog_setLane (k : Core) (r l : Nat) (x : BitVec 32) : (k.setLane r l x).loadLog = k.loadLog := rfl
@[simp] theorem pend_setLane (k : Core) (r l : Nat) (x : BitVec 32) : (k.setLane r l x).pend = k.pend := rfl
@[simp] theorem lastPc_setLane (k : Core) (r l : Nat) (x : BitVec 32) : (k.setLane r l x).lastPc = k.lastPc := rfl
@[simp] theorem early_setLane (k : Core) (r l : Nat) (x : BitVec 32) : (k.setLane r l x).early = k.early := rfl
@[simp] theorem wait_setLane (k : Core) (r l : Nat) (x : BitVec 32) : (k.setLane r l x).wait = k.wait := rfl
@[simp] theorem waitTick_setLane (k : Core) (r l : Nat) (x : BitVec 32) : (k.setLane r l x).waitTick = k.waitTick := rfl
@[simp] theorem heads_setLane (k : Core) (r l : Nat) (x : BitVec 32) : (k.setLane r l x).heads = k.heads := rfl
@[simp] theorem point_setLane (k : Core) (r l : Nat) (x : BitVec 32) : (k.setLane r l x).point = k.point := rfl
@[simp] theorem owner_setLane (k : Core) (r l : Nat) (x : BitVec 32) : (k.setLane r l x).owner = k.owner := rfl
@[simp] theorem winOpen_setLane (k : Core) (r l : Nat) (x : BitVec 32) : (k.setLane r l x).winOpen = k.winOpen := rfl
@[simp] theorem winReplayed_setLane (k : Core) (r l : Nat) (x : BitVec 32) : (k.setLane r l x).winReplayed = k.winReplayed := rfl
@[simp] theorem shadow_setLane (k : Core) (r l : Nat) (x : BitVec 32) : (k.setLane r l x).shadow = k.shadow := rfl
@[simp] theorem written_setLane (k : Core) (r l : Nat) (x : BitVec 32) : (k.setLane r l x).written = k.written := rfl
@[simp] theorem tainted_setLane (k : Core) (r l : Nat) (x : BitVec 32) : (k.setLane r l x).tainted = k.tainted := rfl
@[simp] theorem meter_setLane (k : Core) (r l : Nat) (x : BitVec 32) : (k.setLane r l x).meter = k.meter := rfl
@[simp] theorem excCause_setLane (k : Core) (r l : Nat) (x : BitVec 32) : (k.setLane r l x).excCause = k.excCause := rfl
@[simp] theorem excSlot_setLane (k : Core) (r l : Nat) (x : BitVec 32) : (k.setLane r l x).excSlot = k.excSlot := rfl
@[simp] theorem excPc_setLane (k : Core) (r l : Nat) (x : BitVec 32) : (k.setLane r l x).excPc = k.excPc := rfl
@[simp] theorem excValid_setLane (k : Core) (r l : Nat) (x : BitVec 32) : (k.setLane r l x).excValid = k.excValid := rfl
@[simp] theorem powered_setLane (k : Core) (r l : Nat) (x : BitVec 32) : (k.setLane r l x).powered = k.powered := rfl
@[simp] theorem before_setLane (k : Core) (r l : Nat) (x : BitVec 32) : (k.setLane r l x).before = k.before := rfl
@[simp] theorem replaying_setLane (k : Core) (r l : Nat) (x : BitVec 32) : (k.setLane r l x).replaying = k.replaying := rfl
@[simp] theorem replayLoads_setLane (k : Core) (r l : Nat) (x : BitVec 32) : (k.setLane r l x).replayLoads = k.replayLoads := rfl
@[simp] theorem imemUpset_setLane (k : Core) (r l : Nat) (x : BitVec 32) : (k.setLane r l x).imemUpset = k.imemUpset := rfl
@[simp] theorem run_raise (k : Core) (f : BitVec 4) : (k.raise f).run = k.run := rfl
@[simp] theorem v_raise (k : Core) (f : BitVec 4) : (k.raise f).v = k.v := rfl
@[simp] theorem acc_raise (k : Core) (f : BitVec 4) : (k.raise f).acc = k.acc := rfl
@[simp] theorem accDom_raise (k : Core) (f : BitVec 4) : (k.raise f).accDom = k.accDom := rfl
@[simp] theorem loc_raise (k : Core) (f : BitVec 4) : (k.raise f).loc = k.loc := rfl
@[simp] theorem imem_raise (k : Core) (f : BitVec 4) : (k.raise f).imem = k.imem := rfl
@[simp] theorem retain_raise (k : Core) (f : BitVec 4) : (k.raise f).retain = k.retain := rfl
@[simp] theorem loadLog_raise (k : Core) (f : BitVec 4) : (k.raise f).loadLog = k.loadLog := rfl
@[simp] theorem pend_raise (k : Core) (f : BitVec 4) : (k.raise f).pend = k.pend := rfl
@[simp] theorem lastPc_raise (k : Core) (f : BitVec 4) : (k.raise f).lastPc = k.lastPc := rfl
@[simp] theorem early_raise (k : Core) (f : BitVec 4) : (k.raise f).early = k.early := rfl
@[simp] theorem wait_raise (k : Core) (f : BitVec 4) : (k.raise f).wait = k.wait := rfl
@[simp] theorem waitTick_raise (k : Core) (f : BitVec 4) : (k.raise f).waitTick = k.waitTick := rfl
@[simp] theorem heads_raise (k : Core) (f : BitVec 4) : (k.raise f).heads = k.heads := rfl
@[simp] theorem point_raise (k : Core) (f : BitVec 4) : (k.raise f).point = k.point := rfl
@[simp] theorem owner_raise (k : Core) (f : BitVec 4) : (k.raise f).owner = k.owner := rfl
@[simp] theorem winOpen_raise (k : Core) (f : BitVec 4) : (k.raise f).winOpen = k.winOpen := rfl
@[simp] theorem winReplayed_raise (k : Core) (f : BitVec 4) : (k.raise f).winReplayed = k.winReplayed := rfl
@[simp] theorem shadow_raise (k : Core) (f : BitVec 4) : (k.raise f).shadow = k.shadow := rfl
@[simp] theorem written_raise (k : Core) (f : BitVec 4) : (k.raise f).written = k.written := rfl
@[simp] theorem tainted_raise (k : Core) (f : BitVec 4) : (k.raise f).tainted = k.tainted := rfl
@[simp] theorem meter_raise (k : Core) (f : BitVec 4) : (k.raise f).meter = k.meter := rfl
@[simp] theorem excCause_raise (k : Core) (f : BitVec 4) : (k.raise f).excCause = k.excCause := rfl
@[simp] theorem excSlot_raise (k : Core) (f : BitVec 4) : (k.raise f).excSlot = k.excSlot := rfl
@[simp] theorem excPc_raise (k : Core) (f : BitVec 4) : (k.raise f).excPc = k.excPc := rfl
@[simp] theorem excValid_raise (k : Core) (f : BitVec 4) : (k.raise f).excValid = k.excValid := rfl
@[simp] theorem powered_raise (k : Core) (f : BitVec 4) : (k.raise f).powered = k.powered := rfl
@[simp] theorem before_raise (k : Core) (f : BitVec 4) : (k.raise f).before = k.before := rfl
@[simp] theorem replaying_raise (k : Core) (f : BitVec 4) : (k.raise f).replaying = k.replaying := rfl
@[simp] theorem replayLoads_raise (k : Core) (f : BitVec 4) : (k.raise f).replayLoads = k.replayLoads := rfl
@[simp] theorem imemUpset_raise (k : Core) (f : BitVec 4) : (k.raise f).imemUpset = k.imemUpset := rfl
@[simp] theorem regs_s_raise (k : Core) (f : BitVec 4) : (k.raise f).regs.s = k.regs.s := rfl
@[simp] theorem regs_a_raise (k : Core) (f : BitVec 4) : (k.raise f).regs.a = k.regs.a := rfl
@[simp] theorem regs_p_raise (k : Core) (f : BitVec 4) : (k.raise f).regs.p = k.regs.p := rfl
@[simp] theorem regs_lc_raise (k : Core) (f : BitVec 4) : (k.raise f).regs.lc = k.regs.lc := rfl
@[simp] theorem regs_ev_raise (k : Core) (f : BitVec 4) : (k.raise f).regs.ev = k.regs.ev := rfl
@[simp] theorem regs_pc_raise (k : Core) (f : BitVec 4) : (k.raise f).regs.pc = k.regs.pc := rfl
@[simp] theorem regs_satc_raise (k : Core) (f : BitVec 4) : (k.raise f).regs.satc = k.regs.satc := rfl
@[simp] theorem regs_fl_raise (k : Core) (f : BitVec 4) : (k.raise f).regs.fl = k.regs.fl ||| f := rfl

/-! ### A register read back -/

/-- What register j reads as after register i of the file s is written; the file has 32 registers. -/
theorem sreg_setS (k : Core) (i j : Nat) (x : BitVec 32) :
    (k.setS i x).sreg j = if i = j ∧ j < 32 then x else k.sreg j := by
  unfold Core.sreg Core.setS
  rw [Vector.getElem?_setIfInBounds]
  by_cases h : i = j
  · subst h
    by_cases h2 : i < 32
    · simp [h2]
    · simp [h2]
  · simp [h]

/-- What register j reads as after register i of the file a is written; the file has 16 registers. -/
theorem areg_setA (k : Core) (i j : Nat) (x : BitVec 40) :
    (k.setA i x).areg j = if i = j ∧ j < 16 then x else k.areg j := by
  unfold Core.areg Core.setA
  rw [Vector.getElem?_setIfInBounds]
  by_cases h : i = j
  · subst h
    by_cases h2 : i < 16
    · simp [h2]
    · simp [h2]
  · simp [h]

/-- What register j reads as after register i of the file p is written; the file has 8 registers. -/
theorem preg_setP (k : Core) (i j : Nat) (x : BitVec 128) :
    (k.setP i x).preg j = if i = j ∧ j < 8 then x else k.preg j := by
  unfold Core.preg Core.setP
  rw [Vector.getElem?_setIfInBounds]
  by_cases h : i = j
  · subst h
    by_cases h2 : i < 8
    · simp [h2]
    · simp [h2]
  · simp [h]

/-- What register j reads as after register i of the file lc is written; the file has 4 registers. -/
theorem lcreg_setLc (k : Core) (i j : Nat) (x : LoopCtr) :
    (k.setLc i x).lcreg j = if i = j ∧ j < 4 then x else k.lcreg j := by
  unfold Core.lcreg Core.setLc
  rw [Vector.getElem?_setIfInBounds]
  by_cases h : i = j
  · subst h
    by_cases h2 : i < 4
    · simp [h2]
    · simp [h2]
  · simp [h]

/-- What register j reads as after register i of the file ev is written; the file has 16 registers. -/
theorem evreg_setEv (k : Core) (i j : Nat) (x : BitVec 8) :
    (k.setEv i x).evreg j = if i = j ∧ j < 16 then x else k.evreg j := by
  unfold Core.evreg Core.setEv
  rw [Vector.getElem?_setIfInBounds]
  by_cases h : i = j
  · subst h
    by_cases h2 : i < 16
    · simp [h2]
    · simp [h2]
  · simp [h]

/-! ### Commands out of reset and applied writes -/

/-- In reset a command that runs in service changes nothing. -/
theorem inService_reset (s : State) (f : State → State) (h : s.sys.inReset = true) : inService s f = s := by
  simp [inService, h]

/-- Out of reset it has its effect. -/
theorem inService_live (s : State) (f : State → State) (h : s.sys.inReset = false) : inService s f = f s := by
  simp [inService, h]

/-- A write row whose word stands at the head of the write buffer takes the word and has its effect (R634). -/
theorem applied_head (addr : Nat) (v : Word) (f : State → State) (s : State) (rest : List (Nat × Word))
    (h : s.host.wbuf = (addr, v) :: rest) : applied addr v f s = f { s with host := { s.host with wbuf := rest } } := by
  simp [applied, h]

/-- A write row whose word does not stand there changes nothing (R634). -/
theorem applied_other (addr : Nat) (v : Word) (f : State → State) (s : State)
    (h : s.host.wbuf.head? ≠ some (addr, v)) : applied addr v f s = s := by
  unfold applied
  split
  · rename_i a w rest hw
    rw [hw] at h
    rw [if_neg]
    intro hc
    simp only [Bool.and_eq_true, decide_eq_true_eq] at hc
    rw [hc.1, hc.2] at h
    exact h rfl
  · rfl

/-- Everything an applied write can do. -/
theorem applied_cases (addr : Nat) (v : Word) (f : State → State) (s : State) :
    applied addr v f s = s ∨
      ∃ rest, s.host.wbuf = (addr, v) :: rest ∧ applied addr v f s = f { s with host := { s.host with wbuf := rest } } := by
  by_cases h : s.host.wbuf.head? = some (addr, v)
  · obtain ⟨rest, hr⟩ := List.head?_eq_some_iff.mp h
    exact .inr ⟨rest, hr, applied_head addr v f s rest hr⟩
  · exact .inl (applied_other addr v f s h)

end Sys2Proof.Machine
end

