-- ==== Sys2Proof/Laws/Events.lean ====
section
/-! SUPPORT. Laws/Events.lean: what the operations that report (the event log, alarms, records) can do to the state, said once. -/
namespace Sys2Proof.Machine
open Sys2Proof

/-! ### The event log -/

/-- Everything an entry of the event log does: it joins the write engine's queue, or it is suppressed and counted (R624, R625). -/
theorem logEntry_cases (e : LogInfo) (s : State) :
    (∃ er, logEntry e s = { s with strand := { s.strand with logQueue := s.strand.logQueue ++ [s.logBody e] }, err := er }) ∨
    (∃ er, logEntry e s = { s with err := er }) := by
  unfold logEntry
  by_cases h : e.cls = 3 ∨ e.cls = 4
  · rw [if_pos h]; exact .inl ⟨s.err, rfl⟩
  · rw [if_neg h]
    dsimp only
    split
    · exact .inr ⟨_, rfl⟩
    · exact .inl ⟨_, rfl⟩

@[simp] theorem pending_logEntry (e : LogInfo) (s : State) : (logEntry e s).pending = s.pending := by
  rcases logEntry_cases e s with ⟨_, h⟩ | ⟨_, h⟩ <;> rw [h]
@[simp] theorem sys_logEntry (e : LogInfo) (s : State) : (logEntry e s).sys = s.sys := by
  rcases logEntry_cases e s with ⟨_, h⟩ | ⟨_, h⟩ <;> rw [h]
@[simp] theorem tide_logEntry (e : LogInfo) (s : State) : (logEntry e s).tide = s.tide := by
  rcases logEntry_cases e s with ⟨_, h⟩ | ⟨_, h⟩ <;> rw [h]
@[simp] theorem otp_logEntry (e : LogInfo) (s : State) : (logEntry e s).otp = s.otp := by
  rcases logEntry_cases e s with ⟨_, h⟩ | ⟨_, h⟩ <;> rw [h]
@[simp] theorem image_logEntry (e : LogInfo) (s : State) : (logEntry e s).image = s.image := by
  rcases logEntry_cases e s with ⟨_, h⟩ | ⟨_, h⟩ <;> rw [h]
@[simp] theorem pix_logEntry (e : LogInfo) (s : State) : (logEntry e s).pix = s.pix := by
  rcases logEntry_cases e s with ⟨_, h⟩ | ⟨_, h⟩ <;> rw [h]
@[simp] theorem adc_logEntry (e : LogInfo) (s : State) : (logEntry e s).adc = s.adc := by
  rcases logEntry_cases e s with ⟨_, h⟩ | ⟨_, h⟩ <;> rw [h]
@[simp] theorem stem_logEntry (e : LogInfo) (s : State) : (logEntry e s).stem = s.stem := by
  rcases logEntry_cases e s with ⟨_, h⟩ | ⟨_, h⟩ <;> rw [h]
@[simp] theorem core0_logEntry (e : LogInfo) (s : State) : (logEntry e s).core0 = s.core0 := by
  rcases logEntry_cases e s with ⟨_, h⟩ | ⟨_, h⟩ <;> rw [h]
@[simp] theorem core1_logEntry (e : LogInfo) (s : State) : (logEntry e s).core1 = s.core1 := by
  rcases logEntry_cases e s with ⟨_, h⟩ | ⟨_, h⟩ <;> rw [h]
@[simp] theorem core2_logEntry (e : LogInfo) (s : State) : (logEntry e s).core2 = s.core2 := by
  rcases logEntry_cases e s with ⟨_, h⟩ | ⟨_, h⟩ <;> rw [h]
@[simp] theorem core3_logEntry (e : LogInfo) (s : State) : (logEntry e s).core3 = s.core3 := by
  rcases logEntry_cases e s with ⟨_, h⟩ | ⟨_, h⟩ <;> rw [h]
@[simp] theorem harbour_logEntry (e : LogInfo) (s : State) : (logEntry e s).harbour = s.harbour := by
  rcases logEntry_cases e s with ⟨_, h⟩ | ⟨_, h⟩ <;> rw [h]
@[simp] theorem sram_logEntry (e : LogInfo) (s : State) : (logEntry e s).sram = s.sram := by
  rcases logEntry_cases e s with ⟨_, h⟩ | ⟨_, h⟩ <;> rw [h]
@[simp] theorem watches_logEntry (e : LogInfo) (s : State) : (logEntry e s).watches = s.watches := by
  rcases logEntry_cases e s with ⟨_, h⟩ | ⟨_, h⟩ <;> rw [h]
@[simp] theorem tableBuilt_logEntry (e : LogInfo) (s : State) : (logEntry e s).tableBuilt = s.tableBuilt := by
  rcases logEntry_cases e s with ⟨_, h⟩ | ⟨_, h⟩ <;> rw [h]
@[simp] theorem nextOrder_logEntry (e : LogInfo) (s : State) : (logEntry e s).nextOrder = s.nextOrder := by
  rcases logEntry_cases e s with ⟨_, h⟩ | ⟨_, h⟩ <;> rw [h]
@[simp] theorem ownerSrc_logEntry (e : LogInfo) (s : State) : (logEntry e s).ownerSrc = s.ownerSrc := by
  rcases logEntry_cases e s with ⟨_, h⟩ | ⟨_, h⟩ <;> rw [h]
@[simp] theorem shutdown_logEntry (e : LogInfo) (s : State) : (logEntry e s).shutdown = s.shutdown := by
  rcases logEntry_cases e s with ⟨_, h⟩ | ⟨_, h⟩ <;> rw [h]
@[simp] theorem stopping_logEntry (e : LogInfo) (s : State) : (logEntry e s).stopping = s.stopping := by
  rcases logEntry_cases e s with ⟨_, h⟩ | ⟨_, h⟩ <;> rw [h]
@[simp] theorem cw_logEntry (e : LogInfo) (s : State) : (logEntry e s).cw = s.cw := by
  rcases logEntry_cases e s with ⟨_, h⟩ | ⟨_, h⟩ <;> rw [h]
@[simp] theorem host_logEntry (e : LogInfo) (s : State) : (logEntry e s).host = s.host := by
  rcases logEntry_cases e s with ⟨_, h⟩ | ⟨_, h⟩ <;> rw [h]
@[simp] theorem gpio_logEntry (e : LogInfo) (s : State) : (logEntry e s).gpio = s.gpio := by
  rcases logEntry_cases e s with ⟨_, h⟩ | ⟨_, h⟩ <;> rw [h]
@[simp] theorem tap_logEntry (e : LogInfo) (s : State) : (logEntry e s).tap = s.tap := by
  rcases logEntry_cases e s with ⟨_, h⟩ | ⟨_, h⟩ <;> rw [h]
@[simp] theorem fresh_logEntry (e : LogInfo) (s : State) : (logEntry e s).fresh = s.fresh := by
  rcases logEntry_cases e s with ⟨_, h⟩ | ⟨_, h⟩ <;> rw [h]
@[simp] theorem free_logEntry (e : LogInfo) (s : State) : (logEntry e s).free = s.free := by
  rcases logEntry_cases e s with ⟨_, h⟩ | ⟨_, h⟩ <;> rw [h]
@[simp] theorem strand_data_logEntry (e : LogInfo) (s : State) : (logEntry e s).strand.data = s.strand.data := by
  rcases logEntry_cases e s with ⟨_, h⟩ | ⟨_, h⟩ <;> rw [h]
@[simp] theorem strand_commits_logEntry (e : LogInfo) (s : State) : (logEntry e s).strand.commits = s.strand.commits := by
  rcases logEntry_cases e s with ⟨_, h⟩ | ⟨_, h⟩ <;> rw [h]
@[simp] theorem strand_run_logEntry (e : LogInfo) (s : State) : (logEntry e s).strand.run = s.strand.run := by
  rcases logEntry_cases e s with ⟨_, h⟩ | ⟨_, h⟩ <;> rw [h]
@[simp] theorem strand_writing_logEntry (e : LogInfo) (s : State) : (logEntry e s).strand.writing = s.strand.writing := by
  rcases logEntry_cases e s with ⟨_, h⟩ | ⟨_, h⟩ <;> rw [h]
@[simp] theorem strand_recovered_logEntry (e : LogInfo) (s : State) : (logEntry e s).strand.recovered = s.strand.recovered := by
  rcases logEntry_cases e s with ⟨_, h⟩ | ⟨_, h⟩ <;> rw [h]
@[simp] theorem strand_inForce_logEntry (e : LogInfo) (s : State) : (logEntry e s).strand.inForce = s.strand.inForce := by
  rcases logEntry_cases e s with ⟨_, h⟩ | ⟨_, h⟩ <;> rw [h]
@[simp] theorem strand_fallback_logEntry (e : LogInfo) (s : State) : (logEntry e s).strand.fallback = s.strand.fallback := by
  rcases logEntry_cases e s with ⟨_, h⟩ | ⟨_, h⟩ <;> rw [h]
@[simp] theorem strand_calSrc_logEntry (e : LogInfo) (s : State) : (logEntry e s).strand.calSrc = s.strand.calSrc := by
  rcases logEntry_cases e s with ⟨_, h⟩ | ⟨_, h⟩ <;> rw [h]
@[simp] theorem strand_cal_logEntry (e : LogInfo) (s : State) : (logEntry e s).strand.cal = s.strand.cal := by
  rcases logEntry_cases e s with ⟨_, h⟩ | ⟨_, h⟩ <;> rw [h]
@[simp] theorem strand_units_logEntry (e : LogInfo) (s : State) : (logEntry e s).strand.units = s.strand.units := by
  rcases logEntry_cases e s with ⟨_, h⟩ | ⟨_, h⟩ <;> rw [h]
@[simp] theorem strand_verifyFails_logEntry (e : LogInfo) (s : State) : (logEntry e s).strand.verifyFails = s.strand.verifyFails := by
  rcases logEntry_cases e s with ⟨_, h⟩ | ⟨_, h⟩ <;> rw [h]
@[simp] theorem strand_commitFails_logEntry (e : LogInfo) (s : State) : (logEntry e s).strand.commitFails = s.strand.commitFails := by
  rcases logEntry_cases e s with ⟨_, h⟩ | ⟨_, h⟩ <;> rw [h]
@[simp] theorem strand_learn_logEntry (e : LogInfo) (s : State) : (logEntry e s).strand.learn = s.strand.learn := by
  rcases logEntry_cases e s with ⟨_, h⟩ | ⟨_, h⟩ <;> rw [h]
@[simp] theorem strand_samples_logEntry (e : LogInfo) (s : State) : (logEntry e s).strand.samples = s.strand.samples := by
  rcases logEntry_cases e s with ⟨_, h⟩ | ⟨_, h⟩ <;> rw [h]
@[simp] theorem strand_capStatus_logEntry (e : LogInfo) (s : State) : (logEntry e s).strand.capStatus = s.strand.capStatus := by
  rcases logEntry_cases e s with ⟨_, h⟩ | ⟨_, h⟩ <;> rw [h]
@[simp] theorem strand_lastUf_logEntry (e : LogInfo) (s : State) : (logEntry e s).strand.lastUf = s.strand.lastUf := by
  rcases logEntry_cases e s with ⟨_, h⟩ | ⟨_, h⟩ <;> rw [h]

@[simp] theorem core_logEntry (e : LogInfo) (s : State) (c : Fin 4) : (logEntry e s).core c = s.core c := by
  rcases logEntry_cases e s with ⟨_, h⟩ | ⟨_, h⟩ <;> rw [h] <;> fin_cases c <;> rfl

/-! ### Alarms -/

/-- A cause writes an entry of class 5, sets its bit, and sets the ALARM source when no cause was set (R624, R712, R720, R721). -/
theorem raiseAlarmAt_eq (src b : Nat) (s : State) :
    raiseAlarmAt src b s =
      { logEntry { cls := 5, source := src, code := b } s with
        sys := { s.sys with alarm := s.sys.alarm ||| BitVec.ofNat 11 (2 ^ b) },
        host := { s.host with irq := s.host.irq ||| if s.sys.alarm = 0 then 0b0100 else 0 },
        fresh := { s.fresh with alarm := s.fresh.alarm ||| BitVec.ofNat 11 (2 ^ b),
                                irq := s.fresh.irq ||| if s.sys.alarm = 0 then 0b0100 else 0 } } := by
  unfold raiseAlarmAt
  simp

@[simp] theorem fresh_pil_raiseAlarmAt (src b : Nat) (s : State) : (raiseAlarmAt src b s).fresh.pil = s.fresh.pil := by
  rw [raiseAlarmAt_eq src b s]
@[simp] theorem fresh_lines_raiseAlarmAt (src b : Nat) (s : State) : (raiseAlarmAt src b s).fresh.lines = s.fresh.lines := by
  rw [raiseAlarmAt_eq src b s]
@[simp] theorem fresh_mismatch_raiseAlarmAt (src b : Nat) (s : State) : (raiseAlarmAt src b s).fresh.mismatch = s.fresh.mismatch := by
  rw [raiseAlarmAt_eq src b s]
@[simp] theorem fresh_learn_raiseAlarmAt (src b : Nat) (s : State) : (raiseAlarmAt src b s).fresh.learn = s.fresh.learn := by
  rw [raiseAlarmAt_eq src b s]
@[simp] theorem fresh_iepe_raiseAlarmAt (src b : Nat) (s : State) : (raiseAlarmAt src b s).fresh.iepe = s.fresh.iepe := by
  rw [raiseAlarmAt_eq src b s]

@[simp] theorem pending_raiseAlarmAt (src b : Nat) (s : State) : (raiseAlarmAt src b s).pending = s.pending := by
  rw [raiseAlarmAt_eq src b s]; simp
@[simp] theorem tide_raiseAlarmAt (src b : Nat) (s : State) : (raiseAlarmAt src b s).tide = s.tide := by
  rw [raiseAlarmAt_eq src b s]; simp
@[simp] theorem otp_raiseAlarmAt (src b : Nat) (s : State) : (raiseAlarmAt src b s).otp = s.otp := by
  rw [raiseAlarmAt_eq src b s]; simp
@[simp] theorem image_raiseAlarmAt (src b : Nat) (s : State) : (raiseAlarmAt src b s).image = s.image := by
  rw [raiseAlarmAt_eq src b s]; simp
@[simp] theorem pix_raiseAlarmAt (src b : Nat) (s : State) : (raiseAlarmAt src b s).pix = s.pix := by
  rw [raiseAlarmAt_eq src b s]; simp
@[simp] theorem adc_raiseAlarmAt (src b : Nat) (s : State) : (raiseAlarmAt src b s).adc = s.adc := by
  rw [raiseAlarmAt_eq src b s]; simp
@[simp] theorem stem_raiseAlarmAt (src b : Nat) (s : State) : (raiseAlarmAt src b s).stem = s.stem := by
  rw [raiseAlarmAt_eq src b s]; simp
@[simp] theorem core0_raiseAlarmAt (src b : Nat) (s : State) : (raiseAlarmAt src b s).core0 = s.core0 := by
  rw [raiseAlarmAt_eq src b s]; simp
@[simp] theorem core1_raiseAlarmAt (src b : Nat) (s : State) : (raiseAlarmAt src b s).core1 = s.core1 := by
  rw [raiseAlarmAt_eq src b s]; simp
@[simp] theorem core2_raiseAlarmAt (src b : Nat) (s : State) : (raiseAlarmAt src b s).core2 = s.core2 := by
  rw [raiseAlarmAt_eq src b s]; simp
@[simp] theorem core3_raiseAlarmAt (src b : Nat) (s : State) : (raiseAlarmAt src b s).core3 = s.core3 := by
  rw [raiseAlarmAt_eq src b s]; simp
@[simp] theorem harbour_raiseAlarmAt (src b : Nat) (s : State) : (raiseAlarmAt src b s).harbour = s.harbour := by
  rw [raiseAlarmAt_eq src b s]; simp
@[simp] theorem sram_raiseAlarmAt (src b : Nat) (s : State) : (raiseAlarmAt src b s).sram = s.sram := by
  rw [raiseAlarmAt_eq src b s]; simp
@[simp] theorem watches_raiseAlarmAt (src b : Nat) (s : State) : (raiseAlarmAt src b s).watches = s.watches := by
  rw [raiseAlarmAt_eq src b s]; simp
@[simp] theorem tableBuilt_raiseAlarmAt (src b : Nat) (s : State) : (raiseAlarmAt src b s).tableBuilt = s.tableBuilt := by
  rw [raiseAlarmAt_eq src b s]; simp
@[simp] theorem nextOrder_raiseAlarmAt (src b : Nat) (s : State) : (raiseAlarmAt src b s).nextOrder = s.nextOrder := by
  rw [raiseAlarmAt_eq src b s]; simp
@[simp] theorem ownerSrc_raiseAlarmAt (src b : Nat) (s : State) : (raiseAlarmAt src b s).ownerSrc = s.ownerSrc := by
  rw [raiseAlarmAt_eq src b s]; simp
@[simp] theorem shutdown_raiseAlarmAt (src b : Nat) (s : State) : (raiseAlarmAt src b s).shutdown = s.shutdown := by
  rw [raiseAlarmAt_eq src b s]; simp
@[simp] theorem stopping_raiseAlarmAt (src b : Nat) (s : State) : (raiseAlarmAt src b s).stopping = s.stopping := by
  rw [raiseAlarmAt_eq src b s]; simp
@[simp] theorem cw_raiseAlarmAt (src b : Nat) (s : State) : (raiseAlarmAt src b s).cw = s.cw := by
  rw [raiseAlarmAt_eq src b s]; simp
@[simp] theorem gpio_raiseAlarmAt (src b : Nat) (s : State) : (raiseAlarmAt src b s).gpio = s.gpio := by
  rw [raiseAlarmAt_eq src b s]; simp
@[simp] theorem tap_raiseAlarmAt (src b : Nat) (s : State) : (raiseAlarmAt src b s).tap = s.tap := by
  rw [raiseAlarmAt_eq src b s]; simp
@[simp] theorem free_raiseAlarmAt (src b : Nat) (s : State) : (raiseAlarmAt src b s).free = s.free := by
  rw [raiseAlarmAt_eq src b s]; simp
@[simp] theorem sys_tick_raiseAlarmAt (src b : Nat) (s : State) : (raiseAlarmAt src b s).sys.tick = s.sys.tick := by
  rw [raiseAlarmAt_eq src b s]
@[simp] theorem sys_inReset_raiseAlarmAt (src b : Nat) (s : State) : (raiseAlarmAt src b s).sys.inReset = s.sys.inReset := by
  rw [raiseAlarmAt_eq src b s]
@[simp] theorem sys_asserted_raiseAlarmAt (src b : Nat) (s : State) : (raiseAlarmAt src b s).sys.asserted = s.sys.asserted := by
  rw [raiseAlarmAt_eq src b s]
@[simp] theorem sys_delayed_raiseAlarmAt (src b : Nat) (s : State) : (raiseAlarmAt src b s).sys.delayed = s.sys.delayed := by
  rw [raiseAlarmAt_eq src b s]
@[simp] theorem sys_fatalPending_raiseAlarmAt (src b : Nat) (s : State) : (raiseAlarmAt src b s).sys.fatalPending = s.sys.fatalPending := by
  rw [raiseAlarmAt_eq src b s]
@[simp] theorem sys_resetCause_raiseAlarmAt (src b : Nat) (s : State) : (raiseAlarmAt src b s).sys.resetCause = s.sys.resetCause := by
  rw [raiseAlarmAt_eq src b s]
@[simp] theorem sys_fatalCode_raiseAlarmAt (src b : Nat) (s : State) : (raiseAlarmAt src b s).sys.fatalCode = s.sys.fatalCode := by
  rw [raiseAlarmAt_eq src b s]
@[simp] theorem sys_loopCount_raiseAlarmAt (src b : Nat) (s : State) : (raiseAlarmAt src b s).sys.loopCount = s.sys.loopCount := by
  rw [raiseAlarmAt_eq src b s]
@[simp] theorem sys_firstNeapDue_raiseAlarmAt (src b : Nat) (s : State) : (raiseAlarmAt src b s).sys.firstNeapDue = s.sys.firstNeapDue := by
  rw [raiseAlarmAt_eq src b s]
@[simp] theorem sys_straps_raiseAlarmAt (src b : Nat) (s : State) : (raiseAlarmAt src b s).sys.straps = s.sys.straps := by
  rw [raiseAlarmAt_eq src b s]
@[simp] theorem sys_stage_raiseAlarmAt (src b : Nat) (s : State) : (raiseAlarmAt src b s).sys.stage = s.sys.stage := by
  rw [raiseAlarmAt_eq src b s]
@[simp] theorem sys_fail_raiseAlarmAt (src b : Nat) (s : State) : (raiseAlarmAt src b s).sys.fail = s.sys.fail := by
  rw [raiseAlarmAt_eq src b s]
@[simp] theorem sys_flashMode_raiseAlarmAt (src b : Nat) (s : State) : (raiseAlarmAt src b s).sys.flashMode = s.sys.flashMode := by
  rw [raiseAlarmAt_eq src b s]
@[simp] theorem sys_addr4_raiseAlarmAt (src b : Nat) (s : State) : (raiseAlarmAt src b s).sys.addr4 = s.sys.addr4 := by
  rw [raiseAlarmAt_eq src b s]
@[simp] theorem sys_recopied_raiseAlarmAt (src b : Nat) (s : State) : (raiseAlarmAt src b s).sys.recopied = s.sys.recopied := by
  rw [raiseAlarmAt_eq src b s]
@[simp] theorem sys_bootMs_raiseAlarmAt (src b : Nat) (s : State) : (raiseAlarmAt src b s).sys.bootMs = s.sys.bootMs := by
  rw [raiseAlarmAt_eq src b s]
@[simp] theorem sys_releaseTick_raiseAlarmAt (src b : Nat) (s : State) : (raiseAlarmAt src b s).sys.releaseTick = s.sys.releaseTick := by
  rw [raiseAlarmAt_eq src b s]
@[simp] theorem sys_hostAnswers_raiseAlarmAt (src b : Nat) (s : State) : (raiseAlarmAt src b s).sys.hostAnswers = s.sys.hostAnswers := by
  rw [raiseAlarmAt_eq src b s]
@[simp] theorem sys_wdtArmed_raiseAlarmAt (src b : Nat) (s : State) : (raiseAlarmAt src b s).sys.wdtArmed = s.sys.wdtArmed := by
  rw [raiseAlarmAt_eq src b s]
@[simp] theorem sys_unitResets_raiseAlarmAt (src b : Nat) (s : State) : (raiseAlarmAt src b s).sys.unitResets = s.sys.unitResets := by
  rw [raiseAlarmAt_eq src b s]
@[simp] theorem sys_resetting_raiseAlarmAt (src b : Nat) (s : State) : (raiseAlarmAt src b s).sys.resetting = s.sys.resetting := by
  rw [raiseAlarmAt_eq src b s]
@[simp] theorem host_i2cNext_raiseAlarmAt (src b : Nat) (s : State) : (raiseAlarmAt src b s).host.i2cNext = s.host.i2cNext := by
  rw [raiseAlarmAt_eq src b s]
@[simp] theorem host_wbuf_raiseAlarmAt (src b : Nat) (s : State) : (raiseAlarmAt src b s).host.wbuf = s.host.wbuf := by
  rw [raiseAlarmAt_eq src b s]
@[simp] theorem host_out_raiseAlarmAt (src b : Nat) (s : State) : (raiseAlarmAt src b s).host.out = s.host.out := by
  rw [raiseAlarmAt_eq src b s]
@[simp] theorem host_stream_raiseAlarmAt (src b : Nat) (s : State) : (raiseAlarmAt src b s).host.stream = s.host.stream := by
  rw [raiseAlarmAt_eq src b s]
@[simp] theorem host_outbox_raiseAlarmAt (src b : Nat) (s : State) : (raiseAlarmAt src b s).host.outbox = s.host.outbox := by
  rw [raiseAlarmAt_eq src b s]
@[simp] theorem host_backlog_raiseAlarmAt (src b : Nat) (s : State) : (raiseAlarmAt src b s).host.backlog = s.host.backlog := by
  rw [raiseAlarmAt_eq src b s]
@[simp] theorem host_held_raiseAlarmAt (src b : Nat) (s : State) : (raiseAlarmAt src b s).host.held = s.host.held := by
  rw [raiseAlarmAt_eq src b s]
@[simp] theorem host_noWatchSeq_raiseAlarmAt (src b : Nat) (s : State) : (raiseAlarmAt src b s).host.noWatchSeq = s.host.noWatchSeq := by
  rw [raiseAlarmAt_eq src b s]
@[simp] theorem host_thresh_raiseAlarmAt (src b : Nat) (s : State) : (raiseAlarmAt src b s).host.thresh = s.host.thresh := by
  rw [raiseAlarmAt_eq src b s]
@[simp] theorem host_irqEn_raiseAlarmAt (src b : Nat) (s : State) : (raiseAlarmAt src b s).host.irqEn = s.host.irqEn := by
  rw [raiseAlarmAt_eq src b s]
@[simp] theorem host_pulse_raiseAlarmAt (src b : Nat) (s : State) : (raiseAlarmAt src b s).host.pulse = s.host.pulse := by
  rw [raiseAlarmAt_eq src b s]
@[simp] theorem host_activeHigh_raiseAlarmAt (src b : Nat) (s : State) : (raiseAlarmAt src b s).host.activeHigh = s.host.activeHigh := by
  rw [raiseAlarmAt_eq src b s]
@[simp] theorem host_irqReg_raiseAlarmAt (src b : Nat) (s : State) : (raiseAlarmAt src b s).host.irqReg = s.host.irqReg := by
  rw [raiseAlarmAt_eq src b s]
@[simp] theorem host_pulseEnd_raiseAlarmAt (src b : Nat) (s : State) : (raiseAlarmAt src b s).host.pulseEnd = s.host.pulseEnd := by
  rw [raiseAlarmAt_eq src b s]
@[simp] theorem host_lostRecords_raiseAlarmAt (src b : Nat) (s : State) : (raiseAlarmAt src b s).host.lostRecords = s.host.lostRecords := by
  rw [raiseAlarmAt_eq src b s]
@[simp] theorem host_lostMerges_raiseAlarmAt (src b : Nat) (s : State) : (raiseAlarmAt src b s).host.lostMerges = s.host.lostMerges := by
  rw [raiseAlarmAt_eq src b s]
@[simp] theorem host_aborted_raiseAlarmAt (src b : Nat) (s : State) : (raiseAlarmAt src b s).host.aborted = s.host.aborted := by
  rw [raiseAlarmAt_eq src b s]
@[simp] theorem host_badCmd_raiseAlarmAt (src b : Nat) (s : State) : (raiseAlarmAt src b s).host.badCmd = s.host.badCmd := by
  rw [raiseAlarmAt_eq src b s]
@[simp] theorem host_wrDropped_raiseAlarmAt (src b : Nat) (s : State) : (raiseAlarmAt src b s).host.wrDropped = s.host.wrDropped := by
  rw [raiseAlarmAt_eq src b s]
@[simp] theorem host_wrIgnored_raiseAlarmAt (src b : Nat) (s : State) : (raiseAlarmAt src b s).host.wrIgnored = s.host.wrIgnored := by
  rw [raiseAlarmAt_eq src b s]
@[simp] theorem host_mbx_raiseAlarmAt (src b : Nat) (s : State) : (raiseAlarmAt src b s).host.mbx = s.host.mbx := by
  rw [raiseAlarmAt_eq src b s]
@[simp] theorem host_mbxRun_raiseAlarmAt (src b : Nat) (s : State) : (raiseAlarmAt src b s).host.mbxRun = s.host.mbxRun := by
  rw [raiseAlarmAt_eq src b s]
@[simp] theorem host_mbxArgs_raiseAlarmAt (src b : Nat) (s : State) : (raiseAlarmAt src b s).host.mbxArgs = s.host.mbxArgs := by
  rw [raiseAlarmAt_eq src b s]
@[simp] theorem host_mbxCode_raiseAlarmAt (src b : Nat) (s : State) : (raiseAlarmAt src b s).host.mbxCode = s.host.mbxCode := by
  rw [raiseAlarmAt_eq src b s]
@[simp] theorem host_mbxLastCmd_raiseAlarmAt (src b : Nat) (s : State) : (raiseAlarmAt src b s).host.mbxLastCmd = s.host.mbxLastCmd := by
  rw [raiseAlarmAt_eq src b s]
@[simp] theorem host_mbxTag_raiseAlarmAt (src b : Nat) (s : State) : (raiseAlarmAt src b s).host.mbxTag = s.host.mbxTag := by
  rw [raiseAlarmAt_eq src b s]
@[simp] theorem host_mbxDropped_raiseAlarmAt (src b : Nat) (s : State) : (raiseAlarmAt src b s).host.mbxDropped = s.host.mbxDropped := by
  rw [raiseAlarmAt_eq src b s]
@[simp] theorem host_mbxDone_raiseAlarmAt (src b : Nat) (s : State) : (raiseAlarmAt src b s).host.mbxDone = s.host.mbxDone := by
  rw [raiseAlarmAt_eq src b s]
@[simp] theorem host_mbxData_raiseAlarmAt (src b : Nat) (s : State) : (raiseAlarmAt src b s).host.mbxData = s.host.mbxData := by
  rw [raiseAlarmAt_eq src b s]
@[simp] theorem strand_data_raiseAlarmAt (src b : Nat) (s : State) : (raiseAlarmAt src b s).strand.data = s.strand.data := by
  rw [raiseAlarmAt_eq src b s]; simp
@[simp] theorem strand_commits_raiseAlarmAt (src b : Nat) (s : State) : (raiseAlarmAt src b s).strand.commits = s.strand.commits := by
  rw [raiseAlarmAt_eq src b s]; simp
@[simp] theorem strand_run_raiseAlarmAt (src b : Nat) (s : State) : (raiseAlarmAt src b s).strand.run = s.strand.run := by
  rw [raiseAlarmAt_eq src b s]; simp
@[simp] theorem strand_writing_raiseAlarmAt (src b : Nat) (s : State) : (raiseAlarmAt src b s).strand.writing = s.strand.writing := by
  rw [raiseAlarmAt_eq src b s]; simp
@[simp] theorem strand_recovered_raiseAlarmAt (src b : Nat) (s : State) : (raiseAlarmAt src b s).strand.recovered = s.strand.recovered := by
  rw [raiseAlarmAt_eq src b s]; simp
@[simp] theorem strand_inForce_raiseAlarmAt (src b : Nat) (s : State) : (raiseAlarmAt src b s).strand.inForce = s.strand.inForce := by
  rw [raiseAlarmAt_eq src b s]; simp
@[simp] theorem strand_fallback_raiseAlarmAt (src b : Nat) (s : State) : (raiseAlarmAt src b s).strand.fallback = s.strand.fallback := by
  rw [raiseAlarmAt_eq src b s]; simp
@[simp] theorem strand_calSrc_raiseAlarmAt (src b : Nat) (s : State) : (raiseAlarmAt src b s).strand.calSrc = s.strand.calSrc := by
  rw [raiseAlarmAt_eq src b s]; simp
@[simp] theorem strand_cal_raiseAlarmAt (src b : Nat) (s : State) : (raiseAlarmAt src b s).strand.cal = s.strand.cal := by
  rw [raiseAlarmAt_eq src b s]; simp
@[simp] theorem strand_units_raiseAlarmAt (src b : Nat) (s : State) : (raiseAlarmAt src b s).strand.units = s.strand.units := by
  rw [raiseAlarmAt_eq src b s]; simp
@[simp] theorem strand_verifyFails_raiseAlarmAt (src b : Nat) (s : State) : (raiseAlarmAt src b s).strand.verifyFails = s.strand.verifyFails := by
  rw [raiseAlarmAt_eq src b s]; simp
@[simp] theorem strand_commitFails_raiseAlarmAt (src b : Nat) (s : State) : (raiseAlarmAt src b s).strand.commitFails = s.strand.commitFails := by
  rw [raiseAlarmAt_eq src b s]; simp
@[simp] theorem strand_learn_raiseAlarmAt (src b : Nat) (s : State) : (raiseAlarmAt src b s).strand.learn = s.strand.learn := by
  rw [raiseAlarmAt_eq src b s]; simp
@[simp] theorem strand_samples_raiseAlarmAt (src b : Nat) (s : State) : (raiseAlarmAt src b s).strand.samples = s.strand.samples := by
  rw [raiseAlarmAt_eq src b s]; simp
@[simp] theorem strand_capStatus_raiseAlarmAt (src b : Nat) (s : State) : (raiseAlarmAt src b s).strand.capStatus = s.strand.capStatus := by
  rw [raiseAlarmAt_eq src b s]; simp
@[simp] theorem strand_lastUf_raiseAlarmAt (src b : Nat) (s : State) : (raiseAlarmAt src b s).strand.lastUf = s.strand.lastUf := by
  rw [raiseAlarmAt_eq src b s]; simp

/-! ### Records -/

/-- Taking a sequence number changes only the count of its watch, or of the records of no watch (R43, R648). -/
theorem takeSeq_cases (w : Option Nat) (s : State) :
    (∃ q, (takeSeq w s).2 = { s with host := { s.host with noWatchSeq := q } }) ∨
    (∃ n f, (∀ x, (f x).entry = x.entry) ∧ (takeSeq w s).2 = s.modWatch n f) := by
  cases w with
  | none => exact .inl ⟨_, rfl⟩
  | some n => exact .inr ⟨n, fun x => { x with nextSeq := (_ + 1) % 65536, lastSeq := _ }, fun _ => rfl, rfl⟩

@[simp] theorem pending_takeSeq (w : Option Nat) (s : State) : (takeSeq w s).2.pending = s.pending := by
  rcases takeSeq_cases w s with ⟨_, h⟩ | ⟨_, _, _, h⟩ <;> simp [h]
@[simp] theorem sys_takeSeq (w : Option Nat) (s : State) : (takeSeq w s).2.sys = s.sys := by
  rcases takeSeq_cases w s with ⟨_, h⟩ | ⟨_, _, _, h⟩ <;> simp [h]
@[simp] theorem tide_takeSeq (w : Option Nat) (s : State) : (takeSeq w s).2.tide = s.tide := by
  rcases takeSeq_cases w s with ⟨_, h⟩ | ⟨_, _, _, h⟩ <;> simp [h]
@[simp] theorem otp_takeSeq (w : Option Nat) (s : State) : (takeSeq w s).2.otp = s.otp := by
  rcases takeSeq_cases w s with ⟨_, h⟩ | ⟨_, _, _, h⟩ <;> simp [h]
@[simp] theorem image_takeSeq (w : Option Nat) (s : State) : (takeSeq w s).2.image = s.image := by
  rcases takeSeq_cases w s with ⟨_, h⟩ | ⟨_, _, _, h⟩ <;> simp [h]
@[simp] theorem pix_takeSeq (w : Option Nat) (s : State) : (takeSeq w s).2.pix = s.pix := by
  rcases takeSeq_cases w s with ⟨_, h⟩ | ⟨_, _, _, h⟩ <;> simp [h]
@[simp] theorem adc_takeSeq (w : Option Nat) (s : State) : (takeSeq w s).2.adc = s.adc := by
  rcases takeSeq_cases w s with ⟨_, h⟩ | ⟨_, _, _, h⟩ <;> simp [h]
@[simp] theorem stem_takeSeq (w : Option Nat) (s : State) : (takeSeq w s).2.stem = s.stem := by
  rcases takeSeq_cases w s with ⟨_, h⟩ | ⟨_, _, _, h⟩ <;> simp [h]
@[simp] theorem core0_takeSeq (w : Option Nat) (s : State) : (takeSeq w s).2.core0 = s.core0 := by
  rcases takeSeq_cases w s with ⟨_, h⟩ | ⟨_, _, _, h⟩ <;> simp [h]
@[simp] theorem core1_takeSeq (w : Option Nat) (s : State) : (takeSeq w s).2.core1 = s.core1 := by
  rcases takeSeq_cases w s with ⟨_, h⟩ | ⟨_, _, _, h⟩ <;> simp [h]
@[simp] theorem core2_takeSeq (w : Option Nat) (s : State) : (takeSeq w s).2.core2 = s.core2 := by
  rcases takeSeq_cases w s with ⟨_, h⟩ | ⟨_, _, _, h⟩ <;> simp [h]
@[simp] theorem core3_takeSeq (w : Option Nat) (s : State) : (takeSeq w s).2.core3 = s.core3 := by
  rcases takeSeq_cases w s with ⟨_, h⟩ | ⟨_, _, _, h⟩ <;> simp [h]
@[simp] theorem harbour_takeSeq (w : Option Nat) (s : State) : (takeSeq w s).2.harbour = s.harbour := by
  rcases takeSeq_cases w s with ⟨_, h⟩ | ⟨_, _, _, h⟩ <;> simp [h]
@[simp] theorem sram_takeSeq (w : Option Nat) (s : State) : (takeSeq w s).2.sram = s.sram := by
  rcases takeSeq_cases w s with ⟨_, h⟩ | ⟨_, _, _, h⟩ <;> simp [h]
@[simp] theorem tableBuilt_takeSeq (w : Option Nat) (s : State) : (takeSeq w s).2.tableBuilt = s.tableBuilt := by
  rcases takeSeq_cases w s with ⟨_, h⟩ | ⟨_, _, _, h⟩ <;> simp [h]
@[simp] theorem nextOrder_takeSeq (w : Option Nat) (s : State) : (takeSeq w s).2.nextOrder = s.nextOrder := by
  rcases takeSeq_cases w s with ⟨_, h⟩ | ⟨_, _, _, h⟩ <;> simp [h]
@[simp] theorem ownerSrc_takeSeq (w : Option Nat) (s : State) : (takeSeq w s).2.ownerSrc = s.ownerSrc := by
  rcases takeSeq_cases w s with ⟨_, h⟩ | ⟨_, _, _, h⟩ <;> simp [h]
@[simp] theorem shutdown_takeSeq (w : Option Nat) (s : State) : (takeSeq w s).2.shutdown = s.shutdown := by
  rcases takeSeq_cases w s with ⟨_, h⟩ | ⟨_, _, _, h⟩ <;> simp [h]
@[simp] theorem stopping_takeSeq (w : Option Nat) (s : State) : (takeSeq w s).2.stopping = s.stopping := by
  rcases takeSeq_cases w s with ⟨_, h⟩ | ⟨_, _, _, h⟩ <;> simp [h]
@[simp] theorem cw_takeSeq (w : Option Nat) (s : State) : (takeSeq w s).2.cw = s.cw := by
  rcases takeSeq_cases w s with ⟨_, h⟩ | ⟨_, _, _, h⟩ <;> simp [h]
@[simp] theorem err_takeSeq (w : Option Nat) (s : State) : (takeSeq w s).2.err = s.err := by
  rcases takeSeq_cases w s with ⟨_, h⟩ | ⟨_, _, _, h⟩ <;> simp [h]
@[simp] theorem gpio_takeSeq (w : Option Nat) (s : State) : (takeSeq w s).2.gpio = s.gpio := by
  rcases takeSeq_cases w s with ⟨_, h⟩ | ⟨_, _, _, h⟩ <;> simp [h]
@[simp] theorem strand_takeSeq (w : Option Nat) (s : State) : (takeSeq w s).2.strand = s.strand := by
  rcases takeSeq_cases w s with ⟨_, h⟩ | ⟨_, _, _, h⟩ <;> simp [h]
@[simp] theorem tap_takeSeq (w : Option Nat) (s : State) : (takeSeq w s).2.tap = s.tap := by
  rcases takeSeq_cases w s with ⟨_, h⟩ | ⟨_, _, _, h⟩ <;> simp [h]
@[simp] theorem fresh_takeSeq (w : Option Nat) (s : State) : (takeSeq w s).2.fresh = s.fresh := by
  rcases takeSeq_cases w s with ⟨_, h⟩ | ⟨_, _, _, h⟩ <;> simp [h]
@[simp] theorem free_takeSeq (w : Option Nat) (s : State) : (takeSeq w s).2.free = s.free := by
  rcases takeSeq_cases w s with ⟨_, h⟩ | ⟨_, _, _, h⟩ <;> simp [h]
@[simp] theorem host_i2cNext_takeSeq (w : Option Nat) (s : State) : (takeSeq w s).2.host.i2cNext = s.host.i2cNext := by
  rcases takeSeq_cases w s with ⟨_, h⟩ | ⟨_, _, _, h⟩ <;> simp [h]
@[simp] theorem host_wbuf_takeSeq (w : Option Nat) (s : State) : (takeSeq w s).2.host.wbuf = s.host.wbuf := by
  rcases takeSeq_cases w s with ⟨_, h⟩ | ⟨_, _, _, h⟩ <;> simp [h]
@[simp] theorem host_out_takeSeq (w : Option Nat) (s : State) : (takeSeq w s).2.host.out = s.host.out := by
  rcases takeSeq_cases w s with ⟨_, h⟩ | ⟨_, _, _, h⟩ <;> simp [h]
@[simp] theorem host_stream_takeSeq (w : Option Nat) (s : State) : (takeSeq w s).2.host.stream = s.host.stream := by
  rcases takeSeq_cases w s with ⟨_, h⟩ | ⟨_, _, _, h⟩ <;> simp [h]
@[simp] theorem host_outbox_takeSeq (w : Option Nat) (s : State) : (takeSeq w s).2.host.outbox = s.host.outbox := by
  rcases takeSeq_cases w s with ⟨_, h⟩ | ⟨_, _, _, h⟩ <;> simp [h]
@[simp] theorem host_backlog_takeSeq (w : Option Nat) (s : State) : (takeSeq w s).2.host.backlog = s.host.backlog := by
  rcases takeSeq_cases w s with ⟨_, h⟩ | ⟨_, _, _, h⟩ <;> simp [h]
@[simp] theorem host_held_takeSeq (w : Option Nat) (s : State) : (takeSeq w s).2.host.held = s.host.held := by
  rcases takeSeq_cases w s with ⟨_, h⟩ | ⟨_, _, _, h⟩ <;> simp [h]
@[simp] theorem host_thresh_takeSeq (w : Option Nat) (s : State) : (takeSeq w s).2.host.thresh = s.host.thresh := by
  rcases takeSeq_cases w s with ⟨_, h⟩ | ⟨_, _, _, h⟩ <;> simp [h]
@[simp] theorem host_irqEn_takeSeq (w : Option Nat) (s : State) : (takeSeq w s).2.host.irqEn = s.host.irqEn := by
  rcases takeSeq_cases w s with ⟨_, h⟩ | ⟨_, _, _, h⟩ <;> simp [h]
@[simp] theorem host_pulse_takeSeq (w : Option Nat) (s : State) : (takeSeq w s).2.host.pulse = s.host.pulse := by
  rcases takeSeq_cases w s with ⟨_, h⟩ | ⟨_, _, _, h⟩ <;> simp [h]
@[simp] theorem host_activeHigh_takeSeq (w : Option Nat) (s : State) : (takeSeq w s).2.host.activeHigh = s.host.activeHigh := by
  rcases takeSeq_cases w s with ⟨_, h⟩ | ⟨_, _, _, h⟩ <;> simp [h]
@[simp] theorem host_irq_takeSeq (w : Option Nat) (s : State) : (takeSeq w s).2.host.irq = s.host.irq := by
  rcases takeSeq_cases w s with ⟨_, h⟩ | ⟨_, _, _, h⟩ <;> simp [h]
@[simp] theorem host_irqReg_takeSeq (w : Option Nat) (s : State) : (takeSeq w s).2.host.irqReg = s.host.irqReg := by
  rcases takeSeq_cases w s with ⟨_, h⟩ | ⟨_, _, _, h⟩ <;> simp [h]
@[simp] theorem host_pulseEnd_takeSeq (w : Option Nat) (s : State) : (takeSeq w s).2.host.pulseEnd = s.host.pulseEnd := by
  rcases takeSeq_cases w s with ⟨_, h⟩ | ⟨_, _, _, h⟩ <;> simp [h]
@[simp] theorem host_lostRecords_takeSeq (w : Option Nat) (s : State) : (takeSeq w s).2.host.lostRecords = s.host.lostRecords := by
  rcases takeSeq_cases w s with ⟨_, h⟩ | ⟨_, _, _, h⟩ <;> simp [h]
@[simp] theorem host_lostMerges_takeSeq (w : Option Nat) (s : State) : (takeSeq w s).2.host.lostMerges = s.host.lostMerges := by
  rcases takeSeq_cases w s with ⟨_, h⟩ | ⟨_, _, _, h⟩ <;> simp [h]
@[simp] theorem host_aborted_takeSeq (w : Option Nat) (s : State) : (takeSeq w s).2.host.aborted = s.host.aborted := by
  rcases takeSeq_cases w s with ⟨_, h⟩ | ⟨_, _, _, h⟩ <;> simp [h]
@[simp] theorem host_badCmd_takeSeq (w : Option Nat) (s : State) : (takeSeq w s).2.host.badCmd = s.host.badCmd := by
  rcases takeSeq_cases w s with ⟨_, h⟩ | ⟨_, _, _, h⟩ <;> simp [h]
@[simp] theorem host_wrDropped_takeSeq (w : Option Nat) (s : State) : (takeSeq w s).2.host.wrDropped = s.host.wrDropped := by
  rcases takeSeq_cases w s with ⟨_, h⟩ | ⟨_, _, _, h⟩ <;> simp [h]
@[simp] theorem host_wrIgnored_takeSeq (w : Option Nat) (s : State) : (takeSeq w s).2.host.wrIgnored = s.host.wrIgnored := by
  rcases takeSeq_cases w s with ⟨_, h⟩ | ⟨_, _, _, h⟩ <;> simp [h]
@[simp] theorem host_mbx_takeSeq (w : Option Nat) (s : State) : (takeSeq w s).2.host.mbx = s.host.mbx := by
  rcases takeSeq_cases w s with ⟨_, h⟩ | ⟨_, _, _, h⟩ <;> simp [h]
@[simp] theorem host_mbxRun_takeSeq (w : Option Nat) (s : State) : (takeSeq w s).2.host.mbxRun = s.host.mbxRun := by
  rcases takeSeq_cases w s with ⟨_, h⟩ | ⟨_, _, _, h⟩ <;> simp [h]
@[simp] theorem host_mbxArgs_takeSeq (w : Option Nat) (s : State) : (takeSeq w s).2.host.mbxArgs = s.host.mbxArgs := by
  rcases takeSeq_cases w s with ⟨_, h⟩ | ⟨_, _, _, h⟩ <;> simp [h]
@[simp] theorem host_mbxCode_takeSeq (w : Option Nat) (s : State) : (takeSeq w s).2.host.mbxCode = s.host.mbxCode := by
  rcases takeSeq_cases w s with ⟨_, h⟩ | ⟨_, _, _, h⟩ <;> simp [h]
@[simp] theorem host_mbxLastCmd_takeSeq (w : Option Nat) (s : State) : (takeSeq w s).2.host.mbxLastCmd = s.host.mbxLastCmd := by
  rcases takeSeq_cases w s with ⟨_, h⟩ | ⟨_, _, _, h⟩ <;> simp [h]
@[simp] theorem host_mbxTag_takeSeq (w : Option Nat) (s : State) : (takeSeq w s).2.host.mbxTag = s.host.mbxTag := by
  rcases takeSeq_cases w s with ⟨_, h⟩ | ⟨_, _, _, h⟩ <;> simp [h]
@[simp] theorem host_mbxDropped_takeSeq (w : Option Nat) (s : State) : (takeSeq w s).2.host.mbxDropped = s.host.mbxDropped := by
  rcases takeSeq_cases w s with ⟨_, h⟩ | ⟨_, _, _, h⟩ <;> simp [h]
@[simp] theorem host_mbxDone_takeSeq (w : Option Nat) (s : State) : (takeSeq w s).2.host.mbxDone = s.host.mbxDone := by
  rcases takeSeq_cases w s with ⟨_, h⟩ | ⟨_, _, _, h⟩ <;> simp [h]
@[simp] theorem host_mbxData_takeSeq (w : Option Nat) (s : State) : (takeSeq w s).2.host.mbxData = s.host.mbxData := by
  rcases takeSeq_cases w s with ⟨_, h⟩ | ⟨_, _, _, h⟩ <;> simp [h]

theorem length_replaceFirst (v : Nat) (e : Entry) (l : List Entry) : (replaceFirst v e l).length = l.length := by
  induction l with
  | nil => rfl
  | cons x t ih => simp only [replaceFirst]; split <;> simp [ih]

theorem length_removeFirst_le (v : Nat) (l : List Entry) : (removeFirst v l).length ≤ l.length := by
  induction l with
  | nil => exact le_rfl
  | cons x t ih =>
    simp only [removeFirst]
    split
    · simp
    · simp only [List.length_cons]; omega

theorem length_removeFirst (v : Nat) (l : List Entry) (h : (l.filter (fun e => e.watch == some v)) ≠ []) :
    (removeFirst v l).length + 1 = l.length := by
  induction l with
  | nil => simp at h
  | cons x t ih =>
    simp only [removeFirst]
    split
    · simp
    · rename_i hx
      rw [List.filter_cons, if_neg hx] at h
      simp [← ih h]

/-- Merging the first two entries of a watch shortens the list by one (R645). -/
theorem length_mergeFirstTwo (v : Nat) (e : Entry) (l : List Entry) (h : 2 ≤ (l.filter (fun e => e.watch == some v)).length) :
    (mergeFirstTwo v e l).length + 1 = l.length := by
  induction l with
  | nil => simp at h
  | cons x t ih =>
    simp only [mergeFirstTwo]
    rw [List.filter_cons] at h
    split
    · rename_i hx
      rw [if_pos hx] at h
      have : (t.filter (fun e => e.watch == some v)) ≠ [] := by
        intro h0; rw [h0] at h; simp at h
      simp [← length_removeFirst v t this]
    · rename_i hx
      rw [if_neg hx] at h
      simp [← ih h]

end Sys2Proof.Machine
end

