-- ==== Sys2Proof/Tests/Slice0.lean ====
section
/-! SUPPORT. Tests/Slice0.lean: ill-formed commands that WellFormed refuses, states that meet the hypotheses of the obligations
(each witness is named after its statement), and single commands on small states with results worked out from the spec. -/
namespace Sys2Proof.Tests
set_option Elab.async false
open Sys2Proof Sys2Proof.Machine

/-! ### Helpers -/

/-- A device in service: the boot is over and the Host port answers. -/
def live0 : State := { sys := { hostAnswers := true, stage := 0x0F, firstNeapDue := false, wdtArmed := true } }

/-- A device whose TC0 runs with the given core state. -/
def onCore (k : Core) : State := { live0 with core0 := { k with run := .running } }

/-- The fixed part of canIssue as a test. -/
def issues (s : State) (c : Fin 4) (l : List Nat) : Bool :=
  !s.sys.inReset && decide ((s.core c).run = .running) && decide ((s.core c).wait = none) &&
  !(s.core c).replaying && decide ((s.core c).early = []) && (s.core c).before.isNone &&
  decide ((s.core c).regs.pc.toNat < 4096) && decide (illegalSlot l = none) &&
  !operandStall (s.core c) l (s.core c).regs.pc.toNat && (s.core c).wf

theorem canIssue_of (s : State) (c : Fin 4) (l : List Nat) (h : issues s c l = true) : s.canIssue c l := by
  simp only [issues, Bool.and_eq_true, Bool.not_eq_true', decide_eq_true_eq, Option.isNone_iff_eq_none, and_assoc] at h
  exact h

/-- Set bits of a number from (place, value) pairs. -/
def bits (l : List (Nat × Nat)) : BitVec 64 := BitVec.ofNat 64 ((l.map (fun x => x.2 * 2 ^ x.1)).sum)

/-- The lanes of a predicate register all set. -/
def allLanes : BitVec 128 := BitVec.allOnes 128

/-- The state that an outcome answers. -/
def after (o : Host.Outcome State Fault Refusal) : State :=
  match o with
  | .next t => t
  | _ => {}

/-- A block of n bytes with little-endian fields: offset, length, value. -/
def block (n : Nat) (l : List (Nat × Nat × Nat)) : List Byte :=
  l.foldl (fun b x => putAt b x.1 (leBytes x.2.2 x.2.1)) (zeros n)

/-! ### Tensor cores -/

/-- A core with a predicate register clear, some registers set and a line of local memory. -/
def k0 : Core := Core.setS (Core.setS (Core.setA {} 2 0x1000) 3 7) 4 9

/-- The OP codes of a table of rows. -/
def ops {α : Type} (l : List (SylRow × α)) : List Nat := l.map (fun x => x.1.1)

theorem test_scalar_rows_issue : (ops aluRows ++ ops compareRows ++ ops predRows ++ [0x30, 0x31, 0x32]).all
    (fun op => issues (onCore k0) 0 (oneSyllable 1 (sylWord 2 op 0) 0)) = true := by decide +kernel

theorem witness_ScalarUnitsWriteTheirResults :
    ((0x01, Instr.add), fun a b : BitVec 32 => a + b) ∈ aluRows ∧ ((0x20, Instr.cmpeq), fun a b : BitVec 32 => a == b) ∈ compareRows ∧
    ((0x28, Instr.pand), fun a b : BitVec 128 => a &&& b) ∈ predRows ∧
    (onCore k0).canIssue 0 (oneSyllable 1 (sylWord 2 0x01 0) 0) ∧ (onCore k0).canIssue 0 (oneSyllable 1 (sylWord 2 0x20 0) 0) ∧
    (onCore k0).canIssue 0 (oneSyllable 1 (sylWord 2 0x28 0) 0) ∧ predBit ((onCore k0).core 0) 0 0 = true :=
  ⟨List.mem_cons_self, List.mem_cons_self, List.mem_cons_self, canIssue_of _ _ _ (by decide +kernel),
   canIssue_of _ _ _ (by decide +kernel), canIssue_of _ _ _ (by decide +kernel), by decide +kernel⟩

theorem test_address_rows_issue : [1, 2, 3, 4].all (fun op => issues (onCore k0) 0 (oneSyllable 3 (sylWord 3 op 0) 0)) = true := by
  decide +kernel

/-- A local access at the first and at the last address that the size allows: a[2] + IMM, for bytes, halves and words. -/
theorem witness_LocalLoadsAndStoresMoveTheirBytes :
    ([1, 2].all (fun op => [0, 1, 2].all (fun size =>
      issues (onCore k0) 0 (oneSyllable 5 (sylWord 4 op (bits [(23, 2), (51, size)])) 0)))) = true ∧
    ([3, 4].all (fun op => issues (onCore k0) 0 (oneSyllable 5 (sylWord 4 op (bits [(23, 2)])) 0))) = true ∧
    predBit ((onCore k0).core 0) (bits [(23, 2)]).toNat 0 = true ∧ ((onCore k0).core 0).quiet ∧
    0x1000 % 64 = 0 ∧ 0x4FFFC + 4 ≤ 0x500000 := by
  refine ⟨by decide +kernel, by decide +kernel, by decide +kernel, ⟨rfl, rfl, rfl⟩, by decide, by decide⟩

theorem witness_BranchesLoopsAndHaltChooseTheNextBundle :
    ([1, 2, 4].all (fun op => issues (onCore k0) 0 (oneSyllable 0 (sylWord 1 op 0) 0))) = true ∧
    issues (onCore k0) 0 (oneSyllable 0 (sylWord 1 3 (bits [(32, 5), (49, 1), (50, 3)])) 0) = true ∧
    endingLoops ((onCore k0).core 0) 0 = [] ∧ ((onCore k0).core 0).pend = [] ∧
    (((onCore k0).core 0).lcreg 0).active = false ∧ (0 : Nat) < fld (bits [(32, 5), (49, 1), (50, 3)]).toNat 32 12 := by
  decide +kernel

/-- SADD of a bundle whose immediate is s3 + s4: 7 + 9. -/
theorem test_add : (after (exec (.add 0 (bits [(18, 5), (23, 3), (28, 4)]) 0) (onCore k0))).core0.sreg 5 = 16 := by decide +kernel

/-- A loop of 3 iterations to bundle 5 goes on with the bundle after it; one of 0 iterations goes past its end. -/
theorem test_loop : (after (exec (.loop 0 (bits [(32, 5), (49, 1), (50, 3)]) 0) (onCore k0))).core0.regs.pc = 1 ∧
    (after (exec (.loop 0 (bits [(32, 5), (49, 1)]) 0) (onCore k0))).core0.regs.pc = 6 := by decide +kernel

theorem witness_BundlesIssueUnderTheirRules :
    issues (onCore k0) 0 (oneSyllable 9 (sylWord 8 1 (bits [(12, 1)])) 0) = true ∧
    sylActs ((onCore k0).core 0) (sylWord 2 1 (bits [(12, 1)])) = false ∧
    fetched ((onCore k0).core 0) 0 = List.replicate 16 0 ∧ issues (onCore k0) 0 (List.replicate 16 0) = true ∧
    issues (onCore k0) 0 (((List.replicate 16 0).set 1 (sylWord 2 1 0)).set 2 (sylWord 2 2 (bits [(18, 1)]))) = true ∧
    illegalSlot (oneSyllable 1 (sylWord 2 0xFF 0) 0) = some 1 ∧ illegalSlot (oneSyllable 13 (sylWord 11 0xFF 0) 0) = some 13 ∧
    0 ∉ k0.imemUpset ∧ (let k : Core := { k0 with imemUpset := [0] }; k.regs.pc.toNat ∈ k.imemUpset ∧ (onCore k).live) ∧
    ((onCore k0).core 0).replaying = false ∧ ((onCore { k0 with replaying := true }).core 0).replaying = true := by
  refine ⟨by decide +kernel, by decide +kernel, by decide +kernel, by decide +kernel, by decide +kernel, by decide +kernel, by
  decide +kernel,
    by decide, ⟨by decide +kernel, rfl⟩, rfl, rfl⟩

/-- A single-bit error in the bundle fetched is corrected and counted, and the bundle issues (R602). -/
theorem test_imem_upset :
    let t := after (exec (.bundleIssue 0) (onCore { k0 with imemUpset := [0, 3] }))
    t.core0.imemUpset = [3] ∧ t.err.eccCore = 1 ∧ t.core0.regs.pc = 1 := by decide +kernel

/-- Two syllables of one bundle in instruction memory both read the registers as they stood. -/
theorem test_bundle_reads_before :
    let a := wrBytes [] 8 (leBytes (sylWord 2 0x10 (bits [(18, 3), (28, 4)])) 8)
    let k : Core := { k0 with imem := wrBytes a 16 (leBytes (sylWord 2 0x10 (bits [(18, 4), (28, 3)])) 8) }
    let t := after (exec (.bundleIssue 0) (onCore k))
    t.core0.sreg 3 = 9 ∧ t.core0.sreg 4 = 7 := by decide +kernel

theorem witness_LaneOperationsWriteTheActiveLanes :
    (ops intLaneRows ++ [0x0F, 0x18, 0x19, 0x10, 0x11, 0x12]).all
      (fun op => issues (onCore k0) 0 (oneSyllable 9 (sylWord 8 op 0) 0)) = true ∧
    ([0x01, 0x02, 0x03, 0x04, 0x05, 0x06, 0x07, 0x08, 0x18, 0x19].all
      (fun op => issues (onCore k0) 0 (oneSyllable 9 (sylWord 8 op (bits [(42, 1)])) 0))) = true ∧
    someLane ((onCore k0).core 0) 0 := by
  refine ⟨by decide +kernel, by decide +kernel, 127, by decide, by decide +kernel⟩

theorem witness_VectorMovesAndReductions :
    [0x20, 0x21, 0x22, 0x23].all (fun op => issues (onCore k0) 0 (oneSyllable 9 (sylWord 8 op 0) 0)) = true ∧
    someLane ((onCore k0).core 0) 0 ∧ (List.replicate 128 (0 : BitVec 32)).length = 128 :=
  ⟨by decide +kernel, ⟨0, by decide, by decide +kernel⟩, List.length_replicate⟩

/-- The last whole line group that VST can write starts at 0x4FFE00, and VLD of INT8 reads two lines. -/
theorem witness_VectorLoadsAndStoresUseWholeLines :
    let k : Core := Core.setA {} 3 0x4FFE00
    issues (onCore k) 0 (oneSyllable 9 (sylWord 8 0x30 (bits [(47, 3)])) 0) = true ∧
    issues (onCore k) 0 (oneSyllable 9 (sylWord 8 0x31 (bits [(47, 3)])) 0) = true ∧
    (k.areg 3).toNat % 64 = 0 ∧ (k.areg 3).toNat + 512 = 0x500000 ∧ k.quiet := by
  refine ⟨by decide +kernel, by decide +kernel, by decide +kernel, by decide +kernel, rfl, rfl, rfl⟩

/-- An INT32 lane addition writes the active lanes alone: v1 := v2 + v3 under p1, which holds lane 5. -/
theorem test_vadd : let k := Core.setP (Core.setLane (Core.setLane {} 2 5 3) 3 5 4) 1 0x20
    let t := after (exec (.vadd 0 (bits [(12, 1), (13, 1), (18, 1), (24, 2), (30, 3)]) 0) (onCore k))
    t.core0.lane 1 5 = 7 ∧ t.core0.lane 1 4 = 0 := by decide +kernel

/-! ### Tensor, rescale and pool operations -/

/-- A core with a descriptor at local address 0, every tag of lines 64 and 128 at scale 127. -/
def withDesc (b : List Byte) : Core := { k0 with loc := { data := wrBytes [] 0 b, tags := [(64, 0x007F), (128, 0x007F)] } }

/-- MM of two INT8 elements, 1 × 1, and a CONV of one line of channels over one tap. -/
def mmDesc : List Byte :=
  block 64 [(0, 8, 0x1000), (8, 8, 0x2000), (0x10, 2, 1), (0x12, 2, 2), (0x14, 1, 1), (0x15, 1, 1), (0x16, 1, 1), (0x17, 1, 1),
    (0x18, 4, 0x01010101), (0x22, 2, 1), (0x24, 2, 1), (0x26, 2, 1), (0x2C, 4, 64), (0x30, 4, 64)]
def convDesc : List Byte :=
  block 64 [(0, 8, 0x1000), (8, 8, 0x2000), (0x10, 2, 1), (0x12, 2, 64), (0x14, 1, 1), (0x15, 1, 1), (0x16, 1, 1), (0x17, 1, 1),
    (0x18, 4, 0x01010101), (0x22, 2, 1), (0x24, 2, 1), (0x26, 2, 1), (0x2C, 4, 64), (0x30, 4, 64)]

theorem witness_TensorOperationsWriteTheAccumulator :
    (withDesc mmDesc).tensorOk 0 false ∧ (withDesc convDesc).tensorOk 0 true ∧ (withDesc mmDesc).quiet ∧
    (onCore (withDesc mmDesc)).canIssue 0 (oneSyllable 8 (sylWord 7 1 0) 0) ∧
    (onCore (withDesc convDesc)).canIssue 0 (oneSyllable 8 (sylWord 7 2 0) 0) ∧
    issues (onCore k0) 0 (oneSyllable 8 (sylWord 7 3 (bits [(36, 512)])) 0) = true ∧ accRow (bits [(36, 512)]) + 512 ≤ 512 ∧
    tagScale ((withDesc mmDesc).loc.tag 64) = 127 ∧ ((withDesc mmDesc).tensorDesc 0).k ≤ 64 := by
  refine ⟨?_, ?_, ⟨rfl, rfl, rfl⟩, canIssue_of _ _ _ (by decide +kernel), canIssue_of _ _ _ (by decide +kernel), by decide +kernel,
    by decide +kernel, by decide +kernel, by decide +kernel⟩
  · unfold Core.tensorOk; decide +kernel
  · unfold Core.tensorOk; decide +kernel

/-- 3 × 5 + (-2) × 7 = 1 in accumulator element (0, 0). -/
theorem test_mm :
    let d := wrBytes (wrBytes (withDesc mmDesc).loc.data 0x1000 [3, 0xFE]) 0x2000 [5]
    let k : Core := { withDesc mmDesc with loc := { (withDesc mmDesc).loc with data := wrBytes d 0x2040 [7], tags := [(64, 127), (128, 127), (129, 127)] } }
    (after (exec (.mm 0 0 0) (onCore k))).core0.accel 0 0 = 1 := by decide +kernel

/-- RQA of one INT8 element, RQV of one lane. -/
def rqDesc : List Byte := block 64 [(0, 8, 0x3000), (8, 8, 0x2000), (0x18, 2, 1), (0x1A, 1, 1), (0x1E, 1, 127), (0x20, 4, 64)]

theorem witness_RescaleWritesItsOutputRows :
    (withDesc rqDesc).rescaleOk 0 false ∧ (withDesc rqDesc).rescaleOk 0 true ∧ (withDesc rqDesc).quiet ∧
    issues (onCore (withDesc rqDesc)) 0 (oneSyllable 11 (sylWord 9 1 0) 0) = true ∧
    issues (onCore (withDesc rqDesc)) 0 (oneSyllable 11 (sylWord 9 2 0) 0) = true ∧
    (RDesc.read rqDesc).ofmt = 0 ∧ (RDesc.read rqDesc).act = 0 ∧ bitN 0 59 = false := by
  refine ⟨?_, ?_, ⟨rfl, rfl, rfl⟩, by decide +kernel, by decide +kernel, by decide +kernel, by decide +kernel, by decide⟩
  · unfold Core.rescaleOk; decide +kernel
  · unfold Core.rescaleOk; decide +kernel

/-- R464: 5 × 3 / 2 rounds half to even to 8, and 9 × 5 / 2 = 22.5 to 22. -/
theorem test_rescale_half_even :
    (rescaleEl (RDesc.read rqDesc) (3 + 1 * 2 ^ 24) (.num false 5 0) (fun _ => 0)).code = 8 ∧
    (rescaleEl (RDesc.read rqDesc) (5 + 1 * 2 ^ 24) (.num false 9 0) (fun _ => 0)).code = 22 := by decide +kernel

/-- POOL of a 2 × 2 window over a 2 × 2 image, GPOOL of the image, one line of channels. -/
def poolDesc : List Byte :=
  block 64 [(0, 8, 0x1000), (8, 8, 0x3000), (0x10, 2, 2), (0x12, 2, 2), (0x14, 2, 1), (0x16, 2, 1), (0x18, 2, 1),
    (0x1C, 2, 0x0202), (0x1E, 4, 0x01010101), (0x28, 4, 128), (0x2C, 4, 64)]
def gpoolDesc : List Byte :=
  block 64 [(0, 8, 0x1000), (8, 8, 0x3000), (0x10, 2, 2), (0x12, 2, 2), (0x14, 2, 1), (0x16, 2, 1), (0x18, 2, 1), (0x1B, 1, 1),
    (0x28, 4, 128), (0x2C, 4, 64)]
def cropDesc : List Byte :=
  block 64 [(0, 8, 0x1000), (8, 8, 0x3000), (0x10, 8, 0x2000), (0x18, 2, 2), (0x1A, 2, 2), (0x1C, 2, 1), (0x1E, 2, 1),
    (0x20, 2, 0x0101), (0x28, 4, 128), (0x2C, 4, 64)]

theorem witness_PoolAndCropWriteTheirOutputs :
    (withDesc poolDesc).poolOk 0 false ∧ (withDesc gpoolDesc).poolOk 0 true ∧ (withDesc cropDesc).cropOk 0 ∧
    leAt ((withDesc poolDesc).poolBytes 0) 0x14 2 * leAt ((withDesc poolDesc).poolBytes 0) 0x18 2 * 64 ≤
      leAt ((withDesc poolDesc).poolBytes 0) 0x2C 4 ∧
    issues (onCore (withDesc poolDesc)) 0 (oneSyllable 12 (sylWord 10 1 0) 0) = true ∧
    issues (onCore (withDesc gpoolDesc)) 0 (oneSyllable 12 (sylWord 10 2 0) 0) = true ∧
    issues (onCore (withDesc cropDesc)) 0 (oneSyllable 12 (sylWord 10 3 0) 0) = true := by
  refine ⟨?_, ?_, ?_, by decide +kernel, by decide +kernel, by decide +kernel, by decide +kernel⟩
  · unfold Core.poolOk windowsFit; decide +kernel
  · unfold Core.poolOk windowsFit; decide +kernel
  · unfold Core.cropOk; decide +kernel

/-- POOL with max over the four pixels 1, 9, 4 and 2 of channel 0. -/
theorem test_pool_max :
    let d := wrBytes (wrBytes (wrBytes (wrBytes (wrBytes [] 0 poolDesc) 0x1000 [1]) 0x1040 [9]) 0x1080 [4]) 0x10C0 [2]
    let k : Core := { k0 with loc := { data := d, tags := [(64, 127), (65, 127), (66, 127), (67, 127)] } }
    rdByte (after (exec (.pool 0 0 0) (onCore k))).core0.loc.data 0x3000 = 9 := by decide +kernel

/-! ### Synchronisation and DMA -/

/-- A MULTICHIP watch with a window of 64 KiB at Harbour offset 0x10000 whose job is in Spring on TC0. -/
def wt0 : Watch :=
  { entry := { num := 5, flags := 0x21, cores := 0x01, hbrBase := 0x10000, hbrSize := 0x10000, progCount := 1 },
    state := .running, job := some { inputsDone := true, inSpring := true } }

/-- The device with that job in Spring. -/
def onSpring (k : Core) : State := { onCore k with watches := [wt0], tide := { power := .spring, coreEn := true } }

/-- A core with a7 at the given 40-bit address. -/
def kAt (a : BitVec 40) : Core := Core.setA {} 7 a

theorem witness_WordAccessesAndAtomicsAreOneStep :
    ([3, 4, 5, 6, 7, 8, 9].all (fun op => issues (onSpring (kAt 0x40010000)) 0 (oneSyllable 13 (sylWord 11 op (bits [(18, 7)])) 0))) = true ∧
    (wordRows.map (·.1)) = [3, 4, 5, 6, 7, 8, 9] ∧ (onSpring (kAt 0x40010000)).springWatch = some wt0 ∧
    inOwnWindow wt0 0x40010000 4 ∧ inOwnWindow wt0 0x4001FFFC 4 ∧ 0x4001FFFC % 4 = 0 := by
  refine ⟨by decide +kernel, rfl, by decide +kernel, ?_, ?_, by decide⟩ <;> exact ⟨by decide, by decide, by decide⟩

/-- An atomic addition that is outstanding and about to be performed. -/
def atPend : Pend := { slot := 13, op := 5, addr := 0x40010000, val := 3, sd := some 2, ranges := [⟨0x1000400, 0x1000400, true⟩] }

theorem witness_word_access_done :
    let s := onSpring { pend := [atPend] }
    s.live ∧ (s.core 0).run = .running ∧ (s.core 0).wait = none ∧ (s.core 0).replaying = false ∧ (s.core 0).pend = [atPend] ∧
      atPend.localWord = true ∧
    0x40000000 ≤ atPend.addr ∧ atPend.addr < 2 ^ 36 ∧ s.harbour.poisoned ((atPend.addr - 0x40000000) / 64) = false :=
  ⟨rfl, rfl, rfl, rfl, rfl, by decide, by decide, by decide, rfl⟩

/-- ATADD of 3 to a word that holds 4: the old value in s2, 7 in the Harbour. -/
theorem test_atadd :
    let s : State := { onSpring { pend := [atPend] } with harbour := { data := [(0x10000, 4)] } }
    let t := after (exec (.harbourWordAccessDone 0) s)
    t.core0.sreg 2 = 4 ∧ rdLE t.harbour.data 0x10000 4 = 7 ∧ t.core0.pend = [] := by decide +kernel

theorem witness_SyncSyllablesHoldOrComplete :
    let s := onSpring (kAt 0x40010000)
    ([0, 1, 2].all (fun x => issues s 0 (oneSyllable 13 (syncScoped 1 x 0) 0))) = true ∧
    ([1, 2].all (fun x => issues (onSpring (Core.setS (kAt 0x40010000) 2 64)) 0
      (oneSyllable 13 (syncScoped 2 x (bits [(18, 7), (27, 2)])) 0))) = true ∧
    ([0xA, 0xC].all (fun op => issues s 0 (oneSyllable 13 (sylWord 11 op (bits [(44, 1), (48, 1)])) 0))) = true ∧
    issues s 0 (oneSyllable 13 (sylWord 11 0xB (bits [(18, 7)])) 0) = true ∧ inOwnWindow wt0 0x40010000 64 ∧
    fenceDone 0 (s.core 0) = true ∧ fenceDone 1 { pend := [atPend] } = false ∧ (s.core 0).tainted = [] ∧
    (harbourAddr (64 * (0x40010000 / 64)) (64 * ((0x40010000 + 64 - 1) / 64 - 0x40010000 / 64 + 1))).isSome = true ∧
    ((s.core 0).syncCount (bits [(44, 1), (48, 0)]) 0).toNat ≤ ((s.core 0).evreg 0).toNat ∧
    ((s.core 0).evreg 0).toNat < ((s.core 0).syncCount (bits [(44, 1), (48, 1)]) 0).toNat ∧
    ResetUnit.stem ∉ s.sys.resetting ∧ s.heldHeads < 4 ∧ 4 ≤ (onSpring { kAt 0x40010000 with heads := 4 }).heldHeads ∧
    (∃ p ∈ (onSpring { pend := [{ stream := some (0, 0) }] }).core0.pend, p.stream.isSome = true) ∧
    ((s.core 0).syncCount (bits [(44, 1), (48, 1)]) 0).toNat % 65536 = (s.core 0).point + 1 := by
  refine ⟨by decide +kernel, by decide +kernel, by decide +kernel, by decide +kernel, ⟨by decide, by decide, by decide⟩,
    by decide +kernel, by decide +kernel, rfl, by decide +kernel, by decide +kernel, by decide +kernel, by decide, by decide +kernel,
    by decide +kernel, ⟨_, List.mem_singleton.mpr rfl, rfl⟩, by decide +kernel⟩

/-- The device with a marker entry of watch 5 from this chip. -/
def marked (es : List (Option Nat)) (n : Nat) : State :=
  { onSpring {} with cw := { markers := [{ watch := 5, chip := 0, count := n, epochs := es }] } }

theorem witness_epochs :
    let s := marked [some 3, none, none, none] 1
    (((s.core 0).sreg 0).toNat % 16 = s.myChip ∧ s.markerOk wt0.entry.num 0 = true) ∧
    (∃ m, s.marker? wt0.entry.num 0 = some m ∧ m.reached 3 = true ∧ m.reached 4 = false) ∧
    issues s 0 (oneSyllable 13 (sylWord 11 0xD 0) 0) = true ∧ issues s 0 (oneSyllable 13 (sylWord 11 0xE 0) 0) = true := by
  refine ⟨⟨by decide +kernel, by decide +kernel⟩, ⟨_, rfl, by decide +kernel, by decide +kernel⟩, by decide +kernel, by decide +kernel⟩

/-- Descriptors of the four kinds of transfer of this chip: one row of one line (128 bytes for instruction memory). -/
def inDesc : List Byte := block 64 [(0, 8, 0x40010000), (8, 8, 0x1000), (0x10, 4, 64), (0x14, 2, 1), (0x16, 2, 1), (0x2A, 1, 0xFF)]
def outDesc : List Byte :=
  block 64 [(0, 8, 0x1000), (8, 8, 0x4001FFC0), (0x10, 4, 64), (0x14, 2, 1), (0x16, 2, 1), (0x28, 1, 1), (0x2A, 1, 0xFF)]
def streamDesc : List Byte :=
  block 64 [(8, 8, 0x40010000), (0x10, 4, 3968), (0x14, 2, 1), (0x16, 2, 1), (0x28, 1, 2), (0x2A, 1, 15)]
def imemDesc : List Byte :=
  block 64 [(0, 8, 0x40010000), (8, 8, 0x500080), (0x10, 4, 128), (0x14, 2, 1), (0x16, 2, 1), (0x28, 1, 3), (0x2A, 1, 0xFF)]

theorem witness_DmaMovesItsRowsAndCompletes :
    (withDesc inDesc).dmaOk 0 wt0 0 6 ∧ (withDesc outDesc).dmaOk 0 wt0 1 7 ∧ (withDesc streamDesc).dmaOk 0 wt0 2 6 ∧
    (withDesc imemDesc).dmaOk 0 wt0 3 6 ∧
    issues (onSpring (withDesc inDesc)) 0 (oneSyllable 6 (sylWord 5 1 0) 0) = true ∧
    issues (onSpring (withDesc outDesc)) 0 (oneSyllable 7 (sylWord 6 1 0) 0) = true ∧
    (withDesc inDesc).quiet ∧ (withDesc inDesc).retain = [] ∧ ({} : Lines).poison = [] ∧ ({} : Lines).upset = [] ∧
    ({} : Lines).wf = true ∧ wt0.flag 7 = false := by
  refine ⟨?_, ?_, ?_, ?_, by decide +kernel, by decide +kernel, ⟨rfl, rfl, rfl⟩, rfl, rfl, rfl, rfl, by decide +kernel⟩
  all_goals unfold Core.dmaOk; decide +kernel

/-- COPY_IN moves a line of the window with its tag. -/
theorem test_copy_in :
    let s : State := { onSpring (withDesc inDesc) with harbour := { data := [(0x10000, 0xAB)], tags := [(0x400, 0x1234)] } }
    let t := after (exec (.copyIn 0 0 0) s)
    rdByte t.core0.loc.data 0x1000 = 0xAB ∧ t.core0.loc.tag 64 = 0x1234 ∧ t.core0.pend.length = 1 := by decide +kernel

theorem witness_stream_and_completion :
    let rec10 : PlacedRecord := { type := 10, id := 3, body := leBytes 2 4 ++ zeros 60 }
    let w : Watch := { wt0 with entry := { wt0.entry with streamRec := 3 } }
    let s : State := { onSpring (withDesc streamDesc) with watches := [w], image := { records := [rec10] } }
    let p : Pend := { slot := 6, event := some 4 }
    ((withDesc streamDesc).dmaDesc 0).src < s.blockCount w ∧ s.springWatch = some w ∧
    ((onSpring { pend := [p] }).core 0).pend[0]? = some p ∧ ((Core.setEv {} 4 254).evreg 4).toNat < 255 ∧
    ((Core.setEv {} 4 255).evreg 4).toNat = 255 := by
  refine ⟨by decide +kernel, by decide +kernel, rfl, by decide +kernel, by decide +kernel⟩

theorem witness_CoreErrorsRaiseOrReplay :
    let s := onSpring { wait := some (.event 0 1) }
    let r := onSpring { winOpen := true, shadow := some { point := 2 } }
    (s.live ∧ (s.core 0).wait.isSome = true ∧ (s.core 0).run = .running) ∧
    ((r.core 0).winOpen = true ∧ (r.core 0).winReplayed = false ∧ (r.core 0).shadow = some { point := 2 } ∧ (r.core 0).pend = [] ∧
      r.springWatch = some wt0 ∧ r.watch? wt0.entry.num = some wt0 ∧ (r.core 0).wait = none ∧ (r.core 0).replaying = false) ∧
    ((onSpring {}).core 0).winOpen = false := by
  refine ⟨⟨rfl, rfl, rfl⟩, ⟨rfl, rfl, rfl, rfl, by decide +kernel, by decide +kernel, rfl, rfl⟩, rfl⟩

/-- An image of one DATA record, signed in advance with the private key 2 and the nonce 3. -/
def manifest0 : List Byte := leBytes 0xacf2275075acc125ed98497bb635b13ed72b8d2692426c662f66d44fcdbffeac6cfde7c61b6641fb85a9adef21b7c6e665f14b1d95eff7c8440a33a6d1e4cb5e48aef5397e15416d06d2715b76553a00867b02c724b24e7eed98b025bd792e5800000000000000000000000000000000000010000000004800000200000700050000000000000000000000000000000000000000000000000000000000000000d17378229db7049e2982e93ce6ad7dbadb30749fc69a3d2940d08edb1055770778996647fc480ba6351bf277e26989c0c31ab5040338528a7e4f038d187bf27c0000000000000000314547414d4951540a0361200000000300010001464d5154 256
/-- A part whose KEY_DIGEST slot 0 holds the digest of that key. -/
def keyCells : List (Nat × BitVec 39) :=
  (List.range 8).map (fun i => (0x040 + i, secdedEncode (BitVec.ofNat 32
  (0xd8c3e0512f82cdae5abdc3eb20d0cb93b43ace064a2de14252b1404813eb7ad0 / 2 ^ (32 * i)))))
def bootState : State :=
  { live0 with sys := { live0.sys with stage := 0x05 }, otp := { lc := 3, lcBoot := 3, cells := keyCells, cellsHigh := keyCells } }
/-- The record that the manifest lists. -/
def record0 : List Byte := leBytes 0xaa0000004800070005 72

/-! ### Steps, the Host port and the registers -/

theorem witness_CommandsAndTicksAnswerANextState :
    live0.pending = [] ∧ live0.live ∧ State.reset.sys.inReset = true ∧ live0.tide.thermalCap = 3 ∧
    ({ live0 with tide := { thermalCap := 2 } } : State).tide.thermalCap < 3 :=
  ⟨rfl, rfl, rfl, rfl, by decide⟩

/-- A tick under a thermal cap counts once, up to 32 bits. -/
theorem test_throttle :
    (after (step { live0 with tide := { thermalCap := 2, throttleTicks := 0xFFFFFFFF } })).tide.throttleTicks = 0xFFFFFFFF ∧
    (after (step { live0 with tide := { thermalCap := 2 } })).tide.throttleTicks = 1 ∧
    (after (step live0)).tide.throttleTicks = 0 := by decide +kernel

/-- SYS_ID at reset, and the reset values of the pins PA0, PB0, PC0 and PC7 (R659). -/
theorem test_reset_values :
    State.reset.quayWord 0 = 0x61200A10 ∧ State.reset.quayWord 0x540 = 0x03 ∧ State.reset.quayWord 0x560 = 0x30 ∧
    State.reset.quayWord 0x580 = 0x20 ∧ State.reset.quayWord 0x59C = 0x20000 := by decide +kernel

/-- The device with HOST_IF strapped to I²C. -/
def i2c0 : State := { live0 with sys := { live0.sys with straps := { hostIf := true } } }

theorem witness_HostReadsAndWrites :
    live0.spiReady ∧ i2c0.i2cReady 0x3A ∧ (0x0104 : BitVec 16) ≠ 0x0200 ∧ (0x0400 : BitVec 16).toNat % 4 = 0 ∧
    (0x0401 : BitVec 16).toNat % 4 ≠ 0 ∧ (0x9F : BitVec 8) ≠ 0x0B ∧
      ({ live0 with sys := { live0.sys with hostAnswers := false } } : State).live :=
  ⟨⟨rfl, rfl, rfl, rfl⟩, ⟨rfl, rfl, rfl, rfl, rfl⟩, by decide, by decide, by decide, by decide, rfl⟩

/-- The seventeenth word of a frame finds no room. -/
theorem test_write_dropped :
    let t := after (exec (.write true 0x0520 (List.replicate 17 7) 0) live0)
    t.host.wbuf.length = 16 ∧ t.host.wrDropped = 1 ∧ t.host.wbuf.getLast? = some (0x055C, 7) := by decide +kernel

/-- Records in the Outbox. -/
def withRecords (n : Nat) (s : State) : State := { s with host := { s.host with outbox := List.replicate n (List.replicate 32 0x5A) } }

theorem witness_StreamReadsPopWholeSlots :
    (withRecords 2 live0).spiReady ∧ (withRecords 2 i2c0).i2cReady 0x3A ∧ (∀ b ∈ (withRecords 2 live0).host.outbox, b.length = 32) ∧
    255 < 256 ∧ 287 < 288 ∧ 31 < 32 :=
  ⟨⟨rfl, rfl, rfl, rfl⟩, ⟨rfl, rfl, rfl, rfl, rfl⟩, by decide, by decide, by decide, by decide⟩

/-- One slot and seven bits of the next: the first record leaves, the second is cut short and stays. -/
theorem test_stream_cut :
    let t := after (exec (.stream true 0x0200 true true 263) (withRecords 2 live0))
    t.host.outbox.length = 1 ∧ t.host.aborted = 1 ∧ t.host.out.length = 32 ∧
      t.host.cut = [false, true, false, true, true, false, true] := by
  decide +kernel

/-- The device with one captured word. -/
def captured0 (a : Nat) (v : Word) (s : State := live0) : State := { s with host := { s.host with wbuf := [(a, v)] } }

theorem witness_captured (a : Nat) (v : Word) : (captured0 a v).captured a v [] := ⟨rfl, rfl⟩

theorem witness_SysAndOutboxWritesTakeEffect :
    (captured0 0x01C 0xA5C3).sys.delayed = none ∧ (0xA5C2 : Word) ≠ 0xA5C3 ∧ (1 : Word).getLsbD 0 = true ∧ (2 : Word).getLsbD 0 = false ∧
    ({ live0 with err := { logReady := true, newest := some (1023, 9) } } : State).err.newest = some (1023, 9) := by
  refine ⟨rfl, by decide, by decide, by decide, rfl⟩

/-- SYS_SOFT_RESET takes its key alone, and OBX_IRQ clamps THRESH to 1 to 64. -/
theorem test_keyed_writes :
    (after (exec (.sysSoftReset 0xA5C3) (captured0 0x01C 0xA5C3))).sys.delayed = some .soft ∧
    (after (exec (.sysSoftReset 0xA5C4) (captured0 0x01C 0xA5C4))).sys.delayed = none ∧
    (after (exec (.obxIrq 0x7F) (captured0 0x104 0x7F))).host.thresh = 64 ∧
    (after (exec (.obxIrq 0x00) (captured0 0x104 0x00))).host.thresh = 1 := by decide +kernel

/-- A W1C bit that the device has set in the same tick stays at 1, an older one clears (R666, R712). -/
theorem test_same_tick :
    let s : State := { live0 with sys := { live0.sys with alarm := 0x30 }, gpio := { alarm := 3 }, fresh := { alarm := 0x20, lines := 2 } }
    (after (exec (.sysAlarm 0x7FE) (captured0 0x00C 0x7FE s))).sys.alarm = 0x20 ∧
    (after (exec (.gpioAlarmStatus 0xFF) (captured0 0x518 0xFF s))).gpio.alarm = 2 := by decide +kernel

theorem witness_OtherRegisterWritesTakeEffect :
    live0.sys.stage = 0x0F ∧ ({ live0 with tide := { block := some {} } } : State).tide.block ≠ none ∧
    ¬(live0.sys.stage = 0x0F ∧ live0.tide.block ≠ none) ∧ live0.otp.run = none ∧
    (0xFF : BitVec 8).getLsbD (otpRegion 0x008) = true ∧ (0 : BitVec 8).getLsbD (otpRegion 0x068) = false ∧ otpRegion 0x068 = 4 ∧
    otpRegion 0x7FF = 7 ∧ live0.springWatch = none := by
  refine ⟨rfl, by decide, by simp [live0], rfl, by decide, by decide, by decide, by decide, rfl⟩

theorem witness_GpioWritesTakeEffect :
    let s : State := { live0 with gpio := { mapApplied := true } }
    let ok : Pin := { cfg := 0x03, mask := 0 }
    (s.gpio.mapApplied = true ∧ pinOk 7 ok = true ∧ ok.mask &&& 0x1FFC00 = (s.gpio.pin 7).mask &&& 0x1FFC00) ∧
    pinOk 8 { cfg := 0x03, mask := 0 } = false ∧ live0.gpio.mapApplied = false ∧
    (1 : Word).extractLsb' 0 2 ≠ live0.gpio.pilSel.extractLsb' 0 2 ∧ (1 : Word).extractLsb' 2 2 = live0.gpio.pilSel.extractLsb' 2 2 := by
  refine ⟨⟨rfl, by decide +kernel, by decide +kernel⟩, by decide +kernel, rfl, by decide, by decide⟩

theorem witness_RegisterWriteAppliesTheOldestWord :
    (captured0 0x00C 5).captured (0x00C : BitVec 16).toNat 5 [] ∧ (captured0 0x59C 0).captured (0x59C : BitVec 16).toNat 0 [] ∧
    (captured0 0x420 5).captured (0x404 + 4 * 7) 5 [] ∧ (captured0 0x53C 5).captured (0x520 + 4 * 7) 5 [] ∧
    (captured0 0x400 0x0140).host.mbx.length < 4 ∧ (captured0 0x0FFC 5).captured (0x0FFC : BitVec 16).toNat 5 [] :=
  ⟨⟨rfl, rfl⟩, ⟨rfl, rfl⟩, ⟨rfl, rfl⟩, ⟨rfl, rfl⟩, by decide, rfl, rfl⟩

/-- MBX_CMD queues the command code, its tag and the arguments. -/
theorem test_mbx_cmd :
    (after (exec (.registerWrite 0x0400 0x0140) (captured0 0x400 0x0140))).host.mbx =
      [{ cmd := 0x40, tag := 1, args := List.replicate 8 0 }] := by decide +kernel

/-! ### Resets and the boot -/

theorem witness_ResetSourcesEnterTheResetState :
    (live0.idleStores ∧ live0.live ∧ live0.sys.wdtArmed = true ∧ live0.tide.power ≠ .neap) ∧
    ({ live0 with sys := { live0.sys with wdtCount := 32768 } } : State).sys.wdtCount ≥ 32768 ∧ live0.sys.wdtCount < 32768 ∧
    ({ live0 with tide := { thermalShutdown := true } } : State).tide.thermalShutdown = true ∧
    (∀ b ∈ live0.strand.logQueue, b.length = 56) ∧ Memory.wf live0.strand.data = true ∧
    (let s : State := { live0 with sys := { live0.sys with delayed := some .soft, asserted := 0x080 } };
      s.live ∧ s.otp.run = none ∧ s.strand.writing = none) ∧
    (let s : State := { live0 with strand := { writing := some {} } };
      s.otp.hold = none ∧ s.sys.delayed = none ∧ s.strand.writing ≠ none) ∧ State.reset.sys.inReset = true ∧ State.reset.idleStores := by
  refine ⟨⟨⟨rfl, rfl, rfl, rfl⟩, rfl, rfl, by decide⟩, by decide, by decide, rfl, by decide, rfl, ⟨rfl, rfl, rfl⟩, ⟨rfl, rfl, by
  decide⟩, rfl, rfl, rfl, rfl, rfl⟩

theorem witness_QuayFieldsTakeTheirResetValues :
    live0.idleStores ∧ (∃ t, exec .resetPin live0 = .next t) ∧ (0x1FFC < 0x2000 ∧ 0x1FFC % 4 = 0 ∧ 0x1FFC ∉ [0x008, 0x018]) :=
  ⟨⟨rfl, rfl, rfl, rfl⟩, ⟨_, rfl⟩, by decide⟩

/-- A pin reset keeps the loop count and clears the mailbox arguments; its cause stands in the release. -/
theorem test_pin_reset :
    let t := after (exec (.resetRelease 0) (after (exec .resetPin { live0 with sys := { live0.sys with loopCount := 2 } })))
    t.sys.resetCause = 8 ∧ t.sys.loopCount = 0 ∧ t.sys.stage = 0x02 ∧ t.sys.hostAnswers = true := by decide +kernel

theorem witness_ResetReleaseAndWhatActsInReset :
    (State.reset.sys.inReset = true ∧ State.reset.sys.delayed = none ∧ State.reset.sys.asserted ≠ 0 ∧
      State.reset.tide.thermalShutdown = false ∧ State.reset.otp.hold = none) ∧
    holdCode 0x01 0 = some 1 ∧ holdCode 0x02 0 = none ∧ holdCode 0x02 1 = some 4 ∧
    ({ State.reset with tide := { thermalShutdown := true } } : State).tide.thermalShutdown = true ∧
    ({ State.reset with tide := { lfWait := true } } : State).tide.lfWait = true ∧
    ({ State.reset with tide := { lfCrystal := true } } : State).tide.lfCrystal = true ∧
    ({ State.reset with otp := { hold := some 3 } } : State).otp.hold = some 3 ∧ actsInReset .tickTrigger = false := by
  refine ⟨⟨rfl, rfl, by decide, rfl, rfl⟩, by decide, by decide, by decide, rfl, rfl, rfl, rfl, rfl⟩

/-- The boot at a stage. -/
def atStage (st : BitVec 8) : State := { live0 with sys := { live0.sys with stage := st, wdtArmed := st != 0x02 } }

theorem witness_BootReachesTheImageAndEnds :
    ((atStage 0x02).bootAt 0x02 ∧ (atStage 0x02).sys.wdtArmed = false ∧ (atStage 0x02).otp.lcBoot = 0) ∧
    (let s : State := { atStage 0x02 with otp := { lcBoot := 2 }, sys := { (atStage 0x02).sys with straps := { bootHold := true } } };
      s.bootAt 0x02 ∧ s.sys.wdtArmed = false ∧ 1 ≤ s.otp.lcBoot ∧ s.otp.lcBoot ≤ 2 ∧ s.sys.straps.bootHold = true) ∧
    (let s : State := { atStage 0x03 with otp := { lc := 1 } };
      s.bootAt 0x03 ∧ s.dapOpen = true ∧ s.tap.wait = none) ∧
    (let s : State := { atStage 0x04 with tide := { pllLocked := true } };
      s.bootAt 0x04 ∧ s.tide.pllLocked = true) ∧
    ((atStage 0x07).bootAt 0x07 ∧ (atStage 0x07).sys.loopCount < 4 ∧ (atStage 0x07).outboxTakes 1) ∧
      headerOk (padTo [] 64) false = false := by
  refine ⟨⟨⟨rfl, rfl, rfl, rfl⟩, rfl, rfl⟩, ⟨⟨rfl, rfl, rfl, rfl⟩, rfl, by decide, by decide, rfl⟩, ⟨⟨rfl, rfl, rfl, rfl⟩, by
  decide +kernel, rfl⟩,
    ⟨⟨rfl, rfl, rfl, rfl⟩, rfl⟩, ⟨⟨rfl, rfl, rfl, rfl⟩, by decide, rfl, rfl, by decide⟩, by decide +kernel⟩

/-- BOOT_HOLD stops a FACTORY part until BOOT_RELEASE, and a BLANK part ends its boot with code 0x09 (R146, R193). -/
theorem test_rail_wait :
    let s : State := { atStage 0x02 with otp := { lc := 2, lcBoot := 2 }, sys := { (atStage 0x02).sys with straps := { bootHold := true } } }
    (after (exec .railWaitEnd s)).sys.stage = 0x03 ∧ (after (exec .bootRelease (after (exec .railWaitEnd s)))).sys.stage = 0x04 ∧
    (after (exec .railWaitEnd (atStage 0x02))).sys.fail = 0x09 := by decide +kernel

/-- An image header of 4,096 bytes with its manifest at 0x100 (R213). -/
def header0 : List Byte :=
  let b := block 60 [(0, 4, 0x4D495154), (4, 2, 1), (6, 2, 64), (8, 4, 4096), (0xC, 4, 0x100), (0x10, 4, 256), (0x14, 2, 50), (0x18, 2, 0x6120)]
  b ++ leBytes (crc32 b) 4

theorem test_flash_probe :
    let s : State := { atStage 0x04 with tide := { pllLocked := true } }
    let t := after (exec (.flashProbe { present := true, header := header0 }) s)
    headerOk (padTo header0 64) false = true ∧ t.sys.stage = 0x05 ∧ t.image.header = some (0x100, 256, 4096, 50) ∧
    (after (exec (.flashProbe { present := false }) s)).sys.fail = 0x01 := by decide +kernel

/-- A manifest with no magic fails its check with code 0x03. -/
theorem witness_manifest_error :
    let s : State := { atStage 0x05 with image := { header := some (0x100, 256, 4096, 50) } }
    s.bootAt 0x05 ∧ s.image.header = some (0x100, 256, 4096, 50) ∧ s.image.rereadDue = false ∧
    ∃ c, s.manifestCheck (padTo [] 256) 0x100 256 4096 = .error c :=
  ⟨⟨rfl, rfl, rfl, rfl⟩, rfl, rfl, _, rfl⟩

/-- The signed manifest verifies with KEY_DIGEST slot 0 (R230). -/
theorem test_manifest_verifies :
    (match bootState.manifestCheck manifest0 0x100 256 4096 with
      | .ok k => k
      | .error c => 100 + c) = 0 := by decide +kernel

theorem witness_BootTakesTheManifestAndRecords :
    (∃ k, bootState.manifestCheck manifest0 0x100 256 4096 = .ok k) ∧ manifest0.length = 256 ∧
    bitN (byteAt manifest0 14) bootState.variant = true ∧ byteAt manifest0 15 ≤ 0x0A := by
  refine ⟨?_, by decide +kernel, by decide +kernel, by decide +kernel⟩
  have h := test_manifest_verifies
  cases hm : bootState.manifestCheck manifest0 0x100 256 4096 with
  | ok k => exact ⟨k, rfl⟩
  | error c => rw [hm] at h; simp only at h; omega

/-- The manifest as the boot keeps it, and its one entry. -/
def man0 : Manifest := Manifest.read manifest0 0x100 4096
def entry0 : MfEntry := MfEntry.read (slice manifest0 128 64)
/-- The boot with that manifest verified. -/
def stage6 : State := { atStage 0x06 with image := { manifest := some man0 } }
/-- The record as it is placed. -/
def placed0 : PlacedRecord := { type := 5, id := 7, load := 0x1000, placed := 64, length := 72, body := record0.drop 8 }

theorem test_record_hash : sha256 (padTo record0 entry0.length) = entry0.sha := by decide +kernel

/-- The DATA record of that manifest passes its checks (R233). -/
theorem witness_record_good :
    man0.entries[0]? = some entry0 ∧ entryOk man0 0 entry0 = true ∧
      stage6.recordGood man0 entry0 (padTo record0 entry0.length) placed0 := by
  refine ⟨by decide +kernel, by decide +kernel, ?_⟩
  unfold State.recordGood
  decide +kernel

theorem witness_record_bad :
    sha256 (padTo [] entry0.length) ≠ entry0.sha ∧ entryOk { man0 with reservedNonzero := true } 0 entry0 = false := by
  refine ⟨by decide +kernel, by decide +kernel⟩

/-! ### The mailbox and the OTP -/

/-- A mailbox command. -/
def cmd0 (code : Nat) (args : List (Nat × Word)) : MbxCmd :=
  { cmd := code, tag := 9, args := args.foldl (fun l x => l.set x.1 x.2) (List.replicate 8 0) }

/-- The device in service with a watch in a state and one mailbox command queued. -/
def mail (c : MbxCmd) (w : Watch) : State := { live0 with host := { mbx := [c] }, watches := [w] }

/-- Watch 5 in a state. -/
def watchIn (st : WState) (code : Nat := 0) : Watch := { entry := { num := 5, flags := 0x05 }, state := st, faultCode := code }

theorem zeroFrom_one (c : MbxCmd) (h : (List.range 8).all (fun j => j == 0 || c.arg j == 0) = true) : c.zeroFrom 1 := by
  intro j h1 h8
  have := List.all_eq_true.mp h j (List.mem_range.mpr h8)
  simp only [Bool.or_eq_true, beq_iff_eq] at this
  rcases this with h0 | h0
  · omega
  · exact h0

theorem witness_MailboxCommandsActOnTheirWatch :
    (mail (cmd0 0 []) (watchIn .armed)).mbxFront (cmd0 0 []) [] ∧ (cmd0 0 []).zeroFrom 0 ∧
      (mail (cmd0 0 []) (watchIn .armed)).sys.fail = 0 ∧
    (∀ code ∈ [0x01, 0x02, 0x03, 0x13, 0x40], ((cmd0 code [(0, 5)]).arg 0).toNat < 1024 ∧ (cmd0 code [(0, 5)]).zeroFrom 1) ∧
    ((cmd0 1 [(0, 1024)]).arg 0).toNat ≥ 1024 ∧ ((cmd0 1 [(0, 1023)]).arg 0).toNat < 1024 ∧
    (mail (cmd0 1 [(0, 5)]) (watchIn .armed)).watch? 5 = some (watchIn .armed) ∧
      (mail (cmd0 1 [(0, 5)]) (watchIn .armed)).watch? 1023 = none ∧
    (watchIn .running).busyOrHeld ∧ Watch.busyOrHeld { watchIn .armed with held := some (3, 0) } ∧
    (watchIn .done).flag 2 = true ∧ (watchIn .faulted 0x1F).faultCode < 0x20 ∧ 0x20 ≤ (watchIn .faulted 0x20).faultCode ∧
    (let s : State := { live0 with strand := { inForce := [some (1, 3), none, none, none, none] } };
      s.force 0 = some (1, 3) ∧ live0.force 0 = none ∧ (390 : Nat) ≤ 390) := by
  refine ⟨⟨rfl, rfl, rfl, rfl, rfl⟩, ?_, rfl, ?_, by decide, by decide, by decide +kernel, by decide +kernel, Or.inl rfl,
    Or.inr (Or.inr (Or.inr (Or.inr ⟨rfl, by decide⟩))), by decide, by decide, by decide, by decide +kernel⟩
  · intro j _ h8
    have : ∀ j, j < 8 → (cmd0 0 []).arg j = 0 := by decide +kernel
    exact this j h8
  · intro code hc
    have h : ∀ code ∈ [0x01, 0x02, 0x03, 0x13, 0x40], ((cmd0 code [(0, 5)]).arg 0).toNat < 1024 ∧
      (List.range 8).all (fun j => j == 0 || (cmd0 code [(0, 5)]).arg j == 0) = true := by decide +kernel
    exact ⟨(h code hc).1, zeroFrom_one _ (h code hc).2⟩

/-- TRIGGER_WATCH starts an ARMED watch, refuses a one-shot that is DONE with STATE, and an unknown number with NO_WATCH. -/
theorem test_trigger_watch :
    ((after (exec .triggerWatch (mail (cmd0 1 [(0, 5)]) (watchIn .armed)))).watches.map (fun w => (w.state, w.jobs))) = [(.running, 1)] ∧
    (after (exec .triggerWatch (mail (cmd0 1 [(0, 5)]) (watchIn .done)))).host.mbxCode = 0x12 ∧
    (after (exec .triggerWatch (mail (cmd0 1 [(0, 6)]) (watchIn .armed)))).host.mbxCode = 0x11 := by decide +kernel

theorem witness_ShutdownDisarmsAndCompletes :
    (mail (cmd0 0x50 [(7, 0xFFFFFFFF)]) (watchIn .armed)).mbxFront (cmd0 0x50 [(7, 0xFFFFFFFF)]) [] ∧
    (∀ j, 1 ≤ j → j < 7 → (cmd0 0x50 [(7, 0xFFFFFFFF)]).arg j = 0) ∧ (cmd0 0x50 [(7, 0xFFFFFFFF)]).arg 0 = 0 ∧
    (cmd0 0x50 [(7, 0xFFFFFFFF)]).arg 7 = 0xFFFFFFFF ∧ (cmd0 0x50 [(7, 1)]).arg 7 ≠ 0xFFFFFFFF ∧
    (let s : State := { mail (cmd0 0 []) (watchIn .dormant) with shutdown := some 9, host := { mbxRun := some (cmd0 0x50 []) } };
      s.live ∧ s.shutdown.isSome = true ∧ (∀ w ∈ s.watches, w.state ≠ .waitingEnergy ∧ w.state ≠ .running ∧ w.state ≠ .checkpointed) ∧
      s.strand.run = none ∧ s.strand.commits = [] ∧ s.host.held = [] ∧ s.host.backlog = [] ∧ s.host.outbox.length < 64) := by
  refine ⟨⟨rfl, rfl, rfl, rfl, rfl⟩, ?_, by decide +kernel, by decide +kernel, by decide +kernel, ⟨rfl, rfl, by decide, rfl, rfl,
  rfl, rfl, by decide⟩⟩
  intro j h1 h7
  have : ∀ j, j < 7 → (cmd0 0x50 [(7, 0xFFFFFFFF)]).arg j = 0 := by decide +kernel
  exact this j h7

/-- OTP_PROGRAM of one word of FLEX at address 0x400, and of six. -/
def progArg (addr n region : Nat) : Word := BitVec.ofNat 32 (region + addr * 256 + n * 2 ^ 24)
def progCmd (addr n region : Nat) (key : Word) : MbxCmd :=
  cmd0 0x30 [(0, progArg addr n region), (1, 0xA5), (2, 1), (3, 2), (4, 3), (5, 4), (6, 5), (7, key)]

/-- A deployed part that is cool and has its battery full. -/
def otpState (c : MbxCmd) (lc : Nat) : State :=
  { live0 with host := { mbx := [c] }, otp := { lc := lc }, tide := { vbatMv := 3000, tempTaken := true } }

theorem witness_OtpCommandsCheckAndQueueTheirWords :
    (let a := progArg 0x7FA 6 7; let c := progCmd 0x7FA 6 7 (~~~a); let s := otpState c 4;
      s.otpFront c [] ∧ (c.arg 0).toNat &&& 0x0707FFFF = (c.arg 0).toNat ∧ c.arg 7 = ~~~(c.arg 0) ∧ c.otpWords.length = 6 ∧
      (∀ x ∈ c.otpWords, otpRegion x.1 = 7 ∧ x.1 < 2048 ∧ otpReserved x.1 = false) ∧ regionOpen 7 s.otp.lc = true ∧
      s.otp.lockWr.getLsbD 7 = false ∧ (∀ x ∈ c.otpWords, s.otpNormal x.1 ||| s.otpHigh x.1 = 0 ∧ x.2 ≠ 0) ∧ s.otpFit) ∧
    (progCmd 0x400 1 7 0).arg 7 ≠ ~~~((progCmd 0x400 1 7 0).arg 0) ∧ regionOpen 1 4 = false ∧ fld (progArg 0x400 1 8).toNat 0 8 = 8 ∧
    (let c := cmd0 0x31 [(0, 1), (7, 0xFFFFFFFE)]; let s := otpState c 0;
      s.otpFront c [] ∧ (c.arg 0).toNat = s.otp.lc + 1 ∧ (c.arg 0).toNat ≤ 2 ∧ c.arg 7 = ~~~(c.arg 0) ∧
        s.otp.lockWr.getLsbD 0 = false ∧ s.otpFit ∧
      (∀ a, a < 3 → s.otpHigh a = BitVec.ofNat 39 (2 ^ s.otp.lc - 1))) ∧
    ((cmd0 0x31 [(0, 7)]).arg 0).toNat = 7 ∧ ((cmd0 0x31 [(0, 4)]).arg 0).toNat ≤ 4 := by
  refine ⟨⟨⟨⟨rfl, rfl, rfl, rfl, rfl⟩, rfl, rfl, rfl⟩, by decide +kernel, by decide +kernel, by decide +kernel, by decide +kernel,
  by decide,
    by decide, by decide +kernel, ⟨rfl, by decide, by decide, by decide, by decide, by decide⟩⟩, by decide +kernel, by decide, by
    decide +kernel, ⟨⟨⟨rfl, rfl, rfl, rfl, rfl⟩, rfl, rfl, rfl⟩,
    by decide +kernel, by decide +kernel, by decide +kernel, by decide, ⟨rfl, by decide, by decide, by decide, by decide, by
    decide⟩, by decide +kernel⟩,
    by decide +kernel, by decide +kernel⟩

/-- R177: the check bits of 0x00000001 are its column 0x07. -/
theorem test_secded : secdedEncode 1 = BitVec.ofNat 39 (1 + 7 * 2 ^ 32) ∧ secdedEncode 0 = 0 := by decide +kernel

/-- A word in progress whose one cell turns at both margins ends the command with OK. -/
def programming (rest : List (Nat × BitVec 39)) : State :=
  { live0 with otp := { lc := 4, run := some { todo := (0x400, 1) :: rest, lifecycle := none, mailbox := true } }, tide := { vbatMv := 3000, tempTaken := true } }

theorem witness_OtpWordProgrammedTurnsItsCells :
    (programming []).live ∧ (programming []).sys.delayed = none ∧ swf 0 (programming []).otp.cells = true ∧
    swf 0 (programming []).otp.cellsHigh = true ∧ (programming [(0x401, 1)]).otpFit ∧
    (1 : BitVec 39) &&& ~~~((programming []).otpHigh 0x400) ≠ 0 := by
  refine ⟨rfl, rfl, rfl, rfl, ⟨rfl, by decide, by decide, by decide, by decide, by decide⟩, by decide +kernel⟩

theorem test_otp_verify :
    (after (exec (.otpWordProgrammed 1 1) (programming []))).otp.progStatus = 0 ∧
    (after (exec (.otpWordProgrammed 1 0) (programming []))).otp.progStatus = 6 ∧
    (after (exec (.otpWordProgrammed 1 1) (programming []))).otpHigh 0x400 = 1 := by decide +kernel

/-! ### The Tide controller -/

/-- A board with 10,000 µF from 1,800 to 3,600 mV and a reserve of 1,000 µJ. -/
def board0 : PowerBlock := { capNomUf := 10000, reserveUj := 1000, vmaxMv := 3600, hystMv := 100, vminMv := 1800, buckEffQ8 := 230 }

/-- The device with that board. -/
def boarded (t : Tide := {}) : State := { live0 with tide := { t with block := some board0 } }

theorem witness_TideSamplesDriveTheirOutputs :
    ((boarded {}).live ∧ (boarded {}).tide.coreEn = false ∧ (boarded {}).tide.afterSpring = false ∧ (boarded {}).noneWaiting ∧
      (boarded {}).strand.cal = []) ∧
    (boarded { coreEn := true }).tide.coreEn = true ∧ (boarded { stallCount := some 65535 }).tide.stallCount ≠ none ∧
    (boarded {}).springWatch = none ∧ ((119 : Int) * 64 + 63 < 120 * 64) ∧ (boarded {}).harbour.wf = true ∧
    (boarded { banksOn := 0x7FFFFFFF }).tide.banksOn.getLsbD 31 = false ∧ (boarded {}).tide.banksOn.getLsbD 31 = true ∧
    live0.mayNeap = true ∧ live0.outboxBalance = true ∧ (boarded { coreEn := true }).mayNeap = false := by
  refine ⟨⟨rfl, rfl, rfl, by intro x hx; exact absurd hx List.not_mem_nil, rfl⟩, rfl, by decide, rfl, by decide, rfl, by decide, by decide,
    by decide +kernel, rfl, by decide +kernel⟩

/-- R98: 10,000 µF from 3,600 to 1,800 mV hold 48,600 µJ; at Vmin the account is 0. -/
theorem test_energy :
    (after (exec (.reservoirSample 3600 4000) (boarded {}))).tide.energy = 48600 ∧
    (after (exec (.reservoirSample 1800 4000) (boarded {}))).tide.energy = 0 ∧
    (after (exec (.reservoirSample 3500 4000) (boarded {}))).tide.chgEn = true ∧
    (after (exec (.reservoirSample 3600 4000) (boarded {}))).tide.chgEn = false := by decide +kernel

/-- R125: the caps are found at 105, 107 and 109 °C and lifted one step 3 °C below. -/
theorem test_thermal_cap :
    (after (exec (.tempSample (105 * 64)) live0)).tide.thermalCap = 2 ∧
      (after (exec (.tempSample (105 * 64 - 1)) live0)).tide.thermalCap = 3 ∧
    (after (exec (.tempSample (109 * 64)) live0)).tide.thermalCap = 0 := by decide +kernel

/-- A watch whose job has its inputs and waits for admission under a ceiling. -/
def asking (ceiling : Nat) : Watch :=
  { entry := { num := 5, cores := 0x31, ceiling := ceiling, progCount := 1, hbrBase := 0x10000, hbrSize := 0x10000 }, state := .running,
    job := some { inputsDone := true } }

theorem witness_AdmissionTakesTheQueueInOrder :
    (let s : State := { boarded { energy := 48600 } with watches := [asking 47600] };
      s.live ∧ s.tableOk ∧ s.watch? 5 = some (asking 47600) ∧ s.stopping = none ∧ (47600 : Nat) + 1000 ≤ s.fullEnergy board0 ∧
        s.onlyWaiting 5 ∧
      s.tide.coreEn = false ∧ s.tide.thermalShutdown = false ∧ s.otp.run = none ∧ s.tap.wait = none ∧
        s.sys.tick ≤ s.tide.rsvTick + 8 ∧ s.tide.power ≠ .neap ∧
      47600 + 1000 ≤ s.tide.energy ∧ s.tide.temp < 110 * 64) ∧
    (boarded {}).fullEnergy board0 < 47601 + 1000 ∧ (boarded { energy := 48599 }).tide.energy < 47600 + 1000 ∧ live0.tide.block = none ∧
    (let w : Watch := { asking 1 with state := .waitingEnergy, entry := { num := 5, admitTimeout := 1 } }; w.pending = false ∧
      w.entry.admitTimeout ≠ 0) := by
  refine ⟨⟨rfl, List.pairwise_singleton _ _, by decide +kernel, rfl, by decide +kernel, ?_, rfl, rfl, rfl, rfl, by decide, by
  decide, by decide, by decide⟩,
    by decide +kernel, by decide, rfl, rfl, by decide⟩
  intro x hx hne
  rcases List.mem_singleton.mp hx with rfl
  exact absurd rfl hne

/-- The head of the queue is admitted with exactly the energy it needs, and waits with one µJ less. -/
theorem test_admission :
    (after (exec (.admissionRequest 5) { boarded { energy := 48600 } with watches := [asking 47600] })).tide.coreEn = true ∧
    ((after (exec (.admissionRequest 5) { boarded { energy := 48599 } with watches := [asking 47600] })).watches.map (·.state)) = [.waitingEnergy] ∧
    ((after (exec (.admissionRequest 5) { boarded {} with watches := [asking 47601] })).watches.map (·.faultCode)) = [0x25] := by decide +kernel

/-- A watch of the tick trigger with interval 10 and phase 4. -/
def ticking : Watch := { entry := { num := 5, trigKind := 1, trigArg := block 16 [(0, 4, 10), (4, 4, 4)] }, state := .armed }
/-- The device at a tick. -/
def atTick (n : Nat) (ws : List Watch) : State := { live0 with sys := { live0.sys with tick := n }, watches := ws }

theorem witness_TriggersStartOrHoldJobs :
    ((atTick 24 [ticking]).live ∧ (atTick 24 [ticking]).tableOk ∧ (atTick 24 [ticking]).tide.power ≠ .neap ∧
      (atTick 24 [ticking]).watch? 5 = some ticking ∧ leAt ticking.entry.trigArg 4 4 ≤ 24 ∧
      (24 - leAt ticking.entry.trigArg 4 4) % leAt ticking.entry.trigArg 0 4 = 0) ∧
    (watchIn .done).entry.trigKind ≠ 1 ∧
    (let w : Watch := { watchIn .armed with held := some (3, 0), entry := { num := 5, group := 2 } };
      let busy : Watch := { watchIn .running with entry := { num := 6, group := 2 } };
      (atTick 9 [w]).watch? 5 = some w ∧ (atTick 9 [w]).groupBusy w = false ∧ (atTick 9 [w, busy]).groupBusy w = true ∧
      w.adapt = none ∧ (atTick 9 [w]).groupHeldBefore w (3, 0, 5) = false ∧
      (let before : Watch := { watchIn .armed with held := some (2, 0), entry := { num := 6, group := 2 } };
        (atTick 9 [w, before]).groupHeldBefore w (3, 0, 5) = true) ∧
      (∀ x ∈ (atTick 9 [w]).watches, x.entry.num ≠ 5 → x.held = none)) ∧
    ({ ticking with state := .running } : Watch).busyOrHeld ∧ ticking.held = none ∧ ticking.entry.group = 0 ∧ ticking.adapt = none ∧
    (let w : Watch := { watchIn .done with entry := { num := 5 }, pending := true, pendingDue := (7, 0) };
      (atTick 9 [w]).watch? 5 = some w ∧ w.pending = true ∧ w.state = .done ∧ w.flag 2 = false ∧ w.entry.group = 0 ∧ w.adapt = none) := by
  refine ⟨⟨rfl, List.pairwise_singleton _ _, by decide, by decide +kernel, by decide +kernel, by decide +kernel⟩, by decide,
    ⟨by decide +kernel, by decide +kernel, by decide +kernel, rfl, by decide +kernel, by decide +kernel, ?_⟩, Or.inl rfl, rfl, rfl, rfl,
    by decide +kernel, rfl, rfl, by decide, rfl, rfl⟩
  intro x hx hne
  rcases List.mem_singleton.mp hx with rfl
  exact absurd rfl hne

/-- A pending trigger starts the job of a watch that is re-armed, with the tick at which it came (R42, R56). -/
theorem test_rearm_pending :
    ((after (exec .doneRearm (atTick 9 [{ watchIn .done with entry := { num := 5 }, pending := true, pendingDue := (7, 0) }]))).watches.map
      (fun w => (w.state, w.pending, w.lastDue))) = [(.running, false, 7)] := by decide +kernel

theorem test_tick_trigger :
    ((after (exec .tickTrigger (atTick 24 [ticking]))).watches.map (·.state)) = [.running] ∧
    ((after (exec .tickTrigger (atTick 25 [ticking]))).watches.map (·.state)) = [.armed] ∧
    ((after (exec .doneRearm (atTick 1 [{ watchIn .done with entry := { num := 5 } }]))).watches.map (·.state)) = [.armed] := by decide +kernel

/-- A job admitted to TC0 with a PROGRAM record of one bundle. -/
def progRec : PlacedRecord := { type := 3, id := 0, load := 0x8000, placed := 128, length := 144, body := leBytes 1 4 ++ zeros 132 }
def admitted (j : Job) : Watch := { wt0 with job := some { j with inputsDone := true, inSpring := true } }
def springing (j : Job) (t : Tide) (k : Core) : State :=
  { live0 with watches := [admitted j], tide := { t with coreEn := true, block := some board0 }, core0 := k, image := { records := [progRec] } }

theorem witness_SpringReleasesMetersAndEnds :
    (let s := springing {} {} {};
      s.inSpringJob (admitted {}) { inputsDone := true, inSpring := true } ∧ s.tableOk ∧ s.tide.coreEn = true ∧
        s.tide.power ≠ .spring ∧ s.harbour.wf = true ∧
      (admitted {}).coreList[0]? = some 0 ∧ (s.mains (admitted {}).entry)[0]? = some progRec) ∧
    (let s := springing { frames := some 1 } {} {}; s.inSpringJob (admitted { frames := some 1 }) { frames := some 1, inputsDone := true, inSpring := true } ∧
      (∀ l, s.harbour.poisoned l = false) ∧ s.harbour.upset = [] ∧ s.withinDepths = true ∧ s.berthsBalance = true ∧
      s.overspent (admitted {}) {} 0 = false ∧ s.overspent (admitted {}) { totalFj := 1 } 0 = true) ∧
    (let s := springing { ckpt := some 1 } { power := .spring } { run := .stopped };
      s.tide.power = .spring ∧ s.drained (admitted { ckpt := some 1 }) = true ∧
      (admitted { ckpt := some 1 }).coreList.any (fun c => decide ((s.core c).run = .stopped)) = true) ∧
    (let s := springing {} { power := .spring } { run := .halted };
      s.drained (admitted {}) = true ∧ (admitted {}).coreList.all (fun c => decide ((s.core c).run = .halted)) = true ∧
        (admitted {}).adapt = none ∧
      (admitted {}).flag 6 = false ∧ s.cw.cfg.messages = [] ∧ (∀ x ∈ s.watches, x.entry.trigKind ≠ 4)) := by
  refine ⟨⟨⟨rfl, by decide +kernel, rfl, rfl, by decide +kernel⟩, List.pairwise_singleton _ _, rfl, by decide, rfl,
  by decide +kernel, by decide +kernel⟩,
    ⟨⟨rfl, by decide +kernel, rfl, rfl, by decide +kernel⟩, fun _ => rfl, rfl, by decide +kernel, by decide +kernel,
    by decide +kernel, by decide +kernel⟩,
    ⟨rfl, by decide +kernel, by decide +kernel⟩,
    by decide +kernel, by decide +kernel, rfl, by decide +kernel, rfl, by decide +kernel⟩

/-- CORE_RELEASE starts TC0 with the watch number in s2 and the window base in a0. -/
theorem test_core_release :
    let t := after (exec .coreRelease (springing {} {} {}))
    t.core0.run = .running ∧ t.core0.sreg 2 = 5 ∧ t.core0.areg 0 = 0x40010000 ∧ t.tide.power = .spring ∧
      t.core1.run = .off := by decide +kernel

/-- A reservoir collapse faults the watch with code 0x28 and takes the cores' power. -/
theorem test_collapse :
    let t := after (exec .reservoirCollapse (springing {} { power := .spring } { run := .running }))
    (t.watches.map (fun w => (w.state, w.faultCode))) = [(.faulted, 0x28)] ∧ t.core0.run = .off ∧ t.tide.coreEn = false ∧
      t.tide.collapses = 1 := by
  decide +kernel

/-! ### The pixel array and the Aux ADC -/

/-- A frame program of one RAW16 window of 16 × 8 pixels at (16, 8), with the given FLAGS. -/
def pixBody (flags : Nat) : List Byte := block 64 [(0, 1, 1), (2, 1, flags), (4, 4, 24), (8, 2, 256), (0x10, 2, 1),
  (0x20, 2, 16), (0x22, 2, 8), (0x24, 2, 16), (0x26, 2, 8), (0x29, 1, 1), (0x2A, 1, 3), (0x2C, 4, 512), (0x30, 4, 512), (0x34, 2, 0xFFFF)]

/-- A watch whose queued job takes its inputs from a PIXEL_PROGRAM (kind 1) or an ADC_SEQUENCE (kind 2). -/
def taking (kind : Nat) (j : Job := {}) : Watch :=
  { entry := { num := 5, inputKind := kind, inputUnits := 2, inputRec := 3, hbrBase := 0x10000, hbrSize := 0x10000, progCount := 1 },
    state := .running, job := some j, unitCounter := 7 }

/-- The device with that watch and its pixel array in a capture. -/
def shooting (flags : Nat) (c : Capture) : State :=
  { live0 with watches := [taking 1 { acquired := true }], pix := { cap := some { c with watch := 5 } },
               image := { records := [{ type := 0x0C, id := 3, body := pixBody flags }] },
               tide := { pixEn := true, vpixReady := true, xrefOn := true, xrefReady := true } }

theorem witness_InputsAreAcquiredAndSupplied :
    (let s : State := { live0 with watches := [taking 1] };
      s.live ∧ s.tableOk ∧ s.watch? 5 = some (taking 1) ∧ s.firstFor (taking 1) = true ∧ s.stopping = none ∧ s.tide.power ≠ .neap ∧
        s.tide.thermalShutdown = false ∧ s.pix.cap = none) ∧
    (let s : State := { live0 with watches := [taking 2] };
      s.watch? 5 = some (taking 2) ∧ s.firstFor (taking 2) = true ∧ s.adc.cap = none ∧ s.adc.cal = none ∧ ResetUnit.adc ∉ s.sys.resetting) ∧
    (let s : State := { live0 with tide := { xrefOn := true, pixEn := true } }; s.live ∧ s.tide.xrefOn = true ∧ s.single ∧
      s.tide.pixEn = true ∧ s.pixEnable = true) ∧
    (let s : State := { shooting 0 {} with tide := { pixEn := true, xrefOn := true } };
      s.tableOk ∧ s.pix.cap = some { watch := 5 } ∧ s.watch? 5 = some (taking 1 { acquired := true }) ∧ s.tide.xrefReady = false ∧
        s.adc.cap = none ∧
      s.tide.vpixReady = false) ∧
    (let s := shooting 0 { reading := some {} }; s.pix.cap = some { watch := 5, reading := some {} } ∧ s.tableOk) := by
  refine ⟨⟨rfl, List.pairwise_singleton _ _, by decide +kernel, by decide +kernel, rfl, by decide, rfl, rfl⟩,
    ⟨by decide +kernel, by decide +kernel, rfl, rfl, by decide⟩, ⟨rfl, rfl, rfl, rfl, rfl⟩,
    ⟨List.pairwise_singleton _ _, rfl, by decide +kernel, rfl, rfl, rfl⟩, rfl, List.pairwise_singleton _ _⟩

theorem witness_FramesAreExposedAndReadOut :
    (let s := shooting 1 {}; s.live ∧ s.tableOk ∧ (s.capture?.map (fun x => (x.1, x.2.1))) = some ({ watch := 5 }, taking 1 { acquired := true }) ∧
      (PixProg.read (pixBody 1)).flags % 4 = 1 ∧ bitN (PixProg.read (pixBody 2)).flags 1 = true ∧ s.tide.xrefReady = true ∧
        s.tide.vpixReady = true ∧
      s.tide.thermalShutdown = false) ∧
    ((shooting 2 { waitFsync := true }).pix.cap = some { watch := 5, waitFsync := true }) ∧
    ((shooting 0 { expo := some {} }).pix.cap = some { watch := 5, expo := some {} }) ∧
    (let p := PixProg.read (pixBody 0); p.rows[0]? = some 8 ∧ (p.windows.map (fun x => (x.format, x.bin, x.x0 + x.width, x.berthFirst))) = [(1, 0, 32, 3)] ∧
      p.flags % 16 < 4 ∧ (0x10000 + 512 + 64) % 64 = 0 ∧ (taking 1).inWindow (0x10000 + 512 + 64) 64 = true) ∧
    (let s := shooting 0 { reading := some {}, rowsRead := 8, wins := [{}] };
      (PixProg.read (pixBody 0)).rows.length = 8 ∧ ResetUnit.stem ∉ s.sys.resetting ∧ s.harbour.wf = true ∧
        (taking 1).inWindow (0x10000 + 512) 64 = true) := by
  refine ⟨⟨rfl, List.pairwise_singleton _ _, by decide +kernel, by decide +kernel, by decide +kernel, rfl, rfl, rfl⟩, rfl, rfl,
    ⟨by decide +kernel, by decide +kernel, by decide +kernel, by decide, by decide⟩, by decide +kernel, by decide, rfl, by decide⟩

/-- The last row of the first of two frames makes its berth READY and leaves the header line with FRAME_NUM. -/
theorem test_frame_complete :
    let t := after (exec .frameComplete (shooting 0 { reading := some { frameNum := 7, tick := 9 }, rowsRead := 8, wins := [{}] }))
    t.berth 3 = .ready ∧ rdLE t.harbour.data 0x10200 4 = 7 ∧ rdLE t.harbour.data 0x1021A 6 = 9 ∧ t.pix.frames = 1 ∧
    rdLE t.harbour.data 0x10206 2 = 16 ∧ rdLE t.harbour.data 0x10208 2 = 8 := by decide +kernel

/-- A row of 10-bit codes 100 over black codes of 20 holds 80. -/
theorem test_pixel_row :
    let s := shooting 0 { reading := some {}, wins := [{}] }
    let t := after (exec (.pixelRow (List.replicate 16 20) (List.replicate 64 100)) s)
    rdLE t.harbour.data 0x10240 2 = 80 ∧ rdLE t.harbour.data 0x1025E 2 = 80 ∧ rdLE t.harbour.data 0x10260 2 = 0 := by decide +kernel

/-- A sentinel watch whose zone is superpixel (0, 0) with threshold 5. -/
def sentry : Watch := { entry := { num := 5, trigKind := 5, trigArg := block 16 [(4, 2, 5)] }, state := .armed }
def watching (r : Option (List Byte)) (vpix : Bool := true) : State :=
  { live0 with watches := [sentry], pix := { reference := r }, tide := { vpixReady := vpix } }

theorem witness_SentinelFramesAreEvaluated :
    (watching none).live ∧ (watching none).sentinelOn = true ∧ (watching none false).sentinelOn = true ∧
      (watching none).tide.vpixReady = true ∧
    (watching none false).tide.vpixReady = false ∧ (watching none).pix.reference = none ∧ (watching (some [])).tableOk ∧
    (watching (some [])).pix.reference = some [] ∧ (watching (some [])).watch? 5 = some sentry ∧ sentry.held = none ∧
    sentry.entry.group = 0 ∧ sentry.adapt = none ∧ leAt sentry.entry.trigArg 4 2 ≤ zoneSum sentry.entry.trigArg [5] [0] ∧
    zoneSum sentry.entry.trigArg [4, 9] [0] < leAt sentry.entry.trigArg 4 2 ∧
    byteAt sentry.entry.trigArg 2 < 64 ∧ byteAt sentry.entry.trigArg 3 < 48 ∧
      ({ watchIn .done with entry := { num := 6 } } : Watch).entry.trigKind ≠ 5 := by
  refine ⟨rfl, by decide +kernel, by decide +kernel, rfl, rfl, rfl, List.pairwise_singleton _ _, rfl, by decide +kernel, rfl, rfl,
  rfl, by decide +kernel,
    by decide +kernel, by decide +kernel, by decide +kernel, by decide⟩

/-- A superpixel whose pixels sum to 8,704 = 8.5 × 1,024 is 8, half to even (R280, R461), and a zone of one superpixel has its difference as
energy; a frame without VPIX is dropped (R84). -/
theorem test_sentinel :
    superpixel (List.replicate 16 (List.replicate 32 8) ++ List.replicate 16 (List.replicate 32 9)) 0 0 = 8 ∧
    zoneEnergy [5, 9] [2, 1] 0 0 0 0 = 3 ∧ sentinelDue [5] [0] sentry = true ∧ sentinelDue [4] [0] sentry = false ∧
    (after (exec (.sentinelFrame []) (watching (some []) false))).pix.sentFrames = 0 := by decide +kernel

/-- An ADC_SEQUENCE of one slot and one chain without a spectral front, 32 samples a block, no settling time. -/
def adcBody : List Byte := block 176 [(0, 1, 1), (1, 1, 1), (2, 1, 12), (6, 2, 32), (0x38, 2, 8), (0x3A, 1, 1), (0x3C, 4, 512), (0x40, 4, 512), (0x44, 2, 0xFFFF)]

/-- The device with the Aux ADC in a capture. -/
def sampling (c : AdcCapture) (a : Adc := {}) : State :=
  { live0 with watches := [taking 2 { acquired := true }], adc := { a with cap := some { c with watch := 5, chains := [{}] } },
               image := { records := [{ type := 0x0B, id := 3, body := adcBody }] }, tide := { xrefOn := true, xrefReady := true } }

/-- That chain on a steady input of 100 codes, one sample before the last output of its first block. -/
def steady : ChainRun :=
  { started := true, hist := List.replicate 29 100, cic := List.replicate 23 409600, phase := 15, words := List.replicate 31 (100, false, false) }
/-- A sequence of two slots of different gains: a discard clock precedes the second and, at the wrap, the first (R293). -/
def adcDiscard : AdcSeq := AdcSeq.read (block 176 [(0, 1, 2), (1, 1, 1), (2, 1, 12), (6, 2, 32), (0x1A, 1, 0x10), (0x38, 2, 8), (0x3A, 1, 1)])

/-- The last output of the block reaches the Harbour: code 100, above a header with block number 7 (R302 to R307). -/
theorem test_adc_block :
    let t := after (exec (.adcBlockComplete 0 9 [(100, false)])
      { sampling { running := true } with adc := { cap := some { watch := 5, running := true, blockBase := 7, chains := [steady] } } })
    rdLE t.harbour.data 0x10200 4 = 7 ∧ rdLE t.harbour.data 0x10214 6 = 9 ∧ rdLE t.harbour.data (0x10240 + 62) 2 = 100 := by decide +kernel

theorem witness_AuxAdcCapturesAndCalibrates :
    (let s := sampling {}; s.live ∧ s.tableOk ∧ s.tide.xrefReady = true ∧
      s.adcCapture? = some ({ watch := 5, chains := [{}] }, taking 2 { acquired := true }) ∧ (4817 ≤ rhe 308288 64 ∧
        rhe 308288 64 ≤ 5013) ∧ rhe 308224 64 < 4817) ∧
    (let s : State := { live0 with adc := { cal := some {} }, tide := { xrefReady := true } }; s.live ∧ s.tide.xrefReady = true ∧
      s.adc.cap = none ∧
      s.adc.cal = some {} ∧ ResetUnit.adc ∉ s.sys.resetting) ∧
    (let s := sampling { bgDone := true }; s.adcCapture? = some ({ watch := 5, bgDone := true, chains := [{}] }, taking 2 { acquired := true }) ∧
      (s.adcSeq (taking 2)).settle ≤ s.sys.tick) ∧
    (let s := sampling { running := true };
      ((s.adcSeq (taking 2)).chains.map (fun d => (d.spectral, d.buf, d.stride))) = [(false, 512, 512)] ∧
        (s.adcSeq (taking 2)).blockLen = 32 ∧
      (let f := [((100 : Int), false)].foldl (adcClock (s.adcSeq (taking 2)) 2) (0, [steady]);
        blockFull (s.adcSeq (taking 2)) 0 f.2 = true ∧ f.2.map (fun r => (r.done + 1, r.words.length)) = [(1, 32)]) ∧
      ((s.adcSeq (taking 2)).chains.map (fun d => (decide (1 ≤ d.m), decide (steady.hist = List.replicate (4 * d.m - 3) 100),
        decide (steady.cic = List.replicate (22 * (2 ^ d.hb - 1) + 1) (100 * (d.m ^ 4 : Nat))), decide (steady.phase + 1 = d.ratio)))) =
        [(true, true, true, true)] ∧
      adcDiscard.cycle = [none, some 0, none, some 0] ∧ ({} : ChainRun).started = false ∧
      s.harbour.wf = true ∧ 0 + 1 < (taking 2).entry.inputUnits ∧ (taking 2).inWindow (0x10000 + 512) 128 = true ∧
        (0x10000 + 512) % 64 = 0) ∧
    (let s : State := { live0 with adc := { cal := some { bgDone := true, applied := some 125000, gain := 2 }, m0 := [((0, 2), 37)] } };
      s.live ∧ s.adc.cap = none ∧ pairGet s.adc.m0 (0, 2) = some 37 ∧ (37 : Int) < rhe (4096 * 65500) 4096) ∧
    (let s := mail (cmd0 0x10 [(0, 0x21)]) (watchIn .armed); s.mbxFront (cmd0 0x10 [(0, 0x21)]) [] ∧ s.sys.fail = 0) ∧
    (∀ j, 2 ≤ j → j < 8 → (cmd0 0x11 [(0, 0x21), (1, 125000)]).arg j = 0) ∧ 4 < fld ((cmd0 0x10 [(0, 0x50)]).arg 0).toNat 4 3 ∧
    4096 * 1000000 ≤ ((125000 : Int) * (2 ^ 2 * 8192 : Nat)).natAbs ∧ ((1000 : Int) * (2 ^ 2 * 8192 : Nat)).natAbs < 4096 * 1000000 ∧
    (∀ j, 1 ≤ j → j < 7 → (cmd0 0x12 [(7, 0xFFFFFFFF)]).arg j = 0) := by
  refine ⟨⟨rfl, List.pairwise_singleton _ _, rfl, by decide +kernel, by decide +kernel, by decide +kernel⟩, ⟨rfl, rfl, rfl, rfl, by decide⟩,
    ⟨by decide +kernel, by decide +kernel⟩, ⟨by decide +kernel, by decide +kernel, by decide +kernel, by decide +kernel,
    by decide +kernel, rfl, rfl, by decide, by decide, by decide⟩,
    ⟨rfl, rfl, by decide +kernel, by decide +kernel⟩, ⟨⟨rfl, rfl, rfl, rfl, rfl⟩, rfl⟩, ?_, by decide +kernel, by decide, by decide, ?_⟩
  · intro j h1 h2
    have : j = 2 ∨ j = 3 ∨ j = 4 ∨ j = 5 ∨ j = 6 ∨ j = 7 := by omega
    rcases this with rfl | rfl | rfl | rfl | rfl | rfl <;> decide +kernel
  intro j h1 h2
  have : j = 1 ∨ j = 2 ∨ j = 3 ∨ j = 4 ∨ j = 5 ∨ j = 6 := by omega
  rcases this with rfl | rfl | rfl | rfl | rfl | rfl <;> decide +kernel

/-! ### The Stem engine -/

/-- The device whose Stem engine has one request of watch w at the front, over a Harbour that holds the given blocks. -/
def served (w : Watch) (k : StemKind) (ms : List (Nat × List Byte)) (more : List StemReq := []) : State :=
  { live0 with watches := [w], stem := { queue := { watch := 5, kind := k } :: more }, tide := { pllLocked := true },
               harbour := { data := ms.foldl (fun m x => wrBytes m x.1 x.2) [] }, core0 := { run := .running } }

/-- stemServes as a test, for a state whose only watch is w with number 5. -/
def serves (s : State) (r : StemReq) (rest : List StemReq) (w : Watch) : Bool :=
  !s.sys.inReset && s.stemRuns && decide (s.stem.queue = r :: rest) && decide (s.watch? r.watch = some w) && decide (r.watch =
  w.entry.num) &&
  decide (s.stopping = none) && s.harbour.wf && decide (s.harbour.poison = []) && decide (s.harbour.upset = []) && decide
  (s.stem.lineUpset = 0)

theorem stemServes_of (s : State) (r : StemReq) (rest : List StemReq) (w : Watch) (h : serves s r rest w = true) : s.stemServes r rest w := by
  simp only [serves, Bool.and_eq_true, Bool.not_eq_true', decide_eq_true_eq, and_assoc] at h
  exact h

/-- headsIssued as a test. -/
theorem headsIssued_of (s : State) (h : s.watches.all (fun w => decide ((w.job.map (·.headsLeft)).getD [] = [])) = true) : s.headsIssued := by
  intro w hw j hj
  have := List.all_eq_true.mp h w hw
  rw [hj] at this
  simpa using this

/-- A TENSOR record of five units whose first is a spectral configuration: N = 256, one band. -/
def specRec : PlacedRecord :=
  { type := 4, id := 0, placed := 320, length := 346,
    body := block 338 [(8, 1, 2), (9, 1, 8), (12, 1, 1), (24, 4, 0x2000), (28, 4, 512)] }
def specBody : List Byte := block 176 [(0, 1, 1), (1, 1, 1), (2, 1, 12), (6, 2, 256), (0x38, 2, 8), (0x3A, 1, 1), (0x3B, 1, 1), (0x3C, 4, 512), (0x40, 4, 1024)]
def spectralWatch : Watch :=
  { taking 2 { spectralLeft := 2 } with entry := { (taking 2).entry with tensorFirst := 0, tensorCount := 1 } }
def spectralState : State :=
  { served spectralWatch (.spectral 0 0) [] with image := { records := [{ type := 0x0B, id := 3, body := specBody }, specRec] } }

theorem witness_SpectralFrontWritesItsBands :
    spectralState.stemServes { watch := 5, kind := .spectral 0 0 } [] spectralWatch ∧
    ((spectralState.adcSeq spectralWatch).chains[0]?.bind (fun ch => spectralState.specConf? spectralWatch.entry ch)).map
      (fun c => (c.bands, c.outOff, c.avg, c.n, c.h, c.segs 256)) = some (1, 0x2000, 0, 256, 256, 1) ∧
    (spectralState.adcSeq spectralWatch).blockLen = 256 ∧ (0x10000 + 0x2000) % 64 = 0 ∧
      spectralWatch.inWindow (0x10000 + 512) (64 + 512) = true ∧
    spectralWatch.inWindow (0x10000 + 0x2000) (64 + 64) = true :=
  ⟨stemServes_of _ _ _ _ (by decide +kernel), by decide +kernel, by decide +kernel, by decide, by decide, by decide⟩

/-- Watch 5 with a window of 64 KiB and a job; its LABEL records go out. -/
def headed : Watch := { entry := { num := 5, hbrBase := 0x10000, hbrSize := 0x10000, recordKinds := 7 }, state := .running, job := some {} }

/-- A classifier of one feature (2) and two classes with weights 3 and -1, LOGIT_MUL 256, EMIT. -/
def classDesc : List Byte := block 128 [(7, 1, 1), (0x20, 2, 1), (0x22, 2, 1), (0x24, 1, 1), (1, 1, 1), (2, 1, 2), (3, 1, 2), (4, 2, 1), (8, 4, 256), (0xC, 4, 0x200), (0x10, 4, 0x400), (0x14, 4, 0x600), (0x18, 4, 0x800)]
/-- A detector of one location and anchor, SCORE_MIN 1, no EMIT. -/
def boxDesc : List Byte := block 128 [(0, 1, 1), (2, 1, 1), (3, 1, 1), (7, 1, 1), (0xC, 4, 0x200), (0x10, 4, 0x400), (0x18, 4, 0x800), (0x1C, 4, 0xA00),
  (0x20, 2, 1), (0x22, 2, 1), (0x24, 1, 1), (0x3C, 2, 1)]
def classState : State := served headed (.head (some 0) 0x10000 4)
  [(0x10000, classDesc), (0x10200, [2]), (0x10400, [3]), (0x10440, [0xFF])]
def boxState : State := served headed (.head none 0x10000 0) [(0x10000, boxDesc)] [{ watch := 5, kind := .head none 0x10080 0 }]

theorem witness_HeadRequestsClassifyAndDetect :
    (classState.stemServes { watch := 5, kind := .head (some 0) 0x10000 4 } [] headed ∧ classState.headTaker [] 5 (some 0) 4 ∧
      headed.inWindow 0x10000 128 = true ∧ (HeadDesc.read classDesc).ok classDesc = true ∧
        rdBytes classState.harbour.data 0x10000 128 = classDesc ∧
      (HeadDesc.read classDesc).kind = 0 ∧ bitN (HeadDesc.read classDesc).flags 2 = false ∧ (0x10000 + 0x800) % 64 = 0 ∧
      ((HeadDesc.read classDesc).tables 0x10000 false).all (fun r => classState.present r.1 r.2) = true ∧
        headed.inWindow 0x10200 1 = true ∧ headed.inWindow 0x10400 128 = true ∧
      headed.inWindow 0x10600 8 = true ∧ headed.inWindow 0x10800 64 = true ∧ headed.flag 3 = false ∧ classState.outboxTakes 1) ∧
    (boxState.stemServes { watch := 5, kind := .head none 0x10000 0 } [{ watch := 5, kind := .head none 0x10080 0 }] headed ∧
      boxState.headTaker [{ watch := 5, kind := .head none 0x10080 0 }] 5 none 0 ∧ rdBytes boxState.harbour.data 0x10000 128 = boxDesc ∧
      (HeadDesc.read boxDesc).ok boxDesc = true ∧ (HeadDesc.read boxDesc).kind = 1 ∧ headed.inWindow 0x10200 64 = true ∧
        headed.inWindow 0x10A00 512 = true ∧
      headed.inWindow 0x10400 8 = true ∧ headed.inWindow 0x10800 128 = true ∧
      ((HeadDesc.read boxDesc).tables 0x10000 false).all (fun r => boxState.present r.1 r.2) = true) ∧
    (HeadDesc.read (block 128 [(2, 1, 9)])).ok (block 128 [(2, 1, 9)]) = false ∧
    (let s : State := { classState with image := { absent := [(0x10400, 64)] } }; s.tableOk ∧ byteAt classDesc 0 ≠ 3 ∧
      (HeadDesc.read classDesc).ok classDesc = true ∧ ((HeadDesc.read classDesc).tables 0x10000 false).all (fun r => s.present r.1 r.2) = false ∧
      headed.job = some {}) := by
  refine ⟨⟨stemServes_of _ _ _ _ (by decide +kernel), ⟨headsIssued_of _ (by decide +kernel), rfl, rfl, rfl, by decide +kernel⟩, by
  decide, by decide +kernel,
    by decide +kernel, by decide +kernel,
    by decide +kernel, by decide, by decide +kernel, by decide, by decide, by decide, by decide, by decide, rfl, rfl, by decide⟩,
    ⟨stemServes_of _ _ _ _ (by decide +kernel), ⟨headsIssued_of _ (by decide +kernel), 0x10080, 0, List.mem_singleton.mpr rfl⟩, by
    decide +kernel,
      by decide +kernel, by decide +kernel, by decide, by decide, by decide, by decide, by decide +kernel⟩, by decide +kernel,
    ⟨List.pairwise_singleton _ _, by decide +kernel, by decide +kernel, by decide +kernel, rfl⟩⟩

/-- Sums 6 and -2, logits 1,536 and -512: e is 65,536 and 256, the scores 65,281 and 255 (R340 to R342); a LABEL record goes out. -/
theorem test_classify :
    let t := after (exec .headRequest classState)
    (List.range 2).map (fun i => ((rdByte t.harbour.data (0x10800 + i)).toNat, rdLE t.harbour.data (0x10808 + 2 * i) 2)) = [(0, 65281), (1, 255)] ∧
    t.host.outbox.map (fun b => byteAt b 0) = [1] ∧ t.stem.heads = 1 ∧ t.core0.evreg 4 = 1 := by decide +kernel

/-- A REQUANT_TABLE of one REPLAYABLE group of one layer of profile WA. -/
def groupRec : PlacedRecord := { type := 5, id := 0, body := block 192 [(0, 2, 1), (2, 2, 1), (4, 4, 64), (8, 4, 128), (66, 1, 1), (67, 1, 1)] }
def grouped (cores : BitVec 8) (j : Job) : Watch :=
  { wt0 with entry := { wt0.entry with cores := cores, requantRec := 0, satBudget := 2 }, job := some { j with inSpring := true } }
def groupDesc : List Byte := block 128 [(0, 1, 4), (0x18, 4, 0x800)]
def req0 : GroupReq := { core := 0, group := 0, result := 0x800, event := 4 }
def groupState (cores : BitVec 8) (j : Job) (q : List StemReq) : State :=
  { served (grouped cores j) .adapt [(0x10000, groupDesc)] with
    stem := { queue := q }, image := { records := [groupRec] },
    core0 := { run := .running, regs := { satc := (Vector.replicate 8 0).set 0 3 } } }

theorem witness_GroupRequestsDecideReplay :
    (let s := groupState 0x03 {} [{ watch := 5, kind := .head (some 0) 0x10000 4 }];
      s.live ∧ s.stemRuns = true ∧ s.tableOk ∧ s.harbour.wf = true ∧ s.springWatch = some (grouped 0x03 {}) ∧
        s.watch? 5 = some (grouped 0x03 {}) ∧
      s.quant? (grouped 0x03 {}) = some groupRec ∧ s.stopping = none ∧ rdBytes s.harbour.data 0x10000 128 = groupDesc ∧
        groupDescOk groupDesc = true ∧
      byteAt groupDesc 0 = 4 ∧ leAt groupDesc 4 2 < groupCount groupRec.body ∧ (grouped 0x03 {}).inWindow (0x10000 + 0x800) 64 = true ∧
      (grouped 0x03 {}).coreList = [0, 1]) ∧
    (let s := groupState 0x01 { groupReqs := [req0] } [];
      s.springWatch = some (grouped 0x01 { groupReqs := [req0] }) ∧ (grouped 0x01 { groupReqs := [req0] }).coreList = [0] ∧
      (0x10000 + 0x800) % 64 = 0 ∧ s.core0.run = .running ∧ s.core0.wait = none ∧ s.core0.replaying = false ∧
        (s.core0.evreg 4).toNat < 255 ∧
      s.headsIssued ∧ s.harbour.poison = [] ∧ ¬s.satTotal (grouped 0x01 {}) { totals := List.replicate 8 (2 ^ 32 - 3), inSpring := true } 0 < 2 ^ 32) := by
  refine ⟨⟨rfl, by decide +kernel, List.pairwise_singleton _ _, by decide +kernel, by decide +kernel, by decide +kernel,
  by decide +kernel, rfl,
    by decide +kernel, by decide +kernel, by decide +kernel, by decide +kernel, by decide, by decide +kernel⟩,
    by decide +kernel, by decide +kernel, by decide, rfl, rfl, rfl, by decide +kernel, headsIssued_of _ (by decide +kernel), rfl,
    by decide +kernel⟩

/-- A total of 3 over a budget of 2: REPLAY, with the total in the result line and the counters clear. -/
theorem test_group_decision :
    let t := after (exec .groupDecision (groupState 0x01 { groupReqs := [req0] } []))
    rdLE t.harbour.data 0x10800 4 = 1 ∧ rdLE t.harbour.data 0x10804 4 = 3 ∧ (t.core0.regs.satc[0]?).getD 9 = 0 ∧ t.stem.replays = 1 ∧
    t.core0.evreg 4 = 1 := by decide +kernel

/-- An export of one sample, nearest, of the box (0, 0, 2, 2) in berth 3. -/
def exportDesc : List Byte := block 128 [(0, 1, 3), (1, 1, 1), (2, 1, 1), (3, 1, 1), (4, 4, 512), (0x10, 4, 0x20000), (0x14, 4, 0x20000), (0x1A, 1, 0xFF)]
def exporting : Watch := { taking 1 with entry := { (taking 1).entry with flags := 0x10, recordKinds := 4, berthMask := 8 } }
def exportState0 (w : Watch) : State :=
  { served w (.head (some 0) 0x18000 4) [(0x18000, exportDesc), (0x10200, block 64 [(6, 2, 16), (8, 2, 8)]), (0x10281, [7])] with
    image := { records := [{ type := 0x0C, id := 3, body := pixBody 0 }] }, pix := { berths := [(3, .ready)] }, otp := { lc := 4, lcBoot := 4 } }

theorem witness_RoiExportsAreEmittedOrRefused :
    (let s := exportState0 exporting;
      s.stemServes { watch := 5, kind := .head (some 0) 0x18000 4 } [] exporting ∧ s.headTaker [] 5 (some 0) 4 ∧
      rdBytes s.harbour.data 0x18000 128 = exportDesc ∧ byteAt exportDesc 0 = 3 ∧ exportOk exportDesc = true ∧
      s.exportBerth? exporting (leAt exportDesc 4 4) = some (3, 0x10200) ∧ s.berth 3 = .ready ∧ rdByte s.harbour.data 0x10205 = 0 ∧
      (exporting.flag 4 && exporting.entry.recordKinds.getLsbD 2 && decide (1 ≤ s.otp.lcBoot) && decide (s.otp.lcBoot ≤ 4)) = true ∧
      exporting.inWindow 0x10200 (64 + 8 * 64) = true ∧ exporting.flag 3 = false ∧ s.outboxTakes 2) ∧
    ({ exporting with entry := { exporting.entry with flags := 0 } } : Watch).flag 4 = false :=
  ⟨⟨stemServes_of _ _ _ _ (by decide +kernel), ⟨headsIssued_of _ (by decide +kernel), rfl, rfl, rfl, by decide +kernel⟩,
  by decide +kernel, by decide +kernel, by decide +kernel, by decide +kernel,
    by decide +kernel, by decide +kernel, by decide, by decide, by decide, rfl, rfl, by decide⟩, by decide⟩

/-- The centre of the box is pixel (1, 1), which holds 7: a header and one sample record. -/
theorem test_roi_export :
    (after (exec .roiExport (exportState0 exporting))).host.outbox.map (fun b => (byteAt b 0, byteAt b 16)) = [(3, 1), (4, 7)] ∧
    (after (exec .roiExport { exportState0 exporting with otp := { lc := 5, lcBoot := 4 } })).stem.roiEmitted = 1 ∧
    (after (exec .roiExport { exportState0 exporting with otp := { lc := 5, lcBoot := 5 } })).stem.roiRefused = 1 := by
  decide +kernel

/-! ### On-sensor adaptation -/

/-- The adaptation block of the worked example of chapter 15 (LR_SHIFT 10, BETA_Q8 230, WQ_SHIFT 6, COMMIT_EVERY 8) over a head of two
features and two classes. -/
def adaptRec (every : Nat) : PlacedRecord := { type := 5, id := 0, body := block 128 [(0xC, 4, 64),
  (68, 4, 0x1000), (72, 4, 0x2000), (76, 4, 0x3000), (80, 1, 4), (82, 1, 10), (83, 1, 230), (84, 1, 6), (92, 1, every)] }
def block0 (every : Nat) : AdaptBlock := AdaptBlock.read (slice (adaptRec every).body 64 64)
def adapting (ls : List (Nat × Nat × Bool)) : Watch :=
  { entry := { num := 5, flags := 0x41, hbrBase := 0x10000, hbrSize := 0x10000, requantRec := 0 }, state := .armed, adapt := some { labels := ls } }
/-- Ring entry 0 keeps the features (16, 0) of sample 208; master (1, 0) is 45 / 64; LOGIT_MUL 0 gives both classes 32,768. -/
def adaptState (every : Nat) (ls : List (Nat × Nat × Bool)) : State :=
  { served (adapting ls) .adapt [(0x10000, block 128 [(1, 1, 4), (2, 1, 1), (3, 1, 2), (4, 2, 2), (7, 1, 1), (0x20, 2, 1), (0x22,
  2, 1), (0x24, 1, 1)]), (0x11080, [0x34, 0x3F]),
      (0x13000, block 64 [(0, 4, 208), (4, 1, 1)]), (0x13040, [16])] with image := { records := [adaptRec every] } }

theorem witness_AdaptationStepsUpdateTheHead :
    (let s := adaptState 8 [(0, 1, true)]; let w := adapting [(0, 1, true)];
      s.stemServes { watch := 5, kind := .adapt } [] w ∧ s.tableOk ∧ (s.adaptBlock? w).isSome = true ∧ s.committing 1 = false ∧
      s.headShape w (block0 8) = (2, 2) ∧ (s.adaptArea w (block0 8)).size = 384 ∧ serviceSize 2 2 = 192 ∧
      disjointRanges 0x11000 384 (0x12000 + 192) 192 ∧ disjointRanges 0x11000 384 0x10000 128 ∧
        disjointRanges (0x12000 + 192) 192 0x10000 128 ∧
      (s.adaptArea w (block0 8)).base % 64 = 0 ∧ serviceAddr w (block0 8) 2 2 true % 64 = 0) ∧
    ({ adapting [(0, 1, true)] with held := some (3, 0) } : Watch).held ≠ none ∧ (adapting []).entry.group = 0 ∧
    (block0 8).commitEvery = 8 ∧ (block0 1).commitEvery = 1 := by
  refine ⟨⟨stemServes_of _ _ _ _ (by decide +kernel), List.pairwise_singleton _ _, by decide +kernel, by decide +kernel, by decide +kernel,
    by decide +kernel, by decide, Or.inl (by decide), Or.inr (by decide), Or.inr (by decide), by decide +kernel,
    by decide +kernel⟩, by decide, rfl,
    by decide +kernel, by decide +kernel⟩

/-- Steps 3 to 5 of the worked example of chapter 15: M = -8, momentum -127, σ the binary32 nearest 8 / 127, the new master 0.7109375, the
service weight 46 (45.5 to even). -/
theorem test_adaptation_step :
    let t := after (exec .adaptationStep (adaptState 8 [(0, 1, true)]))
    rdLE t.harbour.data 0x11080 2 = 0x3F36 ∧ rdByte t.harbour.data (0x11000 + 64 + 128 + 64) = BitVec.ofInt 8 (-127) ∧
    rdLE t.harbour.data (0x11000 + 64 + 256 + 4) 4 = 0x3D810204 ∧ rdByte t.harbour.data (0x12000 + 192 + 64) = 46 ∧
      t.strand.commits = [] := by
  decide +kernel

/-- With COMMIT_EVERY 1 the step requests the commit of the 384 bytes of the state area. -/
theorem test_adaptation_commit :
    (after (exec .adaptationStep (adaptState 1 [(0, 1, true)]))).strand.commits.map (fun c => (c.record, c.body.length, c.cause)) =
      [(1, 384, .head 5 true)] := by decide +kernel

def labelState (c : MbxCmd) : State := { adaptState 8 [] with host := { mbx := [c] }, stem := {} }

theorem witness_LabelCommandsActOnTheirHead :
    (let c := cmd0 0x20 [(0, 5), (1, 208), (2, 1)]; let s := labelState c;
      s.mbxFront c [] ∧ s.sys.fail = 0 ∧ s.slotBusy = false ∧ s.watch? 5 = some (adapting []) ∧
        (s.adaptBlock? (adapting [])).isSome = true ∧
      s.ringEntry? (adapting []) (block0 8) 208 = some 0 ∧ s.ringEntry? (adapting []) (block0 8) 209 = none ∧ s.harbour.wf = true ∧
        s.harbour.poison = [] ∧ s.harbour.upset = [] ∧
      (c.arg 0).toNat &&& 0x303FF = (c.arg 0).toNat ∧ (∀ j, 3 ≤ j → j < 8 → c.arg j = 0) ∧ (s.headShape (adapting []) (block0 8)).2 = 2 ∧
      (rdByte s.harbour.data 0x13004).toNat = 1) ∧
    fld ((cmd0 0x20 [(0, 0x10005)]).arg 0).toNat 16 2 = 1 ∧ (cmd0 0x20 [(0, 0x10005)]).zeroFrom 1 ∧ (cmd0 0x20 [(0, 0x20005)]).zeroFrom 1 ∧
    fld ((cmd0 0x20 [(0, 0x30005)]).arg 0).toNat 16 2 = 3 ∧ (labelState (cmd0 0x20 [(0, 6)])).watch? 6 = none ∧
    ((cmd0 0x20 [(0, 0x405)]).arg 0).toNat &&& 0x303FF ≠ ((cmd0 0x20 [(0, 0x405)]).arg 0).toNat := by
  refine ⟨⟨⟨rfl, rfl, rfl, rfl, rfl⟩, rfl, by decide +kernel, by decide +kernel, by decide +kernel, by decide +kernel, by decide +kernel,
    by decide +kernel, rfl, rfl, by decide +kernel, ?_, by decide +kernel, by decide +kernel⟩, by decide +kernel, zeroFrom_one _
    (by decide +kernel), zeroFrom_one _ (by decide +kernel),
    by decide +kernel, by decide +kernel, by decide +kernel⟩
  intro j h1 h2
  have : j = 3 ∨ j = 4 ∨ j = 5 ∨ j = 6 ∨ j = 7 := by omega
  rcases this with rfl | rfl | rfl | rfl | rfl <;> decide +kernel

theorem test_label :
    (after (exec .label (labelState (cmd0 0x20 [(0, 5), (1, 208), (2, 1)])))).watches.map (fun w => w.adapt.map (·.labels)) = [some [(0, 1, true)]] ∧
    (after (exec .label (labelState (cmd0 0x20 [(0, 5), (1, 209), (2, 1)])))).stem.adaptStatus = 2 ∧
    (after (exec .label (labelState (cmd0 0x20 [(0, 5), (1, 208), (2, 2)])))).stem.adaptStatus = 3 := by decide +kernel

/-! ### Units, the scrub, the Strand store and the Outbox -/

/-- The device with a unit in partial reset. -/
def broken (u : ResetUnit) (s : State := live0) : State := { s with sys := { s.sys with resetting := [u] } }

theorem witness_PartialResetsEndAndDrainsTimeOut :
    (let s : State := { live0 with tide := { pllLocked := true } }; s.live ∧ s.stemRuns = true ∧ 4 < s.sys.unitResets.length ∧
      ResetUnit.stem ∉ s.sys.resetting) ∧
    (let s := broken .adc (sampling {}); ResetUnit.adc ∈ s.sys.resetting ∧ s.idleStores ∧ (∀ b ∈ s.strand.logQueue, b.length = 56) ∧
      Memory.wf s.strand.data = true ∧ s.tableOk ∧ s.adc.cap = some { watch := 5, chains := [{}] } ∧
        s.watch? 5 = some (taking 2 { acquired := true })) ∧
    (broken .adc).adc.cap = none ∧
    (let s : State := { broken .stem with watches := [headed], stem := { queue := [{ watch := 5, kind := .head none 0x10000 0 }] } };
      ResetUnit.stem ∈ s.sys.resetting ∧ s.tableOk ∧ (∀ w ∈ s.watches, ∀ j, w.job = some j → j.groupReqs = []) ∧ s.pix.cap = none ∧
      s.watch? 5 = some headed ∧ (broken .stem).stem.queue = []) ∧
    (let s := broken (.core 0) (onSpring {}); ResetUnit.core 0 ∈ s.sys.resetting ∧ (s.core 0).pend = [] ∧ (∀ c', c' ≠ (0 : Fin 4) →
      ResetUnit.core c' ∉ s.sys.resetting) ∧
      s.stopping = none ∧ s.tide.coreEn = true ∧ s.watch? 5 = some wt0) ∧
    (let s : State := { broken (.core 0) (onSpring {}) with stopping := some { watch := 5, code := 0x2B } };
      s.stopping = some { watch := 5, code := 0x2B } ∧ ∀ k, (s.core k).tokensBalance = true) ∧
    (let s : State := { broken .stem with watches := [headed], stem := { queue := [{ watch := 5, kind := .spectral 0 0 }] } };
      ResetUnit.stem ∈ s.sys.resetting ∧ s.watch? 5 = some headed ∧ headed.job = some {}) ∧
    (onSpring { replaying := true }).replaysOn (.core 0) = true ∧ (onSpring {}).replaysOn (.core 0) = false ∧
    (∀ p, ResetUnit.port p ∈ (broken (.port p)).sys.resetting) := by
  refine ⟨⟨rfl, by decide +kernel, by decide, by decide⟩, ⟨by decide, ⟨rfl, rfl, rfl, rfl⟩, by decide, rfl, List.pairwise_singleton
  _ _, rfl, by decide +kernel⟩, rfl,
    ⟨by decide, List.pairwise_singleton _ _, ?_, rfl, by decide +kernel, rfl⟩, ⟨by decide, rfl, by decide, rfl, rfl,
    by decide +kernel⟩, ⟨rfl, by decide +kernel⟩,
    ⟨by decide, by decide +kernel, rfl⟩, rfl, rfl, ?_⟩
  · intro w hw j hj
    rcases List.mem_singleton.mp hw with rfl
    cases hj
    rfl
  · intro p
    exact List.mem_singleton.mpr rfl

/-- The device with bank 0 and the system region retained. -/
def retained : State := { live0 with tide := { retain := 0x80000001 } }
/-- A watch whose PROGRAM record lies at Harbour line 512. -/
def placedWatch : Watch := { watchIn .armed with entry := { num := 5, flags := 5, progFirst := 0, progCount := 1 } }

theorem witness_ScrubFindsItsErrors :
    retained.live ∧ retained.tide.retain ≠ 0 ∧ retained.tide.power = .slack ∧
      ({ retained with tide := { retained.tide with power := .neap } } : State).tide.power ≠ .slack ∧
    retained.err.eccHarbour ≤ 0xFFFF ∧ retained.harbour.wf = true ∧ retained.scrubLine 0 = 0 ∧ retained.scrubLine 0x4000 = 31 * 0x4000 ∧
    retained.harbour.poisoned 0 = false ∧ retained.harbour.upset = [] ∧ (64 * 0 < 0x1F00000) ∧ 0x1F00000 ≤ 64 * (31 * 0x4000) ∧
      retained.idleStores ∧ retained.err.hour = [] ∧
    (let s : State := { retained with watches := [placedWatch], image := { records := [progRec] } };
      s.inPlaced placedWatch.entry 512 = true ∧ s.inPlaced placedWatch.entry 0 = false ∧ s.scrubLine 512 = 512 ∧
        512 < min 4096 4096 ∧ s.tableOk) ∧
    ({ retained with err := { scrubAt := 31 * 0x4000 } } : State).scrubLine 0 = 31 * 0x4000 :=
  ⟨rfl, by decide, rfl, by decide, by decide, rfl, by decide +kernel, by decide +kernel, by decide +kernel, rfl, by decide, by
  decide, ⟨rfl, rfl, rfl, rfl⟩, rfl,
    ⟨by decide +kernel, by decide +kernel, by decide +kernel, by decide, List.pairwise_singleton _ _⟩, by decide +kernel⟩

/-- An uncorrectable line of a placed record faults its watch with code 0x14; one elsewhere is poisoned. -/
theorem test_scrub :
    (after (exec (.scrub 4096 [] [512]) { retained with watches := [placedWatch], image := { records := [progRec] } })).watches.map (fun w => (w.state, w.faultCode)) =
      [(.faulted, 0x14)] ∧ (after (exec (.scrub 4096 [] [7]) retained)).harbour.poisoned 7 = true ∧
        (after (exec (.scrub 4096 [3] []) retained)).err.eccHarbour = 1 := by
  decide +kernel

/-- A commit of head slot 0 with two units of body. -/
def commit0 : Commit := { record := 1, body := List.replicate 100 0x5A, cause := .head 5 true }
def storing (r : Option CommitRun) (u : Option UnitRun) : State :=
  { live0 with strand := { run := r, writing := u }, tide := { vbatMv := 3000, tempTaken := true }, err := { logReady := true } }

theorem witness_StrandUnitsAreWrittenInOrder :
    (let s : State := { storing none none with strand := { commits := [commit0] } }; s.live ∧ s.engineReady ∧ s.strand.commits = [commit0] ∧
      (∃ n b, commit0.cause = .head n b) ∧ s.force 1 = none ∧ s.strand.logQueue = []) ∧
    ({ live0 with strand := { commits := [commit0], logQueue := [[1]] } } : State).strand.logQueue ≠ [] ∧
    ¬({ live0 with strand := { commits := [commit0] } } : State).engineReady ∧
    (let s : State := { storing none none with strand := { logQueue := [List.replicate 56 1] } }; s.engineReady ∧
      s.err.logReady = true ∧ (List.replicate 56 (1 : Byte)).length = 56) ∧
    (let s := storing (some { commit := commit0 }) (some { unit := 0x200, bytes := List.replicate 64 1 });
      s.live ∧ s.sys.delayed = none ∧ Memory.wf s.strand.data = true ∧ s.strand.run = some { commit := commit0 } ∧
        s.strand.logQueue = [] ∧ commit0.record ≠ 0 ∧
      2050 ≤ s.tide.vbatMv ∧ s.tide.tempTaken = true ∧ s.tide.temp < 120 * 64 ∧ (List.replicate 64 (1 : Byte)).length = 64 ∧ 1 < (commit0.body.length + 63) / 64) ∧
    ({ unit := 0x1C00, bytes := [], log := true } : UnitRun).log = true ∧ ¬({ fails := 2 } : UnitRun).fails < 2 ∧
    (let s : State := { live0 with strand := { commits := [commit0] } }; s.live ∧ s.strand.writing = none ∧ s.tide.vbatMv < 2050) := by
  refine ⟨⟨rfl, ⟨rfl, by decide, rfl, by decide, rfl⟩, rfl, ⟨5, true, rfl⟩, by decide +kernel, rfl⟩, by decide, ?_,
    ⟨⟨rfl, by decide, rfl, by decide, rfl⟩, rfl, by decide⟩,
    ⟨rfl, rfl, rfl, rfl, rfl, by decide, by decide, rfl, by decide, by decide, by decide⟩, rfl, by decide, rfl, rfl, by decide⟩
  intro h
  exact absurd h.2.1 (by decide)

/-- The header of a copy written last brings it into force, in the slot that was not (R690). -/
theorem test_commit :
    let s := storing (some { commit := commit0, slot := 1, seq := 8, unit := 0 }) (some { unit := 0x400, bytes := List.replicate 64 1 })
    (after (exec (.strandUnitWritten true) s)).strand.inForce.getD 1 none = some (1, 8) ∧
    (after (exec .strandCommit { storing none none with strand := { commits := [commit0], inForce := [none, some (0, 7), none, none, none] } })).strand.run =
      some { commit := commit0, slot := 1, seq := 8 } := by decide +kernel

/-- A draft of an EVENT and a watch of the GPIO trigger on line 0 with a hold-off of 3 ticks. -/
def draft0 : Draft := { type := 6, plain := zeros 16, short := zeros 8 }
def pinWatch : Watch := { entry := { num := 5, trigKind := 2, trigArg := block 16 [(2, 2, 3)] }, state := .armed }

theorem witness_OutboxAndPinEventsTakeEffect :
    (let s : State := { live0 with host := { held := [draft0] } }; s.live ∧ s.host.backlog = [] ∧
      s.host.outbox.length + s.host.held.length ≤ 64) ∧
    (let s : State := { live0 with host := { backlog := List.replicate 512 {} } }; 512 ≤ s.host.backlog.length ∧ s.watches = []) ∧
    (let s : State := { live0 with host := { backlog := [{ bytes := zeros 32 }] } }; s.tide.power ≠ .neap ∧
      s.host.backlog = [{ bytes := zeros 32 }] ∧ s.host.outbox.length < 64) ∧
    (let s : State := { live0 with watches := [pinWatch], gpio := { pilSel := 1 } }; s.tide.power ≠ .neap ∧ s.gpio.reload = false ∧
      s.tableOk ∧ s.watch? 5 = some pinWatch ∧
      pinWatch.held = none ∧ leAt pinWatch.entry.trigArg 0 1 = 0 ∧ (s.gpio.lineAfter 1 0 false false).2 = true) ∧
    (let s : State := { live0 with tide := { power := .neap } }; s.tide.power = .neap ∧ s.gpio.lineWake 7 = false) := by
  refine ⟨⟨rfl, rfl, by decide⟩, ⟨by decide +kernel, rfl⟩, ⟨by decide, rfl, by decide⟩,
    ⟨by decide, rfl, List.pairwise_singleton _ _, by decide +kernel, rfl, by decide +kernel, by decide +kernel⟩, rfl, by decide +kernel⟩

/-- A rising edge of the pad of line 0 reports the event and starts the watch. -/
theorem test_pin_event :
    let t := after (exec (.pinInterruptEvent 1 0 0) { live0 with watches := [pinWatch], gpio := { pilSel := 1 } })
    t.gpio.pilEvent = 1 ∧ t.watches.map (·.state) = [.running] := by decide +kernel

/-! ### Debug access -/

/-- The device with its debug access port open (TEST) in a power state. -/
def debugged (p : Power) : State := { live0 with otp := { lc := 1 }, tide := { power := p } }

theorem witness_DebugAccessRunsItsOperations :
    (∀ p, (debugged p).live ∧ (debugged p).dapTakes) ∧ ({ debugged .slack with tap := { wait := some 0x30 } } : State).tap.wait ≠ none ∧
    dapOpenIn 4 = false ∧ (0xFFFC : Word).toNat < 65536 ∧ (0xFFFC : Word).toNat % 4 = 0 ∧ 65536 ≤ (0x10000 : Word).toNat ∧
      (0x1EFFFFC : Word).toNat < 0x1F00000 ∧
    (0x1FFFFFC : Word).toNat < 0x2000000 ∧ 0x2000000 ≤ (0x2000000 : Word).toNat ∧ (debugged .slack).harbour.wf = true ∧
    (debugged .slack).harbour.poisoned 0 = false ∧ ({ debugged .slack with harbour := { poison := [(0, true)] } } : State).harbour.poisoned 0 = true ∧
    (let s : State := { debugged .slack with host := { backlog := [{ bytes := zeros 32 }] } };
      s.backlogPlace 0x1FC001C = some 0 ∧ s.backlogPlace 0x1FC0020 = none ∧ s.host.backlog[0]? = some { bytes := zeros 32 }) ∧
    (let s : State := { debugged .slack with watches := [watchIn .armed], tableBuilt := true, harbour := { data := [(0x1F00000, 5)] } };
      s.tableBuilt = true ∧ 0xC0 ≤ 0x1F000C0 % 256 ∧ s.watch? (rdLE s.harbour.data (0x1F000C0 / 256 * 256) 2) = some (watchIn .armed)) ∧
    (debugged .slack).harbour.upset = [] ∧ (debugged .slack).tide.coreEn = false ∧ (debugged .slack).otp.run = none ∧
      (debugged .slack).tap.args.getD 7 0 ≠ ~~~((debugged .slack).tap.args.getD 0 0) ∧
    (0x3F : BitVec 4).toNat ∉ [0, 1, 2, 8] := by
  refine ⟨fun p => ⟨rfl, rfl, rfl, rfl⟩, by decide, by decide, by decide, by decide, by decide, by decide, by decide, by decide,
  rfl, by decide, by decide,
    ⟨by decide +kernel, by decide +kernel, rfl⟩, ⟨rfl, by decide, by decide +kernel⟩, rfl, rfl, rfl, by decide, by decide⟩

/-- IDCODE: 32 bits, bit 0 is 1 (IEEE 1149.1), the part number 0x6120 above the maker's. -/
theorem test_idcode : ({ live0 with tap := { live0.tap with ir := .idcode } } : State).captureDr.length = 32 ∧ fld idcodeWord 0 1 = 1 ∧
    fld idcodeWord 12 20 = 0x16120 := by
  have := Config.maker.isLt
  refine ⟨?_, ?_, ?_⟩
  · show (lsbFirst 32 idcodeWord).length = 32
    simp [lsbFirst]
  all_goals
    unfold fld idcodeWord
    simp only [Nat.shiftRight_eq_div_pow]
    omega

theorem test_dap_memory :
    let t := after (exec (.memWrite 0x1000 0x12345678) (debugged .slack))
    t.tap.status = 0 ∧ (after (exec (.memRead 0x1000) t)).tap.result = 0x12345678 ∧
      (after (exec (.memRead 0x1000) (debugged .spring))).tap.status = 5 := by decide +kernel

/-! ### The Causeway link -/

/-- A MIDDLE device, chip 3, whose ports are as given. -/
def linked (up dn : Port) (k : Core := {}) : State :=
  { live0 with cw := { cfg := { role := 2 }, up := up, dn := dn, chip := some 3, txn := [0, 0, 0, 0] }, tide := { xrefOn := true, xrefReady := true }, core0 := k }
def working : Port := { state := .up, epoch := 9, valid := true, rxSeq := 4095, txSeq := 4095 }
def learning : Port := { state := .training, pll := true, aligned := true, epoch := 9, valid := true, ts1 := 1 }

theorem witness_PortsTrainUntilTheyAreUp :
    (let s := linked learning learning; s.live ∧ s.linkTrains .up ∧ s.linkTrains .dn ∧ s.tide.xrefReady = true ∧
      (s.port .dn).agreed = none ∧ (s.port .dn).epoch < 256 ∧
      s.cw.chip ≠ none ∧ (s.port .up).ts1 = 1) ∧
    (let s := linked { state := .down } {}; (s.port .up).state = .down ∧ ResetUnit.port .up ∉ s.sys.resetting) ∧
    (let s := linked { learning with agreed := some (10, false, some 3), ts2 := 2 } {}; s.linkTrains .up ∧
      (s.port .up).agreed = some (10, false, some 3) ∧ (s.port .up).ts2 = 2 ∧
      (s.port .up).queue = [] ∧ s.cw.doubts = [] ∧ (∀ c, (s.core c).pend = []) ∧ s.cw.cfg.role ≠ 3) ∧
    (let s : State := { linked {} { state := .sleep } with gpio := { cwWakePin := 4 } }; s.gpio.cwWakePin ≠ 31 ∧
      s.tide.power ≠ .neap ∧ s.tide.xrefReady = true ∧
      PortId.dn ∈ s.usedPorts ∧ (s.port .dn).state = .sleep) ∧
    live0.gpio.cwWakePin = 31 ∧ live0.single := by
  refine ⟨⟨rfl, ⟨rfl, rfl, rfl, by decide⟩, ⟨rfl, rfl, rfl, by decide⟩, rfl, rfl, by decide, by decide, rfl⟩, ⟨rfl, by decide⟩,
    ⟨⟨rfl, rfl, rfl, by decide⟩, rfl, rfl, rfl, rfl, by decide, by decide⟩, ⟨by decide, by decide, rfl, by decide, rfl⟩, rfl, rfl⟩

/-- Epochs 9 and 250 are 15 apart: the next is 10; chip 14 of the upstream end makes this chip 15 (R550, R571). -/
theorem test_ts1 :
    let t := after (exec (.ts1 .up { epoch := 250, epochValid := true, chip := 14, chipValid := true }) (linked learning learning))
    (t.port .up).agreed = some (10, false, some 15) := by decide +kernel

/-- An atomic of TC0 with status register s2 that chip 5 has to answer with TXN 1. -/
def remotePend : Pend := { slot := 13, op := 4, chip := some 5, reqs := [{ txn := 1 }], st := some 2 }

theorem witness_LinkControlWordsAreServed :
    (let s := linked working working; s.live ∧ s.linkUp .up ∧ s.linkUp .dn ∧ (s.port .dn).queue = [] ∧
      (s.port .dn).credits.length = 3 ∧ (s.port .dn).credits = [16, 16, 16]) ∧
    (linked working { working with retry := [(4094, {})] }).cw.dn.retry ≠ [] ∧ (working.retransmits < 15) ∧
      (15 ≤ ({ working with retransmits := 15 } : Port).retransmits) ∧
    ({ working with credits := [15, 16, 16] } : Port).credits ≠ [16, 16, 16] ∧
    (let s : State := { linked working working with gpio := { cwWakePin := 4, pins := [{ mask := 0x100000 }] } }; s.portIdle .dn = true ∧ s.maySleep = true) ∧
    (linked working working).maySleep = false ∧
    (let s := linked working { working with queue := [{ transit := true }] }; (s.port .dn).queue = [] ++ { transit := true } :: [] ∧ s.live) ∧
    (let s : State := { linked working working { run := .running, pend := [remotePend] } with
        cw := { (linked working working).cw with doubts := [{ core := 0, chip := 5 }] } };
      s.live ∧ ({ core := 0, chip := 5 } : Doubt) ∈ s.cw.doubts ∧ (s.core 0).pend = [remotePend] ∧ remotePend.reqs ≠ [] ∧
        remotePend.st = some 2 ∧
      remotePend.chip = some 5 ∧ (s.core 0).run = .running ∧ (s.core 0).wait = none ∧ (s.core 0).replaying = false) ∧
    (let q : Pend := { slot := 7, chip := some 5, event := some 3, reqs := [{ txn := 1 }] }; q.slot = 7 ∧ q.chip = some 5 ∧ q.reqs ≠ []) ∧
    ((LaneItem.nak 4095).controlWord = some (0x02, 4095) ∧ (LaneItem.nak 4095).fits) := by
  refine ⟨⟨rfl, ⟨rfl, rfl, by decide⟩, ⟨rfl, rfl, by decide⟩, rfl, rfl, rfl⟩, by decide, by decide, by decide, by decide, ⟨by
  decide +kernel, by decide +kernel⟩,
    by decide +kernel, ⟨rfl, rfl⟩, ⟨rfl, List.mem_singleton.mpr rfl, rfl, by decide, rfl, rfl, rfl, rfl, rfl⟩, ⟨rfl, rfl, by decide⟩, rfl,
    by simp [LaneItem.fits]⟩

/-- The code groups of K28.5 at both disparities (IEEE 802.3), and the idle ordered set, which keeps the disparity (R555). -/
theorem test_code_groups : codeGroup false symComma = (0b0011111010, true) ∧ codeGroup true symComma = (0b1100000101, false) ∧
    (codeGroups false idleSet).2 = false ∧ (codeGroups true idleSet).2 = true := by decide +kernel

/-- A control word and a packet read back from their bytes, and one with a wrong bit does not (R556, R559, R564). -/
theorem test_lane_bytes :
    readControl (controlBytes 0x03 0x501) = some (.credit 1 5) ∧ readControl ((controlBytes 0x03 0x501).set 1 0) = none ∧
    readPacket (packetBytes 4095 9 { type := 2, dest := 3, src := 5, watch := 1023, arg := 0x10000, txn := 0xFFFF, payload := [1, 2, 3, 4] }) =
      some (4095, 9, { type := 2, dest := 3, src := 5, watch := 1023, arg := 0x10000, txn := 0xFFFF, payload := [1, 2, 3, 4] }) ∧
    readPacket ((packetBytes 4095 9 { type := 8 }).set 5 1) = none := by decide +kernel

theorem test_nak :
    ((after (exec (.nak .dn 0) (linked working { working with retry := [(4094, { type := 6 })] }))).port .dn).sent = [.packet 4094 9 { type := 6 }] ∧
    ((after (exec (.crcError .dn) (linked working working))).port .dn).sent = [.nak 4095] := by decide +kernel

/-- A packet from chip 5 for this chip, in the window of a MULTICHIP watch. -/
def packet0 : Packet := { dest := 3, src := 5, watch := 5, arg := 0x10000, txn := 1 }
def receiving (k : Core := {}) : State := { linked working working k with watches := [wt0] }

theorem witness_PacketsAreAcceptedInOrder :
    (receiving).live ∧ (receiving).linkUp .dn ∧ (9 : BitVec 8).toNat = ((receiving).port .dn).epoch ∧
      (8 : BitVec 8).toNat ≠ ((receiving).port .dn).epoch ∧
    (4095 : BitVec 12).toNat = ((receiving).port .dn).rxSeq ∧ (4095 + 4095 - (4094 : BitVec 12).toNat) % 4096 < 2048 ∧
      2048 ≤ (4095 + 4095 - (0 : BitVec 12).toNat) % 4096 ∧
    (receiving).cw.chip ≠ some 1 ∧ working.unacked < 7 ∧ PortId.up ∈ (receiving).usedPorts ∧
    (let s := linked { state := .training } working; PortId.up ∈ s.usedPorts ∧ (s.port .up).state ≠ .up ∧ (s.port .up).state ≠ .sleep) ∧
    (let s : State := { receiving with cw := { (receiving).cw with cfg := { role := 1 } } }; PortId.up ∉ s.usedPorts) ∧
    (receiving).portToward 1 = .up ∧ (receiving).portToward 9 = .dn ∧ packet0.wf = true :=
  ⟨rfl, ⟨rfl, rfl, by decide⟩, rfl, by decide, rfl, by decide, by decide, by decide, by decide, by decide, ⟨by decide, by decide,
  by decide⟩, by decide, by decide, by decide, by decide⟩

theorem takes_receiving (k : Packet) (h : k.dest = 3) (hs : k.src = 5) (c : Core) : (receiving c).takesPacket .dn 4095 9 k :=
  ⟨⟨rfl, rfl, List.not_mem_nil⟩, rfl, rfl, (by decide : (0 : Nat) < 7), by rw [h]; rfl, by rw [hs]; rfl,
    (by decide : PortId.dn ∈ [PortId.up, PortId.dn]), rfl, rfl, rfl, (by decide : (4095 : Nat) < 4096), rfl, rfl⟩

/-- A FIRST of four lines whose LAST is due, and a declared marker of chip 5. -/
def half : State := { receiving with cw := { (receiving).cw with firsts := [{ packet0 with payload := zeros 264 }], markers := [{ watch := 5, chip := 5 }] } }

theorem witness_RequestsArePerformedAndAnswered :
    (receiving).takesPacket .dn 4095 9 packet0 ∧ (receiving).admits 5 0x10000 512 ∧ ¬(receiving).admits 5 0xFFC0 64 ∧
      ¬(receiving).admits 4 0x10000 4 ∧
    packet0.first = true ∧ packet0.last = true ∧ ({ packet0 with payload := zeros 66 } : Packet).payload.length = 66 * 1 ∧
    (half.cw.firsts = [{ packet0 with payload := zeros 264 }] ∧ (zeros 264).length = 66 * 4) ∧
      (receiving).harbour.poisoned (0x10000 / 64) = false ∧
    ({ receiving with harbour := { poison := [(0x400, true)] } } : State).harbour.poisoned 0x400 = true ∧
    (receiving).marker? 5 5 = none ∧ half.cw.markers = [{ watch := 5, chip := 5 }] ∧ half.watch? 5 = some wt0 ∧ wt0.flag 5 = true ∧
    (let s : State := { receiving with core0 := { run := .running }, core1 := { run := .running }, core2 := { run := .running }, core3 := { run := .running } };
      ∀ c, (s.core c).run = .running ∧ (s.core c).wait = none ∧ (s.core c).replaying = false) := by
  refine ⟨takes_receiving _ rfl rfl _, ⟨wt0, by decide +kernel, by decide, by decide⟩, ?_, ?_, rfl, rfl, by decide +kernel, ⟨rfl,
  by decide +kernel⟩, by decide,
    by decide, by decide, rfl, by decide +kernel, by decide, by decide⟩
  · rintro ⟨w, h, _, hw⟩
    have : (receiving).watch? 5 = some wt0 := by decide +kernel
    rw [this] at h
    cases h
    exact absurd hw (by decide)
  · rintro ⟨w, h, _⟩
    have : (receiving).watch? 4 = none := by decide +kernel
    rw [this] at h
    cases h

/-- A WRW of 4 bytes is performed and acknowledged; outside the window it is refused. -/
theorem test_wrw :
    let t := after (exec (.wrw .dn 4095 9 { packet0 with type := 2, payload := [1, 2, 3, 4] }) (receiving))
    rdLE t.harbour.data 0x10000 4 = 0x04030201 ∧ (t.port .dn).sent =
      [.packet 4095 9 { type := 8, dest := 5, src := 3, watch := 5, txn := 1 }, .credit 0 1] ∧
    (after (exec (.wrw .dn 4095 9 { packet0 with type := 2, arg := 0x20000, payload := [1, 2, 3, 4] }) (receiving))).cw.refusedIn = 1 := by decide +kernel

theorem witness_ResponsesAndMessagesTakeEffect :
    (let s := receiving { run := .running, pend := [remotePend] }; s.takesPacket .dn 4095 9 packet0 ∧
      s.awaits 0 packet0 remotePend ∧ packet0.status = 0 ∧
      remotePend.slot = 13 ∧ remotePend.op ≠ 0xD) ∧
    ({ packet0 with status := 1 } : Packet).status ≠ 0 ∧
    (let q : Pend := { slot := 7, chip := some 5, event := some 3, reqs := [{ txn := 1 }] };
      (receiving { run := .running, pend := [q] }).awaits 0 packet0 q ∧ (((receiving {}).core 0).evreg 3).toNat < 255) ∧
    (let q : Pend := { slot := 13, op := 3, chip := some 5, sd := some 4, reqs := [{ txn := 1 }] }; (receiving { run := .running, pend := [q] }).awaits 0 packet0 q) ∧
    (let q : Pend := { slot := 6, chip := some 5, reqs := [{ txn := 1, off := 0x10000, loc := 0x1000, lines := 1 }] };
      (receiving { run := .running, pend := [q] }).awaits 0 packet0 q ∧ (0x1000 + (packet0.arg - 0x10000)) % 64 = 0 ∧
        ({} : Core).loc.wf = true) ∧
    (let s : State := { receiving with cw := { (receiving).cw with doubts := [{ core := 0, chip := 5, flushed := true }] } };
      s.cw.doubts = [{ core := 0, chip := 5, flushed := true }] ∧ (∀ c, (s.core c).pend = [] ∧ (s.core c).wait = none)) ∧
    (∀ c, ((receiving { run := .running, wait := some (.lost 5 (some 2)) }).core c).pend = []) ∧
    ((receiving { run := .running, wait := some (.lost 5 (some 2)) }).core 0).wait = some (.lost packet0.src (some 2)) ∧
    (receiving).tide.power ≠ .neap ∧ (receiving).tableOk := by
  refine ⟨⟨takes_receiving _ rfl rfl _, ⟨rfl, ⟨_, rfl, rfl⟩, rfl, rfl, rfl, rfl, rfl⟩, rfl, rfl, by decide⟩, by decide,
    ⟨⟨rfl, ⟨_, rfl, rfl⟩, rfl, rfl, rfl, rfl, rfl⟩, by decide +kernel⟩, ⟨rfl, ⟨_, rfl, rfl⟩, rfl, rfl, rfl, rfl, rfl⟩,
    ⟨⟨rfl, ⟨_, rfl, rfl⟩, rfl, rfl, rfl, rfl, rfl⟩, by decide, rfl⟩, ⟨rfl, by decide⟩, by decide, rfl, by decide,
    List.pairwise_singleton _ _⟩

/-! ### Invariants -/

theorem witness_StepKeepsTheMemoriesCanonical : State.reset.memoriesWf = true ∧ (boarded {}).memoriesWf = true ∧
    step { live0 with pending := [.reservoirSample 3600 4000] } = exec (.reservoirSample 3600 4000) live0 := ⟨by decide +kernel, by decide +kernel, rfl⟩
theorem witness_StepKeepsTheQueuesWithinTheirDepths : State.reset.withinDepths = true ∧
  (withRecords 64 live0).withinDepths = true := by decide +kernel
theorem witness_OtpCellsNeverClear : (programming []).memoriesWf = true ∧
  ((after (exec (.otpWordProgrammed 1 1) (programming []))).otpHigh 0x400).getLsbD 0 = true := by
  decide +kernel
theorem witness_StepKeepsTheWatchTableInOrder : ({ live0 with watches := [watchIn .armed, { watchIn .armed with entry := { num := 6 } }] } : State).tableOk := by
  refine List.Pairwise.cons ?_ (List.pairwise_singleton _ _)
  intro b hb
  rcases List.mem_singleton.mp hb with rfl
  decide

/-! ### Ill-formed commands, and words -/

/-- One term for each check of WellFormed.lean, which refuses it. -/
def illFormed : List Instr :=
  let p : Packet := { type := 1, lines := 1, payload := zeros 66 }
  [.write false 0x100 [] 4, .unknownCommand false 0x0B, .unknownCommand false 0x02, .unknownCommand false 0x0D, .flashProbe { header := zeros 63 },
   .reservoirSample 65536 0, .reservoirSample 0 65536, .vbatSample 65536, .admissionRequest 1024, .admitTimeout 1024, .inputAcquire
   1024, .groupRelease 1024,
   .fatal 256, .exposureEnd 0, .pixelRow [4096] [], .pixelRow [] [4096], .sentinelFrame [], .sentinelFrame [[0]], .credit .up 0 256,
   .ts1 .up { epoch := 256 }, .ts1 .up { chip := 16 }, .ts2 .up { role := 4 },
   .wr .up 0 0 { p with dest := 16 }, .wr .up 0 0 { p with src := 16 }, .wr .up 0 0 { p with core := 4 }, .wr .up 0 0 { p with status := 2 },
   .wr .up 0 0 { p with watch := 1024 }, .wr .up 0 0 { p with arg := 2 ^ 32 }, .wr .up 0 0 { p with txn := 65536 }, .wr .up 0 0 { p with type := 2 },
   .wr .up 0 0 { p with lines := 0, payload := [] }, .wr .up 0 0 { p with lines := 5, payload := zeros 330 }, .wr .up 0 0 { p with lines := 2 },
   .wrw .up 0 0 { type := 2 }, .rd .up 0 0 { type := 3 }, .rd .up 0 0 { type := 3, lines := 9 }, .rd .up 0 0 { type := 3, lines := 1, payload := [0] },
   .rdw .up 0 0 { type := 4, payload := [0] }, .marker .up 0 0 { type := 5, payload := [0] }, .flush .up 0 0 { type := 6, payload := [0] },
   .ack .up 0 0 { type := 8, payload := [0] }, .rdData .up 0 0 { type := 9 }, .rdData .up 0 0 { p with type := 9, status := 1 }, .rdwData .up 0 0 { type := 10 },
   .rdwData .up 0 0 { type := 10, status := 1, payload := zeros 4 }, .flushDone .up 0 0 { type := 11, payload := [0] }, .msg .up 0 0 { type := 12, payload := [0] },
   .notice .up 0 0 { type := 13, payload := [0] }, .chain .up 0 0 { type := 14, payload := [0] }, .dapReservedOp 7 0 0]

theorem test_ill_formed_refused : illFormed.all (fun i => !i.wf) = true := by decide +kernel

theorem test_well_formed_accepted : [Instr.write false 0x100 [] 3, .unknownCommand false 0x0C, .flashProbe { header := zeros 64 }, .reservoirSample 65535 65535,
    .fatal 255, .exposureEnd 1, .pixelRow [4095] [4095], .credit .up 0 255, .ts1 .up { epoch := 255, chip := 15, role := 3 },
    .wr .up 0 0 { type := 1, lines := 4, payload := zeros 264 }, .rd .up 0 0 { type := 3, lines := 8 }, .dapReservedOp 8 0 0].all Instr.wf = true := by decide +kernel

/-- The table gives no row any bits, so no word spells a command and the front of the queue stays. -/
theorem test_no_word_spells_a_command (n w : Nat) : decodeTableWord n w = none ∧ live0.withFetchWord n w = live0 := ⟨rfl, rfl⟩

/-! ### Worked examples of the spec -/

/-- Chapter 8: the zero of 20 in 1/16 code, and the pair (20, 4,216,727) from a mean of 104,320; ARG1 200,000 µV at ×4. -/
theorem test_calibration_example :
    (after (exec (.calMeasurementDone 81920 false) { live0 with adc := { cal := some { gain := 2, bgDone := true } } })).adc.m0 = [((0, 2), 20)] ∧
    (after (exec (.calMeasurementDone 427294720 false) { live0 with
      adc := { cal := some { gain := 2, bgDone := true, applied := some 200000 }, m0 := [((0, 2), 20)] } })).adc.pending = [((0, 2), 20, 4216727)] ∧
    rhe ((104320 - 20) * 4216727) (2 ^ 26) = 6554 := by decide +kernel

/-- Chapter 8: REACH of M = 240 and two half-band stages is 16,800 input samples, an output comes every 960. -/
theorem test_reach_example : (ChainDesc.read (block 32 [(0, 2, 240), (2, 1, 2)]) 0).reachOf = 16800 ∧
    (ChainDesc.read (block 32 [(0, 2, 240), (2, 1, 2)]) 0).ratio = 960 := by decide +kernel

/-- Chapter 9: the softmax of watch 12's logits, its list of three, and band 20 of watch 40. -/
theorem test_head_example :
    softmax [1976, -6000, 2276, -6000, -6000, 3000, -6000, 1720] = [3318, 0, 7475, 0, 0, 53085, 0, 1659] ∧
    topK 3 (([3318, 0, 7475, 0, 0, 53085, 0, 1659].zipIdx).map (fun x => (x.2, x.1))) = [(5, 53085), (2, 7475), (0, 3318)] ∧
    logBand (SpecConf.read (block 320 [(8, 4, 16384), (12, 2, 1024)])) 2900000 = (87, false) := by decide +kernel

/-- Chapter 13: watch 13's export: sample (0, 7) is 42, a tie to even; columns 8 to 15 lie outside and are 0. -/
theorem test_export_example :
    let m := wrBytes (wrBytes [] (64 + 100 * 512 + 510) [39, 41]) (64 + 101 * 512 + 510) [41, 43]
    let b := fun i => [0x01F00000, 0x00644000, 0x02100000, 0x00844000].getD i 0
    (List.range 16).map (fun i => (exportSamples m 0 512 256 16 1 false b 0).getD i 0) |>.drop 8 |>.all (· == 0) := by decide +kernel
theorem test_export_sample :
    let m := wrBytes (wrBytes [] (64 + 100 * 512 + 510) [39, 41]) (64 + 101 * 512 + 510) [41, 43]
    let b := fun i => [0x01F00000, 0x00644000, 0x02100000, 0x00844000].getD i 0
    (exportSamples m 0 512 256 16 16 false b 0).getD 7 0 = 42 := by decide +kernel

/-- Chapter 14: binary32 values narrowed to E4M3: 300, 464, 500, 2⁻¹⁰ and 3 × 2⁻¹¹, with their flags (INEXACT 1, SAT 2, UNDERFLOW 4). -/
theorem test_narrowing_example :
    [(300, (0 : Int)), (464, 0), (500, 0), (1, -10), (3, -11)].map (fun x => fmtE4M3.round false x.1 x.2) =
      [(0x79, 1), (0x7E, 1), (0x7E, 2), (0x00, 5), (0x01, 5)] := by decide +kernel

/-- Chapter 14: 2²⁴ + 1 + 1 in ascending order stays 2²⁴ (0x4B800000), INEXACT each time. -/
theorem test_order_example : f32Add 0x4B800000 0x3F800000 = (0x4B800000, 1) := by decide +kernel

/-- Chapter 15: 1,537 under the entry 0x0964_FDFD_1CC0_0000 and ReLU gives 69; 3,039 saturates to 127 and is clamped to 100. -/
theorem test_requantisation_example :
    let d := RDesc.read (block 64 [(0x1C, 1, 1)])
    (rescaleEl d 0x0964FDFD1CC00000 (.num false 1537 0) (fun _ => 0)).code = 69 ∧
    (rescaleEl d 0x0964FDFD1CC00000 (.num false 3039 0) (fun _ => 0)).code = 100 ∧
    (rescaleEl d 0x0964FDFD1CC00000 (.num false 3039 0) (fun _ => 0)).sat = true := by decide +kernel

/-- Chapter 5: copies 0b1111, a weak bit 3 of LC_B and 0b0111 in LC_C vote PROVISIONED; bit 3 disagrees. -/
theorem test_vote_example :
    ({ live0 with otp := { cells := [(0, 15), (1, 15), (2, 7)], cellsHigh := [(0, 15), (1, 7), (2, 7)] } } : State).lcVote = (7, 8) := by decide +kernel

/-- Chapter 21: PA5's entry 0B 00 19 routes it to line 5: GPIO_PILSEL 0x0400 and GPIO_PILCFG 0x00C0_0000; PC4 carries CW_WAKE. -/
theorem test_pin_map_example :
    let b := block 240 [(0x30 + 40, 1, 0x0B), (0x30 + 42, 1, 0x19), (0x30 + 160, 1, 0x0E), (0x30 + 161, 1, 2)]
    mapPilSel b = 0x0400 ∧ mapPilCfg b = 0x00C00000 ∧ inputPin b 2 = 20 := by decide +kernel

/-- Chapter 22: 2,880 µJ from 3,300 to 3,087 mV give 4,234 µF; the mean of the eight samples is 4,230. -/
theorem test_capacitance_example :
    (capSample 2880 3300 3087 { live0 with strand := { learn := true } }).strand.samples = [4234] ∧
    ({ live0 with strand := { samples := [4212, 4221, 4226, 4230, 4234, 4236, 4240, 4242] } } : State).capMean = 4230 := by decide +kernel

/-- Chapter 23: the morning check: TIDE_STATUS, TIDE_CTRL, TIDE_ENERGY, TIDE_RETAIN and watch 13's word. -/
theorem test_morning_check :
    let s : State := { live0 with
      tide := { power := .neap, block := some { capNomUf := 4230, reserveUj := 1500, vmaxMv := 3300, vminMv := 2200 }, energy := 12795, retain := 0x80000DF0 },
      watches := [{ entry := { num := 13, owner := 2 }, state := .armed, lastSeq := 23 }] }
    [0x300, 0x304, 0x308, 0x320, 0x1034, 0x0C].map s.quayWord = [0x0E00, 0x30, 0x31FB, 0x80000DF0, 0x17000041, 0] ∧
    s.quayBytes 0x1034 4 = [0x41, 0, 0, 0x17] := by decide +kernel

end Sys2Proof.Tests
end

