-- ==== Sys2Proof/Proofs/RegisterWrite.lean ====
section
/-! PROOF. Proofs/RegisterWrite.lean: REGISTER_WRITE does what the row of the register at its address does (R634), the register rows
of writeReg one address range at a time, and what a write of MBX_CMD leaves (R86, R654). -/
namespace Sys2Proof.Machine
open Sys2Proof

/-! ### Rows on the oldest captured word -/

/-- A row takes the oldest captured word where it is the one that the row applies (R634). -/
theorem inService_applied {s : State} {a : Nat} {v : Word} {rest : List (Nat × Word)} (h : s.captured a v rest)
    (f : State → State) : inService s (applied a v f) = f (s.took rest) := by
  obtain ⟨hlive, hbuf⟩ := h
  unfold State.live at hlive
  simp [inService, applied, hlive, hbuf, State.took]

theorem exec_registerWrite_of_captured {s : State} {a : BitVec 16} {v : Word} {rest : List (Nat × Word)}
    (h : s.captured a.toNat v rest) : exec (.registerWrite a v) s = .next (writeReg a.toNat v (s.took rest)) :=
  congrArg Host.Outcome.next (inService_applied h _)

/-! ### The registers by address -/

/-- The registers that have a row of their own, each with its row (R634, R711). -/
def registerRows (v : Word) : List (Nat × Instr) :=
  [(0x00C, .sysAlarm v), (0x01C, .sysSoftReset v), (0x06C, .sysLogCtrl v), (0x104, .obxIrq v), (0x108, .obxIrqStatus v),
    (0x10C, .obxPop v), (0x300, .capMismatch v), (0x304, .chgInhibit v), (0x424, .mbxStatus v), (0x504, .gpioOut v),
    (0x508, .gpioOe v), (0x50C, .gpioPilsel v), (0x510, .gpioPilcfg v), (0x514, .gpioPilStatus v), (0x518, .gpioAlarmStatus v),
    (0x60C, .adcIepe v), (0x714, .forceAwake v), (0x804, .otpLockRd v), (0x808, .otpLockWr v), (0x818, .otpReadAddr v),
    (0x910, .learn v), (0xA04, .pixSentCfg v)]

theorem exec_registerRow (s : State) (v : Word) :
    ∀ x ∈ registerRows v, exec x.2 s = .next (inService s (applied x.1 v (writeReg x.1 v))) := by
  simp only [registerRows, List.forall_mem_cons]
  exact ⟨rfl, rfl, rfl, rfl, rfl, rfl, rfl, rfl, rfl, rfl, rfl, rfl, rfl, rfl, rfl, rfl, rfl, rfl, rfl, rfl, rfl, rfl,
    List.forall_mem_nil _⟩

theorem writeReg_mbxArg {n : Nat} (h : n < 8) (v : Word) : writeReg (0x404 + 4 * n) v = writeMbxArg n v := by
  funext s
  unfold writeReg
  rw [if_pos (by simp; omega)]
  congr 1
  omega

theorem writeReg_alarmCfg {n : Nat} (h : n < 8) (v : Word) : writeReg (0x520 + 4 * n) v = writeAlarmCfg n v := by
  funext s
  unfold writeReg
  rw [if_neg (by simp; omega), if_pos (by simp; omega)]
  congr 1
  omega

theorem writeReg_pin (p : Fin 24) (v : Word) : writeReg (0x540 + 4 * p.val) v = writePin p.val v := by
  funext s
  unfold writeReg
  rw [if_neg (by simp; omega), if_neg (by simp), if_pos (by simp; omega)]
  congr 1
  omega

/-- An address without a writable register ignores the write (R16). -/
theorem writeReg_of_unassigned {a : Nat} (v : Word) (s : State)
    (hr : a ∉ [0x00C, 0x01C, 0x06C, 0x104, 0x108, 0x10C, 0x300, 0x304, 0x400, 0x424, 0x504, 0x508, 0x50C, 0x510, 0x514, 0x518,
      0x60C, 0x714, 0x804, 0x808, 0x818, 0x910, 0xA04])
    (harg : ∀ n, n < 8 → a ≠ 0x404 + 4 * n) (hcfg : ∀ n, n < 8 → a ≠ 0x520 + 4 * n) (hpin : ∀ n, n < 24 → a ≠ 0x540 + 4 * n) :
    writeReg a v s = s := by
  have h1 := harg ((a - 0x404) / 4)
  have h2 := hcfg ((a - 0x520) / 4)
  have h3 := hpin ((a - 0x540) / 4)
  unfold writeReg
  rw [if_neg (by simp; omega), if_neg (by simp; omega), if_neg (by simp; omega)]
  split
  case h_24 => rfl
  all_goals exact absurd hr (by decide)

/-! ### MBX_CMD -/

/-- Moving records from the backlog to the Outbox leaves the Tide and the mailbox. -/
theorem refill_tide_mbx (n : Nat) (s : State) : (refill n s).tide = s.tide ∧ (refill n s).host.mbx = s.host.mbx ∧
    (refill n s).host.mbxArgs = s.host.mbxArgs := by
  induction n generalizing s with
  | zero => exact ⟨rfl, rfl, rfl⟩
  | succ n ih =>
    obtain ⟨ht, hm, ha⟩ := ih (refillOne s)
    rw [refill, ht, hm, ha, refillOne]
    split
    · exact ⟨rfl, rfl, rfl⟩
    · split <;> exact ⟨rfl, rfl, rfl⟩

theorem wake_of_not_neap {s : State} (h : s.tide.power ≠ .neap) : wake s = s := if_neg h

theorem wake_mbx (s : State) : (wake s).host.mbx = s.host.mbx ∧ (wake s).host.mbxArgs = s.host.mbxArgs := by
  unfold wake
  split
  · exact (refill_tide_mbx _ _).2
  · exact ⟨rfl, rfl⟩

theorem power_wake (s : State) : (wake s).tide.power = if s.tide.power = .neap then .slack else s.tide.power := by
  unfold wake
  split
  · rw [(refill_tide_mbx _ _).1]
  · rfl

/-- The command that a word written to MBX_CMD queues, with the arguments that stand (R654). -/
def MbxCmd.ofWord (v : Word) (args : List Word) : MbxCmd := { cmd := v.toNat % 256, tag := v.toNat / 256 % 256, args := args }

theorem MbxCmd.ofWord_eq (v : Word) (args : List Word) :
    MbxCmd.ofWord v args = { cmd := (v.extractLsb' 0 8).toNat, tag := (v.extractLsb' 8 8).toNat, args := args } := by
  simp [MbxCmd.ofWord, Nat.shiftRight_eq_div_pow]

theorem tide_writeMbxCmd (v : Word) (s : State) : (writeMbxCmd v s).tide = (wake s).tide := by
  unfold writeMbxCmd
  dsimp only
  split <;> rfl

theorem mbx_writeMbxCmd_of_room (v : Word) {s : State} (h : s.host.mbx.length < 4) :
    (writeMbxCmd v s).host.mbx = s.host.mbx ++ [MbxCmd.ofWord v s.host.mbxArgs] := by
  obtain ⟨hm, ha⟩ := wake_mbx s
  unfold writeMbxCmd
  rw [if_pos (by rw [hm]; exact h)]
  simp only [hm, ha, MbxCmd.ofWord]

theorem mbx_writeMbxCmd_of_full (v : Word) {s : State} (h : 4 ≤ s.host.mbx.length) :
    (writeMbxCmd v s).host.mbx = s.host.mbx ∧ (writeMbxCmd v s).host.mbxDropped = true := by
  obtain ⟨hm, -⟩ := wake_mbx s
  unfold writeMbxCmd
  rw [if_neg (by rw [hm]; omega)]
  exact ⟨hm, rfl⟩

/-- Settles O23: both sides are writeReg at the address, applied to the state without its oldest captured word. -/
theorem registerWriteAppliesTheOldestWord : Obligations.RegisterWriteAppliesTheOldestWord := by
  intro s a v rest h
  have hw := exec_registerWrite_of_captured h
  refine ⟨fun x hx ha => ?_, fun p ha => ?_, fun n hn ha => ?_, fun n hn ha => ?_, fun ha => ?_, fun hr harg hcfg hpin => ?_⟩
  · rw [exec_registerRow s v x hx, ← ha]
    rfl
  · rw [hw, ha, writeReg_pin]
    rw [ha] at h
    exact (congrArg Host.Outcome.next (inService_applied h (writePin p.val v))).symm
  · rw [hw, ha, writeReg_mbxArg hn]
    rfl
  · rw [hw, ha, writeReg_alarmCfg hn]
    rfl
  · have hc : writeReg a.toNat v (s.took rest) = writeMbxCmd v (s.took rest) := by rw [ha]; rfl
    rw [hc] at hw
    refine ⟨_, hw, fun hp => ?_, ?_, fun hroom => ?_, fun hfull => mbx_writeMbxCmd_of_full v hfull⟩
    · rw [tide_writeMbxCmd, wake_of_not_neap (s := s.took rest) hp]
      rfl
    · rw [tide_writeMbxCmd, power_wake]
      rfl
    · rw [mbx_writeMbxCmd_of_room v (s := s.took rest) hroom, MbxCmd.ofWord_eq]
      rfl
  · rw [hw, writeReg_of_unassigned v _ hr harg hcfg hpin]

end Sys2Proof.Machine
end

