-- ==== Sys2Proof/Proofs/Keeps.lean ====
section
/-! PROOF. Proofs/Keeps.lean: the relation Keeps, that a change keeps the waiting commands and leaves the queues within their
depths: its rules for updates of the state, for records (R639, R640, R645) and for the operations of a core (R376, R621). -/
namespace Sys2Proof.Machine
open Sys2Proof

/-! ### What every command keeps -/

/-- From s to t the waiting commands are the same, and where the queues of s lie within their depths those of t do. -/
structure Keeps (s t : State) : Prop where
  pending : t.pending = s.pending
  depths : s.withinDepths = true → t.withinDepths = true

/-- What `Keeps` looks at: the waiting commands, the queues of the Host port, the tick and the operations of the four cores. -/
def State.queues (s : State) :=
  (s.pending, s.host.outbox, s.host.backlog, s.host.wbuf, s.host.mbx, s.sys.tick,
    s.core0.pend, s.core1.pend, s.core2.pend, s.core3.pend)

theorem withinDepths_iff (s : State) : s.withinDepths = true ↔
    s.host.outbox.length ≤ 64 ∧ s.host.backlog.length ≤ 512 ∧ s.host.wbuf.length ≤ 16 ∧ s.host.mbx.length ≤ 4 ∧
    s.sys.tick < 2 ^ 48 ∧ ∀ c, (s.core c).tokensBalance = true := by
  have hc : ∀ c : Fin 4, c ∈ coreIds := by decide
  simp [State.withinDepths, and_assoc, hc]

theorem withinDepths_of_queues {s t : State} (h : t.queues = s.queues) : t.withinDepths = s.withinDepths := by
  simp only [State.queues, Prod.mk.injEq] at h
  obtain ⟨-, ho, hb, hw, hm, ht, h0, h1, h2, h3⟩ := h
  have hp : ∀ c, (t.core c).pend = (s.core c).pend := by intro c; fin_cases c <;> assumption
  rw [Bool.eq_iff_iff, withinDepths_iff, withinDepths_iff]
  simp only [Core.tokensBalance, ho, hb, hw, hm, ht, hp]

section
variable {s₀ s t : State}

theorem Keeps.refl (s : State) : Keeps s s := ⟨rfl, id⟩

theorem Keeps.trans (h : Keeps s₀ s) (h' : Keeps s t) : Keeps s₀ t := ⟨h'.pending.trans h.pending, h'.depths ∘ h.depths⟩

/-- A change that touches none of the queues. -/
theorem Keeps.frame (h : Keeps s₀ s) (e : t.queues = s.queues) : Keeps s₀ t :=
  ⟨(congrArg Prod.fst e).trans h.pending, fun h₀ => (withinDepths_of_queues e).trans (h.depths h₀)⟩

/-- A record update that leaves the tick, the queues of the Host port and the four cores. -/
theorem keeps_update {sys : Sys} {host : HostPort} {c0 c1 c2 c3 : Core} {tide otp image pix adc stem harbour sram watches built
    order src shut stop cw err gpio strand tap fresh free} (h : Keeps s₀ s)
    (e : (sys.tick, host.outbox, host.backlog, host.wbuf, host.mbx, c0, c1, c2, c3) =
      (s.sys.tick, s.host.outbox, s.host.backlog, s.host.wbuf, s.host.mbx, s.core0, s.core1, s.core2, s.core3)) :
    Keeps s₀ (State.mk s.pending sys tide otp image pix adc stem c0 c1 c2 c3 harbour sram watches built order src shut stop cw err
      host gpio strand tap fresh free) := by
  simp only [Prod.mk.injEq] at e
  exact h.frame (by simp [State.queues, e])

/-- New queues of the Host port, each within its depth where the old ones were. -/
theorem keeps_host {host : HostPort} (h : Keeps s₀ s) (ho : s.host.outbox.length ≤ 64 → host.outbox.length ≤ 64)
    (hb : s.host.backlog.length ≤ 512 → host.backlog.length ≤ 512) (hw : s.host.wbuf.length ≤ 16 → host.wbuf.length ≤ 16)
    (hm : s.host.mbx.length ≤ 4 → host.mbx.length ≤ 4) : Keeps s₀ { s with host := host } := by
  refine h.trans ⟨rfl, fun hs => ?_⟩
  obtain ⟨h1, h2, h3, h4, hd⟩ := (withinDepths_iff s).mp hs
  exact (withinDepths_iff _).mpr ⟨ho h1, hb h2, hw h3, hm h4, hd⟩

theorem keeps_foldl {α : Type} {l : List α} {f : State → α → State} (hf : ∀ x a, Keeps s₀ x → Keeps s₀ (f x a))
    (h : Keeps s₀ s) : Keeps s₀ (l.foldl f s) := by
  induction l generalizing s with
  | nil => exact h
  | cons a l ih => exact ih (hf s a h)

theorem keeps_ite {c : Prop} [Decidable c] (h : Keeps s₀ s) (h' : Keeps s₀ t) : Keeps s₀ (if c then s else t) := by
  split <;> assumption

/-! ### Cores and the descriptor tokens -/

/-- The operations of DMA slot n among those outstanding, each of which holds a token (R376). -/
def tokens (n : Nat) (ps : List Pend) : Nat := (ps.filter (fun q => q.slot == n)).length

theorem tokensBalance_iff (k : Core) : k.tokensBalance = true ↔ tokens 6 k.pend ≤ 16 ∧ tokens 7 k.pend ≤ 16 := by
  simp [Core.tokensBalance, tokens]

theorem tokens_append (n : Nat) (ps qs : List Pend) : tokens n (ps ++ qs) = tokens n ps + tokens n qs := by
  simp [tokens]

theorem tokens_eq_count (n : Nat) (ps : List Pend) : tokens n ps = (ps.map Pend.slot).count n := by
  rw [tokens, List.count, List.countP_map, List.countP_eq_length_filter]
  rfl

/-- Replacing an operation by one of the same slot moves no token. -/
theorem tokens_set {n i : Nat} {ps : List Pend} {p q : Pend} (hp : ps[i]? = some p) (hq : q.slot = p.slot) :
    tokens n (ps.set i q) = tokens n ps := by
  obtain ⟨hi, rfl⟩ := List.getElem?_eq_some_iff.mp hp
  rw [tokens_eq_count, tokens_eq_count, List.map_set, hq, ← List.getElem_map Pend.slot, List.set_getElem_self]
  simpa

theorem tokensBalance_of_pend {k k' : Core} (hp : k'.pend = k.pend) (h : k.tokensBalance = true) : k'.tokensBalance = true := by
  rw [tokensBalance_iff] at h ⊢
  rwa [hp]

theorem Keeps.tokensBalance (h : Keeps s₀ s) (c : Fin 4) (h₀ : s₀.withinDepths = true) : (s.core c).tokensBalance = true := by
  obtain ⟨-, -, -, -, -, hc⟩ := (withinDepths_iff s).mp (h.depths h₀)
  exact hc c

theorem keeps_setCore {c : Fin 4} {k : Core} (h : Keeps s₀ s) (hk : s₀.withinDepths = true → k.tokensBalance = true) :
    Keeps s₀ (s.setCore c k) := by
  refine ⟨(pending_setCore s c k).trans h.pending, fun h₀ => ?_⟩
  obtain ⟨ho, hb, hw, hm, ht, hc⟩ := (withinDepths_iff s).mp (h.depths h₀)
  refine (withinDepths_iff _).mpr ⟨by simpa, by simpa, by simpa, by simpa, by simpa, fun d => ?_⟩
  by_cases hd : d = c
  · subst hd; rw [core_setCore]; exact hk h₀
  · rw [core_setCore_ne s hd]; exact hc d

theorem keeps_modCore {c : Fin 4} {f : Core → Core} (hf : ∀ k, k.tokensBalance = true → (f k).tokensBalance = true)
    (h : Keeps s₀ s) : Keeps s₀ (s.modCore c f) :=
  keeps_setCore h fun h₀ => hf _ (h.tokensBalance c h₀)

/-- A change of a core that leaves its outstanding operations. -/
theorem keeps_modCore_of_pend {c : Fin 4} {f : Core → Core} (hf : ∀ k, (f k).pend = k.pend) (h : Keeps s₀ s) :
    Keeps s₀ (s.modCore c f) :=
  keeps_modCore (fun k => tokensBalance_of_pend (hf k)) h

theorem keeps_modCores {cs : List (Fin 4)} {f : Core → Core} (hf : ∀ k, k.tokensBalance = true → (f k).tokensBalance = true)
    (h : Keeps s₀ s) : Keeps s₀ (s.modCores cs f) :=
  keeps_foldl (fun _ _ => keeps_modCore hf) h

theorem keeps_modWatch {n : Nat} {f : Watch → Watch} (h : Keeps s₀ s) : Keeps s₀ (s.modWatch n f) := h.frame rfl
theorem keeps_modJob {n : Nat} {f : Job → Job} (h : Keeps s₀ s) : Keeps s₀ (s.modJob n f) := h.frame rfl
theorem keeps_freeBytes {n : Nat} (h : Keeps s₀ s) : Keeps s₀ (s.freeBytes n).2 := h.frame rfl
theorem keeps_inService {f : State → State} (hf : ∀ x, Keeps s₀ x → Keeps s₀ (f x)) (h : Keeps s₀ s) :
    Keeps s₀ (inService s f) := by
  unfold inService
  split
  · exact h
  · exact hf s h

/-! ### Records -/

theorem keeps_logEntry {e} (h : Keeps s₀ s) : Keeps s₀ (logEntry e s) := by
  unfold logEntry
  split
  · exact h.frame rfl
  · dsimp only
    split <;> exact h.frame rfl

theorem keeps_raiseAlarmAt {source b} (h : Keeps s₀ s) : Keeps s₀ (raiseAlarmAt source b s) := (keeps_logEntry h).frame rfl
theorem keeps_raiseAlarm {b} (h : Keeps s₀ s) : Keeps s₀ (raiseAlarm b s) := keeps_raiseAlarmAt h

theorem keeps_takeSeq {w} (h : Keeps s₀ s) : Keeps s₀ (takeSeq w s).2 := by
  cases w <;> exact h.frame rfl

theorem keeps_numberRecord (d b) (h : Keeps s₀ s) : Keeps s₀ (numberRecord d b s).2 := keeps_takeSeq h

theorem outbox_numberRecord (d : Draft) (b : Bool) (s : State) : (numberRecord d b s).2.host.outbox = s.host.outbox :=
  host_outbox_takeSeq d.watch s

theorem backlog_numberRecord (d : Draft) (b : Bool) (s : State) : (numberRecord d b s).2.host.backlog = s.host.backlog :=
  host_backlog_takeSeq d.watch s

theorem keeps_countMerge {v a b} (h : Keeps s₀ s) : Keeps s₀ (countMerge v a b s) := by
  unfold countMerge
  dsimp only
  split
  · exact h.frame rfl
  · exact keeps_logEntry (h.frame rfl)

/-- A record goes to the Outbox where it has room (R639). -/
theorem keeps_pushOutbox {b} (hn : s.host.outbox.length < 64) (h : Keeps s₀ s) : Keeps s₀ (pushOutbox b s) := by
  refine h.trans ⟨rfl, fun hs => ?_⟩
  obtain ⟨-, hd⟩ := (withinDepths_iff s).mp hs
  exact (withinDepths_iff _).mpr ⟨by simpa [pushOutbox] using hn, hd⟩

/-- A new backlog within its depth. -/
theorem keeps_backlog {l : List Entry} (hl : s.withinDepths = true → l.length ≤ 512) (h : Keeps s₀ s) :
    Keeps s₀ { s with host := { s.host with backlog := l } } := by
  refine h.trans ⟨rfl, fun hs => ?_⟩
  obtain ⟨ho, -, hd⟩ := (withinDepths_iff s).mp hs
  exact (withinDepths_iff _).mpr ⟨ho, hl hs, hd⟩

/-- The watch that loses records has two entries of the backlog, the new record counted for its own watch (R645). -/
theorem victim_has_two {s : State} {r : Option Nat} {v : Nat} (h : s.victim r = some v) :
    2 ≤ countOf v s.host.backlog + b2n (r == some v) := by
  unfold State.victim at h
  refine List.foldlRecOn (motive := fun best => ∀ v, best = some v → 2 ≤ countOf v s.host.backlog + b2n (r == some v))
    _ _ (by simp) (fun best hb w hw v hv => ?_) v h
  have hw2 := (List.mem_filter.mp hw).2
  simp only [decide_eq_true_eq] at hw2
  cases best with
  | none => cases hv; exact hw2
  | some b =>
    obtain rfl | rfl : v = w.entry.num ∨ v = b := by grind
    · exact hw2
    · exact hb _ rfl

/-- The backlog after two entries of watch v have become one and the new record has joined it (R645). -/
theorem length_merged {v : Nat} {r lost : Entry} {l : List Entry} (h : 2 ≤ countOf v l + b2n (r.watch == some v)) :
    (if (l.filter (fun e => e.watch == some v)).length = 1 then replaceFirst v lost l
      else mergeFirstTwo v lost l ++ [r]).length = l.length := by
  split
  · exact length_replaceFirst v lost l
  · next h1 =>
    have hb : b2n (r.watch == some v) ≤ 1 := by unfold b2n; split <;> omega
    have hc : countOf v l = (l.filter (fun e => e.watch == some v)).length := rfl
    have := length_mergeFirstTwo v lost l (by omega)
    simpa using this

theorem keeps_placeRecord {d t} (ht : placeRecord d s = some t) (h : Keeps s₀ s) : Keeps s₀ t := by
  unfold placeRecord at ht
  split at ht
  · next hroom =>
    have hn : Keeps s₀ (numberRecord d false s).2 := keeps_numberRecord d false h
    have ho := outbox_numberRecord d false s
    generalize numberRecord d false s = r at ht hn ho
    cases ht
    simp only [Bool.and_eq_true, decide_eq_true_eq] at hroom
    exact keeps_pushOutbox (ho ▸ hroom.2) hn
  · have hn : Keeps s₀ (numberRecord d true s).2 := keeps_numberRecord d true h
    have hb := backlog_numberRecord d true s
    generalize numberRecord d true s = r at ht hn hb
    split at ht
    · next hroom =>
      cases ht
      exact keeps_backlog (fun _ => by rw [List.length_append, hb]; exact hroom) hn
    · split at ht
      · cases ht
      · next v hv =>
        cases ht
        refine keeps_countMerge (keeps_backlog (fun hs => ?_) hn)
        obtain ⟨-, hl, -⟩ := (withinDepths_iff _).mp hs
        rw [hb] at hl ⊢
        exact (length_merged (victim_has_two hv)).le.trans hl

theorem keeps_release {d} (h : Keeps s₀ s) : Keeps s₀ (release d s) := by
  unfold release
  split
  · split
    · next ht => exact keeps_placeRecord ht h
    · exact h.frame rfl
  · exact h.frame rfl

theorem keeps_releaseAll {ds} (h : Keeps s₀ s) : Keeps s₀ (releaseAll ds s) := by
  induction ds generalizing s with
  | nil => exact h
  | cons d ds ih => exact ih (keeps_release h)

theorem keeps_placeHeld {n} (h : Keeps s₀ s) : Keeps s₀ (placeHeld n s) := by
  induction n generalizing s with
  | zero => exact h
  | succ n ih =>
    unfold placeHeld
    split
    · exact h
    · split
      · next ht => exact ih ((keeps_placeRecord ht (h.frame rfl)).frame rfl)
      · exact h

theorem keeps_refillOne (h : Keeps s₀ s) : Keeps s₀ (refillOne s) := by
  unfold refillOne
  split
  · exact h
  · next e t hb =>
    split
    · next hroom =>
      refine keeps_pushOutbox hroom (keeps_backlog (fun hs => ?_) h)
      obtain ⟨-, hl, -⟩ := (withinDepths_iff s).mp hs
      simp only [hb, List.length_cons] at hl
      omega
    · exact h

theorem keeps_refill {n} (h : Keeps s₀ s) : Keeps s₀ (refill n s) := by
  induction n generalizing s with
  | zero => exact h
  | succ n ih => exact ih (keeps_refillOne h)

/-! ### Changes of a core that leave its outstanding operations, or drop them -/

@[simp] theorem pend_closeWindow (k : Core) : (closeWindow k).pend = k.pend := rfl
@[simp] theorem pend_freeRetained (a b c) (k : Core) : (freeRetained a b c k).pend = k.pend := rfl
@[simp] theorem pend_addCycles (n) (k : Core) : (addCycles n k).pend = k.pend := by unfold addCycles; split <;> rfl
@[simp] theorem pend_tryHalt (k : Core) : (tryHalt k).pend = k.pend := by unfold tryHalt; split <;> rfl

theorem pend_readLines (q r) (k : Packet) (x : Core) : (readLines q r k x).pend = x.pend := by
  refine List.foldlRecOn (motive := fun y : Core => y.pend = x.pend) _ _ rfl fun y hy d _ => ?_
  dsimp only
  split <;> exact hy

theorem tokensBalance_coreOff (k : Core) : (coreOff k).tokensBalance = true := by rfl
theorem tokensBalance_freshCore (s w i r) (k : Core) : (freshCore s w i r k).tokensBalance = true := by rfl
theorem tokensBalance_framedCore (w b sets) (k : Core) : (framedCore w b sets k).tokensBalance = true := by rfl

theorem tokensBalance_of_sublist {k k' : Core} (hp : k'.pend.Sublist k.pend) (h : k.tokensBalance = true) :
    k'.tokensBalance = true := by
  rw [tokensBalance_iff] at h ⊢
  exact ⟨(hp.filter _).length_le.trans h.1, (hp.filter _).length_le.trans h.2⟩

/-- What stays outstanding while a replay drains holds no more tokens than before. -/
theorem tokensBalance_keepDraining {k k' : Core} (h : k.tokensBalance = true) (hp : k'.pend = keepDraining k.pend) :
    k'.tokensBalance = true := by
  rw [tokensBalance_iff] at h ⊢
  have hle : ∀ n, tokens n (keepDraining k.pend) ≤ tokens n k.pend := fun n => by
    simp only [tokens, keepDraining, List.filter_map, List.length_map]
    exact (List.filter_sublist.filter _).length_le
  rw [hp]
  exact ⟨(hle 6).trans h.1, (hle 7).trans h.2⟩

end

end Sys2Proof.Machine
end

