-- ==== Sys2Proof/Proofs/KeepsJobs.lean ====
section
/-! PROOF. Proofs/KeepsJobs.lean: resets, packets, jobs, the Strand store, power and the tensor cores keep the queues. -/
namespace Sys2Proof.Machine
open Sys2Proof

section
variable {s₀ s t : State}

/-! ### Resets (Machine/Reset.lean) -/

theorem keeps_putLog {body} (h : Keeps s₀ s) : Keeps s₀ (putLog body s) := keeps_update h rfl

theorem keeps_tearOtp (h : Keeps s₀ s) : Keeps s₀ (tearOtp s) := by
  unfold tearOtp
  split
  · exact keeps_update h rfl
  · exact keeps_update h rfl

theorem keeps_tearUnit (h : Keeps s₀ s) : Keeps s₀ (tearUnit s) := by
  unfold tearUnit
  split
  · exact keeps_update (keeps_freeBytes h) rfl
  · exact h

theorem keeps_flushFatalLog (h : Keeps s₀ s) : Keeps s₀ (flushFatalLog s) := by
  unfold flushFatalLog
  split
  · exact keeps_ite (keeps_putLog h) h
  · exact h

theorem keeps_enterReset {por} (h : Keeps s₀ s) : Keeps s₀ (enterReset por s) := by
  unfold enterReset
  have hf : Keeps s₀ (if s.sys.asserted.getLsbD 8 then flushFatalLog s else s) := by
    split
    · exact keeps_flushFatalLog h
    · exact h
  refine hf.trans ⟨rfl, fun hs => ?_⟩
  obtain ⟨-, -, -, -, ht, -⟩ := (withinDepths_iff _).mp hs
  refine (withinDepths_iff _).mpr ⟨by simp, by simp, by simp, by simp, ?_, fun c => by fin_cases c <;> rfl⟩
  dsimp only
  split
  · decide
  · exact ht

theorem keeps_assertReset {src} (h : Keeps s₀ s) : Keeps s₀ (assertReset src s) := by
  unfold assertReset
  refine keeps_ite h ?_
  extract_lets bit old _ s1
  have h1 : Keeps s₀ s1 := keeps_update h rfl
  cases src
  case por | thermTrip => exact keeps_enterReset (keeps_tearUnit (keeps_tearOtp h1))
  case borVbat | borVsys | thermReq =>
    have ht := keeps_tearOtp h1
    exact keeps_ite (keeps_update ht rfl) (keeps_enterReset ht)
  case pin | soft | wdt | fatal => exact keeps_ite (keeps_update h1 rfl) (keeps_enterReset h1)

theorem keeps_takeDelayed (h : Keeps s₀ s) : Keeps s₀ (takeDelayed s) := by
  unfold takeDelayed
  split
  · exact keeps_ite h (keeps_enterReset h)
  · exact h

theorem keeps_chipFatal {code source} (h : Keeps s₀ s) : Keeps s₀ (chipFatal code source s) :=
  keeps_ite h (keeps_assertReset (keeps_update (keeps_logEntry h) rfl))

theorem keeps_booksFail (h : Keeps s₀ s) : Keeps s₀ (booksFail s) := keeps_chipFatal h

/-! ### Packets and ports (Machine/CwOps.lean) -/

theorem keeps_setPort {p x} (h : Keeps s₀ s) : Keeps s₀ (s.setPort p x) := by
  cases p <;> exact h.frame rfl

theorem keeps_modPort {p f} (h : Keeps s₀ s) : Keeps s₀ (s.modPort p f) := keeps_setPort h

theorem keeps_control {p i} (h : Keeps s₀ s) : Keeps s₀ (control p i s) := keeps_modPort h

theorem keeps_beginPort {p} (h : Keeps s₀ s) : Keeps s₀ (beginPort p s) := keeps_modPort h

theorem keeps_returnCredit {p v n} (h : Keeps s₀ s) : Keeps s₀ (returnCredit p v n s) :=
  keeps_ite (keeps_control (keeps_modPort h)) h

theorem keeps_returnUnits {old new} (h : Keeps s₀ s) : Keeps s₀ (returnUnits old new s) :=
  keeps_foldl (fun _ _ h => keeps_foldl (fun _ _ => keeps_returnCredit) h) h

theorem keeps_pumpPort {p} (h : Keeps s₀ s) : Keeps s₀ (pumpPort p s) := keeps_returnUnits (keeps_setPort h)

theorem keeps_forgiveUnits {p} (h : Keeps s₀ s) : Keeps s₀ (forgiveUnits p s) := by
  unfold forgiveUnits
  exact keeps_modPort (keeps_modPort h)

theorem keeps_needXref (h : Keeps s₀ s) : Keeps s₀ (needXref s) := keeps_ite h (keeps_update h rfl)

theorem keeps_startTraining {p resume} (h : Keeps s₀ s) : Keeps s₀ (startTraining p resume s) := keeps_modPort h

theorem keeps_startPorts (h : Keeps s₀ s) : Keeps s₀ (startPorts s) :=
  keeps_ite (keeps_foldl (fun _ _ h => keeps_ite (keeps_startTraining h) (keeps_ite (keeps_startTraining h) h)) h) h

theorem keeps_needPort {p} (h : Keeps s₀ s) : Keeps s₀ (needPort p s) :=
  keeps_ite (keeps_startPorts (keeps_needXref (keeps_update h rfl))) h

theorem keeps_enqueue {p owes k} (h : Keeps s₀ s) : Keeps s₀ (enqueue p owes k s) :=
  keeps_pumpPort (keeps_needPort (keeps_modPort h))

theorem keeps_sendPacket {k} (h : Keeps s₀ s) : Keeps s₀ (sendPacket k s) := keeps_ite (keeps_enqueue h) h

theorem keeps_sendMessages {n} (h : Keeps s₀ s) : Keeps s₀ (sendMessages n s) := by
  unfold sendMessages
  split
  · exact h
  · exact keeps_foldl (fun _ _ h => keeps_ite (keeps_foldl (fun _ _ => keeps_sendPacket) h) h) h

/-! ### Watches and jobs (Machine/Jobs.lean) -/

theorem keeps_power {a n} (h : Keeps s₀ s) : Keeps s₀ (s.power a n) := keeps_update h rfl

theorem keeps_visit {a n} (h : Keeps s₀ s) : Keeps s₀ (s.visit a n) :=
  keeps_ite (keeps_power h) (keeps_update (keeps_power h) rfl)

theorem keeps_putHbr {a bs} (h : Keeps s₀ s) : Keeps s₀ (s.putHbr a bs) := keeps_update (keeps_power h) rfl

theorem keeps_putHbrLines {l ls} (h : Keeps s₀ s) : Keeps s₀ (s.putHbrLines l ls) := keeps_update (keeps_power h) rfl

theorem keeps_putHbrWhole {a bs} (h : Keeps s₀ s) : Keeps s₀ (s.putHbrWhole a bs) := keeps_putHbrLines h

theorem keeps_wake (h : Keeps s₀ s) : Keeps s₀ (wake s) := keeps_ite (keeps_refill (keeps_update h rfl)) h

theorem keeps_startPartial {u} (h : Keeps s₀ s) : Keeps s₀ (startPartial u s) := keeps_ite h (keeps_update h rfl)

theorem keeps_keepVpix {before} (h : Keeps s₀ s) : Keeps s₀ (keepVpix before s) := keeps_ite h (keeps_update h rfl)

theorem keeps_startJob {n due order gpio} (h : Keeps s₀ s) : Keeps s₀ (startJob n due order gpio s) := keeps_modWatch h

theorem keeps_serveTrigger {n due order gpio} (h : Keeps s₀ s) : Keeps s₀ (serveTrigger n due order gpio s) := by
  unfold serveTrigger
  split
  · exact keeps_ite (keeps_modWatch h) (keeps_startJob h)
  · exact h

theorem keeps_trigger {n due order gpio} (h : Keeps s₀ s) : Keeps s₀ (trigger n due order gpio s) := by
  unfold trigger
  split
  · exact h
  · exact keeps_ite h (keeps_ite (keeps_serveTrigger (keeps_wake h)) (keeps_ite (keeps_modWatch (keeps_wake h)) (keeps_modWatch
      (keeps_wake h))))

theorem keeps_startPending {n} (h : Keeps s₀ s) : Keeps s₀ (startPending n s) := by
  unfold startPending
  split
  · exact keeps_ite (keeps_serveTrigger (keeps_wake (keeps_modWatch h))) h
  · exact h

theorem keeps_tryHeld {n} (h : Keeps s₀ s) : Keeps s₀ (tryHeld n s) := by
  unfold tryHeld
  split
  · split
    · exact keeps_ite (keeps_modWatch h) (keeps_startJob h)
    · exact h
  · exact h

theorem keeps_triggerAll {ns order gpio} (h : Keeps s₀ s) : Keeps s₀ (triggerAll ns order gpio s) :=
  keeps_foldl (fun _ _ => keeps_trigger) h

theorem keeps_fireChains {n fired} (h : Keeps s₀ s) : Keeps s₀ (fireChains n fired s) :=
  keeps_ite h (keeps_triggerAll (keeps_update h rfl))

theorem keeps_alarmLine {n fired i} (h : Keeps s₀ s) : Keeps s₀ (alarmLine n fired i s) :=
  keeps_ite (keeps_ite (keeps_update h rfl) (keeps_ite (keeps_update h rfl) h)) h

theorem keeps_queueLabel {n entry cls byHost} (h : Keeps s₀ s) : Keeps s₀ (queueLabel n entry cls byHost s) :=
  keeps_update (keeps_modWatch h) rfl

theorem keeps_markEntry {a byHost} (h : Keeps s₀ s) : Keeps s₀ (markEntry a byHost s) := keeps_putHbr h

theorem keeps_adaptRead {rs} {lost f : State → State} (hl : ∀ x, Keeps s₀ x → Keeps s₀ (lost x))
    (hf : ∀ x, Keeps s₀ x → Keeps s₀ (f x))
    (h : Keeps s₀ s) : Keeps s₀ (adaptRead rs lost f s) := by
  unfold adaptRead
  split
  · exact hl _ (keeps_startPartial h)
  · exact hf _ (keeps_foldl (fun _ _ => keeps_visit) h)

theorem keeps_selfLabel {w} (h : Keeps s₀ s) : Keeps s₀ (selfLabel w s) := by
  unfold selfLabel
  split
  · refine keeps_ite h (keeps_adaptRead (fun _ hx => hx) (fun x hx => ?_) h)
    exact keeps_ite (keeps_queueLabel (keeps_markEntry (keeps_putHbr hx)))
      (keeps_ite (keeps_queueLabel (keeps_markEntry hx)) hx)
  · exact h

theorem keeps_leaveSpring (h : Keeps s₀ s) : Keeps s₀ (leaveSpring s) := by
  unfold leaveSpring
  split
  · exact keeps_booksFail h
  · split
    · have hm : Keeps s₀ (s.modCores coreIds coreOff) := keeps_modCores (fun k _ => tokensBalance_coreOff k) h
      exact keeps_keepVpix (hm.frame rfl)
    · exact h

theorem keeps_dropInputs {n} (h : Keeps s₀ s) : Keeps s₀ (dropInputs n s) := by
  unfold dropInputs
  dsimp only
  split
  · refine keeps_ite (keeps_update ?_ rfl) ?_
    · split
      · exact keeps_ite (keeps_keepVpix (keeps_update h rfl)) h
      · exact h
    · split
      · exact keeps_ite (keeps_keepVpix (keeps_update h rfl)) h
      · exact h
  · split
    · exact keeps_ite (keeps_keepVpix (keeps_update h rfl)) h
    · exact h

theorem keeps_dropRequests {n} (h : Keeps s₀ s) : Keeps s₀ (dropRequests n s) := keeps_update h rfl

theorem keeps_endJob {n} (h : Keeps s₀ s) : Keeps s₀ (endJob n s) := by
  unfold endJob
  split
  · exact h
  · split
    · exact h
    · refine keeps_ite (keeps_booksFail h) (keeps_ite ?_ (keeps_fireChains (keeps_sendMessages (keeps_selfLabel
        (keeps_foldl (fun _ _ => keeps_alarmLine) ?_))))) <;>
      exact keeps_modWatch (keeps_ite (keeps_release h) h)

theorem keeps_finishStop {x} (h : Keeps s₀ s) : Keeps s₀ (finishStop x s) := by
  unfold finishStop
  split
  · exact h
  · refine keeps_ite (keeps_leaveSpring ?_) ?_ <;>
      exact keeps_update (keeps_modWatch (keeps_dropRequests (keeps_dropInputs (keeps_logEntry (keeps_release h))))) rfl

theorem keeps_stopJob {x} (h : Keeps s₀ s) : Keeps s₀ (stopJob x s) := by
  unfold stopJob
  split
  · exact h
  · split
    · exact h
    · refine keeps_ite (keeps_ite h (keeps_update (keeps_foldl (fun _ _ hx => ?_) h) rfl)) (keeps_finishStop h)
      exact keeps_startPartial (keeps_modCore_of_pend (fun _ => rfl) hx)

theorem keeps_watchFatalAt {source addr n code exc core} (h : Keeps s₀ s) : Keeps s₀ (watchFatalAt source addr n code exc core s) :=
  keeps_stopJob h

theorem keeps_watchFatal {n code exc core} (h : Keeps s₀ s) : Keeps s₀ (watchFatal n code exc core s) := keeps_watchFatalAt h

theorem keeps_abandon {n cause st} (h : Keeps s₀ s) : Keeps s₀ (abandon n cause st s) := by
  unfold abandon
  split
  · exact h
  · exact keeps_modWatch (keeps_dropRequests (keeps_dropInputs (keeps_release h)))

theorem keeps_faultWatch {n code} (h : Keeps s₀ s) : Keeps s₀ (faultWatch n code s) :=
  keeps_update (keeps_release (keeps_modWatch h)) rfl

/-! ### The Strand store (Machine/Strand.lean) -/

theorem keeps_mbxComplete {code data} (h : Keeps s₀ s) : Keeps s₀ (mbxComplete code data s) := by
  unfold mbxComplete
  split
  · exact keeps_update h rfl
  · exact h

theorem keeps_calComplete {code} (h : Keeps s₀ s) : Keeps s₀ (calComplete code s) := keeps_mbxComplete (keeps_update h rfl)

theorem keeps_labelComplete {code} (h : Keeps s₀ s) : Keeps s₀ (labelComplete code s) := keeps_mbxComplete (keeps_update h rfl)

theorem keeps_requestCommit {c} (h : Keeps s₀ s) : Keeps s₀ (requestCommit c s) := keeps_update h rfl

theorem keeps_startCommitUnit (h : Keeps s₀ s) : Keeps s₀ (startCommitUnit s) := by
  unfold startCommitUnit
  split
  · exact keeps_ite (keeps_update h rfl) h
  · exact h

theorem keeps_startLogUnit (h : Keeps s₀ s) : Keeps s₀ (startLogUnit s) := by
  unfold startLogUnit
  split
  · exact keeps_ite (keeps_update h rfl) h
  · exact h

theorem keeps_endLearn {status} (h : Keeps s₀ s) : Keeps s₀ (endLearn status s) := keeps_update h rfl

theorem keeps_strandCommit (h : Keeps s₀ s) : Keeps s₀ (strandCommit s) := by
  unfold strandCommit
  split
  · exact keeps_startCommitUnit h
  · split
    · exact keeps_startCommitUnit (keeps_update h rfl)
    · exact h

theorem keeps_commitPoint {r} (h : Keeps s₀ s) : Keeps s₀ (commitPoint r s) := by
  unfold commitPoint
  extract_lets _ s1 _ s2 _
  have h1 : Keeps s₀ s1 := keeps_update h rfl
  have h2 : Keeps s₀ s2 := keeps_ite (keeps_update h1 rfl) h1
  split
  · exact keeps_calComplete (keeps_update h2 rfl)
  · exact keeps_endLearn h2
  · refine keeps_ite (keeps_labelComplete ?_) ?_ <;>
    · split
      · split
        · exact keeps_putHbr h2
        · exact h2
      · exact h2
  · exact h2

theorem keeps_commitFailed {r} (h : Keeps s₀ s) : Keeps s₀ (commitFailed r s) := by
  unfold commitFailed
  dsimp only
  split
  · exact keeps_calComplete (keeps_raiseAlarm (keeps_update h rfl))
  · exact keeps_endLearn (keeps_raiseAlarm (keeps_update h rfl))
  · exact keeps_ite (keeps_labelComplete (keeps_update (keeps_raiseAlarm (keeps_update h rfl)) rfl)) (keeps_update
      (keeps_raiseAlarm (keeps_update h rfl)) rfl)
  · exact keeps_raiseAlarm (keeps_update h rfl)

theorem keeps_unitWritten {u} (h : Keeps s₀ s) : Keeps s₀ (unitWritten u s) := by
  unfold unitWritten
  refine keeps_ite (keeps_update (keeps_update h rfl) rfl) ?_
  split
  · exact keeps_update h rfl
  · exact keeps_ite (keeps_update (keeps_update h rfl) rfl) (keeps_ite (keeps_update (keeps_commitPoint (keeps_update h rfl)) rfl)
      (keeps_update (keeps_update h rfl) rfl))

theorem keeps_unitDiffers {u} (h : Keeps s₀ s) : Keeps s₀ (unitDiffers u s) := by
  unfold unitDiffers
  refine keeps_ite (keeps_update (keeps_update (keeps_freeBytes h) rfl) rfl) (keeps_ite (keeps_update (keeps_update (keeps_update
    (keeps_freeBytes h) rfl) rfl) rfl) ?_)
  split
  · exact keeps_update (keeps_update (keeps_freeBytes h) rfl) rfl
  · exact keeps_ite (keeps_update (keeps_update (keeps_update (keeps_freeBytes h) rfl) rfl) rfl) (keeps_commitFailed (keeps_update
      (keeps_update (keeps_freeBytes h) rfl) rfl))

theorem keeps_strandUnitWritten {same} (h : Keeps s₀ s) : Keeps s₀ (strandUnitWritten same s) := by
  unfold strandUnitWritten
  split
  · exact h
  · exact keeps_ite (keeps_takeDelayed (keeps_ite (keeps_unitWritten h) (keeps_unitDiffers h))) (keeps_startCommitUnit
      (keeps_takeDelayed (keeps_ite (keeps_unitWritten h) (keeps_unitDiffers h))))

theorem keeps_strandTimeout (h : Keeps s₀ s) : Keeps s₀ (strandTimeout s) := by
  unfold strandTimeout
  refine keeps_ite h ?_
  split
  · exact keeps_update h rfl
  · exact keeps_ite (keeps_update h rfl) (keeps_commitFailed h)
  · split
    · exact keeps_ite (keeps_update h rfl) (keeps_commitFailed (keeps_update h rfl))
    · exact h

theorem keeps_strandRecovery (h : Keeps s₀ s) : Keeps s₀ (strandRecovery s) :=
  keeps_ite (keeps_ite (keeps_requestCommit (keeps_update h rfl)) (keeps_update h rfl)) (keeps_raiseAlarm (keeps_ite
    (keeps_requestCommit (keeps_update h rfl)) (keeps_update h rfl)))

theorem keeps_capBatch (h : Keeps s₀ s) : Keeps s₀ (capBatch s) :=
  keeps_ite (keeps_endLearn h) (keeps_ite (keeps_update h rfl) (keeps_requestCommit h))

theorem keeps_capSample {m vb va} (h : Keeps s₀ s) : Keeps s₀ (capSample m vb va s) :=
  keeps_ite (keeps_ite (keeps_capBatch (keeps_update h rfl)) (keeps_update h rfl)) h

/-! ### Power and admission (Machine/Tide.lean) -/

theorem keeps_raiseCharge (h : Keeps s₀ s) : Keeps s₀ (raiseCharge s) := keeps_ite h (keeps_update h rfl)

theorem keeps_dropCharge (h : Keeps s₀ s) : Keeps s₀ (dropCharge s) := keeps_update h rfl

theorem keeps_chargeControl (h : Keeps s₀ s) : Keeps s₀ (chargeControl s) := by
  unfold chargeControl
  split
  · exact keeps_dropCharge h
  · exact keeps_ite (keeps_dropCharge h) (keeps_ite h (keeps_ite (keeps_dropCharge h) (keeps_ite (keeps_raiseCharge h) h)))

theorem keeps_stallSample (h : Keeps s₀ s) : Keeps s₀ (stallSample s) := keeps_ite (keeps_update h rfl) h

theorem keeps_stallTick (h : Keeps s₀ s) : Keeps s₀ (stallTick s) := by
  unfold stallTick
  split
  · exact keeps_ite (keeps_update h rfl) (keeps_update h rfl)
  · exact h

theorem keeps_chgStallEvent (h : Keeps s₀ s) : Keeps s₀ (chgStallEvent s) := keeps_ite (keeps_update h rfl) h

theorem keeps_beginSpring {w b} (h : Keeps s₀ s) : Keeps s₀ (beginSpring w b s) := keeps_update (keeps_modJob (keeps_wake h)) rfl

theorem keeps_grantLimit (h : Keeps s₀ s) : Keeps s₀ (grantLimit s) := keeps_foldl (fun _ _ => keeps_watchFatal) h

theorem keeps_evaluateAdmission (h : Keeps s₀ s) : Keeps s₀ (evaluateAdmission s) := by
  unfold evaluateAdmission
  refine keeps_ite (keeps_grantLimit h) ?_
  split
  · exact keeps_ite (keeps_ite (keeps_beginSpring (keeps_grantLimit h)) (keeps_update (keeps_grantLimit h) rfl)) (keeps_grantLimit
      h)
  · exact keeps_grantLimit h

theorem keeps_refuseAdmission {n} (h : Keeps s₀ s) : Keeps s₀ (refuseAdmission n s) := by
  unfold refuseAdmission
  split
  · split
    · exact keeps_ite (keeps_modWatch h) h
    · exact h
  · exact h

theorem keeps_admissionRequest {n} (h : Keeps s₀ s) : Keeps s₀ (admissionRequest n s) := by
  unfold admissionRequest
  split
  · split
    · refine keeps_ite (keeps_ite (keeps_ite (keeps_endJob h) h) ?_) h
      split
      · exact keeps_watchFatal h
      · exact keeps_ite (keeps_watchFatal h) (keeps_refuseAdmission (keeps_evaluateAdmission (keeps_modJob h)))
    · exact h
  · exact h

theorem keeps_admitTimeout {n} (h : Keeps s₀ s) : Keeps s₀ (admitTimeout n s) := by
  unfold admitTimeout
  split
  · exact keeps_ite (keeps_startPending (keeps_keepVpix (keeps_abandon h))) h
  · exact h

theorem keeps_loadImem {c l} (h : Keeps s₀ s) : Keeps s₀ (loadImem c l s) :=
  keeps_foldl (fun _ _ hx => keeps_modCore_of_pend (fun _ => rfl) (keeps_visit hx)) h

theorem keeps_startCore {w index r c} (h : Keeps s₀ s) : Keeps s₀ (startCore w index r c s) :=
  keeps_modCore_of_pend (fun _ => rfl) (keeps_loadImem (keeps_modCore (fun k _ => tokensBalance_freshCore s w index r k) h))

theorem keeps_resumeCore {w j index c} (h : Keeps s₀ s) : Keeps s₀ (resumeCore w j index c s) := by
  unfold resumeCore
  refine keeps_modCore_of_pend (fun k => by split <;> rfl) (keeps_foldl (fun _ _ hx => ?_) ?_)
  · exact keeps_modCore_of_pend (fun _ => rfl) (keeps_loadImem hx)
  · exact keeps_modCore (fun k _ => tokensBalance_framedCore _ _ _ k) (keeps_visit h)

theorem keeps_memoryStop {c w src line slot pc} (h : Keeps s₀ s) : Keeps s₀ (memoryStop c w src line slot pc s) :=
  keeps_watchFatalAt (keeps_ite (keeps_raiseAlarm (keeps_modCore_of_pend (fun _ => rfl) h)) (keeps_modCore_of_pend (fun _ => rfl)
    h))

theorem keeps_releaseCores {w j} (h : Keeps s₀ s) : Keeps s₀ (releaseCores w j s) := by
  unfold releaseCores
  extract_lets n cs s1 s2 s3 s4 _ s5
  have h1 : Keeps s₀ s1 := keeps_ite (keeps_putHbrLines h) h
  have h2 : Keeps s₀ s2 := by
    unfold s2
    split
    · exact keeps_foldl (fun _ _ => keeps_startCore) h1
    · exact keeps_foldl (fun _ _ => keeps_resumeCore) (keeps_visit h1)
  have h5 : Keeps s₀ s5 := keeps_update (keeps_modJob (keeps_modWatch h2)) rfl
  refine keeps_ite (keeps_watchFatalAt h5) ?_
  split
  · exact keeps_memoryStop h5
  · exact h5

theorem keeps_coreRelease (h : Keeps s₀ s) : Keeps s₀ (coreRelease s) := by
  unfold coreRelease
  split
  · split
    · exact keeps_ite (keeps_releaseCores h) h
    · exact h
  · exact h

theorem keeps_settleMeter (h : Keeps s₀ s) : Keeps s₀ (settleMeter s) := by
  unfold settleMeter
  split
  · split
    · exact keeps_update (keeps_modJob h) rfl
    · exact h
  · exact h

theorem keeps_startCheckpoint {n} (h : Keeps s₀ s) : Keeps s₀ (startCheckpoint n s) := by
  unfold startCheckpoint
  split
  · exact keeps_modJob h
  · exact h

theorem keeps_meterCharge {us c0 c1 c2 c3} (h : Keeps s₀ s) : Keeps s₀ (meterCharge us c0 c1 c2 c3 s) := by
  unfold meterCharge
  split
  · split
    · extract_lets n s1 s2
      have h1 : Keeps s₀ s1 := keeps_modCore_of_pend (pend_addCycles _) (keeps_modCore_of_pend (pend_addCycles _)
        (keeps_modCore_of_pend (pend_addCycles _) (keeps_modCore_of_pend (pend_addCycles _) h)))
      have h2 : Keeps s₀ s2 := keeps_settleMeter (keeps_modJob h1)
      split
      · refine keeps_ite h2 ?_
        split
        · exact keeps_ite (keeps_startCheckpoint h2) h2
        · exact keeps_ite (keeps_watchFatal h2) h2
      · exact h2
    · exact h
  · exact h

theorem keeps_guardTrip (h : Keeps s₀ s) : Keeps s₀ (guardTrip s) := by
  unfold guardTrip
  split
  · exact keeps_ite (keeps_startCheckpoint h) h
  · exact h

theorem keeps_writeFrames {w k} (h : Keeps s₀ s) : Keeps s₀ (writeFrames w k s) :=
  keeps_putHbrWhole (keeps_freeBytes (keeps_foldl (fun _ _ => keeps_putHbrWhole) h))

theorem keeps_checkpointDone {w k} (h : Keeps s₀ s) : Keeps s₀ (checkpointDone w k s) :=
  keeps_leaveSpring (keeps_modWatch (keeps_modJob (keeps_writeFrames (keeps_settleMeter h))))

theorem keeps_checkpointComplete (h : Keeps s₀ s) : Keeps s₀ (checkpointComplete s) := by
  unfold checkpointComplete
  split
  · split
    · exact keeps_ite (keeps_ite (keeps_watchFatal h) (keeps_checkpointDone h)) h
    · exact h
  · exact h

theorem keeps_computeEnd (h : Keeps s₀ s) : Keeps s₀ (computeEnd s) := by
  unfold computeEnd
  split
  · exact keeps_ite (keeps_ite (keeps_watchFatal h) (keeps_endJob (keeps_leaveSpring (keeps_modJob (keeps_settleMeter h))))) h
  · exact h

theorem keeps_cutSpring {code} (h : Keeps s₀ s) : Keeps s₀ (cutSpring code s) := by
  unfold cutSpring
  split
  · exact keeps_finishStop h
  · exact keeps_finishStop h
  · exact h

theorem keeps_vcoreFail (h : Keeps s₀ s) : Keeps s₀ (vcoreFail s) := keeps_ite (keeps_cutSpring (keeps_raiseAlarm h)) h

theorem keeps_reservoirCollapse (h : Keeps s₀ s) : Keeps s₀ (reservoirCollapse s) :=
  keeps_ite (keeps_cutSpring (keeps_raiseAlarm (keeps_update h rfl))) h

theorem keeps_firstSample (h : Keeps s₀ s) : Keeps s₀ (firstSample s) :=
  keeps_ite (keeps_ite (keeps_capSample (keeps_update h rfl)) (keeps_update h rfl)) h

theorem keeps_account (h : Keeps s₀ s) : Keeps s₀ (account s) := by
  unfold account
  split
  · exact keeps_update h rfl
  · exact keeps_update h rfl

theorem keeps_reservoirSample {rsvMv vbatMv} (h : Keeps s₀ s) : Keeps s₀ (reservoirSample rsvMv vbatMv s) := by
  refine keeps_ite h (keeps_evaluateAdmission (keeps_ite (keeps_wake ?_) ?_)) <;>
    exact keeps_chargeControl (keeps_stallSample (keeps_firstSample (keeps_account (keeps_update h rfl))))

theorem keeps_vbatSample {vbatMv} (h : Keeps s₀ s) : Keeps s₀ (vbatSample vbatMv s) := keeps_chargeControl (keeps_update h rfl)

theorem keeps_applyStep (h : Keeps s₀ s) : Keeps s₀ (applyStep s) := by
  unfold applyStep
  split
  · exact keeps_update h rfl
  · exact h

theorem keeps_thermalShutdown (h : Keeps s₀ s) : Keeps s₀ (thermalShutdown s) :=
  keeps_update (keeps_leaveSpring (keeps_tearOtp h)) rfl

theorem keeps_tempSample {coarse} (h : Keeps s₀ s) : Keeps s₀ (tempSample coarse s) :=
  keeps_ite (keeps_thermalShutdown (keeps_applyStep (keeps_update h rfl))) (keeps_applyStep (keeps_update h rfl))

theorem keeps_neapEntry (h : Keeps s₀ s) : Keeps s₀ (neapEntry s) :=
  keeps_ite (keeps_booksFail h) (keeps_ite (keeps_update h rfl) h)

theorem keeps_bankPowerUp {b} (h : Keeps s₀ s) : Keeps s₀ (bankPowerUp b s) := keeps_ite h (keeps_update h rfl)

theorem keeps_doneRearm (h : Keeps s₀ s) : Keeps s₀ (doneRearm s) :=
  keeps_foldl (fun _ _ => keeps_startPending) (keeps_keepVpix (keeps_foldl (fun _ _ => keeps_modWatch) h))

theorem keeps_tickTrigger (h : Keeps s₀ s) : Keeps s₀ (tickTrigger s) := keeps_triggerAll h

theorem keeps_groupRelease {n} (h : Keeps s₀ s) : Keeps s₀ (groupRelease n s) := keeps_tryHeld h

/-! ### Tensor cores (Machine/Cores.lean) -/

theorem keeps_coreExceptionAt {source c cause slot pc} (h : Keeps s₀ s) :
    Keeps s₀ (coreExceptionAt source c cause slot pc s) := by
  unfold coreExceptionAt
  refine keeps_ite h ?_
  dsimp only
  split
  · refine keeps_watchFatalAt (keeps_modCore_of_pend (fun _ => rfl) ?_)
    split
    · exact keeps_update h rfl
    · exact h
  · refine keeps_modCore_of_pend (fun _ => rfl) ?_
    split
    · exact keeps_update h rfl
    · exact h

theorem keeps_coreException {c cause slot pc} (h : Keeps s₀ s) : Keeps s₀ (coreException c cause slot pc s) :=
  keeps_coreExceptionAt h

theorem keeps_performWord {p} (h : Keeps s₀ s) : Keeps s₀ (performWord p s).2 := by
  unfold performWord
  dsimp only
  split
  · exact keeps_visit h
  · split <;> exact keeps_putHbr (keeps_visit h)

theorem keeps_drainWords {atomics ps} (h : Keeps s₀ s) : Keeps s₀ (drainWords atomics ps s) :=
  keeps_foldl (fun _ _ h => keeps_ite (keeps_performWord h) h) h

theorem keeps_replay {c w src addr slot pc} (h : Keeps s₀ s) : Keeps s₀ (replay c w src addr slot pc s) := by
  unfold replay
  extract_lets k s1 s2
  have h2 : Keeps s₀ s2 :=
    keeps_setCore (keeps_drainWords h) fun h₀ => tokensBalance_keepDraining (h.tokensBalance c h₀) rfl
  exact keeps_logEntry (keeps_update (keeps_modJob h2) rfl)

theorem keeps_tryReplay {c} (h : Keeps s₀ s) : Keeps s₀ (tryReplay c s) := by
  have h1 : Keeps s₀ (s.setCore c (restored (s.core c))) :=
    keeps_setCore h fun h₀ => tokensBalance_of_pend rfl (h.tokensBalance c h₀)
  unfold tryReplay
  extract_lets
  refine keeps_ite (keeps_ite ?_ h1) h
  split
  · exact keeps_memoryStop (keeps_foldl (fun _ _ => keeps_loadImem) h1)
  · exact keeps_foldl (fun _ _ => keeps_loadImem) h1

theorem keeps_takeError {c src line slot pc} (h : Keeps s₀ s) : Keeps s₀ (takeError c src line slot pc s) := by
  unfold takeError
  split
  · exact h
  · exact keeps_ite (keeps_replay h) (keeps_memoryStop h)

theorem keeps_giveStatus {c st code pc} (h : Keeps s₀ s) : Keeps s₀ (giveStatus c st code pc s) := by
  unfold giveStatus
  split
  · exact keeps_modCore_of_pend (fun _ => rfl) h
  · exact keeps_ite h (keeps_coreException h)

theorem keeps_takeTxn {c} (h : Keeps s₀ s) : Keeps s₀ (takeTxn c s).2 := keeps_update h rfl

theorem keeps_storeMarker {watch chip idx epoch count} (h : Keeps s₀ s) : Keeps s₀ (storeMarker watch chip idx epoch count s) :=
  keeps_update h rfl

theorem keeps_publishMarker {c w chip epoch st} (h : Keeps s₀ s) : Keeps s₀ (publishMarker c w chip epoch st s) := by
  refine keeps_ite (keeps_ite (keeps_giveStatus (keeps_modCore_of_pend pend_closeWindow (keeps_storeMarker h)))
    (keeps_coreException h)) (keeps_sendPacket (keeps_modCore (fun k hk => ?_) (keeps_takeTxn h)))
  rw [tokensBalance_iff] at hk ⊢
  simpa [tokens] using hk

theorem keeps_tryWait {c} (h : Keeps s₀ s) : Keeps s₀ (tryWait c s) := by
  unfold tryWait
  dsimp only
  split
  · exact keeps_ite (keeps_modCore_of_pend (fun _ => pend_setEv ..) (keeps_modCore_of_pend (fun _ => rfl) h)) h
  · exact keeps_ite (keeps_giveStatus (keeps_modCore_of_pend (fun _ => pend_closeWindow ..) (keeps_modCore_of_pend (fun _ => rfl)
      h))) h
  · exact keeps_ite h (keeps_giveStatus (keeps_modCore_of_pend (fun _ => pend_freeRetained ..) (keeps_modCore_of_pend (fun _ =>
      rfl) h)))
  · split
    · exact keeps_ite (keeps_giveStatus (keeps_modCore_of_pend (fun _ => rfl) h)) h
    · exact h
  · exact keeps_ite h (keeps_giveStatus (keeps_modCore_of_pend (fun _ => rfl) h))
  · exact keeps_ite (keeps_ite h (keeps_giveStatus (keeps_modCore_of_pend (fun _ => pend_closeWindow ..) (keeps_modCore_of_pend
      (fun _ => rfl) h)))) (keeps_ite h (keeps_publishMarker (keeps_modCore_of_pend (fun _ => rfl) h)))
  · exact h

theorem keeps_settle {c} (h : Keeps s₀ s) : Keeps s₀ (settle c s) :=
  keeps_modCore_of_pend (fun _ => pend_tryHalt ..) (keeps_tryWait (keeps_tryReplay h))

theorem keeps_raiseEvent {c ev slot pc} (h : Keeps s₀ s) : Keeps s₀ (raiseEvent c ev slot pc s) := by
  unfold raiseEvent
  split
  · exact h
  · exact keeps_ite (keeps_coreException h) (keeps_modCore_of_pend (fun _ => pend_setEv ..) h)

theorem keeps_removePend {c i} (h : Keeps s₀ s) : Keeps s₀ (removePend c i s) :=
  keeps_modCore (fun _ => tokensBalance_of_sublist (List.eraseIdx_sublist _ i)) h

theorem keeps_completeDma {c i p} (h : Keeps s₀ s) : Keeps s₀ (completeDma c i p s) := by
  unfold completeDma
  dsimp only
  split
  · exact keeps_settle (keeps_takeError (keeps_removePend h))
  · exact keeps_settle (keeps_raiseEvent (keeps_removePend h))

theorem keeps_wordDone {c} (h : Keeps s₀ s) : Keeps s₀ (wordDone c s) := by
  unfold wordDone
  dsimp only
  split
  · exact h
  · refine keeps_ite (keeps_settle (keeps_takeError (keeps_removePend h))) (keeps_settle (keeps_giveStatus (keeps_ite
      (keeps_modCore_of_pend (fun _ => pend_closeWindow ..) ?_) ?_)))
    · split
      · exact keeps_modCore_of_pend (fun _ => pend_setS ..) (keeps_performWord (keeps_removePend h))
      · exact keeps_performWord (keeps_removePend h)
    · split
      · exact keeps_modCore_of_pend (fun _ => pend_setS ..) (keeps_performWord (keeps_removePend h))
      · exact keeps_performWord (keeps_removePend h)

theorem keeps_streamDone {c i p b dst block reread} (h : Keeps s₀ s) : Keeps s₀ (streamDone c i p b dst block reread s) := by
  unfold streamDone
  split
  · exact h
  · split
    · exact h
    · dsimp only
      split
      · exact keeps_completeDma (keeps_putHbrLines (keeps_ite (keeps_update h rfl) (keeps_update (keeps_update h rfl) rfl)))
      · exact keeps_coreExceptionAt (keeps_removePend (keeps_raiseAlarm (keeps_update (keeps_ite (keeps_update h rfl)
          (keeps_update (keeps_update h rfl) rfl)) rfl)))

theorem keeps_dmaComplete {c n block reread} (h : Keeps s₀ s) : Keeps s₀ (dmaComplete c n block reread s) := by
  unfold dmaComplete
  dsimp only
  split
  · refine keeps_ite ?_ h
    split
    · exact keeps_completeDma h
    · exact keeps_ite h (keeps_streamDone h)
  · exact h

theorem keeps_waitTimeout {c} (h : Keeps s₀ s) : Keeps s₀ (waitTimeout c s) := keeps_ite (keeps_coreException h) h

theorem keeps_markPoison {c src line} (h : Keeps s₀ s) : Keeps s₀ (markPoison c src line s) := by
  unfold markPoison
  dsimp only
  split
  · exact keeps_ite h (keeps_update (keeps_update h rfl) rfl)
  · exact keeps_ite h (keeps_update (keeps_modCore_of_pend (fun _ => rfl) h) rfl)
  · exact keeps_ite h (keeps_update (keeps_modCore_of_pend (fun _ => rfl) h) rfl)
  · exact keeps_update h rfl
  · exact h

theorem keeps_uncorrectableError {c src addr slot pc} (h : Keeps s₀ s) : Keeps s₀ (uncorrectableError c src addr slot pc s) :=
  keeps_ite (keeps_settle (keeps_takeError (keeps_markPoison h))) h

/-! ### Remote transfers (Machine/Dma.lean) -/

theorem keeps_sendBurst {c watch chip off ls} (h : Keeps s₀ s) : Keeps s₀ (sendBurst c watch chip off ls s).2 :=
  keeps_ite (keeps_sendPacket (keeps_takeTxn h)) (keeps_sendPacket (keeps_sendPacket (keeps_takeTxn h)))

theorem keeps_sendRead {c watch chip a loc n} (h : Keeps s₀ s) : Keeps s₀ (sendRead c watch chip a loc n s).2 :=
  keeps_sendPacket (keeps_takeTxn h)

/-! ### The fetch of a bundle (Machine/Bundle.lean) -/

theorem keeps_fetch {c p} (h : Keeps s₀ s) : Keeps s₀ (fetch c p s) :=
  keeps_ite (keeps_update (keeps_modCore_of_pend (fun _ => rfl) h) rfl) h

/-! ### Completion of transfers, the ends of inputs (Machine/Inputs.lean) -/

theorem keeps_setBerth {b x} (h : Keeps s₀ s) : Keeps s₀ (setBerth b x s) := keeps_update h rfl

theorem keeps_correctStem (h : Keeps s₀ s) : Keeps s₀ (correctStem s) := keeps_ite h (keeps_update h rfl)

theorem keeps_useStem {w} (h : Keeps s₀ s) : Keeps s₀ (useStem w s) := keeps_update (keeps_correctStem h) rfl

theorem keeps_stemReads {rs} (h : Keeps s₀ s) : Keeps s₀ (s.stemReads rs) :=
  keeps_update (keeps_foldl (fun _ _ => keeps_visit) h) rfl

theorem keeps_stemSat {n sat} (h : Keeps s₀ s) : Keeps s₀ (stemSat n sat s) := keeps_ite (keeps_modJob h) h

theorem keeps_keep {f iy} (h : Keeps s₀ s) : Keeps s₀ (FirstLayer.keep f iy s) := keeps_putHbr h

theorem keeps_issueHead {n} (h : Keeps s₀ s) : Keeps s₀ (issueHead n s) := by
  unfold issueHead
  split
  · split
    · exact keeps_ite (keeps_update (keeps_modJob h) rfl) h
    · exact h
  · exact h

theorem keeps_issueHeads (h : Keeps s₀ s) : Keeps s₀ (issueHeads s) :=
  keeps_foldl (fun _ _ h => keeps_foldl (fun _ _ => keeps_issueHead) h) h

theorem keeps_inputsDone {n} (h : Keeps s₀ s) : Keeps s₀ (inputsDone n s) := by
  unfold inputsDone
  split
  · exact h
  · refine keeps_ite ?_ (keeps_ite (keeps_releaseAll (keeps_modJob h)) (keeps_modJob h))
    split
    · exact keeps_endJob (keeps_ite (keeps_releaseAll (keeps_modJob h)) (keeps_modJob h))
    · exact keeps_ite (keeps_watchFatal (keeps_ite (keeps_releaseAll (keeps_modJob h)) (keeps_modJob h))) (keeps_issueHeads
        (keeps_modJob (keeps_ite (keeps_releaseAll (keeps_modJob h)) (keeps_modJob h))))

end

end Sys2Proof.Machine
end

