-- ==== Sys2Proof/Proofs/KeepsUnits.lean ====
section
/-! PROOF. Proofs/KeepsUnits.lean: the Stem engine, the front ends, the pins, the OTP and the watch table keep the queues. -/
namespace Sys2Proof.Machine
open Sys2Proof

section
variable {s₀ s t : State}

/-! ### The Stem engine (Machine/Stem.lean) -/

theorem keeps_popStem (h : Keeps s₀ s) : Keeps s₀ (popStem s) := keeps_update h rfl

theorem keeps_stemError (h : Keeps s₀ s) : Keeps s₀ (stemError s) := keeps_startPartial h

theorem keeps_stemWindow {n} (h : Keeps s₀ s) : Keeps s₀ (stemWindow n s) := keeps_watchFatal h

theorem keeps_headDone {n core event} (h : Keeps s₀ s) : Keeps s₀ (headDone n core event s) := by
  unfold headDone
  dsimp only
  split
  · exact keeps_issueHeads (keeps_settle (keeps_raiseEvent (keeps_modCore_of_pend (fun _ => rfl) (keeps_update h rfl))))
  · exact keeps_ite (keeps_issueHeads (keeps_update h rfl)) (keeps_issueHeads (keeps_endJob (keeps_update h rfl)))

theorem keeps_headBad {n} (h : Keeps s₀ s) : Keeps s₀ (headBad n s) := keeps_watchFatal (keeps_update h rfl)

theorem keeps_headAborted {n core} (h : Keeps s₀ s) : Keeps s₀ (headAborted n core s) := by
  unfold headAborted
  dsimp only
  split
  · exact keeps_ite (keeps_modCore_of_pend (fun _ => rfl) (keeps_update h rfl)) (keeps_coreExceptionAt (keeps_modCore_of_pend (fun
      _ => rfl) (keeps_update h rfl)))
  · exact keeps_watchFatal (keeps_update h rfl)

theorem keeps_takeGroup {w core a event b} (h : Keeps s₀ s) : Keeps s₀ (takeGroup w core a event b s) := by
  unfold takeGroup
  refine keeps_ite (keeps_popStem h) ?_
  dsimp only
  split
  · exact keeps_ite (keeps_stemWindow (keeps_popStem h)) (keeps_ite (keeps_headBad (keeps_popStem h)) (keeps_ite (keeps_stemWindow
      (keeps_popStem h)) (keeps_modJob (keeps_popStem h))))
  · exact keeps_headBad (keeps_popStem h)

theorem keeps_takeGroups {n} (h : Keeps s₀ s) : Keeps s₀ (takeGroups n s) := by
  induction n generalizing s with
  | zero => exact h
  | succ n ih =>
    unfold takeGroups
    split
    · dsimp only
      split
      · exact keeps_ite (ih (keeps_takeGroup h)) h
      · exact ih (keeps_popStem h)
    · exact h

theorem keeps_withFront {f : StemReq → Watch → State → State} (hf : ∀ r w x, Keeps s₀ x → Keeps s₀ (f r w x)) (h : Keeps s₀ s) :
    Keeps s₀ (withFront s f) := by
  have hg := keeps_takeGroups (n := s.stem.queue.length) h
  unfold withFront
  refine keeps_ite ?_ h
  dsimp only
  split
  · split
    · exact keeps_ite (keeps_popStem hg) (hf _ _ _ hg)
    · exact keeps_popStem hg
  · exact hg

theorem keeps_spectralRun {w q ch c k} (h : Keeps s₀ s) : Keeps s₀ (spectralRun w q ch c k s) :=
  keeps_ite (keeps_stemWindow (keeps_popStem h)) (keeps_ite (keeps_stemError h) (keeps_ite (keeps_inputsDone (keeps_modJob
    (keeps_stemSat (keeps_putHbrLines (keeps_stemReads (keeps_useStem (keeps_popStem h))))))) (keeps_modJob (keeps_stemSat
    (keeps_putHbrLines (keeps_stemReads (keeps_useStem (keeps_popStem h))))))))

theorem keeps_spectralFront (h : Keeps s₀ s) : Keeps s₀ (spectralFront s) := by
  unfold spectralFront
  refine keeps_withFront (fun _ _ _ h => ?_) h
  split
  · dsimp only
    split
    · exact keeps_spectralRun h
    · exact keeps_popStem h
  · exact h

theorem keeps_emitHead {w emit ds fired} (h : Keeps s₀ s) : Keeps s₀ (emitHead w emit ds fired s) :=
  keeps_ite (keeps_modJob (keeps_releaseAll h)) h

theorem keeps_keepFeatures {w b d top} (h : Keeps s₀ s) : Keeps s₀ (keepFeatures w b d top s) :=
  keeps_modJob (keeps_putHbr (keeps_putHbrLines h))

theorem keeps_classify {w d wA bA ad} (h : Keeps s₀ s) : Keeps s₀ (classify w d wA bA ad s) := by
  unfold classify
  refine keeps_emitHead ?_
  split
  · exact keeps_keepFeatures (keeps_putHbrLines (keeps_stemSat h))
  · exact keeps_putHbrLines (keeps_stemSat h)

theorem keeps_detect {w d t} (ht : detect w d s = some t) (h : Keeps s₀ s) : Keeps s₀ t := by
  unfold detect at ht
  dsimp only at ht
  split at ht
  · cases ht
  · cases ht
    exact keeps_emitHead (keeps_putHbrLines h)

theorem keeps_serveHead {w core event a b} (h : Keeps s₀ s) : Keeps s₀ (serveHead w core event a b s) := by
  have hp := keeps_popStem h
  unfold serveHead
  refine keeps_ite (keeps_headBad hp) (keeps_ite (keeps_stemError h) (keeps_ite (keeps_headBad hp)
    (keeps_ite (keeps_stemWindow hp) (keeps_ite (keeps_stemError h) ?_))))
  extract_lets s1 done
  have h1 : Keeps s₀ s1 := keeps_stemReads (keeps_useStem hp)
  have hd : ∀ t, done = some t → Keeps s₀ t := fun t ht => by
    unfold done at ht
    split at ht
    · split at ht
      · cases ht
        exact keeps_classify h1
      · cases ht
    · exact keeps_detect ht h1
  generalize done = o at hd ⊢
  cases o with
  | some t => exact keeps_headDone (hd t rfl)
  | none => exact keeps_stemWindow h1

theorem keeps_headRequest (h : Keeps s₀ s) : Keeps s₀ (headRequest s) := by
  unfold headRequest
  refine keeps_withFront (fun _ _ _ h => ?_) h
  split
  · exact keeps_ite (keeps_stemWindow (keeps_popStem h)) (keeps_ite (keeps_stemError h) (keeps_ite h (keeps_serveHead h)))
  · exact h

theorem keeps_serveExport {w core event b} (h : Keeps s₀ s) : Keeps s₀ (serveExport w core event b s) := by
  unfold serveExport
  dsimp only
  split
  · exact keeps_headBad (keeps_popStem h)
  · exact keeps_ite (keeps_stemWindow (keeps_popStem h)) (keeps_ite (keeps_stemError h) (keeps_ite (keeps_headBad (keeps_popStem
      h)) (keeps_ite (keeps_headDone (keeps_update (keeps_popStem h) rfl)) (keeps_ite (keeps_stemWindow (keeps_popStem h))
      (keeps_ite (keeps_stemError h) (keeps_headDone (keeps_update (keeps_releaseAll (keeps_stemReads (keeps_useStem
      (keeps_popStem h)))) rfl)))))))

theorem keeps_roiExport (h : Keeps s₀ s) : Keeps s₀ (roiExport s) := by
  unfold roiExport
  refine keeps_withFront (fun _ _ _ h => ?_) h
  split
  · exact keeps_ite (keeps_stemWindow (keeps_popStem h)) (keeps_ite (keeps_stemError h) (keeps_ite (keeps_serveExport h) h))
  · exact h

theorem keeps_decideGroup {w j body g} (h : Keeps s₀ s) : Keeps s₀ (decideGroup w j body g s) := by
  refine keeps_foldl (fun _ _ => keeps_headDone) (keeps_ite (keeps_update (keeps_modWatch ?_) rfl) ?_) <;>
    exact keeps_modJob (keeps_modCores (fun _ => tokensBalance_of_pend rfl) (keeps_foldl (fun _ _ => keeps_putHbrLines) h))

theorem keeps_groupDecision (h : Keeps s₀ s) : Keeps s₀ (groupDecision s) := by
  have hg := keeps_takeGroups (n := s.stem.queue.length) h
  unfold groupDecision
  refine keeps_ite ?_ h
  dsimp only
  split
  · split
    · split
      · exact keeps_decideGroup hg
      · exact hg
    · exact hg
  · exact hg

theorem keeps_writeService {w b toB} (h : Keeps s₀ s) : Keeps s₀ (writeService w b toB s).1 := keeps_putHbrWhole h

theorem keeps_emitAdapt {w d} (h : Keeps s₀ s) : Keeps s₀ (emitAdapt w d s) := keeps_ite (keeps_release h) h

theorem keeps_headNotCommitted {byHost} (h : Keeps s₀ s) : Keeps s₀ (headNotCommitted byHost s) :=
  keeps_ite (keeps_labelComplete (keeps_update h rfl)) (keeps_update h rfl)

theorem keeps_commitHead {w b byHost} (h : Keeps s₀ s) : Keeps s₀ (commitHead w b byHost s) :=
  keeps_adaptRead (fun _ => keeps_headNotCommitted) (fun _ => keeps_requestCommit) h

theorem keeps_stepEnded {n} (h : Keeps s₀ s) : Keeps s₀ (stepEnded n s) := keeps_tryHeld (keeps_modWatch h)

theorem keeps_adaptStep {w b act e y byHost} (h : Keeps s₀ s) : Keeps s₀ (adaptStep w b act e y byHost s) :=
  keeps_ite (keeps_commitHead (keeps_stepEnded (keeps_emitAdapt (keeps_update (keeps_putHbr (keeps_putHbr (keeps_writeService
    (keeps_putHbrWhole (keeps_putHbrWhole (keeps_putHbrWhole h)))))) rfl)))) (keeps_ite (keeps_labelComplete (keeps_stepEnded
    (keeps_emitAdapt (keeps_update (keeps_putHbr (keeps_putHbr (keeps_writeService (keeps_putHbrWhole (keeps_putHbrWhole
    (keeps_putHbrWhole h)))))) rfl)))) (keeps_stepEnded (keeps_emitAdapt (keeps_update (keeps_putHbr (keeps_putHbr
    (keeps_writeService (keeps_putHbrWhole (keeps_putHbrWhole (keeps_putHbrWhole h)))))) rfl))))

theorem keeps_adaptationStep (h : Keeps s₀ s) : Keeps s₀ (adaptationStep s) := by
  unfold adaptationStep
  refine keeps_withFront (fun _ _ _ h => ?_) h
  split
  · split
    · split
      · exact keeps_ite h (keeps_ite (keeps_stemError h) (keeps_adaptStep (keeps_stemReads (keeps_useStem (keeps_popStem h)))))
      · exact keeps_popStem h
    · exact keeps_popStem h
  · exact h

theorem keeps_buildAdapt {w} (h : Keeps s₀ s) : Keeps s₀ (buildAdapt w s) := by
  unfold buildAdapt
  split
  · exact h
  · exact keeps_ite (keeps_release (keeps_modWatch (keeps_foldl (fun _ _ => keeps_putHbr) (keeps_writeService (keeps_putHbrWhole
      h))))) (keeps_modWatch (keeps_foldl (fun _ _ => keeps_putHbr) (keeps_writeService (keeps_putHbrWhole h))))

theorem keeps_stemReleased (h : Keeps s₀ s) : Keeps s₀ (stemReleased s) := by
  unfold stemReleased
  dsimp only
  split
  · refine keeps_ite (keeps_watchFatal (keeps_foldl (fun _ _ h => keeps_headAborted (keeps_modJob h)) (keeps_foldl (fun _ _ h =>
      ?_) (keeps_update h rfl)))) (keeps_foldl (fun _ _ h => keeps_headAborted (keeps_modJob h)) (keeps_foldl (fun _ _ h => ?_)
      (keeps_update h rfl)))
    · split
      · exact keeps_headAborted h
      · exact keeps_headAborted h
      · exact h
    · split
      · exact keeps_headAborted h
      · exact keeps_headAborted h
      · exact h
  · refine keeps_foldl (fun _ _ h => keeps_headAborted (keeps_modJob h)) (keeps_foldl (fun _ _ h => ?_) (keeps_update h rfl))
    split
    · exact keeps_headAborted h
    · exact keeps_headAborted h
    · exact h

theorem keeps_stemBufferError (h : Keeps s₀ s) : Keeps s₀ (stemBufferError s) := keeps_ite (keeps_stemError h) h

/-! ### The pixel front end (Machine/Pixel.lean) -/

theorem keeps_acquirePixels {w} (h : Keeps s₀ s) : Keeps s₀ (acquirePixels w s) :=
  keeps_needXref (keeps_keepVpix (keeps_update (keeps_modJob h) rfl))

theorem keeps_acquireAdc {w} (h : Keeps s₀ s) : Keeps s₀ (acquireAdc w s) :=
  keeps_needXref (keeps_update (keeps_modWatch (keeps_modJob h)) rfl)

theorem keeps_inputAcquire {n} (h : Keeps s₀ s) : Keeps s₀ (inputAcquire n s) := by
  unfold inputAcquire
  split
  · exact keeps_ite (keeps_ite (keeps_acquirePixels h) (keeps_ite (keeps_acquireAdc h) h)) h
  · exact h

theorem keeps_xrefReady (h : Keeps s₀ s) : Keeps s₀ (xrefReady s) := keeps_ite (keeps_startPorts (keeps_update h rfl)) h

theorem keeps_xrefTimeout (h : Keeps s₀ s) : Keeps s₀ (xrefTimeout s) := by
  unfold xrefTimeout
  refine keeps_ite ?_ h
  dsimp only
  split
  · refine keeps_watchFatal ?_
    split
    · exact keeps_watchFatal (keeps_update h rfl)
    · exact keeps_update h rfl
  · split
    · exact keeps_watchFatal (keeps_update h rfl)
    · exact keeps_update h rfl

theorem keeps_vpixReadyEvent (h : Keeps s₀ s) : Keeps s₀ (vpixReadyEvent s) := keeps_ite (keeps_update h rfl) h

theorem keeps_pixelSupply (h : Keeps s₀ s) : Keeps s₀ (pixelSupply s) := by
  unfold pixelSupply
  split
  · exact keeps_watchFatal h
  · exact h

theorem keeps_vpixWaitTimeout (h : Keeps s₀ s) : Keeps s₀ (vpixWaitTimeout s) := keeps_ite (keeps_pixelSupply h) h

theorem keeps_vpixLow (h : Keeps s₀ s) : Keeps s₀ (vpixLow s) := by
  unfold vpixLow
  split
  · exact keeps_ite (keeps_pixelSupply h) h
  · exact h

theorem keeps_modCap {f} (h : Keeps s₀ s) : Keeps s₀ (modCap f s) := keeps_update h rfl

theorem keeps_strobeLead (h : Keeps s₀ s) : Keeps s₀ (strobeLead s) := by
  unfold strobeLead
  split
  · exact keeps_ite (keeps_modCap h) h
  · exact h

theorem keeps_startExposure {c w p missed} (h : Keeps s₀ s) : Keeps s₀ (startExposure c w p missed s) :=
  keeps_modCap (keeps_modWatch h)

theorem keeps_exposureStart (h : Keeps s₀ s) : Keeps s₀ (exposureStart s) := by
  unfold exposureStart
  split
  · exact keeps_ite (keeps_ite (keeps_modCap h) (keeps_startExposure h)) h
  · exact h

theorem keeps_fsyncEdge (h : Keeps s₀ s) : Keeps s₀ (fsyncEdge s) := by
  unfold fsyncEdge
  split
  · exact keeps_ite (keeps_startExposure h) h
  · exact h

theorem keeps_fsyncExpiry (h : Keeps s₀ s) : Keeps s₀ (fsyncExpiry s) := by
  unfold fsyncExpiry
  split
  · exact keeps_ite (keeps_startExposure (keeps_update h rfl)) h
  · exact h

theorem keeps_exposureEnd {period} (h : Keeps s₀ s) : Keeps s₀ (exposureEnd period s) := by
  unfold exposureEnd
  split
  · split
    · exact keeps_ite h (keeps_update (keeps_foldl (fun _ _ => keeps_setBerth) (keeps_modCap h)) rfl)
    · exact h
  · exact h

theorem keeps_putForJob {w a ls t} (ht : putForJob w a ls s = some t) (h : Keeps s₀ s) : Keeps s₀ t := by
  unfold putForJob at ht
  split at ht
  · cases ht
    exact keeps_putHbrLines h
  · cases ht

/-- The lines of the rows that are due are written one after the other, until a write is refused. -/
theorem keeps_foldl_bind {α : Type} {l : List α} {f : α → State → Option State}
    (hf : ∀ a x t, f a x = some t → Keeps s₀ x → Keeps s₀ t) {o : Option State} (ho : ∀ t, o = some t → Keeps s₀ t) :
    ∀ t, l.foldl (fun t a => t.bind (f a)) o = some t → Keeps s₀ t := by
  induction l generalizing o with
  | nil => exact ho
  | cons a l ih =>
    refine ih fun t ht => ?_
    obtain ⟨x, hx, hfx⟩ := Option.bind_eq_some_iff.mp ht
    exact hf a x t hfx (ho x hx)

theorem keeps_stemRow {w p e r px r' t b} (ht : stemRow w p e r px s = (some (r', t), b)) (h : Keeps s₀ s) : Keeps s₀ t := by
  unfold stemRow at ht
  split at ht
  · cases ht
    exact h
  · extract_lets c hist old rows f size s1 s2 due dst out at ht
    split at ht
    · cases ht
    · split at ht
      · cases ht
      · have h1 : Keeps s₀ s1 := keeps_foldl (fun _ _ => keeps_visit) h
        have h2 : Keeps s₀ s2 := keeps_ite (keeps_keep h1) h1
        simp only [Prod.mk.injEq, Option.map_eq_some_iff] at ht
        obtain ⟨⟨x, hx, -, rfl⟩, -⟩ := ht
        refine keeps_useStem (keeps_foldl_bind (fun oy y z hz hy => ?_) (fun y hy => ?_) x hx)
        · obtain ⟨u, hu, rfl⟩ := Option.map_eq_some_iff.mp hz
          exact keeps_stemSat (keeps_putForJob hu hy)
        · cases hy
          exact h2

theorem keeps_windowRow {w p e row r r' t b} (ht : windowRow w p e row r s = (some (r', t), b)) (h : Keeps s₀ s) : Keeps s₀ t := by
  unfold windowRow at ht
  dsimp only at ht
  split at ht
  · cases ht
    exact h
  · split at ht
    · exact keeps_stemRow ht h
    · simp only [Prod.mk.injEq, Option.map_eq_some_iff] at ht
      obtain ⟨⟨x, hx, -, rfl⟩, -⟩ := ht
      exact keeps_putForJob hx h

theorem keeps_placeRow {w e row ps} (h : Keeps s₀ s) : Keeps s₀ (placeRow w e row ps s) := by
  induction ps generalizing s with
  | nil => exact h
  | cons p ps ih =>
    obtain ⟨p, i⟩ := p
    unfold placeRow
    split
    · split
      · next hr => exact ih (keeps_modCap (keeps_windowRow hr h))
      · exact keeps_stemError h
      · exact keeps_watchFatal h
    · exact h

theorem keeps_pixelRow {black raw} (h : Keeps s₀ s) : Keeps s₀ (pixelRow black raw s) := by
  unfold pixelRow
  split
  · split
    · exact keeps_ite h (keeps_placeRow (keeps_modCap (keeps_update h rfl)))
    · exact h
  · exact h

theorem keeps_frameComplete (h : Keeps s₀ s) : Keeps s₀ (frameComplete s) := by
  unfold frameComplete
  split
  · split
    · exact keeps_ite h (keeps_ite (keeps_watchFatal h) (keeps_ite (keeps_inputsDone (keeps_keepVpix (keeps_update (keeps_modCap
        (keeps_update (keeps_foldl (fun _ _ => keeps_setBerth) (keeps_foldl (fun _ _ => keeps_putHbrLines) h)) rfl)) rfl)))
        (keeps_modCap (keeps_update (keeps_foldl (fun _ _ => keeps_setBerth) (keeps_foldl (fun _ _ => keeps_putHbrLines) h))
        rfl))))
    · exact h
  · exact h

theorem keeps_sentinelFrame {rows} (h : Keeps s₀ s) : Keeps s₀ (sentinelFrame rows s) := by
  unfold sentinelFrame
  refine keeps_ite ?_ h
  dsimp only
  split
  · exact keeps_update h rfl
  · exact keeps_triggerAll (keeps_update (keeps_update h rfl) rfl)

/-! ### Pins (Machine/Gpio.lean) -/

theorem keeps_applied {addr v} {f : State → State} (hf : ∀ x, Keeps s₀ x → Keeps s₀ (f x)) (h : Keeps s₀ s) :
    Keeps s₀ (applied addr v f s) := by
  unfold applied
  split
  · next a w rest hq =>
    refine keeps_ite (hf _ (keeps_host h id id (fun hw => ?_) id)) h
    rw [hq] at hw
    exact (Nat.le_succ _).trans hw
  · exact h

theorem keeps_registerIrq (h : Keeps s₀ s) : Keeps s₀ (registerIrq s) := keeps_update h rfl

theorem keeps_irqPulseEnd (h : Keeps s₀ s) : Keeps s₀ (irqPulseEnd s) := keeps_update h rfl

theorem keeps_pinSample {pads rise fall} (h : Keeps s₀ s) : Keeps s₀ (pinSample pads rise fall s) :=
  keeps_triggerAll (keeps_update h rfl)

theorem keeps_writePin {p v} (h : Keeps s₀ s) : Keeps s₀ (writePin p v s) := keeps_ite (keeps_update h rfl) (keeps_update h rfl)

theorem keeps_writePilsel {v} (h : Keeps s₀ s) : Keeps s₀ (writePilsel v s) := keeps_update h rfl

theorem keeps_writePilcfg {v} (h : Keeps s₀ s) : Keeps s₀ (writePilcfg v s) := keeps_update h rfl

theorem keeps_writeGpioOut {v} (h : Keeps s₀ s) : Keeps s₀ (writeGpioOut v s) := keeps_update h rfl

theorem keeps_writeGpioOe {v} (h : Keeps s₀ s) : Keeps s₀ (writeGpioOe v s) := keeps_update h rfl

theorem keeps_clearPilEvents {v} (h : Keeps s₀ s) : Keeps s₀ (clearPilEvents v s) := keeps_update h rfl

theorem keeps_clearAlarmLines {v} (h : Keeps s₀ s) : Keeps s₀ (clearAlarmLines v s) := keeps_update h rfl

/-! ### The OTP (Machine/Otp.lean) -/

theorem keeps_otpCheck (h : Keeps s₀ s) : Keeps s₀ (otpCheck s) := keeps_update h rfl

theorem keeps_faultBlink (h : Keeps s₀ s) : Keeps s₀ (faultBlink s) := by
  unfold faultBlink
  split
  · exact keeps_update h rfl
  · exact h

theorem keeps_setLocks (h : Keeps s₀ s) : Keeps s₀ (setLocks s) := keeps_update h rfl

theorem keeps_clearKeys (h : Keeps s₀ s) : Keeps s₀ (clearKeys s) := keeps_update h rfl

theorem keeps_enterLifecycle {t} (h : Keeps s₀ s) : Keeps s₀ (enterLifecycle t s) :=
  keeps_ite (keeps_clearKeys (keeps_setLocks (keeps_update h rfl))) (keeps_setLocks (keeps_update h rfl))

theorem keeps_otpRead {a} (h : Keeps s₀ s) : Keeps s₀ (otpRead a s) :=
  keeps_ite (keeps_update h rfl) (keeps_ite (keeps_update h rfl) (keeps_ite (keeps_update h rfl) (keeps_ite (keeps_update h rfl)
    (keeps_update h rfl))))

theorem keeps_otpReadAddr {v} (h : Keeps s₀ s) : Keeps s₀ (otpReadAddr v s) := keeps_ite (keeps_update h rfl) (keeps_otpRead h)

theorem keeps_otpEnd {code word mailbox} (h : Keeps s₀ s) : Keeps s₀ (otpEnd code word mailbox s) :=
  keeps_ite (keeps_mbxComplete (keeps_update h rfl)) (keeps_update h rfl)

theorem keeps_otpNext {r} (h : Keeps s₀ s) : Keeps s₀ (otpNext r s) := by
  unfold otpNext
  split
  · refine keeps_otpEnd ?_
    split
    · exact keeps_enterLifecycle h
    · exact h
  · exact keeps_ite (keeps_update h rfl) (keeps_otpEnd h)

theorem keeps_otpWordProgrammed {normal high} (h : Keeps s₀ s) : Keeps s₀ (otpWordProgrammed normal high s) := by
  unfold otpWordProgrammed
  split
  · exact keeps_ite (keeps_takeDelayed (keeps_update (keeps_ite (keeps_otpRead (keeps_update h rfl)) (keeps_update h rfl)) rfl))
      (keeps_ite (keeps_otpNext (keeps_ite (keeps_otpRead (keeps_update h rfl)) (keeps_update h rfl))) (keeps_otpEnd (keeps_ite
      (keeps_otpRead (keeps_update h rfl)) (keeps_update h rfl))))
  · exact h

theorem keeps_lifecycleAdvance {args mailbox} (h : Keeps s₀ s) : Keeps s₀ (lifecycleAdvance args mailbox s) :=
  keeps_ite (keeps_otpEnd h) (keeps_ite (keeps_otpEnd h) (keeps_ite (keeps_otpEnd h) (keeps_ite (keeps_otpEnd h) (keeps_ite
    (keeps_otpEnd h) (keeps_ite (keeps_otpEnd h) (keeps_otpNext h))))))

theorem keeps_programRollback {target mailbox} (h : Keeps s₀ s) : Keeps s₀ (programRollback target mailbox s) :=
  keeps_ite (keeps_otpEnd h) (keeps_ite (keeps_otpEnd h) (keeps_otpNext h))

theorem keeps_otpProgram {args mailbox} (h : Keeps s₀ s) : Keeps s₀ (otpProgram args mailbox s) := by
  unfold otpProgram
  refine keeps_ite (keeps_otpEnd h) (keeps_ite (keeps_otpEnd h) (keeps_ite (keeps_otpEnd h) (keeps_ite (keeps_otpEnd h) (keeps_ite
    (keeps_programRollback h) ?_))))
  split
  · exact keeps_otpEnd h
  · exact keeps_ite (keeps_otpEnd h) (keeps_otpNext h)

/-! ### The watch table (Machine/Table.lean) -/

theorem keeps_validateWatch {n} (h : Keeps s₀ s) : Keeps s₀ (validateWatch n s) := by
  unfold validateWatch
  split
  · split
    · exact keeps_faultWatch h
    · exact keeps_modWatch h
  · exact h

theorem keeps_buildTable (h : Keeps s₀ s) : Keeps s₀ (buildTable s) := by
  unfold buildTable
  split
  · exact keeps_raiseAlarm (keeps_update h rfl)
  · exact keeps_ite (keeps_raiseAlarm (keeps_update (keeps_putHbr h) rfl)) (keeps_foldl (fun _ _ h => keeps_ite (keeps_buildAdapt
      h) h) (keeps_foldl (fun _ _ => keeps_validateWatch) (keeps_update (keeps_putHbr h) rfl)))

/-! ### The ADC (Machine/Adc.lean) -/

theorem keeps_modAdcCap {f} (h : Keeps s₀ s) : Keeps s₀ (modAdcCap f s) := keeps_update h rfl

theorem keeps_bandgapFails (h : Keeps s₀ s) : Keeps s₀ (bandgapFails s) := keeps_update h rfl

theorem keeps_calEnd {code} (h : Keeps s₀ s) : Keeps s₀ (calEnd code s) := keeps_calComplete (keeps_update h rfl)

theorem keeps_bandgapCheck {sum} (h : Keeps s₀ s) : Keeps s₀ (bandgapCheck sum s) := by
  unfold bandgapCheck
  refine keeps_ite ?_ h
  split
  · exact keeps_ite h (keeps_ite (keeps_modAdcCap (keeps_update h rfl)) (keeps_startPartial (keeps_bandgapFails (keeps_update h
      rfl))))
  · exact keeps_ite h (keeps_ite (keeps_update (keeps_update h rfl) rfl) (keeps_calEnd (keeps_bandgapFails (keeps_update h rfl))))
  · exact h

theorem keeps_sequencerStart (h : Keeps s₀ s) : Keeps s₀ (sequencerStart s) := by
  unfold sequencerStart
  split
  · exact keeps_ite (keeps_modAdcCap h) h
  · exact h

theorem keeps_adcInputs {w} (h : Keeps s₀ s) : Keeps s₀ (adcInputs w s) := by
  unfold adcInputs
  split
  · refine keeps_ite ?_ h
    dsimp only
    split
    · exact keeps_ite (keeps_inputsDone (keeps_update h rfl)) (keeps_update h rfl)
    · exact keeps_update h rfl
  · exact h

theorem keeps_blockComplete {chain first clocks} (h : Keeps s₀ s) : Keeps s₀ (blockComplete chain first clocks s) := by
  unfold blockComplete
  split
  · dsimp only
    split
    · refine keeps_ite h ?_
      split
      · exact keeps_watchFatal h
      · next hp =>
        have hp := keeps_putForJob hp h
        refine keeps_ite (keeps_watchFatal ?_) (keeps_adcInputs (keeps_ite (keeps_update ?_ rfl) ?_)) <;>
          exact keeps_modAdcCap (keeps_update hp rfl)
    · exact h
  · exact h

theorem keeps_adcOverrun (h : Keeps s₀ s) : Keeps s₀ (adcOverrun s) := by
  unfold adcOverrun
  split
  · exact keeps_ite (keeps_startPartial h) h
  · exact h

theorem keeps_adcReleased (h : Keeps s₀ s) : Keeps s₀ (adcReleased s) := by
  unfold adcReleased
  dsimp only
  split
  · exact keeps_watchFatalAt (keeps_update h rfl)
  · exact keeps_update h rfl

theorem keeps_calMeasured {sum ovr} (h : Keeps s₀ s) : Keeps s₀ (calMeasured sum ovr s) := by
  unfold calMeasured
  split
  · refine keeps_ite h (keeps_ite (keeps_calEnd (keeps_update h rfl)) ?_)
    split
    · exact keeps_ite (keeps_calEnd (keeps_update h rfl)) (keeps_calEnd (keeps_update (keeps_update h rfl) rfl))
    · split
      · exact keeps_calEnd (keeps_update h rfl)
      · split
        · exact keeps_ite (keeps_calEnd (keeps_update h rfl)) (keeps_calEnd (keeps_update (keeps_update h rfl) rfl))
        · exact keeps_calEnd (keeps_update h rfl)
  · exact h

theorem keeps_calBegin {p applied} (h : Keeps s₀ s) : Keeps s₀ (calBegin p applied s) := keeps_needXref (keeps_update h rfl)

theorem keeps_calZero {args} (h : Keeps s₀ s) : Keeps s₀ (calZero args s) := by
  unfold calZero
  split
  · exact keeps_calBegin h
  · exact keeps_calComplete h

theorem keeps_calFull {args} (h : Keeps s₀ s) : Keeps s₀ (calFull args s) := by
  unfold calFull
  split
  · exact keeps_ite (keeps_calComplete h) (keeps_ite (keeps_calComplete h) (keeps_calBegin h))
  · exact keeps_calComplete h

theorem keeps_calCommit {args} (h : Keeps s₀ s) : Keeps s₀ (calCommit args s) :=
  keeps_ite (keeps_calComplete h) (keeps_ite (keeps_calComplete h) (keeps_requestCommit h))

end

end Sys2Proof.Machine
end

