-- ==== Sys2Proof/Proofs/KeepsPorts.lean ====
section
/-! PROOF. Proofs/KeepsPorts.lean: the Causeway, boot, the Quay, the Host port, the mailbox, the debug port and the tick keep
the queues. -/
namespace Sys2Proof.Machine
open Sys2Proof

section
variable {s₀ s t : State}

/-! ### The Causeway (Machine/Causeway.lean) -/

theorem keeps_portReset {p} (h : Keeps s₀ s) : Keeps s₀ (portReset p s) :=
  keeps_ite h (keeps_startTraining (keeps_startPartial h))

theorem keeps_completeRemote {c i q} (h : Keeps s₀ s) : Keeps s₀ (completeRemote c i q s) :=
  keeps_ite (keeps_settle (keeps_giveStatus (keeps_ite (keeps_modCore_of_pend (fun _ => pend_closeWindow ..) (keeps_removePend h))
    (keeps_removePend h)))) (keeps_completeDma h)

theorem keeps_loseOne {c i q} (h : Keeps s₀ s) : Keeps s₀ (loseOne c i q s) :=
  keeps_ite (keeps_settle (keeps_ite (keeps_giveStatus (keeps_ite (keeps_modCore_of_pend (fun _ => pend_closeWindow ..)
    (keeps_removePend h)) (keeps_removePend h))) (keeps_coreExceptionAt (keeps_ite (keeps_modCore_of_pend (fun _ =>
    pend_closeWindow ..) (keeps_removePend h)) (keeps_removePend h))))) (keeps_settle (keeps_coreExceptionAt (keeps_removePend
    h)))

theorem keeps_loseOps {c chip n} (h : Keeps s₀ s) : Keeps s₀ (loseOps c chip n s) := by
  induction n generalizing s with
  | zero => exact h
  | succ n ih =>
    unfold loseOps
    split
    · exact ih (keeps_loseOne h)
    · exact h

theorem keeps_endDoubt {c chip} (h : Keeps s₀ s) : Keeps s₀ (endDoubt c chip s) :=
  keeps_ite (keeps_settle (keeps_loseOps (keeps_update h rfl))) h

theorem keeps_clearMarkers {chips} (h : Keeps s₀ s) : Keeps s₀ (clearMarkers chips s) := by
  unfold clearMarkers
  refine keeps_foldl (fun _ _ h => ?_) (keeps_update h rfl)
  split
  · exact keeps_ite (keeps_settle (keeps_modCore_of_pend (fun _ => rfl) h)) h
  · exact h

theorem keeps_taintChips {chips} (h : Keeps s₀ s) : Keeps s₀ (taintChips chips s) := by
  unfold taintChips
  exact keeps_update (keeps_modCores (fun _ => tokensBalance_of_pend rfl) h) rfl

theorem keeps_doubtChips {chips} (h : Keeps s₀ s) : Keeps s₀ (doubtChips chips s) := keeps_update h rfl

theorem keeps_sendFlushes (h : Keeps s₀ s) : Keeps s₀ (sendFlushes s) :=
  keeps_foldl (fun _ _ h => keeps_ite (keeps_sendPacket (keeps_update (keeps_takeTxn h) rfl)) h) h

theorem keeps_learnChange {chips} (h : Keeps s₀ s) : Keeps s₀ (learnChange chips s) :=
  keeps_sendFlushes (keeps_clearMarkers (keeps_doubtChips (keeps_taintChips h)))

theorem keeps_sendNotice {p upper epoch} (h : Keeps s₀ s) : Keeps s₀ (sendNotice p upper epoch s) := keeps_ite (keeps_enqueue h) h

theorem keeps_epochChanged {p e} (h : Keeps s₀ s) : Keeps s₀ (epochChanged p e s) :=
  keeps_learnChange (keeps_sendNotice (keeps_logEntry (keeps_returnUnits (keeps_update (keeps_setPort (keeps_update h rfl))
    rfl))))

theorem keeps_agree {p t} (h : Keeps s₀ s) : Keeps s₀ (agree p t s) := by
  unfold agree
  dsimp only
  split
  · exact keeps_ite (keeps_raiseAlarmAt (keeps_setPort (keeps_update (keeps_update h rfl) rfl))) (keeps_control (keeps_setPort
      (keeps_update h rfl)))
  · exact keeps_ite (keeps_update h rfl) (keeps_control (keeps_setPort (keeps_update h rfl)))

theorem keeps_ts1Received {p t} (h : Keeps s₀ s) : Keeps s₀ (ts1Received p t s) :=
  keeps_ite (keeps_ite (keeps_agree (keeps_modPort (keeps_beginPort h))) (keeps_modPort (keeps_beginPort h))) (keeps_beginPort h)

theorem keeps_ts2Received {p t} (h : Keeps s₀ s) : Keeps s₀ (ts2Received p t s) := by
  unfold ts2Received
  dsimp only
  split
  · exact keeps_ite (keeps_modPort (keeps_beginPort h)) (keeps_beginPort h)
  · exact keeps_beginPort h

theorem keeps_ts1Send {p} (h : Keeps s₀ s) : Keeps s₀ (ts1Send p s) := by
  unfold ts1Send
  refine keeps_ite ?_ (keeps_beginPort h)
  dsimp only
  split
  · exact keeps_control (keeps_beginPort h)
  · exact keeps_control (keeps_beginPort h)

theorem keeps_lanePllLocked {p} (h : Keeps s₀ s) : Keeps s₀ (lanePllLocked p s) := keeps_ite (keeps_modPort h) h

theorem keeps_receiverAligned {p} (h : Keeps s₀ s) : Keeps s₀ (receiverAligned p s) := keeps_ite (keeps_modPort h) h

theorem keeps_mismatch (h : Keeps s₀ s) : Keeps s₀ (mismatch s) := keeps_raiseAlarmAt (keeps_update h rfl)

theorem keeps_takeNumber {n} (h : Keeps s₀ s) : Keeps s₀ (takeNumber n s) :=
  keeps_ite (keeps_mismatch (keeps_update h rfl)) (keeps_update h rfl)

theorem keeps_takeLength {n} (h : Keeps s₀ s) : Keeps s₀ (takeLength n s) :=
  keeps_ite (keeps_mismatch (keeps_update h rfl)) (keeps_update h rfl)

theorem keeps_sendChain {p n} (h : Keeps s₀ s) : Keeps s₀ (sendChain p n s) := keeps_ite (keeps_enqueue h) h

theorem keeps_releaseWake (h : Keeps s₀ s) : Keeps s₀ (releaseWake s) := keeps_ite (keeps_update h rfl) h

theorem keeps_linkTrained {p} (h : Keeps s₀ s) : Keeps s₀ (linkTrained p s) := by
  unfold linkTrained
  dsimp only
  split
  · refine keeps_ite (keeps_pumpPort (keeps_sendFlushes (keeps_releaseWake ?_))) (keeps_beginPort h)
    split
    · refine keeps_ite (keeps_ite (keeps_forgiveUnits (keeps_modPort ?_)) (keeps_epochChanged (keeps_forgiveUnits (keeps_modPort
        ?_)))) (keeps_sendChain (keeps_takeLength (keeps_ite (keeps_forgiveUnits (keeps_modPort ?_)) (keeps_epochChanged
        (keeps_forgiveUnits (keeps_modPort ?_))))))
      · split
        · exact keeps_takeNumber (keeps_beginPort h)
        · exact keeps_beginPort h
      · split
        · exact keeps_takeNumber (keeps_beginPort h)
        · exact keeps_beginPort h
      · split
        · exact keeps_takeNumber (keeps_beginPort h)
        · exact keeps_beginPort h
      · split
        · exact keeps_takeNumber (keeps_beginPort h)
        · exact keeps_beginPort h
    · refine keeps_ite (keeps_forgiveUnits (keeps_modPort ?_)) (keeps_epochChanged (keeps_forgiveUnits (keeps_modPort ?_)))
      · split
        · exact keeps_takeNumber (keeps_beginPort h)
        · exact keeps_beginPort h
      · split
        · exact keeps_takeNumber (keeps_beginPort h)
        · exact keeps_beginPort h
  · exact keeps_beginPort h

theorem keeps_trainingTimeout {p} (h : Keeps s₀ s) : Keeps s₀ (trainingTimeout p s) :=
  keeps_ite (keeps_raiseAlarmAt (keeps_modPort h)) h

theorem keeps_trainingRetry {p} (h : Keeps s₀ s) : Keeps s₀ (trainingRetry p s) :=
  keeps_ite (keeps_startTraining (keeps_beginPort h)) h

theorem keeps_ackReceived {p q} (h : Keeps s₀ s) : Keeps s₀ (ackReceived p q s) :=
  keeps_ite (keeps_pumpPort (keeps_modPort (keeps_beginPort h))) (keeps_beginPort h)

theorem keeps_retransmit {p} (h : Keeps s₀ s) : Keeps s₀ (retransmit p s) :=
  keeps_ite (keeps_ite (keeps_portReset (keeps_modPort (keeps_beginPort h))) (keeps_modPort (keeps_beginPort h))) (keeps_beginPort
    h)

theorem keeps_creditReceived {p v n} (h : Keeps s₀ s) : Keeps s₀ (creditReceived p v n s) :=
  keeps_ite (keeps_pumpPort (keeps_modPort (keeps_beginPort h))) (keeps_beginPort h)

theorem keeps_sleepReq {p} (h : Keeps s₀ s) : Keeps s₀ (sleepReq p s) :=
  keeps_ite (keeps_ite (keeps_portReset (keeps_beginPort h)) (keeps_ite (keeps_modPort (keeps_control (keeps_beginPort h)))
    (keeps_control (keeps_beginPort h)))) (keeps_beginPort h)

theorem keeps_sleepAck {p} (h : Keeps s₀ s) : Keeps s₀ (sleepAck p s) :=
  keeps_ite (keeps_ite (keeps_portReset (keeps_beginPort h)) (keeps_ite (keeps_modPort (keeps_beginPort h)) (keeps_needPort
    (keeps_modPort (keeps_beginPort h))))) (keeps_beginPort h)

theorem keeps_sleepIdle {p} (h : Keeps s₀ s) : Keeps s₀ (sleepIdle p s) :=
  keeps_ite (keeps_control (keeps_beginPort h)) (keeps_beginPort h)

theorem keeps_sendAck {p} (h : Keeps s₀ s) : Keeps s₀ (sendAck p s) := keeps_control (keeps_modPort h)

theorem keeps_ackDeadline {p} (h : Keeps s₀ s) : Keeps s₀ (ackDeadline p s) :=
  keeps_ite (keeps_sendAck (keeps_beginPort h)) (keeps_beginPort h)

theorem keeps_sendNak {p} (h : Keeps s₀ s) : Keeps s₀ (sendNak p s) := keeps_ite h (keeps_control (keeps_modPort h))

theorem keeps_crcError {p} (h : Keeps s₀ s) : Keeps s₀ (crcError p s) :=
  keeps_ite (keeps_sendNak (keeps_modPort (keeps_beginPort h))) (keeps_beginPort h)

theorem keeps_codeError {p isControl inWindow} (h : Keeps s₀ s) : Keeps s₀ (codeError p isControl inWindow s) :=
  keeps_ite (keeps_ite (keeps_modPort (keeps_beginPort h)) (keeps_ite (keeps_portReset (keeps_modPort (keeps_modPort
    (keeps_beginPort h)))) (keeps_ite (keeps_sendNak (keeps_modPort (keeps_modPort (keeps_beginPort h)))) (keeps_modPort
    (keeps_modPort (keeps_beginPort h)))))) (keeps_beginPort h)

theorem keeps_laneLockLoss {p} (h : Keeps s₀ s) : Keeps s₀ (laneLockLoss p s) := keeps_ite (keeps_portReset (keeps_beginPort h)) h

theorem keeps_transitTimeout {p} (h : Keeps s₀ s) : Keeps s₀ (transitTimeout p s) := by
  unfold transitTimeout
  split
  · exact keeps_returnUnits (keeps_beginPort (keeps_beginPort (keeps_update (keeps_modPort h) rfl)))
  · exact h

theorem keeps_flushTimeout {c chip} (h : Keeps s₀ s) : Keeps s₀ (flushTimeout c chip s) := keeps_endDoubt h

theorem keeps_cwWake {level} (h : Keeps s₀ s) : Keeps s₀ (cwWake level s) :=
  keeps_ite h (keeps_ite (keeps_startPorts (keeps_needXref (keeps_wake (keeps_update h rfl)))) (keeps_update h rfl))

theorem keeps_acceptPacket {p k} (h : Keeps s₀ s) : Keeps s₀ (acceptPacket p k s) :=
  keeps_ite (keeps_sendAck (keeps_modPort h)) (keeps_modPort h)

theorem keeps_receive {p type seq epoch k} {f : Packet → State → State} (hf : ∀ k x, Keeps s₀ x → Keeps s₀ (f k x))
    (h : Keeps s₀ s) : Keeps s₀ (receive p type seq epoch k f s) := by
  have hb := keeps_beginPort (p := p) h
  have ha := fun k => keeps_acceptPacket (p := p) (k := k) hb
  exact keeps_ite hb (keeps_ite (keeps_ite (keeps_returnCredit (hf _ _ (ha _)))
    (keeps_ite (keeps_enqueue (keeps_ite (ha _) (keeps_beginPort (ha _)))) (keeps_returnCredit (ha _))))
    (keeps_ite (keeps_sendAck hb) (keeps_sendNak hb)))

theorem keeps_answer {k type status} (h : Keeps s₀ s) : Keeps s₀ (answer k type status s) := keeps_sendPacket h

theorem keeps_refuse {k type} (h : Keeps s₀ s) : Keeps s₀ (refuse k type s) := keeps_answer (keeps_update h rfl)

theorem keeps_performBurst {k off ls} (h : Keeps s₀ s) : Keeps s₀ (performBurst k off ls s) :=
  keeps_ite (keeps_answer (keeps_putHbrLines h)) (keeps_refuse h)

theorem keeps_wrPacket {k} (h : Keeps s₀ s) : Keeps s₀ (wrPacket k s) := by
  unfold wrPacket
  refine keeps_ite (keeps_update h rfl) (keeps_ite (keeps_performBurst h) ?_)
  split
  · exact keeps_performBurst (keeps_update h rfl)
  · exact h

theorem keeps_refusePoisoned {k type line} (h : Keeps s₀ s) : Keeps s₀ (refusePoisoned k type line s) :=
  keeps_refuse (keeps_logEntry (keeps_update h rfl))

theorem keeps_wrwPacket {k} (h : Keeps s₀ s) : Keeps s₀ (wrwPacket k s) :=
  keeps_ite (keeps_refuse h) (keeps_ite (keeps_refusePoisoned h) (keeps_answer (keeps_putHbr h)))

theorem keeps_rdPacket {k} (h : Keeps s₀ s) : Keeps s₀ (rdPacket k s) := by
  unfold rdPacket
  refine keeps_ite (keeps_refuse h) ?_
  split
  · exact keeps_refusePoisoned h
  · exact keeps_ite (keeps_sendPacket (keeps_visit h)) (keeps_sendPacket (keeps_sendPacket (keeps_visit h)))

theorem keeps_rdwPacket {k} (h : Keeps s₀ s) : Keeps s₀ (rdwPacket k s) :=
  keeps_ite (keeps_refuse h) (keeps_ite (keeps_refusePoisoned h) (keeps_sendPacket (keeps_visit h)))

theorem keeps_markerPacket {k} (h : Keeps s₀ s) : Keeps s₀ (markerPacket k s) :=
  keeps_ite (keeps_answer (keeps_foldl (fun _ _ => keeps_settle) (keeps_storeMarker h))) (keeps_refuse h)

theorem keeps_flushPacket {k} (h : Keeps s₀ s) : Keeps s₀ (flushPacket k s) := keeps_answer h

theorem requester_pend {txn c q i r} (hr : s.requester txn = some (c, q, i, r)) : (s.core c).pend[i]? = some q := by
  obtain ⟨⟨q', i'⟩, hx, hy⟩ := Option.bind_eq_some_iff.mp hr
  obtain ⟨r', -, e⟩ := Option.map_eq_some_iff.mp hy
  simp only [Prod.mk.injEq] at e
  obtain ⟨rfl, rfl, rfl, -⟩ := e
  exact List.mem_zipIdx_iff_getElem?.mp (List.mem_of_find?_eq_some hx)

theorem keeps_answered {c i q txn} (hq : (s.core c).pend[i]? = some q) (h : Keeps s₀ s) : Keeps s₀ (answered c i q txn s) := by
  unfold answered
  extract_lets q' s1
  have h1 : Keeps s₀ s1 := keeps_setCore h fun h₀ => by
    have hk := h.tokensBalance c h₀
    rw [tokensBalance_iff] at hk ⊢
    simpa only [setAt, tokens_set (q := q') hq rfl] using hk
  exact keeps_ite (keeps_completeRemote h1) h1

theorem keeps_refusedAt {c i q} (h : Keeps s₀ s) : Keeps s₀ (refusedAt c i q s) :=
  keeps_settle (keeps_coreExceptionAt (keeps_removePend h))

theorem keeps_ackPacket {k} (h : Keeps s₀ s) : Keeps s₀ (ackPacket k s) := by
  unfold ackPacket
  split
  · next hr => exact keeps_ite (keeps_answered (requester_pend hr) h) (keeps_refusedAt h)
  · exact h

theorem keeps_rdDataPacket {k} (h : Keeps s₀ s) : Keeps s₀ (rdDataPacket k s) := by
  unfold rdDataPacket
  split
  · next c q i r hr =>
    have h1 := keeps_modCore_of_pend (c := c) (pend_readLines q r k) h
    refine keeps_ite (keeps_refusedAt h) (keeps_ite (keeps_answered ?_ h1) h1)
    rw [State.modCore, core_setCore, pend_readLines]
    exact requester_pend hr
  · exact h

theorem keeps_rdwDataPacket {k} (h : Keeps s₀ s) : Keeps s₀ (rdwDataPacket k s) := by
  unfold rdwDataPacket
  split
  · next c q i r hr =>
    refine keeps_ite (keeps_refusedAt h) ?_
    dsimp only
    split
    · refine keeps_answered ?_ (keeps_modCore_of_pend (fun _ => rfl) h)
      rw [State.modCore, core_setCore]
      exact requester_pend hr
    · exact keeps_answered (requester_pend hr) h
  · exact h

theorem keeps_flushDonePacket {k} (h : Keeps s₀ s) : Keeps s₀ (flushDonePacket k s) := keeps_ite (keeps_endDoubt h) h

theorem keeps_msgPacket {k} (h : Keeps s₀ s) : Keeps s₀ (msgPacket k s) := keeps_triggerAll h

theorem keeps_noticePacket {p k} (h : Keeps s₀ s) : Keeps s₀ (noticePacket p k s) := keeps_learnChange (keeps_sendNotice h)

theorem keeps_chainPacket {p k} (h : Keeps s₀ s) : Keeps s₀ (chainPacket p k s) := by
  unfold chainPacket
  dsimp only
  split
  · exact keeps_ite (keeps_sendChain (keeps_takeLength h)) (keeps_sendChain (keeps_takeLength h))
  · exact keeps_sendChain (keeps_takeLength h)

theorem keeps_portReleased {p} (h : Keeps s₀ s) : Keeps s₀ (portReleased p s) :=
  keeps_startTraining (keeps_update (keeps_forgiveUnits (keeps_modPort (keeps_beginPort (keeps_update h rfl)))) rfl)

/-! ### Units in reset (Machine/Units.lean) -/

theorem keeps_coreReleased {c} (h : Keeps s₀ s) : Keeps s₀ (coreReleased c s) := by
  unfold coreReleased
  extract_lets s1 s2 _ s3
  have h3 : Keeps s₀ s3 := keeps_update (keeps_modCore (fun k _ => tokensBalance_coreOff k) (keeps_drainWords h)) rfl
  refine keeps_ite h3 ?_
  split
  · exact keeps_finishStop (keeps_update h3 rfl)
  · exact h3

theorem keeps_partialResetRelease {u} (h : Keeps s₀ s) : Keeps s₀ (partialResetRelease u s) := by
  unfold partialResetRelease
  refine keeps_ite ?_ h
  split
  · exact keeps_coreReleased h
  · exact keeps_stemReleased h
  · exact keeps_adcReleased h
  · exact keeps_portReleased h

theorem keeps_drainTimeout {u} (h : Keeps s₀ s) : Keeps s₀ (drainTimeout u s) := keeps_ite (keeps_chipFatal h) h

theorem keeps_fatalError {code} (h : Keeps s₀ s) : Keeps s₀ (fatalError code s) := keeps_ite (keeps_chipFatal h) h

theorem keeps_scrubPoison {l} (h : Keeps s₀ s) : Keeps s₀ (scrubPoison l s) :=
  keeps_ite h (keeps_ite (keeps_chipFatal (keeps_logEntry (keeps_update h rfl))) (keeps_ite (keeps_logEntry (keeps_update h rfl))
    (keeps_foldl (fun _ _ h => keeps_ite h (keeps_faultWatch (keeps_watchFatalAt h))) (keeps_raiseAlarm (keeps_logEntry
    (keeps_update h rfl))))))

theorem keeps_scrub {n single double} (h : Keeps s₀ s) : Keeps s₀ (scrub n single double s) :=
  keeps_ite (keeps_foldl (fun _ _ => keeps_scrubPoison) (keeps_update h rfl)) h

/-! ### Boot (Machine/Boot.lean) -/

theorem keeps_failBoot {code} (h : Keeps s₀ s) : Keeps s₀ (failBoot code s) :=
  keeps_neapEntry (keeps_release (keeps_logEntry (keeps_raiseAlarmAt (keeps_update (keeps_setLocks h) rfl))))

theorem keeps_toStage {st} (h : Keeps s₀ s) : Keeps s₀ (toStage st s) := keeps_update h rfl

theorem keeps_softReset {v} (h : Keeps s₀ s) : Keeps s₀ (softReset v s) := by
  unfold softReset
  refine keeps_ite ?_ h
  split
  · exact keeps_update h rfl
  · exact keeps_update h rfl

theorem keeps_softTaken (h : Keeps s₀ s) : Keeps s₀ (softTaken s) := keeps_ite (keeps_takeDelayed h) h

theorem keeps_thermalEnd {temp} (h : Keeps s₀ s) : Keeps s₀ (thermalEnd temp s) := keeps_ite (keeps_update h rfl) h

theorem keeps_resetRelease {pads} (h : Keeps s₀ s) : Keeps s₀ (resetRelease pads s) :=
  keeps_ite (keeps_ite (keeps_otpCheck (keeps_update h rfl)) (keeps_ite (keeps_update (keeps_otpCheck (keeps_update h rfl)) rfl)
    (keeps_raiseAlarm (keeps_update (keeps_otpCheck (keeps_update h rfl)) rfl)))) h

theorem keeps_lfSwitch (h : Keeps s₀ s) : Keeps s₀ (lfSwitch s) := keeps_ite (keeps_update h rfl) h

theorem keeps_lfTimeout (h : Keeps s₀ s) : Keeps s₀ (lfTimeout s) := keeps_ite (keeps_update h rfl) h

theorem keeps_lfFall (h : Keeps s₀ s) : Keeps s₀ (lfFall s) := keeps_ite (keeps_update h rfl) h

theorem keeps_pllLock (h : Keeps s₀ s) : Keeps s₀ (pllLock s) := keeps_ite (keeps_update h rfl) h

theorem keeps_loadKeys (h : Keeps s₀ s) : Keeps s₀ (loadKeys s) := keeps_ite (keeps_update h rfl) h

theorem keeps_restartWatchdog (h : Keeps s₀ s) : Keeps s₀ (restartWatchdog s) := keeps_update h rfl

theorem keeps_copiedBytes {n} (h : Keeps s₀ s) : Keeps s₀ (copiedBytes n s) :=
  keeps_ite (keeps_restartWatchdog (keeps_update h rfl)) (keeps_update h rfl)

theorem keeps_railWaitEnd (h : Keeps s₀ s) : Keeps s₀ (railWaitEnd s) :=
  keeps_ite (keeps_ite (keeps_failBoot (keeps_loadKeys (keeps_update h rfl))) (keeps_ite (keeps_toStage (keeps_loadKeys
    (keeps_update h rfl))) (keeps_toStage (keeps_loadKeys (keeps_update h rfl))))) h

theorem keeps_flashProbe {r} (h : Keeps s₀ s) : Keeps s₀ (flashProbe r s) :=
  keeps_ite (keeps_ite (keeps_failBoot h) (keeps_ite (keeps_failBoot h) (keeps_ite (keeps_failBoot (keeps_update h rfl))
    (keeps_toStage (keeps_update (keeps_update h rfl) rfl))))) h

theorem keeps_manifestGood {b off imageLen slot} (h : Keeps s₀ s) : Keeps s₀ (manifestGood b off imageLen slot s) :=
  keeps_ite (keeps_toStage (keeps_update (keeps_update h rfl) rfl)) (keeps_failBoot (keeps_update h rfl))

theorem keeps_manifestFirst {bytes} (h : Keeps s₀ s) : Keeps s₀ (manifestFirst bytes s) := by
  unfold manifestFirst
  split
  · refine keeps_ite ?_ h
    dsimp only
    split
    · exact keeps_manifestGood h
    · exact keeps_update h rfl
  · exact h

theorem keeps_manifestSecond {bytes} (h : Keeps s₀ s) : Keeps s₀ (manifestSecond bytes s) := by
  unfold manifestSecond
  split
  · refine keeps_ite ?_ h
    dsimp only
    split
    · exact keeps_manifestGood (keeps_update h rfl)
    · exact keeps_failBoot h
  · exact h

theorem keeps_takeOwnerKeys {b} (h : Keeps s₀ s) : Keeps s₀ (takeOwnerKeys b s) :=
  keeps_ite (keeps_raiseAlarm (keeps_update h rfl)) (keeps_update h rfl)

theorem keeps_rollbackCheck (h : Keeps s₀ s) : Keeps s₀ (rollbackCheck s) := by
  unfold rollbackCheck
  split
  · exact keeps_ite h (keeps_ite (keeps_failBoot (keeps_toStage h)) (keeps_toStage h))
  · exact h

theorem keeps_nextRecord (h : Keeps s₀ s) : Keeps s₀ (nextRecord s) := keeps_rollbackCheck (keeps_update h rfl)

theorem keeps_clearPlaced {e} (h : Keeps s₀ s) : Keeps s₀ (clearPlaced e s) := keeps_update h rfl

theorem keeps_acceptRecord {m e bytes} (h : Keeps s₀ s) : Keeps s₀ (acceptRecord m e bytes s) := by
  unfold acceptRecord
  refine keeps_ite (keeps_failBoot (keeps_clearPlaced h)) ?_
  split
  · exact keeps_nextRecord (keeps_raiseAlarm (keeps_update (keeps_clearPlaced h) rfl))
  · exact keeps_ite (keeps_failBoot (keeps_clearPlaced h)) (keeps_ite (keeps_nextRecord (keeps_ite (keeps_takeOwnerKeys h)
      (keeps_raiseAlarm (keeps_update h rfl)))) (keeps_nextRecord (keeps_ite (keeps_ite (keeps_update (keeps_update h rfl) rfl)
      (keeps_update h rfl)) (keeps_putHbrLines (keeps_ite (keeps_update (keeps_update h rfl) rfl) (keeps_update h rfl))))))

theorem keeps_recordCopy {bytes} (h : Keeps s₀ s) : Keeps s₀ (recordCopy bytes s) := by
  unfold recordCopy
  split
  · exact keeps_ite (keeps_ite (keeps_failBoot h) (keeps_ite (keeps_acceptRecord (keeps_copiedBytes h)) (keeps_update
      (keeps_clearPlaced (keeps_copiedBytes h)) rfl))) h
  · exact h

theorem keeps_recordRecopy {bytes} (h : Keeps s₀ s) : Keeps s₀ (recordRecopy bytes s) := by
  unfold recordRecopy
  split
  · exact keeps_ite (keeps_ite (keeps_acceptRecord (keeps_update (keeps_copiedBytes h) rfl)) (keeps_failBoot (keeps_clearPlaced
      (keeps_copiedBytes h)))) h
  · exact h

theorem keeps_imageRegisters (h : Keeps s₀ s) : Keeps s₀ (imageRegisters s) := by
  unfold imageRegisters
  split
  · exact keeps_update h rfl
  · exact h

theorem keeps_applyPatch (h : Keeps s₀ s) : Keeps s₀ (applyPatch s) := by
  unfold applyPatch
  split
  · exact keeps_ite (keeps_update h rfl) (keeps_raiseAlarm (keeps_update h rfl))
  · exact h

theorem keeps_deriveTagKeys (h : Keeps s₀ s) : Keeps s₀ (deriveTagKeys s) := by
  unfold deriveTagKeys
  split
  · exact keeps_update h rfl
  · exact h

theorem keeps_applyPower (h : Keeps s₀ s) : Keeps s₀ (applyPower s) := by
  unfold applyPower
  split
  · exact keeps_update h rfl
  · exact keeps_raiseAlarm h

theorem keeps_applyLink (h : Keeps s₀ s) : Keeps s₀ (applyLink s) := by
  unfold applyLink
  split
  · exact keeps_ite (keeps_ite (keeps_takeNumber (keeps_update h rfl)) (keeps_update h rfl)) (keeps_needXref (keeps_ite
      (keeps_takeNumber (keeps_update h rfl)) (keeps_update h rfl)))
  · exact h

theorem keeps_applyPins (h : Keeps s₀ s) : Keeps s₀ (applyPins s) := by
  unfold applyPins
  split
  · exact keeps_update h rfl
  · exact keeps_update h rfl

theorem keeps_firmwareStart (h : Keeps s₀ s) : Keeps s₀ (firmwareStart s) :=
  keeps_ite (keeps_ite (keeps_failBoot (keeps_toStage (keeps_imageRegisters (keeps_setLocks h)))) (keeps_neapEntry (keeps_toStage
    (keeps_release (keeps_ite (keeps_raiseAlarm (keeps_applyPins (keeps_applyLink (keeps_applyPower (keeps_buildTable
    (keeps_toStage (keeps_deriveTagKeys (keeps_strandRecovery (keeps_applyPatch (keeps_toStage (keeps_imageRegisters
    (keeps_setLocks h)))))))))))) (keeps_applyPins (keeps_applyLink (keeps_applyPower (keeps_buildTable (keeps_toStage
    (keeps_deriveTagKeys (keeps_strandRecovery (keeps_applyPatch (keeps_toStage (keeps_imageRegisters (keeps_setLocks
    h)))))))))))))))) h

/-! ### The Quay (Machine/Quay.lean) -/

theorem keeps_clearAlarm {v} (h : Keeps s₀ s) : Keeps s₀ (clearAlarm v s) := keeps_update h rfl

theorem keeps_selectLog {v} (h : Keeps s₀ s) : Keeps s₀ (selectLog v s) := keeps_update h rfl

theorem keeps_popHead (h : Keeps s₀ s) : Keeps s₀ (popHead s) := by
  unfold popHead
  split
  · next b t hq =>
    refine keeps_host h (fun ho => ?_) id id id
    rw [hq] at ho
    exact (Nat.le_succ _).trans ho
  · exact h

theorem keeps_writePop {v} (h : Keeps s₀ s) : Keeps s₀ (writePop v s) := keeps_ite (keeps_popHead h) h

theorem keeps_writeIrq {v} (h : Keeps s₀ s) : Keeps s₀ (writeIrq v s) := keeps_update h rfl

theorem keeps_clearIrq {v} (h : Keeps s₀ s) : Keeps s₀ (clearIrq v s) := keeps_update h rfl

theorem keeps_writeMbxCmd {v} (h : Keeps s₀ s) : Keeps s₀ (writeMbxCmd v s) := by
  unfold writeMbxCmd
  extract_lets s1
  have h1 : Keeps s₀ s1 := keeps_wake h
  split
  · next hroom => exact keeps_host h1 id id id fun _ => by simpa using hroom
  · exact keeps_update h1 rfl

theorem keeps_writeMbxArg {n v} (h : Keeps s₀ s) : Keeps s₀ (writeMbxArg n v s) := keeps_update h rfl

theorem keeps_clearDropped {v} (h : Keeps s₀ s) : Keeps s₀ (clearDropped v s) := keeps_ite (keeps_update h rfl) h

theorem keeps_writeTideCtrl {v} (h : Keeps s₀ s) : Keeps s₀ (writeTideCtrl v s) := keeps_applyStep (keeps_update h rfl)

theorem keeps_clearMismatch {v} (h : Keeps s₀ s) : Keeps s₀ (clearMismatch v s) := keeps_ite (keeps_update h rfl) h

theorem keeps_writeAlarmCfg {n v} (h : Keeps s₀ s) : Keeps s₀ (writeAlarmCfg n v s) := keeps_update h rfl

theorem keeps_writeIepe {v} (h : Keeps s₀ s) : Keeps s₀ (writeIepe v s) := keeps_ite h (keeps_update h rfl)

theorem keeps_writeForceAwake {v} (h : Keeps s₀ s) : Keeps s₀ (writeForceAwake v s) := keeps_update h rfl

theorem keeps_writeLockRd {v} (h : Keeps s₀ s) : Keeps s₀ (writeLockRd v s) := keeps_update h rfl

theorem keeps_writeLockWr {v} (h : Keeps s₀ s) : Keeps s₀ (writeLockWr v s) := keeps_update h rfl

theorem keeps_ignoreWrite (h : Keeps s₀ s) : Keeps s₀ (ignoreWrite s) := keeps_update h rfl

theorem keeps_writeLearn {v} (h : Keeps s₀ s) : Keeps s₀ (writeLearn v s) :=
  keeps_ite (keeps_ite (keeps_ite h (keeps_update h rfl)) (keeps_update h rfl)) (keeps_ignoreWrite h)

theorem keeps_writeSentCfg {v} (h : Keeps s₀ s) : Keeps s₀ (writeSentCfg v s) := keeps_update h rfl

theorem keeps_writeReg {a v} (h : Keeps s₀ s) : Keeps s₀ (writeReg a v s) := by
  unfold writeReg
  refine keeps_ite (keeps_writeMbxArg h) (keeps_ite (keeps_writeAlarmCfg h) (keeps_ite (keeps_writePin h) ?_))
  split
  · exact keeps_clearAlarm h
  · exact keeps_softReset h
  · exact keeps_selectLog h
  · exact keeps_writeIrq h
  · exact keeps_clearIrq h
  · exact keeps_writePop h
  · exact keeps_clearMismatch h
  · exact keeps_writeTideCtrl h
  · exact keeps_writeMbxCmd h
  · exact keeps_clearDropped h
  · exact keeps_writeGpioOut h
  · exact keeps_writeGpioOe h
  · exact keeps_writePilsel h
  · exact keeps_writePilcfg h
  · exact keeps_clearPilEvents h
  · exact keeps_clearAlarmLines h
  · exact keeps_writeIepe h
  · exact keeps_writeForceAwake h
  · exact keeps_writeLockRd h
  · exact keeps_writeLockWr h
  · exact keeps_otpReadAddr h
  · exact keeps_writeLearn h
  · exact keeps_writeSentCfg h
  · exact h

/-! ### The Host port (Machine/HostPort.lean) -/

theorem keeps_endStream (h : Keeps s₀ s) : Keeps s₀ (endStream s) := by
  unfold endStream
  split
  · exact keeps_update h rfl
  · exact h

theorem keeps_beginFrame (h : Keeps s₀ s) : Keeps s₀ (beginFrame s) := keeps_update (keeps_endStream h) rfl

theorem keeps_shiftQuay {per a n} (h : Keeps s₀ s) : Keeps s₀ (shiftQuay per a n s) := keeps_update h rfl

theorem keeps_captureWord {a v} (h : Keeps s₀ s) : Keeps s₀ (captureWord a v s) := by
  unfold captureWord
  split
  · next hroom => exact keeps_host h id id (fun _ => by simpa using hroom) id
  · exact keeps_update h rfl

theorem keeps_captureWords {a ws} (h : Keeps s₀ s) : Keeps s₀ (captureWords a ws s) := by
  induction ws generalizing a s with
  | nil => exact h
  | cons v ws ih => exact ih (keeps_captureWord h)

theorem keeps_hostWrite {a ws} (h : Keeps s₀ s) : Keeps s₀ (hostWrite a ws s) :=
  keeps_ite (keeps_captureWords h) (keeps_update h rfl)

theorem keeps_decideSlot (h : Keeps s₀ s) : Keeps s₀ (decideSlot s) := keeps_update h rfl

theorem keeps_endSlot {r} (h : Keeps s₀ s) : Keeps s₀ (endSlot r s) := by
  refine keeps_ite (keeps_host (keeps_update h rfl) (fun ho => ?_) id id id) (keeps_update h rfl)
  exact (List.drop_sublist 1 _).length_le.trans ho

theorem keeps_shiftSlot {per n} (h : Keeps s₀ s) : Keeps s₀ (shiftSlot per n s) := by
  unfold shiftSlot
  dsimp only
  split
  · refine keeps_ite (keeps_endSlot (keeps_update ?_ rfl)) (keeps_update (keeps_update ?_ rfl) rfl)
    · split
      · exact keeps_ite (keeps_decideSlot h) h
      · exact keeps_decideSlot h
    · split
      · exact keeps_ite (keeps_decideSlot h) h
      · exact keeps_decideSlot h
  · split
    · exact keeps_ite (keeps_decideSlot h) h
    · exact keeps_decideSlot h

theorem keeps_shiftSlots {per k n} (h : Keeps s₀ s) : Keeps s₀ (shiftSlots per k n s) := by
  induction k generalizing n s with
  | zero => exact h
  | succ k ih => exact keeps_ite h (ih (keeps_shiftSlot h))

theorem keeps_streamPiece {per first last n} (h : Keeps s₀ s) : Keeps s₀ (streamPiece per first last n s) :=
  keeps_ite (keeps_ite (keeps_update (keeps_ite (keeps_beginFrame h) h) rfl) (keeps_ite (keeps_beginFrame h) h)) (keeps_ite
    (keeps_endStream (keeps_shiftSlots (keeps_ite (keeps_update (keeps_ite (keeps_beginFrame h) h) rfl) (keeps_ite
    (keeps_beginFrame h) h)))) (keeps_shiftSlots (keeps_ite (keeps_update (keeps_ite (keeps_beginFrame h) h) rfl) (keeps_ite
    (keeps_beginFrame h) h))))

theorem keeps_spi {timed} {f : State → State} (hf : ∀ x, Keeps s₀ x → Keeps s₀ (f x)) (h : Keeps s₀ s) :
    Keeps s₀ (spi timed f s) := keeps_ite (hf _ h) h

theorem keeps_i2c {target} {f : State → State} (hf : ∀ x, Keeps s₀ x → Keeps s₀ (f x)) (h : Keeps s₀ s) :
    Keeps s₀ (i2c target f s) := keeps_ite (hf _ h) h

theorem keeps_leaveAt {a} (h : Keeps s₀ s) : Keeps s₀ (leaveAt a s) := keeps_update h rfl

theorem keeps_spiRead {a n} (h : Keeps s₀ s) : Keeps s₀ (spiRead a n s) := keeps_shiftQuay (keeps_beginFrame h)

theorem keeps_spiWrite {a ws} (h : Keeps s₀ s) : Keeps s₀ (spiWrite a ws s) := keeps_hostWrite (keeps_beginFrame h)

theorem keeps_spiStream {a first last bits} (h : Keeps s₀ s) : Keeps s₀ (spiStream a first last bits s) :=
  keeps_ite (keeps_streamPiece h) (keeps_ite (keeps_spiRead h) h)

theorem keeps_spiUnknown {cmd} (h : Keeps s₀ s) : Keeps s₀ (spiUnknown cmd s) :=
  keeps_ite h (keeps_update (keeps_beginFrame h) rfl)

theorem keeps_i2cWrite {a bs} (h : Keeps s₀ s) : Keeps s₀ (i2cWrite a bs s) :=
  keeps_leaveAt (keeps_hostWrite (keeps_beginFrame h))

theorem keeps_i2cStream {first last clocks} (h : Keeps s₀ s) : Keeps s₀ (i2cStream first last clocks s) :=
  keeps_ite (keeps_leaveAt (keeps_streamPiece h)) h

theorem keeps_i2cRead {addr n} (h : Keeps s₀ s) : Keeps s₀ (i2cRead addr n s) :=
  keeps_ite (keeps_i2cStream h) (keeps_leaveAt (keeps_shiftQuay (keeps_beginFrame h)))

theorem keeps_i2cStreamPiece {addr first last clocks} (h : Keeps s₀ s) : Keeps s₀ (i2cStreamPiece addr first last clocks s) :=
  keeps_ite (keeps_i2cRead h) (keeps_i2cStream h)

theorem keeps_heldRecordPlace (h : Keeps s₀ s) : Keeps s₀ (heldRecordPlace s) := keeps_placeHeld h

theorem keeps_backlogRefill (h : Keeps s₀ s) : Keeps s₀ (backlogRefill s) := keeps_ite h (keeps_refillOne h)

/-! ### The mailbox (Machine/Mailbox.lean) -/

theorem keeps_mbxExec {want always} {f : List Word → State → State} (hf : ∀ args x, Keeps s₀ x → Keeps s₀ (f args x))
    (h : Keeps s₀ s) : Keeps s₀ (mbxExec want always f s) := by
  unfold mbxExec
  split
  · next c rest hq =>
    have hb : Keeps s₀ (beginMbx c rest s) := by
      refine keeps_host (keeps_wake h) id id id fun hm => ?_
      rw [(wake_mbx s).1, hq] at hm
      exact (Nat.le_succ _).trans hm
    exact keeps_ite (keeps_ite (keeps_mbxComplete hb) (hf _ _ hb)) h
  · exact h

theorem keeps_checked {masks args} {f : List Word → State → State} (hf : ∀ args x, Keeps s₀ x → Keeps s₀ (f args x))
    (h : Keeps s₀ s) : Keeps s₀ (checked masks f args s) := keeps_ite (hf _ _ h) (keeps_mbxComplete h)

theorem keeps_mbxOk (h : Keeps s₀ s) : Keeps s₀ (mbxOk s) := keeps_mbxComplete h

theorem keeps_watchCommand {args} {f : Watch → State → State} (hf : ∀ w x, Keeps s₀ x → Keeps s₀ (f w x)) (h : Keeps s₀ s) :
    Keeps s₀ (watchCommand f args s) := by
  refine keeps_checked (fun _ x hx => ?_) h
  split
  · exact hf _ _ hx
  · exact keeps_mbxComplete hx

theorem keeps_mbxNop {args} (h : Keeps s₀ s) : Keeps s₀ (mbxNop args s) :=
  keeps_checked (fun _ _ h => keeps_mbxOk (keeps_refill h)) h

theorem keeps_mbxTrigger {w} (h : Keeps s₀ s) : Keeps s₀ (mbxTrigger w s) :=
  keeps_ite (keeps_mbxComplete h) (keeps_mbxOk (keeps_trigger h))

theorem keeps_mbxArm {w} (h : Keeps s₀ s) : Keeps s₀ (mbxArm w s) := by
  unfold mbxArm
  dsimp only
  split
  · exact keeps_mbxOk (keeps_startPending (keeps_keepVpix (keeps_modWatch h)))
  · exact keeps_ite (keeps_mbxOk (keeps_startPending (keeps_keepVpix (keeps_modWatch h)))) (keeps_mbxOk h)
  · exact keeps_ite (keeps_mbxComplete h) (keeps_mbxOk (keeps_startPending (keeps_keepVpix (keeps_modWatch h))))
  · exact keeps_mbxOk h

theorem keeps_disarmWatch {n} (h : Keeps s₀ s) : Keeps s₀ (disarmWatch n s) := by
  unfold disarmWatch
  split
  · exact h
  · dsimp only
    split
    · exact keeps_modWatch h
    · exact keeps_modWatch h
    · exact keeps_ite (keeps_modJob h) (keeps_abandon h)
    · exact keeps_ite (keeps_modJob h) (keeps_abandon h)
    · exact keeps_modJob h
    · exact h

theorem keeps_mbxDisarm {w} (h : Keeps s₀ s) : Keeps s₀ (mbxDisarm w s) :=
  keeps_ite (keeps_mbxComplete h) (keeps_mbxOk (keeps_disarmWatch h))

theorem keeps_mbxReadCal {args} (h : Keeps s₀ s) : Keeps s₀ (mbxReadCal args s) := keeps_checked (fun _ _ => keeps_mbxComplete) h

theorem keeps_mbxStats {w} (h : Keeps s₀ s) : Keeps s₀ (mbxStats w s) := keeps_mbxComplete h

theorem keeps_calCommand {masks args} {f : List Word → State → State} (hf : ∀ args x, Keeps s₀ x → Keeps s₀ (f args x))
    (h : Keeps s₀ s) : Keeps s₀ (calCommand masks f args s) := keeps_checked hf h

theorem keeps_labelCommand {args} {f : Watch → AdaptBlock → List Word → State → State}
    (hf : ∀ w b args x, Keeps s₀ x → Keeps s₀ (f w b args x)) (h : Keeps s₀ s) : Keeps s₀ (labelCommand f args s) := by
  unfold labelCommand
  split
  · split
    · exact keeps_ite (keeps_labelComplete h) (keeps_ite (keeps_labelComplete h) (hf _ _ _ _ h))
    · exact keeps_labelComplete h
  · exact keeps_labelComplete h

theorem keeps_opLabel {w b args} (h : Keeps s₀ s) : Keeps s₀ (opLabel w b args s) := by
  unfold opLabel
  refine keeps_adaptRead (fun _ => keeps_labelComplete) (fun _ h => ?_) h
  split
  · exact keeps_labelComplete h
  · exact keeps_ite (keeps_labelComplete h) (keeps_ite (keeps_labelComplete h) (keeps_queueLabel (keeps_markEntry h)))

theorem keeps_opRevert {w b args} (h : Keeps s₀ s) : Keeps s₀ (opRevert w b args s) := by
  unfold opRevert
  refine keeps_adaptRead (fun _ => keeps_labelComplete) (fun _ h => ?_) h
  exact keeps_commitHead (keeps_emitAdapt (keeps_modWatch (keeps_writeService (keeps_putHbrWhole h))))

theorem keeps_opRestart {w b args} (h : Keeps s₀ s) : Keeps s₀ (opRestart w b args s) := keeps_labelComplete (keeps_putHbr h)

theorem keeps_otpCommand {code masks} {f : List Word → State → State} (hf : ∀ args x, Keeps s₀ x → Keeps s₀ (f args x))
    (h : Keeps s₀ s) : Keeps s₀ (otpCommand code masks f s) :=
  keeps_ite h (keeps_mbxExec (fun _ _ => keeps_checked hf) h)

theorem keeps_mbxShutdown {args} (h : Keeps s₀ s) : Keeps s₀ (mbxShutdown args s) :=
  keeps_checked (fun _ _ h => keeps_ite (keeps_mbxComplete h) (keeps_update (keeps_foldl (fun _ _ => keeps_disarmWatch) h) rfl)) h

theorem keeps_shutdownComplete (h : Keeps s₀ s) : Keeps s₀ (shutdownComplete s) :=
  keeps_ite (keeps_neapEntry (keeps_mbxOk (keeps_release (keeps_update h rfl)))) h

theorem keeps_mbxReserved (h : Keeps s₀ s) : Keeps s₀ (mbxReserved s) := keeps_mbxExec (fun _ _ => keeps_mbxComplete) h

/-! ### The TAP and the debug port (Machine/Dap.lean) -/

theorem keeps_selectIr {i} (h : Keeps s₀ s) : Keeps s₀ (selectIr i s) := keeps_update h rfl

theorem keeps_extest (h : Keeps s₀ s) : Keeps s₀ (extest s) := keeps_selectIr h

theorem keeps_selectCode {code} (h : Keeps s₀ s) : Keeps s₀ (selectCode code s) := by
  unfold selectCode
  split
  · exact keeps_extest h
  · exact keeps_selectIr h
  · exact keeps_selectIr h
  · exact keeps_selectIr h
  · exact keeps_selectIr h

theorem keeps_dapEnd {status addr result} (h : Keeps s₀ s) : Keeps s₀ (dapEnd status addr result s) := keeps_update h rfl

theorem keeps_dapOp {addr} {f : State → State} (hf : ∀ x, Keeps s₀ x → Keeps s₀ (f x)) (h : Keeps s₀ s) :
    Keeps s₀ (dapOp addr f s) := by
  have hs := keeps_selectIr (i := .dap) h
  exact keeps_ite (keeps_update hs rfl) (keeps_ite (keeps_dapEnd hs) (hf _ hs))

theorem keeps_dapNop (h : Keeps s₀ s) : Keeps s₀ (dapNop s) := keeps_selectIr h

theorem keeps_dapQuayRead {addr} (h : Keeps s₀ s) : Keeps s₀ (dapQuayRead addr s) := keeps_ite (keeps_dapEnd h) (keeps_dapEnd h)

theorem keeps_dapQuayWrite {addr data} (h : Keeps s₀ s) : Keeps s₀ (dapQuayWrite addr data s) :=
  keeps_ite (keeps_dapEnd (keeps_captureWord h)) (keeps_dapEnd h)

theorem keeps_memWord {a} (h : Keeps s₀ s) : Keeps s₀ (memWord a s).2 := by
  unfold memWord
  split
  · exact h
  · split
    · exact h
    · split
      · exact h
      · exact keeps_update h rfl

theorem keeps_memOp {addr} {f : State → State} (hf : ∀ x, Keeps s₀ x → Keeps s₀ (f x)) (h : Keeps s₀ s) :
    Keeps s₀ (memOp addr f s) := by
  unfold memOp
  refine keeps_ite (keeps_dapEnd h) (keeps_ite (keeps_dapEnd h) ?_)
  extract_lets s1 _ s2 s3
  have h3 : Keeps s₀ s3 := keeps_visit (keeps_update (keeps_wake h) rfl)
  exact keeps_ite (keeps_dapEnd h3) (hf _ h3)

theorem keeps_dapMemRead {addr} (h : Keeps s₀ s) : Keeps s₀ (dapMemRead addr s) :=
  keeps_memOp (fun _ h => keeps_dapEnd (keeps_memWord h)) h

theorem length_modAt {α : Type} (l : List α) (i : Nat) (f : α → α) : (modAt l i f).length = l.length := by
  unfold modAt
  split
  · exact List.length_set
  · rfl

theorem keeps_putMem {a bs} (h : Keeps s₀ s) : Keeps s₀ (s.putMem a bs) := by
  unfold State.putMem
  split
  · refine keeps_backlog (fun hs => ?_) h
    obtain ⟨-, hb, -⟩ := (withinDepths_iff s).mp hs
    rwa [length_modAt]
  · exact keeps_putHbr h

theorem keeps_dapMemWrite {addr data} (h : Keeps s₀ s) : Keeps s₀ (dapMemWrite addr data s) :=
  keeps_memOp (fun _ h => keeps_dapEnd (keeps_putMem h)) h

theorem keeps_dapArg {addr data} (h : Keeps s₀ s) : Keeps s₀ (dapArg addr data s) :=
  keeps_ite (keeps_dapEnd (keeps_update h rfl)) (keeps_dapEnd h)

theorem keeps_dapRunOtp {code} (h : Keeps s₀ s) : Keeps s₀ (dapRunOtp code s) :=
  keeps_ite (keeps_otpProgram h) (keeps_lifecycleAdvance h)

theorem keeps_dapStartOtp (h : Keeps s₀ s) : Keeps s₀ (dapStartOtp s) := by
  unfold dapStartOtp
  split
  · exact keeps_ite (keeps_ite (keeps_dapRunOtp (keeps_update (keeps_wake h) rfl)) (keeps_wake h)) h
  · exact h

theorem keeps_dapExec {addr} (h : Keeps s₀ s) : Keeps s₀ (dapExec addr s) :=
  keeps_ite (keeps_dapStartOtp (keeps_update (keeps_dapEnd h) rfl)) (keeps_dapEnd h)

theorem keeps_dapBootRelease (h : Keeps s₀ s) : Keeps s₀ (dapBootRelease s) := keeps_dapEnd (keeps_ite (keeps_toStage h) h)

theorem keeps_slackExpiry (h : Keeps s₀ s) : Keeps s₀ (slackExpiry s) := keeps_update h rfl

theorem keeps_dapReserved {op addr} (h : Keeps s₀ s) : Keeps s₀ (dapReserved op addr s) :=
  keeps_ite (keeps_dapOp (fun _ => keeps_dapEnd) h) h

/-! ### The LFCLK tick (Machine/Tick.lean) -/

theorem keeps_countTick (h : Keeps s₀ s) : Keeps s₀ (countTick s) := by
  refine h.trans ⟨rfl, fun hs => ?_⟩
  obtain ⟨ho, hb, hw, hm, -, hc⟩ := (withinDepths_iff s).mp hs
  exact (withinDepths_iff _).mpr ⟨ho, hb, hw, hm, Nat.mod_lt _ (by decide), hc⟩

theorem keeps_countWatchdog (h : Keeps s₀ s) : Keeps s₀ (countWatchdog s) := keeps_ite (keeps_update h rfl) h

theorem keeps_countUpsets (h : Keeps s₀ s) : Keeps s₀ (countUpsets s) := keeps_update h rfl

theorem keeps_countThrottle (h : Keeps s₀ s) : Keeps s₀ (countThrottle s) := keeps_ite (keeps_update h rfl) h

theorem keeps_countWaits (h : Keeps s₀ s) : Keeps s₀ (countWaits s) :=
  keeps_foldl (fun _ _ => keeps_admitTimeout) (keeps_foldl (fun _ _ => keeps_modJob) h)

theorem keeps_standAlarm {source b holds} (h : Keeps s₀ s) : Keeps s₀ (standAlarm source b holds s) :=
  keeps_ite (keeps_update (keeps_logEntry h) rfl) h

theorem keeps_standingAlarms (h : Keeps s₀ s) : Keeps s₀ (standingAlarms s) :=
  keeps_standAlarm (keeps_standAlarm (keeps_standAlarm (keeps_standAlarm h)))

theorem keeps_pulseTick (h : Keeps s₀ s) : Keeps s₀ (pulseTick s) := by
  unfold pulseTick
  split
  · exact keeps_ite (keeps_irqPulseEnd h) h
  · exact h

theorem keeps_slackTick (h : Keeps s₀ s) : Keeps s₀ (slackTick s) := keeps_ite (keeps_slackExpiry h) h

theorem keeps_tickActs (h : Keeps s₀ s) : Keeps s₀ (tickActs s) :=
  keeps_registerIrq (keeps_pulseTick (keeps_standingAlarms (keeps_countWaits (keeps_countThrottle (keeps_stallTick
    (keeps_countWatchdog (keeps_countUpsets (keeps_dapStartOtp (keeps_mbxReserved (keeps_slackTick h))))))))))

theorem keeps_tick (h : Keeps s₀ s) : Keeps s₀ (tick s) := keeps_inService (fun _ => keeps_tickActs) (keeps_countTick h)

end

end Sys2Proof.Machine
end

