-- ==== Sys2Proof/Proofs/KeepsIssue.lean ====
section
/-! PROOF. Proofs/KeepsIssue.lean: the issue of a bundle keeps the queues. What each syllable does to the context of its bundle;
that a DMA syllable takes one token and stalls where none is left (R355, R376); and the slots of a bundle in order. -/
namespace Sys2Proof.Machine
open Sys2Proof

section
variable {s₀ s t : State}

/-! ### What a syllable does to the context of its bundle -/

/-- y follows x within the issue of a bundle: the state keeps its queues and its watches, the core before the bundle is the same, a
stall stays, a slot that waits is the acting one, and at most d n new operations hold a token of DMA slot n. Slot 13 holds none. -/
structure Follows (d : Nat → Nat) (x y : Ctx) : Prop where
  keeps : Keeps x.s y.s
  watches : y.s.watches = x.s.watches
  core : y.c = x.c
  before : y.k0 = x.k0
  slot : y.slot = x.slot
  stall : x.stall = true → y.stall = true
  hold : ∀ j, y.hold = some j → x.hold = some j ∨ j = x.slot
  tokens : ∀ n, n ≠ 13 → tokens n y.fresh ≤ tokens n x.fresh + d n

/-- A syllable that takes no token. -/
abbrev Quiet : Ctx → Ctx → Prop := Follows fun _ => 0

section
variable {d e : Nat → Nat} {x y z : Ctx}

theorem Follows.refl (x : Ctx) : Follows d x x :=
  ⟨.refl _, rfl, rfl, rfl, rfl, id, fun _ => .inl, fun _ _ => Nat.le_add_right _ _⟩

theorem Follows.trans (h : Follows d x y) (h' : Follows e y z) : Follows (fun n => d n + e n) x z where
  keeps := h.keeps.trans h'.keeps
  watches := h'.watches.trans h.watches
  core := h'.core.trans h.core
  before := h'.before.trans h.before
  slot := h'.slot.trans h.slot
  stall := h'.stall ∘ h.stall
  hold j hj := (h'.hold j hj).elim (h.hold j) fun hs => .inr (hs.trans h.slot)
  tokens n hn := by
    have h1 := h.tokens n hn
    have h2 := h'.tokens n hn
    omega

theorem Quiet.trans (h : Quiet x y) (h' : Follows d y z) : Follows d x z := by
  simpa only [Nat.zero_add] using Follows.trans h h'

theorem Quiet.mono (h : Quiet x y) : Follows d x y := { h with tokens := fun n hn => (h.tokens n hn).trans (Nat.le_add_right _ _) }

/-- What `Follows` looks at in the later context, apart from the state. -/
def Ctx.rest (x : Ctx) := (x.c, x.k0, x.slot, x.stall, x.hold, x.fresh)

/-- A change of the state that keeps its queues and watches. -/
theorem Follows.state (h : Follows d x y) (hs : Keeps y.s z.s) (hw : z.s.watches = y.s.watches) (e : z.rest = y.rest) :
    Follows d x z := by
  simp only [Ctx.rest, Prod.mk.injEq] at e
  obtain ⟨ec, ek, el, et, eh, ef⟩ := e
  exact ⟨h.keeps.trans hs, hw.trans h.watches, ec.trans h.core, ek.trans h.before, el.trans h.slot, fun ht => et.trans (h.stall ht),
    fun j hj => h.hold j (eh ▸ hj), fun n hn => ef ▸ h.tokens n hn⟩

/-- Changes of the issuing core, of the next bundle and of the marks of poison and of closing. -/
theorem Quiet.update {rs li bad target blind closes k} (h : Quiet x y) :
    Quiet x { y with rs := rs, li := li, bad := bad, target := target, blind := blind, closes := closes, k := k } :=
  { h with }

theorem Quiet.ite {b : Prop} [Decidable b] (h : Quiet x y) (h' : Quiet x z) : Quiet x (if b then y else z) := by
  split <;> assumption

theorem Quiet.stalls (h : Quiet x y) : Quiet x { y with stall := true } := { h with stall := fun _ => rfl }

theorem Quiet.stallIf {b : Prop} [Decidable b] (h : Quiet x y) : Quiet x (if b then { y with stall := true } else y) := by
  split
  · exact h.stalls
  · exact h

theorem Quiet.touch {a n w} (h : Quiet x y) : Quiet x (y.touch a n w) := by
  unfold Ctx.touch
  split
  · exact h
  · refine h.trans { Follows.refl (d := fun _ => 0) y with stall := fun hs => by simp [hs], hold := fun j hj => ?_ }
    cases hy : y.hold with
    | some i => exact .inl (by simpa [hy] using hj)
    | none =>
      simp only [hy, Option.none_or, Option.ite_none_right_eq_some, Option.some.injEq] at hj
      exact .inr hj.2.symm

theorem Quiet.correctLocal {a n} (h : Quiet x y) : Quiet x (y.correctLocal a n) := by
  unfold Ctx.correctLocal
  split
  · exact h
  · exact h.state ((Keeps.refl _).frame rfl) rfl rfl

theorem Quiet.readLocal {a n} (h : Quiet x y) : Quiet x (y.readLocal a n) := by
  unfold Ctx.readLocal
  dsimp only
  split
  · exact h
  · split
    · exact h.touch.correctLocal.update
    · exact h.touch.correctLocal

theorem Quiet.metered {f} (h : Quiet x y) : Quiet x (y.metered f) := h.update

/-! ### Results of a syllable -/

/-- Whether a syllable ends well or raises an exception, the context it leaves follows x. -/
inductive Res.Follows (d : Nat → Nat) (x : Ctx) : Res → Prop
  | ok {y : Ctx} (h : Machine.Follows d x y) : Res.Follows d x (.ok y)
  | error {c : Nat} {y : Ctx} (h : Machine.Quiet x y) : Res.Follows d x (.error (c, y))

abbrev Res.Quiet (x : Ctx) : Res → Prop := Res.Follows (fun _ => 0) x

theorem follows_require {b c k} (h : Quiet x y) (hk : Res.Follows d x (k y)) : Res.Follows d x (require b c y k) := by
  unfold require
  split
  · exact hk
  · exact .error h

theorem follows_ite {b : Prop} [Decidable b] {r r' : Res} (h : Res.Follows d x r) (h' : Res.Follows d x r') :
    Res.Follows d x (if b then r else r') := by
  split <;> assumption

theorem ok_of_require {b : Bool} {c : Nat} {k : Ctx → Res} (h : require b c x k = .ok y) : k x = .ok y := by
  unfold require at h
  split at h
  · exact h
  · cases h

/-! ### Tensor, vector and scalar syllables -/

theorem quiet_tensorOp (conv w) (x : Ctx) : Res.Quiet x (tensorOp conv w x) := by
  have h : Quiet x x := .refl x
  unfold tensorOp
  refine follows_require h (follows_require h ?_)
  extract_lets _ td x1
  have h1 : Quiet x x1 := h.readLocal
  split
  refine follows_require h1 (follows_require h1 ?_)
  split
  exact follows_require h1 (.ok h1.readLocal.readLocal.update.metered)

theorem quiet_aclrOp (w) (x : Ctx) : Res.Quiet x (aclrOp w x) := by
  have h : Quiet x x := .refl x
  unfold aclrOp
  exact follows_require h (.ok h.update)

theorem quiet_rescaleOp (rqv w) (x : Ctx) : Res.Quiet x (rescaleOp rqv w x) := by
  have h : Quiet x x := .refl x
  unfold rescaleOp
  refine follows_require h (follows_require h ?_)
  extract_lets _ rd x1
  have h1 : Quiet x x1 := h.readLocal
  refine follows_require h1 (follows_require h1 (.ok (Quiet.update (Quiet.touch (Quiet.ite (Quiet.readLocal ?_) ?_)))))
  · exact Quiet.ite h1.readLocal.readLocal h1.readLocal
  · exact Quiet.ite h1.readLocal.readLocal h1.readLocal

theorem quiet_poolOp (global w) (x : Ctx) : Res.Quiet x (poolOp global w x) := by
  have h : Quiet x x := .refl x
  unfold poolOp
  exact follows_require h (follows_require h (follows_require h.readLocal (follows_require h.readLocal
    (.ok h.readLocal.readLocal.touch.update))))

theorem quiet_cropOp (w) (x : Ctx) : Res.Quiet x (cropOp w x) := by
  have h : Quiet x x := .refl x
  unfold cropOp
  exact follows_require h (follows_require h (follows_require h.readLocal (follows_require h.readLocal
    (.ok h.readLocal.readLocal.readLocal.touch.update))))

theorem quiet_vectorOp (w) (x : Ctx) : Res.Quiet x (vectorOp w x) := by
  have h : Quiet x x := .refl x
  unfold vectorOp
  refine follows_ite (.ok h.metered.update) (follows_ite (.ok h.metered.update) (follows_ite (.ok h.metered.update)
    (follows_ite (.ok h.metered.update) (follows_ite (.ok h.metered.update) (follows_ite ?_ (follows_ite ?_
      (.ok h.metered.update)))))))
  · exact follows_require h.metered (follows_require h.metered (.ok h.metered.readLocal.update))
  · exact follows_require h.metered (follows_require h.metered (.ok h.metered.touch.update))

theorem quiet_saluOp (w) (x : Ctx) : Res.Quiet x (saluOp w x) := by
  have h : Quiet x x := .refl x
  exact follows_ite (.ok h.update) (follows_ite (.ok h.update) (follows_ite (.ok h.update) (follows_ite (.ok h.update)
    (follows_ite (.ok h.update) (.ok h.update)))))

theorem quiet_agenOp (w) (x : Ctx) : Res.Quiet x (agenOp w x) := .ok (Quiet.update (.refl x))

theorem quiet_ldstOp (w) (x : Ctx) : Res.Quiet x (ldstOp w x) := by
  have h : Quiet x x := .refl x
  unfold ldstOp
  refine follows_require h (follows_require h ?_)
  exact follows_ite (.ok h.readLocal.update) (follows_ite (.ok h.readLocal.touch.update)
    (follows_ite (.ok h.readLocal.update) (.ok h.readLocal.touch.update)))

/-! ### Branches and the SYNC class -/

theorem Quiet.branchTo {t} (h : Quiet x y) : Quiet x (branchTo t y) := h.update

theorem quiet_branchOp (w p acts) (x : Ctx) : Res.Quiet x (branchOp w p acts x) := by
  have h : Quiet x x := .refl x
  unfold branchOp
  refine follows_ite (.ok h.update) (follows_require h ?_)
  split
  · exact .ok h.branchTo
  · exact follows_require h (.ok h.branchTo)
  · unfold loopOp
    exact follows_require h (follows_ite (.ok h.update.branchTo) (.ok h.update))
  · exact .ok h.update

theorem Quiet.waits {w} (h : Quiet x y) : Quiet x (y.waits w) := h.update

theorem Quiet.doubt {chip} (h : Quiet x y) : Quiet x (y.doubt chip) := h.stallIf

theorem Quiet.full (h : Quiet x y) : Quiet x y.full := h.stallIf

theorem quiet_status {w code cause} (h : Quiet x y) : Res.Quiet x (y.status w code cause) := by
  unfold Ctx.status
  split
  · exact .ok h.update
  · exact .error h

theorem tokens_singleton (n : Nat) (q : Pend) : tokens n [q] = if q.slot = n then 1 else 0 := by
  by_cases h : q.slot = n <;> simp [tokens, h]

/-- A new operation holds a token of its slot. -/
theorem Quiet.newOp {q : Pend} {slot : Nat} (h : Quiet x y) (hs : Keeps y.s z.s) (hw : z.s.watches = y.s.watches)
    (e : z.rest = { y with fresh := y.fresh ++ [q] }.rest) (hq : q.slot = slot) :
    Follows (fun n => if slot = n then 1 else 0) x z := by
  subst hq
  refine Follows.state (y := { y with fresh := y.fresh ++ [q] }) (h.trans ?_) hs hw e
  exact { Follows.refl (d := fun _ => 0) y with tokens := fun n _ => by rw [tokens_append, tokens_singleton] }

/-- A word access holds a token of slot 13. -/
theorem Quiet.newWord {q : Pend} (h : Quiet x y) (hs : Keeps y.s z.s) (hw : z.s.watches = y.s.watches)
    (e : z.rest = { y with fresh := y.fresh ++ [q] }.rest) (hq : q.slot = 13) : Quiet x z :=
  have hz := h.newOp hs hw e hq
  { hz with tokens := fun n hn => by simpa [Ne.symm hn] using hz.tokens n hn }

theorem Quiet.localWord {op w p a} (h : Quiet x y) : Quiet x (localWord op w p a y) := h.full.touch.newWord (.refl _) rfl rfl rfl

theorem quiet_acqOp (w) (x : Ctx) : Res.Quiet x (acqOp w x) := by
  have h : Quiet x x := .refl x
  unfold acqOp
  exact follows_require h (follows_ite (quiet_status h.doubt) (.ok h.waits))

theorem quiet_headOp (w wt) (x : Ctx) : Res.Quiet x (headOp w wt x) := by
  have h : Quiet x x := .refl x
  unfold headOp
  exact follows_require h (follows_require h (follows_require h (follows_require h
    (.ok (h.stallIf.state ((Keeps.refl _).frame rfl) rfl rfl)))))

theorem quiet_ckptOp (w wt) (x : Ctx) : Res.Quiet x (ckptOp w wt x) := by
  have h : Quiet x x := .refl x
  unfold ckptOp
  exact follows_require h (.ok h.update)

theorem quiet_epochOp (w wt) (x : Ctx) : Res.Quiet x (epochOp w wt x) := by
  have h : Quiet x x := .refl x
  unfold epochOp
  exact follows_ite
    (follows_ite (.error h) (follows_ite (.error h) (follows_ite (quiet_status h.doubt.update) (.ok h.full.waits))))
    (follows_require h (follows_ite (quiet_status h.doubt) (.ok h.waits)))

/-! ### Packets leave the watches -/

theorem watches_foldl {α : Type} {f : State → α → State} (hf : ∀ s a, (f s a).watches = s.watches) (l : List α) (s : State) :
    (l.foldl f s).watches = s.watches :=
  List.foldlRecOn (motive := fun t : State => t.watches = s.watches) l f rfl fun t ht a _ => (hf t a).trans ht

theorem watches_ite {b : Prop} [Decidable b] {s t u : State} (hs : s.watches = u.watches) (ht : t.watches = u.watches) :
    (if b then s else t).watches = u.watches := by
  split <;> assumption

theorem watches_modPort (p f) (s : State) : (s.modPort p f).watches = s.watches := watches_setPort s p _

theorem watches_returnCredit (p v n) (s : State) : (returnCredit p v n s).watches = s.watches :=
  watches_ite ((watches_modPort p _ _).trans (watches_modPort p _ s)) rfl

theorem watches_pumpPort (p) (s : State) : (pumpPort p s).watches = s.watches :=
  (watches_foldl (fun _ _ => watches_foldl (fun _ _ => watches_returnCredit ..) _ _) _ _).trans (watches_setPort s p _)

theorem watches_needXref (s : State) : (needXref s).watches = s.watches := watches_ite rfl rfl

theorem watches_startPorts (s : State) : (startPorts s).watches = s.watches :=
  watches_ite (watches_foldl (fun _ _ => watches_ite (watches_modPort ..) (watches_ite (watches_modPort ..) rfl)) _ _) rfl

theorem watches_needPort (p) (s : State) : (needPort p s).watches = s.watches :=
  watches_ite ((watches_startPorts _).trans (watches_needXref _)) rfl

theorem watches_sendPacket (k) (s : State) : (sendPacket k s).watches = s.watches :=
  watches_ite ((watches_pumpPort ..).trans ((watches_needPort ..).trans (watches_modPort ..))) rfl

theorem watches_sendRead (c watch chip a loc n) (s : State) : (sendRead c watch chip a loc n s).2.watches = s.watches :=
  watches_sendPacket ..

theorem watches_sendBurst (c watch chip off ls) (s : State) : (sendBurst c watch chip off ls s).2.watches = s.watches :=
  watches_ite (watches_sendPacket ..) ((watches_sendPacket ..).trans (watches_sendPacket ..))

theorem Quiet.remoteWord {op w p a chip wt} (h : Quiet x y) : Quiet x (remoteWord op w p a chip wt y) :=
  h.full.touch.newWord (keeps_sendPacket (keeps_takeTxn (.refl _))) (watches_sendPacket ..) rfl rfl

theorem quiet_wordOp (w p wt) (x : Ctx) : Res.Quiet x (wordOp w p wt x) := by
  have h : Quiet x x := .refl x
  unfold wordOp
  refine follows_require h (follows_require h ?_)
  split
  · exact follows_require h (.ok h.localWord)
  · exact follows_ite (follows_ite (quiet_status (h.state ((Keeps.refl _).frame rfl) rfl rfl)) (.error h))
      (follows_ite (quiet_status h) (follows_require h (follows_ite (.error h)
        (follows_ite (quiet_status h.doubt) (.ok h.remoteWord)))))

theorem quiet_syncOp (w p) (x : Ctx) : Res.Quiet x (syncOp w p x) := by
  have h : Quiet x x := .refl x
  unfold syncOp
  split
  · exact .ok h
  · split
    · exact .ok h.waits
    · exact quiet_acqOp w x
    · exact .ok h.waits
    · exact quiet_headOp w _ x
    · exact quiet_ckptOp w _ x
    · exact quiet_epochOp w _ x
    · exact quiet_epochOp w _ x
    · exact quiet_wordOp w p _ x

/-! ### DMA transfers -/

theorem quiet_foldl {α β : Type} (g : β → Ctx) {f : β → α → β} (hf : ∀ b a, Quiet x (g b) → Quiet x (g (f b a))) {b : β}
    (h : Quiet x (g b)) (l : List α) : Quiet x (g (l.foldl f b)) :=
  List.foldlRecOn (motive := fun b => Quiet x (g b)) l f h fun b hb a _ => hf b a hb

theorem Quiet.touchRange {r} (h : Quiet x y) : Quiet x (y.touchRange r) := h.touch

theorem Quiet.visit {k : Core} {a n} (h : Quiet x y) : Quiet x { y with s := y.s.visit a n, k := k } :=
  h.state (keeps_visit (.refl _)) (by unfold State.visit; split <;> rfl) rfl

theorem Quiet.copyInLine {d l} {m : Moved} (h : Quiet x m.x) : Quiet x (copyInLine d m l).x := by
  unfold Machine.copyInLine
  dsimp only
  split
  · exact h.update
  · split
    · exact h
    · exact h.visit

theorem Quiet.copyOutLine {d l} {m : Moved} (h : Quiet x m.x) : Quiet x (copyOutLine d m l).x := by
  unfold Machine.copyOutLine
  dsimp only
  split
  · exact h
  · exact h.correctLocal.state (keeps_putHbrLines (.refl _)) rfl rfl

theorem Quiet.imemLine {l} {m : Moved} (h : Quiet x m.x) : Quiet x (imemLine m l).x := by
  unfold Machine.imemLine
  dsimp only
  split
  · exact h
  · exact h.visit

theorem Quiet.remoteIn {d c w chip} (h : Quiet x y) : Quiet x (remoteIn d c w chip y).2 := by
  unfold Machine.remoteIn
  refine quiet_foldl Prod.snd (fun acc r hacc => ?_) h.stallIf _
  extract_lets src dst n k bursts x1 k1
  have h1 : Quiet x x1.2 := by
    refine quiet_foldl Prod.snd (fun a b ha => ?_) hacc _
    exact ha.state (keeps_sendRead (loc := dst + (b.1 - src)) (.refl _)) (watches_sendRead _ _ _ _ (dst + (b.1 - src)) _ _) rfl
  exact h1.update

theorem Quiet.remoteOut {d c w chip} (h : Quiet x y) : Quiet x (remoteOut d c w chip y).2.x := by
  unfold Machine.remoteOut
  refine quiet_foldl (fun a : List RemoteReq × Moved => a.2.x) (fun acc r hacc => ?_) h _
  refine quiet_foldl (fun a : List RemoteReq × Moved => a.2.x) (fun a b ha => ?_) hacc _
  dsimp only
  split
  · exact ha
  · exact ha.correctLocal.state (keeps_sendBurst (.refl _)) (watches_sendBurst ..) rfl

/-- A transfer holds one token of its slot. -/
theorem follows_startDma {d slot p w} (h : Quiet x y) :
    Follows (fun n => if slot = n then 1 else 0) x (startDma d slot p w y) := by
  unfold startDma
  extract_lets chip y1 base y2
  have h2 : Quiet x y2 := Quiet.metered (quiet_foldl (fun z => z) (fun _ _ hx => Quiet.touchRange hx) h _)
  split
  · exact (quiet_foldl Moved.x (fun _ _ hm => hm.copyInLine) (b := { x := y2 }) h2 _).newOp (.refl _) rfl rfl rfl
  · exact (quiet_foldl Moved.x (fun _ _ hm => hm.copyOutLine) (b := { x := y2 }) h2 _).newOp (.refl _) rfl rfl rfl
  · exact h2.remoteIn.newOp (.refl _) rfl rfl rfl
  · exact h2.remoteOut.newOp (.refl _) rfl rfl rfl
  · exact h2.newOp ((Keeps.refl _).frame rfl) rfl rfl rfl
  · exact (quiet_foldl Moved.x (fun _ _ hm => hm.imemLine) (b := { x := y2 }) h2 _).newOp (.refl _) rfl rfl rfl

theorem Follows.springWatch (h : Follows d x y) : y.s.springWatch = x.s.springWatch := by
  unfold State.springWatch
  rw [h.watches]

/-- A DMA syllable takes a token of its slot, where a watch runs. -/
theorem follows_dmaOp (slot w p) (x : Ctx) :
    Res.Follows (fun n => if slot = n ∧ x.s.springWatch.isSome then 1 else 0) x (dmaOp slot w p x) := by
  have h : Quiet x x := .refl x
  unfold dmaOp
  refine follows_require h (follows_require h ?_)
  extract_lets x1 b dd
  have h1 : Quiet x x1 := h.readLocal
  have hs := h1.springWatch
  split
  · exact .ok h1.mono
  · next wt hw =>
    refine follows_require h1 (follows_require h1 (follows_require h1 (follows_require h1 (follows_require h1
      (follows_require h1 (.ok ?_))))))
    rw [hw] at hs
    simpa [← hs] using follows_startDma (d := dd) (slot := slot) (p := p) (w := wt) h1.stallIf

/-- A DMA syllable whose slot has no token left holds its bundle (R355, R376). -/
theorem stall_dmaOp {slot w p} {x y : Ctx} (h : dmaOp slot w p x = .ok y) (hs : x.s.springWatch.isSome = true)
    (hf : 16 ≤ tokens slot x.k0.pend) : y.stall = true := by
  unfold dmaOp at h
  replace h := ok_of_require (ok_of_require h)
  extract_lets x1 b dd at h
  have h1 : Quiet x x1 := Quiet.readLocal (.refl x)
  rw [← h1.springWatch] at hs
  rw [← h1.before] at hf
  split at h
  · next hw => simp [hw] at hs
  · replace h := ok_of_require (ok_of_require (ok_of_require (ok_of_require (ok_of_require (ok_of_require h)))))
    rw [if_pos (show 16 ≤ (x1.k0.pend.filter (fun q => q.slot == slot)).length from hf)] at h
    cases h
    exact (follows_startDma (.refl _)).stall rfl

end

/-! ### Slots of a bundle -/

/-- Every slot of the bundle accepts its syllable. -/
def Legal (l : List Nat) : Prop := ∀ i < 14, sylLegal i (l.getD i 0) = true

/-- Slot n of the bundle starts a transfer, which takes a token: slots 6 and 7 alone do. -/
def Ctx.takes (l : List Nat) (x : Ctx) (n : Nat) : Bool :=
  (n == 6 || n == 7) && (slotActs x.k0 l n && !x.k0.early.contains n && x.s.springWatch.isSome)

theorem takes_of_same {x y : Ctx} (hk : y.k0 = x.k0) (hw : y.s.watches = x.s.watches) (l n) : y.takes l n = x.takes l n := by
  unfold Ctx.takes State.springWatch
  rw [hk, hw]

theorem sClass_of_legal {l : List Nat} (hl : Legal l) {k : Core} {i : Nat} (hi : i < 14) (ha : slotActs k l i = true) :
    sClass (l.getD i 0) = slotClass i := by
  have h := hl i hi
  simp only [slotActs, Bool.and_eq_true, bne_iff_ne, ne_eq] at ha
  simp only [sylLegal, Bool.or_eq_true, Bool.and_eq_true, beq_iff_eq] at h
  exact (h.resolve_left ha.1).1

theorem slot_of_class_dma : (∀ i < 14, slotClass i = 5 → i = 6) ∧ ∀ i < 14, slotClass i = 6 → i = 7 := by decide

theorem Res.Quiet.mono {d : Nat → Nat} {x : Ctx} {r : Res} (h : Res.Quiet x r) : Res.Follows d x r := by
  cases h with
  | ok h => exact .ok (Machine.Quiet.mono h)
  | error h => exact .error h

theorem follows_runSlot {l : List Nat} (hl : Legal l) (p : Nat) {i : Nat} (hi : i < 14) (x : Ctx) :
    Res.Follows (fun n => if i = n ∧ x.takes l n then 1 else 0) x (runSlot l p i x) := by
  have h : Quiet x x := .refl x
  unfold runSlot
  refine follows_ite (quiet_branchOp ..).mono ?_
  split
  · exact .ok h.mono
  · next ha =>
    split
    · exact .ok h.mono
    · next he =>
      simp only [Bool.not_eq_true', Bool.not_eq_false] at ha
      replace he : x.k0.early.contains i = false := Bool.eq_false_iff.mpr he
      have hc := sClass_of_legal hl hi ha
      split
      · exact (quiet_saluOp ..).mono
      · exact (quiet_agenOp ..).mono
      · exact (quiet_ldstOp ..).mono
      · next h5 =>
        obtain rfl := slot_of_class_dma.1 i hi (hc.symm.trans h5)
        convert follows_dmaOp 6 _ p x using 3 with n
        refine and_congr_right ?_
        rintro rfl
        simp only [Ctx.takes, ha, he]
        simp
      · next h6 =>
        obtain rfl := slot_of_class_dma.2 i hi (hc.symm.trans h6)
        convert follows_dmaOp 7 _ p x using 3 with n
        refine and_congr_right ?_
        rintro rfl
        simp only [Ctx.takes, ha, he]
        simp
      · exact Res.Quiet.mono (follows_ite (quiet_tensorOp ..) (follows_ite (quiet_tensorOp ..) (quiet_aclrOp ..)))
      · exact (quiet_vectorOp ..).mono
      · exact (quiet_rescaleOp ..).mono
      · exact Res.Quiet.mono (follows_ite (quiet_poolOp ..) (follows_ite (quiet_poolOp ..) (quiet_cropOp ..)))
      · exact (quiet_syncOp ..).mono

/-- A slot that takes a token where none is left holds its bundle (R355, R376). -/
theorem stall_runSlot {l : List Nat} (hl : Legal l) {p i : Nat} {x y : Ctx} (h : runSlot l p i x = .ok y)
    (ht : x.takes l i = true) (hf : 16 ≤ tokens i x.k0.pend) : y.stall = true := by
  simp only [Ctx.takes, Bool.and_eq_true, Bool.or_eq_true, beq_iff_eq, Bool.not_eq_true'] at ht
  obtain ⟨hi, ⟨ha, he⟩, hs⟩ := ht
  obtain rfl | rfl := hi
  · have hc := sClass_of_legal hl (by decide) ha
    refine stall_dmaOp (slot := 6) (w := l.getD 6 0) (p := p) (x := x) ?_ hs hf
    rw [runSlot, if_neg (by decide), ha, he, hc] at h
    exact h
  · have hc := sClass_of_legal hl (by decide) ha
    refine stall_dmaOp (slot := 7) (w := l.getD 7 0) (p := p) (x := x) ?_ hs hf
    rw [runSlot, if_neg (by decide), ha, he, hc] at h
    exact h

/-- What running the slots `is` of a bundle from context x comes to: each takes at most its own token, and a slot that finds no
token left has stalled the bundle. -/
structure Ran (l is : List Nat) (x y : Ctx) : Prop where
  keeps : Keeps x.s y.s
  watches : y.s.watches = x.s.watches
  core : y.c = x.c
  before : y.k0 = x.k0
  stall : x.stall = true → y.stall = true
  hold : ∀ j, y.hold = some j → x.hold = some j ∨ j ∈ is
  tokens : ∀ n, n ≠ 13 → tokens n y.fresh ≤ tokens n x.fresh + if n ∈ is ∧ x.takes l n then 1 else 0
  room : y.stall = false → ∀ n ∈ is, x.takes l n = true → Machine.tokens n x.k0.pend < 16

theorem Ran.nil (l : List Nat) (x : Ctx) : Ran l [] x x :=
  ⟨.refl _, rfl, rfl, rfl, id, fun _ => .inl, fun _ _ => Nat.le_add_right _ _, fun _ _ hn => nomatch hn⟩

/-- One slot, then the others. -/
theorem Ran.cons {l is : List Nat} {i p : Nat} {x y z : Ctx} (hl : Legal l) (hi : i < 14) (hn : i ∉ is)
    (h : runSlot l p i { x with slot := i } = .ok y) (hr : Ran l is y z) : Ran l (i :: is) x z := by
  have hf := follows_runSlot hl p hi { x with slot := i }
  rw [h] at hf
  obtain ⟨hf⟩ := hf
  have ht : ∀ n, y.takes l n = x.takes l n := takes_of_same hf.before hf.watches l
  refine ⟨hf.keeps.trans hr.keeps, hr.watches.trans hf.watches, hr.core.trans hf.core, hr.before.trans hf.before,
    fun hs => hr.stall (hf.stall hs), fun j hj => ?_, fun n hn13 => ?_, fun hs n hmem htn => ?_⟩
  · obtain hj | hj := hr.hold j hj
    · exact (hf.hold j hj).imp id fun e => List.mem_cons.mpr (.inl e)
    · exact .inr (List.mem_cons_of_mem _ hj)
  · have h1 := hr.tokens n hn13
    have h2 := hf.tokens n hn13
    have h3 : Ctx.takes l { x with slot := i } n = x.takes l n := rfl
    rw [ht n] at h1
    rw [h3] at h2
    by_cases hin : i = n
    · subst hin
      simp only [hn, false_and, if_false, true_and, List.mem_cons_self] at h1 h2 ⊢
      omega
    · simp only [hin, Ne.symm hin, false_and, if_false, List.mem_cons, false_or] at h1 h2 ⊢
      omega
  · obtain rfl | hmem := List.mem_cons.mp hmem
    · by_contra hfull
      have hy : y.stall = true := stall_runSlot hl h htn (not_lt.mp hfull)
      rw [hr.stall hy] at hs
      cases hs
    · have := hr.room hs n hmem ((ht n).trans htn)
      rwa [hf.before] at this

theorem ran_of_runSlots {l : List Nat} (hl : Legal l) {p : Nat} {is : List Nat} {x y : Ctx} (hi : ∀ i ∈ is, i < 14)
    (hn : is.Nodup) (h : runSlots l p is x = .ok y) : Ran l is x y := by
  induction is generalizing x with
  | nil =>
    cases h
    exact .nil l _
  | cons i is ih =>
    unfold runSlots at h
    split at h
    · next z hz =>
      obtain ⟨hni, hn⟩ := List.nodup_cons.mp hn
      exact .cons hl (hi i List.mem_cons_self) hni hz (ih (fun j hj => hi j (List.mem_cons_of_mem _ hj)) hn h)
    · cases h

/-- A slot that raises an exception: the slots before it have run. -/
theorem runSlots_error {l : List Nat} {p : Nat} {is : List Nat} {x y : Ctx} {c i : Nat} (h : runSlots l p is x = .error (c, i, y)) :
    ∃ pre post z, is = pre ++ i :: post ∧ runSlots l p pre x = .ok z ∧ runSlot l p i { z with slot := i } = .error (c, y) := by
  induction is generalizing x with
  | nil => cases h
  | cons j is ih =>
    unfold runSlots at h
    split at h
    · next z hz =>
      obtain ⟨pre, post, z', rfl, hpre, hi⟩ := ih h
      refine ⟨j :: pre, post, z', rfl, ?_, hi⟩
      unfold runSlots
      rw [hz]
      exact hpre
    · next e he =>
      cases h
      exact ⟨[], is, x, rfl, rfl, he⟩

/-- The slots before one that raises an exception without a stall have found their tokens, and a slot that waits is not behind
it. -/
theorem room_of_error {l : List Nat} (hl : Legal l) {p c i : Nat} {x y : Ctx} (hx : x.hold = none)
    (h : runSlots l p (List.range 14) x = .error (c, i, y)) (hs : y.stall = false) :
    ∀ n < y.hold.getD i, x.takes l n = true → tokens n x.k0.pend < 16 := by
  obtain ⟨pre, post, z, hsplit, hpre, hi⟩ := runSlots_error h
  have hnodup : (pre ++ i :: post).Nodup := hsplit ▸ List.nodup_range
  have hmem : ∀ j ∈ pre ++ i :: post, j < 14 := fun j hj => List.mem_range.mp (hsplit ▸ hj)
  have hsorted : (pre ++ i :: post).Pairwise (· < ·) := hsplit ▸ List.pairwise_lt_range
  have hlt : ∀ j, j ∈ pre ↔ j < i := fun j => by
    refine ⟨fun hj => (List.pairwise_append.mp hsorted).2.2 j hj i List.mem_cons_self, fun hj => ?_⟩
    have hi14 : i < 14 := hmem i (by simp)
    have hj14 : j ∈ pre ++ i :: post := hsplit ▸ List.mem_range.mpr (by omega)
    obtain hj14 | hj14 := List.mem_append.mp hj14
    · exact hj14
    · obtain rfl | hpost := List.mem_cons.mp hj14
      · omega
      · have := List.rel_of_pairwise_cons (List.pairwise_append.mp hsorted).2.1 hpost
        omega
  have hran : Ran l pre x z :=
    ran_of_runSlots hl (fun j hj => hmem j (List.mem_append_left _ hj)) (List.nodup_append.mp hnodup).1 hpre
  have hf := follows_runSlot hl p (hmem i (by simp)) { z with slot := i }
  rw [hi] at hf
  obtain - | hf := hf
  have hz : z.stall = false := by
    by_contra hz
    rw [hf.stall (by simpa using hz)] at hs
    cases hs
  have hle : y.hold.getD i ≤ i := by
    cases hy : y.hold with
    | none => exact le_refl i
    | some j =>
      obtain hj | rfl := hf.hold j hy
      · obtain hj | hj := hran.hold j hj
        · simp [hx] at hj
        · exact ((hlt j).mp hj).le
      · exact le_refl _
  intro n hn
  exact hran.room hz n ((hlt n).mpr (by omega))

/-! ### Issue -/

/-- The operations that a bundle adds leave the core within its tokens. -/
theorem Ran.tokensBalance {l is : List Nat} {x y : Ctx} {k : Core} (hr : Ran l is x y) (hx : x.fresh = [])
    (hroom : ∀ n ∈ is, x.takes l n = true → Machine.tokens n x.k0.pend < 16) (hk : k.pend = x.k0.pend ++ y.fresh)
    (hb : x.k0.tokensBalance = true) : k.tokensBalance = true := by
  have hle : ∀ n, n ≠ 13 → Machine.tokens n x.k0.pend ≤ 16 → Machine.tokens n k.pend ≤ 16 := fun n hn h16 => by
    have h := hr.tokens n hn
    rw [hx, show Machine.tokens n [] = 0 from rfl] at h
    rw [hk, tokens_append]
    by_cases ht : n ∈ is ∧ x.takes l n = true
    · have := hroom n ht.1 ht.2
      rw [if_pos ht] at h
      omega
    · rw [if_neg ht] at h
      omega
  rw [tokensBalance_iff] at hb ⊢
  exact ⟨hle 6 (by decide) hb.1, hle 7 (by decide) hb.2⟩

theorem keeps_commitBundle {l is : List Nat} {p : Nat} {x y : Ctx} (hr : Ran l is x y) (hx : x.fresh = [])
    (hs : y.stall = false) (hb : s₀.withinDepths = true → x.k0.tokensBalance = true) (h : Keeps s₀ x.s) :
    Keeps s₀ (commitBundle p y) := by
  unfold commitBundle
  extract_lets _ _ k1 k2 k3 s1
  have hp : k3.pend = x.k0.pend ++ y.fresh := by
    have h1 : k1.pend = x.k0.pend ++ y.fresh := by rw [← hr.before]
    have h2 : k2.pend = k1.pend := by unfold k2; split <;> rfl
    have h3 : k3.pend = k2.pend := by unfold k3; split <;> rfl
    rw [h3, h2, h1]
  have h1 : Keeps s₀ s1 := keeps_setCore (h.trans hr.keeps) fun h₀ => hr.tokensBalance hx (hr.room hs) hp (hb h₀)
  refine keeps_settle ?_
  split
  · exact keeps_takeError h1
  · exact h1

theorem keeps_startPart {l : List Nat} {p j : Nat} {x : Ctx} (hl : Legal l) (hx : x.fresh = [])
    (hroom : ∀ n < j, x.takes l n = true → tokens n x.k0.pend < 16) (hb : s₀.withinDepths = true → x.k0.tokensBalance = true)
    (h : Keeps s₀ x.s) : Keeps s₀ (startPart l p j x) := by
  unfold startPart
  split
  · next y hy =>
    have hr : Ran l _ x y := ran_of_runSlots hl
      (fun i hi => (by decide : ∀ i ∈ ([5, 6, 7] : List Nat), i < 14) i (List.mem_filter.mp hi).1)
      (List.Nodup.filter _ (by decide)) hy
    have hroom' : ∀ n ∈ ([5, 6, 7] : List Nat).filter (fun i => decide (i < j)), x.takes l n = true → tokens n x.k0.pend < 16 :=
      fun n hn => hroom n (of_decide_eq_true (List.mem_filter.mp hn).2)
    refine keeps_settle ?_
    split
    · exact keeps_takeError (keeps_setCore (h.trans hr.keeps) fun h₀ => hr.tokensBalance hx hroom' rfl (hb h₀))
    · exact keeps_setCore (h.trans hr.keeps) fun h₀ => hr.tokensBalance hx hroom' rfl (hb h₀)
  · exact h

theorem eq_none_of_lower {a b c d : Option Nat} (h : (((lower a b).or c).or d) = none) : a = none := by
  cases a <;> cases b <;> simp_all [lower]

theorem legal_of_illegalSlot {l : List Nat} (h : illegalSlot l = none) : Legal l := fun i hi => by
  have := List.find?_eq_none.mp (eq_none_of_lower h) i (List.mem_range.mpr hi)
  simpa using this

theorem keeps_issue {c l} (h : Keeps s₀ s) : Keeps s₀ (issue c l s) := by
  unfold issue
  refine keeps_ite h (keeps_ite (keeps_coreException h) ?_)
  split
  · exact keeps_coreException h
  · next hlegal =>
    have hl := legal_of_illegalSlot hlegal
    have hb : s₀.withinDepths = true → (startCtx c l s).k0.tokensBalance = true := fun h₀ =>
      tokensBalance_of_pend rfl (h.tokensBalance c h₀)
    refine keeps_ite h ?_
    dsimp only
    split
    · next y hy =>
      have hr : Ran l (List.range 14) _ y := ran_of_runSlots hl (fun i => List.mem_range.mp) List.nodup_range hy
      split
      · exact h
      · next hs =>
        have hs : y.stall = false := by simpa using hs
        split
        · next j hj =>
          refine keeps_startPart hl rfl (fun n hn => ?_) hb h
          obtain hx | hx := hr.hold j hj
          · cases hx
          · exact hr.room hs n (List.mem_range.mpr (hn.trans (List.mem_range.mp hx)))
        · exact keeps_commitBundle hr rfl hs hb h
    · next cause i y hy =>
      split
      · exact h
      · next hs =>
        exact keeps_ite (keeps_startPart hl rfl (room_of_error hl rfl hy (by simpa using hs)) hb h) (keeps_coreException h)

theorem keeps_bundleIssue {c} (h : Keeps s₀ s) : Keeps s₀ (bundleIssue c s) := by
  unfold bundleIssue
  exact keeps_issue (keeps_fetch h)

theorem keeps_issueOne {c slot cls op w imm} (h : Keeps s₀ s) : Keeps s₀ (issueOne c slot cls op w imm s) := by
  unfold issueOne
  exact keeps_issue h

theorem keeps_issueScoped {c op scope w imm} (h : Keeps s₀ s) : Keeps s₀ (issueScoped c op scope w imm s) := by
  unfold issueScoped
  exact keeps_issue h

theorem keeps_issueDma {c slot cls kind w imm} (h : Keeps s₀ s) : Keeps s₀ (issueDma c slot cls kind w imm s) := by
  unfold issueDma
  split
  · exact keeps_ite h (keeps_issueOne h)
  · exact keeps_issueOne h

end

end Sys2Proof.Machine
end

