-- ==== Sys2Proof/Proofs/Queues.lean ====
section
/-! PROOF. Proofs/Queues.lean: every command ends in a next state that keeps the queues, and so does a tick. -/
namespace Sys2Proof.Machine
open Sys2Proof

section
variable {s t : State}

/-! ### Every command -/

/-- A command ends in a next state that keeps the queues of s. -/
def Ends (s : State) (o : Host.Outcome State Fault Refusal) : Prop := ∃ t, o = .next t ∧ Keeps s t

theorem ends_next (h : Keeps s t) : Ends s (.next t) := ⟨t, rfl, h⟩

theorem ends_inService {f : State → State} (hf : ∀ x, Keeps s x → Keeps s (f x)) : Ends s (.next (inService s f)) :=
  ends_next (keeps_inService hf (.refl s))

theorem ends_exec (i : Instr) (s : State) : Ends s (exec i s) := by
  cases i with
  | read => exact ends_inService fun _ => keeps_spi fun _ => keeps_spiRead
  | write => exact ends_inService fun _ => keeps_spi fun _ => keeps_spiWrite
  | stream => exact ends_inService fun _ => keeps_spi fun _ => keeps_spiStream
  | unknownCommand => exact ends_inService fun _ => keeps_spi fun _ => keeps_spiUnknown
  | i2cWriteTransfer => exact ends_inService fun _ => keeps_i2c fun _ => keeps_i2cWrite
  | i2cReadTransfer => exact ends_inService fun _ => keeps_i2c fun _ => keeps_i2cRead
  | i2cStreamRead => exact ends_inService fun _ => keeps_i2c fun _ => keeps_i2cStreamPiece
  | registerWrite => exact ends_inService fun _ => keeps_applied fun _ => keeps_writeReg
  | sysSoftReset => exact ends_inService fun _ => keeps_applied fun _ => keeps_softReset
  | sysAlarm => exact ends_inService fun _ => keeps_applied fun _ => keeps_clearAlarm
  | sysLogCtrl => exact ends_inService fun _ => keeps_applied fun _ => keeps_selectLog
  | obxPop => exact ends_inService fun _ => keeps_applied fun _ => keeps_writePop
  | obxIrq => exact ends_inService fun _ => keeps_applied fun _ => keeps_writeIrq
  | obxIrqStatus => exact ends_inService fun _ => keeps_applied fun _ => keeps_clearIrq
  | mbxStatus => exact ends_inService fun _ => keeps_applied fun _ => keeps_clearDropped
  | chgInhibit | clkCap => exact ends_inService fun _ => keeps_applied fun _ => keeps_writeTideCtrl
  | capMismatch => exact ends_inService fun _ => keeps_applied fun _ => keeps_clearMismatch
  | gpioOut => exact ends_inService fun _ => keeps_applied fun _ => keeps_writeGpioOut
  | gpioOe => exact ends_inService fun _ => keeps_applied fun _ => keeps_writeGpioOe
  | gpioPin => exact ends_inService fun _ => keeps_applied fun _ => keeps_writePin
  | gpioPilsel => exact ends_inService fun _ => keeps_applied fun _ => keeps_writePilsel
  | gpioPilcfg => exact ends_inService fun _ => keeps_applied fun _ => keeps_writePilcfg
  | gpioPilStatus => exact ends_inService fun _ => keeps_applied fun _ => keeps_clearPilEvents
  | gpioAlarmStatus => exact ends_inService fun _ => keeps_applied fun _ => keeps_clearAlarmLines
  | adcIepe => exact ends_inService fun _ => keeps_applied fun _ => keeps_writeIepe
  | forceAwake => exact ends_inService fun _ => keeps_applied fun _ => keeps_writeForceAwake
  | otpLockRd => exact ends_inService fun _ => keeps_applied fun _ => keeps_writeLockRd
  | otpLockWr => exact ends_inService fun _ => keeps_applied fun _ => keeps_writeLockWr
  | otpReadAddr => exact ends_inService fun _ => keeps_applied fun _ => keeps_otpReadAddr
  | learn => exact ends_inService fun _ => keeps_applied fun _ => keeps_writeLearn
  | pixSentCfg => exact ends_inService fun _ => keeps_applied fun _ => keeps_writeSentCfg
  | otpWordProgrammed => exact ends_inService fun _ => keeps_otpWordProgrammed
  | fatal => exact ends_inService fun _ => keeps_fatalError
  | thermalResetEnd => exact ends_next (keeps_thermalEnd (.refl s))
  | resetRelease => exact ends_next (keeps_resetRelease (.refl s))
  | flashProbe => exact ends_inService fun _ => keeps_flashProbe
  | manifestCheck => exact ends_inService fun _ => keeps_manifestFirst
  | manifestReread => exact ends_inService fun _ => keeps_manifestSecond
  | recordCopy => exact ends_inService fun _ => keeps_recordCopy
  | recordRecopy => exact ends_inService fun _ => keeps_recordRecopy
  | harbourBankPowerUp => exact ends_inService fun _ => keeps_bankPowerUp
  | reservoirSample => exact ends_inService fun _ => keeps_reservoirSample
  | vbatSample => exact ends_inService fun _ => keeps_vbatSample
  | tempSample => exact ends_inService fun _ => keeps_tempSample
  | admissionRequest => exact ends_inService fun _ => keeps_admissionRequest
  | meterCharge => exact ends_inService fun _ => keeps_meterCharge
  | admitTimeout => exact ends_inService fun _ => keeps_admitTimeout
  | inputAcquire => exact ends_inService fun _ => keeps_inputAcquire
  | groupRelease => exact ends_inService fun _ => keeps_groupRelease
  | scrub => exact ends_inService fun _ => keeps_scrub
  | exposureEnd => exact ends_inService fun _ => keeps_exposureEnd
  | pixelRow => exact ends_inService fun _ => keeps_pixelRow
  | sentinelFrame => exact ends_inService fun _ => keeps_sentinelFrame
  | adcBandgapCheck => exact ends_inService fun _ => keeps_bandgapCheck
  | adcBlockComplete => exact ends_inService fun _ => keeps_blockComplete
  | calMeasurementDone => exact ends_inService fun _ => keeps_calMeasured
  | partialResetRelease => exact ends_inService fun _ => keeps_partialResetRelease
  | drainTimeout => exact ends_inService fun _ => keeps_drainTimeout
  | bundleIssue => exact ends_inService fun _ => keeps_bundleIssue
  | br | brs | loop | halt | add | sub | mul | mulh | mulhu | and | or | xor | shl | shr | sra | min | max | minu | maxu | mov |
  cmpeq | cmpne | cmplt | cmple | cmpltu | cmpleu | pand | pxor | pnot | mfa | rdfl | lcrd | aadd | amadd | amov | amovs | ld |
  st | ldtag | sttag | mm | conv | aclr | vadd | vsub | vmul | vmla | vmin | vmax | vabs | vneg | vand | vor | vxor | vshl |
  vshr | vsra | vaddsat | vcmpeq | vcmplt | vcmple | vcvtif | vcvtfi | vperm | vbcast | vred | vmovs | vld | vst | rqa | rqv |
  pool | gpool | crop | ldw | stw | atadd | atmin | atmax | atswap | atcas | evwait | head | ckpt | epub | ewait | porSyllable =>
    exact ends_inService fun _ => keeps_issueOne
  | copyIn | copyOut | streamFetch | imem => exact ends_inService fun _ => keeps_issueDma
  | dmaComplete => exact ends_inService fun _ => keeps_dmaComplete
  | fenceCore | fenceChip | fenceSys | acqChip | acqSys => exact ends_inService fun _ => keeps_issueScoped
  | waitTimeout => exact ends_inService fun _ => keeps_waitTimeout
  | uncorrectableError => exact ends_inService fun _ => keeps_uncorrectableError
  | pinInterruptEvent => exact ends_inService fun _ => keeps_pinSample
  | cwWake => exact ends_inService fun _ => keeps_cwWake
  | linkTrained => exact ends_inService fun _ => keeps_linkTrained
  | trainingTimeout => exact ends_inService fun _ => keeps_trainingTimeout
  | trainingRetry => exact ends_inService fun _ => keeps_trainingRetry
  | ts1 => exact ends_inService fun _ => keeps_ts1Received
  | ts2 => exact ends_inService fun _ => keeps_ts2Received
  | ackControlWord => exact ends_inService fun _ => keeps_ackReceived
  | nak | retransmitTimeout => exact ends_inService fun _ => keeps_retransmit
  | credit => exact ends_inService fun _ => keeps_creditReceived
  | sleepReq => exact ends_inService fun _ => keeps_sleepReq
  | sleepAck => exact ends_inService fun _ => keeps_sleepAck
  | sleepNak => exact ends_inService fun _ => keeps_beginPort
  | sleepIdle => exact ends_inService fun _ => keeps_sleepIdle
  | ackDeadline => exact ends_inService fun _ => keeps_ackDeadline
  | laneLockLoss => exact ends_inService fun _ => keeps_laneLockLoss
  | transitTimeout => exact ends_inService fun _ => keeps_transitTimeout
  | flushTimeout => exact ends_inService fun _ => keeps_flushTimeout
  | wr => exact ends_inService fun _ => keeps_receive fun _ _ => keeps_wrPacket
  | wrw => exact ends_inService fun _ => keeps_receive fun _ _ => keeps_wrwPacket
  | rd => exact ends_inService fun _ => keeps_receive fun _ _ => keeps_rdPacket
  | rdw => exact ends_inService fun _ => keeps_receive fun _ _ => keeps_rdwPacket
  | marker => exact ends_inService fun _ => keeps_receive fun _ _ => keeps_markerPacket
  | flush => exact ends_inService fun _ => keeps_receive fun _ _ => keeps_flushPacket
  | ack => exact ends_inService fun _ => keeps_receive fun _ _ => keeps_ackPacket
  | rdData => exact ends_inService fun _ => keeps_receive fun _ _ => keeps_rdDataPacket
  | rdwData => exact ends_inService fun _ => keeps_receive fun _ _ => keeps_rdwDataPacket
  | flushDone => exact ends_inService fun _ => keeps_receive fun _ _ => keeps_flushDonePacket
  | msg => exact ends_inService fun _ => keeps_receive fun _ _ => keeps_msgPacket
  | notice => exact ends_inService fun _ => keeps_receive fun _ _ => keeps_noticePacket
  | chain => exact ends_inService fun _ => keeps_receive fun _ _ => keeps_chainPacket
  | strandUnitWritten => exact ends_inService fun _ => keeps_strandUnitWritten
  | quayRead => exact ends_inService fun _ => keeps_dapOp fun _ => keeps_dapQuayRead
  | quayWrite => exact ends_inService fun _ => keeps_dapOp fun _ => keeps_dapQuayWrite
  | memRead => exact ends_inService fun _ => keeps_dapOp fun _ => keeps_dapMemRead
  | memWrite => exact ends_inService fun _ => keeps_dapOp fun _ => keeps_dapMemWrite
  | otpArg => exact ends_inService fun _ => keeps_dapOp fun _ => keeps_dapArg
  | otpExec => exact ends_inService fun _ => keeps_dapOp fun _ => keeps_dapExec
  | dapReservedOp => exact ends_inService fun _ => keeps_dapReserved
  | bypass | extest | idcode | samplePreload => exact ends_next (keeps_selectCode (.refl s))
  | lanePllLocked => exact ends_inService fun _ => keeps_lanePllLocked
  | receiverAligned => exact ends_inService fun _ => keeps_receiverAligned
  | ts1Send => exact ends_inService fun _ => keeps_ts1Send
  | crcError => exact ends_inService fun _ => keeps_crcError
  | codeError => exact ends_inService fun _ => keeps_codeError
  | harbourWordAccessDone => exact ends_inService fun _ => keeps_wordDone
  | hostIrqPulseEnd => exact ends_inService fun _ => keeps_irqPulseEnd
  | nop => exact ends_inService fun _ => keeps_mbxExec fun _ _ => keeps_mbxNop
  | triggerWatch =>
    exact ends_inService fun _ => keeps_mbxExec fun _ _ => keeps_watchCommand fun _ _ => keeps_mbxTrigger
  | arm => exact ends_inService fun _ => keeps_mbxExec fun _ _ => keeps_watchCommand fun _ _ => keeps_mbxArm
  | disarm => exact ends_inService fun _ => keeps_mbxExec fun _ _ => keeps_watchCommand fun _ _ => keeps_mbxDisarm
  | calZero => exact ends_inService fun _ => keeps_mbxExec fun _ _ => keeps_calCommand fun _ _ => keeps_calZero
  | calFull => exact ends_inService fun _ => keeps_mbxExec fun _ _ => keeps_calCommand fun _ _ => keeps_calFull
  | calCommit => exact ends_inService fun _ => keeps_mbxExec fun _ _ => keeps_calCommand fun _ _ => keeps_calCommit
  | readCal => exact ends_inService fun _ => keeps_mbxExec fun _ _ => keeps_mbxReadCal
  | label => exact ends_inService fun _ => keeps_mbxExec fun _ _ => keeps_labelCommand fun _ _ _ _ => keeps_opLabel
  | revert =>
    exact ends_inService fun _ h => keeps_ite h (keeps_mbxExec (fun _ _ => keeps_labelCommand fun _ _ _ _ => keeps_opRevert) h)
  | restartBaseline =>
    exact ends_inService fun _ => keeps_mbxExec fun _ _ => keeps_labelCommand fun _ _ _ _ => keeps_opRestart
  | otpProgram => exact ends_inService fun _ => keeps_otpCommand fun _ _ => keeps_otpProgram
  | lifecycleAdvance => exact ends_inService fun _ => keeps_otpCommand fun _ _ => keeps_lifecycleAdvance
  | stats => exact ends_inService fun _ => keeps_mbxExec fun _ _ => keeps_watchCommand fun _ _ => keeps_mbxStats
  | shutdown => exact ends_inService fun _ => keeps_mbxExec fun _ _ => keeps_mbxShutdown
  | shutdownComplete => exact ends_inService fun _ => keeps_shutdownComplete
  | faultBlink => exact ends_next (keeps_faultBlink (.refl s))
  | por | brownoutVbat | resetPin | thermalTrip => exact ends_next (keeps_assertReset (.refl s))
  | brownoutVsys => exact ends_inService fun _ h => keeps_ite (keeps_assertReset h) h
  | soft => exact ends_inService fun _ => keeps_softTaken
  | watchdog => exact ends_inService fun _ h => keeps_ite (keeps_assertReset h) h
  | thermalReq => exact ends_inService fun _ h => keeps_ite (keeps_assertReset h) h
  | railWaitEnd => exact ends_inService fun _ => keeps_railWaitEnd
  | bootRelease => exact ends_inService fun _ => keeps_dapOp fun _ => keeps_dapBootRelease
  | firmwareStart => exact ends_inService fun _ => keeps_firmwareStart
  | lfCrystalSwitch => exact ends_next (keeps_lfSwitch (.refl s))
  | lfCrystalTimeout => exact ends_next (keeps_lfTimeout (.refl s))
  | lfFallback => exact ends_next (keeps_lfFall (.refl s))
  | neapEntry => exact ends_inService fun _ => keeps_neapEntry
  | chgStall => exact ends_inService fun _ => keeps_chgStallEvent
  | coreRelease => exact ends_inService fun _ => keeps_coreRelease
  | vcoreFail => exact ends_inService fun _ => keeps_vcoreFail
  | reservoirGuardTrip => exact ends_inService fun _ => keeps_guardTrip
  | checkpointComplete => exact ends_inService fun _ => keeps_checkpointComplete
  | reservoirCollapse => exact ends_inService fun _ => keeps_reservoirCollapse
  | computeEnd => exact ends_inService fun _ => keeps_computeEnd
  | doneRearm => exact ends_inService fun _ => keeps_doneRearm
  | tickTrigger => exact ends_inService fun _ => keeps_tickTrigger
  | xrefReady => exact ends_inService fun _ => keeps_xrefReady
  | xrefTimeout => exact ends_inService fun _ => keeps_xrefTimeout
  | vpixReady => exact ends_inService fun _ => keeps_vpixReadyEvent
  | vpixWaitTimeout => exact ends_inService fun _ => keeps_vpixWaitTimeout
  | vpixLow => exact ends_inService fun _ => keeps_vpixLow
  | exposureStart => exact ends_inService fun _ => keeps_exposureStart
  | fsyncEdge => exact ends_inService fun _ => keeps_fsyncEdge
  | fsyncWaitExpiry => exact ends_inService fun _ => keeps_fsyncExpiry
  | frameComplete => exact ends_inService fun _ => keeps_frameComplete
  | adcSequencerStart => exact ends_inService fun _ => keeps_sequencerStart
  | adcOverrun => exact ends_inService fun _ => keeps_adcOverrun
  | spectralFront => exact ends_inService fun _ => keeps_spectralFront
  | headRequest => exact ends_inService fun _ => keeps_headRequest
  | groupDecision => exact ends_inService fun _ => keeps_groupDecision
  | roiExport => exact ends_inService fun _ => keeps_roiExport
  | adaptationStep => exact ends_inService fun _ => keeps_adaptationStep
  | stemBufferError => exact ends_inService fun _ => keeps_stemBufferError
  | strandCommit => exact ends_inService fun _ => keeps_strandCommit
  | strandConditionTimeout => exact ends_inService fun _ => keeps_strandTimeout
  | eventLogEntry => exact ends_inService fun _ => keeps_startLogUnit
  | heldRecordPlace => exact ends_inService fun _ => keeps_heldRecordPlace
  | backlogRefill => exact ends_inService fun _ => keeps_backlogRefill
  | dapNop => exact ends_inService fun _ => keeps_dapNop
  | dapSlackExpiry => exact ends_inService fun _ => keeps_slackExpiry
  | strobeLeadStart => exact ends_inService fun _ => keeps_strobeLead
  | corePllLocked => exact ends_inService fun _ => keeps_pllLock

end

/-- Settles O58: a command keeps the queues of the state without it, and a tick keeps those of the state. -/
theorem stepKeepsTheQueuesWithinTheirDepths : Obligations.StepKeepsTheQueuesWithinTheirDepths := by
  intro s t hs ht
  unfold step at ht
  split at ht
  · next i rest hp =>
    obtain ⟨u, hu, hk⟩ := ends_exec i { s with pending := rest }
    rw [hu] at ht
    cases ht
    exact hk.depths hs
  · cases ht
    exact (keeps_tick (.refl s)).depths hs

end Sys2Proof.Machine
end

