-- ==== Sys2Proof/Proofs/Ticks.lean ====
section
/-! PROOF. Proofs/Ticks.lean: a tick counts in the tick counter and, with a thermal cap in force, in TIDE_THROTTLE_TICKS (R12,
R126); whatever else it does leaves both. -/
namespace Sys2Proof.Machine
open Sys2Proof

/-! ### The tick counter and the throttle -/

/-- The tick counter, the thermal cap in force and the count of throttled ticks (R12, R126). -/
def State.throttle (s : State) : Nat × Nat × Nat := (s.sys.tick, s.tide.thermalCap, s.tide.throttleTicks)

section
variable {s t : State} {u : Nat × Nat × Nat}

theorem throttle_ite {b : Prop} [Decidable b] (hs : s.throttle = u) (ht : t.throttle = u) :
    (if b then s else t).throttle = u := by
  split <;> assumption

theorem throttle_foldl {α : Type} {l : List α} {f : State → α → State} (hf : ∀ x a, x.throttle = u → (f x a).throttle = u)
    (h : s.throttle = u) : (l.foldl f s).throttle = u :=
  List.foldlRecOn (motive := fun x : State => x.throttle = u) l f h fun x hx a _ => hf x a hx

theorem throttle_logEntry {e} (h : s.throttle = u) : (logEntry e s).throttle = u :=
  throttle_ite h (throttle_ite h h)

/-! ### Records and waking -/

theorem throttle_takeSeq {w} (h : s.throttle = u) : (takeSeq w s).2.throttle = u := by
  cases w <;> exact h

theorem throttle_numberRecord {d b} (h : s.throttle = u) : (numberRecord d b s).2.throttle = u := throttle_takeSeq h

theorem throttle_placeRecord {d} (ht : placeRecord d s = some t) (h : s.throttle = u) : t.throttle = u := by
  unfold placeRecord at ht
  split at ht
  · cases ht
    exact throttle_numberRecord (d := d) (b := false) h
  · have hn : (numberRecord d true s).2.throttle = u := throttle_numberRecord h
    split at ht
    · cases ht
      exact hn
    · split at ht
      · cases ht
      · cases ht
        exact throttle_ite hn (throttle_logEntry hn)

theorem throttle_release {d} (h : s.throttle = u) : (release d s).throttle = u := by
  unfold release
  split
  · split
    · next ht => exact throttle_placeRecord ht h
    · exact h
  · exact h

theorem throttle_refill {n} (h : s.throttle = u) : (refill n s).throttle = u := by
  induction n generalizing s with
  | zero => exact h
  | succ n ih =>
    refine ih ?_
    unfold refillOne
    split
    · exact h
    · exact throttle_ite h h

theorem throttle_wake (h : s.throttle = u) : (wake s).throttle = u := throttle_ite (throttle_refill h) h

/-! ### What a tick does -/

theorem throttle_mbxComplete {code data} (h : s.throttle = u) : (mbxComplete code data s).throttle = u := by
  unfold mbxComplete
  split <;> exact h

theorem throttle_mbxReserved (h : s.throttle = u) : (mbxReserved s).throttle = u := by
  unfold mbxReserved mbxExec
  split
  · have hb {c rest} : (beginMbx c rest s).throttle = u := throttle_wake h
    exact throttle_ite (throttle_ite (throttle_mbxComplete hb) (throttle_mbxComplete hb)) h
  · exact h

theorem throttle_otpEnd {code word mailbox} (h : s.throttle = u) : (otpEnd code word mailbox s).throttle = u :=
  throttle_ite (throttle_mbxComplete h) h

theorem throttle_otpNext {r} (h : s.throttle = u) : (otpNext r s).throttle = u := by
  unfold otpNext
  split
  · refine throttle_otpEnd ?_
    split
    · exact throttle_ite h h
    · exact h
  · exact throttle_ite h (throttle_otpEnd h)

theorem throttle_lifecycleAdvance {args mailbox} (h : s.throttle = u) : (lifecycleAdvance args mailbox s).throttle = u :=
  have he {code} : (otpEnd code 0 mailbox s).throttle = u := throttle_otpEnd h
  throttle_ite he (throttle_ite he (throttle_ite he (throttle_ite he (throttle_ite he (throttle_ite he (throttle_otpNext h))))))

theorem throttle_programRollback {target mailbox} (h : s.throttle = u) : (programRollback target mailbox s).throttle = u :=
  throttle_ite (throttle_otpEnd h) (throttle_ite (throttle_otpEnd h) (throttle_otpNext h))

theorem throttle_otpProgram {args mailbox} (h : s.throttle = u) : (otpProgram args mailbox s).throttle = u := by
  have he {code word} : (otpEnd code word mailbox s).throttle = u := throttle_otpEnd h
  unfold otpProgram
  refine throttle_ite he (throttle_ite he (throttle_ite he (throttle_ite he (throttle_ite (throttle_programRollback h) ?_))))
  split
  · exact he
  · exact throttle_ite he (throttle_otpNext h)

theorem throttle_dapStartOtp (h : s.throttle = u) : (dapStartOtp s).throttle = u := by
  unfold dapStartOtp
  split
  · have hw := throttle_wake h
    exact throttle_ite (throttle_ite (throttle_ite (throttle_otpProgram hw) (throttle_lifecycleAdvance hw)) hw) h
  · exact h

theorem throttle_stallTick (h : s.throttle = u) : (stallTick s).throttle = u := by
  unfold stallTick
  split
  · exact throttle_ite h h
  · exact h

theorem throttle_keepVpix {before} (h : s.throttle = u) : (keepVpix before s).throttle = u := throttle_ite h h

theorem throttle_dropInputs {n} (h : s.throttle = u) : (dropInputs n s).throttle = u := by
  unfold dropInputs
  extract_lets _ _ s1
  have h1 : s1.throttle = u := by
    unfold s1
    split
    · exact throttle_ite (throttle_keepVpix h) h
    · exact h
  split
  · exact throttle_ite h1 h1
  · exact h1

theorem throttle_abandon {n cause st} (h : s.throttle = u) : (abandon n cause st s).throttle = u := by
  unfold abandon
  split
  · exact h
  · exact throttle_dropInputs (throttle_release h)

theorem throttle_serveTrigger {n due order gpio} (h : s.throttle = u) : (serveTrigger n due order gpio s).throttle = u := by
  unfold serveTrigger
  split
  · exact throttle_ite h h
  · exact h

theorem throttle_startPending {n} (h : s.throttle = u) : (startPending n s).throttle = u := by
  unfold startPending
  split
  · exact throttle_ite (throttle_serveTrigger (throttle_wake h)) h
  · exact h

theorem throttle_admitTimeout {n} (h : s.throttle = u) : (admitTimeout n s).throttle = u := by
  unfold admitTimeout
  split
  · exact throttle_ite (throttle_startPending (throttle_keepVpix (throttle_abandon h))) h
  · exact h

theorem throttle_countWaits (h : s.throttle = u) : (countWaits s).throttle = u :=
  throttle_foldl (fun _ _ => throttle_admitTimeout) (throttle_foldl (fun _ _ hx => hx) h)

theorem throttle_standAlarm {source b holds} (h : s.throttle = u) : (standAlarm source b holds s).throttle = u :=
  throttle_ite (throttle_logEntry h) h

theorem throttle_pulseTick (h : s.throttle = u) : (pulseTick s).throttle = u := by
  unfold pulseTick
  split
  · exact throttle_ite h h
  · exact h

theorem throttle_slackTick (h : s.throttle = u) : (slackTick s).throttle = u := throttle_ite h h

theorem throttle_countWatchdog (h : s.throttle = u) : (countWatchdog s).throttle = u := throttle_ite h h

theorem throttle_countUpsets (h : s.throttle = u) : (countUpsets s).throttle = u := h

theorem throttle_standingAlarms (h : s.throttle = u) : (standingAlarms s).throttle = u :=
  throttle_standAlarm (throttle_standAlarm (throttle_standAlarm (throttle_standAlarm h)))

theorem throttle_registerIrq (h : s.throttle = u) : (registerIrq s).throttle = u := h

/-- The values after a tick with the cap in force counted (R126). -/
def throttled (u : Nat × Nat × Nat) : Nat × Nat × Nat := (u.1, u.2.1, if u.2.1 < 3 then min 0xFFFFFFFF (u.2.2 + 1) else u.2.2)

theorem throttle_countThrottle (h : s.throttle = u) : (countThrottle s).throttle = throttled u := by
  subst h
  unfold countThrottle
  split
  · next h3 => simp [throttled, State.throttle, h3, satAdd]
  · next h3 => simp [throttled, State.throttle, h3]

/-- Of what a tick does, the count of throttled ticks alone touches them. -/
theorem throttle_tickActs (h : s.throttle = u) : (tickActs s).throttle = throttled u :=
  throttle_registerIrq (throttle_pulseTick (throttle_standingAlarms (throttle_countWaits (throttle_countThrottle
    (throttle_stallTick (throttle_countWatchdog (throttle_countUpsets (throttle_dapStartOtp (throttle_mbxReserved
    (throttle_slackTick h))))))))))
end

/-! ### The tick -/

theorem throttle_tick {s : State} (h : s.live) : (tick s).throttle = ((s.sys.tick + 1) % 2 ^ 48, s.tide.thermalCap,
    if s.tide.thermalCap < 3 then min 0xFFFFFFFF (s.tide.throttleTicks + 1) else s.tide.throttleTicks) := by
  unfold tick inService
  rw [if_neg (by simpa [countTick, State.live] using h)]
  exact throttle_tickActs (s := countTick s) rfl

theorem tick_of_inReset {s : State} (h : s.sys.inReset = true) : tick s = countTick s := if_pos h

theorem sys_tick_tick (s : State) : (tick s).sys.tick = (s.sys.tick + 1) % 2 ^ 48 := by
  cases h : s.sys.inReset with
  | true => rw [tick_of_inReset h]; rfl
  | false => exact congrArg Prod.fst (throttle_tick h)

/-- TIDE_STATUS.THROTTLE is bit 6 of the word (R723). -/
theorem throttle_of_tideStatus (s : State) : (s.quayWord 0x300).getLsbD 6 = decide (s.tide.thermalCap < 3) := by
  have hw : s.quayWord 0x300 = BitVec.ofNat 32 s.tideStatus := rfl
  have hp : s.tide.power.code < 4 := by cases s.tide.power <;> decide
  have hb : ∀ b : Bool, b2n b ≤ 1 := fun b => by cases b <;> decide
  rw [hw, BitVec.getLsbD_ofNat, Nat.testBit_eq_decide_div_mod_eq]
  have h1 := hb s.tide.capNominal
  have h2 := hb s.tide.capMismatch
  have h3 := hb s.tide.chgStall
  have h4 := hb s.tide.lfFallback
  have hbit : s.tideStatus / 2 ^ 6 % 2 = b2n (s.tide.thermalCap < 3) := by
    have := hb (s.tide.thermalCap < 3)
    unfold State.tideStatus
    omega
  rw [hbit]
  by_cases hc : s.tide.thermalCap < 3 <;> simp [hc, b2n]

/-- Settles O16: the tick counts and throttles once among acts that leave both, and each command ends in a next state. -/
theorem commandsAndTicksAnswerANextState : Obligations.CommandsAndTicksAnswerANextState := by
  refine ⟨fun s hs => ⟨tick s, ?_, ?_, sys_tick_tick s, tick_of_inReset, fun h => ?_, throttle_of_tideStatus s⟩, fun i s => ?_⟩
  · simp [step, hs]
  · exact (keeps_tick (.refl s)).pending.trans hs
  · exact congrArg (fun u => u.2.2) (throttle_tick h)
  · obtain ⟨t, ht, hk⟩ := ends_exec i s
    exact ⟨t, ht, hk.pending⟩

end Sys2Proof.Machine
end

