-- ==== Sys2Proof/Proofs/TableOrder.lean ====
section
/-! PROOF. Proofs/TableOrder.lean: the order of the watch table (R40, R45) under updates of the state, and under the operations of watches, jobs, power and cores. -/
namespace Sys2Proof.Machine
open Sys2Proof

section
variable {s t : State}

/-! ### Folds and branches -/

theorem tableOk_foldl {α : Type} {l : List α} {f : State → α → State} (hf : ∀ x a, x.tableOk → (f x a).tableOk)
    (h : s.tableOk) : (l.foldl f s).tableOk := by
  induction l generalizing s with
  | nil => exact h
  | cons a l ih => exact ih (hf s a h)

theorem tableOk_ite {c : Prop} [Decidable c] (h : s.tableOk) (h' : t.tableOk) : (if c then s else t).tableOk := by
  split <;> assumption

/-! ### Updates of the state -/

theorem tableOk_of_nums (e : t.watches.map (·.entry.num) = s.watches.map (·.entry.num)) (h : s.tableOk) : t.tableOk :=
  List.pairwise_map.mp (e ▸ List.pairwise_map.mpr h)

/-- A change that leaves the watches. -/
theorem tableOk_of_watches (h : s.tableOk) (e : t.watches = s.watches) : t.tableOk := tableOk_of_nums (by rw [e]) h

/-- A record update that leaves the watches. -/
theorem tableOk_update {pending sys host c0 c1 c2 c3 tide otp image pix adc stem harbour sram watches built order src shut stop
  cw
    err gpio strand tap fresh free} (h : s.tableOk) (e : watches = s.watches) :
    (State.mk pending sys tide otp image pix adc stem c0 c1 c2 c3 harbour sram watches built order src shut stop cw err
      host gpio strand tap fresh free).tableOk :=
  tableOk_of_watches h e

theorem tableOk_setCore {c k} (h : s.tableOk) : (s.setCore c k).tableOk := tableOk_of_watches h (watches_setCore s c k)

theorem tableOk_modCore {c f} (h : s.tableOk) : (s.modCore c f).tableOk := tableOk_setCore h

theorem tableOk_modCores {cs f} (h : s.tableOk) : (s.modCores cs f).tableOk :=
  tableOk_foldl (fun _ _ => tableOk_modCore) h

theorem tableOk_modWatch {n f} (hf : ∀ w, (f w).entry = w.entry) (h : s.tableOk) : (s.modWatch n f).tableOk := by
  refine tableOk_of_nums ?_ h
  rw [watches_modWatch, List.map_map]
  refine List.map_congr_left fun w _ => ?_
  by_cases hn : w.entry.num = n <;> simp [hn, hf]

theorem tableOk_modJob {n f} (h : s.tableOk) : (s.modJob n f).tableOk := tableOk_modWatch (fun _ => rfl) h

theorem tableOk_freeBytes {n} (h : s.tableOk) : (s.freeBytes n).2.tableOk := tableOk_of_watches h rfl

theorem tableOk_inService {f : State → State} (hf : ∀ x, x.tableOk → (f x).tableOk) (h : s.tableOk) :
    (inService s f).tableOk := by
  unfold inService
  split
  · exact h
  · exact hf s h

/-! ### Records -/

theorem tableOk_logEntry {e} (h : s.tableOk) : (logEntry e s).tableOk := by
  unfold logEntry
  split
  · exact h
  · dsimp only
    split <;> exact h

theorem tableOk_raiseAlarmAt {source b} (h : s.tableOk) : (raiseAlarmAt source b s).tableOk := tableOk_logEntry h

theorem tableOk_raiseAlarm {b} (h : s.tableOk) : (raiseAlarm b s).tableOk := tableOk_raiseAlarmAt h

theorem tableOk_takeSeq {w} (h : s.tableOk) : (takeSeq w s).2.tableOk := by
  cases w with
  | none => exact h
  | some n => exact tableOk_modWatch (fun _ => rfl) h

theorem tableOk_countMerge {v a b} (h : s.tableOk) : (countMerge v a b s).tableOk := by
  unfold countMerge
  dsimp only
  split
  · exact h
  · exact tableOk_logEntry h

theorem tableOk_placeRecord {d t} (ht : placeRecord d s = some t) (h : s.tableOk) : t.tableOk := by
  unfold placeRecord at ht
  have hn : ∀ b, (numberRecord d b s).2.tableOk := fun b => tableOk_takeSeq h
  split at ht
  · cases ht
    exact hn false
  · split at ht
    · cases ht
      exact hn true
    · split at ht
      · cases ht
      · cases ht
        exact tableOk_countMerge (hn true)

theorem tableOk_release {d} (h : s.tableOk) : (release d s).tableOk := by
  unfold release
  split
  · split
    · next ht => exact tableOk_placeRecord ht h
    · exact h
  · exact h

theorem tableOk_releaseAll {ds} (h : s.tableOk) : (releaseAll ds s).tableOk := by
  induction ds generalizing s with
  | nil => exact h
  | cons d ds ih => exact ih (tableOk_release h)

theorem tableOk_placeHeld {n} (h : s.tableOk) : (placeHeld n s).tableOk := by
  induction n generalizing s with
  | zero => exact h
  | succ n ih =>
    unfold placeHeld
    split
    · exact h
    · split
      · next ht =>
        have h' := tableOk_placeRecord ht h
        exact ih h'
      · exact h

theorem tableOk_refillOne (h : s.tableOk) : (refillOne s).tableOk := by
  unfold refillOne
  split
  · exact h
  · exact tableOk_ite h h

theorem tableOk_refill {n} (h : s.tableOk) : (refill n s).tableOk := by
  induction n generalizing s with
  | zero => exact h
  | succ n ih => exact ih (tableOk_refillOne h)

/-! ### Resets (Machine/Reset.lean) -/

theorem tableOk_tearOtp (h : s.tableOk) : (tearOtp s).tableOk := by
  unfold tearOtp
  split <;> exact h

theorem tableOk_enterReset {por} : (enterReset por s).tableOk := List.Pairwise.nil

theorem tableOk_assertReset {src} (h : s.tableOk) : (assertReset src s).tableOk := by
  unfold assertReset
  refine tableOk_ite h ?_
  extract_lets bit old _ s1
  have h1 : s1.tableOk := h
  cases src
  case por | thermTrip => exact tableOk_enterReset
  case borVbat | borVsys | thermReq =>
    have ht := tableOk_tearOtp h1
    exact tableOk_ite ht (tableOk_enterReset)
  case pin | soft | wdt | fatal => exact tableOk_ite h1 (tableOk_enterReset)

theorem tableOk_takeDelayed (h : s.tableOk) : (takeDelayed s).tableOk := by
  unfold takeDelayed
  split
  · exact tableOk_ite h (tableOk_enterReset)
  · exact h

theorem tableOk_chipFatal {code source} (h : s.tableOk) : (chipFatal code source s).tableOk :=
  tableOk_ite h (tableOk_assertReset (tableOk_logEntry h))

theorem tableOk_booksFail (h : s.tableOk) : (booksFail s).tableOk := tableOk_chipFatal h

/-! ### Packets and ports (Machine/CwOps.lean) -/

theorem tableOk_setPort {p x} (h : s.tableOk) : (s.setPort p x).tableOk := by
  cases p <;> exact h

theorem tableOk_modPort {p f} (h : s.tableOk) : (s.modPort p f).tableOk := tableOk_setPort h

theorem tableOk_control {p i} (h : s.tableOk) : (control p i s).tableOk := tableOk_modPort h

theorem tableOk_beginPort {p} (h : s.tableOk) : (beginPort p s).tableOk := tableOk_modPort h

theorem tableOk_returnCredit {p v n} (h : s.tableOk) : (returnCredit p v n s).tableOk :=
  tableOk_ite (tableOk_control (tableOk_modPort h)) h

theorem tableOk_returnUnits {old new} (h : s.tableOk) : (returnUnits old new s).tableOk :=
  tableOk_foldl (fun _ _ h => tableOk_foldl (fun _ _ => tableOk_returnCredit) h) h

theorem tableOk_pumpPort {p} (h : s.tableOk) : (pumpPort p s).tableOk := tableOk_returnUnits (tableOk_setPort h)

theorem tableOk_forgiveUnits {p} (h : s.tableOk) : (forgiveUnits p s).tableOk := by
  unfold forgiveUnits
  exact tableOk_modPort (tableOk_modPort h)

theorem tableOk_needXref (h : s.tableOk) : (needXref s).tableOk := tableOk_ite h h

theorem tableOk_startTraining {p resume} (h : s.tableOk) : (startTraining p resume s).tableOk := tableOk_modPort h

theorem tableOk_startPorts (h : s.tableOk) : (startPorts s).tableOk :=
  tableOk_ite (tableOk_foldl (fun _ _ h => tableOk_ite (tableOk_startTraining h) (tableOk_ite (tableOk_startTraining h) h)) h) h

theorem tableOk_needPort {p} (h : s.tableOk) : (needPort p s).tableOk :=
  tableOk_ite (tableOk_startPorts (tableOk_needXref h)) h

theorem tableOk_enqueue {p owes k} (h : s.tableOk) : (enqueue p owes k s).tableOk :=
  tableOk_pumpPort (tableOk_needPort (tableOk_modPort h))

theorem tableOk_sendPacket {k} (h : s.tableOk) : (sendPacket k s).tableOk := tableOk_ite (tableOk_enqueue h) h

theorem tableOk_sendMessages {n} (h : s.tableOk) : (sendMessages n s).tableOk := by
  unfold sendMessages
  split
  · exact h
  · exact tableOk_foldl (fun _ _ h => tableOk_ite (tableOk_foldl (fun _ _ => tableOk_sendPacket) h) h) h

/-! ### Watches and jobs (Machine/Jobs.lean) -/

theorem tableOk_visit {a n} (h : s.tableOk) : (s.visit a n).tableOk := tableOk_ite h h

theorem tableOk_putHbr {a bs} (h : s.tableOk) : (s.putHbr a bs).tableOk := h

theorem tableOk_putHbrLines {l ls} (h : s.tableOk) : (s.putHbrLines l ls).tableOk := h

theorem tableOk_putHbrWhole {a bs} (h : s.tableOk) : (s.putHbrWhole a bs).tableOk := tableOk_putHbrLines h

theorem tableOk_wake (h : s.tableOk) : (wake s).tableOk := tableOk_ite (tableOk_refill h) h

theorem tableOk_startPartial {u} (h : s.tableOk) : (startPartial u s).tableOk := tableOk_ite h h

theorem tableOk_keepVpix {before} (h : s.tableOk) : (keepVpix before s).tableOk := tableOk_ite h h

theorem tableOk_startJob {n due order gpio} (h : s.tableOk) : (startJob n due order gpio s).tableOk :=
  tableOk_modWatch (fun _ => rfl) h

theorem tableOk_serveTrigger {n due order gpio} (h : s.tableOk) : (serveTrigger n due order gpio s).tableOk := by
  unfold serveTrigger
  split
  · exact tableOk_ite (tableOk_modWatch (fun _ => rfl) h) (tableOk_startJob h)
  · exact h

theorem tableOk_trigger {n due order gpio} (h : s.tableOk) : (trigger n due order gpio s).tableOk := by
  unfold trigger
  split
  · exact h
  · exact tableOk_ite h (tableOk_ite (tableOk_serveTrigger (tableOk_wake h)) (tableOk_ite (tableOk_modWatch (fun _ => rfl)
      (tableOk_wake h)) (tableOk_modWatch (fun _ => rfl) (tableOk_wake h))))

theorem tableOk_startPending {n} (h : s.tableOk) : (startPending n s).tableOk := by
  unfold startPending
  split
  · exact tableOk_ite (tableOk_serveTrigger (tableOk_wake (tableOk_modWatch (fun _ => rfl) h))) h
  · exact h

theorem tableOk_tryHeld {n} (h : s.tableOk) : (tryHeld n s).tableOk := by
  unfold tryHeld
  split
  · split
    · exact tableOk_ite (tableOk_modWatch (fun _ => rfl) h) (tableOk_startJob h)
    · exact h
  · exact h

theorem tableOk_triggerAll {ns order gpio} (h : s.tableOk) : (triggerAll ns order gpio s).tableOk :=
  tableOk_foldl (fun _ _ => tableOk_trigger) h

theorem tableOk_fireChains {n fired} (h : s.tableOk) : (fireChains n fired s).tableOk :=
  tableOk_ite h (tableOk_triggerAll h)

theorem tableOk_alarmLine {n fired i} (h : s.tableOk) : (alarmLine n fired i s).tableOk :=
  tableOk_ite (tableOk_ite h (tableOk_ite h h)) h

theorem tableOk_queueLabel {n entry cls byHost} (h : s.tableOk) : (queueLabel n entry cls byHost s).tableOk :=
  tableOk_modWatch (fun _ => rfl) h

theorem tableOk_markEntry {a byHost} (h : s.tableOk) : (markEntry a byHost s).tableOk := tableOk_putHbr h

theorem tableOk_adaptRead {rs} {lost f : State → State} (hl : ∀ x, x.tableOk → (lost x).tableOk)
    (hf : ∀ x, x.tableOk → (f x).tableOk)
    (h : s.tableOk) : (adaptRead rs lost f s).tableOk := by
  unfold adaptRead
  split
  · exact hl _ (tableOk_startPartial h)
  · exact hf _ (tableOk_foldl (fun _ _ => tableOk_visit) h)

theorem tableOk_selfLabel {w} (h : s.tableOk) : (selfLabel w s).tableOk := by
  unfold selfLabel
  split
  · refine tableOk_ite h (tableOk_adaptRead (fun _ hx => hx) (fun x hx => ?_) h)
    exact tableOk_ite (tableOk_queueLabel (tableOk_markEntry (tableOk_putHbr hx)))
      (tableOk_ite (tableOk_queueLabel (tableOk_markEntry hx)) hx)
  · exact h

theorem tableOk_leaveSpring (h : s.tableOk) : (leaveSpring s).tableOk := by
  unfold leaveSpring
  split
  · exact tableOk_booksFail h
  · split
    · have hm : (s.modCores coreIds coreOff).tableOk := tableOk_modCores h
      exact tableOk_keepVpix hm
    · exact h

theorem tableOk_dropInputs {n} (h : s.tableOk) : (dropInputs n s).tableOk := by
  unfold dropInputs
  dsimp only
  split
  · refine tableOk_ite ?_ ?_
    · split
      · exact tableOk_ite (tableOk_keepVpix h) h
      · exact h
    · split
      · exact tableOk_ite (tableOk_keepVpix h) h
      · exact h
  · split
    · exact tableOk_ite (tableOk_keepVpix h) h
    · exact h

theorem tableOk_dropRequests {n} (h : s.tableOk) : (dropRequests n s).tableOk := h

theorem tableOk_endJob {n} (h : s.tableOk) : (endJob n s).tableOk := by
  unfold endJob
  split
  · exact h
  · split
    · exact h
    · refine tableOk_ite (tableOk_booksFail h) (tableOk_ite ?_ (tableOk_fireChains (tableOk_sendMessages (tableOk_selfLabel
        (tableOk_foldl (fun _ _ => tableOk_alarmLine) ?_))))) <;>
      exact tableOk_modWatch (fun _ => rfl) (tableOk_ite (tableOk_release h) h)

theorem tableOk_finishStop {x} (h : s.tableOk) : (finishStop x s).tableOk := by
  unfold finishStop
  split
  · exact h
  · refine tableOk_ite (tableOk_leaveSpring ?_) ?_ <;>
      exact tableOk_modWatch (fun _ => rfl) (tableOk_dropRequests (tableOk_dropInputs (tableOk_logEntry (tableOk_release h))))

theorem tableOk_stopJob {x} (h : s.tableOk) : (stopJob x s).tableOk := by
  unfold stopJob
  split
  · exact h
  · split
    · exact h
    · refine tableOk_ite (tableOk_ite h (tableOk_foldl (fun _ _ hx => ?_) h)) (tableOk_finishStop h)
      exact tableOk_startPartial (tableOk_modCore hx)

theorem tableOk_watchFatalAt {source addr n code exc core} (h : s.tableOk) :
    (watchFatalAt source addr n code exc core s).tableOk :=
  tableOk_stopJob h

theorem tableOk_watchFatal {n code exc core} (h : s.tableOk) : (watchFatal n code exc core s).tableOk := tableOk_watchFatalAt h

theorem tableOk_abandon {n cause st} (h : s.tableOk) : (abandon n cause st s).tableOk := by
  unfold abandon
  split
  · exact h
  · exact tableOk_modWatch (fun _ => rfl) (tableOk_dropRequests (tableOk_dropInputs (tableOk_release h)))

theorem tableOk_faultWatch {n code} (h : s.tableOk) : (faultWatch n code s).tableOk :=
  tableOk_release (tableOk_modWatch (fun _ => rfl) h)

/-! ### The Strand store (Machine/Strand.lean) -/

theorem tableOk_mbxComplete {code data} (h : s.tableOk) : (mbxComplete code data s).tableOk := by
  unfold mbxComplete
  split <;> exact h

theorem tableOk_calComplete {code} (h : s.tableOk) : (calComplete code s).tableOk := tableOk_mbxComplete h

theorem tableOk_labelComplete {code} (h : s.tableOk) : (labelComplete code s).tableOk := tableOk_mbxComplete h

theorem tableOk_requestCommit {c} (h : s.tableOk) : (requestCommit c s).tableOk := h

theorem tableOk_startCommitUnit (h : s.tableOk) : (startCommitUnit s).tableOk := by
  unfold startCommitUnit
  split
  · exact tableOk_ite h h
  · exact h

theorem tableOk_startLogUnit (h : s.tableOk) : (startLogUnit s).tableOk := by
  unfold startLogUnit
  split
  · exact tableOk_ite h h
  · exact h

theorem tableOk_endLearn {status} (h : s.tableOk) : (endLearn status s).tableOk := h

theorem tableOk_strandCommit (h : s.tableOk) : (strandCommit s).tableOk := by
  unfold strandCommit
  split
  · exact tableOk_startCommitUnit h
  · split
    · exact tableOk_startCommitUnit h
    · exact h

theorem tableOk_commitPoint {r} (h : s.tableOk) : (commitPoint r s).tableOk := by
  unfold commitPoint
  extract_lets _ s1 _ s2 _
  have h1 : s1.tableOk := h
  have h2 : s2.tableOk := tableOk_ite h1 h1
  split
  · exact tableOk_calComplete h2
  · exact tableOk_endLearn h2
  · refine tableOk_ite (tableOk_labelComplete ?_) ?_ <;>
    · split
      · split
        · exact tableOk_putHbr h2
        · exact h2
      · exact h2
  · exact h2

theorem tableOk_commitFailed {r} (h : s.tableOk) : (commitFailed r s).tableOk := by
  unfold commitFailed
  dsimp only
  split
  · exact tableOk_calComplete (tableOk_raiseAlarm h)
  · exact tableOk_endLearn (tableOk_raiseAlarm h)
  · exact tableOk_ite (tableOk_labelComplete (tableOk_raiseAlarm h)) (tableOk_raiseAlarm h)
  · exact tableOk_raiseAlarm h

theorem tableOk_unitWritten {u} (h : s.tableOk) : (unitWritten u s).tableOk := by
  unfold unitWritten
  refine tableOk_ite h ?_
  split
  · exact h
  · exact tableOk_ite h (tableOk_ite (tableOk_commitPoint h)
      h)

theorem tableOk_unitDiffers {u} (h : s.tableOk) : (unitDiffers u s).tableOk := by
  have hf {x : State} (e : x.watches = s.watches) : x.tableOk := tableOk_of_watches h e
  unfold unitDiffers
  refine tableOk_ite (hf rfl) (tableOk_ite (hf rfl) ?_)
  split
  · exact hf rfl
  · exact tableOk_ite (hf rfl) (tableOk_commitFailed (hf rfl))

theorem tableOk_strandUnitWritten {same} (h : s.tableOk) : (strandUnitWritten same s).tableOk := by
  unfold strandUnitWritten
  split
  · exact h
  · exact tableOk_ite (tableOk_takeDelayed (tableOk_ite (tableOk_unitWritten h) (tableOk_unitDiffers h)))
      (tableOk_startCommitUnit
      (tableOk_takeDelayed (tableOk_ite (tableOk_unitWritten h) (tableOk_unitDiffers h))))

theorem tableOk_strandTimeout (h : s.tableOk) : (strandTimeout s).tableOk := by
  unfold strandTimeout
  refine tableOk_ite h ?_
  split
  · exact h
  · exact tableOk_ite h (tableOk_commitFailed h)
  · split
    · exact tableOk_ite h (tableOk_commitFailed h)
    · exact h

theorem tableOk_strandRecovery (h : s.tableOk) : (strandRecovery s).tableOk :=
  have h' := tableOk_ite (tableOk_requestCommit (tableOk_update h rfl)) (tableOk_update h rfl)
  tableOk_ite h' (tableOk_raiseAlarm h')

theorem tableOk_capBatch (h : s.tableOk) : (capBatch s).tableOk :=
  tableOk_ite (tableOk_endLearn h) (tableOk_ite h (tableOk_requestCommit h))

theorem tableOk_capSample {m vb va} (h : s.tableOk) : (capSample m vb va s).tableOk :=
  tableOk_ite (tableOk_ite (tableOk_capBatch h) h) h

/-! ### Power and admission (Machine/Tide.lean) -/

theorem tableOk_raiseCharge (h : s.tableOk) : (raiseCharge s).tableOk := tableOk_ite h h

theorem tableOk_dropCharge (h : s.tableOk) : (dropCharge s).tableOk := h

theorem tableOk_chargeControl (h : s.tableOk) : (chargeControl s).tableOk := by
  unfold chargeControl
  split
  · exact tableOk_dropCharge h
  · exact tableOk_ite (tableOk_dropCharge h) (tableOk_ite h (tableOk_ite (tableOk_dropCharge h) (tableOk_ite
      (tableOk_raiseCharge h) h)))

theorem tableOk_stallSample (h : s.tableOk) : (stallSample s).tableOk := tableOk_ite h h

theorem tableOk_stallTick (h : s.tableOk) : (stallTick s).tableOk := by
  unfold stallTick
  split
  · exact tableOk_ite h h
  · exact h

theorem tableOk_chgStallEvent (h : s.tableOk) : (chgStallEvent s).tableOk := tableOk_ite h h

theorem tableOk_beginSpring {w b} (h : s.tableOk) : (beginSpring w b s).tableOk := tableOk_modJob (tableOk_wake h)

theorem tableOk_grantLimit (h : s.tableOk) : (grantLimit s).tableOk := tableOk_foldl (fun _ _ => tableOk_watchFatal) h

theorem tableOk_evaluateAdmission (h : s.tableOk) : (evaluateAdmission s).tableOk := by
  unfold evaluateAdmission
  refine tableOk_ite (tableOk_grantLimit h) ?_
  split
  · exact tableOk_ite (tableOk_ite (tableOk_beginSpring (tableOk_grantLimit h)) (tableOk_grantLimit h)) (tableOk_grantLimit
      h)
  · exact tableOk_grantLimit h

theorem tableOk_refuseAdmission {n} (h : s.tableOk) : (refuseAdmission n s).tableOk := by
  unfold refuseAdmission
  split
  · split
    · exact tableOk_ite (tableOk_modWatch (fun _ => rfl) h) h
    · exact h
  · exact h

theorem tableOk_admissionRequest {n} (h : s.tableOk) : (admissionRequest n s).tableOk := by
  unfold admissionRequest
  split
  · split
    · refine tableOk_ite (tableOk_ite (tableOk_ite (tableOk_endJob h) h) ?_) h
      split
      · exact tableOk_watchFatal h
      · exact tableOk_ite (tableOk_watchFatal h) (tableOk_refuseAdmission (tableOk_evaluateAdmission (tableOk_modJob h)))
    · exact h
  · exact h

theorem tableOk_admitTimeout {n} (h : s.tableOk) : (admitTimeout n s).tableOk := by
  unfold admitTimeout
  split
  · exact tableOk_ite (tableOk_startPending (tableOk_keepVpix (tableOk_abandon h))) h
  · exact h

theorem tableOk_loadImem {c l} (h : s.tableOk) : (loadImem c l s).tableOk :=
  tableOk_foldl (fun _ _ hx => tableOk_modCore (tableOk_visit hx)) h

theorem tableOk_startCore {w index r c} (h : s.tableOk) : (startCore w index r c s).tableOk :=
  tableOk_modCore (tableOk_loadImem (tableOk_modCore h))

theorem tableOk_resumeCore {w j index c} (h : s.tableOk) : (resumeCore w j index c s).tableOk := by
  unfold resumeCore
  refine tableOk_modCore (tableOk_foldl (fun _ _ hx => ?_) ?_)
  · exact tableOk_modCore (tableOk_loadImem hx)
  · exact tableOk_modCore (tableOk_visit h)

theorem tableOk_memoryStop {c w src line slot pc} (h : s.tableOk) : (memoryStop c w src line slot pc s).tableOk :=
  tableOk_watchFatalAt (tableOk_ite (tableOk_raiseAlarm (tableOk_modCore h)) (tableOk_modCore h))

theorem tableOk_releaseCores {w j} (h : s.tableOk) : (releaseCores w j s).tableOk := by
  unfold releaseCores
  extract_lets n cs s1 s2 s3 s4 _ s5
  have h1 : s1.tableOk := tableOk_ite (tableOk_putHbrLines h) h
  have h2 : s2.tableOk := by
    unfold s2
    split
    · exact tableOk_foldl (fun _ _ => tableOk_startCore) h1
    · exact tableOk_foldl (fun _ _ => tableOk_resumeCore) (tableOk_visit h1)
  have h5 : s5.tableOk := tableOk_modJob (tableOk_modWatch (fun _ => rfl) h2)
  refine tableOk_ite (tableOk_watchFatalAt h5) ?_
  split
  · exact tableOk_memoryStop h5
  · exact h5

theorem tableOk_coreRelease (h : s.tableOk) : (coreRelease s).tableOk := by
  unfold coreRelease
  split
  · split
    · exact tableOk_ite (tableOk_releaseCores h) h
    · exact h
  · exact h

theorem tableOk_settleMeter (h : s.tableOk) : (settleMeter s).tableOk := by
  unfold settleMeter
  split
  · split
    · exact tableOk_modJob h
    · exact h
  · exact h

theorem tableOk_startCheckpoint {n} (h : s.tableOk) : (startCheckpoint n s).tableOk := by
  unfold startCheckpoint
  split
  · exact tableOk_modJob h
  · exact h

theorem tableOk_meterCharge {us c0 c1 c2 c3} (h : s.tableOk) : (meterCharge us c0 c1 c2 c3 s).tableOk := by
  unfold meterCharge
  split
  · split
    · extract_lets n s1 s2
      have h1 : s1.tableOk := tableOk_modCore (tableOk_modCore (tableOk_modCore (tableOk_modCore h)))
      have h2 : s2.tableOk := tableOk_settleMeter (tableOk_modJob h1)
      split
      · refine tableOk_ite h2 ?_
        split
        · exact tableOk_ite (tableOk_startCheckpoint h2) h2
        · exact tableOk_ite (tableOk_watchFatal h2) h2
      · exact h2
    · exact h
  · exact h

theorem tableOk_guardTrip (h : s.tableOk) : (guardTrip s).tableOk := by
  unfold guardTrip
  split
  · exact tableOk_ite (tableOk_startCheckpoint h) h
  · exact h

theorem tableOk_writeFrames {w k} (h : s.tableOk) : (writeFrames w k s).tableOk :=
  tableOk_putHbrWhole (tableOk_freeBytes (tableOk_foldl (fun _ _ => tableOk_putHbrWhole) h))

theorem tableOk_checkpointDone {w k} (h : s.tableOk) : (checkpointDone w k s).tableOk :=
  tableOk_leaveSpring (tableOk_modWatch (fun _ => rfl) (tableOk_modJob (tableOk_writeFrames (tableOk_settleMeter h))))

theorem tableOk_checkpointComplete (h : s.tableOk) : (checkpointComplete s).tableOk := by
  unfold checkpointComplete
  split
  · split
    · exact tableOk_ite (tableOk_ite (tableOk_watchFatal h) (tableOk_checkpointDone h)) h
    · exact h
  · exact h

theorem tableOk_computeEnd (h : s.tableOk) : (computeEnd s).tableOk := by
  unfold computeEnd
  split
  · exact tableOk_ite (tableOk_ite (tableOk_watchFatal h) (tableOk_endJob (tableOk_leaveSpring (tableOk_modJob
      (tableOk_settleMeter h))))) h
  · exact h

theorem tableOk_cutSpring {code} (h : s.tableOk) : (cutSpring code s).tableOk := by
  unfold cutSpring
  split
  · exact tableOk_finishStop h
  · exact tableOk_finishStop h
  · exact h

theorem tableOk_vcoreFail (h : s.tableOk) : (vcoreFail s).tableOk := tableOk_ite (tableOk_cutSpring (tableOk_raiseAlarm h)) h

theorem tableOk_reservoirCollapse (h : s.tableOk) : (reservoirCollapse s).tableOk :=
  tableOk_ite (tableOk_cutSpring (tableOk_raiseAlarm h)) h

theorem tableOk_firstSample (h : s.tableOk) : (firstSample s).tableOk :=
  tableOk_ite (tableOk_ite (tableOk_capSample h) h) h

theorem tableOk_account (h : s.tableOk) : (account s).tableOk := by
  unfold account
  split <;> exact h

theorem tableOk_reservoirSample {rsvMv vbatMv} (h : s.tableOk) : (reservoirSample rsvMv vbatMv s).tableOk := by
  refine tableOk_ite h (tableOk_evaluateAdmission (tableOk_ite (tableOk_wake ?_) ?_)) <;>
    exact tableOk_chargeControl (tableOk_stallSample (tableOk_firstSample (tableOk_account h)))

theorem tableOk_vbatSample {vbatMv} (h : s.tableOk) : (vbatSample vbatMv s).tableOk := tableOk_chargeControl h

theorem tableOk_applyStep (h : s.tableOk) : (applyStep s).tableOk := by
  unfold applyStep
  split <;> exact h

theorem tableOk_thermalShutdown (h : s.tableOk) : (thermalShutdown s).tableOk :=
  tableOk_leaveSpring (tableOk_tearOtp h)

theorem tableOk_tempSample {coarse} (h : s.tableOk) : (tempSample coarse s).tableOk :=
  tableOk_ite (tableOk_thermalShutdown (tableOk_applyStep h)) (tableOk_applyStep h)

theorem tableOk_neapEntry (h : s.tableOk) : (neapEntry s).tableOk :=
  tableOk_ite (tableOk_booksFail h) (tableOk_ite h h)

theorem tableOk_bankPowerUp {b} (h : s.tableOk) : (bankPowerUp b s).tableOk := tableOk_ite h h

theorem tableOk_doneRearm (h : s.tableOk) : (doneRearm s).tableOk :=
  tableOk_foldl (fun _ _ => tableOk_startPending) (tableOk_keepVpix (tableOk_foldl (fun _ _ => tableOk_modWatch
    (fun _ => rfl)) h))

theorem tableOk_tickTrigger (h : s.tableOk) : (tickTrigger s).tableOk := tableOk_triggerAll h

theorem tableOk_groupRelease {n} (h : s.tableOk) : (groupRelease n s).tableOk := tableOk_tryHeld h

/-! ### Tensor cores (Machine/Cores.lean) -/

theorem tableOk_coreExceptionAt {source c cause slot pc} (h : s.tableOk) :
    (coreExceptionAt source c cause slot pc s).tableOk := by
  unfold coreExceptionAt
  refine tableOk_ite h ?_
  dsimp only
  split
  · refine tableOk_watchFatalAt (tableOk_modCore ?_)
    split <;> exact h
  · refine tableOk_modCore ?_
    split <;> exact h

theorem tableOk_coreException {c cause slot pc} (h : s.tableOk) : (coreException c cause slot pc s).tableOk :=
  tableOk_coreExceptionAt h

theorem tableOk_performWord {p} (h : s.tableOk) : (performWord p s).2.tableOk := by
  unfold performWord
  dsimp only
  split
  · exact tableOk_visit h
  · split <;> exact tableOk_putHbr (tableOk_visit h)

theorem tableOk_drainWords {atomics ps} (h : s.tableOk) : (drainWords atomics ps s).tableOk :=
  tableOk_foldl (fun _ _ h => tableOk_ite (tableOk_performWord h) h) h

theorem tableOk_replay {c w src addr slot pc} (h : s.tableOk) : (replay c w src addr slot pc s).tableOk :=
  tableOk_logEntry (tableOk_modJob (tableOk_setCore (tableOk_drainWords h)))

theorem tableOk_tryReplay {c} (h : s.tableOk) : (tryReplay c s).tableOk := by
  have h1 : (s.setCore c (restored (s.core c))).tableOk := tableOk_setCore h
  unfold tryReplay
  extract_lets
  refine tableOk_ite (tableOk_ite ?_ h1) h
  split
  · exact tableOk_memoryStop (tableOk_foldl (fun _ _ => tableOk_loadImem) h1)
  · exact tableOk_foldl (fun _ _ => tableOk_loadImem) h1

theorem tableOk_takeError {c src line slot pc} (h : s.tableOk) : (takeError c src line slot pc s).tableOk := by
  unfold takeError
  split
  · exact h
  · exact tableOk_ite (tableOk_replay h) (tableOk_memoryStop h)

theorem tableOk_giveStatus {c st code pc} (h : s.tableOk) : (giveStatus c st code pc s).tableOk := by
  unfold giveStatus
  split
  · exact tableOk_modCore h
  · exact tableOk_ite h (tableOk_coreException h)

theorem tableOk_storeMarker {watch chip idx epoch count} (h : s.tableOk) : (storeMarker watch chip idx epoch count s).tableOk :=
  h

theorem tableOk_publishMarker {c w chip epoch st} (h : s.tableOk) : (publishMarker c w chip epoch st s).tableOk :=
  tableOk_ite (tableOk_ite (tableOk_giveStatus (tableOk_setCore h)) (tableOk_coreExceptionAt h))
    (tableOk_sendPacket (tableOk_setCore h))

theorem tableOk_tryWait {c} (h : s.tableOk) : (tryWait c s).tableOk := by
  unfold tryWait
  dsimp only
  split
  · exact tableOk_ite (tableOk_modCore (tableOk_modCore h)) h
  · exact tableOk_ite (tableOk_giveStatus (tableOk_modCore (tableOk_modCore h))) h
  · exact tableOk_ite h (tableOk_giveStatus (tableOk_modCore (tableOk_modCore h)))
  · split
    · exact tableOk_ite (tableOk_giveStatus (tableOk_modCore h)) h
    · exact h
  · exact tableOk_ite h (tableOk_giveStatus (tableOk_modCore h))
  · exact tableOk_ite (tableOk_ite h (tableOk_giveStatus (tableOk_modCore (tableOk_modCore h)))) (tableOk_ite h
      (tableOk_publishMarker (tableOk_modCore h)))
  · exact h

theorem tableOk_settle {c} (h : s.tableOk) : (settle c s).tableOk :=
  tableOk_modCore (tableOk_tryWait (tableOk_tryReplay h))

theorem tableOk_raiseEvent {c ev slot pc} (h : s.tableOk) : (raiseEvent c ev slot pc s).tableOk := by
  unfold raiseEvent
  split
  · exact h
  · exact tableOk_ite (tableOk_coreException h) (tableOk_modCore h)

theorem tableOk_removePend {c i} (h : s.tableOk) : (removePend c i s).tableOk :=
  tableOk_modCore h

theorem tableOk_completeDma {c i p} (h : s.tableOk) : (completeDma c i p s).tableOk := by
  unfold completeDma
  dsimp only
  split
  · exact tableOk_settle (tableOk_takeError (tableOk_removePend h))
  · exact tableOk_settle (tableOk_raiseEvent (tableOk_removePend h))

theorem tableOk_wordDone {c} (h : s.tableOk) : (wordDone c s).tableOk := by
  unfold wordDone
  dsimp only
  split
  · exact h
  · refine tableOk_ite (tableOk_settle (tableOk_takeError (tableOk_removePend h))) (tableOk_settle (tableOk_giveStatus
      (tableOk_ite
      (tableOk_modCore ?_) ?_)))
    · split
      · exact tableOk_modCore (tableOk_performWord (tableOk_removePend h))
      · exact tableOk_performWord (tableOk_removePend h)
    · split
      · exact tableOk_modCore (tableOk_performWord (tableOk_removePend h))
      · exact tableOk_performWord (tableOk_removePend h)

theorem tableOk_streamDone {c i p b dst block reread} (h : s.tableOk) : (streamDone c i p b dst block reread s).tableOk := by
  unfold streamDone
  split
  · exact h
  · split
    · exact h
    · dsimp only
      split
      · exact tableOk_completeDma (tableOk_putHbrLines (tableOk_ite h h))
      · exact tableOk_coreExceptionAt (tableOk_removePend (tableOk_raiseAlarm (tableOk_ite h
          h)))

theorem tableOk_dmaComplete {c n block reread} (h : s.tableOk) : (dmaComplete c n block reread s).tableOk := by
  unfold dmaComplete
  dsimp only
  split
  · refine tableOk_ite ?_ h
    split
    · exact tableOk_completeDma h
    · exact tableOk_ite h (tableOk_streamDone h)
  · exact h

theorem tableOk_waitTimeout {c} (h : s.tableOk) : (waitTimeout c s).tableOk := tableOk_ite (tableOk_coreException h) h

theorem tableOk_markPoison {c src line} (h : s.tableOk) : (markPoison c src line s).tableOk := by
  unfold markPoison
  dsimp only
  split
  · exact tableOk_ite h h
  · exact tableOk_ite h (tableOk_modCore h)
  · exact tableOk_ite h (tableOk_modCore h)
  · exact h
  · exact h

theorem tableOk_uncorrectableError {c src addr slot pc} (h : s.tableOk) : (uncorrectableError c src addr slot pc s).tableOk :=
  tableOk_ite (tableOk_settle (tableOk_takeError (tableOk_markPoison h))) h

/-! ### Remote transfers (Machine/Dma.lean) -/

/-! ### The fetch of a bundle (Machine/Bundle.lean) -/

theorem tableOk_fetch {c p} (h : s.tableOk) : (fetch c p s).tableOk :=
  tableOk_ite (tableOk_modCore h) h

/-! ### Completion of transfers, the ends of inputs (Machine/Inputs.lean) -/

theorem tableOk_setBerth {b x} (h : s.tableOk) : (setBerth b x s).tableOk := h

theorem tableOk_correctStem (h : s.tableOk) : (correctStem s).tableOk := tableOk_ite h h

theorem tableOk_useStem {w} (h : s.tableOk) : (useStem w s).tableOk := tableOk_correctStem h

theorem tableOk_stemReads {rs} (h : s.tableOk) : (s.stemReads rs).tableOk :=
  tableOk_foldl (fun _ _ => tableOk_visit) h

theorem tableOk_stemSat {n sat} (h : s.tableOk) : (stemSat n sat s).tableOk := tableOk_ite (tableOk_modJob h) h

theorem tableOk_keep {f iy} (h : s.tableOk) : (FirstLayer.keep f iy s).tableOk := tableOk_putHbr h

theorem tableOk_issueHead {n} (h : s.tableOk) : (issueHead n s).tableOk := by
  unfold issueHead
  split
  · split
    · exact tableOk_ite (tableOk_modJob h) h
    · exact h
  · exact h

theorem tableOk_issueHeads (h : s.tableOk) : (issueHeads s).tableOk :=
  tableOk_foldl (fun _ _ h => tableOk_foldl (fun _ _ => tableOk_issueHead) h) h

theorem tableOk_inputsDone {n} (h : s.tableOk) : (inputsDone n s).tableOk := by
  unfold inputsDone
  split
  · exact h
  · refine tableOk_ite ?_ (tableOk_ite (tableOk_releaseAll (tableOk_modJob h)) (tableOk_modJob h))
    split
    · exact tableOk_endJob (tableOk_ite (tableOk_releaseAll (tableOk_modJob h)) (tableOk_modJob h))
    · exact tableOk_ite (tableOk_watchFatal (tableOk_ite (tableOk_releaseAll (tableOk_modJob h)) (tableOk_modJob h)))
        (tableOk_issueHeads
        (tableOk_modJob (tableOk_ite (tableOk_releaseAll (tableOk_modJob h)) (tableOk_modJob h))))

end
end Sys2Proof.Machine
end

