-- ==== Sys2Proof/Proofs/TableOrderUnits.lean ====
section
/-! PROOF. Proofs/TableOrderUnits.lean: the order of the watch table under the operations of the Stem engine, the front ends, the pins, the OTP and the table itself. -/
namespace Sys2Proof.Machine
open Sys2Proof

section
variable {s t : State}

/-! ### The Stem engine (Machine/Stem.lean) -/

theorem tableOk_popStem (h : s.tableOk) : (popStem s).tableOk := h

theorem tableOk_stemError (h : s.tableOk) : (stemError s).tableOk := tableOk_startPartial h

theorem tableOk_stemWindow {n} (h : s.tableOk) : (stemWindow n s).tableOk := tableOk_watchFatal h

theorem tableOk_headDone {n core event} (h : s.tableOk) : (headDone n core event s).tableOk := by
  unfold headDone
  dsimp only
  split
  · exact tableOk_issueHeads (tableOk_settle (tableOk_raiseEvent (tableOk_modCore h)))
  · exact tableOk_ite (tableOk_issueHeads h) (tableOk_issueHeads (tableOk_endJob h))

theorem tableOk_headBad {n} (h : s.tableOk) : (headBad n s).tableOk := tableOk_watchFatal h

theorem tableOk_headAborted {n core} (h : s.tableOk) : (headAborted n core s).tableOk := by
  unfold headAborted
  dsimp only
  split
  · exact tableOk_ite (tableOk_modCore h) (tableOk_coreExceptionAt (tableOk_modCore h))
  · exact tableOk_watchFatal h

theorem tableOk_takeGroup {w core a event b} (h : s.tableOk) : (takeGroup w core a event b s).tableOk := by
  unfold takeGroup
  refine tableOk_ite (tableOk_popStem h) ?_
  dsimp only
  split
  · exact tableOk_ite (tableOk_stemWindow (tableOk_popStem h)) (tableOk_ite (tableOk_headBad (tableOk_popStem h)) (tableOk_ite
      (tableOk_stemWindow
      (tableOk_popStem h)) (tableOk_modJob (tableOk_popStem h))))
  · exact tableOk_headBad (tableOk_popStem h)

theorem tableOk_takeGroups {n} (h : s.tableOk) : (takeGroups n s).tableOk := by
  induction n generalizing s with
  | zero => exact h
  | succ n ih =>
    unfold takeGroups
    split
    · dsimp only
      split
      · exact tableOk_ite (ih (tableOk_takeGroup h)) h
      · exact ih (tableOk_popStem h)
    · exact h

theorem tableOk_withFront {f : StemReq → Watch → State → State} (hf : ∀ r w x, x.tableOk → (f r w x).tableOk) (h : s.tableOk) :
    (withFront s f).tableOk := by
  have hg := tableOk_takeGroups (n := s.stem.queue.length) h
  unfold withFront
  refine tableOk_ite ?_ h
  dsimp only
  split
  · split
    · exact tableOk_ite (tableOk_popStem hg) (hf _ _ _ hg)
    · exact tableOk_popStem hg
  · exact hg

theorem tableOk_spectralRun {w q ch c k} (h : s.tableOk) : (spectralRun w q ch c k s).tableOk :=
  tableOk_ite (tableOk_stemWindow (tableOk_popStem h)) (tableOk_ite (tableOk_stemError h) (tableOk_ite (tableOk_inputsDone
    (tableOk_modJob
    (tableOk_stemSat (tableOk_putHbrLines (tableOk_stemReads (tableOk_useStem (tableOk_popStem h))))))) (tableOk_modJob
      (tableOk_stemSat
    (tableOk_putHbrLines (tableOk_stemReads (tableOk_useStem (tableOk_popStem h))))))))

theorem tableOk_spectralFront (h : s.tableOk) : (spectralFront s).tableOk := by
  unfold spectralFront
  refine tableOk_withFront (fun _ _ _ h => ?_) h
  split
  · dsimp only
    split
    · exact tableOk_spectralRun h
    · exact tableOk_popStem h
  · exact h

theorem tableOk_emitHead {w emit ds fired} (h : s.tableOk) : (emitHead w emit ds fired s).tableOk :=
  tableOk_ite (tableOk_modJob (tableOk_releaseAll h)) h

theorem tableOk_keepFeatures {w b d top} (h : s.tableOk) : (keepFeatures w b d top s).tableOk :=
  tableOk_modJob (tableOk_putHbr (tableOk_putHbrLines h))

theorem tableOk_classify {w d wA bA ad} (h : s.tableOk) : (classify w d wA bA ad s).tableOk := by
  unfold classify
  refine tableOk_emitHead ?_
  split
  · exact tableOk_keepFeatures (tableOk_putHbrLines (tableOk_stemSat h))
  · exact tableOk_putHbrLines (tableOk_stemSat h)

theorem tableOk_detect {w d t} (ht : detect w d s = some t) (h : s.tableOk) : t.tableOk := by
  unfold detect at ht
  dsimp only at ht
  split at ht
  · cases ht
  · cases ht
    exact tableOk_emitHead (tableOk_putHbrLines h)

theorem tableOk_serveHead {w core event a b} (h : s.tableOk) : (serveHead w core event a b s).tableOk := by
  have hp := tableOk_popStem h
  unfold serveHead
  refine tableOk_ite (tableOk_headBad hp) (tableOk_ite (tableOk_stemError h) (tableOk_ite (tableOk_headBad hp)
    (tableOk_ite (tableOk_stemWindow hp) (tableOk_ite (tableOk_stemError h) ?_))))
  extract_lets s1 done
  have h1 : s1.tableOk := tableOk_stemReads (tableOk_useStem hp)
  have hd : ∀ t, done = some t → t.tableOk := fun t ht => by
    unfold done at ht
    split at ht
    · split at ht
      · cases ht
        exact tableOk_classify h1
      · cases ht
    · exact tableOk_detect ht h1
  generalize done = o at hd ⊢
  cases o with
  | some t => exact tableOk_headDone (hd t rfl)
  | none => exact tableOk_stemWindow h1

theorem tableOk_headRequest (h : s.tableOk) : (headRequest s).tableOk := by
  unfold headRequest
  refine tableOk_withFront (fun _ _ _ h => ?_) h
  split
  · exact tableOk_ite (tableOk_stemWindow (tableOk_popStem h)) (tableOk_ite (tableOk_stemError h) (tableOk_ite h
      (tableOk_serveHead h)))
  · exact h

theorem tableOk_serveExport {w core event b} (h : s.tableOk) : (serveExport w core event b s).tableOk := by
  unfold serveExport
  dsimp only
  split
  · exact tableOk_headBad (tableOk_popStem h)
  · exact tableOk_ite (tableOk_stemWindow (tableOk_popStem h)) (tableOk_ite (tableOk_stemError h) (tableOk_ite
      (tableOk_headBad (tableOk_popStem
      h)) (tableOk_ite (tableOk_headDone (tableOk_popStem h)) (tableOk_ite (tableOk_stemWindow (tableOk_popStem h))
      (tableOk_ite (tableOk_stemError h) (tableOk_headDone (tableOk_releaseAll (tableOk_stemReads (tableOk_useStem
      (tableOk_popStem h))))))))))

theorem tableOk_roiExport (h : s.tableOk) : (roiExport s).tableOk := by
  unfold roiExport
  refine tableOk_withFront (fun _ _ _ h => ?_) h
  split
  · exact tableOk_ite (tableOk_stemWindow (tableOk_popStem h)) (tableOk_ite (tableOk_stemError h) (tableOk_ite
      (tableOk_serveExport h) h))
  · exact h

theorem tableOk_decideGroup {w j body g} (h : s.tableOk) : (decideGroup w j body g s).tableOk := by
  refine tableOk_foldl (fun _ _ => tableOk_headDone) (tableOk_ite (tableOk_modWatch (fun _ => rfl) ?_) ?_) <;>
    exact tableOk_modJob (tableOk_modCores (tableOk_foldl (fun _ _ => tableOk_putHbrLines) h))

theorem tableOk_groupDecision (h : s.tableOk) : (groupDecision s).tableOk := by
  have hg := tableOk_takeGroups (n := s.stem.queue.length) h
  unfold groupDecision
  refine tableOk_ite ?_ h
  dsimp only
  split
  · split
    · split
      · exact tableOk_decideGroup hg
      · exact hg
    · exact hg
  · exact hg

theorem tableOk_writeService {w b toB} (h : s.tableOk) : (writeService w b toB s).1.tableOk := tableOk_putHbrWhole h

theorem tableOk_emitAdapt {w d} (h : s.tableOk) : (emitAdapt w d s).tableOk := tableOk_ite (tableOk_release h) h

theorem tableOk_headNotCommitted {byHost} (h : s.tableOk) : (headNotCommitted byHost s).tableOk :=
  tableOk_ite (tableOk_labelComplete h) h

theorem tableOk_commitHead {w b byHost} (h : s.tableOk) : (commitHead w b byHost s).tableOk :=
  tableOk_adaptRead (fun _ => tableOk_headNotCommitted) (fun _ => tableOk_requestCommit) h

theorem tableOk_stepEnded {n} (h : s.tableOk) : (stepEnded n s).tableOk := tableOk_tryHeld (tableOk_modWatch (fun _ => rfl) h)

theorem tableOk_adaptStep {w b act e y byHost} (h : s.tableOk) : (adaptStep w b act e y byHost s).tableOk := by
  unfold adaptStep
  extract_lets
  split
  extract_lets _ _ _ s1 s2 s3 r _ _ s4 _ s5 s6 s7
  have h3 : s3.tableOk := tableOk_putHbrWhole (tableOk_putHbrWhole (tableOk_putHbrWhole h))
  clear_value s3
  have hr : r.1.tableOk := tableOk_writeService h3
  clear_value r
  have h4 : s4.tableOk := tableOk_putHbr (tableOk_putHbr hr)
  clear_value s4
  have h5 : s5.tableOk := tableOk_of_watches h4 rfl
  clear_value s5
  have h7 : s7.tableOk := tableOk_stepEnded (tableOk_emitAdapt h5)
  clear_value s7
  exact tableOk_ite (tableOk_commitHead h7) (tableOk_ite (tableOk_mbxComplete h7) h7)

theorem tableOk_adaptationStep (h : s.tableOk) : (adaptationStep s).tableOk := by
  unfold adaptationStep
  refine tableOk_withFront (fun _ _ _ h => ?_) h
  split
  · split
    · split
      · exact tableOk_ite h (tableOk_ite (tableOk_stemError h) (tableOk_adaptStep (tableOk_stemReads (tableOk_useStem
          (tableOk_popStem h)))))
      · exact tableOk_popStem h
    · exact tableOk_popStem h
  · exact h

theorem tableOk_buildAdapt {w} (h : s.tableOk) : (buildAdapt w s).tableOk := by
  unfold buildAdapt
  split
  · exact h
  · exact tableOk_ite (tableOk_release (tableOk_modWatch (fun _ => rfl) (tableOk_foldl (fun _ _ => tableOk_putHbr)
      (tableOk_writeService (tableOk_putHbrWhole
      h))))) (tableOk_modWatch (fun _ => rfl) (tableOk_foldl (fun _ _ => tableOk_putHbr) (tableOk_writeService
        (tableOk_putHbrWhole h))))

theorem tableOk_stemReleased (h : s.tableOk) : (stemReleased s).tableOk := by
  unfold stemReleased
  dsimp only
  split
  · refine tableOk_ite (tableOk_watchFatal (tableOk_foldl (fun _ _ h => tableOk_headAborted (tableOk_modJob h)) (tableOk_foldl
      (fun _ _ h =>
      ?_) h))) (tableOk_foldl (fun _ _ h => tableOk_headAborted (tableOk_modJob h)) (tableOk_foldl (fun _ _ h => ?_)
      h))
    · split
      · exact tableOk_headAborted h
      · exact tableOk_headAborted h
      · exact h
    · split
      · exact tableOk_headAborted h
      · exact tableOk_headAborted h
      · exact h
  · refine tableOk_foldl (fun _ _ h => tableOk_headAborted (tableOk_modJob h)) (tableOk_foldl (fun _ _ h => ?_) h)
    split
    · exact tableOk_headAborted h
    · exact tableOk_headAborted h
    · exact h

theorem tableOk_stemBufferError (h : s.tableOk) : (stemBufferError s).tableOk := tableOk_ite (tableOk_stemError h) h

/-! ### The pixel front end (Machine/Pixel.lean) -/

theorem tableOk_acquirePixels {w} (h : s.tableOk) : (acquirePixels w s).tableOk :=
  tableOk_needXref (tableOk_keepVpix (tableOk_modJob h))

theorem tableOk_acquireAdc {w} (h : s.tableOk) : (acquireAdc w s).tableOk :=
  tableOk_needXref (tableOk_modWatch (fun _ => rfl) (tableOk_modJob h))

theorem tableOk_inputAcquire {n} (h : s.tableOk) : (inputAcquire n s).tableOk := by
  unfold inputAcquire
  split
  · exact tableOk_ite (tableOk_ite (tableOk_acquirePixels h) (tableOk_ite (tableOk_acquireAdc h) h)) h
  · exact h

theorem tableOk_xrefReady (h : s.tableOk) : (xrefReady s).tableOk := tableOk_ite (tableOk_startPorts h) h

theorem tableOk_xrefTimeout (h : s.tableOk) : (xrefTimeout s).tableOk := by
  unfold xrefTimeout
  refine tableOk_ite ?_ h
  dsimp only
  split
  · refine tableOk_watchFatal ?_
    split
    · exact tableOk_watchFatal h
    · exact h
  · split
    · exact tableOk_watchFatal h
    · exact h

theorem tableOk_vpixReadyEvent (h : s.tableOk) : (vpixReadyEvent s).tableOk := tableOk_ite h h

theorem tableOk_pixelSupply (h : s.tableOk) : (pixelSupply s).tableOk := by
  unfold pixelSupply
  split
  · exact tableOk_watchFatal h
  · exact h

theorem tableOk_vpixWaitTimeout (h : s.tableOk) : (vpixWaitTimeout s).tableOk := tableOk_ite (tableOk_pixelSupply h) h

theorem tableOk_vpixLow (h : s.tableOk) : (vpixLow s).tableOk := by
  unfold vpixLow
  split
  · exact tableOk_ite (tableOk_pixelSupply h) h
  · exact h

theorem tableOk_modCap {f} (h : s.tableOk) : (modCap f s).tableOk := h

theorem tableOk_strobeLead (h : s.tableOk) : (strobeLead s).tableOk := by
  unfold strobeLead
  split
  · exact tableOk_ite (tableOk_modCap h) h
  · exact h

theorem tableOk_startExposure {c w p missed} (h : s.tableOk) : (startExposure c w p missed s).tableOk :=
  tableOk_modCap (tableOk_modWatch (fun _ => rfl) h)

theorem tableOk_exposureStart (h : s.tableOk) : (exposureStart s).tableOk := by
  unfold exposureStart
  split
  · exact tableOk_ite (tableOk_ite (tableOk_modCap h) (tableOk_startExposure h)) h
  · exact h

theorem tableOk_fsyncEdge (h : s.tableOk) : (fsyncEdge s).tableOk := by
  unfold fsyncEdge
  split
  · exact tableOk_ite (tableOk_startExposure h) h
  · exact h

theorem tableOk_fsyncExpiry (h : s.tableOk) : (fsyncExpiry s).tableOk := by
  unfold fsyncExpiry
  split
  · exact tableOk_ite (tableOk_startExposure h) h
  · exact h

theorem tableOk_exposureEnd {period} (h : s.tableOk) : (exposureEnd period s).tableOk := by
  unfold exposureEnd
  split
  · split
    · exact tableOk_ite h (tableOk_foldl (fun _ _ => tableOk_setBerth) (tableOk_modCap h))
    · exact h
  · exact h

theorem tableOk_putForJob {w a ls t} (ht : putForJob w a ls s = some t) (h : s.tableOk) : t.tableOk := by
  unfold putForJob at ht
  split at ht
  · cases ht
    exact tableOk_putHbrLines h
  · cases ht

theorem tableOk_foldl_bind {α : Type} {l : List α} {f : α → State → Option State}
    (hf : ∀ a x t, f a x = some t → x.tableOk → t.tableOk) {o : Option State} (ho : ∀ t, o = some t → t.tableOk) :
    ∀ t, l.foldl (fun t a => t.bind (f a)) o = some t → t.tableOk := by
  induction l generalizing o with
  | nil => exact ho
  | cons a l ih =>
    refine ih fun t ht => ?_
    obtain ⟨x, hx, hfx⟩ := Option.bind_eq_some_iff.mp ht
    exact hf a x t hfx (ho x hx)

theorem tableOk_stemRow {w p e r px r' t b} (ht : stemRow w p e r px s = (some (r', t), b)) (h : s.tableOk) : t.tableOk := by
  unfold stemRow at ht
  split at ht
  · cases ht
    exact h
  · extract_lets c hist old rows f size s1 s2 due dst out at ht
    split at ht
    · cases ht
    · split at ht
      · cases ht
      · have h1 : s1.tableOk := tableOk_foldl (fun _ _ => tableOk_visit) h
        have h2 : s2.tableOk := tableOk_ite (tableOk_keep h1) h1
        simp only [Prod.mk.injEq, Option.map_eq_some_iff] at ht
        obtain ⟨⟨x, hx, -, rfl⟩, -⟩ := ht
        refine tableOk_useStem (tableOk_foldl_bind (fun oy y z hz hy => ?_) (fun y hy => ?_) x hx)
        · obtain ⟨u, hu, rfl⟩ := Option.map_eq_some_iff.mp hz
          exact tableOk_stemSat (tableOk_putForJob hu hy)
        · cases hy
          exact h2

theorem tableOk_windowRow {w p e row r r' t b} (ht : windowRow w p e row r s = (some (r', t), b)) (h : s.tableOk) :
    t.tableOk := by
  unfold windowRow at ht
  dsimp only at ht
  split at ht
  · cases ht
    exact h
  · split at ht
    · exact tableOk_stemRow ht h
    · simp only [Prod.mk.injEq, Option.map_eq_some_iff] at ht
      obtain ⟨⟨x, hx, -, rfl⟩, -⟩ := ht
      exact tableOk_putForJob hx h

theorem tableOk_placeRow {w e row ps} (h : s.tableOk) : (placeRow w e row ps s).tableOk := by
  induction ps generalizing s with
  | nil => exact h
  | cons p ps ih =>
    obtain ⟨p, i⟩ := p
    unfold placeRow
    split
    · split
      · next hr =>
        have h' := tableOk_windowRow hr h
        exact ih h'
      · exact tableOk_startPartial h
      · exact tableOk_watchFatal h
    · exact h

theorem tableOk_pixelRow {black raw} (h : s.tableOk) : (pixelRow black raw s).tableOk := by
  unfold pixelRow
  split
  · split
    · exact tableOk_ite h (tableOk_placeRow (tableOk_modCap h))
    · exact h
  · exact h

theorem tableOk_frameComplete (h : s.tableOk) : (frameComplete s).tableOk := by
  unfold frameComplete
  split
  · split
    · exact tableOk_ite h (tableOk_ite (tableOk_watchFatal h) (tableOk_ite (tableOk_inputsDone (tableOk_keepVpix
        (tableOk_foldl (fun _ _ => tableOk_setBerth) (tableOk_foldl (fun _ _ => tableOk_putHbrLines) h))))
        (tableOk_foldl (fun _ _ => tableOk_setBerth) (tableOk_foldl (fun _ _ => tableOk_putHbrLines) h))))
    · exact h
  · exact h

theorem tableOk_sentinelFrame {rows} (h : s.tableOk) : (sentinelFrame rows s).tableOk := by
  unfold sentinelFrame
  refine tableOk_ite ?_ h
  dsimp only
  split
  · exact tableOk_of_watches h rfl
  · exact tableOk_triggerAll (tableOk_of_watches h rfl)

/-! ### Pins (Machine/Gpio.lean) -/

theorem tableOk_applied {addr v} {f : State → State} (hf : ∀ x : State, x.tableOk → (f x).tableOk) (h : s.tableOk) :
    (applied addr v f s).tableOk := by
  obtain hs | ⟨rest, -, hs⟩ := applied_cases addr v f s
  · rwa [hs]
  · rw [hs]
    exact hf _ h

theorem tableOk_registerIrq (h : s.tableOk) : (registerIrq s).tableOk := h

theorem tableOk_irqPulseEnd (h : s.tableOk) : (irqPulseEnd s).tableOk := h

theorem tableOk_pinSample {pads rise fall} (h : s.tableOk) : (pinSample pads rise fall s).tableOk :=
  tableOk_triggerAll h

theorem tableOk_writePin {p v} (h : s.tableOk) : (writePin p v s).tableOk := tableOk_ite h h

theorem tableOk_writePilsel {v} (h : s.tableOk) : (writePilsel v s).tableOk := h

theorem tableOk_writePilcfg {v} (h : s.tableOk) : (writePilcfg v s).tableOk := h

theorem tableOk_writeGpioOut {v} (h : s.tableOk) : (writeGpioOut v s).tableOk := h

theorem tableOk_writeGpioOe {v} (h : s.tableOk) : (writeGpioOe v s).tableOk := h

theorem tableOk_clearPilEvents {v} (h : s.tableOk) : (clearPilEvents v s).tableOk := h

theorem tableOk_clearAlarmLines {v} (h : s.tableOk) : (clearAlarmLines v s).tableOk := h

/-! ### The OTP (Machine/Otp.lean) -/

theorem tableOk_otpCheck (h : s.tableOk) : (otpCheck s).tableOk := h

theorem tableOk_faultBlink (h : s.tableOk) : (faultBlink s).tableOk := by
  unfold faultBlink
  split <;> exact h

theorem tableOk_setLocks (h : s.tableOk) : (setLocks s).tableOk := h

theorem tableOk_clearKeys (h : s.tableOk) : (clearKeys s).tableOk := h

theorem tableOk_enterLifecycle {t} (h : s.tableOk) : (enterLifecycle t s).tableOk :=
  tableOk_ite (tableOk_clearKeys (tableOk_setLocks h)) (tableOk_setLocks h)

theorem tableOk_otpRead {a} (h : s.tableOk) : (otpRead a s).tableOk :=
  tableOk_ite h (tableOk_ite h (tableOk_ite h (tableOk_ite h
    h)))

theorem tableOk_otpReadAddr {v} (h : s.tableOk) : (otpReadAddr v s).tableOk := tableOk_ite h (tableOk_otpRead h)

theorem tableOk_otpEnd {code word mailbox} (h : s.tableOk) : (otpEnd code word mailbox s).tableOk :=
  tableOk_ite (tableOk_mbxComplete h) h

theorem tableOk_otpNext {r} (h : s.tableOk) : (otpNext r s).tableOk := by
  unfold otpNext
  split
  · refine tableOk_otpEnd ?_
    split
    · exact tableOk_enterLifecycle h
    · exact h
  · exact tableOk_ite h (tableOk_otpEnd h)

theorem tableOk_otpWordProgrammed {normal high} (h : s.tableOk) : (otpWordProgrammed normal high s).tableOk := by
  unfold otpWordProgrammed
  split
  · exact tableOk_ite (tableOk_takeDelayed (tableOk_ite (tableOk_otpRead h) h))
      (tableOk_ite (tableOk_otpNext (tableOk_ite (tableOk_otpRead h) h)) (tableOk_otpEnd (tableOk_ite
      (tableOk_otpRead h) h)))
  · exact h

theorem tableOk_lifecycleAdvance {args mailbox} (h : s.tableOk) : (lifecycleAdvance args mailbox s).tableOk :=
  tableOk_ite (tableOk_otpEnd h) (tableOk_ite (tableOk_otpEnd h) (tableOk_ite (tableOk_otpEnd h) (tableOk_ite
    (tableOk_otpEnd h) (tableOk_ite
    (tableOk_otpEnd h) (tableOk_ite (tableOk_otpEnd h) (tableOk_otpNext h))))))

theorem tableOk_programRollback {target mailbox} (h : s.tableOk) : (programRollback target mailbox s).tableOk :=
  tableOk_ite (tableOk_otpEnd h) (tableOk_ite (tableOk_otpEnd h) (tableOk_otpNext h))

theorem tableOk_otpProgram {args mailbox} (h : s.tableOk) : (otpProgram args mailbox s).tableOk := by
  unfold otpProgram
  refine tableOk_ite (tableOk_otpEnd h) (tableOk_ite (tableOk_otpEnd h) (tableOk_ite (tableOk_otpEnd h) (tableOk_ite
    (tableOk_otpEnd h) (tableOk_ite
    (tableOk_programRollback h) ?_))))
  split
  · exact tableOk_otpEnd h
  · exact tableOk_ite (tableOk_otpEnd h) (tableOk_otpNext h)

/-! ### The watch table (Machine/Table.lean) -/

theorem tableOk_validateWatch {n} (h : s.tableOk) : (validateWatch n s).tableOk := by
  unfold validateWatch
  split
  · split
    · exact tableOk_faultWatch h
    · exact tableOk_modWatch (fun _ => rfl) h
  · exact h

theorem isChain_of_numsRise (es : List WatchEntry) (h : numsRise es = true) : es.IsChain (fun a b => a.num < b.num) := by
  induction es using numsRise.induct with
  | case1 a b t ih =>
    simp only [numsRise, Bool.and_eq_true, decide_eq_true_eq] at h
    exact .cons_cons h.1 (ih h.2)
  | case2 es hes =>
    match es with
    | [] => exact .nil
    | [a] => exact .singleton a
    | a :: b :: t => exact absurd rfl (hes a b t)

/-- Entries in ascending number make a table in order, whichever of them are valid (R40, R44, R45). -/
theorem pairwise_table {es : List WatchEntry} (h : numsRise es = true) (p : WatchEntry → Bool) :
    ((es.filter p).map (fun e => ({ entry := e } : Watch))).Pairwise (fun a b => a.entry.num < b.entry.num) :=
  List.pairwise_map.mpr ((List.isChain_iff_pairwise.mp (isChain_of_numsRise es h)).filter p)

theorem tableOk_buildTable (h : s.tableOk) : (buildTable s).tableOk := by
  unfold buildTable
  split
  · exact tableOk_raiseAlarm h
  · dsimp only
    split
    · exact tableOk_raiseAlarm h
    · next hes =>
      simp only [Bool.or_eq_true, Bool.not_eq_true', not_or, Bool.not_eq_false] at hes
      exact tableOk_foldl (fun _ _ h => tableOk_ite (tableOk_buildAdapt h) h)
        (tableOk_foldl (fun _ _ => tableOk_validateWatch) (pairwise_table hes.2 _))

/-! ### The ADC (Machine/Adc.lean) -/

theorem tableOk_modAdcCap {f} (h : s.tableOk) : (modAdcCap f s).tableOk := h

theorem tableOk_bandgapFails (h : s.tableOk) : (bandgapFails s).tableOk := h

theorem tableOk_calEnd {code} (h : s.tableOk) : (calEnd code s).tableOk := tableOk_calComplete h

theorem tableOk_bandgapCheck {sum} (h : s.tableOk) : (bandgapCheck sum s).tableOk := by
  unfold bandgapCheck
  refine tableOk_ite ?_ h
  split
  · exact tableOk_ite h (tableOk_ite (tableOk_modAdcCap h) (tableOk_startPartial (tableOk_bandgapFails h)))
  · exact tableOk_ite h (tableOk_ite h (tableOk_calEnd (tableOk_bandgapFails h)))
  · exact h

theorem tableOk_sequencerStart (h : s.tableOk) : (sequencerStart s).tableOk := by
  unfold sequencerStart
  split
  · exact tableOk_ite (tableOk_modAdcCap h) h
  · exact h

theorem tableOk_adcInputs {w} (h : s.tableOk) : (adcInputs w s).tableOk := by
  unfold adcInputs
  split
  · refine tableOk_ite ?_ h
    dsimp only
    split
    · exact tableOk_ite (tableOk_inputsDone h) h
    · exact h
  · exact h

theorem tableOk_blockComplete {chain first clocks} (h : s.tableOk) : (blockComplete chain first clocks s).tableOk := by
  unfold blockComplete
  split
  · dsimp only
    split
    · refine tableOk_ite h ?_
      split
      · exact tableOk_watchFatal h
      · next hp =>
        have hp := tableOk_putForJob hp h
        refine tableOk_ite (tableOk_watchFatal ?_) (tableOk_adcInputs (tableOk_ite ?_ ?_)) <;>
          exact tableOk_of_watches hp rfl
    · exact h
  · exact h

theorem tableOk_adcOverrun (h : s.tableOk) : (adcOverrun s).tableOk := by
  unfold adcOverrun
  split
  · exact tableOk_ite (tableOk_startPartial h) h
  · exact h

theorem tableOk_adcReleased (h : s.tableOk) : (adcReleased s).tableOk := by
  unfold adcReleased
  dsimp only
  split
  · exact tableOk_watchFatalAt h
  · exact h

theorem tableOk_calMeasured {sum ovr} (h : s.tableOk) : (calMeasured sum ovr s).tableOk := by
  unfold calMeasured
  split
  · refine tableOk_ite h (tableOk_ite (tableOk_calEnd h) ?_)
    split
    · exact tableOk_ite (tableOk_calEnd h) (tableOk_calEnd h)
    · split
      · exact tableOk_calEnd h
      · split
        · exact tableOk_ite (tableOk_calEnd h) (tableOk_calEnd h)
        · exact tableOk_calEnd h
  · exact h

theorem tableOk_calBegin {p applied} (h : s.tableOk) : (calBegin p applied s).tableOk := tableOk_needXref h

theorem tableOk_calZero {args} (h : s.tableOk) : (calZero args s).tableOk := by
  unfold calZero
  split
  · exact tableOk_calBegin h
  · exact tableOk_calComplete h

theorem tableOk_calFull {args} (h : s.tableOk) : (calFull args s).tableOk := by
  unfold calFull
  split
  · exact tableOk_ite (tableOk_calComplete h) (tableOk_ite (tableOk_calComplete h) (tableOk_calBegin h))
  · exact tableOk_calComplete h

theorem tableOk_calCommit {args} (h : s.tableOk) : (calCommit args s).tableOk :=
  tableOk_ite (tableOk_calComplete h) (tableOk_ite (tableOk_calComplete h) (tableOk_requestCommit h))

end
end Sys2Proof.Machine
end

