-- ==== Sys2Proof/Proofs/TableOrderPorts.lean ====
section
/-! PROOF. Proofs/TableOrderPorts.lean: the order of the watch table under the packets of the Causeway, boot, the ports and the tick. -/
namespace Sys2Proof.Machine
open Sys2Proof

section
variable {s t : State}

/-! ### The Causeway (Machine/Causeway.lean) -/

theorem tableOk_portReset {p} (h : s.tableOk) : (portReset p s).tableOk :=
  tableOk_ite h (tableOk_startTraining (tableOk_startPartial h))

theorem tableOk_completeRemote {c i q} (h : s.tableOk) : (completeRemote c i q s).tableOk :=
  tableOk_ite (tableOk_settle (tableOk_giveStatus (tableOk_ite (tableOk_modCore (tableOk_removePend h))
    (tableOk_removePend h)))) (tableOk_completeDma h)

theorem tableOk_loseOne {c i q} (h : s.tableOk) : (loseOne c i q s).tableOk := by
  have hp : (removePend c i s).tableOk := tableOk_removePend h
  have hw : (if q.op = 0xD then (removePend c i s).modCore c closeWindow else removePend c i s).tableOk :=
    tableOk_ite (tableOk_modCore hp) hp
  exact tableOk_ite (tableOk_settle (tableOk_ite (tableOk_giveStatus hw) (tableOk_coreExceptionAt hw)))
    (tableOk_settle (tableOk_coreExceptionAt hp))

theorem tableOk_loseOps {c chip n} (h : s.tableOk) : (loseOps c chip n s).tableOk := by
  induction n generalizing s with
  | zero => exact h
  | succ n ih =>
    unfold loseOps
    split
    · exact ih (tableOk_loseOne h)
    · exact h

theorem tableOk_endDoubt {c chip} (h : s.tableOk) : (endDoubt c chip s).tableOk :=
  tableOk_ite (tableOk_settle (tableOk_loseOps h)) h

theorem tableOk_clearMarkers {chips} (h : s.tableOk) : (clearMarkers chips s).tableOk := by
  unfold clearMarkers
  refine tableOk_foldl (fun _ _ h => ?_) h
  split
  · exact tableOk_ite (tableOk_settle (tableOk_modCore h)) h
  · exact h

theorem tableOk_taintChips {chips} (h : s.tableOk) : (taintChips chips s).tableOk := by
  have h1 : (s.modCores coreIds
    (fun k => { k with tainted := addTaint k.written chips k.tainted })).tableOk := tableOk_modCores h
  refine tableOk_of_nums ?_ h1
  rw [taintChips, List.map_map]
  rfl

theorem tableOk_doubtChips {chips} (h : s.tableOk) : (doubtChips chips s).tableOk := h

theorem tableOk_sendFlushes (h : s.tableOk) : (sendFlushes s).tableOk :=
  tableOk_foldl (fun _ _ h => tableOk_ite (tableOk_sendPacket (tableOk_of_watches h rfl)) h) h

theorem tableOk_learnChange {chips} (h : s.tableOk) : (learnChange chips s).tableOk :=
  tableOk_sendFlushes (tableOk_clearMarkers (tableOk_doubtChips (tableOk_taintChips h)))

theorem tableOk_sendNotice {p upper epoch} (h : s.tableOk) : (sendNotice p upper epoch s).tableOk :=
  tableOk_ite (tableOk_enqueue h) h

theorem tableOk_epochChanged {p e} (h : s.tableOk) : (epochChanged p e s).tableOk :=
  tableOk_learnChange (tableOk_sendNotice (tableOk_logEntry (tableOk_returnUnits (tableOk_setPort h))))

theorem tableOk_agree {p t} (h : s.tableOk) : (agree p t s).tableOk := by
  unfold agree
  dsimp only
  split
  · exact tableOk_ite (tableOk_raiseAlarmAt (tableOk_setPort h)) (tableOk_control (tableOk_setPort
      h))
  · exact tableOk_ite h (tableOk_control (tableOk_setPort h))

theorem tableOk_ts1Received {p t} (h : s.tableOk) : (ts1Received p t s).tableOk :=
  tableOk_ite (tableOk_ite (tableOk_agree (tableOk_modPort (tableOk_beginPort h))) (tableOk_modPort (tableOk_beginPort h)))
    (tableOk_beginPort h)

theorem tableOk_ts2Received {p t} (h : s.tableOk) : (ts2Received p t s).tableOk := by
  unfold ts2Received
  dsimp only
  split
  · exact tableOk_ite (tableOk_modPort (tableOk_beginPort h)) (tableOk_beginPort h)
  · exact tableOk_beginPort h

theorem tableOk_ts1Send {p} (h : s.tableOk) : (ts1Send p s).tableOk := by
  unfold ts1Send
  refine tableOk_ite ?_ (tableOk_beginPort h)
  dsimp only
  split
  · exact tableOk_control (tableOk_beginPort h)
  · exact tableOk_control (tableOk_beginPort h)

theorem tableOk_lanePllLocked {p} (h : s.tableOk) : (lanePllLocked p s).tableOk := tableOk_ite (tableOk_modPort h) h

theorem tableOk_receiverAligned {p} (h : s.tableOk) : (receiverAligned p s).tableOk := tableOk_ite (tableOk_modPort h) h

theorem tableOk_mismatch (h : s.tableOk) : (mismatch s).tableOk := tableOk_raiseAlarmAt h

theorem tableOk_takeNumber {n} (h : s.tableOk) : (takeNumber n s).tableOk :=
  tableOk_ite (tableOk_mismatch h) h

theorem tableOk_takeLength {n} (h : s.tableOk) : (takeLength n s).tableOk :=
  tableOk_ite (tableOk_mismatch h) h

theorem tableOk_sendChain {p n} (h : s.tableOk) : (sendChain p n s).tableOk := tableOk_ite (tableOk_enqueue h) h

theorem tableOk_releaseWake (h : s.tableOk) : (releaseWake s).tableOk := tableOk_ite h h

theorem tableOk_linkTrained {p} (h : s.tableOk) : (linkTrained p s).tableOk := by
  unfold linkTrained
  dsimp only
  split
  · refine tableOk_ite (tableOk_pumpPort (tableOk_sendFlushes (tableOk_releaseWake ?_))) (tableOk_beginPort h)
    split
    · refine tableOk_ite (tableOk_ite (tableOk_forgiveUnits (tableOk_modPort ?_)) (tableOk_epochChanged (tableOk_forgiveUnits
        (tableOk_modPort
        ?_)))) (tableOk_sendChain (tableOk_takeLength (tableOk_ite (tableOk_forgiveUnits (tableOk_modPort ?_))
          (tableOk_epochChanged
        (tableOk_forgiveUnits (tableOk_modPort ?_))))))
      · split
        · exact tableOk_takeNumber (tableOk_beginPort h)
        · exact tableOk_beginPort h
      · split
        · exact tableOk_takeNumber (tableOk_beginPort h)
        · exact tableOk_beginPort h
      · split
        · exact tableOk_takeNumber (tableOk_beginPort h)
        · exact tableOk_beginPort h
      · split
        · exact tableOk_takeNumber (tableOk_beginPort h)
        · exact tableOk_beginPort h
    · refine tableOk_ite (tableOk_forgiveUnits (tableOk_modPort ?_)) (tableOk_epochChanged (tableOk_forgiveUnits
        (tableOk_modPort ?_)))
      · split
        · exact tableOk_takeNumber (tableOk_beginPort h)
        · exact tableOk_beginPort h
      · split
        · exact tableOk_takeNumber (tableOk_beginPort h)
        · exact tableOk_beginPort h
  · exact tableOk_beginPort h

theorem tableOk_trainingTimeout {p} (h : s.tableOk) : (trainingTimeout p s).tableOk :=
  tableOk_ite (tableOk_raiseAlarmAt (tableOk_modPort h)) h

theorem tableOk_trainingRetry {p} (h : s.tableOk) : (trainingRetry p s).tableOk :=
  tableOk_ite (tableOk_startTraining (tableOk_beginPort h)) h

theorem tableOk_ackReceived {p q} (h : s.tableOk) : (ackReceived p q s).tableOk :=
  tableOk_ite (tableOk_pumpPort (tableOk_modPort (tableOk_beginPort h))) (tableOk_beginPort h)

theorem tableOk_retransmit {p} (h : s.tableOk) : (retransmit p s).tableOk :=
  tableOk_ite (tableOk_ite (tableOk_portReset (tableOk_modPort (tableOk_beginPort h))) (tableOk_modPort
    (tableOk_beginPort h))) (tableOk_beginPort
    h)

theorem tableOk_creditReceived {p v n} (h : s.tableOk) : (creditReceived p v n s).tableOk :=
  tableOk_ite (tableOk_pumpPort (tableOk_modPort (tableOk_beginPort h))) (tableOk_beginPort h)

theorem tableOk_sleepReq {p} (h : s.tableOk) : (sleepReq p s).tableOk :=
  tableOk_ite (tableOk_ite (tableOk_portReset (tableOk_beginPort h)) (tableOk_ite (tableOk_modPort (tableOk_control
    (tableOk_beginPort h)))
    (tableOk_control (tableOk_beginPort h)))) (tableOk_beginPort h)

theorem tableOk_sleepAck {p} (h : s.tableOk) : (sleepAck p s).tableOk :=
  tableOk_ite (tableOk_ite (tableOk_portReset (tableOk_beginPort h)) (tableOk_ite (tableOk_modPort (tableOk_beginPort h))
    (tableOk_needPort
    (tableOk_modPort (tableOk_beginPort h))))) (tableOk_beginPort h)

theorem tableOk_sleepIdle {p} (h : s.tableOk) : (sleepIdle p s).tableOk :=
  tableOk_ite (tableOk_control (tableOk_beginPort h)) (tableOk_beginPort h)

theorem tableOk_sendAck {p} (h : s.tableOk) : (sendAck p s).tableOk := tableOk_control (tableOk_modPort h)

theorem tableOk_ackDeadline {p} (h : s.tableOk) : (ackDeadline p s).tableOk :=
  tableOk_ite (tableOk_sendAck (tableOk_beginPort h)) (tableOk_beginPort h)

theorem tableOk_sendNak {p} (h : s.tableOk) : (sendNak p s).tableOk := tableOk_ite h (tableOk_control (tableOk_modPort h))

theorem tableOk_crcError {p} (h : s.tableOk) : (crcError p s).tableOk :=
  tableOk_ite (tableOk_sendNak (tableOk_modPort (tableOk_beginPort h))) (tableOk_beginPort h)

theorem tableOk_codeError {p isControl inWindow} (h : s.tableOk) : (codeError p isControl inWindow s).tableOk :=
  tableOk_ite (tableOk_ite (tableOk_modPort (tableOk_beginPort h)) (tableOk_ite (tableOk_portReset (tableOk_modPort
    (tableOk_modPort
    (tableOk_beginPort h)))) (tableOk_ite (tableOk_sendNak (tableOk_modPort (tableOk_modPort (tableOk_beginPort h))))
      (tableOk_modPort
    (tableOk_modPort (tableOk_beginPort h)))))) (tableOk_beginPort h)

theorem tableOk_laneLockLoss {p} (h : s.tableOk) : (laneLockLoss p s).tableOk :=
  tableOk_ite (tableOk_portReset (tableOk_beginPort h)) h

theorem tableOk_transitTimeout {p} (h : s.tableOk) : (transitTimeout p s).tableOk := by
  unfold transitTimeout
  split
  · exact tableOk_returnUnits (tableOk_beginPort (tableOk_beginPort (tableOk_modPort h)))
  · exact h

theorem tableOk_flushTimeout {c chip} (h : s.tableOk) : (flushTimeout c chip s).tableOk := tableOk_endDoubt h

theorem tableOk_cwWake {level} (h : s.tableOk) : (cwWake level s).tableOk :=
  tableOk_ite h (tableOk_ite (tableOk_startPorts (tableOk_needXref (tableOk_wake h))) h)

theorem tableOk_acceptPacket {p k} (h : s.tableOk) : (acceptPacket p k s).tableOk :=
  tableOk_ite (tableOk_sendAck (tableOk_modPort h)) (tableOk_modPort h)

theorem tableOk_receive {p type seq epoch k} {f : Packet → State → State} (hf : ∀ k x, x.tableOk → (f k x).tableOk)
    (h : s.tableOk) : (receive p type seq epoch k f s).tableOk := by
  have hb := tableOk_beginPort (p := p) h
  have ha := fun k => tableOk_acceptPacket (p := p) (k := k) hb
  exact tableOk_ite hb (tableOk_ite (tableOk_ite (tableOk_returnCredit (hf _ _ (ha _)))
    (tableOk_ite (tableOk_enqueue (tableOk_ite (ha _) (tableOk_beginPort (ha _)))) (tableOk_returnCredit (ha _))))
    (tableOk_ite (tableOk_sendAck hb) (tableOk_sendNak hb)))

theorem tableOk_answer {k type status} (h : s.tableOk) : (answer k type status s).tableOk := tableOk_sendPacket h

theorem tableOk_refuse {k type} (h : s.tableOk) : (refuse k type s).tableOk := tableOk_answer h

theorem tableOk_performBurst {k off ls} (h : s.tableOk) : (performBurst k off ls s).tableOk :=
  tableOk_ite (tableOk_answer (tableOk_putHbrLines h)) (tableOk_refuse h)

theorem tableOk_wrPacket {k} (h : s.tableOk) : (wrPacket k s).tableOk := by
  unfold wrPacket
  refine tableOk_ite h (tableOk_ite (tableOk_performBurst h) ?_)
  split
  · exact tableOk_performBurst h
  · exact h

theorem tableOk_refusePoisoned {k type line} (h : s.tableOk) : (refusePoisoned k type line s).tableOk :=
  tableOk_refuse (tableOk_logEntry h)

theorem tableOk_wrwPacket {k} (h : s.tableOk) : (wrwPacket k s).tableOk :=
  tableOk_ite (tableOk_refuse h) (tableOk_ite (tableOk_refusePoisoned h) (tableOk_answer (tableOk_putHbr h)))

theorem tableOk_rdPacket {k} (h : s.tableOk) : (rdPacket k s).tableOk := by
  unfold rdPacket
  refine tableOk_ite (tableOk_refuse h) ?_
  split
  · exact tableOk_refusePoisoned h
  · exact tableOk_ite (tableOk_sendPacket (tableOk_visit h)) (tableOk_sendPacket (tableOk_sendPacket (tableOk_visit h)))

theorem tableOk_rdwPacket {k} (h : s.tableOk) : (rdwPacket k s).tableOk :=
  tableOk_ite (tableOk_refuse h) (tableOk_ite (tableOk_refusePoisoned h) (tableOk_sendPacket (tableOk_visit h)))

theorem tableOk_markerPacket {k} (h : s.tableOk) : (markerPacket k s).tableOk :=
  tableOk_ite (tableOk_answer (tableOk_foldl (fun _ _ => tableOk_settle) (tableOk_storeMarker h))) (tableOk_refuse h)

theorem tableOk_flushPacket {k} (h : s.tableOk) : (flushPacket k s).tableOk := tableOk_answer h

theorem tableOk_answered {c i q txn} (h : s.tableOk) : (answered c i q txn s).tableOk :=
  have h1 := tableOk_setCore h
  tableOk_ite (tableOk_completeRemote h1) h1

theorem tableOk_refusedAt {c i q} (h : s.tableOk) : (refusedAt c i q s).tableOk :=
  tableOk_settle (tableOk_coreExceptionAt (tableOk_removePend h))

theorem tableOk_ackPacket {k} (h : s.tableOk) : (ackPacket k s).tableOk := by
  unfold ackPacket
  split
  · exact tableOk_ite (tableOk_answered h) (tableOk_refusedAt h)
  · exact h

theorem tableOk_rdDataPacket {k} (h : s.tableOk) : (rdDataPacket k s).tableOk := by
  unfold rdDataPacket
  split
  · exact tableOk_ite (tableOk_refusedAt h) (tableOk_ite (tableOk_answered (tableOk_modCore h)) (tableOk_modCore h))
  · exact h

theorem tableOk_rdwDataPacket {k} (h : s.tableOk) : (rdwDataPacket k s).tableOk := by
  unfold rdwDataPacket
  split
  · refine tableOk_ite (tableOk_refusedAt h) (tableOk_answered ?_)
    split
    · exact tableOk_modCore h
    · exact h
  · exact h

theorem tableOk_flushDonePacket {k} (h : s.tableOk) : (flushDonePacket k s).tableOk := tableOk_ite (tableOk_endDoubt h) h

theorem tableOk_msgPacket {k} (h : s.tableOk) : (msgPacket k s).tableOk := tableOk_triggerAll h

theorem tableOk_noticePacket {p k} (h : s.tableOk) : (noticePacket p k s).tableOk := tableOk_learnChange (tableOk_sendNotice h)

theorem tableOk_chainPacket {p k} (h : s.tableOk) : (chainPacket p k s).tableOk := by
  unfold chainPacket
  dsimp only
  split
  · exact tableOk_ite (tableOk_sendChain (tableOk_takeLength h)) (tableOk_sendChain (tableOk_takeLength h))
  · exact tableOk_sendChain (tableOk_takeLength h)

theorem tableOk_portReleased {p} (h : s.tableOk) : (portReleased p s).tableOk :=
  tableOk_startTraining (tableOk_update (tableOk_forgiveUnits (tableOk_modPort (tableOk_beginPort (tableOk_update h rfl)))) rfl)

/-! ### Units in reset (Machine/Units.lean) -/

theorem tableOk_coreReleased {c} (h : s.tableOk) : (coreReleased c s).tableOk := by
  unfold coreReleased
  extract_lets s1 s2 _ s3
  have h3 : s3.tableOk := tableOk_modCore (tableOk_drainWords h)
  refine tableOk_ite h3 ?_
  split
  · exact tableOk_finishStop h3
  · exact h3

theorem tableOk_partialResetRelease {u} (h : s.tableOk) : (partialResetRelease u s).tableOk := by
  unfold partialResetRelease
  refine tableOk_ite ?_ h
  split
  · exact tableOk_coreReleased h
  · exact tableOk_stemReleased h
  · exact tableOk_adcReleased h
  · exact tableOk_portReleased h

theorem tableOk_drainTimeout {u} (h : s.tableOk) : (drainTimeout u s).tableOk := tableOk_ite (tableOk_chipFatal h) h

theorem tableOk_fatalError {code} (h : s.tableOk) : (fatalError code s).tableOk := tableOk_ite (tableOk_chipFatal h) h

theorem tableOk_scrubPoison {l} (h : s.tableOk) : (scrubPoison l s).tableOk :=
  tableOk_ite h (tableOk_ite (tableOk_chipFatal (tableOk_logEntry h)) (tableOk_ite (tableOk_logEntry h)
    (tableOk_foldl (fun _ _ h => tableOk_ite h (tableOk_faultWatch (tableOk_watchFatalAt h))) (tableOk_raiseAlarm
      (tableOk_logEntry
    h)))))

theorem tableOk_scrub {n single double} (h : s.tableOk) : (scrub n single double s).tableOk :=
  tableOk_ite (tableOk_foldl (fun _ _ => tableOk_scrubPoison) h) h

/-! ### Boot (Machine/Boot.lean) -/

theorem tableOk_failBoot {code} (h : s.tableOk) : (failBoot code s).tableOk :=
  tableOk_neapEntry (tableOk_release (tableOk_logEntry (tableOk_raiseAlarmAt (tableOk_setLocks h))))

theorem tableOk_toStage {st} (h : s.tableOk) : (toStage st s).tableOk := h

theorem tableOk_softReset {v} (h : s.tableOk) : (softReset v s).tableOk := by
  unfold softReset
  refine tableOk_ite ?_ h
  split <;> exact h

theorem tableOk_softTaken (h : s.tableOk) : (softTaken s).tableOk := tableOk_ite (tableOk_takeDelayed h) h

theorem tableOk_thermalEnd {temp} (h : s.tableOk) : (thermalEnd temp s).tableOk := tableOk_ite h h

theorem tableOk_resetRelease {pads} (h : s.tableOk) : (resetRelease pads s).tableOk :=
  tableOk_ite (tableOk_ite (tableOk_otpCheck h) (tableOk_ite (tableOk_otpCheck h)
    (tableOk_raiseAlarm (tableOk_otpCheck h)))) h

theorem tableOk_lfSwitch (h : s.tableOk) : (lfSwitch s).tableOk := tableOk_ite h h

theorem tableOk_lfTimeout (h : s.tableOk) : (lfTimeout s).tableOk := tableOk_ite h h

theorem tableOk_lfFall (h : s.tableOk) : (lfFall s).tableOk := tableOk_ite h h

theorem tableOk_pllLock (h : s.tableOk) : (pllLock s).tableOk := tableOk_ite h h

theorem tableOk_loadKeys (h : s.tableOk) : (loadKeys s).tableOk := tableOk_ite h h

theorem tableOk_restartWatchdog (h : s.tableOk) : (restartWatchdog s).tableOk := h

theorem tableOk_copiedBytes {n} (h : s.tableOk) : (copiedBytes n s).tableOk :=
  tableOk_ite (tableOk_restartWatchdog h) h

theorem tableOk_railWaitEnd (h : s.tableOk) : (railWaitEnd s).tableOk :=
  tableOk_ite (tableOk_ite (tableOk_failBoot (tableOk_loadKeys h)) (tableOk_ite (tableOk_toStage (tableOk_loadKeys
    h)) (tableOk_toStage (tableOk_loadKeys h)))) h

theorem tableOk_flashProbe {r} (h : s.tableOk) : (flashProbe r s).tableOk :=
  tableOk_ite (tableOk_ite (tableOk_failBoot h) (tableOk_ite (tableOk_failBoot h) (tableOk_ite (tableOk_failBoot h)
    (tableOk_toStage h)))) h

theorem tableOk_manifestGood {b off imageLen slot} (h : s.tableOk) : (manifestGood b off imageLen slot s).tableOk :=
  tableOk_ite (tableOk_toStage h) (tableOk_failBoot h)

theorem tableOk_manifestFirst {bytes} (h : s.tableOk) : (manifestFirst bytes s).tableOk := by
  unfold manifestFirst
  split
  · refine tableOk_ite ?_ h
    dsimp only
    split
    · exact tableOk_manifestGood h
    · exact h
  · exact h

theorem tableOk_manifestSecond {bytes} (h : s.tableOk) : (manifestSecond bytes s).tableOk := by
  unfold manifestSecond
  split
  · refine tableOk_ite ?_ h
    dsimp only
    split
    · exact tableOk_manifestGood h
    · exact tableOk_failBoot h
  · exact h

theorem tableOk_takeOwnerKeys {b} (h : s.tableOk) : (takeOwnerKeys b s).tableOk :=
  tableOk_ite (tableOk_raiseAlarm h) h

theorem tableOk_rollbackCheck (h : s.tableOk) : (rollbackCheck s).tableOk := by
  unfold rollbackCheck
  split
  · exact tableOk_ite h (tableOk_ite (tableOk_failBoot (tableOk_toStage h)) (tableOk_toStage h))
  · exact h

theorem tableOk_nextRecord (h : s.tableOk) : (nextRecord s).tableOk := tableOk_rollbackCheck h

theorem tableOk_acceptRecord {m e bytes} (h : s.tableOk) : (acceptRecord m e bytes s).tableOk := by
  unfold acceptRecord
  refine tableOk_ite (tableOk_failBoot h) ?_
  split
  · exact tableOk_nextRecord (tableOk_raiseAlarm h)
  · exact tableOk_ite (tableOk_failBoot h) (tableOk_ite (tableOk_nextRecord (tableOk_ite (tableOk_takeOwnerKeys h)
      (tableOk_raiseAlarm h))) (tableOk_nextRecord (tableOk_ite (tableOk_ite h
      h) (tableOk_putHbrLines (tableOk_ite h h)))))

theorem tableOk_recordCopy {bytes} (h : s.tableOk) : (recordCopy bytes s).tableOk := by
  unfold recordCopy
  split
  · exact tableOk_ite (tableOk_ite (tableOk_failBoot h) (tableOk_ite (tableOk_acceptRecord (tableOk_copiedBytes h))
      (tableOk_copiedBytes h))) h
  · exact h

theorem tableOk_recordRecopy {bytes} (h : s.tableOk) : (recordRecopy bytes s).tableOk := by
  unfold recordRecopy
  split
  · exact tableOk_ite (tableOk_ite (tableOk_acceptRecord (tableOk_copiedBytes h)) (tableOk_failBoot (tableOk_copiedBytes h))) h
  · exact h

theorem tableOk_imageRegisters (h : s.tableOk) : (imageRegisters s).tableOk := by
  unfold imageRegisters
  split <;> exact h

theorem tableOk_applyPatch (h : s.tableOk) : (applyPatch s).tableOk := by
  unfold applyPatch
  split
  · exact tableOk_ite h (tableOk_raiseAlarm h)
  · exact h

theorem tableOk_deriveTagKeys (h : s.tableOk) : (deriveTagKeys s).tableOk := by
  unfold deriveTagKeys
  split <;> exact h

theorem tableOk_applyPower (h : s.tableOk) : (applyPower s).tableOk := by
  unfold applyPower
  split
  · exact h
  · exact tableOk_raiseAlarm h

theorem tableOk_applyLink (h : s.tableOk) : (applyLink s).tableOk := by
  unfold applyLink
  split
  · exact tableOk_ite (tableOk_ite (tableOk_takeNumber h) h) (tableOk_needXref (tableOk_ite
      (tableOk_takeNumber h) h))
  · exact h

theorem tableOk_applyPins (h : s.tableOk) : (applyPins s).tableOk := by
  unfold applyPins
  split
  · exact tableOk_of_watches h rfl
  · exact tableOk_of_watches h rfl

theorem tableOk_firmwareStart (h : s.tableOk) : (firmwareStart s).tableOk :=
  tableOk_ite (tableOk_ite (tableOk_failBoot (tableOk_toStage (tableOk_imageRegisters (tableOk_setLocks h))))
    (tableOk_neapEntry (tableOk_toStage
    (tableOk_release (tableOk_ite (tableOk_raiseAlarm (tableOk_applyPins (tableOk_applyLink (tableOk_applyPower
      (tableOk_buildTable
    (tableOk_toStage (tableOk_deriveTagKeys (tableOk_strandRecovery (tableOk_applyPatch (tableOk_toStage (tableOk_imageRegisters
    (tableOk_setLocks h)))))))))))) (tableOk_applyPins (tableOk_applyLink (tableOk_applyPower (tableOk_buildTable
      (tableOk_toStage
    (tableOk_deriveTagKeys (tableOk_strandRecovery (tableOk_applyPatch (tableOk_toStage (tableOk_imageRegisters
      (tableOk_setLocks
    h)))))))))))))))) h

/-! ### The Quay (Machine/Quay.lean) -/

theorem tableOk_clearAlarm {v} (h : s.tableOk) : (clearAlarm v s).tableOk := h

theorem tableOk_selectLog {v} (h : s.tableOk) : (selectLog v s).tableOk := h

theorem tableOk_popHead (h : s.tableOk) : (popHead s).tableOk := by
  unfold popHead
  split <;> exact h

theorem tableOk_writePop {v} (h : s.tableOk) : (writePop v s).tableOk := tableOk_ite (tableOk_popHead h) h

theorem tableOk_writeIrq {v} (h : s.tableOk) : (writeIrq v s).tableOk := h

theorem tableOk_clearIrq {v} (h : s.tableOk) : (clearIrq v s).tableOk := h

theorem tableOk_writeMbxCmd {v} (h : s.tableOk) : (writeMbxCmd v s).tableOk :=
  have h1 := tableOk_wake h
  tableOk_ite h1 h1

theorem tableOk_writeMbxArg {n v} (h : s.tableOk) : (writeMbxArg n v s).tableOk := h

theorem tableOk_clearDropped {v} (h : s.tableOk) : (clearDropped v s).tableOk := tableOk_ite h h

theorem tableOk_writeTideCtrl {v} (h : s.tableOk) : (writeTideCtrl v s).tableOk := tableOk_applyStep h

theorem tableOk_clearMismatch {v} (h : s.tableOk) : (clearMismatch v s).tableOk := tableOk_ite h h

theorem tableOk_writeAlarmCfg {n v} (h : s.tableOk) : (writeAlarmCfg n v s).tableOk := h

theorem tableOk_writeIepe {v} (h : s.tableOk) : (writeIepe v s).tableOk := tableOk_ite h h

theorem tableOk_writeForceAwake {v} (h : s.tableOk) : (writeForceAwake v s).tableOk := h

theorem tableOk_writeLockRd {v} (h : s.tableOk) : (writeLockRd v s).tableOk := h

theorem tableOk_writeLockWr {v} (h : s.tableOk) : (writeLockWr v s).tableOk := h

theorem tableOk_ignoreWrite (h : s.tableOk) : (ignoreWrite s).tableOk := h

theorem tableOk_writeLearn {v} (h : s.tableOk) : (writeLearn v s).tableOk :=
  tableOk_ite (tableOk_ite (tableOk_ite h h) h) (tableOk_ignoreWrite h)

theorem tableOk_writeSentCfg {v} (h : s.tableOk) : (writeSentCfg v s).tableOk := h

theorem tableOk_writeReg {a v} (h : s.tableOk) : (writeReg a v s).tableOk := by
  unfold writeReg
  refine tableOk_ite (tableOk_writeMbxArg h) (tableOk_ite (tableOk_writeAlarmCfg h) (tableOk_ite (tableOk_writePin h) ?_))
  split
  · exact tableOk_clearAlarm h
  · exact tableOk_softReset h
  · exact tableOk_selectLog h
  · exact tableOk_writeIrq h
  · exact tableOk_clearIrq h
  · exact tableOk_writePop h
  · exact tableOk_clearMismatch h
  · exact tableOk_writeTideCtrl h
  · exact tableOk_writeMbxCmd h
  · exact tableOk_clearDropped h
  · exact tableOk_writeGpioOut h
  · exact tableOk_writeGpioOe h
  · exact tableOk_writePilsel h
  · exact tableOk_writePilcfg h
  · exact tableOk_clearPilEvents h
  · exact tableOk_clearAlarmLines h
  · exact tableOk_writeIepe h
  · exact tableOk_writeForceAwake h
  · exact tableOk_writeLockRd h
  · exact tableOk_writeLockWr h
  · exact tableOk_otpReadAddr h
  · exact tableOk_writeLearn h
  · exact tableOk_writeSentCfg h
  · exact h

/-! ### The Host port (Machine/HostPort.lean) -/

theorem tableOk_endStream (h : s.tableOk) : (endStream s).tableOk := by
  unfold endStream
  split <;> exact h

theorem tableOk_beginFrame (h : s.tableOk) : (beginFrame s).tableOk := tableOk_endStream h

theorem tableOk_shiftQuay {per a n} (h : s.tableOk) : (shiftQuay per a n s).tableOk := h

theorem tableOk_captureWord {a v} (h : s.tableOk) : (captureWord a v s).tableOk := by
  unfold captureWord
  split <;> exact h

theorem tableOk_captureWords {a ws} (h : s.tableOk) : (captureWords a ws s).tableOk := by
  induction ws generalizing a s with
  | nil => exact h
  | cons v ws ih => exact ih (tableOk_captureWord h)

theorem tableOk_hostWrite {a ws} (h : s.tableOk) : (hostWrite a ws s).tableOk :=
  tableOk_ite (tableOk_captureWords h) h

theorem tableOk_decideSlot (h : s.tableOk) : (decideSlot s).tableOk := h

theorem tableOk_endSlot {r} (h : s.tableOk) : (endSlot r s).tableOk := tableOk_ite h h

theorem tableOk_shiftSlot {per n} (h : s.tableOk) : (shiftSlot per n s).tableOk := by
  unfold shiftSlot
  dsimp only
  split
  · refine tableOk_ite (tableOk_endSlot ?_) ?_
    · split
      · exact tableOk_ite (tableOk_decideSlot h) h
      · exact tableOk_decideSlot h
    · split
      · exact tableOk_ite (tableOk_decideSlot h) h
      · exact tableOk_decideSlot h
  · split
    · exact tableOk_ite (tableOk_decideSlot h) h
    · exact tableOk_decideSlot h

theorem tableOk_shiftSlots {per k n} (h : s.tableOk) : (shiftSlots per k n s).tableOk := by
  induction k generalizing n s with
  | zero => exact h
  | succ k ih => exact tableOk_ite h (ih (tableOk_shiftSlot h))

theorem tableOk_streamPiece {per first last n} (h : s.tableOk) : (streamPiece per first last n s).tableOk :=
  tableOk_ite (tableOk_ite (tableOk_ite (tableOk_beginFrame h) h) (tableOk_ite (tableOk_beginFrame h) h)) (tableOk_ite
    (tableOk_endStream (tableOk_shiftSlots (tableOk_ite (tableOk_ite (tableOk_beginFrame h) h) (tableOk_ite
    (tableOk_beginFrame h) h)))) (tableOk_shiftSlots (tableOk_ite (tableOk_ite (tableOk_beginFrame h) h) (tableOk_ite
    (tableOk_beginFrame h) h))))

theorem tableOk_spi {timed} {f : State → State} (hf : ∀ x, x.tableOk → (f x).tableOk) (h : s.tableOk) :
    (spi timed f s).tableOk := tableOk_ite (hf _ h) h

theorem tableOk_i2c {target} {f : State → State} (hf : ∀ x, x.tableOk → (f x).tableOk) (h : s.tableOk) :
    (i2c target f s).tableOk := tableOk_ite (hf _ h) h

theorem tableOk_leaveAt {a} (h : s.tableOk) : (leaveAt a s).tableOk := h

theorem tableOk_spiRead {a n} (h : s.tableOk) : (spiRead a n s).tableOk := tableOk_shiftQuay (tableOk_beginFrame h)

theorem tableOk_spiWrite {a ws} (h : s.tableOk) : (spiWrite a ws s).tableOk := tableOk_hostWrite (tableOk_beginFrame h)

theorem tableOk_spiStream {a first last bits} (h : s.tableOk) : (spiStream a first last bits s).tableOk :=
  tableOk_ite (tableOk_streamPiece h) (tableOk_ite (tableOk_spiRead h) h)

theorem tableOk_spiUnknown {cmd} (h : s.tableOk) : (spiUnknown cmd s).tableOk :=
  tableOk_ite h (tableOk_beginFrame h)

theorem tableOk_i2cWrite {a bs} (h : s.tableOk) : (i2cWrite a bs s).tableOk :=
  tableOk_leaveAt (tableOk_hostWrite (tableOk_beginFrame h))

theorem tableOk_i2cStream {first last clocks} (h : s.tableOk) : (i2cStream first last clocks s).tableOk :=
  tableOk_ite (tableOk_leaveAt (tableOk_streamPiece h)) h

theorem tableOk_i2cRead {addr n} (h : s.tableOk) : (i2cRead addr n s).tableOk :=
  tableOk_ite (tableOk_i2cStream h) (tableOk_leaveAt (tableOk_shiftQuay (tableOk_beginFrame h)))

theorem tableOk_i2cStreamPiece {addr first last clocks} (h : s.tableOk) : (i2cStreamPiece addr first last clocks s).tableOk :=
  tableOk_ite (tableOk_i2cRead h) (tableOk_i2cStream h)

theorem tableOk_heldRecordPlace (h : s.tableOk) : (heldRecordPlace s).tableOk := tableOk_placeHeld h

theorem tableOk_backlogRefill (h : s.tableOk) : (backlogRefill s).tableOk := tableOk_ite h (tableOk_refillOne h)

/-! ### The mailbox (Machine/Mailbox.lean) -/

theorem tableOk_mbxExec {want always} {f : List Word → State → State} (hf : ∀ args (x : State), x.tableOk → (f args x).tableOk)
    (h : s.tableOk) : (mbxExec want always f s).tableOk := by
  unfold mbxExec
  split
  · next c rest hq =>
    have hb : (beginMbx c rest s).tableOk := tableOk_wake h
    exact tableOk_ite (tableOk_ite (tableOk_mbxComplete hb) (hf _ _ hb)) h
  · exact h

theorem tableOk_checked {masks args} {f : List Word → State → State} (hf : ∀ args x, x.tableOk → (f args x).tableOk)
    (h : s.tableOk) : (checked masks f args s).tableOk := tableOk_ite (hf _ _ h) (tableOk_mbxComplete h)

theorem tableOk_mbxOk (h : s.tableOk) : (mbxOk s).tableOk := tableOk_mbxComplete h

theorem tableOk_watchCommand {args} {f : Watch → State → State} (hf : ∀ w x, x.tableOk → (f w x).tableOk) (h : s.tableOk) :
    (watchCommand f args s).tableOk := by
  refine tableOk_checked (fun _ x hx => ?_) h
  split
  · exact hf _ _ hx
  · exact tableOk_mbxComplete hx

theorem tableOk_mbxNop {args} (h : s.tableOk) : (mbxNop args s).tableOk :=
  tableOk_checked (fun _ _ h => tableOk_mbxOk (tableOk_refill h)) h

theorem tableOk_mbxTrigger {w} (h : s.tableOk) : (mbxTrigger w s).tableOk :=
  tableOk_ite (tableOk_mbxComplete h) (tableOk_mbxOk (tableOk_trigger h))

theorem tableOk_mbxArm {w} (h : s.tableOk) : (mbxArm w s).tableOk := by
  unfold mbxArm
  dsimp only
  split
  · exact tableOk_mbxOk (tableOk_startPending (tableOk_keepVpix (tableOk_modWatch (fun _ => rfl) h)))
  · exact tableOk_ite (tableOk_mbxOk (tableOk_startPending (tableOk_keepVpix (tableOk_modWatch (fun _ => rfl) h))))
      (tableOk_mbxOk h)
  · exact tableOk_ite (tableOk_mbxComplete h) (tableOk_mbxOk (tableOk_startPending (tableOk_keepVpix (tableOk_modWatch
      (fun _ => rfl) h))))
  · exact tableOk_mbxOk h

theorem tableOk_disarmWatch {n} (h : s.tableOk) : (disarmWatch n s).tableOk := by
  unfold disarmWatch
  split
  · exact h
  · dsimp only
    split
    · exact tableOk_modWatch (fun _ => rfl) h
    · exact tableOk_modWatch (fun _ => rfl) h
    · exact tableOk_ite (tableOk_modJob h) (tableOk_abandon h)
    · exact tableOk_ite (tableOk_modJob h) (tableOk_abandon h)
    · exact tableOk_modJob h
    · exact h

theorem tableOk_mbxDisarm {w} (h : s.tableOk) : (mbxDisarm w s).tableOk :=
  tableOk_ite (tableOk_mbxComplete h) (tableOk_mbxOk (tableOk_disarmWatch h))

theorem tableOk_mbxReadCal {args} (h : s.tableOk) : (mbxReadCal args s).tableOk :=
  tableOk_checked (fun _ _ => tableOk_mbxComplete) h

theorem tableOk_mbxStats {w} (h : s.tableOk) : (mbxStats w s).tableOk := tableOk_mbxComplete h

theorem tableOk_calCommand {masks args} {f : List Word → State → State} (hf : ∀ args x, x.tableOk → (f args x).tableOk)
    (h : s.tableOk) : (calCommand masks f args s).tableOk := tableOk_checked hf h

theorem tableOk_labelCommand {args} {f : Watch → AdaptBlock → List Word → State → State}
    (hf : ∀ w b args x, x.tableOk → (f w b args x).tableOk) (h : s.tableOk) : (labelCommand f args s).tableOk := by
  unfold labelCommand
  split
  · split
    · exact tableOk_ite (tableOk_labelComplete h) (tableOk_ite (tableOk_labelComplete h) (hf _ _ _ _ h))
    · exact tableOk_labelComplete h
  · exact tableOk_labelComplete h

theorem tableOk_opLabel {w b args} (h : s.tableOk) : (opLabel w b args s).tableOk := by
  unfold opLabel
  refine tableOk_adaptRead (fun _ => tableOk_labelComplete) (fun _ h => ?_) h
  split
  · exact tableOk_labelComplete h
  · exact tableOk_ite (tableOk_labelComplete h) (tableOk_ite (tableOk_labelComplete h) (tableOk_queueLabel
      (tableOk_markEntry h)))

theorem tableOk_opRevert {w b args} (h : s.tableOk) : (opRevert w b args s).tableOk := by
  unfold opRevert
  refine tableOk_adaptRead (fun _ => tableOk_labelComplete) (fun _ h => ?_) h
  exact tableOk_commitHead (tableOk_emitAdapt (tableOk_modWatch (fun _ => rfl) (tableOk_writeService (tableOk_putHbrWhole h))))

theorem tableOk_opRestart {w b args} (h : s.tableOk) : (opRestart w b args s).tableOk :=
  tableOk_labelComplete (tableOk_putHbr h)

theorem tableOk_otpCommand {code masks} {f : List Word → State → State} (hf : ∀ args x, x.tableOk → (f args x).tableOk)
    (h : s.tableOk) : (otpCommand code masks f s).tableOk :=
  tableOk_ite h (tableOk_mbxExec (fun _ _ => tableOk_checked hf) h)

theorem tableOk_mbxShutdown {args} (h : s.tableOk) : (mbxShutdown args s).tableOk :=
  tableOk_checked (fun _ _ h => tableOk_ite (tableOk_mbxComplete h) (tableOk_foldl (fun _ _ => tableOk_disarmWatch) h)) h

theorem tableOk_shutdownComplete (h : s.tableOk) : (shutdownComplete s).tableOk :=
  tableOk_ite (tableOk_neapEntry (tableOk_mbxOk (tableOk_release h))) h

theorem tableOk_mbxReserved (h : s.tableOk) : (mbxReserved s).tableOk := tableOk_mbxExec (fun _ _ => tableOk_mbxComplete) h

/-! ### The TAP and the debug port (Machine/Dap.lean) -/

theorem tableOk_selectIr {i} (h : s.tableOk) : (selectIr i s).tableOk := h

theorem tableOk_extest (h : s.tableOk) : (extest s).tableOk := tableOk_selectIr h

theorem tableOk_selectCode {code} (h : s.tableOk) : (selectCode code s).tableOk := by
  unfold selectCode
  split
  · exact tableOk_extest h
  · exact tableOk_selectIr h
  · exact tableOk_selectIr h
  · exact tableOk_selectIr h
  · exact tableOk_selectIr h

theorem tableOk_dapEnd {status addr result} (h : s.tableOk) : (dapEnd status addr result s).tableOk := h

theorem tableOk_dapOp {addr} {f : State → State} (hf : ∀ x, x.tableOk → (f x).tableOk) (h : s.tableOk) :
    (dapOp addr f s).tableOk := by
  have hs := tableOk_selectIr (i := .dap) h
  exact tableOk_ite hs (tableOk_ite (tableOk_dapEnd hs) (hf _ hs))

theorem tableOk_dapNop (h : s.tableOk) : (dapNop s).tableOk := tableOk_selectIr h

theorem tableOk_dapQuayRead {addr} (h : s.tableOk) : (dapQuayRead addr s).tableOk :=
  tableOk_ite (tableOk_dapEnd h) (tableOk_dapEnd h)

theorem tableOk_dapQuayWrite {addr data} (h : s.tableOk) : (dapQuayWrite addr data s).tableOk :=
  tableOk_ite (tableOk_dapEnd (tableOk_captureWord h)) (tableOk_dapEnd h)

theorem tableOk_memWord {a} (h : s.tableOk) : (memWord a s).2.tableOk := by
  unfold memWord
  split
  · exact h
  · split
    · exact h
    · split
      · exact h
      · exact h

theorem tableOk_memOp {addr} {f : State → State} (hf : ∀ x, x.tableOk → (f x).tableOk) (h : s.tableOk) :
    (memOp addr f s).tableOk := by
  unfold memOp
  refine tableOk_ite (tableOk_dapEnd h) (tableOk_ite (tableOk_dapEnd h) ?_)
  extract_lets s1 _ s2 s3
  have h3 : s3.tableOk := tableOk_visit (tableOk_wake h)
  exact tableOk_ite (tableOk_dapEnd h3) (hf _ h3)

theorem tableOk_dapMemRead {addr} (h : s.tableOk) : (dapMemRead addr s).tableOk :=
  tableOk_memOp (fun _ h => tableOk_dapEnd (tableOk_memWord h)) h

theorem tableOk_putMem {a bs} (h : s.tableOk) : (s.putMem a bs).tableOk := by
  unfold State.putMem
  split
  · exact h
  · exact tableOk_putHbr h

theorem tableOk_dapMemWrite {addr data} (h : s.tableOk) : (dapMemWrite addr data s).tableOk :=
  tableOk_memOp (fun _ h => tableOk_dapEnd (tableOk_putMem h)) h

theorem tableOk_dapArg {addr data} (h : s.tableOk) : (dapArg addr data s).tableOk :=
  tableOk_ite (tableOk_dapEnd h) (tableOk_dapEnd h)

theorem tableOk_dapRunOtp {code} (h : s.tableOk) : (dapRunOtp code s).tableOk :=
  tableOk_ite (tableOk_otpProgram h) (tableOk_lifecycleAdvance h)

theorem tableOk_dapStartOtp (h : s.tableOk) : (dapStartOtp s).tableOk := by
  unfold dapStartOtp
  split
  · exact tableOk_ite (tableOk_ite (tableOk_dapRunOtp (tableOk_wake h)) (tableOk_wake h)) h
  · exact h

theorem tableOk_dapExec {addr} (h : s.tableOk) : (dapExec addr s).tableOk := tableOk_ite (tableOk_dapStartOtp h) h

theorem tableOk_dapBootRelease (h : s.tableOk) : (dapBootRelease s).tableOk :=
  tableOk_dapEnd (tableOk_ite (tableOk_toStage h) h)

theorem tableOk_slackExpiry (h : s.tableOk) : (slackExpiry s).tableOk := h

theorem tableOk_dapReserved {op addr} (h : s.tableOk) : (dapReserved op addr s).tableOk :=
  tableOk_ite (tableOk_dapOp (fun _ => tableOk_dapEnd) h) h

/-! ### The LFCLK tick (Machine/Tick.lean) -/

theorem tableOk_countTick (h : s.tableOk) : (countTick s).tableOk := tableOk_of_watches h rfl

theorem tableOk_countWatchdog (h : s.tableOk) : (countWatchdog s).tableOk := tableOk_ite h h

theorem tableOk_countUpsets (h : s.tableOk) : (countUpsets s).tableOk := h

theorem tableOk_countThrottle (h : s.tableOk) : (countThrottle s).tableOk := tableOk_ite h h

theorem tableOk_countWaits (h : s.tableOk) : (countWaits s).tableOk :=
  tableOk_foldl (fun _ _ => tableOk_admitTimeout) (tableOk_foldl (fun _ _ => tableOk_modJob) h)

theorem tableOk_standAlarm {source b holds} (h : s.tableOk) : (standAlarm source b holds s).tableOk :=
  tableOk_ite (tableOk_logEntry h) h

theorem tableOk_standingAlarms (h : s.tableOk) : (standingAlarms s).tableOk :=
  tableOk_standAlarm (tableOk_standAlarm (tableOk_standAlarm (tableOk_standAlarm h)))

theorem tableOk_pulseTick (h : s.tableOk) : (pulseTick s).tableOk := by
  unfold pulseTick
  split
  · exact tableOk_ite (tableOk_irqPulseEnd h) h
  · exact h

theorem tableOk_slackTick (h : s.tableOk) : (slackTick s).tableOk := tableOk_ite (tableOk_slackExpiry h) h

theorem tableOk_tickActs (h : s.tableOk) : (tickActs s).tableOk :=
  tableOk_registerIrq (tableOk_pulseTick (tableOk_standingAlarms (tableOk_countWaits (tableOk_countThrottle (tableOk_stallTick
    (tableOk_countWatchdog (tableOk_countUpsets (tableOk_dapStartOtp (tableOk_mbxReserved (tableOk_slackTick h))))))))))

theorem tableOk_tick (h : s.tableOk) : (tick s).tableOk := tableOk_inService (fun _ => tableOk_tickActs) (tableOk_countTick h)

end
end Sys2Proof.Machine
end

