-- ==== Sys2Proof/Proofs/TableOrderStep.lean ====
section
/-! PROOF. Proofs/TableOrderStep.lean: the issue of a bundle and every command leave the watch table in order. -/
namespace Sys2Proof.Machine
open Sys2Proof

section
variable {s t : State}

/-! ### Issue -/

theorem tableOk_commitBundle {l is : List Nat} {p : Nat} {x y : Ctx} (hr : Ran l is x y) (h : x.s.tableOk) :
    (commitBundle p y).tableOk := by
  unfold commitBundle
  extract_lets _ _ _ _ _ s1
  have h1 : s1.tableOk := tableOk_setCore (tableOk_of_watches h hr.watches)
  refine tableOk_settle ?_
  split
  · exact tableOk_takeError h1
  · exact h1

theorem tableOk_startPart {l : List Nat} {p j : Nat} {x : Ctx} (hl : Legal l) (h : x.s.tableOk) :
    (startPart l p j x).tableOk := by
  unfold startPart
  split
  · next y hy =>
    have hr : Ran l _ x y := ran_of_runSlots hl
      (fun i hi => (by decide : ∀ i ∈ ([5, 6, 7] : List Nat), i < 14) i (List.mem_filter.mp hi).1)
      (List.Nodup.filter _ (by decide)) hy
    have hy : y.s.tableOk := tableOk_of_watches h hr.watches
    refine tableOk_settle ?_
    split
    · exact tableOk_takeError (tableOk_setCore hy)
    · exact tableOk_setCore hy
  · exact h

theorem tableOk_issue {c l} (h : s.tableOk) : (issue c l s).tableOk := by
  unfold issue
  refine tableOk_ite h (tableOk_ite (tableOk_coreException h) ?_)
  split
  · exact tableOk_coreException h
  · next hlegal =>
    have hl := legal_of_illegalSlot hlegal
    refine tableOk_ite h ?_
    dsimp only
    split
    · next y hy =>
      have hr : Ran l (List.range 14) _ y := ran_of_runSlots hl (fun i => List.mem_range.mp) List.nodup_range hy
      refine tableOk_ite h ?_
      split
      · exact tableOk_startPart hl h
      · exact tableOk_commitBundle hr h
    · exact tableOk_ite h (tableOk_ite (tableOk_startPart hl h) (tableOk_coreException h))

theorem tableOk_bundleIssue {c} (h : s.tableOk) : (bundleIssue c s).tableOk := by
  unfold bundleIssue
  exact tableOk_issue (tableOk_fetch h)

theorem tableOk_issueOne {c slot cls op w imm} (h : s.tableOk) : (issueOne c slot cls op w imm s).tableOk := by
  unfold issueOne
  exact tableOk_issue h

theorem tableOk_issueScoped {c op scope w imm} (h : s.tableOk) : (issueScoped c op scope w imm s).tableOk := by
  unfold issueScoped
  exact tableOk_issue h

theorem tableOk_issueDma {c slot cls kind w imm} (h : s.tableOk) : (issueDma c slot cls kind w imm s).tableOk := by
  unfold issueDma
  split
  · exact tableOk_ite h (tableOk_issueOne h)
  · exact tableOk_issueOne h

/-! ### Every command -/

/-- A command ends in a next state whose table is in order. -/
def EndsInOrder (o : Host.Outcome State Fault Refusal) : Prop := ∃ t, o = .next t ∧ t.tableOk

theorem endsInOrder_next (h : t.tableOk) : EndsInOrder (.next t) := ⟨t, rfl, h⟩

theorem endsInOrder_inService {f : State → State} (h : s.tableOk) (hf : ∀ x, x.tableOk → (f x).tableOk) :
    EndsInOrder (.next (inService s f)) :=
  endsInOrder_next (tableOk_inService hf h)

theorem endsInOrder_exec (i : Instr) (h : s.tableOk) : EndsInOrder (exec i s) := by
  cases i with
  | read => exact endsInOrder_inService h fun _ => tableOk_spi fun _ => tableOk_spiRead
  | write => exact endsInOrder_inService h fun _ => tableOk_spi fun _ => tableOk_spiWrite
  | stream => exact endsInOrder_inService h fun _ => tableOk_spi fun _ => tableOk_spiStream
  | unknownCommand => exact endsInOrder_inService h fun _ => tableOk_spi fun _ => tableOk_spiUnknown
  | i2cWriteTransfer => exact endsInOrder_inService h fun _ => tableOk_i2c fun _ => tableOk_i2cWrite
  | i2cReadTransfer => exact endsInOrder_inService h fun _ => tableOk_i2c fun _ => tableOk_i2cRead
  | i2cStreamRead => exact endsInOrder_inService h fun _ => tableOk_i2c fun _ => tableOk_i2cStreamPiece
  | registerWrite => exact endsInOrder_inService h fun _ => tableOk_applied fun _ => tableOk_writeReg
  | sysSoftReset => exact endsInOrder_inService h fun _ => tableOk_applied fun _ => tableOk_softReset
  | sysAlarm => exact endsInOrder_inService h fun _ => tableOk_applied fun _ => tableOk_clearAlarm
  | sysLogCtrl => exact endsInOrder_inService h fun _ => tableOk_applied fun _ => tableOk_selectLog
  | obxPop => exact endsInOrder_inService h fun _ => tableOk_applied fun _ => tableOk_writePop
  | obxIrq => exact endsInOrder_inService h fun _ => tableOk_applied fun _ => tableOk_writeIrq
  | obxIrqStatus => exact endsInOrder_inService h fun _ => tableOk_applied fun _ => tableOk_clearIrq
  | mbxStatus => exact endsInOrder_inService h fun _ => tableOk_applied fun _ => tableOk_clearDropped
  | chgInhibit | clkCap => exact endsInOrder_inService h fun _ => tableOk_applied fun _ => tableOk_writeTideCtrl
  | capMismatch => exact endsInOrder_inService h fun _ => tableOk_applied fun _ => tableOk_clearMismatch
  | gpioOut => exact endsInOrder_inService h fun _ => tableOk_applied fun _ => tableOk_writeGpioOut
  | gpioOe => exact endsInOrder_inService h fun _ => tableOk_applied fun _ => tableOk_writeGpioOe
  | gpioPin => exact endsInOrder_inService h fun _ => tableOk_applied fun _ => tableOk_writePin
  | gpioPilsel => exact endsInOrder_inService h fun _ => tableOk_applied fun _ => tableOk_writePilsel
  | gpioPilcfg => exact endsInOrder_inService h fun _ => tableOk_applied fun _ => tableOk_writePilcfg
  | gpioPilStatus => exact endsInOrder_inService h fun _ => tableOk_applied fun _ => tableOk_clearPilEvents
  | gpioAlarmStatus => exact endsInOrder_inService h fun _ => tableOk_applied fun _ => tableOk_clearAlarmLines
  | adcIepe => exact endsInOrder_inService h fun _ => tableOk_applied fun _ => tableOk_writeIepe
  | forceAwake => exact endsInOrder_inService h fun _ => tableOk_applied fun _ => tableOk_writeForceAwake
  | otpLockRd => exact endsInOrder_inService h fun _ => tableOk_applied fun _ => tableOk_writeLockRd
  | otpLockWr => exact endsInOrder_inService h fun _ => tableOk_applied fun _ => tableOk_writeLockWr
  | otpReadAddr => exact endsInOrder_inService h fun _ => tableOk_applied fun _ => tableOk_otpReadAddr
  | learn => exact endsInOrder_inService h fun _ => tableOk_applied fun _ => tableOk_writeLearn
  | pixSentCfg => exact endsInOrder_inService h fun _ => tableOk_applied fun _ => tableOk_writeSentCfg
  | otpWordProgrammed => exact endsInOrder_inService h fun _ => tableOk_otpWordProgrammed
  | fatal => exact endsInOrder_inService h fun _ => tableOk_fatalError
  | thermalResetEnd => exact endsInOrder_next (tableOk_thermalEnd h)
  | resetRelease => exact endsInOrder_next (tableOk_resetRelease h)
  | flashProbe => exact endsInOrder_inService h fun _ => tableOk_flashProbe
  | manifestCheck => exact endsInOrder_inService h fun _ => tableOk_manifestFirst
  | manifestReread => exact endsInOrder_inService h fun _ => tableOk_manifestSecond
  | recordCopy => exact endsInOrder_inService h fun _ => tableOk_recordCopy
  | recordRecopy => exact endsInOrder_inService h fun _ => tableOk_recordRecopy
  | harbourBankPowerUp => exact endsInOrder_inService h fun _ => tableOk_bankPowerUp
  | reservoirSample => exact endsInOrder_inService h fun _ => tableOk_reservoirSample
  | vbatSample => exact endsInOrder_inService h fun _ => tableOk_vbatSample
  | tempSample => exact endsInOrder_inService h fun _ => tableOk_tempSample
  | admissionRequest => exact endsInOrder_inService h fun _ => tableOk_admissionRequest
  | meterCharge => exact endsInOrder_inService h fun _ => tableOk_meterCharge
  | admitTimeout => exact endsInOrder_inService h fun _ => tableOk_admitTimeout
  | inputAcquire => exact endsInOrder_inService h fun _ => tableOk_inputAcquire
  | groupRelease => exact endsInOrder_inService h fun _ => tableOk_groupRelease
  | scrub => exact endsInOrder_inService h fun _ => tableOk_scrub
  | exposureEnd => exact endsInOrder_inService h fun _ => tableOk_exposureEnd
  | pixelRow => exact endsInOrder_inService h fun _ => tableOk_pixelRow
  | sentinelFrame => exact endsInOrder_inService h fun _ => tableOk_sentinelFrame
  | adcBandgapCheck => exact endsInOrder_inService h fun _ => tableOk_bandgapCheck
  | adcBlockComplete => exact endsInOrder_inService h fun _ => tableOk_blockComplete
  | calMeasurementDone => exact endsInOrder_inService h fun _ => tableOk_calMeasured
  | partialResetRelease => exact endsInOrder_inService h fun _ => tableOk_partialResetRelease
  | drainTimeout => exact endsInOrder_inService h fun _ => tableOk_drainTimeout
  | bundleIssue => exact endsInOrder_inService h fun _ => tableOk_bundleIssue
  | br | brs | loop | halt | add | sub | mul | mulh | mulhu | and | or | xor | shl | shr | sra | min | max | minu | maxu | mov |
  cmpeq | cmpne | cmplt | cmple | cmpltu | cmpleu | pand | pxor | pnot | mfa | rdfl | lcrd | aadd | amadd | amov | amovs | ld |
  st | ldtag | sttag | mm | conv | aclr | vadd | vsub | vmul | vmla | vmin | vmax | vabs | vneg | vand | vor | vxor | vshl |
  vshr | vsra | vaddsat | vcmpeq | vcmplt | vcmple | vcvtif | vcvtfi | vperm | vbcast | vred | vmovs | vld | vst | rqa | rqv |
  pool | gpool | crop | ldw | stw | atadd | atmin | atmax | atswap | atcas | evwait | head | ckpt | epub | ewait | porSyllable
    =>
    exact endsInOrder_inService h fun _ => tableOk_issueOne
  | copyIn | copyOut | streamFetch | imem => exact endsInOrder_inService h fun _ => tableOk_issueDma
  | dmaComplete => exact endsInOrder_inService h fun _ => tableOk_dmaComplete
  | fenceCore | fenceChip | fenceSys | acqChip | acqSys => exact endsInOrder_inService h fun _ => tableOk_issueScoped
  | waitTimeout => exact endsInOrder_inService h fun _ => tableOk_waitTimeout
  | uncorrectableError => exact endsInOrder_inService h fun _ => tableOk_uncorrectableError
  | pinInterruptEvent => exact endsInOrder_inService h fun _ => tableOk_pinSample
  | cwWake => exact endsInOrder_inService h fun _ => tableOk_cwWake
  | linkTrained => exact endsInOrder_inService h fun _ => tableOk_linkTrained
  | trainingTimeout => exact endsInOrder_inService h fun _ => tableOk_trainingTimeout
  | trainingRetry => exact endsInOrder_inService h fun _ => tableOk_trainingRetry
  | ts1 => exact endsInOrder_inService h fun _ => tableOk_ts1Received
  | ts2 => exact endsInOrder_inService h fun _ => tableOk_ts2Received
  | ackControlWord => exact endsInOrder_inService h fun _ => tableOk_ackReceived
  | nak | retransmitTimeout => exact endsInOrder_inService h fun _ => tableOk_retransmit
  | credit => exact endsInOrder_inService h fun _ => tableOk_creditReceived
  | sleepReq => exact endsInOrder_inService h fun _ => tableOk_sleepReq
  | sleepAck => exact endsInOrder_inService h fun _ => tableOk_sleepAck
  | sleepNak => exact endsInOrder_inService h fun _ => tableOk_beginPort
  | sleepIdle => exact endsInOrder_inService h fun _ => tableOk_sleepIdle
  | ackDeadline => exact endsInOrder_inService h fun _ => tableOk_ackDeadline
  | laneLockLoss => exact endsInOrder_inService h fun _ => tableOk_laneLockLoss
  | transitTimeout => exact endsInOrder_inService h fun _ => tableOk_transitTimeout
  | flushTimeout => exact endsInOrder_inService h fun _ => tableOk_flushTimeout
  | wr => exact endsInOrder_inService h fun _ => tableOk_receive fun _ _ => tableOk_wrPacket
  | wrw => exact endsInOrder_inService h fun _ => tableOk_receive fun _ _ => tableOk_wrwPacket
  | rd => exact endsInOrder_inService h fun _ => tableOk_receive fun _ _ => tableOk_rdPacket
  | rdw => exact endsInOrder_inService h fun _ => tableOk_receive fun _ _ => tableOk_rdwPacket
  | marker => exact endsInOrder_inService h fun _ => tableOk_receive fun _ _ => tableOk_markerPacket
  | flush => exact endsInOrder_inService h fun _ => tableOk_receive fun _ _ => tableOk_flushPacket
  | ack => exact endsInOrder_inService h fun _ => tableOk_receive fun _ _ => tableOk_ackPacket
  | rdData => exact endsInOrder_inService h fun _ => tableOk_receive fun _ _ => tableOk_rdDataPacket
  | rdwData => exact endsInOrder_inService h fun _ => tableOk_receive fun _ _ => tableOk_rdwDataPacket
  | flushDone => exact endsInOrder_inService h fun _ => tableOk_receive fun _ _ => tableOk_flushDonePacket
  | msg => exact endsInOrder_inService h fun _ => tableOk_receive fun _ _ => tableOk_msgPacket
  | notice => exact endsInOrder_inService h fun _ => tableOk_receive fun _ _ => tableOk_noticePacket
  | chain => exact endsInOrder_inService h fun _ => tableOk_receive fun _ _ => tableOk_chainPacket
  | strandUnitWritten => exact endsInOrder_inService h fun _ => tableOk_strandUnitWritten
  | quayRead => exact endsInOrder_inService h fun _ => tableOk_dapOp fun _ => tableOk_dapQuayRead
  | quayWrite => exact endsInOrder_inService h fun _ => tableOk_dapOp fun _ => tableOk_dapQuayWrite
  | memRead => exact endsInOrder_inService h fun _ => tableOk_dapOp fun _ => tableOk_dapMemRead
  | memWrite => exact endsInOrder_inService h fun _ => tableOk_dapOp fun _ => tableOk_dapMemWrite
  | otpArg => exact endsInOrder_inService h fun _ => tableOk_dapOp fun _ => tableOk_dapArg
  | otpExec => exact endsInOrder_inService h fun _ => tableOk_dapOp fun _ => tableOk_dapExec
  | dapReservedOp => exact endsInOrder_inService h fun _ => tableOk_dapReserved
  | bypass | extest | idcode | samplePreload => exact endsInOrder_next (tableOk_selectCode h)
  | lanePllLocked => exact endsInOrder_inService h fun _ => tableOk_lanePllLocked
  | receiverAligned => exact endsInOrder_inService h fun _ => tableOk_receiverAligned
  | ts1Send => exact endsInOrder_inService h fun _ => tableOk_ts1Send
  | crcError => exact endsInOrder_inService h fun _ => tableOk_crcError
  | codeError => exact endsInOrder_inService h fun _ => tableOk_codeError
  | harbourWordAccessDone => exact endsInOrder_inService h fun _ => tableOk_wordDone
  | hostIrqPulseEnd => exact endsInOrder_inService h fun _ => tableOk_irqPulseEnd
  | nop => exact endsInOrder_inService h fun _ => tableOk_mbxExec fun _ _ => tableOk_mbxNop
  | triggerWatch =>
    exact endsInOrder_inService h fun _ => tableOk_mbxExec fun _ _ => tableOk_watchCommand fun _ _ => tableOk_mbxTrigger
  | arm => exact endsInOrder_inService h fun _ => tableOk_mbxExec fun _ _ => tableOk_watchCommand fun _ _ => tableOk_mbxArm
  | disarm => exact endsInOrder_inService h fun _ => tableOk_mbxExec fun _ _ => tableOk_watchCommand fun _ _ =>
    tableOk_mbxDisarm
  | calZero => exact endsInOrder_inService h fun _ => tableOk_mbxExec fun _ _ => tableOk_calCommand fun _ _ => tableOk_calZero
  | calFull => exact endsInOrder_inService h fun _ => tableOk_mbxExec fun _ _ => tableOk_calCommand fun _ _ => tableOk_calFull
  | calCommit => exact endsInOrder_inService h fun _ => tableOk_mbxExec fun _ _ => tableOk_calCommand fun _ _ =>
    tableOk_calCommit
  | readCal => exact endsInOrder_inService h fun _ => tableOk_mbxExec fun _ _ => tableOk_mbxReadCal
  | label => exact endsInOrder_inService h fun _ => tableOk_mbxExec fun _ _ => tableOk_labelCommand fun _ _ _ _ =>
    tableOk_opLabel
  | revert =>
    exact endsInOrder_inService h fun _ h => tableOk_ite h (tableOk_mbxExec
      (fun _ _ => tableOk_labelCommand fun _ _ _ _ => tableOk_opRevert) h)
  | restartBaseline =>
    exact endsInOrder_inService h fun _ => tableOk_mbxExec fun _ _ => tableOk_labelCommand fun _ _ _ _ => tableOk_opRestart
  | otpProgram => exact endsInOrder_inService h fun _ => tableOk_otpCommand fun _ _ => tableOk_otpProgram
  | lifecycleAdvance => exact endsInOrder_inService h fun _ => tableOk_otpCommand fun _ _ => tableOk_lifecycleAdvance
  | stats => exact endsInOrder_inService h fun _ => tableOk_mbxExec fun _ _ => tableOk_watchCommand fun _ _ => tableOk_mbxStats
  | shutdown => exact endsInOrder_inService h fun _ => tableOk_mbxExec fun _ _ => tableOk_mbxShutdown
  | shutdownComplete => exact endsInOrder_inService h fun _ => tableOk_shutdownComplete
  | faultBlink => exact endsInOrder_next (tableOk_faultBlink h)
  | por | brownoutVbat | resetPin | thermalTrip => exact endsInOrder_next (tableOk_assertReset h)
  | brownoutVsys => exact endsInOrder_inService h fun _ h => tableOk_ite (tableOk_assertReset h) h
  | soft => exact endsInOrder_inService h fun _ => tableOk_softTaken
  | watchdog => exact endsInOrder_inService h fun _ h => tableOk_ite (tableOk_assertReset h) h
  | thermalReq => exact endsInOrder_inService h fun _ h => tableOk_ite (tableOk_assertReset h) h
  | railWaitEnd => exact endsInOrder_inService h fun _ => tableOk_railWaitEnd
  | bootRelease => exact endsInOrder_inService h fun _ => tableOk_dapOp fun _ => tableOk_dapBootRelease
  | firmwareStart => exact endsInOrder_inService h fun _ => tableOk_firmwareStart
  | lfCrystalSwitch => exact endsInOrder_next (tableOk_lfSwitch h)
  | lfCrystalTimeout => exact endsInOrder_next (tableOk_lfTimeout h)
  | lfFallback => exact endsInOrder_next (tableOk_lfFall h)
  | neapEntry => exact endsInOrder_inService h fun _ => tableOk_neapEntry
  | chgStall => exact endsInOrder_inService h fun _ => tableOk_chgStallEvent
  | coreRelease => exact endsInOrder_inService h fun _ => tableOk_coreRelease
  | vcoreFail => exact endsInOrder_inService h fun _ => tableOk_vcoreFail
  | reservoirGuardTrip => exact endsInOrder_inService h fun _ => tableOk_guardTrip
  | checkpointComplete => exact endsInOrder_inService h fun _ => tableOk_checkpointComplete
  | reservoirCollapse => exact endsInOrder_inService h fun _ => tableOk_reservoirCollapse
  | computeEnd => exact endsInOrder_inService h fun _ => tableOk_computeEnd
  | doneRearm => exact endsInOrder_inService h fun _ => tableOk_doneRearm
  | tickTrigger => exact endsInOrder_inService h fun _ => tableOk_tickTrigger
  | xrefReady => exact endsInOrder_inService h fun _ => tableOk_xrefReady
  | xrefTimeout => exact endsInOrder_inService h fun _ => tableOk_xrefTimeout
  | vpixReady => exact endsInOrder_inService h fun _ => tableOk_vpixReadyEvent
  | vpixWaitTimeout => exact endsInOrder_inService h fun _ => tableOk_vpixWaitTimeout
  | vpixLow => exact endsInOrder_inService h fun _ => tableOk_vpixLow
  | exposureStart => exact endsInOrder_inService h fun _ => tableOk_exposureStart
  | fsyncEdge => exact endsInOrder_inService h fun _ => tableOk_fsyncEdge
  | fsyncWaitExpiry => exact endsInOrder_inService h fun _ => tableOk_fsyncExpiry
  | frameComplete => exact endsInOrder_inService h fun _ => tableOk_frameComplete
  | adcSequencerStart => exact endsInOrder_inService h fun _ => tableOk_sequencerStart
  | adcOverrun => exact endsInOrder_inService h fun _ => tableOk_adcOverrun
  | spectralFront => exact endsInOrder_inService h fun _ => tableOk_spectralFront
  | headRequest => exact endsInOrder_inService h fun _ => tableOk_headRequest
  | groupDecision => exact endsInOrder_inService h fun _ => tableOk_groupDecision
  | roiExport => exact endsInOrder_inService h fun _ => tableOk_roiExport
  | adaptationStep => exact endsInOrder_inService h fun _ => tableOk_adaptationStep
  | stemBufferError => exact endsInOrder_inService h fun _ => tableOk_stemBufferError
  | strandCommit => exact endsInOrder_inService h fun _ => tableOk_strandCommit
  | strandConditionTimeout => exact endsInOrder_inService h fun _ => tableOk_strandTimeout
  | eventLogEntry => exact endsInOrder_inService h fun _ => tableOk_startLogUnit
  | heldRecordPlace => exact endsInOrder_inService h fun _ => tableOk_heldRecordPlace
  | backlogRefill => exact endsInOrder_inService h fun _ => tableOk_backlogRefill
  | dapNop => exact endsInOrder_inService h fun _ => tableOk_dapNop
  | dapSlackExpiry => exact endsInOrder_inService h fun _ => tableOk_slackExpiry
  | strobeLeadStart => exact endsInOrder_inService h fun _ => tableOk_strobeLead
  | corePllLocked => exact endsInOrder_inService h fun _ => tableOk_pllLock

end

/-- Settles O60: a command keeps the order of the table of the state without it, and a tick that of the state. -/
theorem stepKeepsTheWatchTableInOrder : Obligations.StepKeepsTheWatchTableInOrder := by
  intro s t hs ht
  unfold step at ht
  split at ht
  · next i rest _ =>
    obtain ⟨u, hu, hk⟩ := endsInOrder_exec i (s := { s with pending := rest }) (tableOk_update hs rfl)
    rw [hu] at ht
    cases ht
    exact hk
  · cases ht
    exact tableOk_tick hs

end Sys2Proof.Machine
end

