-- ==== Sys2Proof/Proofs/WatchRules.lean ====
section
/-! PROOF. Proofs/WatchRules.lean: what the entry of a watch is after a change of the table, of one watch and of one watch after the other. -/
namespace Sys2Proof.Machine
open Sys2Proof

section
variable {s t : State} {n m : Nat} {w : Watch}

/-- Out of reset a command that acts in service has its effect. -/
theorem next_inService (h : s.live) (f : State → State) :
    (Host.Outcome.next (inService s f) : Host.Outcome State Fault Refusal) = .next (f s) :=
  congrArg Host.Outcome.next (inService_live s f h)

/-! ### The entry of a watch -/

theorem num_of_watch? (h : s.watch? n = some w) : w.entry.num = n := by
  simpa using List.find?_some h

theorem mem_of_watch? (h : s.watch? n = some w) : w ∈ s.watches := List.mem_of_find?_eq_some h

theorem watch?_of_watches (h : t.watches = s.watches) (n : Nat) : t.watch? n = s.watch? n :=
  congrArg (List.find? fun w : Watch => w.entry.num == n) h

theorem nums_nodup (h : s.tableOk) (p : Watch → Bool) : ((s.watches.filter p).map (·.entry.num)).Nodup :=
  (List.pairwise_map.mpr (h.filter p)).imp Nat.ne_of_lt

/-- In a table in order a watch stands under its own number. -/
theorem watch?_of_mem (h : s.tableOk) (hw : w ∈ s.watches) : s.watch? w.entry.num = some w := by
  have hinj : ∀ a ∈ s.watches, a.entry.num = w.entry.num → a = w := fun a ha e =>
    List.inj_on_of_nodup_map (by simpa using nums_nodup h fun _ => true) ha hw e
  cases he : s.watch? w.entry.num with
  | none => simpa using List.find?_eq_none.mp he w hw
  | some a => rw [hinj a (mem_of_watch? he) (num_of_watch? he)]

/-- Whether watch n is among those of a table in order that meet a test. -/
theorem mem_nums_iff (h : s.tableOk) (hw : s.watch? n = some w) (p : Watch → Bool) :
    n ∈ (s.watches.filter p).map (·.entry.num) ↔ p w = true := by
  simp only [List.mem_map, List.mem_filter]
  refine ⟨fun ⟨a, ⟨ha, hp⟩, hn⟩ => ?_, fun hp => ⟨w, ⟨mem_of_watch? hw, hp⟩, num_of_watch? hw⟩⟩
  have := watch?_of_mem h ha
  rw [hn, hw] at this
  cases this
  exact hp

theorem watch?_modWatch (s : State) (n m : Nat) {f : Watch → Watch} (hf : ∀ w, (f w).entry.num = w.entry.num) :
    (s.modWatch n f).watch? m = (s.watch? m).map fun w => if m = n then f w else w := by
  unfold State.watch?
  rw [watches_modWatch, List.find?_map]
  have hp : ((fun w => w.entry.num == m) ∘ fun w : Watch => if w.entry.num = n then f w else w) =
      fun w => w.entry.num == m := by
    funext w
    by_cases hn : w.entry.num = n <;> simp [hn, hf]
  rw [hp]
  cases he : s.watches.find? (fun w => w.entry.num == m) with
  | none => rfl
  | some w =>
    have hm : w.entry.num = m := num_of_watch? he
    simp [hm]

theorem watch?_modWatch_same {f : Watch → Watch} (h : s.watch? n = some w)
    (hf : ∀ w, (f w).entry.num = w.entry.num := by exact fun _ => rfl) : (s.modWatch n f).watch? n = some (f w) := by
  simp [watch?_modWatch s n n hf, h]

theorem watch?_modWatch_ne {f : Watch → Watch} (h : m ≠ n)
    (hf : ∀ w, (f w).entry.num = w.entry.num := by exact fun _ => rfl) : (s.modWatch n f).watch? m = s.watch? m := by
  simp [watch?_modWatch s n m hf, h]

theorem onlyWatch_modWatch (s : State) (n : Nat) {f : Watch → Watch}
    (hf : ∀ w, (f w).entry.num = w.entry.num := by exact fun _ => rfl) : onlyWatch s (s.modWatch n f) n f := by
  refine ⟨?_, fun m hm => watch?_modWatch_ne hm hf⟩
  simp [watch?_modWatch s n n hf]

/-! ### Changes of the table alone -/

/-- t is s with other watches. -/
def OnlyWatches (s t : State) : Prop := t = { s with watches := t.watches }

theorem onlyWatches_refl (s : State) : OnlyWatches s s := rfl

theorem OnlyWatches.trans {u : State} (h : OnlyWatches s t) (h' : OnlyWatches t u) : OnlyWatches s u := by
  rw [OnlyWatches] at h h' ⊢
  rw [h', h]

theorem onlyWatches_modWatch (s : State) (n : Nat) (f : Watch → Watch) : OnlyWatches s (s.modWatch n f) := rfl

theorem OnlyWatches.tide (h : OnlyWatches s t) : t.tide = s.tide := by rw [h]

theorem OnlyWatches.sys (h : OnlyWatches s t) : t.sys = s.sys := by rw [h]

theorem onlyWatches_foldl {α : Type} {g : State → α → State} {l : List α} {P : State → Prop}
    (hP : ∀ s a, P s → OnlyWatches s (g s a) ∧ P (g s a)) (hs : P s) : OnlyWatches s (l.foldl g s) ∧ P (l.foldl g s) := by
  induction l generalizing s with
  | nil => exact ⟨rfl, hs⟩
  | cons a l ih =>
    obtain ⟨h, h'⟩ := hP s a hs
    exact ⟨h.trans (ih h').1, (ih h').2⟩

/-! ### One watch after the other -/

/-- A run over numbers, where each step leaves the watches of other numbers, leaves the watch of a number not among them. -/
theorem watch?_foldl_of_not_mem {g : State → Nat → State} (hg : ∀ s a m, m ≠ a → (g s a).watch? m = s.watch? m) {l : List Nat}
    (hn : n ∉ l) : (l.foldl g s).watch? n = s.watch? n := by
  induction l generalizing s with
  | nil => rfl
  | cons a l ih =>
    rw [List.foldl_cons, ih fun h => hn (List.mem_cons_of_mem a h), hg s a n fun h => hn (h ▸ List.mem_cons_self)]

/-- The watch of a number among them is what its own step makes of it: the step finds the watch of s in a state reached from s. -/
theorem watch?_foldl_of_mem {g : State → Nat → State} (hg : ∀ s a m, m ≠ a → (g s a).watch? m = s.watch? m) {l : List Nat}
    (hl : l.Nodup) (hn : n ∈ l) : ∃ pre : List Nat, (l.foldl g s).watch? n = (g (pre.foldl g s) n).watch? n ∧
      (pre.foldl g s).watch? n = s.watch? n := by
  obtain ⟨pre, post, rfl⟩ := List.append_of_mem hn
  have hpre : n ∉ pre := fun h => (List.nodup_append.mp hl).2.2 n h n List.mem_cons_self rfl
  have hpost : n ∉ post := (List.nodup_cons.mp (List.nodup_append.mp hl).2.1).1
  refine ⟨pre, ?_, watch?_foldl_of_not_mem hg hpre⟩
  rw [List.foldl_append, List.foldl_cons, watch?_foldl_of_not_mem hg hpost]

end

end Sys2Proof.Machine
end

