-- ==== Sys2Proof/Proofs/Triggers.lean ====
section
/-! PROOF. Proofs/Triggers.lean: triggers, the return of DONE watches and held triggers (R47, R54, R56, R59, R62, R63). -/
namespace Sys2Proof.Machine
open Sys2Proof

section
variable {s t : State} {n m due order : Nat} {gpio : Bool} {w : Watch}

/-! ### What a trigger leaves unchanged -/

theorem watches_refill (k : Nat) (s : State) : (refill k s).watches = s.watches := by
  induction k generalizing s with
  | zero => rfl
  | succ k ih =>
    refine (ih _).trans ?_
    unfold refillOne
    split
    · rfl
    · split <;> rfl

theorem watches_wake (s : State) : (wake s).watches = s.watches := by
  unfold wake
  split
  · exact watches_refill _ _
  · rfl

theorem watch?_startJob_ne (h : m ≠ n) : (startJob n due order gpio s).watch? m = s.watch? m :=
  watch?_modWatch_ne h

theorem watch?_serveTrigger_ne (h : m ≠ n) : (serveTrigger n due order gpio s).watch? m = s.watch? m := by
  unfold serveTrigger
  split
  · dsimp only
    split
    · exact watch?_modWatch_ne h
    · exact watch?_startJob_ne h
  · rfl

theorem watch?_trigger_ne (h : m ≠ n) : (trigger n due order gpio s).watch? m = s.watch? m := by
  have hw : (wake s).watch? m = s.watch? m := watch?_of_watches (watches_wake s) m
  unfold trigger
  split
  · rfl
  · dsimp only
    split
    · rfl
    split
    · exact (watch?_serveTrigger_ne h).trans hw
    split <;> exact (watch?_modWatch_ne h).trans hw

theorem watch?_startPending_ne (h : m ≠ n) : (startPending n s).watch? m = s.watch? m := by
  unfold startPending
  split
  · split
    · rw [watch?_serveTrigger_ne h, watch?_of_watches (watches_wake _)]
      exact watch?_modWatch_ne h
    · rfl
  · rfl

theorem onlyWatches_serveTrigger : OnlyWatches s (serveTrigger n due order gpio s) := by
  unfold serveTrigger
  split
  · dsimp only
    split <;> rfl
  · rfl

theorem onlyWatches_trigger (hp : s.tide.power ≠ .neap) : OnlyWatches s (trigger n due order gpio s) := by
  unfold trigger
  split
  · rfl
  · rw [wake_of_not_neap hp]
    split
    · rfl
    split
    · exact onlyWatches_serveTrigger
    split <;> rfl

theorem onlyWatches_startPending (hp : s.tide.power ≠ .neap) : OnlyWatches s (startPending n s) := by
  unfold startPending
  split
  · split
    · rw [wake_of_not_neap (by exact hp)]
      exact (onlyWatches_modWatch s n _).trans onlyWatches_serveTrigger
    · rfl
  · rfl

/-! ### What a trigger does to its watch -/

theorem started_eq (h : w.adapt = none) :
    { w with state := .running, held := none, heldGpio := false, groupWait := false, jobs := (w.jobs + 1) % 2 ^ 32,
             lastDue := due % 2 ^ 48, lastGpio := w.lastGpio,
             job := some { due := due, order := order, inputsDone := w.entry.inputKind == 0 },
             adapt := w.adapt.map (fun a => { a with activeB := a.activeB ^^ a.pending, pending := false }) } =
      w.started due order := by
  simp [Watch.started, h, beq_eq_decide]

theorem watch?_startJob (hw : s.watch? n = some w) (ha : w.adapt = none) : (startJob n due order gpio s).watch? n =
    some { w.started due order with lastGpio := if gpio then some s.sys.tick else w.lastGpio } := by
  refine (watch?_modWatch_same hw).trans ?_
  rw [← started_eq ha]

theorem serveTrigger_of_free (hw : s.watch? n = some w) (ha : w.adapt = none) (hb : s.groupBusy w = false)
    (hh : s.groupHeldBefore w (due, order, n) = false) : serveTrigger n due order gpio s = startJob n due order gpio s := by
  simp [serveTrigger, hw, hb, hh, Watch.stepping, ha]

/-- A watch of no share group starts its job at once (R62). -/
theorem watch?_serveTrigger (hw : s.watch? n = some w) (ha : w.adapt = none) (hg : w.entry.group = 0) :
    (serveTrigger n due order gpio s).watch? n =
      some { w.started due order with lastGpio := if gpio then some s.sys.tick else w.lastGpio } := by
  have hb : s.groupBusy w = false := by simp [State.groupBusy, hg]
  have hh : s.groupHeldBefore w (due, order, n) = false := by simp [State.groupHeldBefore, hg]
  rw [serveTrigger_of_free hw ha hb hh, watch?_startJob hw ha]

theorem trigger_of_armed (hp : s.tide.power ≠ .neap) (hw : s.watch? n = some w) (hs : w.state = .armed) (hh : w.held = none) :
    trigger n due order gpio s = serveTrigger n due order gpio s := by
  simp [trigger, hw, hs, hh, wake_of_not_neap hp]

theorem trigger_of_idle (hw : s.watch? n = some w) (hs : w.state = .dormant ∨ w.state = .faulted) :
    trigger n due order gpio s = s := by
  obtain hs | hs := hs <;> simp [trigger, hw, hs]

/-- A watch that is busy, DONE or held takes the trigger as pending or misses it (R56). -/
theorem watch?_trigger_of_busy (hp : s.tide.power ≠ .neap) (hw : s.watch? n = some w) (hb : w.busyOrHeld) :
    (trigger n due order false s).watch? n = some (w.pends due order) := by
  have hidle : (decide (w.state = .dormant) || decide (w.state = .faulted) || decide (w.state = .done) && w.flag 2) = false := by
    obtain h | h | h | ⟨h, hf⟩ | ⟨h, -⟩ := hb <;> simp [h]
    exact hf
  have harmed : (decide (w.state = .armed) && w.held.isNone) = false := by
    obtain h | h | h | ⟨h, -⟩ | ⟨h, hh⟩ := hb <;> simp [h]
    exact Option.isSome_iff_ne_none.mpr hh
  unfold trigger
  simp only [hw, hidle, harmed, wake_of_not_neap hp, Bool.false_eq_true, if_false]
  unfold Watch.pends
  split
  · exact watch?_modWatch_same hw
  · exact watch?_modWatch_same hw

theorem watch?_startPending (hp : s.tide.power ≠ .neap) (hw : s.watch? n = some w) (hs : w.state = .armed)
    (hpend : w.pending = true) (hg : w.entry.group = 0) (ha : w.adapt = none) : (startPending n s).watch? n =
      some (Watch.started w.pendingDue.1 w.pendingDue.2 { w with pending := false }) := by
  have hw' : (s.modWatch n fun w => { w with pending := false }).watch? n = some { w with pending := false } :=
    watch?_modWatch_same hw
  simp only [startPending, hw, hs, hpend, decide_true, Bool.and_self, if_true]
  rw [wake_of_not_neap (by exact hp), watch?_serveTrigger hw' ha hg]
  rfl

/-! ### Triggers of several watches -/

/-- Outside Neap triggers change the table alone. -/
theorem onlyWatches_triggerAll (hp : s.tide.power ≠ .neap) (l : List Nat) : OnlyWatches s (triggerAll l order gpio s) :=
  (onlyWatches_foldl (P := fun x => x.tide.power ≠ .neap)
    (fun _ _ hx => ⟨onlyWatches_trigger hx, (onlyWatches_trigger hx).tide ▸ hx⟩) hp).1

theorem watch?_triggerAll_of_not_mem {l : List Nat} (hn : n ∉ l) : (triggerAll l order gpio s).watch? n = s.watch? n :=
  watch?_foldl_of_not_mem (fun _ _ _ => watch?_trigger_ne) hn

/-- A watch among those triggered takes its trigger in a state where only other watches have changed. -/
theorem watch?_triggerAll_of_mem (hp : s.tide.power ≠ .neap) {l : List Nat} (hl : l.Nodup) (hn : n ∈ l) :
    ∃ u, (triggerAll l order gpio s).watch? n = (trigger n s.sys.tick order gpio u).watch? n ∧
      u.watch? n = s.watch? n ∧ OnlyWatches s u := by
  obtain ⟨pre, hpre, hu⟩ := watch?_foldl_of_mem (s := s) (g := fun s n => trigger n s.sys.tick order gpio s)
    (fun _ _ _ => watch?_trigger_ne) hl hn
  have ho : OnlyWatches s (triggerAll pre order gpio s) := onlyWatches_triggerAll hp pre
  refine ⟨triggerAll pre order gpio s, ?_, hu, ho⟩
  rw [← ho.sys]
  exact hpre

/-! ### TICK_TRIGGER -/

theorem tickDue_iff (k : Nat) (w : Watch) : tickDue k w = true ↔ w.entry.trigKind = 1 ∧ leAt w.entry.trigArg 4 4 ≤ k ∧
    (k - leAt w.entry.trigArg 4 4) % leAt w.entry.trigArg 0 4 = 0 := by
  simp [tickDue, and_assoc]

theorem watch?_tickTrigger_of_not_due (hok : s.tableOk) (hw : s.watch? n = some w) (h : tickDue s.sys.tick w = false) :
    (tickTrigger s).watch? n = some w := by
  refine (watch?_triggerAll_of_not_mem fun hn => ?_).trans hw
  rw [(mem_nums_iff hok hw _).mp hn] at h
  cases h

/-- A due watch takes the trigger of the tick. -/
theorem watch?_tickTrigger_of_due (hok : s.tableOk) (hp : s.tide.power ≠ .neap) (hw : s.watch? n = some w)
    (h : tickDue s.sys.tick w = true) : ∃ u, (tickTrigger s).watch? n = (trigger n s.sys.tick 0 false u).watch? n ∧
      u.watch? n = some w ∧ u.tide.power ≠ .neap := by
  obtain ⟨u, hu, huw, ho⟩ := watch?_triggerAll_of_mem (order := 0) (gpio := false) hp (nums_nodup hok (tickDue s.sys.tick))
    ((mem_nums_iff hok hw _).mpr h)
  exact ⟨u, hu, huw.trans hw, ho.tide ▸ hp⟩

/-! ### DONE_REARM -/

/-- A DONE watch that is no one-shot (R54). -/
def Watch.returns (w : Watch) : Bool := decide (w.state = .done) && !w.flag 2

/-- DONE_REARM's first half: the watches that return are ARMED. -/
def State.rearmed (s : State) : State :=
  ((s.watches.filter Watch.returns).map (·.entry.num)).foldl (fun s n => s.modWatch n fun w => { w with state := .armed }) s

/-- The numbers of the watches that return with a pending trigger, in the order of the queue. -/
def State.pendingNums (s : State) : List Nat :=
  (((s.watches.filter Watch.returns).filter (fun w => w.pending)).foldr insertPending []).map (·.entry.num)

theorem doneRearm_eq (s : State) :
    doneRearm s = s.pendingNums.foldl (fun s n => startPending n s) (keepVpix s s.rearmed) := by
  rw [State.pendingNums, State.rearmed, List.foldl_map, List.foldl_map]
  rfl

theorem insertPending_perm (w : Watch) (l : List Watch) : (insertPending w l).Perm (w :: l) := by
  induction l with
  | nil => exact .refl _
  | cons o l ih =>
    unfold insertPending
    split
    · exact .refl _
    · exact (ih.cons o).trans (.swap w o l)

theorem pendingNums_perm (s : State) :
    s.pendingNums.Perm ((s.watches.filter fun w => w.pending && w.returns).map (·.entry.num)) := by
  rw [← List.filter_filter]
  refine List.Perm.map _ ?_
  generalize (s.watches.filter Watch.returns).filter (fun w => w.pending) = l
  induction l with
  | nil => exact .refl _
  | cons w l ih => exact (insertPending_perm w _).trans (ih.cons w)

theorem mem_pendingNums_iff (hok : s.tableOk) (hw : s.watch? n = some w) :
    n ∈ s.pendingNums ↔ (w.pending && w.returns) = true :=
  (pendingNums_perm s).mem_iff.trans (mem_nums_iff hok hw _)

theorem watch?_keepVpix (before s : State) (n : Nat) : (keepVpix before s).watch? n = s.watch? n := by
  unfold keepVpix
  split <;> rfl

theorem watch?_rearmed (hok : s.tableOk) (hw : s.watch? n = some w) :
    s.rearmed.watch? n = some (if w.returns then { w with state := .armed } else w) := by
  have hg : ∀ (s : State) a m, m ≠ a → (s.modWatch a fun w => { w with state := .armed }).watch? m = s.watch? m :=
    fun _ _ _ => watch?_modWatch_ne
  split
  · next hr =>
    obtain ⟨pre, hpre, hu⟩ := watch?_foldl_of_mem hg (nums_nodup hok _) ((mem_nums_iff hok hw Watch.returns).mpr hr)
    exact hpre.trans (watch?_modWatch_same (hu.trans hw))
  · next hr =>
    exact (watch?_foldl_of_not_mem hg fun hn => hr ((mem_nums_iff hok hw _).mp hn)).trans hw

/-- A watch without a pending trigger, or that stays DONE, starts no job. -/
theorem watch?_doneRearm (hok : s.tableOk) (hw : s.watch? n = some w) (h : (w.pending && w.returns) = false) :
    (doneRearm s).watch? n = some (if w.returns then { w with state := .armed } else w) := by
  rw [doneRearm_eq, watch?_foldl_of_not_mem (fun _ _ _ => watch?_startPending_ne), watch?_keepVpix, watch?_rearmed hok hw]
  rw [mem_pendingNums_iff hok hw, h]
  exact Bool.false_ne_true

/-- Outside Neap a run of pending triggers changes the table alone. -/
theorem onlyWatches_startAll (hp : s.tide.power ≠ .neap) (l : List Nat) :
    OnlyWatches s (l.foldl (fun s n => startPending n s) s) :=
  (onlyWatches_foldl (P := fun x => x.tide.power ≠ .neap)
    (fun _ _ hx => ⟨onlyWatches_startPending hx, (onlyWatches_startPending hx).tide ▸ hx⟩) hp).1

theorem onlyWatches_rearmed (s : State) : OnlyWatches s s.rearmed :=
  (onlyWatches_foldl (P := fun _ => True) (fun s n _ => ⟨onlyWatches_modWatch s n _, trivial⟩) trivial).1

theorem power_keepVpix_rearmed (s : State) : (keepVpix s s.rearmed).tide.power = s.tide.power := by
  rw [← (onlyWatches_rearmed s).tide]
  unfold keepVpix
  split <;> rfl

/-- Beside the table DONE_REARM changes what is known of VPIX alone (R84). -/
theorem doneRearm_frame (hp : s.tide.power ≠ .neap) : doneRearm s =
    { s with watches := (doneRearm s).watches, tide := { s.tide with vpixReady := (doneRearm s).tide.vpixReady } } := by
  have h := onlyWatches_startAll ((power_keepVpix_rearmed s).symm ▸ hp) s.pendingNums
  rw [← doneRearm_eq] at h
  have hk : ∀ u, keepVpix s s.rearmed = u →
      u = { s with watches := u.watches, tide := { s.tide with vpixReady := u.tide.vpixReady } } := by
    rintro _ rfl
    have := onlyWatches_rearmed s
    rw [OnlyWatches] at this
    unfold keepVpix
    rw [this]
    split <;> rfl
  rw [OnlyWatches, hk _ rfl] at h
  rw [h]

/-- A pending trigger of a watch of no share group that returns starts its job (R54, R59). -/
theorem watch?_doneRearm_of_pending (hok : s.tableOk) (hp : s.tide.power ≠ .neap) (hw : s.watch? n = some w)
    (hpend : w.pending = true) (hr : w.returns = true) (hg : w.entry.group = 0) (ha : w.adapt = none) :
    (doneRearm s).watch? n = some (Watch.started w.pendingDue.1 w.pendingDue.2 { w with pending := false }) := by
  have hn : n ∈ s.pendingNums := (mem_pendingNums_iff hok hw).mpr (by simp [hpend, hr])
  obtain ⟨pre, hpre, hu⟩ := watch?_foldl_of_mem (s := keepVpix s s.rearmed) (g := fun s n => startPending n s)
    (fun _ _ _ => watch?_startPending_ne) ((pendingNums_perm s).nodup_iff.mpr (nums_nodup hok _)) hn
  have hp' := (power_keepVpix_rearmed s).symm ▸ hp
  rw [watch?_keepVpix, watch?_rearmed hok hw, if_pos hr] at hu
  rw [doneRearm_eq, hpre, watch?_startPending ((onlyWatches_startAll hp' pre).tide ▸ hp') hu rfl hpend hg ha]
  rfl

/-! ### GROUP_RELEASE -/

theorem tryHeld_of_free (hw : s.watch? n = some w) (hh : w.held = some (due, order)) (ha : w.adapt = none)
    (hb : s.groupBusy w = false) (hk : s.groupHeldBefore w (due, order, n) = false) :
    tryHeld n s = startJob n due order w.heldGpio s := by
  simp [tryHeld, hw, hh, hb, hk, Watch.stepping, ha]

theorem tryHeld_of_busy (hw : s.watch? n = some w) (hh : w.held = some (due, order))
    (hg : s.groupBusy w = true ∨ s.groupHeldBefore w (due, order, n) = true) :
    tryHeld n s = s.modWatch n fun w => { w with groupWait := true } := by
  have hg : (s.groupBusy w || s.groupHeldBefore w (due, order, n)) = true := by simpa using hg
  simp [tryHeld, hw, hh, hg]

end

/-- Settles O35: each command runs over the watches one by one, so that the watch of the statement meets its own step alone. -/
theorem triggersStartOrHoldJobs : Obligations.TriggersStartOrHoldJobs := by
  refine ⟨fun s n w hl hok hw hk hph hiv hp => ?_, fun s n w hl hok hw h => ?_, fun s n w hl hok hp hw => ?_,
    fun s n due order w hl hok hw hh => ?_, fun s n w hw hh => ?_⟩
  · obtain ⟨u, hu, huw, hup⟩ := watch?_tickTrigger_of_due hok hp hw ((tickDue_iff _ _).mpr ⟨hk, hph, hiv⟩)
    have ho : OnlyWatches s (tickTrigger s) := onlyWatches_triggerAll hp _
    refine ⟨fun hs hheld hg ha => ⟨_, next_inService hl _, ho, ?_⟩, fun hb => ⟨_, next_inService hl _, ho, ?_⟩,
      fun hs => ⟨_, next_inService hl _, ?_⟩⟩
    · rw [hu, trigger_of_armed hup huw hs hheld, watch?_serveTrigger huw ha hg]
      rfl
    · rw [hu, watch?_trigger_of_busy hup huw hb]
    · rw [hu, trigger_of_idle huw hs, huw]
  · refine ⟨_, next_inService hl _, watch?_tickTrigger_of_not_due hok hw ?_⟩
    rw [← Bool.not_eq_true, tickDue_iff]
    omega
  · refine ⟨_, next_inService hl _, doneRearm_frame hp, fun hpend => ?_, fun hpend hs hf hg ha => ?_, fun hs => ?_⟩
    · rw [watch?_doneRearm hok hw (by simp [hpend])]
      simp [Watch.returns]
    · exact watch?_doneRearm_of_pending hok hp hw hpend (by simp [Watch.returns, hs, hf]) hg ha
    · have hr : w.returns = false := by obtain hs | hs := hs <;> simp [Watch.returns, hs]
      rw [watch?_doneRearm hok hw (by simp [hr]), hr]
      rfl
  · refine ⟨fun ha hb hk => ?_, fun hg => ?_⟩
    · have he : groupRelease n s = startJob n due order w.heldGpio s := tryHeld_of_free hw hh ha hb hk
      refine ⟨_, next_inService hl _, by rw [he]; rfl, ?_, fun m hm => by rw [he, watch?_startJob_ne hm]⟩
      rw [he, watch?_startJob hw ha, hw]
      rfl
    · have he : groupRelease n s = _ := tryHeld_of_busy hw hh hg
      refine ⟨_, next_inService hl _, by rw [he]; rfl, ?_⟩
      rw [he]
      exact onlyWatch_modWatch s n
  · have he : groupRelease n s = s := by simp [groupRelease, tryHeld, hw, hh]
    refine congrArg Host.Outcome.next ?_
    unfold inService
    rw [he, ite_self]

end Sys2Proof.Machine
end

