-- ==== Sys2Proof/Proofs/Mailbox.lean ====
section
/-! PROOF. Proofs/Mailbox.lean: the mailbox commands on watches, NOP, STATS and READ_CAL (R42, R48, R54, R640, R654 to R656, R700). -/
namespace Sys2Proof.Machine
open Sys2Proof

section
variable {s t : State} {c : MbxCmd} {rest : List MbxCmd} {w : Watch}

/-! ### Little-endian fields (R8) -/

theorem length_leBytes (x n : Nat) : (leBytes x n).length = n := by
  induction n generalizing x with
  | zero => rfl
  | succ n ih => simp [leBytes, ih]

theorem leNat_leBytes (x n : Nat) : leNat (leBytes x n) = x % 256 ^ n := by
  induction n generalizing x with
  | zero => simp [leBytes, leNat, Nat.mod_one]
  | succ n ih =>
    rw [leBytes, leNat, ih, BitVec.toNat_ofNat, show 256 ^ (n + 1) = 256 * 256 ^ n from Nat.pow_succ', Nat.mod_mul]

theorem leAt_leBytes_append (x n : Nat) (ys : List Byte) : leAt (leBytes x n ++ ys) 0 n = x % 256 ^ n := by
  rw [leAt, List.drop_zero, List.take_append_of_le_length (length_leBytes x n).ge,
    List.take_of_length_le (length_leBytes x n).le, leNat_leBytes]

theorem leAt_append_right {xs : List Byte} {o : Nat} (h : xs.length ≤ o) (ys : List Byte) (n : Nat) :
    leAt (xs ++ ys) o n = leAt ys (o - xs.length) n := by
  rw [leAt, List.drop_append, List.drop_eq_nil_of_le h, List.nil_append, leAt]

theorem isRuntime_runtime (w : Watch) : isRuntime w w.runtime := by
  have hz : ∀ ys, leAt (zeros 2 ++ ys) 0 2 = 0 := fun ys => rfl
  simp only [isRuntime, Watch.runtime, List.append_assoc]
  refine ⟨by simp [length_leBytes, zeros], ?_, ?_, ?_, ?_, ?_, ?_, ?_, ?_⟩ <;>
    simp [leAt_append_right, leAt_leBytes_append, length_leBytes, hz, show (zeros 2).length = 2 from rfl]

/-! ### The front command -/

theorem mbxExec_eq {want : MbxCmd → Bool} {always : Bool} (h : s.mbxFront c rest) (hw : want c = true)
    (f : List Word → State → State) : mbxExec want always f s =
      if s.sys.fail ≠ 0 && !always then mbxComplete 0x13 none (s.mbxTaken c rest) else f c.args (s.mbxTaken c rest) := by
  obtain ⟨-, hp, hn, hr, hm⟩ := h
  have hready : s.mbxReady = true := by simp [State.mbxReady, hp, hn, hr]
  have htake : beginMbx c rest s = s.mbxTaken c rest := by
    rw [beginMbx, wake_of_not_neap (by simp [hp])]
    rfl
  unfold mbxExec
  simp only [hm, hw, hready, htake, Bool.and_self, if_true]
  rfl

/-- The front command, of CMD `code`, runs on the state that has taken it. -/
theorem next_mbx {code : Nat} {always : Bool} (h : s.mbxFront c rest) (hc : c.cmd = code) (hf : s.sys.fail = 0 ∨ always = true)
    (f : List Word → State → State) :
    (Host.Outcome.next (inService s (mbxExec (isCmd code) always f)) : Host.Outcome State Fault Refusal) =
      .next (f c.args (s.mbxTaken c rest)) := by
  have hfail : (decide (s.sys.fail ≠ 0) && !always) = false := by obtain hf | hf := hf <;> simp [hf]
  rw [next_inService h.1, mbxExec_eq h (decide_eq_true hc), hfail]
  rfl

/-- Completion changes the Host port and the fresh bits alone; s is the state before the command was taken. -/
theorem mbxComplete_taken (h : s.mbxFront c rest) (code : Nat) (d : Option (List Byte)) (ws : List Watch) (td : Tide) :
    mbxComplete code d { s.mbxTaken c rest with watches := ws, tide := td } =
      { s.mbxAnswered c rest code d with watches := ws, tide := td } := by
  obtain ⟨-, -, -, hr, -⟩ := h
  unfold mbxComplete State.mbxTaken State.mbxAnswered
  simp only [← hr]

/-- After a failed boot the front command completes with NO_IMAGE (R152). -/
theorem next_mbx_noImage {code : Nat} (h : s.mbxFront c rest) (hc : c.cmd = code) (hf : s.sys.fail ≠ 0)
    (f : List Word → State → State) :
    (Host.Outcome.next (inService s (mbxExec (isCmd code) false f)) : Host.Outcome State Fault Refusal) =
      .next (s.mbxAnswered c rest 0x13) := by
  have hfail : (decide (s.sys.fail ≠ 0) && !false) = true := by rw [decide_eq_true hf]; rfl
  rw [next_inService h.1, mbxExec_eq h (decide_eq_true hc), hfail]
  exact congrArg _ (mbxComplete_taken h 0x13 none s.watches s.tide)

/-! ### The arguments -/

theorem argsOk_nil_iff (c : MbxCmd) : argsOk [] c.args = true ↔ c.zeroFrom 0 := by
  simp only [argsOk, List.all_eq_true, List.mem_range, beq_iff_eq, List.getD_nil, Nat.and_zero]
  exact ⟨fun h j _ hj => BitVec.eq_of_toNat_eq (h j hj).symm,
    fun h j hj => (congrArg BitVec.toNat (h j (Nat.zero_le j) hj)).symm⟩

theorem argsOk_watch_iff (c : MbxCmd) : argsOk [0x3FF] c.args = true ↔ (c.arg 0).toNat < 1024 ∧ c.zeroFrom 1 := by
  have h0 : ∀ x : Nat, x &&& 0x3FF = x ↔ x < 1024 := fun x => by
    rw [show 0x3FF = 2 ^ 10 - 1 from rfl, Nat.and_two_pow_sub_one_eq_mod]
    omega
  have hz : ∀ i, 1 ≤ i → [0x3FF].getD i 0 = 0 := fun i hi => by
    obtain ⟨k, rfl⟩ := Nat.exists_eq_add_of_le' hi
    rfl
  simp only [argsOk, List.all_eq_true, List.mem_range, beq_iff_eq]
  refine ⟨fun h => ⟨(h0 _).mp (h 0 (by decide)), fun j hj hj8 => ?_⟩, fun ⟨h, hj⟩ i hi => ?_⟩
  · have := h j hj8
    rw [hz j hj, Nat.and_zero] at this
    exact BitVec.eq_of_toNat_eq this.symm
  · obtain rfl | hi1 := Nat.eq_zero_or_pos i
    · exact (h0 _).mpr h
    · rw [hz i hi1, show c.args.getD i 0 = 0 from hj i hi1 hi]
      rfl

theorem argsOk_false_of (h : (c.arg 0).toNat ≥ 1024 ∨ ¬c.zeroFrom 1) : argsOk [0x3FF] c.args = false := by
  rw [← Bool.not_eq_true, argsOk_watch_iff]
  rintro ⟨h0, hz⟩
  obtain h | h := h
  · omega
  · exact h hz

theorem fld_arg0 (h : (c.arg 0).toNat < 1024) : fld (c.args.getD 0 0).toNat 0 10 = (c.arg 0).toNat := by
  rw [fld, Nat.shiftRight_zero, show 2 ^ 10 = 1024 from rfl]
  exact Nat.mod_eq_of_lt h

/-! ### Commands on a watch -/

/-- A watch command whose unused bits are set completes with UNKNOWN. -/
theorem watchCommand_unknown (h : s.mbxFront c rest) (ha : (c.arg 0).toNat ≥ 1024 ∨ ¬c.zeroFrom 1)
    (f : Watch → State → State) :
    watchCommand f c.args (s.mbxTaken c rest) = s.mbxAnswered c rest 0x10 := by
  rw [watchCommand, checked, argsOk_false_of ha]
  exact mbxComplete_taken h 0x10 none s.watches s.tide

theorem watchCommand_noWatch (h : s.mbxFront c rest) (ha : (c.arg 0).toNat < 1024) (hz : c.zeroFrom 1)
    (hw : s.watch? (c.arg 0).toNat = none) (f : Watch → State → State) :
    watchCommand f c.args (s.mbxTaken c rest) = s.mbxAnswered c rest 0x11 := by
  have hw : (s.mbxTaken c rest).watch? (c.arg 0).toNat = none := hw
  rw [watchCommand, checked, (argsOk_watch_iff c).mpr ⟨ha, hz⟩, if_pos rfl, fld_arg0 ha, hw]
  exact mbxComplete_taken h 0x11 none s.watches s.tide

theorem watchCommand_watch (ha : (c.arg 0).toNat < 1024) (hz : c.zeroFrom 1)
    (hw : s.watch? (c.arg 0).toNat = some w) (f : Watch → State → State) :
    watchCommand f c.args (s.mbxTaken c rest) = f w (s.mbxTaken c rest) := by
  have hw : (s.mbxTaken c rest).watch? (c.arg 0).toNat = some w := hw
  rw [watchCommand, checked, (argsOk_watch_iff c).mpr ⟨ha, hz⟩, if_pos rfl, fld_arg0 ha, hw]

/-- Completion after a change of the table alone. -/
theorem mbxComplete_onlyWatches (h : s.mbxFront c rest) {u : State} (hu : OnlyWatches (s.mbxTaken c rest) u) (code : Nat) :
    mbxComplete code none u = { s.mbxAnswered c rest code with watches := u.watches } := by
  rw [hu]
  exact mbxComplete_taken h code none u.watches s.tide

/-! ### NOP (R640) -/

/-- Filling the Outbox changes the two queues and the BOOT bit of HOST_IRQ alone. -/
theorem refillOne_frame (s : State) : refillOne s =
    { s with host := { s.host with outbox := (refillOne s).host.outbox, backlog := (refillOne s).host.backlog,
                                   irq := (refillOne s).host.irq },
             fresh := { s.fresh with irq := (refillOne s).fresh.irq } } := by
  unfold refillOne
  split
  · rfl
  · split <;> rfl

theorem refill_mbxRun (k : Nat) (s : State) : (refill k s).host.mbxRun = s.host.mbxRun := by
  induction k generalizing s with
  | zero => rfl
  | succ k ih => rw [refill, ih, refillOne_frame]

theorem refill_of_nil (h : s.host.backlog = []) (k : Nat) : refill k s = s := by
  induction k with
  | zero => rfl
  | succ k ih => rw [refill, show refillOne s = s by simp [refillOne, h], ih]

/-- k records move at most, while there is room. -/
theorem queues_refill (k : Nat) (s : State) :
    (refill k s).host.outbox = s.host.outbox ++ (s.host.backlog.take (min k (64 - s.host.outbox.length))).map (·.bytes) ∧
    (refill k s).host.backlog = s.host.backlog.drop (min k (64 - s.host.outbox.length)) := by
  induction k generalizing s with
  | zero => simp [refill]
  | succ k ih =>
    rw [refill]
    unfold refillOne
    split
    · next hb =>
      rw [refill_of_nil hb]
      simp [hb]
    · next e l hb =>
      split
      · next h =>
        have hk : min (k + 1) (64 - s.host.outbox.length) = min k (64 - (s.host.outbox.length + 1)) + 1 := by omega
        obtain ⟨ho, hl⟩ := ih (pushOutbox e.bytes { s with host := { s.host with backlog := l } })
        rw [ho, hl, hb, hk]
        simp [pushOutbox]
      · next h =>
        have hk : ∀ k, min k (64 - s.host.outbox.length) = 0 := by omega
        rw [hk]
        exact hk k ▸ ih s

theorem mbxNop_of_zero (hz : c.zeroFrom 0) : mbxNop c.args (s.mbxTaken c rest) = mbxOk (refill 64 (s.mbxTaken c rest)) := by
  rw [mbxNop, checked, (argsOk_nil_iff c).mpr hz, if_pos rfl]

theorem mbxNop_answered (h : s.mbxFront c rest) (hz : c.zeroFrom 0) (hb : s.host.backlog = []) :
    mbxNop c.args (s.mbxTaken c rest) = s.mbxAnswered c rest 0 := by
  rw [mbxNop_of_zero hz, refill_of_nil (by exact hb)]
  exact mbxComplete_taken h 0 none s.watches s.tide

theorem mbxNop_refills (s : State) (rest : List MbxCmd) (hz : c.zeroFrom 0) :
    let t := mbxNop c.args (s.mbxTaken c rest)
    t.host.outbox = s.host.outbox ++ (s.host.backlog.take (64 - s.host.outbox.length)).map (·.bytes) ∧
    t.host.backlog = s.host.backlog.drop (64 - s.host.outbox.length) ∧ t.host.mbxCode = 0 ∧ t.host.mbxRun = none ∧
    t.watches = s.watches := by
  obtain ⟨ho, hb⟩ := queues_refill 64 (s.mbxTaken c rest)
  rw [Nat.min_eq_right (Nat.sub_le _ _)] at ho hb
  have hr : (refill 64 (s.mbxTaken c rest)).host.mbxRun = some c := refill_mbxRun 64 _
  have hw := watches_refill 64 (s.mbxTaken c rest)
  rw [mbxNop_of_zero hz]
  generalize refill 64 (s.mbxTaken c rest) = u at ho hb hr hw
  rw [mbxOk, mbxComplete, hr]
  exact ⟨ho, hb, rfl, rfl, hw⟩

/-! ### TRIGGER_WATCH, ARM and DISARM -/

theorem mbxTrigger_refused (h : s.mbxFront c rest)
    (hs : w.state = .dormant ∨ w.state = .faulted ∨ w.state = .done ∧ w.flag 2 = true) :
    mbxTrigger w (s.mbxTaken c rest) = s.mbxAnswered c rest 0x12 := by
  have hs : (decide (w.state = .dormant) || decide (w.state = .faulted) || decide (w.state = .done) && w.flag 2) = true := by
    obtain h | h | ⟨h, hf⟩ := hs <;> simp [*]
  rw [mbxTrigger, if_pos hs]
  exact mbxComplete_taken h 0x12 none s.watches s.tide

/-- A watch that takes triggers answers OK, and only the table changes. -/
theorem mbxTrigger_taken (h : s.mbxFront c rest)
    (hs : ¬(w.state = .dormant ∨ w.state = .faulted ∨ w.state = .done ∧ w.flag 2 = true)) :
    mbxTrigger w (s.mbxTaken c rest) = { s.mbxAnswered c rest 0 with
      watches := (trigger w.entry.num s.sys.tick 0 false (s.mbxTaken c rest)).watches } := by
  have hs : ¬(decide (w.state = .dormant) || decide (w.state = .faulted) || decide (w.state = .done) && w.flag 2) = true := by
    simpa [or_assoc] using hs
  have hp : (s.mbxTaken c rest).tide.power ≠ .neap := by rw [show (s.mbxTaken c rest).tide = s.tide from rfl, h.2.1]; decide
  rw [mbxTrigger, if_neg hs]
  exact mbxComplete_onlyWatches h (onlyWatches_trigger hp) 0

theorem onlyWatch_of_ne {u : State} {n : Nat} {f : Watch → Watch} (hw : s.watch? n = some w) (hn : u.watch? n = some (f w))
    (hm : ∀ m, m ≠ n → u.watch? m = s.watch? m) : onlyWatch s u n f := ⟨by rw [hn, hw]; rfl, hm⟩

theorem onlyWatch_trigger_of_armed (hp : s.tide.power ≠ .neap) {n due : Nat} (hw : s.watch? n = some w) (hs : w.state = .armed)
    (hh : w.held = none) (hg : w.entry.group = 0) (ha : w.adapt = none) :
    onlyWatch s (trigger n due 0 false s) n (Watch.started due 0) :=
  onlyWatch_of_ne hw (by rw [trigger_of_armed hp hw hs hh, watch?_serveTrigger hw ha hg]; rfl) fun _ => watch?_trigger_ne

theorem onlyWatch_trigger_of_busy (hp : s.tide.power ≠ .neap) {n due : Nat} (hw : s.watch? n = some w) (hb : w.busyOrHeld) :
    onlyWatch s (trigger n due 0 false s) n (Watch.pends due 0) :=
  onlyWatch_of_ne hw (watch?_trigger_of_busy hp hw hb) fun _ => watch?_trigger_ne

/-- ARM of a watch without a pending trigger: it is ARMED, and what is known of VPIX may fall (R84). -/
theorem mbxArm_arms (h : s.mbxFront c rest) (hw : s.watch? w.entry.num = some w) (hp : w.pending = false)
    (hs : w.state = .dormant ∨ (w.state = .done ∧ w.flag 2 = true) ∨ (w.state = .faulted ∧ 0x20 ≤ w.faultCode)) :
    ∃ t, mbxArm w (s.mbxTaken c rest) = t ∧
      t = { s.mbxAnswered c rest 0 with watches := t.watches, tide := { s.tide with vpixReady := t.tide.vpixReady } } ∧
      onlyWatch s t w.entry.num (fun w => { w with state := .armed, faultCode := 0 }) := by
  let u := (s.mbxTaken c rest).modWatch w.entry.num fun w => { w with state := .armed, faultCode := 0 }
  have hu : u.watch? w.entry.num = some { w with state := .armed, faultCode := 0 } := watch?_modWatch_same hw
  have hv : ∃ v, keepVpix (s.mbxTaken c rest) u =
      { s.mbxTaken c rest with watches := u.watches, tide := { s.tide with vpixReady := v } } := by
    unfold keepVpix
    split
    · exact ⟨s.tide.vpixReady, rfl⟩
    · exact ⟨false, rfl⟩
  obtain ⟨v, hv⟩ := hv
  have hpend : startPending w.entry.num (keepVpix (s.mbxTaken c rest) u) = keepVpix (s.mbxTaken c rest) u := by
    rw [startPending, watch?_keepVpix, hu]
    simp [hp]
  have he : mbxArm w (s.mbxTaken c rest) = mbxOk (startPending w.entry.num (keepVpix (s.mbxTaken c rest) u)) := by
    obtain hs | ⟨hs, hf⟩ | ⟨hs, hf⟩ := hs
    · simp [mbxArm, hs, u]
    · simp [mbxArm, hs, hf, u]
    · simp [mbxArm, hs, Nat.not_lt.mpr hf, u]
  rw [he, hpend, hv, mbxOk, mbxComplete_taken h]
  exact ⟨_, rfl, rfl, onlyWatch_modWatch s w.entry.num⟩

theorem mbxArm_keeps (h : s.mbxFront c rest)
    (hs : w.state = .armed ∨ w.state = .running ∨ w.state = .waitingEnergy ∨ w.state = .checkpointed) :
    mbxArm w (s.mbxTaken c rest) = s.mbxAnswered c rest 0 := by
  have he : mbxArm w (s.mbxTaken c rest) = mbxOk (s.mbxTaken c rest) := by obtain hs | hs | hs | hs := hs <;> simp [mbxArm, hs]
  rw [he]
  exact mbxComplete_taken h 0 none s.watches s.tide

theorem mbxArm_refused (h : s.mbxFront c rest) (hs : w.state = .faulted) (hf : w.faultCode < 0x20) :
    mbxArm w (s.mbxTaken c rest) = s.mbxAnswered c rest 0x12 := by
  have he : mbxArm w (s.mbxTaken c rest) = mbxComplete 0x12 none (s.mbxTaken c rest) := by simp [mbxArm, hs, hf]
  rw [he]
  exact mbxComplete_taken h 0x12 none s.watches s.tide

/-- DISARM of a watch that is not FAULTED, where the disarming changes the table alone. -/
theorem mbxDisarm_taken (h : s.mbxFront c rest) (hs : w.state ≠ .faulted) {f : Watch → Watch}
    (hd : disarmWatch w.entry.num (s.mbxTaken c rest) = (s.mbxTaken c rest).modWatch w.entry.num f)
    (hf : ∀ w, (f w).entry.num = w.entry.num) : ∃ t, mbxDisarm w (s.mbxTaken c rest) = t ∧
      t = { s.mbxAnswered c rest 0 with watches := t.watches } ∧ onlyWatch s t w.entry.num f := by
  rw [mbxDisarm, if_neg hs, hd, mbxOk, mbxComplete_onlyWatches h (onlyWatches_modWatch _ _ _)]
  exact ⟨_, rfl, rfl, onlyWatch_modWatch s w.entry.num hf⟩

theorem mbxDisarm_refused (h : s.mbxFront c rest) (hs : w.state = .faulted) :
    mbxDisarm w (s.mbxTaken c rest) = s.mbxAnswered c rest 0x12 := by
  rw [mbxDisarm, if_pos hs]
  exact mbxComplete_taken h 0x12 none s.watches s.tide

theorem disarmWatch_of_idle {n : Nat} (hw : s.watch? n = some w) (hs : w.state = .armed ∨ w.state = .done) : disarmWatch n s =
    s.modWatch n fun w => { w with state := .dormant, pending := false, held := none, heldGpio := false, groupWait := false } := by
  obtain hs | hs := hs <;> simp [disarmWatch, hw, hs]

theorem disarmWatch_of_running {n : Nat} (hw : s.watch? n = some w) (hs : w.state = .running) :
    disarmWatch n s = s.modJob n fun j => { j with disarm := true } := by
  simp [disarmWatch, hw, hs]

theorem mbxDisarm_dormant (h : s.mbxFront c rest) (hw : s.watch? w.entry.num = some w) (hs : w.state = .dormant) :
    mbxDisarm w (s.mbxTaken c rest) = s.mbxAnswered c rest 0 := by
  have hd : disarmWatch w.entry.num (s.mbxTaken c rest) = s.mbxTaken c rest := by
    rw [disarmWatch, show (s.mbxTaken c rest).watch? w.entry.num = some w from hw]
    simp [hs]
  rw [mbxDisarm, if_neg (by simp [hs]), hd]
  exact mbxComplete_taken h 0 none s.watches s.tide

/-! ### READ_CAL (R700) -/

theorem getElem?_rdBytes (m : List Host.Cell) (a : Nat) {n i : Nat} (h : i < n) :
    (rdBytes m a n)[i]? = some (rdByte m (a + i)) := by
  have hl : i < (rdBytes m a n).length := (length_rdBytes m a n).symm ▸ h
  rw [← getD_rdBytes m a n i h, List.getElem?_eq_getElem hl, List.getD_eq_getElem _ _ hl]

theorem length_calUnit (s : State) (u : Nat) : (s.calUnit u).length = 64 := by
  unfold State.calUnit
  split
  · split
    · exact length_rdBytes _ _ _
    · exact List.length_replicate
  · exact List.length_replicate

theorem getElem?_calUnit {t q u i : Nat} (hf : s.force 0 = some (t, q)) (hu : u ≤ 390) (hi : i < 64) :
    (s.calUnit u)[i]? = some (rdByte s.strand.data (0x8000 * t + 64 * u + i)) := by
  simp only [State.calUnit, hf, hu, if_true]
  exact getElem?_rdBytes _ _ hi

theorem calUnit_zero {u : Nat} (h : s.force 0 = none ∨ 390 < u) : s.calUnit u = List.replicate 64 0 := by
  unfold State.calUnit
  split
  · next hf =>
    obtain h | h := h
    · simp [h] at hf
    · rw [if_neg (by omega)]
      rfl
  · rfl

theorem mbxReadCal_answered (h : s.mbxFront c rest) (ha : (c.arg 0).toNat < 1024) (hz : c.zeroFrom 1) :
    mbxReadCal c.args (s.mbxTaken c rest) = s.mbxAnswered c rest 0 (some (s.calUnit (c.arg 0).toNat)) := by
  rw [mbxReadCal, checked, (argsOk_watch_iff c).mpr ⟨ha, hz⟩, if_pos rfl, fld_arg0 ha]
  exact mbxComplete_taken h 0 (some (s.calUnit (c.arg 0).toNat)) s.watches s.tide

theorem mbxStats_answered (h : s.mbxFront c rest) (w : Watch) :
    mbxStats w (s.mbxTaken c rest) = s.mbxAnswered c rest 0 (some w.runtime) :=
  mbxComplete_taken h 0 (some w.runtime) s.watches s.tide

end

section
variable {s : State} {c : MbxCmd} {rest : List MbxCmd}

/-- The command of a watch, of CMD `code`, runs its function on the watch that ARG0 names. -/
theorem next_watchCommand {code : Nat} {always : Bool} {w : Watch} (h : s.mbxFront c rest) (hc : c.cmd = code)
    (hf : s.sys.fail = 0 ∨ always = true) (ha : (c.arg 0).toNat < 1024) (hz : c.zeroFrom 1)
    (hw : s.watch? (c.arg 0).toNat = some w) (f : Watch → State → State) :
    (Host.Outcome.next (inService s (mbxExec (isCmd code) always (watchCommand f))) : Host.Outcome State Fault Refusal) =
      .next (f w (s.mbxTaken c rest)) :=
  (next_mbx h hc hf _).trans (congrArg _ (watchCommand_watch ha hz hw f))

/-- It completes with UNKNOWN or NO_WATCH before it runs (R655, R656). -/
theorem next_watchCommand_refused {code : Nat} {always : Bool} (h : s.mbxFront c rest) (hc : c.cmd = code) (hf : s.sys.fail = 0)
    (f : Watch → State → State) :
    let o : Host.Outcome State Fault Refusal := .next (inService s (mbxExec (isCmd code) always (watchCommand f)))
    ((c.arg 0).toNat ≥ 1024 ∨ ¬c.zeroFrom 1 → o = .next (s.mbxAnswered c rest 0x10)) ∧
    ((c.arg 0).toNat < 1024 → c.zeroFrom 1 → s.watch? (c.arg 0).toNat = none → o = .next (s.mbxAnswered c rest 0x11)) :=
  ⟨fun ha => (next_mbx h hc (.inl hf) _).trans (congrArg _ (watchCommand_unknown h ha f)),
    fun ha hz hw => (next_mbx h hc (.inl hf) _).trans (congrArg _ (watchCommand_noWatch h ha hz hw f))⟩

end

/-- Settles O29: each command takes the front of the queue and completes; what it does in between is a rule of the table. -/
theorem mailboxCommandsActOnTheirWatch : Obligations.MailboxCommandsActOnTheirWatch := by
  refine ⟨fun s c rest h hf => ⟨fun hc hz hb => ?_, fun hc hz => ?_, ?_,
    fun w ha hz hw => ⟨fun hc => ?_, fun hc hp => ?_, fun hc => ?_⟩, ?_⟩, fun s c rest h ha hz => ⟨fun w hc hw => ?_, fun hc => ?_⟩⟩
  · exact (next_mbx h hc (.inl hf) _).trans (congrArg _ (mbxNop_answered h hz hb))
  · exact ⟨_, next_mbx h hc (.inl hf) _, mbxNop_refills s rest hz⟩
  · simp only [List.forall_mem_cons]
    exact ⟨fun hc => next_watchCommand_refused h hc hf _, fun hc => next_watchCommand_refused h hc hf _,
      fun hc => next_watchCommand_refused h hc hf _, fun hc => next_watchCommand_refused h hc hf _, List.forall_mem_nil _⟩
  · have hn : s.watch? w.entry.num = some w := num_of_watch? hw ▸ hw
    have hpw : s.tide.power ≠ .neap := by simp [h.2.1]
    have hx : exec .triggerWatch s = .next (mbxTrigger w (s.mbxTaken c rest)) := next_watchCommand h hc (.inl hf) ha hz hw _
    rw [hx]
    refine ⟨fun hs => ⟨_, rfl, ?_⟩, fun hs => congrArg _ (mbxTrigger_refused h hs), fun hs hh hg had => ⟨_, rfl, ?_⟩,
      fun hb => ⟨_, rfl, ?_⟩⟩
    · rw [mbxTrigger_taken h (by obtain hs | hs | hs | hs := hs <;> simp [hs])]
      exact ⟨rfl, h.2.2.2.1⟩
    · rw [mbxTrigger_taken h (by simp [hs])]
      exact ⟨rfl, onlyWatch_trigger_of_armed (s := s.mbxTaken c rest) hpw hn hs hh hg had⟩
    · rw [mbxTrigger_taken h (by obtain hb | hb | hb | ⟨hb, hf⟩ | ⟨hb, -⟩ := hb <;> simp [*])]
      exact ⟨rfl, onlyWatch_trigger_of_busy (s := s.mbxTaken c rest) hpw hn hb⟩
  · have hn : s.watch? w.entry.num = some w := num_of_watch? hw ▸ hw
    have hx : exec .arm s = .next (mbxArm w (s.mbxTaken c rest)) := next_watchCommand h hc (.inl hf) ha hz hw _
    rw [hx]
    refine ⟨fun ⟨hs, hfc⟩ => congrArg _ (mbxArm_refused h hs hfc), fun hs => ?_, fun hs => congrArg _ (mbxArm_keeps h hs)⟩
    obtain ⟨t, ht, hr⟩ := mbxArm_arms h hn hp hs
    exact ⟨t, congrArg _ ht, hr⟩
  · have hn : s.watch? w.entry.num = some w := num_of_watch? hw ▸ hw
    have hx : exec .disarm s = .next (mbxDisarm w (s.mbxTaken c rest)) := next_watchCommand h hc (.inl hf) ha hz hw _
    rw [hx]
    refine ⟨fun hs => congrArg _ (mbxDisarm_refused h hs), fun hs => congrArg _ (mbxDisarm_dormant h hn hs), fun hs => ?_,
      fun hs => ?_⟩
    · obtain ⟨t, ht, hr⟩ := mbxDisarm_taken h (by obtain hs | hs := hs <;> simp [hs])
        (disarmWatch_of_idle (s := s.mbxTaken c rest) hn hs) fun _ => rfl
      exact ⟨t, congrArg _ ht, hr⟩
    · obtain ⟨t, ht, hr⟩ := mbxDisarm_taken h (by simp [hs])
        (disarmWatch_of_running (s := s.mbxTaken c rest) hn hs) fun _ => rfl
      exact ⟨t, congrArg _ ht, hr⟩
  · simp only [List.forall_mem_cons]
    have hn : ∀ f : BitVec 8, State.mbxFront { s with sys := { s.sys with fail := f } } c rest := fun _ => h
    exact ⟨fun hc f hf => next_mbx_noImage (hn f) hc hf _, fun hc f hf => next_mbx_noImage (hn f) hc hf _,
      fun hc f hf => next_mbx_noImage (hn f) hc hf _, fun hc f hf => next_mbx_noImage (hn f) hc hf _,
      fun hc f hf => next_mbx_noImage (hn f) hc hf _, fun hc f hf => next_mbx_noImage (hn f) hc hf _,
      fun hc f hf => next_mbx_noImage (hn f) hc hf _, fun hc f hf => next_mbx_noImage (hn f) hc hf _, List.forall_mem_nil _⟩
  · exact ⟨_, isRuntime_runtime w, (next_watchCommand h hc (.inr rfl) ha hz hw _).trans (congrArg _ (mbxStats_answered h w))⟩
  · exact ⟨_, (next_mbx h hc (.inr rfl) _).trans (congrArg _ (mbxReadCal_answered h ha hz)), length_calUnit s _,
      fun t q hf hu i hi => getElem?_calUnit hf hu hi, calUnit_zero⟩

end Sys2Proof.Machine
end

