-- ==== Sys2Proof/Proofs/Stops.lean ====
section
/-! PROOF. Proofs/Stops.lean: what records and log entries change, and how a stopped job is closed (R287, R308, R617, R718). -/
namespace Sys2Proof.Machine
open Sys2Proof

section
variable {s t u : State} {n m : Nat} {w : Watch}

/-! ### Reports: records and entries of the event log -/

/-- From s to t records of watch n and entries of the event log have been made: they change the Host port, its fresh bits, the log's
queue and books, and the sequence numbers of the watch (R43, R624, R639). -/
structure Reports (n : Nat) (s t : State) : Prop where
  frame : t = { s with watches := t.watches, host := t.host, fresh := t.fresh, err := t.err,
                       strand := { s.strand with logQueue := t.strand.logQueue } }
  own : ∃ a b, t.watch? n = (s.watch? n).map fun w => { w with nextSeq := a, lastSeq := b }
  others : ∀ m, m ≠ n → t.watch? m = s.watch? m

theorem reports_of_watches
    (hf : t = { s with watches := t.watches, host := t.host, fresh := t.fresh, err := t.err,
                       strand := { s.strand with logQueue := t.strand.logQueue } })
    (hw : t.watches = s.watches) : Reports n s t := by
  refine ⟨hf, ?_, fun m _ => watch?_of_watches hw m⟩
  rw [watch?_of_watches hw]
  cases s.watch? n with
  | none => exact ⟨0, 0, rfl⟩
  | some w => exact ⟨w.nextSeq, w.lastSeq, rfl⟩

theorem Reports.refl (n : Nat) (s : State) : Reports n s s := reports_of_watches rfl rfl

theorem Reports.trans (h : Reports n s t) (h' : Reports n t u) : Reports n s u := by
  obtain ⟨hf, ⟨a, b, ho⟩, hm⟩ := h
  obtain ⟨hf', ⟨a', b', ho'⟩, hm'⟩ := h'
  refine ⟨?_, ⟨a', b', ?_⟩, fun m hne => (hm' m hne).trans (hm m hne)⟩
  · rw [hf', hf]
  · rw [ho', ho, Option.map_map]
    rfl

theorem Reports.tide (h : Reports n s t) : t.tide = s.tide := by rw [h.frame]
theorem Reports.sys (h : Reports n s t) : t.sys = s.sys := by rw [h.frame]
theorem Reports.pix (h : Reports n s t) : t.pix = s.pix := by rw [h.frame]
theorem Reports.adc (h : Reports n s t) : t.adc = s.adc := by rw [h.frame]
theorem Reports.harbour (h : Reports n s t) : t.harbour = s.harbour := by rw [h.frame]
theorem Reports.otp (h : Reports n s t) : t.otp = s.otp := by rw [h.frame]
theorem Reports.core (h : Reports n s t) (c : Fin 4) : t.core c = s.core c := by
  rw [h.frame]
  fin_cases c <;> rfl

theorem Reports.own_of_some (h : Reports n s t) (hw : s.watch? n = some w) :
    ∃ a b, t.watch? n = some { w with nextSeq := a, lastSeq := b } := by
  obtain ⟨a, b, ho⟩ := h.own
  exact ⟨a, b, by rw [ho, hw]; rfl⟩

theorem reports_logEntry (e : LogInfo) (s : State) : Reports n s (logEntry e s) := by
  refine reports_of_watches ?_ (watches_logEntry e s)
  obtain ⟨er, h⟩ | ⟨er, h⟩ := logEntry_cases e s <;> rw [h]

theorem reports_takeSeq (s : State) : Reports n s (takeSeq (some n) s).2 := by
  obtain ⟨q, hq⟩ : ∃ q, (takeSeq (some n) s).2 = s.modWatch n fun w => { w with nextSeq := (q + 1) % 65536, lastSeq := q % 256 } :=
    ⟨_, rfl⟩
  rw [hq]
  exact ⟨rfl, ⟨_, _, (onlyWatch_modWatch s n).1⟩, fun m hm => watch?_modWatch_ne hm⟩

/-- A change of the Host port and its fresh bits alone. -/
theorem reports_host (s : State) (h : HostPort) (f : Fresh) : Reports n s { s with host := h, fresh := f } :=
  reports_of_watches rfl rfl

theorem reports_pushOutbox (b : List Byte) (s : State) : Reports n s (pushOutbox b s) := reports_host s _ _

theorem reports_countMerge (v : Nat) (a b : Entry) (s : State) : Reports n s (countMerge v a b s) := by
  unfold countMerge
  dsimp only
  split
  · exact reports_host s _ _
  · exact (reports_host s _ _).trans (reports_logEntry _ _)

theorem reports_placeRecord {d : Draft} (hd : d.watch = some n) (h : placeRecord d s = some t) : Reports n s t := by
  have hs : ∀ b, Reports n s (numberRecord d b s).2 := fun b => by
    rw [numberRecord, hd]
    exact reports_takeSeq s
  unfold placeRecord at h
  split at h
  · cases h
    exact (hs false).trans (reports_pushOutbox _ _)
  split at h
  · cases h
    exact (hs true).trans (reports_host _ _ _)
  split at h
  · cases h
  · cases h
    exact ((hs true).trans (reports_host _ _ _)).trans (reports_countMerge _ _ _ _)

theorem reports_release {d : Draft} (hd : d.watch = some n) (s : State) : Reports n s (release d s) := by
  unfold release
  split
  · split
    · next h => exact reports_placeRecord hd h
    · exact reports_host s _ _
  · exact reports_host s _ _

/-! ### The inputs of a job that ends -/

/-- The pixel array is free of watch n: its berths still FILLING return to IDLE and PIX_EN falls (R269, R287). -/
def State.dropPix (n : Nat) (s : State) : State :=
  match s.pix.cap with
  | some c =>
    if c.watch = n then
      keepVpix s { s with pix := { s.pix with cap := none, berths := s.pix.berths.filter (fun b => b.2 != BerthState.filling) },
                          tide := { s.tide with pixEn := false } }
    else s
  | none => s

/-- The Aux ADC is free of watch n (R308). -/
def State.dropAdc (n : Nat) (s : State) : State :=
  match s.adc.cap with
  | some c => if c.watch = n then { s with adc := { s.adc with cap := none, iepeJob := 0 } } else s
  | none => s

theorem dropInputs_eq (n : Nat) (s : State) : dropInputs n s = (s.dropPix n).dropAdc n := rfl

theorem keepVpix_frame (before s : State) :
    keepVpix before s = { s with tide := { s.tide with vpixReady := (keepVpix before s).tide.vpixReady } } := by
  unfold keepVpix
  split <;> rfl

theorem dropPix_frame (n : Nat) (s : State) : s.dropPix n = { s with
    pix := (s.dropPix n).pix,
    tide := { s.tide with pixEn := (s.dropPix n).tide.pixEn, vpixReady := (s.dropPix n).tide.vpixReady } } := by
  unfold State.dropPix
  split
  · split
    · rw [keepVpix_frame]
    · rfl
  · rfl

theorem dropAdc_frame (n : Nat) (s : State) : s.dropAdc n = { s with adc := (s.dropAdc n).adc } := by
  unfold State.dropAdc
  split
  · split <;> rfl
  · rfl

/-- The inputs, and nothing else, change. -/
theorem dropInputs_frame (n : Nat) (s : State) : dropInputs n s = { s with
    pix := (dropInputs n s).pix, adc := (dropInputs n s).adc,
    tide := { s.tide with pixEn := (dropInputs n s).tide.pixEn, vpixReady := (dropInputs n s).tide.vpixReady } } := by
  rw [dropInputs_eq, dropAdc_frame, dropPix_frame]

theorem dropInputs_pix {c : Capture} (hc : s.pix.cap = some c) : (dropInputs c.watch s).tide.pixEn = false ∧
    (dropInputs c.watch s).pix =
      { s.pix with cap := none, berths := s.pix.berths.filter (fun b => b.2 != BerthState.filling) } := by
  rw [dropInputs_eq, dropAdc_frame]
  simp only [State.dropPix, hc, if_true]
  rw [keepVpix_frame]
  exact ⟨rfl, rfl⟩

theorem dropInputs_adc_cap (h : s.adc.cap = none) (n : Nat) : (dropInputs n s).adc.cap = none := by
  have h : (s.dropPix n).adc.cap = none := by rw [dropPix_frame, h]
  rw [dropInputs_eq, State.dropAdc, h]
  exact h

theorem berth_of_no_filling {b : Nat} (hb : t.pix.berths = s.pix.berths.filter (fun b => b.2 != BerthState.filling)) :
    t.berth b ≠ .filling ∧ (s.berth b ≠ .filling → t.berth b = s.berth b) := by
  unfold State.berth
  rw [hb]
  constructor
  · split
    · next e he =>
      have := List.of_mem_filter (List.mem_of_find?_eq_some he)
      simpa using this
    · simp
  · generalize s.pix.berths = l
    induction l with
    | nil => exact fun _ => rfl
    | cons e l ih =>
      by_cases hb : e.1 = b <;> by_cases hf : e.2 = .filling <;> simp_all

/-! ### A job that is stopped (R617) -/

/-- The last part of a stop's closing: the inputs and requests are dropped, the watch is FAULTED, SYS_FAULT names it (R617, R718). -/
def State.jobClosed (x : Stop) (s : State) : State :=
  let s := dropRequests x.watch (dropInputs x.watch s)
  let s := s.modWatch x.watch (fun w => { w with state := .faulted, faultCode := x.code, job := none, held := none,
                                                 heldGpio := false, groupWait := false })
  { s with err := { s.err with fault := some (x.watch, x.code), stops := satAdd s.err.stops 1 0xFFFF,
                               uncorrFatal := satAdd s.err.uncorrFatal (b2n (x.code == 0x24 || x.code == 0x14)) 255 } }

/-- A stop reports, closes the job and leaves Spring where the job was in it. -/
theorem finishStop_eq {x : Stop} (hw : s.watch? x.watch = some w) : ∃ u, Reports x.watch s u ∧
    finishStop x s = if (w.job.getD {}).inSpring then leaveSpring (u.jobClosed x) else u.jobClosed x := by
  let d := jobDraft w 8 false (leBytes x.code 2 ++ leBytes x.exc 1 ++ leBytes (x.core.getD 0xFF) 1)
    (leBytes x.code 2 ++ leBytes x.exc 1 ++ leBytes (x.core.getD 0xFF) 1)
  refine ⟨logEntry (s.stopInfo x w) (release d s), (reports_release ?_ s).trans (reports_logEntry _ _), ?_⟩
  · rw [← num_of_watch? hw]
    unfold d jobDraft
    split <;> rfl
  · rw [finishStop, hw]
    rfl

theorem watches_jobClosed (x : Stop) (s : State) : (s.jobClosed x).watches =
    (s.modWatch x.watch (fun w => { w with state := .faulted, faultCode := x.code, job := none, held := none,
                                           heldGpio := false, groupWait := false })).watches := by
  rw [State.jobClosed, dropInputs_frame]
  rfl

theorem watchFaulted_jobClosed {x : Stop} (h : Reports x.watch s u) : watchFaulted s (u.jobClosed x) x.watch x.code := by
  refine ⟨fun w hw => ?_, fun m hm => ?_, rfl⟩
  · obtain ⟨a, b, ho⟩ := h.own_of_some hw
    rw [watch?_of_watches (watches_jobClosed x u)]
    exact ⟨_, watch?_modWatch_same ho, rfl, rfl, rfl, rfl, rfl⟩
  · rw [watch?_of_watches (watches_jobClosed x u), watch?_modWatch_ne hm, h.others m hm]

/-- A job outside Spring is closed at once (R617). -/
theorem watchFatal_eq {j : Job} (hw : s.watch? n = some w) (hj : w.job = some j) (hs : j.inSpring = false) (code exc : Nat)
    (core : Option Nat) : ∃ u x, x.watch = n ∧ x.code = code ∧ Reports n s u ∧ watchFatal n code exc core s = u.jobClosed x := by
  let x : Stop := { watch := n, code := code, exc := exc, core := core, tick := s.sys.tick, source := stopSource code, addr := 0 }
  obtain ⟨u, hu, he⟩ := finishStop_eq (x := x) hw
  refine ⟨u, x, rfl, rfl, hu, ?_⟩
  have hx : watchFatal n code exc core s = finishStop x s := by
    simp [watchFatal, watchFatalAt, stopJob, hw, hj, hs, x]
  rw [hx, he]
  simp [hj, hs]

end

end Sys2Proof.Machine
end

