-- ==== Sys2Proof/Proofs/InputSupply.lean ====
section
/-! PROOF. Proofs/InputSupply.lean: a job takes its input, and XREF and VPIX supply it or fail (R60, R84, R89, R90, R286, R287, R307). -/
namespace Sys2Proof.Machine
open Sys2Proof

section
variable {s t : State} {n : Nat} {w : Watch} {j : Job}

/-! ### INPUT_ACQUIRE -/

/-- A job that waits first in the queue for its input, outside Neap and thermal shutdown, may take it (R60). -/
theorem inputAcquire_eq (hw : s.watch? n = some w) (hj : w.job = some j) (hr : w.state = .running) (ha : j.acquired = false)
    (hs : j.inSpring = false) (hf : s.firstFor w = true) (hst : s.stopping = none) (hp : s.tide.power ≠ .neap)
    (ht : s.tide.thermalShutdown = false) : inputAcquire n s =
      if w.entry.inputKind = 1 && s.pix.cap.isNone then acquirePixels w s
      else if w.entry.inputKind = 2 && s.adc.cap.isNone && s.adc.cal.isNone && !decide (ResetUnit.adc ∈ s.sys.resetting) then
        acquireAdc w s
      else s := by
  have hwant : w.wantsInput w.entry.inputKind = true := by simp [Watch.wantsInput, hr, hj, ha, hs]
  have hstop : s.stopsJob n = false := by simp [State.stopsJob, hst]
  have hp : decide (s.tide.power ≠ .neap) = true := decide_eq_true hp
  simp only [inputAcquire, hw, hwant, hf, hstop, hp, ht]
  rfl

theorem needXref_eq (s : State) : needXref s =
    { s with tide := { s.tide with xrefOn := true, xrefReady := s.tide.xrefOn && s.tide.xrefReady } } := by
  unfold needXref
  split
  · next h =>
    simp only [h, Bool.true_and]
    rw [← h]
  · next h => simp only [h, Bool.false_and]

/-- A job that changes neither its watch's entry nor its state moves PIX_EN not at all. -/
theorem pixEnable_modJob (s : State) (n : Nat) (f : Job → Job) : (s.modJob n f).pixEnable = s.pixEnable := by
  have h : (s.modJob n f).watches.any (fun w => w.entry.trigKind == 5 && decide (w.state = .armed)) =
      s.watches.any (fun w => w.entry.trigKind == 5 && decide (w.state = .armed)) := by
    rw [watches_modJob, List.any_map]
    congr 1
    funext w
    dsimp only [Function.comp]
    split <;> rfl
  simp only [State.pixEnable, State.sentinelOn, h]
  rfl

theorem pixEnable_of_pixEn (ht : s.tide.thermalShutdown = false) (h : s.tide.pixEn = true) : s.pixEnable = true := by
  simp [State.pixEnable, ht, h]

theorem keepVpix_of_pixEnable (before : State) (h : s.pixEnable = true) : keepVpix before s =
    { s with tide := { s.tide with vpixReady := before.pixEnable && s.tide.vpixReady } } := by
  rw [keepVpix, h]
  cases before.pixEnable <;> rfl

theorem acquirePixels_eq (ht : s.tide.thermalShutdown = false) (w : Watch) : acquirePixels w s =
    { s.modJob w.entry.num (fun j => { j with acquired := true, unitNum := w.unitCounter }) with
      pix := { s.pix with cap := some { watch := w.entry.num } },
      tide := { s.tide with pixEn := true, vpixReady := s.pixEnable && s.tide.vpixReady, xrefOn := true,
                            xrefReady := s.tide.xrefOn && s.tide.xrefReady } } := by
  rw [acquirePixels, needXref_eq, keepVpix_of_pixEnable, pixEnable_modJob]
  · rfl
  · exact pixEnable_of_pixEn ht rfl

theorem onlyWatch_acquired (hw : s.watch? n = some w) (hj : w.job = some j) :
    onlyWatch s (s.modJob n fun j => { j with acquired := true, unitNum := w.unitCounter }) n
      fun w => { w with job := some { j with acquired := true, unitNum := w.unitCounter } } := by
  refine onlyWatch_of_ne hw ?_ fun m hm => watch?_modWatch_ne hm
  exact (watch?_modWatch_same hw).trans (by rw [hj]; rfl)

/-- A spectral job takes the Aux ADC with block numbers, IEPE lines and chains of its sequencer program (R307, R308). -/
theorem acquireAdc_spec (hn : w.entry.num = n) (hw : s.watch? n = some w) : ∃ a,
    (acquireAdc w s).adc.cap = some a ∧ a.watch = n ∧ a.blockBase = w.unitCounter ∧
    a.iepeTick = s.sys.tick ∧ a.bgDone = false ∧ a.running = false ∧ a.chains.length = (s.adcSeq w).chains.length ∧
    (acquireAdc w s).adc.iepeJob = BitVec.ofNat 4 (s.adcSeq w).iepe ∧ (acquireAdc w s).tide.xrefOn = true ∧
    (acquireAdc w s).pix = s.pix ∧ (∀ m, m ≠ n → (acquireAdc w s).watch? m = s.watch? m) ∧
    ∃ w', (acquireAdc w s).watch? n = some w' ∧ w'.unitCounter = (w.unitCounter + w.entry.inputUnits) % 2 ^ 32 := by
  subst hn
  rw [acquireAdc, needXref_eq]
  refine ⟨_, rfl, rfl, rfl, rfl, rfl, rfl, ?_, rfl, rfl, rfl, fun m hm => ?_, ?_⟩
  · simp
  · exact (watch?_modWatch_ne hm).trans (watch?_modWatch_ne hm)
  · exact ⟨_, watch?_modWatch_same (watch?_modWatch_same hw), rfl⟩

/-! ### XREF and VPIX -/

theorem startPorts_of_single (h : s.single) : startPorts s = s := by
  have hu : s.usedPorts = [] := by simp [State.usedPorts, show s.cw.cfg.role = 0 from h]
  simp [startPorts, hu]

/-- A stop of the job that holds the array frees it, and nothing but the supply's known state changes in the Tide (R287). -/
theorem pixelJob_fatal {c : Capture} (hc : s.pix.cap = some c) (hw : s.watch? c.watch = some w) (hj : w.job = some j)
    (hs : j.inSpring = false) (code : Nat) : ∃ t, watchFatal c.watch code 0 none s = t ∧
      watchFaulted s t c.watch code ∧ t.pix.cap = none ∧ t.tide.pixEn = false ∧ t.tide.xrefOn = s.tide.xrefOn ∧
      (s.adc.cap = none → t.adc.cap = none) ∧ ∀ b, t.berth b ≠ .filling ∧ (s.berth b ≠ .filling → t.berth b = s.berth b) := by
  obtain ⟨u, x, hxw, rfl, hu, he⟩ := watchFatal_eq hw hj hs code 0 none
  have hf : watchFaulted s (u.jobClosed x) c.watch x.code := hxw ▸ watchFaulted_jobClosed (hxw ▸ hu)
  obtain ⟨hpe, hpix⟩ := dropInputs_pix (s := u) (hu.pix ▸ hc)
  have hp : (u.jobClosed x).pix = (dropInputs c.watch u).pix := hxw ▸ rfl
  have ht : (u.jobClosed x).tide = (dropInputs c.watch u).tide := hxw ▸ rfl
  have ha : (u.jobClosed x).adc = (dropInputs c.watch u).adc := hxw ▸ rfl
  refine ⟨_, he, hf, by rw [hp, hpix], ht ▸ hpe, ?_, fun h => ?_, fun b => ?_⟩
  · rw [ht, dropInputs_frame, hu.tide]
  · rw [ha]
    exact dropInputs_adc_cap (hu.adc ▸ h) _
  · refine berth_of_no_filling ?_
    rw [hp, hpix, hu.pix]

theorem xrefTimeout_eq {c : Capture} (hc : s.pix.cap = some c) (hon : s.tide.xrefOn = true) (hr : s.tide.xrefReady = false) :
    xrefTimeout s =
      let t := watchFatal c.watch 0x2C 0 none { s with tide := { s.tide with xrefOn := false } }
      match t.adc.cap with
      | some a => watchFatal a.watch 0x2C 0 none t
      | none => t := by
  simp only [xrefTimeout, hon, hr, hc] <;> rfl

end

/-- Settles O37: an input is taken as its equations say, and a failing supply closes the job that holds the array. -/
theorem inputsAreAcquiredAndSupplied : Obligations.InputsAreAcquiredAndSupplied := by
  refine ⟨fun s n w j hl _ hw hj hr ha hs hf hst hp ht => ?_, fun s hl hon h1 => ?_, fun s hl he => ?_,
    fun s c w j hl _ hc hw hj hs => ⟨fun hon hr ha => ?_, fun hpe hv => ?_, fun hrd => ?_, fun hrd => ?_⟩⟩
  · have he := inputAcquire_eq hw hj hr ha hs hf hst hp ht
    have hn := num_of_watch? hw
    have hx : exec (.inputAcquire n) s = .next (inputAcquire n s) := next_inService hl _
    refine ⟨fun hk hc => ⟨_, hx, ?_⟩, fun hk hc hcal hres => ?_⟩
    · rw [he, hk, hc, acquirePixels_eq ht, hn]
      exact ⟨rfl, onlyWatch_acquired hw hj⟩
    · have he : inputAcquire n s = acquireAdc w s := by
        rw [he]
        simp [hk, hc, hcal, hres]
      exact ⟨_, (acquireAdc_spec hn hw).choose, hx.trans (congrArg _ he), (acquireAdc_spec hn hw).choose_spec⟩
  · refine (next_inService hl xrefReady).trans (congrArg _ ?_)
    rw [xrefReady, if_pos hon, startPorts_of_single (by exact h1)]
  · exact (next_inService hl vpixReadyEvent).trans (congrArg _ (if_pos he))
  · obtain ⟨t, ht, hf, hcap, hpe, hx, hadc, -⟩ := pixelJob_fatal (s := { s with tide := { s.tide with xrefOn := false } })
      hc hw hj hs 0x2C
    refine ⟨t, (next_inService hl xrefTimeout).trans (congrArg _ ?_), hf, hcap, hpe, hx⟩
    rw [xrefTimeout_eq hc hon hr, ht]
    dsimp only
    rw [hadc ha]
  · obtain ⟨t, ht, hf, hcap, hpe', -⟩ := pixelJob_fatal hc hw hj hs 0x2D
    refine ⟨t, (next_inService hl vpixWaitTimeout).trans (congrArg _ ?_), hf, hcap, hpe'⟩
    simp [vpixWaitTimeout, pixelSupply, hpe, hv, hc, ht]
  · obtain ⟨t, ht, hf, hcap, -, -, -, hb⟩ := pixelJob_fatal hc hw hj hs 0x2D
    refine ⟨t, (next_inService hl vpixLow).trans (congrArg _ ?_), hf, hcap, fun b => (hb b).1, fun b => (hb b).2⟩
    simp [vpixLow, pixelSupply, hc, Option.isSome_iff_ne_none.mpr hrd, ht]
  · refine (next_inService hl vpixLow).trans (congrArg _ ?_)
    simp [vpixLow, hc, hrd]

end Sys2Proof.Machine
end

