-- ==== Sys2Proof/Proofs/Outbox.lean ====
section
/-! PROOF. Proofs/Outbox.lean: the bytes of a record, held records and the backlog (R622, R639, R640, R645, R647). -/
namespace Sys2Proof.Machine
open Sys2Proof

section
variable {s t : State}

/-! ### The bytes of a record (R647) -/

theorem length_shaBlocks (n : Nat) (h : List (BitVec 32)) (bs : List Byte) (hl : h.length = 8) : (shaBlocks n h bs).length = 8 := by
  induction n generalizing h bs with
  | zero => exact hl
  | succ n ih => exact ih _ _ (by simp [shaBlock, hl])

theorem length_sha256 (bs : List Byte) : (sha256 bs).length = 32 := by
  have hb : ∀ w : BitVec 32, (beBytes w.toNat 4).length = 4 := fun w => by rw [beBytes, List.length_reverse, length_leBytes]
  simp only [sha256, List.length_flatMap, hb]
  rw [List.map_const', List.sum_replicate, length_shaBlocks _ _ _ rfl]
  rfl

theorem length_padTo (bs : List Byte) (n : Nat) : (padTo bs n).length = n := by
  simp [padTo, zeros]

/-- The first 16 bytes of a record. -/
def recordHead (key : Option (List Byte)) (type : Nat) (more backlog resumed : Bool) (watch : Option Nat) (seq tick frame : Nat) :
    List Byte :=
  leBytes type 1 ++ (leBytes (b2n key.isSome + 2 * b2n more + 16 * b2n backlog + 32 * b2n resumed) 1 ++ (leBytes (watchCode watch) 2 ++
    (leBytes seq 2 ++ (leBytes tick 6 ++ leBytes frame 4))))

theorem length_recordHead (key type more backlog resumed watch seq tick frame) :
    (recordHead key type more backlog resumed watch seq tick frame).length = 16 := by
  simp [recordHead, length_leBytes]

/-- A record is its first 16 bytes and 16 bytes of payload, an owner tag among them where it has a key (R78). -/
theorem recordBytes_eq (key type more backlog resumed watch seq tick frame plain short) : ∃ p : List Byte, p.length = 16 ∧
    recordBytes key type more backlog resumed watch seq tick frame plain short =
      recordHead key type more backlog resumed watch seq tick frame ++ p := by
  unfold recordBytes recordHead
  cases key with
  | none => exact ⟨padTo plain 16, length_padTo _ _, by simp only [List.append_assoc]⟩
  | some k =>
    refine ⟨padTo short 8 ++ ownerTag k _, ?_, by simp only [List.append_assoc]; rfl⟩
    rw [List.length_append, length_padTo, ownerTag, hmacSha256, List.length_take, length_sha256]
    rfl

/-- What a draft gives to the bytes of its record, whatever its number, tick and tag (R622, R647). -/
def recordOf (d : Draft) (b : List Byte) : Prop :=
  b.length = 32 ∧ byteAt b 0 = d.type % 256 ∧ leAt b 2 2 = d.watch.getD 0xFFFF % 2 ^ 16 ∧ leAt b 12 4 = d.frame % 2 ^ 32

theorem recordOf_numberRecord (d : Draft) (backlog : Bool) (s : State) : recordOf d (numberRecord d backlog s).1 := by
  obtain ⟨p, hp, he⟩ := recordBytes_eq (s.tagKey d.watch) d.type d.more backlog d.resumed d.watch (takeSeq d.watch s).1 s.sys.tick
    d.frame d.plain d.short
  have he : (numberRecord d backlog s).1 = _ := he
  rw [recordOf, he]
  refine ⟨by rw [List.length_append, length_recordHead, hp], ?_, ?_, ?_⟩
  · simp [recordHead, leBytes, byteAt]
  · simp [recordHead, leAt_append_right, leAt_leBytes_append, length_leBytes, watchCode]
  · simp [recordHead, leAt_append_right, leAt_leBytes_append, length_leBytes]

/-! ### HELD_RECORD_PLACE (R645) -/

/-- With room in the Outbox and an empty backlog the record goes into the Outbox. -/
theorem placeRecord_of_room (d : Draft) (hb : s.host.backlog = []) (ho : s.host.outbox.length < 64) : placeRecord d s =
    some (pushOutbox (numberRecord d false s).1 (numberRecord d false s).2) := by
  simp [placeRecord, hb, ho]

/-- With a full backlog and no watch that has two entries the record is not placed. -/
theorem placeRecord_of_full (d : Draft) (hb : 512 ≤ s.host.backlog.length) (hw : s.watches = []) : placeRecord d s = none := by
  have he : s.host.backlog.isEmpty = false := by
    cases h : s.host.backlog with
    | nil => simp [h] at hb
    | cons => rfl
  simp [placeRecord, he, Nat.not_lt.mpr hb, State.victim, hw]

theorem numberRecord_frame (d : Draft) (backlog : Bool) (s : State) : (numberRecord d backlog s).2.host.outbox = s.host.outbox ∧
    (numberRecord d backlog s).2.host.backlog = s.host.backlog ∧ (numberRecord d backlog s).2.strand = s.strand ∧
    (numberRecord d backlog s).2.harbour = s.harbour := by
  have he : (numberRecord d backlog s).2 = (takeSeq d.watch s).2 := rfl
  rw [he]
  obtain ⟨q, h⟩ | ⟨n, f, -, h⟩ := takeSeq_cases d.watch s <;> rw [h]
  · exact ⟨rfl, rfl, rfl, rfl⟩
  · exact ⟨rfl, rfl, rfl, rfl⟩

/-- Held records that all find room in the Outbox go there in order. -/
theorem placeHeld_of_room (ds : List Draft) (hh : s.host.held = ds) (hb : s.host.backlog = [])
    (ho : s.host.outbox.length + ds.length ≤ 64) : ∃ rs, (placeHeld ds.length s).host.held = [] ∧
      (placeHeld ds.length s).host.outbox = s.host.outbox ++ rs ∧ List.Forall₂ recordOf ds rs ∧
      (placeHeld ds.length s).host.backlog = [] ∧ (placeHeld ds.length s).strand = s.strand ∧
      (placeHeld ds.length s).harbour = s.harbour := by
  induction ds generalizing s with
  | nil => exact ⟨[], hh, (List.append_nil _).symm, .nil, hb, rfl, rfl⟩
  | cons d ds ih =>
    have hlt : s.host.outbox.length < 64 := by simp at ho; omega
    let x : State := { s with host := { s.host with held := [] } }
    obtain ⟨hno, hnb, hns, hnh⟩ := numberRecord_frame d false x
    let b := (numberRecord d false x).1
    let y := pushOutbox b (numberRecord d false x).2
    have hy : y.host.outbox = s.host.outbox ++ [b] := congrArg (· ++ [b]) hno
    have he : placeHeld (ds.length + 1) s = placeHeld ds.length { y with host := { y.host with held := ds } } := by
      rw [placeHeld, hh]
      dsimp only
      rw [placeRecord_of_room d (s := x) hb hlt]
    obtain ⟨rs, h1, h2, h3, h4, h5, h6⟩ := ih (s := { y with host := { y.host with held := ds } }) rfl (hnb.trans hb) (by
      rw [show ({ y with host := { y.host with held := ds } } : State).host.outbox = s.host.outbox ++ [b] from hy]
      simp at ho ⊢
      omega)
    rw [List.length_cons, he]
    refine ⟨b :: rs, h1, ?_, .cons (recordOf_numberRecord d false x) h3, h4, h5.trans hns, h6.trans hnh⟩
    rw [h2, show ({ y with host := { y.host with held := ds } } : State).host.outbox = s.host.outbox ++ [b] from hy,
      List.append_assoc, List.singleton_append]

theorem heldRecordPlace_of_nil (h : s.host.held = []) : heldRecordPlace s = s := by
  rw [heldRecordPlace, h]
  rfl

theorem heldRecordPlace_of_full (hb : 512 ≤ s.host.backlog.length) (hw : s.watches = []) : heldRecordPlace s = s := by
  cases hh : s.host.held with
  | nil => exact heldRecordPlace_of_nil hh
  | cons d ds =>
    rw [heldRecordPlace, hh, List.length_cons, placeHeld, hh]
    dsimp only
    rw [placeRecord_of_full d (by exact hb) (by exact hw)]

/-! ### BACKLOG_REFILL (R640) -/

theorem backlogRefill_keeps (h : s.tide.power = .neap ∨ s.host.backlog = [] ∨ 64 ≤ s.host.outbox.length) : backlogRefill s = s := by
  unfold backlogRefill
  split
  · rfl
  · next hp =>
    obtain h | h | h := h
    · exact absurd h hp
    · simp [refillOne, h]
    · unfold refillOne
      split
      · rfl
      · exact if_neg (by omega)

theorem backlogRefill_moves {e : Entry} {es : List Entry} (hp : s.tide.power ≠ .neap) (hb : s.host.backlog = e :: es)
    (ho : s.host.outbox.length < 64) : backlogRefill s =
      { s with host := { s.host with backlog := es, outbox := s.host.outbox ++ [e.bytes],
                                     irq := if isBootEvent e.bytes then s.host.irq ||| 8 else s.host.irq },
               fresh := { s.fresh with irq := if isBootEvent e.bytes then s.fresh.irq ||| 8 else s.fresh.irq } } := by
  rw [backlogRefill, if_neg hp]
  simp only [refillOne, hb, ho, if_true, pushOutbox]
  cases isBootEvent e.bytes
  · simp
  · rfl

end

end Sys2Proof.Machine
end

