-- ==== Sys2Proof/Proofs/PinLines.lean ====
section
/-! PROOF. Proofs/PinLines.lean: the pin-interrupt lines at a tick and the watches that they make due (R47, R667 to R672). -/
namespace Sys2Proof.Machine
open Sys2Proof

section
variable {s t : State} {g h : Gpio} {n i : Nat}

/-! ### Bits of a byte -/

theorem getLsbD_bit8 (n i : Nat) : (BitVec.ofNat 8 (2 ^ n)).getLsbD i = (decide (i < 8) && decide (n = i)) := by
  rw [BitVec.getLsbD_ofNat, Nat.testBit_two_pow]

theorem getLsbD_putBit (hn : n < 8) (m : BitVec 8) (i : Nat) (x : Bool) :
    (putBit m n x).getLsbD i = if i = n then x else m.getLsbD i := by
  have hge : ¬i < 8 → m.getLsbD i = false := fun h => BitVec.getLsbD_of_ge _ _ (Nat.not_lt.mp h)
  cases x with
  | true =>
    rw [putBit, if_pos rfl, BitVec.getLsbD_or, getLsbD_bit8]
    by_cases hi : n = i
    · simp [← hi, hn]
    · simp [hi, Ne.symm hi]
  | false =>
    rw [putBit, if_neg Bool.false_ne_true, BitVec.getLsbD_and, BitVec.getLsbD_not, getLsbD_bit8]
    by_cases hi : n = i
    · simp [← hi]
    · by_cases h8 : i < 8
      · simp [hi, Ne.symm hi, h8]
      · rw [hge h8, Bool.false_and, ite_self]

theorem getLsbD_foldl_bits (l : List Nat) (m : BitVec 8) (i : Nat) :
    (l.foldl (fun m n => m ||| BitVec.ofNat 8 (2 ^ n)) m).getLsbD i = (m.getLsbD i || (decide (i < 8) && decide (i ∈ l))) := by
  induction l generalizing m with
  | nil => simp
  | cons n l ih =>
    rw [List.foldl_cons, ih, BitVec.getLsbD_or, getLsbD_bit8]
    by_cases hn : n = i
    · simp [hn]
      exact fun h _ => .inr h
    · simp [hn, Ne.symm hn]

/-! ### One line at a tick (R669 to R672) -/

/-- h is g with other filtered and sampled levels, but the same ones of line n. -/
structure LineKept (n : Nat) (g h : Gpio) : Prop where
  frame : h = { g with pilLevel := h.pilLevel, pilSample := h.pilSample }
  level : h.pilLevel.getLsbD n = g.pilLevel.getLsbD n
  sample : h.pilSample.getLsbD n = g.pilSample.getLsbD n

theorem LineKept.trans {k : Gpio} (hg : LineKept n g h) (hk : LineKept n h k) : LineKept n g k :=
  ⟨by rw [hk.frame, hg.frame], hk.level.trans hg.level, hk.sample.trans hg.sample⟩

/-- A tick of one line changes the levels of that line alone. -/
theorem lineTick_frame (g : Gpio) (neap reload : Bool) (n : Nat) (rise fall : Bool) : (g.lineTick neap reload n rise fall).1 =
    { g with pilLevel := (g.lineTick neap reload n rise fall).1.pilLevel,
             pilSample := (g.lineTick neap reload n rise fall).1.pilSample } := by
  unfold Gpio.lineTick
  split
  · rfl
  · split <;> rfl

theorem lineKept_lineTick (g : Gpio) (neap reload : Bool) (hi : i < 8) (hn : n ≠ i) (rise fall : Bool) :
    LineKept n g (g.lineTick neap reload i rise fall).1 := by
  refine ⟨lineTick_frame .., ?_, ?_⟩ <;>
  · unfold Gpio.lineTick
    split
    · rfl
    · split
      · exact (getLsbD_putBit hi _ _ _).trans (if_neg hn)
      · exact (getLsbD_putBit hi _ _ _).trans (if_neg hn)

/-- A line that is monitored with nothing to reload does what `lineAfter` says. -/
theorem lineTick_lineAfter (hn : n < 8) (g : Gpio) (rise fall : Bool) :
    (g.lineTick false false n rise fall).1.pilLevel.getLsbD n = (g.lineAfter g.level n rise fall).1 ∧
    (g.lineTick false false n rise fall).2 = (g.lineAfter g.level n rise fall).2 := by
  unfold Gpio.lineTick Gpio.lineAfter
  cases hp : g.linePin n with
  | none => exact ⟨rfl, rfl⟩
  | some p =>
    simp only [Option.isNone_some, Bool.false_and, Bool.or_false, Bool.false_eq_true, if_false, Gpio.sampleLine,
      getLsbD_putBit hn, if_true, Gpio.lineLevel, hp, Gpio.pinIn]
    have hnew : ∀ d now smp old : Bool, (if d = true then if now = smp then now else old else now) =
        if d = true ∧ now ≠ smp then old else now := by decide
    rw [hnew]
    refine ⟨rfl, ?_⟩
    generalize g.lineEvent n = e
    match e with
    | 0 | 1 | 2 => rfl
    | e + 3 => simp

/-! ### The eight lines -/

/-- One line's part in `linesTick`. -/
def lineStep (neap reload : Bool) (rise fall : BitVec 8) (a : Gpio × List Nat) (n : Nat) : Gpio × List Nat :=
  ((a.1.lineTick neap reload n (rise.getLsbD n) (fall.getLsbD n)).1,
    if (a.1.lineTick neap reload n (rise.getLsbD n) (fall.getLsbD n)).2 then a.2 ++ [n] else a.2)

theorem linesTick_eq (g : Gpio) (neap reload : Bool) (rise fall : BitVec 8) :
    g.linesTick neap reload rise fall = (List.range 8).foldl (lineStep neap reload rise fall) (g, []) := rfl

theorem mem_lineStep {neap reload : Bool} {rise fall : BitVec 8} {a : Gpio × List Nat} :
    n ∈ (lineStep neap reload rise fall a i).2 ↔
      n ∈ a.2 ∨ (n = i ∧ (a.1.lineTick neap reload i (rise.getLsbD i) (fall.getLsbD i)).2 = true) := by
  unfold lineStep
  split
  · next h => simp [h]
  · next h => simp [h]

/-- The ticks of other lines leave line n. -/
theorem foldl_lineStep_of_not_mem {neap reload : Bool} {rise fall : BitVec 8} {l : List Nat} (hl : ∀ i ∈ l, i < 8)
    (hn : n ∉ l) (a : Gpio × List Nat) :
    LineKept n a.1 (l.foldl (lineStep neap reload rise fall) a).1 ∧
      (n ∈ (l.foldl (lineStep neap reload rise fall) a).2 ↔ n ∈ a.2) := by
  induction l generalizing a with
  | nil => exact ⟨⟨rfl, rfl, rfl⟩, .rfl⟩
  | cons i l ih =>
    have hi : n ≠ i := fun e => hn (e ▸ List.mem_cons_self)
    obtain ⟨hk, hm⟩ := ih (fun j hj => hl j (List.mem_cons_of_mem i hj)) (fun h => hn (List.mem_cons_of_mem i h))
      (lineStep neap reload rise fall a i)
    refine ⟨(lineKept_lineTick a.1 neap reload (hl i List.mem_cons_self) hi _ _).trans hk, hm.trans ?_⟩
    rw [mem_lineStep]
    simp [hi]

theorem range8_split (hn : n < 8) : ∃ pre post, List.range 8 = pre ++ n :: post ∧ n ∉ pre ∧ n ∉ post := by
  obtain ⟨pre, post, he⟩ := List.append_of_mem (List.mem_range.mpr hn)
  have hd : (pre ++ n :: post).Nodup := he ▸ List.nodup_range
  exact ⟨pre, post, he, fun h => (List.nodup_append.mp hd).2.2 n h n List.mem_cons_self rfl,
    (List.nodup_cons.mp (List.nodup_append.mp hd).2.1).1⟩

/-- Over the eight lines, line n does what it does on its own, from a state of the block with its levels. -/
theorem linesTick_line (hn : n < 8) (g : Gpio) (neap reload : Bool) (rise fall : BitVec 8) : ∃ h, LineKept n g h ∧
    (g.linesTick neap reload rise fall).1.pilLevel.getLsbD n =
      (h.lineTick neap reload n (rise.getLsbD n) (fall.getLsbD n)).1.pilLevel.getLsbD n ∧
    (n ∈ (g.linesTick neap reload rise fall).2 ↔ (h.lineTick neap reload n (rise.getLsbD n) (fall.getLsbD n)).2 = true) := by
  obtain ⟨pre, post, he, hpre, hpost⟩ := range8_split hn
  have hlt : ∀ i ∈ pre ++ n :: post, i < 8 := fun i hi => List.mem_range.mp (he ▸ hi)
  rw [linesTick_eq, he, List.foldl_append, List.foldl_cons]
  obtain ⟨hk, hm⟩ := foldl_lineStep_of_not_mem (neap := neap) (reload := reload) (rise := rise) (fall := fall)
    (fun i hi => hlt i (by simp [hi])) hpre (g, [])
  obtain ⟨hk', hm'⟩ := foldl_lineStep_of_not_mem (neap := neap) (reload := reload) (rise := rise) (fall := fall)
    (fun i hi => hlt i (by simp [hi])) hpost (lineStep neap reload rise fall (pre.foldl (lineStep neap reload rise fall) (g, [])) n)
  refine ⟨_, hk, hk'.level, hm'.trans (mem_lineStep.trans ?_)⟩
  rw [hm]
  simp

theorem linesTick_frame (g : Gpio) (neap reload : Bool) (rise fall : BitVec 8) : (g.linesTick neap reload rise fall).1 =
    { g with pilLevel := (g.linesTick neap reload rise fall).1.pilLevel,
             pilSample := (g.linesTick neap reload rise fall).1.pilSample } :=
  (foldl_lineStep_of_not_mem (n := 8) (fun _ h => List.mem_range.mp h) (by decide) (g, [])).1.frame

theorem lt_of_mem_linesTick {neap reload : Bool} {rise fall : BitVec 8} (h : n ∈ (g.linesTick neap reload rise fall).2) : n < 8 := by
  by_contra hn
  have := (foldl_lineStep_of_not_mem (neap := neap) (reload := reload) (rise := rise) (fall := fall) (n := n)
    (fun _ h => List.mem_range.mp h) (by simpa using hn) (g, [])).2.mp h
  cases this

theorem lineAfter_of_kept (hk : LineKept n g h) (pads : BitVec 24) (rise fall : Bool) :
    h.lineAfter pads n rise fall = g.lineAfter pads n rise fall := by
  unfold Gpio.lineAfter
  rw [hk.level, hk.sample, hk.frame]
  rfl

/-- With nothing to reload, outside Neap, every line does what `lineAfter` says of the block before the tick. -/
theorem linesTick_lineAfter (hn : n < 8) (g : Gpio) (rise fall : BitVec 8) :
    (g.linesTick false false rise fall).1.pilLevel.getLsbD n =
      (g.lineAfter g.level n (rise.getLsbD n) (fall.getLsbD n)).1 ∧
    (n ∈ (g.linesTick false false rise fall).2 ↔ (g.lineAfter g.level n (rise.getLsbD n) (fall.getLsbD n)).2 = true) := by
  obtain ⟨h, hk, hl, hm⟩ := linesTick_line hn g false false rise fall
  obtain ⟨h1, h2⟩ := lineTick_lineAfter hn h (rise.getLsbD n) (fall.getLsbD n)
  have hv : h.level = g.level := by rw [hk.frame]
  rw [hl, hm, h1, h2, hv, lineAfter_of_kept hk]
  exact ⟨rfl, .rfl⟩

/-- In Neap a line without WAKE is not monitored (R672). -/
theorem linesTick_of_no_wake (hn : n < 8) (hw : g.lineWake n = false) (reload : Bool) (rise fall : BitVec 8) :
    (g.linesTick true reload rise fall).1.pilLevel.getLsbD n = g.pilLevel.getLsbD n ∧
    n ∉ (g.linesTick true reload rise fall).2 := by
  obtain ⟨h, hk, hl, hm⟩ := linesTick_line hn g true reload rise fall
  have hw : h.lineWake n = false := by rw [hk.frame]; exact hw
  have he : h.lineTick true reload n (rise.getLsbD n) (fall.getLsbD n) = (h, false) := by simp [Gpio.lineTick, hw]
  rw [hl, hm, he]
  exact ⟨hk.level, Bool.false_ne_true⟩

/-! ### PIN_INTERRUPT_EVENT -/

/-- The block and the fresh bits after the lines have ticked, before the watches take their triggers. -/
def State.linesSampled (pads : BitVec 24) (rise fall : BitVec 8) (s : State) : State :=
  let neap := decide (s.tide.power = .neap)
  let r := ({ s.gpio with level := pads } : Gpio).linesTick neap (s.gpio.reload && !neap) rise fall
  let ev := r.2.foldl (fun (m : BitVec 8) n => m ||| BitVec.ofNat 8 (2 ^ n)) 0
  { s with gpio := { r.1 with pilEvent := r.1.pilEvent ||| ev, reload := s.gpio.reload && neap },
           fresh := { s.fresh with pil := s.fresh.pil ||| ev } }

/-- The lines that report their event at a tick. -/
def State.linesReport (pads : BitVec 24) (rise fall : BitVec 8) (s : State) : List Nat :=
  let neap := decide (s.tide.power = .neap)
  (({ s.gpio with level := pads } : Gpio).linesTick neap (s.gpio.reload && !neap) rise fall).2

theorem pinSample_eq (pads : BitVec 24) (rise fall : BitVec 8) (s : State) : pinSample pads rise fall s =
    triggerAll ((s.watches.filter (gpioDue s.sys.tick (s.linesReport pads rise fall))).map (·.entry.num)) 0 true
      (s.linesSampled pads rise fall) := rfl

theorem gpio_refill (k : Nat) (s : State) : (refill k s).gpio = s.gpio := by
  induction k generalizing s with
  | zero => rfl
  | succ k ih => rw [refill, ih, refillOne_frame]

/-- A wake changes nothing of the block but the reload to come. -/
theorem gpio_wake (s : State) : (wake s).gpio = { s.gpio with reload := (wake s).gpio.reload } := by
  unfold wake
  split
  · rw [gpio_refill]
  · rfl

theorem gpio_serveTrigger {due order : Nat} {gp : Bool} : (serveTrigger n due order gp s).gpio = s.gpio := by
  rw [onlyWatches_serveTrigger (s := s)]

theorem gpio_trigger (n due order : Nat) (gp : Bool) (s : State) :
    (trigger n due order gp s).gpio = { s.gpio with reload := (trigger n due order gp s).gpio.reload } := by
  unfold trigger
  split
  · rfl
  · split
    · rfl
    · dsimp only
      split
      · rw [gpio_serveTrigger, gpio_wake]
      · split <;> exact gpio_wake s

theorem gpio_triggerAll (l : List Nat) (order : Nat) (gp : Bool) (s : State) :
    (triggerAll l order gp s).gpio = { s.gpio with reload := (triggerAll l order gp s).gpio.reload } := by
  induction l generalizing s with
  | nil => rfl
  | cons n l ih =>
    have h := ih (trigger n s.sys.tick order gp s)
    rw [gpio_trigger] at h
    exact h

/-- A GPIO watch of a line that reports is due once its hold-off has passed (R47). -/
theorem gpioDue_iff (k : Nat) (l : List Nat) (w : Watch) : gpioDue k l w = true ↔ w.entry.trigKind = 2 ∧
    leAt w.entry.trigArg 0 1 ∈ l ∧ (match w.lastGpio with
      | some x => decide (x + leAt w.entry.trigArg 2 2 ≤ k)
      | none => true) = true := by
  unfold gpioDue
  cases w.lastGpio <;> simp [and_assoc]

end

section
variable {s : State} {pads : BitVec 24} {rise fall : BitVec 8} {n m : Nat} {w : Watch}

theorem linesReport_of_slack (hp : s.tide.power ≠ .neap) (hr : s.gpio.reload = false) (pads : BitVec 24) (rise fall : BitVec 8) :
    s.linesReport pads rise fall = (({ s.gpio with level := pads } : Gpio).linesTick false false rise fall).2 := by
  simp [State.linesReport, hp, hr]

theorem mem_linesReport (hp : s.tide.power ≠ .neap) (hr : s.gpio.reload = false) : n ∈ s.linesReport pads rise fall ↔
    n < 8 ∧ (s.gpio.lineAfter pads n (rise.getLsbD n) (fall.getLsbD n)).2 = true := by
  rw [linesReport_of_slack hp hr]
  refine ⟨fun h => ⟨lt_of_mem_linesTick h, ?_⟩, fun ⟨hn, h⟩ => ?_⟩
  · exact (linesTick_lineAfter (lt_of_mem_linesTick h) { s.gpio with level := pads } rise fall).2.mp h
  · exact (linesTick_lineAfter hn { s.gpio with level := pads } rise fall).2.mpr h

/-- What the lines leave of the block and in its fresh bits, outside Neap (R670, R671). -/
theorem linesSampled_line (hp : s.tide.power ≠ .neap) (hr : s.gpio.reload = false) (hn : n < 8) :
    let t := s.linesSampled pads rise fall
    let r := s.gpio.lineAfter pads n (rise.getLsbD n) (fall.getLsbD n)
    t.gpio.pilLevel.getLsbD n = r.1 ∧ t.gpio.pilEvent.getLsbD n = (s.gpio.pilEvent.getLsbD n || r.2) ∧
    t.fresh.pil.getLsbD n = (s.fresh.pil.getLsbD n || r.2) := by
  have he : ({ s.gpio with level := pads } : Gpio).linesTick (decide (s.tide.power = .neap))
      (s.gpio.reload && !decide (s.tide.power = .neap)) rise fall =
      ({ s.gpio with level := pads } : Gpio).linesTick false false rise fall := by simp [hp, hr]
  obtain ⟨hl, hm⟩ := linesTick_lineAfter hn { s.gpio with level := pads } rise fall
  have hf := linesTick_frame { s.gpio with level := pads } false false rise fall
  have hev : ∀ l : List Nat, (n ∈ l ↔ (s.gpio.lineAfter pads n (rise.getLsbD n) (fall.getLsbD n)).2 = true) → ∀ m : BitVec 8,
      (m ||| l.foldl (fun m n => m ||| BitVec.ofNat 8 (2 ^ n)) 0).getLsbD n =
        (m.getLsbD n || (s.gpio.lineAfter pads n (rise.getLsbD n) (fall.getLsbD n)).2) := fun l h m => by
    rw [BitVec.getLsbD_or, getLsbD_foldl_bits]
    simp [hn, h]
  have hpe : (({ s.gpio with level := pads } : Gpio).linesTick false false rise fall).1.pilEvent = s.gpio.pilEvent := by rw [hf]
  simp only [State.linesSampled, he, hpe]
  exact ⟨hl, hev _ hm _, hev _ hm _⟩

theorem linesSampled_gpio (s : State) (pads : BitVec 24) (rise fall : BitVec 8) : let g := (s.linesSampled pads rise fall).gpio
    g.level = pads ∧ g.pins = s.gpio.pins ∧ g.pilSel = s.gpio.pilSel ∧ g.pilCfg = s.gpio.pilCfg := by
  simp only [State.linesSampled]
  rw [linesTick_frame]
  exact ⟨rfl, rfl, rfl, rfl⟩

/-- A line without WAKE is left as it was in Neap (R672). -/
theorem linesSampled_of_no_wake (hp : s.tide.power = .neap) (hn : n < 8) (hw : s.gpio.lineWake n = false) :
    (s.linesSampled pads rise fall).gpio.pilLevel.getLsbD n = s.gpio.pilLevel.getLsbD n ∧
    (s.linesSampled pads rise fall).gpio.pilEvent.getLsbD n = s.gpio.pilEvent.getLsbD n := by
  obtain ⟨hl, hm⟩ := linesTick_of_no_wake (g := { s.gpio with level := pads }) hn hw false rise fall
  have he : ({ s.gpio with level := pads } : Gpio).linesTick (decide (s.tide.power = .neap))
      (s.gpio.reload && !decide (s.tide.power = .neap)) rise fall =
      ({ s.gpio with level := pads } : Gpio).linesTick true false rise fall := by simp [hp]
  have hpe : (({ s.gpio with level := pads } : Gpio).linesTick true false rise fall).1.pilEvent = s.gpio.pilEvent := by
    rw [linesTick_frame]
  simp only [State.linesSampled, he, hpe]
  refine ⟨hl, ?_⟩
  rw [BitVec.getLsbD_or, getLsbD_foldl_bits]
  simp [hm]

/-- An ARMED watch of no share group starts its job where its line reports and its hold-off has passed (R47, R671). -/
theorem watch?_pinSample (hok : s.tableOk) (hp : s.tide.power ≠ .neap) (hw : s.watch? m = some w) (hs : w.state = .armed)
    (hh : w.held = none) (hg : w.entry.group = 0) (ha : w.adapt = none) : (pinSample pads rise fall s).watch? m =
      some (if gpioDue s.sys.tick (s.linesReport pads rise fall) w = true
        then { w.started s.sys.tick 0 with lastGpio := some s.sys.tick } else w) := by
  rw [pinSample_eq]
  split
  · next hd =>
    obtain ⟨u, hu, huw, ho⟩ := watch?_triggerAll_of_mem (s := s.linesSampled pads rise fall) (order := 0) (gpio := true) hp
      (nums_nodup hok _) ((mem_nums_iff hok hw _).mpr hd)
    have huw : u.watch? m = some w := huw.trans hw
    have hup : u.tide.power ≠ .neap := ho.tide ▸ hp
    rw [hu, trigger_of_armed hup huw hs hh, watch?_serveTrigger huw ha hg, ho.sys]
    rfl
  · next hd =>
    exact (watch?_triggerAll_of_not_mem fun hm => hd ((mem_nums_iff hok hw _).mp hm)).trans hw

end

theorem recordOf_of_forall₂ {ds : List Draft} {rs : List (List Byte)} (h : List.Forall₂ recordOf ds rs) {i : Nat} {d : Draft}
    {b : List Byte} (hd : ds[i]? = some d) (hb : rs[i]? = some b) : recordOf d b := by
  obtain ⟨hi, rfl⟩ := List.getElem?_eq_some_iff.mp hd
  obtain ⟨hj, rfl⟩ := List.getElem?_eq_some_iff.mp hb
  exact h.get hi hj

/-- Settles O50: records move within the queues' room, and each line does its own tick before its watches take their triggers. -/
theorem outboxAndPinEventsTakeEffect : Obligations.OutboxAndPinEventsTakeEffect := by
  intro s hl
  have hx : ∀ pads rise fall, exec (.pinInterruptEvent pads rise fall) s = .next (pinSample pads rise fall s) :=
    fun _ _ _ => next_inService hl _
  refine ⟨fun hh => (next_inService hl heldRecordPlace).trans (congrArg _ (heldRecordPlace_of_nil hh)), fun hb ho => ?_,
    fun hb hw => (next_inService hl heldRecordPlace).trans (congrArg _ (heldRecordPlace_of_full hb hw)),
    fun h => (next_inService hl backlogRefill).trans (congrArg _ (backlogRefill_keeps h)),
    fun e es hp hb ho => (next_inService hl backlogRefill).trans (congrArg _ (backlogRefill_moves hp hb ho)),
    next_inService hl irqPulseEnd, fun pads rise fall hp hr => ?_, fun pads rise fall n hp hn hw => ?_⟩
  · obtain ⟨rs, h1, h2, h3, h4, h5, h6⟩ := placeHeld_of_room _ rfl hb ho
    exact ⟨_, rs, next_inService hl heldRecordPlace, h1, h2, h3.length_eq.symm, h4, h5, h6, fun _ _ _ => recordOf_of_forall₂ h3⟩
  · have ho : OnlyWatches (s.linesSampled pads rise fall) (pinSample pads rise fall s) :=
      onlyWatches_triggerAll (s := s.linesSampled pads rise fall) hp _
    have hgpio : (pinSample pads rise fall s).gpio = (s.linesSampled pads rise fall).gpio := by rw [ho]
    have hfresh : (pinSample pads rise fall s).fresh = (s.linesSampled pads rise fall).fresh := by rw [ho]
    obtain ⟨hlev, hpins, hsel, hcfg⟩ := linesSampled_gpio s pads rise fall
    refine ⟨_, hx _ _ _, by rw [ho]; rfl, hgpio ▸ hlev, hgpio ▸ hpins, hgpio ▸ hsel, hgpio ▸ hcfg, fun n hn => ?_,
      fun hok m w hm hs hh hg ha => ?_⟩
    · rw [hgpio, hfresh]
      exact linesSampled_line hp hr hn
    · rw [watch?_pinSample hok hp hm hs hh hg ha]
      refine congrArg some (if_congr ?_ rfl rfl)
      rw [gpioDue_iff, mem_linesReport hp hr]
      exact ⟨fun ⟨h1, ⟨h2, h3⟩, h4⟩ => ⟨h1, h2, h4, h3⟩, fun ⟨h1, h2, h4, h3⟩ => ⟨h1, ⟨h2, h3⟩, h4⟩⟩
  · refine ⟨_, hx _ _ _, ?_⟩
    rw [pinSample_eq, gpio_triggerAll]
    exact linesSampled_of_no_wake hp hn hw

end Sys2Proof.Machine
end

