-- ==== Sys2Proof/Proofs/Ports.lean ====
section
/-! PROOF. Proofs/Ports.lean: a packet sent at once, a packet received and the units that go back for it (R563 to R569). -/
namespace Sys2Proof.Machine
open Sys2Proof

section
variable {s t u : State} {p : PortId} {seq : BitVec 12} {epoch : BitVec 8} {k a b : Packet} {type : Nat}

/-! ### Ports -/

theorem setPort_setPort (s : State) (p : PortId) (x y : Port) : (s.setPort p x).setPort p y = s.setPort p y := by
  cases p <;> rfl

theorem setPort_port (s : State) (p : PortId) : s.setPort p (s.port p) = s := by cases p <;> rfl

theorem modPort_setPort (s : State) (p : PortId) (x : Port) (f : Port → Port) : (s.setPort p x).modPort p f = s.setPort p (f x) := by
  rw [State.modPort, port_setPort, setPort_setPort]

theorem other_ne (p : PortId) : p.other ≠ p := by cases p <;> decide

/-- From s to t the ports, the chip number and the configuration of the Causeway are the same. -/
structure SameLink (s t : State) : Prop where
  ports : ∀ q, t.port q = s.port q
  chip : t.cw.chip = s.cw.chip
  cfg : t.cw.cfg = s.cw.cfg

theorem SameLink.refl (s : State) : SameLink s s := ⟨fun _ => rfl, rfl, rfl⟩

theorem SameLink.trans (h : SameLink s t) (h' : SameLink t u) : SameLink s u :=
  ⟨fun q => (h'.ports q).trans (h.ports q), h'.chip.trans h.chip, h'.cfg.trans h.cfg⟩

theorem sameLink_of_cw (h : t.cw = s.cw) : SameLink s t :=
  ⟨fun q => by cases q <;> simp [State.port, h], by rw [h], by rw [h]⟩

theorem SameLink.portToward (h : SameLink s t) (d : Nat) : t.portToward d = s.portToward d := by
  rw [State.portToward, State.portToward, h.chip]

theorem SameLink.usedPorts (h : SameLink s t) : t.usedPorts = s.usedPorts := by
  rw [State.usedPorts, State.usedPorts, h.cfg]

theorem SameLink.myChip (h : SameLink s t) : t.myChip = s.myChip := by rw [State.myChip, State.myChip, h.chip]

/-! ### Sending a packet at once (R563, R566, R569) -/

/-- A port that has sent packet a of this chip as soon as it was queued. -/
def Port.sentNow (x : Port) (a : Packet) : Port :=
  { x with txSeq := (x.txSeq + 1) % 4096, retry := x.retry ++ [(x.txSeq, a)],
           credits := modAt x.credits a.vc (fun c => c - a.cost), lastTransit := setAt x.lastTransit a.vc false,
           sent := x.sent ++ [.packet x.txSeq x.epoch a] }

/-- The port can send packet a at once: it is UP, nothing is queued, and the credits and the retry buffer hold the packet. -/
structure Port.canSend (x : Port) (a : Packet) : Prop where
  up : x.state = .up
  queue : x.queue = []
  credits : a.cost ≤ x.credits.getD a.vc 0
  room : x.held + a.size ≤ 8192

theorem packet_vc_cases (a : Packet) : a.vc = 0 ∨ a.vc = 1 ∨ a.vc = 2 := by
  unfold Packet.vc
  split
  · exact .inl rfl
  · split
    · exact .inr (.inl rfl)
    · exact .inr (.inr rfl)

/-- The one packet in the queue is the one that goes next. -/
theorem Port.next_of_canSend {x : Port} (h : x.canSend a) (e : Queued) (he : e.pkt = a) :
    ({ x with queue := [e] } : Port).next = some e := by
  obtain ⟨-, -, hc, hr⟩ := h
  have hcand : ∀ v, ({ x with queue := [e] } : Port).candidate v = if a.vc = v then some e else none := fun v => by
    unfold Port.candidate
    by_cases hv : a.vc = v
    · have hq : ([e] : List Queued).filter (fun e => e.pkt.vc == v) = [e] := by simp [he, hv]
      simp only [hq, List.head?_cons, if_pos hv]
      split
      · next hf => rw [List.mem_singleton.mp (List.mem_of_find?_eq_some hf)]
      · rfl
    · have hq : ([e] : List Queued).filter (fun e => e.pkt.vc == v) = [] := by simp [he, hv]
      simp only [hq, List.find?_nil, List.head?_nil, if_neg hv]
  have hok : (decide (e.pkt.cost ≤ x.credits.getD e.pkt.vc 0) && decide (x.held + e.pkt.size ≤ 8192)) = true := by
    rw [he]
    simp only [hc, hr, decide_true, Bool.and_self]
  have hgo : ∀ v, (({ x with queue := [e] } : Port).candidate v).filter (fun e =>
      decide (e.pkt.cost ≤ x.credits.getD e.pkt.vc 0) && decide (x.held + e.pkt.size ≤ 8192)) = if a.vc = v then some e else none :=
    fun v => by
      rw [hcand]
      split
      · exact if_pos hok
      · rfl
  show (List.filterMap (fun v => (({ x with queue := [e] } : Port).candidate v).filter (fun e =>
    decide (e.pkt.cost ≤ x.credits.getD e.pkt.vc 0) && decide (x.held + e.pkt.size ≤ 8192))) [2, 1, 0]).head? = some e
  simp only [hgo]
  obtain hv | hv | hv := packet_vc_cases a <;> simp [hv]

theorem returnUnits_of_own (e : Queued) (he : e.owes = none) (s : State) : returnUnits [e] [] s = s := by
  have hu : ∀ o v, unitsOf o v [e] = 0 := fun o v => by simp [unitsOf, he]
  have hr : ∀ o v (s : State), returnCredit o v (unitsOf o v [e] - unitsOf o v []) s = s := fun o v s => by
    rw [hu, Nat.zero_sub]
    exact if_neg (by simp)
  simp only [returnUnits, List.foldl_cons, List.foldl_nil, hr]

/-- A packet of this chip that its port can send goes out at once (log 30). -/
theorem sendPacket_of_canSend (hp : s.portToward a.dest = p) (hu : p ∈ s.usedPorts) (h : (s.port p).canSend a) :
    sendPacket a s = s.setPort p ((s.port p).sentNow a) := by
  have hup := h.up
  let e : Queued := { pkt := a, transit := false, tick := s.sys.tick, owes := none }
  let x : Port := { s.port p with queue := [e] }
  have hmod : (s.modPort p fun x => { x with queue := x.queue ++ [e] }) = s.setPort p x := by
    rw [State.modPort, h.queue]
    rfl
  have hneed : needPort p (s.setPort p x) = s.setPort p x := by
    rw [needPort, port_setPort, if_neg]
    simp [x, hup]
  have hpump : Port.pump 1 x = (s.port p).sentNow a := by
    rw [Port.pump, if_pos hup, Port.next_of_canSend h e rfl]
    dsimp only [Port.pump]
    simp [Port.transmit, Port.sentNow, x, e, dropQueued, h.queue]
  rw [sendPacket, hp, if_pos hu, enqueue]
  rw [show (Option.isSome (none : Option PortId)) = false from rfl, hmod, hneed, pumpPort, port_setPort]
  rw [show x.queue.length = 1 from rfl, hpump, show ((s.port p).sentNow a).queue = [] from h.queue, setPort_setPort]
  exact returnUnits_of_own e rfl _

/-- A second packet after the first. -/
theorem sendPacket_sendPacket (hp : s.portToward a.dest = p) (hp' : s.portToward b.dest = p) (hu : p ∈ s.usedPorts)
    (h : (s.port p).canSend a) (h' : ((s.port p).sentNow a).canSend b) :
    sendPacket b (sendPacket a s) = s.setPort p (((s.port p).sentNow a).sentNow b) := by
  rw [sendPacket_of_canSend hp hu h]
  have hl : (s.setPort p ((s.port p).sentNow a)).portToward b.dest = p := by simpa [State.portToward] using hp'
  have hm : p ∈ (s.setPort p ((s.port p).sentNow a)).usedPorts := by simpa [State.usedPorts] using hu
  rw [sendPacket_of_canSend hl hm (by rwa [port_setPort]), port_setPort, setPort_setPort]

/-! ### Receiving a packet (R564, R566, R568) -/

/-- A port that has accepted the next packet. -/
def Port.accepted (x : Port) (k : Packet) : Port :=
  { x.restart with rxSeq := (x.rxSeq + 1) % 4096, naked := false, unacked := x.unacked + 1,
                   owed := modAt x.owed k.vc (fun o => o + k.cost) }

/-- The state in which the packet, of its type, is served. -/
def State.accepted (s : State) (p : PortId) (type : Nat) (k : Packet) : State :=
  s.setPort p ((s.port p).accepted { k with type := type })

/-- The packet is served, and its credits go back. -/
theorem receive_of_takes (h : s.takesPacket p seq epoch k) (type : Nat) (f : Packet → State → State) :
    receive p type seq epoch k f s = returnCredit p ({ k with type := type } : Packet).vc ({ k with type := type } : Packet).cost
      (f { k with type := type } (s.accepted p type k)) := by
  obtain ⟨⟨-, hup, hres⟩, hep, hseq, hun, hchip, -⟩ := h
  have hbegin : beginPort p s = s.setPort p (s.port p).restart := rfl
  have hx : (beginPort p s).port p = (s.port p).restart := by rw [hbegin, port_setPort]
  have hportUp : (beginPort p s).portUp p = true := by
    have hr : ResetUnit.port p ∉ (beginPort p s).sys.resetting := by simpa [beginPort, State.modPort] using hres
    simp only [State.portUp, hx, State.portInReset, decide_eq_false hr]
    simp [Port.restart, hup]
  have hacc : acceptPacket p { k with type := type } (beginPort p s) = s.accepted p type k := by
    have hm : (beginPort p s).modPort p (fun x => { x with
        rxSeq := (x.rxSeq + 1) % 4096, naked := false, unacked := x.unacked + 1,
        owed := modAt x.owed ({ k with type := type } : Packet).vc (fun o => o + ({ k with type := type } : Packet).cost) }) =
        s.accepted p type k := by
      rw [hbegin, modPort_setPort]
      rfl
    rw [acceptPacket, hm]
    refine if_neg ?_
    rw [State.accepted, port_setPort]
    exact Nat.not_le.mpr (Nat.succ_lt_succ hun)
  have hme : (s.accepted p type k).forMe { k with type := type } = true := by
    simp [State.forMe, State.accepted, hchip]
  unfold receive
  dsimp only
  rw [hx, hportUp]
  rw [if_neg (by simp [Port.restart, hep]), if_pos (show seq.toNat = (s.port p).restart.rxSeq from hseq), hacc, hme]
  rfl

/-- What the command of a packet comes to whose type is served by f. -/
abbrev served (p : PortId) (type : Nat) (seq : BitVec 12) (epoch : BitVec 8) (k : Packet) (f : Packet → State → State) (s : State) :
    Host.Outcome State Fault Refusal := .next (inService s (receive p type seq epoch k f))

theorem exec_of_takes (h : s.takesPacket p seq epoch k) (type : Nat) (f : Packet → State → State) :
    served p type seq epoch k f s =
      .next (returnCredit p ({ k with type := type } : Packet).vc ({ k with type := type } : Packet).cost
        (f { k with type := type } (s.accepted p type k))) := by
  rw [served, next_inService h.1.1, receive_of_takes h]

/-- A port that is UP returns the units of a packet. -/
theorem returnCredit_of_up (h : (s.port p).state = .up) (v : Nat) (k : Packet) : ∃ y : Port,
    returnCredit p v k.cost s = s.setPort p y ∧ y.sent = (s.port p).sent ++ [.credit v k.cost] ∧ y.rxSeq = (s.port p).rxSeq := by
  have hc : (decide ((s.port p).state = .up) && decide (k.cost ≠ 0)) = true := by simp [h, Packet.cost]
  refine ⟨{ s.port p with owed := modAt (s.port p).owed v (fun o => o - k.cost), sent := (s.port p).sent ++ [.credit v k.cost] },
    ?_, rfl, rfl⟩
  rw [returnCredit, if_pos hc, control, State.modPort, State.modPort, port_setPort, setPort_setPort]

/-- What the service of a packet leaves of its port, before the credits: nothing of the lane but the packets sent. -/
structure PortServed (x y : Port) (out : List Packet) : Prop where
  up : y.state = .up
  sent : y.sent = out.zipIdx.map (fun e => .packet ((x.txSeq + e.2) % 4096) x.epoch e.1)
  rxSeq : y.rxSeq = (x.rxSeq + 1) % 4096
  txSeq : y.txSeq = (x.txSeq + out.length) % 4096
  epoch : y.epoch = x.epoch

/-- One packet more. -/
theorem PortServed.sentNow {x y : Port} {out : List Packet} (h : PortServed x y out) (a : Packet) :
    PortServed x (y.sentNow a) (out ++ [a]) := by
  obtain ⟨hup, hsent, hrx, htx, hep⟩ := h
  refine ⟨hup, ?_, hrx, ?_, hep⟩
  · show y.sent ++ [.packet y.txSeq y.epoch a] = _
    rw [hsent, htx, hep, List.zipIdx_append, List.map_append, Nat.zero_add]
    rfl
  · show (y.txSeq + 1) % 4096 = _
    rw [htx, List.length_append, List.length_singleton, Nat.mod_add_mod, Nat.add_assoc]

/-- The service of a packet that sends `out` and leaves the other port: in the end the port has sent that and the credits. -/
theorem sends_of_served {y : Port} {out : List Packet} (hl : SameLink (s.accepted p type k) u)
    (hy : PortServed (s.port p) y out) :
    ∃ z, returnCredit p ({ k with type := type } : Packet).vc ({ k with type := type } : Packet).cost (u.setPort p y) = u.setPort p z ∧
      sends s (u.setPort p z) p type k out := by
  obtain ⟨z, hz, hs, hr⟩ := returnCredit_of_up (s := u.setPort p y) (p := p) (by rw [port_setPort, hy.up])
    ({ k with type := type } : Packet).vc { k with type := type }
  rw [port_setPort] at hs hr
  refine ⟨z, by rw [hz, setPort_setPort], ?_, ?_, ?_⟩
  · rw [port_setPort, hs, hy.sent]
    rfl
  · rw [port_setPort, hr, hy.rxSeq]
  · rw [port_setPort_ne _ (other_ne p), hl.ports, State.accepted, port_setPort_ne _ (other_ne p)]

end

end Sys2Proof.Machine
end

