-- ==== Sys2Proof/Proofs/LineWrites.lean ====
section
/-! PROOF. Proofs/LineWrites.lean: what written lines read as, and the lines of a packet (R403, R560, R604). -/
namespace Sys2Proof.Machine
open Sys2Proof

section
variable {m m' m'' : Lines}

theorem getD_padTo (bs : List Byte) {n j : Nat} (h : j < n) : (padTo bs n).getD j 0 = bs.getD j 0 := by
  rw [padTo, List.getD_eq_getElem?_getD, List.getElem?_take_of_lt h, List.getD_eq_getElem?_getD]
  by_cases hj : j < bs.length
  · rw [List.getElem?_append_left hj]
  · rw [List.getElem?_append_right (by omega), List.getElem?_eq_none (l := bs) (by omega), zeros, List.getElem?_replicate]
    split <;> rfl

theorem getD_slice (bs : List Byte) (o : Nat) {n j : Nat} (h : j < n) : (slice bs o n).getD j 0 = bs.getD (o + j) 0 := by
  simp [slice, h]

/-- A memory in canonical form has rising tags. -/
theorem Lines.keysRise_tags (h : m.wf = true) : keysRise (-1) m.tags = true := ((swf_iff _ _).mp ((Lines.wf_iff m).mp h).2.1).1

/-! ### What a written line and written lines read as -/

theorem rdByte_putLine (h : m.wf = true) (l : Nat) (bs : List Byte) (t : BitVec 16) (b : Nat) :
    rdByte (m.putLine l bs t).data b = if 64 * l ≤ b ∧ b < 64 * l + 64 then bs.getD (b - 64 * l) 0 else rdByte m.data b := by
  rw [Lines.putLine, rdByte_wrBytes _ _ _ _ ((Lines.wf_iff m).mp h).1, length_padTo]
  split
  · exact getD_padTo bs (by omega)
  · rfl

theorem tag_putLine_same (h : m.wf = true) (l : Nat) (bs : List Byte) (t : BitVec 16) : (m.putLine l bs t).tag l = t :=
  sget_sput_self 0 m.tags l t (Lines.keysRise_tags h)

theorem tag_putLine_ne (h : m.wf = true) {l n : Nat} (hn : n ≠ l) (bs : List Byte) (t : BitVec 16) :
    (m.putLine l bs t).tag n = m.tag n :=
  sget_sput_ne 0 m.tags l n t hn (Lines.keysRise_tags h)

theorem sameOutside_refl (m : Lines) (lo hi : Nat) : sameOutside m m lo hi := ⟨fun _ _ => rfl, fun _ _ => rfl⟩

/-- Two changes in a row leave what lies outside both ranges. -/
theorem sameOutside_trans {lo hi lo' hi' lo'' hi'' : Nat} (h : sameOutside m m' lo hi) (h' : sameOutside m' m'' lo' hi')
    (h₁ : lo'' ≤ lo) (h₂ : lo'' ≤ lo') (h₃ : hi ≤ hi'') (h₄ : hi' ≤ hi'') : sameOutside m m'' lo'' hi'' :=
  ⟨fun b hb => (h'.1 b (by omega)).trans (h.1 b (by omega)), fun l hl => (h'.2 l (by omega)).trans (h.2 l (by omega))⟩

theorem sameOutside_putLine (h : m.wf = true) (l : Nat) (bs : List Byte) (t : BitVec 16) :
    sameOutside m (m.putLine l bs t) (64 * l) (64 * l + 64) :=
  ⟨fun b hb => by rw [rdByte_putLine h, if_neg (by omega)], fun n hn => tag_putLine_ne h (by omega) bs t⟩

theorem sameOutside_putLines (ls : List (List Byte × BitVec 16)) (h : m.wf = true) (l : Nat) :
    sameOutside m (m.putLines l ls) (64 * l) (64 * l + 64 * ls.length) := by
  induction ls generalizing m l with
  | nil => exact sameOutside_refl m _ _
  | cons e r ih =>
    refine sameOutside_trans (sameOutside_putLine h l e.1 e.2) (ih (Lines.wf_putLine m l e.1 e.2 h) (l + 1)) (by omega) (by omega) ?_ ?_ <;>
      (rw [List.length_cons]; omega)

/-- Line i of those written holds its bytes and its tag. -/
theorem putLines_getElem (ls : List (List Byte × BitVec 16)) (h : m.wf = true) (l : Nat) {i : Nat} (hi : i < ls.length) :
    (m.putLines l ls).tag (l + i) = ls[i].2 ∧
    ∀ j, j < 64 → rdByte (m.putLines l ls).data (64 * (l + i) + j) = ls[i].1.getD j 0 := by
  induction ls generalizing m l i with
  | nil => exact absurd hi (Nat.not_lt_zero i)
  | cons e r ih =>
    have hw := Lines.wf_putLine m l e.1 e.2 h
    cases i with
    | zero =>
      obtain ⟨hb, ht⟩ := sameOutside_putLines r hw (l + 1)
      refine ⟨(ht l (by omega)).trans (tag_putLine_same h l e.1 e.2), fun j hj => ?_⟩
      rw [Nat.add_zero]
      refine (hb _ (by omega)).trans ?_
      rw [rdByte_putLine h, if_pos (by omega), Nat.add_sub_cancel_left]
      rfl
    | succ i =>
      have := ih hw (l + 1) (Nat.lt_of_succ_lt_succ hi)
      rw [Nat.add_right_comm l 1 i] at this
      exact this

/-! ### The lines of a packet (R560) -/

@[simp] theorem length_packetLines (k : Packet) : (packetLines k).length = k.payload.length / 66 := by
  simp [packetLines, Packet.lineCount]

theorem getElem_packetLines (k : Packet) {i : Nat} (h : i < (packetLines k).length) :
    (packetLines k)[i] = (slice k.payload (66 * i) 64, BitVec.ofNat 16 (leAt k.payload (66 * i + 64) 2)) := by
  simp [packetLines]

/-- The lines of a packet, written from an aligned offset. -/
theorem putLines_packetLines (h : m.wf = true) (k : Packet) {a i : Nat} (ha : a % 64 = 0) (hi : i < k.payload.length / 66) :
    (m.putLines (a / 64) (packetLines k)).tag (a / 64 + i) = BitVec.ofNat 16 (leAt k.payload (66 * i + 64) 2) ∧
    ∀ j, j < 64 → rdByte (m.putLines (a / 64) (packetLines k)).data (a + 64 * i + j) = k.payload.getD (66 * i + j) 0 := by
  have hl : i < (packetLines k).length := by rwa [length_packetLines]
  obtain ⟨ht, hb⟩ := putLines_getElem (packetLines k) h (a / 64) hl
  rw [getElem_packetLines k hl] at ht hb
  refine ⟨ht, fun j hj => ?_⟩
  rw [show a + 64 * i + j = 64 * (a / 64 + i) + j by omega, hb j hj]
  exact getD_slice _ _ hj

end

end Sys2Proof.Machine
end

