-- ==== Sys2Proof/Proofs/PacketService.lean ====
section
/-! PROOF. Proofs/PacketService.lean: what the command of a packet leaves of the state, by what its service sends (R559 to R568). -/
namespace Sys2Proof.Machine
open Sys2Proof

section
variable {s t u : State} {p : PortId} {seq : BitVec 12} {epoch : BitVec 8} {k a b : Packet} {type : Nat}
  {f : Packet → State → State}

/-! ### The port that takes a packet sends its answers at once (log 30) -/

/-- A packet of at most four lines fits. -/
theorem cost_le_of_short (ha : a.payload.length ≤ 264) : a.cost ≤ 5 ∧ a.size ≤ 284 := by
  rw [Packet.cost, Packet.size, Packet.lineCount]
  omega

theorem canSend_accepted (h : s.takesPacket p seq epoch k) (ha : a.payload.length ≤ 264) :
    ((s.port p).accepted { k with type := type }).canSend a := by
  obtain ⟨⟨-, hup, -⟩, -, -, -, -, -, -, hq, hr, hc, -, -⟩ := h
  obtain ⟨hcost, hsize⟩ := cost_le_of_short ha
  refine ⟨hup, hq, ?_, ?_⟩
  · show a.cost ≤ (s.port p).credits.getD a.vc 0
    rw [hc]
    obtain hv | hv | hv := packet_vc_cases a <;> rw [hv] <;> exact hcost.trans (by decide)
  · show (s.port p).held + a.size ≤ 8192
    rw [Port.held, hr, List.foldl_nil]
    omega

theorem canSend_sentNow (h : s.takesPacket p seq epoch k) (ha : a.payload.length ≤ 264) (hb : b.payload.length ≤ 264) :
    (((s.port p).accepted { k with type := type }).sentNow a).canSend b := by
  obtain ⟨⟨-, hup, -⟩, -, -, -, -, -, -, hq, hr, hc, -, -⟩ := h
  obtain ⟨hca, hsa⟩ := cost_le_of_short ha
  obtain ⟨hcb, hsb⟩ := cost_le_of_short hb
  refine ⟨hup, hq, ?_, ?_⟩
  · show b.cost ≤ (modAt (s.port p).credits a.vc (fun c => c - a.cost)).getD b.vc 0
    rw [hc]
    obtain hv | hv | hv := packet_vc_cases a <;> obtain hw | hw | hw := packet_vc_cases b <;> rw [hv, hw] <;>
      simp [modAt] <;> omega
  · show ((s.port p).retry ++ [((s.port p).txSeq, a)]).foldl (fun n e => n + e.2.size) 0 + b.size ≤ 8192
    rw [hr]
    show 0 + a.size + b.size ≤ 8192
    omega

theorem served_accepted (h : s.takesPacket p seq epoch k) :
    PortServed (s.port p) ((s.port p).accepted { k with type := type }) [] := by
  obtain ⟨⟨-, hup, -⟩, -, -, -, -, -, -, -, -, -, htx, -⟩ := h
  exact ⟨hup, rfl, rfl, (Nat.mod_eq_of_lt htx).symm, rfl⟩

/-! ### What the command of a packet leaves -/

theorem port_of_sameLink (hl : SameLink (s.accepted p type k) u) : u.port p = (s.port p).accepted { k with type := type } := by
  rw [hl.ports, State.accepted, port_setPort]

theorem route_of_sameLink (h : s.takesPacket p seq epoch k) (hl : SameLink (s.accepted p type k) u) :
    u.portToward k.src = p ∧ p ∈ u.usedPorts := by
  obtain ⟨-, -, -, -, -, hsrc, hused, -⟩ := h
  rw [hl.portToward, hl.usedPorts]
  exact ⟨by simpa [State.portToward, State.accepted] using hsrc, by simpa [State.usedPorts, State.accepted] using hused⟩

/-- The service of a packet that leaves all of state u but the port, which has sent `out`. -/
theorem exec_of_served {y : Port} {out : List Packet} (h : s.takesPacket p seq epoch k) (hl : SameLink (s.accepted p type k) u)
    (hf : f { k with type := type } (s.accepted p type k) = u.setPort p y) (hy : PortServed (s.port p) y out) :
    ∃ z, served p type seq epoch k f s = .next (u.setPort p z) ∧
      sends s (u.setPort p z) p type k out := by
  rw [exec_of_takes h, hf]
  obtain ⟨z, hz, hs⟩ := sends_of_served hl hy
  exact ⟨z, by rw [hz], hs⟩

/-- A packet that is not answered. -/
theorem exec_of_silent (h : s.takesPacket p seq epoch k) (hl : SameLink (s.accepted p type k) u)
    (hf : f { k with type := type } (s.accepted p type k) = u) :
    ∃ z, served p type seq epoch k f s = .next (u.setPort p z) ∧
      sends s (u.setPort p z) p type k [] :=
  exec_of_served h hl (by rw [hf, ← port_of_sameLink hl, setPort_port]) (served_accepted h)

/-- A packet that is answered with one packet. -/
theorem exec_of_sendPacket (h : s.takesPacket p seq epoch k) (hl : SameLink (s.accepted p type k) u)
    (hf : f { k with type := type } (s.accepted p type k) = sendPacket a u) (hd : a.dest = k.src) (ha : a.payload.length ≤ 264) :
    ∃ z, served p type seq epoch k f s = .next (u.setPort p z) ∧
      sends s (u.setPort p z) p type k [a] := by
  obtain ⟨hto, hused⟩ := route_of_sameLink h hl
  have hp := port_of_sameLink hl
  refine exec_of_served h hl (y := (((s.port p).accepted { k with type := type }).sentNow a)) ?_
    ((served_accepted h).sentNow a)
  rw [hf, sendPacket_of_canSend (by rwa [hd]) hused (by rw [hp]; exact canSend_accepted h ha), hp]

/-- A packet that is answered with two packets. -/
theorem exec_of_sendPacket_sendPacket (h : s.takesPacket p seq epoch k) (hl : SameLink (s.accepted p type k) u)
    (hf : f { k with type := type } (s.accepted p type k) = sendPacket b (sendPacket a u)) (hda : a.dest = k.src)
    (hdb : b.dest = k.src) (ha : a.payload.length ≤ 264) (hb : b.payload.length ≤ 264) :
    ∃ z, served p type seq epoch k f s = .next (u.setPort p z) ∧
      sends s (u.setPort p z) p type k [a, b] := by
  obtain ⟨hto, hused⟩ := route_of_sameLink h hl
  have hp := port_of_sameLink hl
  refine exec_of_served h hl (y := (((s.port p).accepted { k with type := type }).sentNow a).sentNow b) ?_
    (((served_accepted h).sentNow a).sentNow b)
  rw [hf, sendPacket_sendPacket (by rwa [hda]) (by rwa [hdb]) hused (by rw [hp]; exact canSend_accepted h ha)
    (by rw [hp]; exact canSend_sentNow h ha hb), hp]

/-- A packet that is answered with the status alone (R561). -/
theorem exec_of_answer {kind status : Nat} (h : s.takesPacket p seq epoch k) (hl : SameLink (s.accepted p type k) u)
    (hf : f { k with type := type } (s.accepted p type k) = answer { k with type := type } kind status u) :
    ∃ z, served p type seq epoch k f s = .next (u.setPort p z) ∧
      sends s (u.setPort p z) p type k [s.reply k kind status] := by
  refine exec_of_sendPacket h hl (hf.trans ?_) rfl (Nat.zero_le _)
  have hchip : u.myChip = s.cw.chip.getD 0 := by rw [hl.myChip, State.myChip, State.accepted, cw_chip_setPort]
  rw [answer, hchip]
  rfl

end

end Sys2Proof.Machine
end

