-- ==== Sys2Proof/Proofs/RemoteRefusals.lean ====
section
/-! PROOF. Proofs/RemoteRefusals.lean: requests that the chip refuses, and write bursts that it performs (R70, R561, R616). -/
namespace Sys2Proof.Machine
open Sys2Proof

section
variable {s t u : State} {p : PortId} {seq : BitVec 12} {epoch : BitVec 8} {k a b : Packet} {type : Nat}
  {f : Packet → State → State}

/-! ### Refusals (R70, R561) -/

theorem takesRemote_accepted (s : State) (p : PortId) (type : Nat) (k : Packet) (off n : Nat) :
    (s.accepted p type k).takesRemote { k with type := type } off n = true ↔ s.admits k.watch off n := by
  have hw : (s.accepted p type k).watch? k.watch = s.watch? k.watch := by simp [State.accepted, State.watch?]
  rw [State.takesRemote, hw, State.admits]
  cases s.watch? k.watch <;> simp

/-- A request that is refused. -/
theorem exec_of_refuse {answer : Nat} (h : s.takesPacket p seq epoch k)
    (hf : f { k with type := type } (s.accepted p type k) = refuse { k with type := type } answer (s.accepted p type k)) :
    ∃ t, served p type seq epoch k f s = .next t ∧
      sends s t p type k [s.reply k answer 1] ∧
      t.cw.refusedIn = min 255 (s.cw.refusedIn + 1) ∧ t.harbour = s.harbour ∧ t.watches = s.watches ∧ ∀ c, t.core c = s.core c := by
  obtain ⟨z, hz, hs⟩ := exec_of_answer h
    (u := { s.accepted p type k with
      cw := { (s.accepted p type k).cw with refusedIn := satAdd (s.accepted p type k).cw.refusedIn 1 255 } })
    ⟨fun q => by cases q <;> rfl, rfl, rfl⟩ hf
  refine ⟨_, hz, hs, ?_, ?_, ?_, fun c => ?_⟩
  · simp [State.accepted, satAdd]
  · simp [State.accepted]
  · simp [State.accepted]
  · rw [core_setPort]
    exact core_setPort s p _ c

theorem logQueue_logEntry (e : LogInfo) (h : s.err.hour = []) : (logEntry e s).strand.logQueue = s.strand.logQueue ++ [s.logBody e] := by
  unfold logEntry
  dsimp only
  split
  · rfl
  · rw [h]
    rfl

/-- A request for a poisoned line (R604, R616). -/
theorem exec_of_refusePoisoned {answer line : Nat} (h : s.takesPacket p seq epoch k)
    (hf : f { k with type := type } (s.accepted p type k) =
      refusePoisoned { k with type := type } answer line (s.accepted p type k)) :
    ∃ t, served p type seq epoch k f s = .next t ∧
      sends s t p type k [s.reply k answer 1] ∧ t.harbour = s.harbour ∧ t.cw.refusedIn = min 255 (s.cw.refusedIn + 1) ∧
      (s.err.hour = [] → t.strand.logQueue.length = s.strand.logQueue.length + 1) := by
  let v := logEntry { cls := Config.freeNat (s.accepted p type k).free % 256, source := 1, addr := 0x40000000 + 64 * line, watch := some k.watch }
    { s.accepted p type k with free := (s.accepted p type k).free + 1 }
  have hcw : v.cw = (s.accepted p type k).cw := cw_logEntry _ _
  have hl : SameLink (s.accepted p type k) { v with cw := { v.cw with refusedIn := satAdd v.cw.refusedIn 1 255 } } := by
    refine (sameLink_of_cw hcw).trans ⟨fun q => by cases q <;> rfl, rfl, rfl⟩
  obtain ⟨z, hz, hs⟩ := exec_of_answer h hl hf
  refine ⟨_, hz, hs, ?_, ?_, fun he => ?_⟩
  · rw [harbour_setPort]
    exact (harbour_logEntry _ _).trans (harbour_setPort _ _ _)
  · rw [cw_refusedIn_setPort]
    show satAdd v.cw.refusedIn 1 255 = _
    rw [hcw]
    simp [State.accepted, satAdd]
  · have hh : ({ s.accepted p type k with free := (s.accepted p type k).free + 1 } : State).err.hour = [] := by simp [State.accepted, he]
    rw [strand_setPort]
    show v.strand.logQueue.length = _
    rw [logQueue_logEntry _ hh, List.length_append]
    simp [State.accepted]

/-! ### WR (R560 to R562) -/

/-- A write burst that the window admits, of lines that a packet or two have brought. -/
theorem exec_of_burst (h : s.takesPacket p seq epoch k) {ls : List (List Byte × BitVec 16)} {off : Nat}
    (hl : SameLink (s.accepted p type k) u) (hw : u.watches = s.watches) (hh : u.harbour = s.harbour)
    (hf : f { k with type := type } (s.accepted p type k) = performBurst { k with type := type } off ls u)
    (ha : s.admits k.watch off (64 * ls.length)) :
    ∃ t, served p type seq epoch k f s = .next t ∧
      sends s t p type k [s.reply k 8 0] ∧ t.harbour = s.harbour.putLines (off / 64) ls ∧ t.watches = s.watches ∧
      t.cw.firsts = u.cw.firsts := by
  have htake : u.takesRemote { k with type := type } off (64 * ls.length) = true := by
    obtain ⟨w, hk, hf5, hin⟩ := ha
    have hku : u.watch? k.watch = some w := (watch?_of_watches hw _).trans hk
    simp [State.takesRemote, hku, hf5, hin]
  rw [performBurst, if_pos htake] at hf
  obtain ⟨z, hz, hs⟩ := exec_of_answer h (u := u.putHbrLines (off / 64) ls) (hl.trans (sameLink_of_cw rfl)) hf
  refine ⟨_, hz, hs, ?_, ?_, ?_⟩
  · rw [harbour_setPort]
    show u.harbour.putLines _ _ = _
    rw [hh]
  · rw [watches_setPort]
    exact hw
  · rw [cw_firsts_setPort]
    rfl

end

end Sys2Proof.Machine
end

