-- ==== Sys2Proof/Proofs/RemoteWrites.lean ====
section
/-! PROOF. Proofs/RemoteWrites.lean: WR, WRW, RDW and FLUSH (R560 to R562, R574, R616). -/
namespace Sys2Proof.Machine
open Sys2Proof

section
variable {s t u : State} {p : PortId} {seq : BitVec 12} {epoch : BitVec 8} {k a b : Packet} {type : Nat}

/-- What a refused request leaves: the refusal is counted and answered, and nothing is performed (R561). -/
def State.refusedTo (s t : State) (p : PortId) (k : Packet) (type answer : Nat) : Prop :=
  sends s t p type k [s.reply k answer 1] ∧ t.cw.refusedIn = min 255 (s.cw.refusedIn + 1) ∧ t.harbour = s.harbour ∧
  t.watches = s.watches ∧ ∀ c, t.core c = s.core c

theorem harbour_accepted (s : State) (p : PortId) (type : Nat) (k : Packet) : (s.accepted p type k).harbour = s.harbour :=
  harbour_setPort s p _

theorem watches_accepted (s : State) (p : PortId) (type : Nat) (k : Packet) : (s.accepted p type k).watches = s.watches :=
  watches_setPort s p _

/-! ### What leaves the ports as they are -/

theorem sameLink_firsts (s : State) (l : List Packet) : SameLink s { s with cw := { s.cw with firsts := l } } :=
  ⟨fun q => by cases q <;> rfl, rfl, rfl⟩

theorem sameLink_power (s : State) (a n : Nat) : SameLink s (s.power a n) := sameLink_of_cw rfl

theorem sameLink_putHbr (s : State) (a : Nat) (bs : List Byte) : SameLink s (s.putHbr a bs) := sameLink_of_cw rfl

/-! ### WR (R560 to R562) -/

theorem wrPacket_of_whole (hf : k.first = true) (hl : k.last = true) (s : State) : wrPacket k s = performBurst k k.arg (packetLines k) s := by
  simp [wrPacket, hf, hl]

theorem wrPacket_of_first (hf : k.first = true) (hl : k.last = false) (s : State) : wrPacket k s =
    { s with cw := { s.cw with firsts := s.cw.firsts.filter (fun f => !(f.src == k.src && f.txn == k.txn)) ++ [k] } } := by
  simp [wrPacket, hf, hl]

theorem wrPacket_of_last {f : Packet} (hf : k.first = false) (hl : k.last = true) (hs : s.cw.firsts = [f]) (hsrc : f.src = k.src)
    (htxn : f.txn = k.txn) :
    wrPacket k s = performBurst k f.arg (packetLines f ++ packetLines k) { s with cw := { s.cw with firsts := [] } } := by
  simp [wrPacket, hf, hl, hs, hsrc, htxn]

/-- A whole write burst. -/
theorem exec_wr_whole (h : s.takesPacket p seq epoch k) (hf : k.first = true) (hl : k.last = true) :
    (¬s.admits k.watch k.arg (64 * (k.payload.length / 66)) → ∃ t, exec (.wr p seq epoch k) s = .next t ∧ s.refusedTo t p k 1 8) ∧
    (s.admits k.watch k.arg (64 * (k.payload.length / 66)) → k.arg % 64 = 0 → ∃ t, exec (.wr p seq epoch k) s = .next t ∧
      sends s t p 1 k [s.reply k 8 0] ∧
      sameOutside s.harbour t.harbour k.arg (k.arg + 64 * (k.payload.length / 66)) ∧ t.watches = s.watches ∧
      ∀ i, i < k.payload.length / 66 → t.harbour.tag (k.arg / 64 + i) = BitVec.ofNat 16 (leAt k.payload (66 * i + 64) 2) ∧
        ∀ j, j < 64 → rdByte t.harbour.data (k.arg + 64 * i + j) = k.payload.getD (66 * i + j) 0) := by
  have hwr := wrPacket_of_whole (k := { k with type := 1 }) hf hl (s.accepted p 1 k)
  have hlen : (packetLines { k with type := 1 }).length = k.payload.length / 66 := length_packetLines _
  refine ⟨fun hn => ?_, fun ha halign => ?_⟩
  · refine exec_of_refuse h (hwr.trans (if_neg ?_))
    rw [hlen]
    exact mt (takesRemote_accepted s p 1 k _ _).mp hn
  · have hm : s.harbour.wf = true := by obtain ⟨-, -, -, -, -, -, -, -, -, -, -, hm, -⟩ := h; exact hm
    obtain ⟨t, ht, hs, hh, hw, -⟩ := exec_of_burst h (SameLink.refl _) (by simp [State.accepted]) (by simp [State.accepted]) hwr
      (by rwa [hlen])
    refine ⟨t, ht, hs, ?_, hw, fun i hi => ?_⟩
    · have := sameOutside_putLines (packetLines { k with type := 1 }) hm (k.arg / 64)
      rwa [hlen, show 64 * (k.arg / 64) = k.arg by omega, ← hh] at this
    · rw [hh]
      exact putLines_packetLines hm { k with type := 1 } halign hi

/-- The FIRST of two packets waits for its LAST. -/
theorem exec_wr_first (h : s.takesPacket p seq epoch k) (hf : k.first = true) (hl : k.last = false) :
    ∃ t, exec (.wr p seq epoch k) s = .next t ∧ sends s t p 1 k [] ∧
      { k with type := 1 } ∈ t.cw.firsts ∧ (∀ f ∈ t.cw.firsts, f.src = k.src → f.txn = k.txn → f = { k with type := 1 }) ∧
      t.harbour = s.harbour ∧ t.cw.refusedIn = s.cw.refusedIn := by
  let v := s.accepted p 1 k
  obtain ⟨z, hz, hs⟩ := exec_of_silent h (f := wrPacket)
    (sameLink_firsts v (v.cw.firsts.filter (fun f => !(f.src == k.src && f.txn == k.txn)) ++ [{ k with type := 1 }]))
    (wrPacket_of_first (k := { k with type := 1 }) hf hl v)
  refine ⟨_, hz, hs, ?_, ?_, ?_, ?_⟩
  · simp
  · intro f hfm hsrc htxn
    rw [cw_firsts_setPort, List.mem_append, List.mem_filter, List.mem_singleton] at hfm
    obtain ⟨-, hne⟩ | he := hfm
    · simp [hsrc, htxn] at hne
    · exact he
  · simp [v, State.accepted]
  · simp [v, State.accepted]

/-- The LAST of two packets brings the burst of both. -/
theorem exec_wr_last {f : Packet} (h : s.takesPacket p seq epoch k) (hf : k.first = false) (hl : k.last = true)
    (hs : s.cw.firsts = [f]) (hsrc : f.src = k.src) (htxn : f.txn = k.txn) (hlen : f.payload.length = 66 * 4) (halign : f.arg % 64 = 0)
    (ha : s.admits k.watch f.arg (64 * (4 + k.payload.length / 66))) :
    ∃ t, exec (.wr p seq epoch k) s = .next t ∧ sends s t p 1 k [s.reply k 8 0] ∧ t.cw.firsts = [] ∧
      sameOutside s.harbour t.harbour f.arg (f.arg + 64 * (4 + k.payload.length / 66)) ∧
      ∀ i j, i < 4 + k.payload.length / 66 → j < 64 → rdByte t.harbour.data (f.arg + 64 * i + j) =
        if i < 4 then f.payload.getD (66 * i + j) 0 else k.payload.getD (66 * (i - 4) + j) 0 := by
  have hm : s.harbour.wf = true := by obtain ⟨-, -, -, -, -, -, -, -, -, -, -, hm, -⟩ := h; exact hm
  let ls := packetLines f ++ packetLines { k with type := 1 }
  have hf4 : (packetLines f).length = 4 := by rw [length_packetLines, hlen]
  have hls : ls.length = 4 + k.payload.length / 66 := by
    rw [List.length_append, hf4, length_packetLines]
  let v := s.accepted p 1 k
  have hwr : wrPacket { k with type := 1 } v = performBurst { k with type := 1 } f.arg ls { v with cw := { v.cw with firsts := [] } } :=
    wrPacket_of_last hf hl (by simp [v, State.accepted, hs]) hsrc htxn
  obtain ⟨t, ht, hsend, hh, -, hfirsts⟩ := exec_of_burst h (sameLink_firsts v [])
    (watches_accepted s p 1 k) (harbour_accepted s p 1 k) hwr (by rwa [hls])
  refine ⟨t, ht, hsend, hfirsts, ?_, fun i j hi hj => ?_⟩
  · have := sameOutside_putLines ls hm (f.arg / 64)
    rwa [hls, show 64 * (f.arg / 64) = f.arg by omega, ← hh] at this
  · have hil : i < ls.length := by rwa [hls]
    have hb := (putLines_getElem ls hm (f.arg / 64) hil).2 j hj
    rw [hh, show f.arg + 64 * i + j = 64 * (f.arg / 64 + i) + j by omega, hb]
    split
    · next h4 =>
      rw [List.getElem_append_left (by rwa [hf4]), getElem_packetLines]
      exact getD_slice _ _ hj
    · next h4 =>
      rw [List.getElem_append_right (by rw [hf4]; omega), getElem_packetLines]
      simp only [hf4]
      exact getD_slice _ _ hj

/-! ### WRW and RDW (R561, R616) -/

theorem exec_word_refused (h : s.takesPacket p seq epoch k) (hn : ¬s.admits k.watch k.arg 4) :
    (∃ t, exec (.wrw p seq epoch k) s = .next t ∧ s.refusedTo t p k 2 8) ∧
    ∃ t, exec (.rdw p seq epoch k) s = .next t ∧ s.refusedTo t p k 4 10 := by
  have hnot : ∀ type, (!(s.accepted p type k).takesRemote { k with type := type } k.arg 4) = true := fun type => by
    rw [Bool.not_eq_true', ← Bool.not_eq_true]
    exact mt (takesRemote_accepted s p type k _ _).mp hn
  exact ⟨exec_of_refuse h (if_pos (hnot 2)), exec_of_refuse h (if_pos (hnot 4))⟩

theorem exec_word_poisoned (h : s.takesPacket p seq epoch k) (ha : s.admits k.watch k.arg 4)
    (hp : s.harbour.poisoned (k.arg / 64) = true) :
    ∀ i ∈ [(Instr.wrw p seq epoch k, 2, 8), (.rdw p seq epoch k, 4, 10)], ∃ t, exec i.1 s = .next t ∧
      sends s t p i.2.1 k [s.reply k i.2.2 1] ∧ t.harbour = s.harbour ∧ t.cw.refusedIn = min 255 (s.cw.refusedIn + 1) ∧
      (s.err.hour = [] → t.strand.logQueue.length = s.strand.logQueue.length + 1) := by
  have hnot : ∀ type, ¬(!(s.accepted p type k).takesRemote { k with type := type } k.arg 4) = true := fun type => by
    rw [(takesRemote_accepted s p type k _ _).mpr ha]
    exact Bool.false_ne_true
  have hpo : ∀ type, (s.accepted p type k).harbour.poisoned (k.arg / 64) = true := fun type => by rwa [harbour_accepted]
  intro i hi
  simp only [List.mem_cons, List.not_mem_nil, or_false] at hi
  obtain rfl | rfl := hi
  · exact exec_of_refusePoisoned h ((if_neg (hnot 2)).trans (if_pos (hpo 2)))
  · exact exec_of_refusePoisoned h ((if_neg (hnot 4)).trans (if_pos (hpo 4)))

theorem exec_wrw (h : s.takesPacket p seq epoch k) (ha : s.admits k.watch k.arg 4)
    (hp : s.harbour.poisoned (k.arg / 64) = false) :
    ∃ t, exec (.wrw p seq epoch k) s = .next t ∧ sends s t p 2 k [s.reply k 8 0] ∧
      (∀ j, j < 4 → rdByte t.harbour.data (k.arg + j) = k.payload.getD j 0) ∧
      sameOutside s.harbour t.harbour k.arg (k.arg + 4) ∧ t.harbour.tags = s.harbour.tags ∧ t.watches = s.watches := by
  have hm : Memory.wf s.harbour.data = true := by
    obtain ⟨-, -, -, -, -, -, -, -, -, -, -, hm, -⟩ := h
    exact ((Lines.wf_iff _).mp hm).1
  have hf : wrwPacket { k with type := 2 } (s.accepted p 2 k) =
      answer { k with type := 2 } 8 0 ((s.accepted p 2 k).putHbr k.arg (padTo k.payload 4)) := by
    rw [wrwPacket, (takesRemote_accepted s p 2 k _ _).mpr ha, harbour_accepted, hp]
    rfl
  obtain ⟨z, hz, hs⟩ := exec_of_answer h (sameLink_putHbr _ _ _) hf
  have hh : (((s.accepted p 2 k).putHbr k.arg (padTo k.payload 4)).setPort p z).harbour = s.harbour.putBytes k.arg (padTo k.payload 4) := by
    rw [harbour_setPort]
    show (s.accepted p 2 k).harbour.putBytes _ _ = _
    rw [harbour_accepted]
  have hb : ∀ b, rdByte (s.harbour.putBytes k.arg (padTo k.payload 4)).data b =
      if k.arg ≤ b ∧ b < k.arg + 4 then (padTo k.payload 4).getD (b - k.arg) 0 else rdByte s.harbour.data b := fun b => by
    rw [Lines.putBytes, rdByte_wrBytes _ _ _ _ hm, length_padTo]
  refine ⟨_, hz, hs, fun j hj => ?_, ⟨fun b hb' => ?_, fun l _ => ?_⟩, ?_, ?_⟩
  · rw [hh, hb, if_pos (by omega), Nat.add_sub_cancel_left]
    exact getD_padTo _ hj
  · rw [hh, hb, if_neg (by omega)]
  · rw [hh]
    rfl
  · rw [hh]
    rfl
  · rw [watches_setPort]
    exact watches_accepted s p 2 k

/-- A read where no line holds a single-bit error. -/
theorem visit_of_clean (h : s.harbour.upset = []) (a n : Nat) : s.visit a n = s.power a n := by rw [State.visit, h]; rfl

theorem clean_accepted (h : s.takesPacket p seq epoch k) (type : Nat) : (s.accepted p type k).harbour.upset = [] := by
  obtain ⟨-, -, -, -, -, -, -, -, -, -, -, -, hu⟩ := h
  rwa [harbour_accepted]

theorem myChip_accepted (s : State) (p : PortId) (type : Nat) (k : Packet) : (s.accepted p type k).myChip = s.cw.chip.getD 0 := by
  simp [State.myChip, State.accepted]

theorem exec_rdw (h : s.takesPacket p seq epoch k) (ha : s.admits k.watch k.arg 4)
    (hp : s.harbour.poisoned (k.arg / 64) = false) :
    ∃ t, exec (.rdw p seq epoch k) s = .next t ∧
      sends s t p 4 k [{ s.reply k 10 0 with payload := rdBytes s.harbour.data k.arg 4 }] ∧ t.harbour = s.harbour ∧
      t.watches = s.watches := by
  have hf : rdwPacket { k with type := 4 } (s.accepted p 4 k) =
      sendPacket { s.reply k 10 0 with payload := rdBytes s.harbour.data k.arg 4 } ((s.accepted p 4 k).power k.arg 4) := by
    rw [rdwPacket, (takesRemote_accepted s p 4 k _ _).mpr ha, harbour_accepted, hp, visit_of_clean (clean_accepted h 4), myChip_accepted]
    rfl
  obtain ⟨z, hz, hs⟩ := exec_of_sendPacket h (sameLink_power _ _ _) hf rfl (by rw [length_rdBytes]; decide)
  refine ⟨_, hz, hs, ?_, ?_⟩
  · rw [harbour_setPort]
    exact harbour_accepted s p 4 k
  · rw [watches_setPort]
    exact watches_accepted s p 4 k

/-! ### FLUSH (R574) -/

theorem exec_flush (h : s.takesPacket p seq epoch k) :
    ∃ t, exec (.flush p seq epoch k) s = .next t ∧ sends s t p 6 k [s.reply k 11 0] ∧ t.harbour = s.harbour := by
  obtain ⟨z, hz, hs⟩ := exec_of_answer h (SameLink.refl _) (f := flushPacket) rfl
  exact ⟨_, hz, hs, (harbour_setPort _ _ _).trans (harbour_accepted s p 6 k)⟩

end

end Sys2Proof.Machine
end

