-- ==== Sys2Proof/Proofs/RemoteReads.lean ====
section
/-! PROOF. Proofs/RemoteReads.lean: RD and MARKER, and the requests together (R561, R562, R577). -/
namespace Sys2Proof.Machine
open Sys2Proof

section
variable {s t u : State} {p : PortId} {seq : BitVec 12} {epoch : BitVec 8} {k a b : Packet} {type : Nat}

/-! ### RD (R561, R562, R616) -/

/-- The payload of n lines from line l, each with its tag (R560). -/
def Lines.payload (m : Lines) (l n : Nat) : List Byte := (List.range n).flatMap (fun i => m.line (l + i) ++ leBytes (m.tag (l + i)).toNat 2)

theorem length_payload (m : Lines) (l n : Nat) : (m.payload l n).length = n * 66 := by
  have hlen : ∀ i, (m.line (l + i) ++ leBytes (m.tag (l + i)).toNat 2).length = 66 := fun i => by
    rw [List.length_append, Lines.line, length_rdBytes, length_leBytes]
  simp [Lines.payload, List.length_flatMap, hlen]

/-- The packet that answers an RD with n lines from the one at number lo of the block (R562). -/
def State.readPart (s : State) (k : Packet) (lo n : Nat) (first last : Bool) : Packet :=
  { s.reply k 9 0 with first := first, last := last, lines := n, arg := k.arg + 64 * lo,
                       payload := s.harbour.payload (k.arg / 64 + lo) n }

/-- The lines of a block with their tags. -/
def Lines.block (m : Lines) (l n : Nat) : List (List Byte × BitVec 16) := (List.range n).map (fun i => (m.line (l + i), m.tag (l + i)))

theorem payload_block (m : Lines) (l n : Nat) : (m.block l n).flatMap payloadLine = m.payload l n := by
  rw [Lines.block, List.flatMap_map]
  rfl

theorem take_block (m : Lines) (l : Nat) {n i : Nat} (h : i ≤ n) : (m.block l n).take i = m.block l i := by
  rw [Lines.block, ← List.map_take, List.take_range, Nat.min_eq_left h]
  rfl

theorem drop_block (m : Lines) (l n i : Nat) : (m.block l n).drop i = m.block (l + i) (n - i) := by
  refine List.ext_getElem (by simp [Lines.block]) fun j _ _ => ?_
  simp [Lines.block, Nat.add_assoc]

theorem length_block (m : Lines) (l n : Nat) : (m.block l n).length = n := by simp [Lines.block]

/-- The answer of this chip with lines of the block of an RD. -/
def State.linesPacket (s : State) (k : Packet) (first last : Bool) (off : Nat) (ls : List (List Byte × BitVec 16)) : Packet :=
  { type := 9, first := first, last := last, dest := k.src, src := s.myChip, core := k.core, lines := ls.length, watch := k.watch,
    arg := off, txn := k.txn, payload := ls.flatMap payloadLine }

theorem rdPacket_of_admits (ht : s.takesRemote k k.arg (64 * k.lines) = true)
    (hp : ∀ i, i < k.lines → s.harbour.poisoned (k.arg / 64 + i) = false) :
    rdPacket k s =
      if k.lines ≤ 4 then sendPacket (s.linesPacket k true true k.arg (s.harbour.block (k.arg / 64) k.lines)) (s.visit k.arg (64 * k.lines))
      else sendPacket (s.linesPacket k false true (k.arg + 256) ((s.harbour.block (k.arg / 64) k.lines).drop 4))
        (sendPacket (s.linesPacket k true false k.arg ((s.harbour.block (k.arg / 64) k.lines).take 4)) (s.visit k.arg (64 * k.lines))) := by
  have hnone : (List.range k.lines).find? (fun i => s.harbour.poisoned (k.arg / 64 + i)) = none := by
    rw [List.find?_eq_none]
    intro i hi
    rw [hp i (List.mem_range.mp hi)]
    exact Bool.false_ne_true
  have hchip : (s.visit k.arg (64 * k.lines)).myChip = s.myChip := by
    unfold State.visit
    split <;> rfl
  unfold rdPacket
  simp only [ht, hnone, Bool.not_true, Bool.false_eq_true, if_false]
  rfl

theorem exec_rd_refused (h : s.takesPacket p seq epoch k) (hn : ¬s.admits k.watch k.arg (64 * k.lines)) :
    ∃ t, exec (.rd p seq epoch k) s = .next t ∧ s.refusedTo t p k 3 9 := by
  refine exec_of_refuse h (if_pos ?_)
  rw [Bool.not_eq_true', ← Bool.not_eq_true]
  exact mt (takesRemote_accepted s p 3 k _ _).mp hn

/-- The block of an RD goes back in one packet or two. -/
theorem exec_rd (h : s.takesPacket p seq epoch k) (ha : s.admits k.watch k.arg (64 * k.lines)) (h8 : k.lines ≤ 8)
    (hp : ∀ i, i < k.lines → s.harbour.poisoned (k.arg / 64 + i) = false) :
    ∃ t, exec (.rd p seq epoch k) s = .next t ∧ t.harbour = s.harbour ∧ t.watches = s.watches ∧ sends s t p 3 k
      (if k.lines ≤ 4 then [s.readPart k 0 k.lines true true]
       else [s.readPart k 0 4 true false, s.readPart k 4 (k.lines - 4) false true]) := by
  let v := s.accepted p 3 k
  let u := v.power k.arg (64 * k.lines)
  have hlines : ∀ lo n first last, v.linesPacket { k with type := 3 } first last (k.arg + 64 * lo) (v.harbour.block (k.arg / 64 + lo) n) =
      s.readPart k lo n first last := fun lo n first last => by
    unfold State.linesPacket State.readPart State.reply
    rw [payload_block, length_block, harbour_accepted, myChip_accepted]
  have hf := rdPacket_of_admits (k := { k with type := 3 }) ((takesRemote_accepted s p 3 k _ _).mpr ha)
    (fun i hi => by rw [harbour_accepted]; exact hp i hi)
  rw [visit_of_clean (clean_accepted h 3)] at hf
  have hshort : ∀ lo n first last, n ≤ 4 → (s.readPart k lo n first last).payload.length ≤ 264 := fun lo n first last hn => by
    rw [State.readPart, length_payload]
    omega
  have hfin : ∀ z out, sends s (u.setPort p z) p 3 k out → (u.setPort p z).harbour = s.harbour ∧ (u.setPort p z).watches = s.watches ∧
      sends s (u.setPort p z) p 3 k out := fun z out hs =>
    ⟨(harbour_setPort u p z).trans (harbour_accepted s p 3 k), (watches_setPort u p z).trans (watches_accepted s p 3 k), hs⟩
  have hlines0 : ∀ n first last, v.linesPacket { k with type := 3 } first last k.arg (v.harbour.block (k.arg / 64) n) =
      s.readPart k 0 n first last := hlines 0
  by_cases h4 : k.lines ≤ 4
  · rw [if_pos h4, hlines0] at hf
    obtain ⟨z, hz, hs⟩ := exec_of_sendPacket h (sameLink_power v k.arg (64 * k.lines)) hf rfl (hshort _ _ _ _ h4)
    rw [if_pos h4]
    exact ⟨_, hz, hfin z _ hs⟩
  · have hle : 4 ≤ k.lines := (Nat.lt_of_not_le h4).le
    rw [if_neg h4, take_block _ _ hle, drop_block, hlines0, hlines 4] at hf
    obtain ⟨z, hz, hs⟩ := exec_of_sendPacket_sendPacket h (sameLink_power v k.arg (64 * k.lines)) hf rfl rfl
      (hshort 0 4 _ _ le_rfl) (hshort 4 (k.lines - 4) _ _ (by omega))
    rw [if_neg h4]
    exact ⟨_, hz, hfin z _ hs⟩

/-! ### MARKER (R561, R577) -/

theorem exec_marker_refused (h : s.takesPacket p seq epoch k)
    (hn : s.marker? k.watch k.src = none ∨ ∀ w, s.watch? k.watch = some w → w.flag 5 = false) :
    ∃ t, exec (.marker p seq epoch k) s = .next t ∧ s.refusedTo t p k 5 8 := by
  refine exec_of_refuse h (if_neg ?_)
  have hm : (s.accepted p 5 k).marker? k.watch k.src = s.marker? k.watch k.src := by simp [State.accepted, State.marker?]
  have hw : (s.accepted p 5 k).watch? k.watch = s.watch? k.watch := watch?_of_watches (watches_accepted s p 5 k) _
  show ¬(s.accepted p 5 k).markerOk k.watch k.src = true
  rw [State.markerOk, hm, hw]
  obtain hn | hn := hn
  · simp [hn]
  · cases hk : s.watch? k.watch with
    | none => simp
    | some w => simp [hn w hk]

/-- The newest epoch of a core after an accepted marker, one above the last by less than half the range being newer (R577). -/
def newerEpoch (old : Option Nat) (epoch : Nat) : Nat :=
  match old with
  | some e => if 1 ≤ (epoch + 65536 - e) % 65536 ∧ (epoch + 65536 - e) % 65536 < 32768 then epoch else e
  | none => epoch

theorem epochs_accept (m : MarkerEntry) (idx epoch count : Nat) (hidx : idx < m.epochs.length) :
    (m.accept idx epoch count).epochs = setAt m.epochs idx (some (newerEpoch (m.epochs.getD idx none) epoch)) := by
  unfold MarkerEntry.accept newerEpoch
  cases ho : m.epochs.getD idx none with
  | none => rfl
  | some e =>
    by_cases hnew : 1 ≤ (epoch + 65536 - e) % 65536 ∧ (epoch + 65536 - e) % 65536 < 32768
    · simp only [hnew, and_self, if_true, decide_true, Bool.and_self]
    · have hold : m.epochs[idx] = some e := by
        rwa [List.getD_eq_getElem?_getD, List.getElem?_eq_getElem hidx] at ho
      simp only [if_neg hnew, ← Bool.decide_and, decide_eq_false hnew, setAt, ← hold, List.set_getElem_self]
      rfl

theorem accept_markerEntry (m : MarkerEntry) (idx epoch count : Nat) (hidx : idx < m.epochs.length) :
    (m.accept idx epoch count).count = count ∧ (∀ c, c ≠ idx → (m.accept idx epoch count).epochs[c]? = m.epochs[c]?) ∧
    (m.accept idx epoch count).epochs[idx]? = some (some (newerEpoch (m.epochs.getD idx none) epoch)) := by
  rw [epochs_accept m idx epoch count hidx, setAt]
  exact ⟨rfl, fun c hc => List.getElem?_set_ne hc.symm, List.getElem?_set_self hidx⟩

theorem settles_running (l : List (Fin 4))
    (h : ∀ c, (s.core c).run = .running ∧ (s.core c).wait = none ∧ (s.core c).replaying = false) :
    l.foldl (fun s c => settle c s) s = s := by
  induction l with
  | nil => rfl
  | cons c l ih => rw [List.foldl_cons, settle_running s c (h c).1 (h c).2.1 (h c).2.2, ih]

theorem exec_marker {m : MarkerEntry} {w : Watch} (h : s.takesPacket p seq epoch k) (hm : s.cw.markers = [m]) (hmw : m.watch = k.watch)
    (hmc : m.chip = k.src) (hw : s.watch? k.watch = some w) (hw5 : w.flag 5 = true)
    (hcores : ∀ c, (s.core c).run = .running ∧ (s.core c).wait = none ∧ (s.core c).replaying = false) :
    ∃ t, exec (.marker p seq epoch k) s = .next t ∧ sends s t p 5 k [s.reply k 8 0] ∧
      t.cw.markers = [m.accept k.core (k.arg % 65536) (fld k.arg 16 3)] ∧ t.harbour = s.harbour := by
  let v := s.accepted p 5 k
  have hvm : v.cw.markers = [m] := (cw_markers_setPort _ _ _).trans hm
  let u := storeMarker k.watch k.src k.core (k.arg % 65536) (fld k.arg 16 3) v
  have hok : v.markerOk k.watch k.src = true := by
    have hvw : v.watch? k.watch = some w := (watch?_of_watches (watches_accepted s p 5 k) _).trans hw
    simp [State.markerOk, State.marker?, hvm, hmw, hmc, hvw, hw5]
  have hcore : ∀ c, u.core c = s.core c := fun c => core_setPort s p _ c
  have hsettle : coreIds.foldl (fun s c => settle c s) u = u := settles_running _ fun c => by rw [hcore]; exact hcores c
  have hf : markerPacket { k with type := 5 } v = answer { k with type := 5 } 8 0 u := by
    rw [markerPacket]
    exact (if_pos hok).trans (congrArg (answer { k with type := 5 } 8 0) hsettle)
  obtain ⟨z, hz, hs⟩ := exec_of_answer h (u := u) ⟨fun q => by cases q <;> rfl, rfl, rfl⟩ hf
  refine ⟨_, hz, hs, ?_, ?_⟩
  · rw [cw_markers_setPort]
    show v.cw.markers.map _ = _
    rw [hvm]
    exact congrArg (fun x => [x]) (if_pos (by simp [hmw, hmc]))
  · rw [harbour_setPort]
    exact harbour_accepted s p 5 k

end

/-- Settles O55: each request by what its service leaves of the state and by the packets that the port sends at once. -/
theorem requestsArePerformedAndAnswered : Obligations.RequestsArePerformedAndAnswered := by
  unfold Obligations.RequestsArePerformedAndAnswered
  intro s p seq epoch k h
  refine ⟨fun _ hf hl => exec_wr_whole h hf hl, exec_wr_first h,
    fun f hf hl hs hsrc htxn hlen _ ha hadm => exec_wr_last h hf hl hs hsrc htxn hlen ha hadm, fun i hi => ⟨fun hn => ?_, fun ha hp => ?_⟩,
    fun ha hp => ⟨exec_wrw h ha hp, exec_rdw h ha hp⟩, exec_rd_refused h, fun ha _ h8 hp => exec_rd h ha h8 hp, exec_flush h,
    exec_marker_refused h, fun m w hm hmw hmc hw hw5 hcore hlen hcores => ?_⟩
  · obtain ⟨hwrw, hrdw⟩ := exec_word_refused h hn
    simp only [List.mem_cons, List.not_mem_nil, or_false] at hi
    obtain rfl | rfl := hi
    · exact hwrw
    · exact hrdw
  · exact exec_word_poisoned h ha hp i hi
  · obtain ⟨t, ht, hs, hmark, hh⟩ := exec_marker h hm hmw hmc hw hw5 hcores
    obtain ⟨hcount, hother, hown⟩ := accept_markerEntry m k.core (k.arg % 65536) (fld k.arg 16 3) (hlen.symm ▸ hcore)
    refine ⟨t, _, ht, hs, hmark, hcount, hother, hown.trans ?_, hh⟩
    cases m.epochs.getD k.core none <;> rfl

end Sys2Proof.Machine
end

