-- ==== Sys2Proof/Proofs/RefusedResponse.lean ====
section
/-! PROOF. Proofs/RefusedResponse.lean: a response whose refusal resets the chip (R391, R561, R619, R621). -/
namespace Sys2Proof.Machine
open Sys2Proof

/-- A chip at the end of its chain whose Spring job has no core of its own, while core 0 waits for chip 0 and core 1 holds one
descriptor token more than the book allows (R376). -/
def unbalanced : State where
  tide := { coreEn := true }
  core0 := { run := .running, pend := [{ slot := 7, chip := some 0, reqs := [{ txn := 0 }] }] }
  core1 := { pend := List.replicate 17 { slot := 6 } }
  watches := [{ state := .running, job := some { inSpring := true } }]
  cw := { cfg := { role := 3 }, chip := some 1, up := { state := .up } }

/-- The refusal of the operation that core 0 waits for. -/
def refusal : Packet := { type := 8, dest := 1, src := 0, status := 1, txn := 0 }

theorem takesPacket_unbalanced : unbalanced.takesPacket .up 0 0 refusal := by
  unfold State.takesPacket State.linkUp State.live
  decide

theorem awaits_unbalanced : unbalanced.awaits 0 refusal { slot := 7, chip := some 0, reqs := [{ txn := 0 }] } :=
  ⟨rfl, ⟨_, rfl, rfl⟩, rfl, rfl, rfl, rfl, rfl⟩

/-- The stop closes the job at once and leaves Spring, where the tokens of core 1 do not balance: the chip resets (R619, R621). -/
theorem exec_ack_unbalanced : ∃ t, exec (.ack .up 0 0 refusal) unbalanced = .next t ∧ (t.core 0).excValid = false :=
  ⟨_, rfl, rfl⟩

/-- Refutes O56: a refused operation of a core that is not among the cores of the Spring's job. No core takes the stop, so the job
ends at once; as CORE_EN falls, the tokens of another core do not balance, and the chip-fatal reset clears the exception. -/
theorem not_responsesAndMessagesTakeEffect : ¬ Obligations.ResponsesAndMessagesTakeEffect := by
  unfold Obligations.ResponsesAndMessagesTakeEffect
  intro h
  obtain ⟨hresponse, -⟩ := h unbalanced .up 0 0 refusal takesPacket_unbalanced
  obtain ⟨hrefused, -⟩ := hresponse 0 _ awaits_unbalanced
  obtain ⟨t, ht, -, -, hvalid⟩ := hrefused (by decide) _ (List.mem_cons_self ..)
  obtain ⟨u, hu, hlost⟩ := exec_ack_unbalanced
  cases ht.symm.trans hu
  exact absurd (hvalid.symm.trans hlost) (by decide)

end Sys2Proof.Machine
end

