-- ==== Sys2Proof/Proofs/SpringCuts.lean ====
section
/-! PROOF. Proofs/SpringCuts.lean: the fall of CORE_EN, VCORE failure and reservoir collapse (R88, R107, R119, R172, R617). -/
namespace Sys2Proof.Machine
open Sys2Proof

section
variable {s t u : State} {w : Watch} {j : Job} {n : Nat}

/-! ### The job in Spring -/

theorem springWatch_of_watches (h : t.watches = s.watches) : t.springWatch = s.springWatch := by
  rw [State.springWatch, State.springWatch, h]

/-- What a job in Spring needs of the state: that the device is live, the table and that no stop is in progress. -/
theorem inSpringJob_of_same (h : s.inSpringJob w j) (hw : t.watches = s.watches) (hr : t.sys.inReset = s.sys.inReset)
    (hs : t.stopping = s.stopping) : t.inSpringJob w j := by
  obtain ⟨hlive, hsw, hj, hstop, hn⟩ := h
  exact ⟨hr.trans hlive, (springWatch_of_watches hw).trans hsw, hj, hs.trans hstop, (watch?_of_watches hw _).trans hn⟩

theorem inSpring_of_springWatch (h : s.springWatch = some w) (hj : w.job = some j) : j.inSpring = true := by
  have := List.find?_some h
  rwa [hj] at this

/-! ### CORE_EN falls (R88, R172) -/

/-- No core holds more descriptor tokens than it has (R376, R621). -/
def State.tokensOk (s : State) : Prop := ∀ c, (s.core c).tokensBalance = true

theorem tokensOk_of_withinDepths (h : s.withinDepths = true) : s.tokensOk := by
  unfold State.withinDepths at h
  simp only [Bool.and_eq_true, List.all_eq_true] at h
  exact fun c => h.2 c (by fin_cases c <;> decide)

/-- What the fall of CORE_EN leaves: the cores without power, the device in Slack, no stop, and all else as it was but for the
knowledge that VPIX is good. -/
structure SpringLeft (s t : State) : Prop where
  frame : ∃ cores : Fin 4 → Core, ∃ tide resetting, t = { s with
    core0 := cores 0, core1 := cores 1, core2 := cores 2, core3 := cores 3, tide := tide,
    sys := { s.sys with resetting := resetting }, stopping := none }
  power : t.tide.power = .slack
  coreEn : t.tide.coreEn = false
  collapses : t.tide.collapses = s.tide.collapses
  off : coresOff t

theorem springLeft_leaveSpring (hc : s.tide.coreEn = true) (hb : s.tokensOk) : SpringLeft s (leaveSpring s) := by
  have hall : coreIds.all (fun c => (s.core c).tokensBalance) = true := List.all_eq_true.mpr fun c _ => hb c
  unfold leaveSpring
  rw [hc, hall]
  rw [show (true && !true) = false from rfl, if_neg Bool.false_ne_true, if_pos rfl, keepVpix_frame]
  refine ⟨⟨fun c => coreOff (s.core c), _, _, rfl⟩, rfl, rfl, rfl, fun c => ?_⟩
  fin_cases c <;> exact ⟨rfl, rfl, rfl, rfl, rfl, rfl, rfl⟩

theorem SpringLeft.watches (h : SpringLeft s t) : t.watches = s.watches := by obtain ⟨_, _, _, h⟩ := h.frame; rw [h]
theorem SpringLeft.harbour (h : SpringLeft s t) : t.harbour = s.harbour := by obtain ⟨_, _, _, h⟩ := h.frame; rw [h]
theorem SpringLeft.otp (h : SpringLeft s t) : t.otp = s.otp := by obtain ⟨_, _, _, h⟩ := h.frame; rw [h]
theorem SpringLeft.host (h : SpringLeft s t) : t.host = s.host := by obtain ⟨_, _, _, h⟩ := h.frame; rw [h]
theorem SpringLeft.strand (h : SpringLeft s t) : t.strand = s.strand := by obtain ⟨_, _, _, h⟩ := h.frame; rw [h]
theorem SpringLeft.err (h : SpringLeft s t) : t.err = s.err := by obtain ⟨_, _, _, h⟩ := h.frame; rw [h]
theorem SpringLeft.cw (h : SpringLeft s t) : t.cw = s.cw := by obtain ⟨_, _, _, h⟩ := h.frame; rw [h]
theorem SpringLeft.pix (h : SpringLeft s t) : t.pix = s.pix := by obtain ⟨_, _, _, h⟩ := h.frame; rw [h]
theorem SpringLeft.alarm (h : SpringLeft s t) : t.sys.alarm = s.sys.alarm := by obtain ⟨_, _, _, h⟩ := h.frame; rw [h]

theorem watchFaulted_of_same {code : Nat} (h : watchFaulted s t n code) (hw : u.watches = t.watches) (he : u.err = t.err) :
    watchFaulted s u n code := by
  obtain ⟨hown, hother, hfault⟩ := h
  exact ⟨fun w hs => (watch?_of_watches hw n).symm ▸ hown w hs, fun m hm => (watch?_of_watches hw m).trans (hother m hm), he ▸ hfault⟩

/-! ### Failures in Spring (R107, R119, R617) -/

/-- What the closing of a job leaves unchanged. -/
theorem jobClosed_frame (x : Stop) (s : State) : s.jobClosed x = { s with
    watches := (s.jobClosed x).watches, err := (s.jobClosed x).err, stem := (s.jobClosed x).stem, pix := (s.jobClosed x).pix,
    adc := (s.jobClosed x).adc,
    tide := { s.tide with pixEn := (s.jobClosed x).tide.pixEn, vpixReady := (s.jobClosed x).tide.vpixReady } } := by
  unfold State.jobClosed
  rw [dropInputs_frame]
  rfl

/-- A cut of the Spring faults the watch of its job and leaves Spring. -/
theorem cutSpring_faults (h : s.inSpringJob w j) (hc : s.tide.coreEn = true) (hb : s.tokensOk) (code : Nat) :
    let t := cutSpring code s
    watchFaulted s t w.entry.num code ∧ coresOff t ∧ t.tide.coreEn = false ∧ t.sys.alarm = s.sys.alarm ∧
    t.tide.collapses = s.tide.collapses ∧ t.harbour = s.harbour ∧ t.otp = s.otp := by
  obtain ⟨-, hsw, hj, hstop, hn⟩ := h
  let x : Stop := { watch := w.entry.num, code := code, tick := s.sys.tick, source := stopSource code }
  obtain ⟨u, hu, he⟩ := finishStop_eq (x := x) hn
  have hcut : cutSpring code s = leaveSpring (u.jobClosed x) := by
    have hfin : cutSpring code s = finishStop x s := by
      unfold cutSpring
      rw [hstop, hsw]
    rw [hfin, he, hj]
    exact if_pos (inSpring_of_springWatch hsw hj)
  have hframe := jobClosed_frame x u
  generalize hv : u.jobClosed x = v at hcut hframe
  have hcv : v.tide.coreEn = true := by rw [hframe, ← hc, ← hu.tide]
  have hbv : v.tokensOk := fun c => by
    have : v.core c = u.core c := by rw [hframe]; fin_cases c <;> rfl
    rw [this, hu.core]
    exact hb c
  have hl := springLeft_leaveSpring hcv hbv
  dsimp only
  rw [hcut]
  refine ⟨watchFaulted_of_same ?_ hl.watches hl.err, hl.off, hl.coreEn, hl.alarm.trans ?_, hl.collapses.trans ?_, hl.harbour.trans ?_,
    hl.otp.trans ?_⟩
  · rw [← hv]
    exact watchFaulted_jobClosed hu
  · rw [hframe, ← hu.sys]
  · rw [hframe, ← hu.tide]
  · rw [hframe, ← hu.harbour]
  · rw [hframe, ← hu.otp]

theorem alarm_raiseAlarm (b : Nat) (hb : b < 11) (s : State) : (raiseAlarm b s).sys.alarm.getLsbD b = true := by
  rw [raiseAlarm, raiseAlarmAt_eq]
  interval_cases b <;> simp

theorem core_raiseAlarm (b : Nat) (s : State) (c : Fin 4) : (raiseAlarm b s).core c = s.core c := by
  fin_cases c <;> simp [raiseAlarm, State.core]

theorem exec_vcoreFail (h : s.inSpringJob w j) (hc : s.tide.coreEn = true) (hb : s.tokensOk) :
    ∃ t, exec .vcoreFail s = .next t ∧ watchFaulted s t w.entry.num 0x27 ∧ coresOff t ∧ t.tide.coreEn = false ∧
      t.sys.alarm.getLsbD 4 = true ∧ t.harbour = s.harbour ∧ t.otp = s.otp := by
  let v := raiseAlarm 4 s
  obtain ⟨hf, ho, he, ha, -, hh, hp⟩ := cutSpring_faults (s := v) (w := w) (j := j)
    (inSpringJob_of_same h (watches_raiseAlarmAt _ _ _) (sys_inReset_raiseAlarmAt _ _ _) (stopping_raiseAlarmAt _ _ _))
    (by rw [← hc]; exact congrArg Tide.coreEn (tide_raiseAlarmAt _ _ _)) (fun c => by rw [core_raiseAlarm]; exact hb c) 0x27
  have hw : v.watches = s.watches := watches_raiseAlarmAt _ _ _
  refine ⟨cutSpring 0x27 v, (next_inService h.1 _).trans (congrArg _ (if_pos hc)), ?_, ho, he, ?_, hh.trans (harbour_raiseAlarmAt _ _ _),
    hp.trans (otp_raiseAlarmAt _ _ _)⟩
  · simpa [watchFaulted, watch?_of_watches hw] using hf
  · rw [ha]
    exact alarm_raiseAlarm 4 (by decide) s

theorem exec_reservoirCollapse (h : s.inSpringJob w j) (hc : s.tide.coreEn = true) (hb : s.tokensOk) :
    ∃ t, exec .reservoirCollapse s = .next t ∧ watchFaulted s t w.entry.num 0x28 ∧ coresOff t ∧ t.tide.coreEn = false ∧
      t.sys.alarm.getLsbD 5 = true ∧ t.tide.collapses = min 0xFFFF (s.tide.collapses + 1) ∧ t.harbour = s.harbour ∧ t.otp = s.otp := by
  let y : State := { s with tide := { s.tide with collapses := satAdd s.tide.collapses 1 0xFFFF, capClean := false } }
  let v := raiseAlarm 5 y
  have htide : v.tide = y.tide := tide_raiseAlarmAt _ _ _
  obtain ⟨hf, ho, he, ha, hcol, hh, hp⟩ := cutSpring_faults (s := v) (w := w) (j := j)
    (inSpringJob_of_same h (watches_raiseAlarmAt _ _ y) (sys_inReset_raiseAlarmAt _ _ y) (stopping_raiseAlarmAt _ _ y))
    (by rw [htide]; exact hc) (fun c => by rw [core_raiseAlarm]; exact hb c) 0x28
  have hw : v.watches = s.watches := watches_raiseAlarmAt _ _ y
  refine ⟨cutSpring 0x28 v, (next_inService h.1 _).trans (congrArg _ (if_pos hc)), ?_, ho, he, ?_, hcol.trans ?_,
    hh.trans (harbour_raiseAlarmAt _ _ y), hp.trans (otp_raiseAlarmAt _ _ y)⟩
  · simpa [watchFaulted, watch?_of_watches hw] using hf
  · rw [ha]
    exact alarm_raiseAlarm 5 (by decide) y
  · rw [htide]
    rfl

end

end Sys2Proof.Machine
end

