-- ==== Sys2Proof/Proofs/SpringMeter.lean ====
section
/-! PROOF. Proofs/SpringMeter.lean: the meter of a Spring and the reservoir guard (R109, R110, R112, R113). -/
namespace Sys2Proof.Machine
open Sys2Proof

section
variable {s t u : State} {w : Watch} {j : Job} {n : Nat}

/-! ### The table after a change of the job in Spring -/

/-- The watch has a job in Spring. -/
def Watch.inSpring (w : Watch) : Bool := w.job.any Job.inSpring

theorem springWatch_eq (s : State) : s.springWatch = s.watches.find? Watch.inSpring := by
  unfold State.springWatch
  refine congrArg (fun p => s.watches.find? p) (funext fun w => ?_)
  unfold Watch.inSpring
  cases w.job <;> rfl

theorem springWatch_modJob (h : s.springWatch = some w) {f : Job → Job}
    (hf : ∀ j, (f j).inSpring = j.inSpring := by exact fun _ => rfl) : (s.modJob w.entry.num f).springWatch = some { w with job := w.job.map f } := by
  rw [springWatch_eq] at h ⊢
  rw [State.modJob, watches_modWatch, List.find?_map]
  have hp : (Watch.inSpring ∘ fun x : Watch => if x.entry.num = w.entry.num then { x with job := x.job.map f } else x) =
      Watch.inSpring := by
    funext x
    have hjob : (x.job.map f).any Job.inSpring = x.job.any Job.inSpring := by
      rw [Option.any_map]
      exact congrArg (fun p => x.job.any p) (funext hf)
    by_cases hx : x.entry.num = w.entry.num <;> simp [Watch.inSpring, hx, hjob]
  rw [hp, h]
  simp

/-! ### Metering (R109, R110) -/

theorem energyOf_of_strand (h : t.strand = s.strand) (k step : Nat) : t.energyOf k step = s.energyOf k step := by
  unfold State.energyOf State.calFlag State.cal
  rw [h]

theorem foldl_add_eq_sum {α : Type} (g : α → Nat) (l : List α) : l.foldl (fun a c => a + g c) 0 = (l.map g).sum := by
  rw [List.sum_eq_foldl, List.foldl_map]

theorem coreFj_eq (s : State) (m : Meter) :
    s.coreFj m = (m.counts.zipIdx.map (fun x => x.1 * s.energyOf x.2 s.tide.stepAdmitted)).sum := by
  simp [Meter.counts, State.coreFj, Nat.add_assoc]

theorem springFj_eq (s : State) (w : Watch) (j : Job) :
    s.springFj w j = s.countedFj s w + j.leakUs * s.energyOf 8 s.tide.stepAdmitted := by
  rw [State.springFj, State.countedFj, foldl_add_eq_sum]
  simp only [coreFj_eq]

/-- The job with the products of its Spring brought up to f (R110). -/
def Job.charged (f : Nat) (j : Job) : Job := { j with grantFj := f, totalFj := j.totalFj + (f - j.grantFj) }

/-- The state with the meter of watch w's job at f fJ, which are uj µJ (R110). -/
def State.metered (s : State) (w : Watch) (f uj : Nat) : State :=
  { s.modJob w.entry.num (Job.charged f) with tide := { s.tide with meterUj := uj } }

theorem settleMeter_eq (hw : s.springWatch = some w) (hj : w.job = some j) :
    settleMeter s = s.metered w (s.springFj w j) (s.toUj (s.springFj w j)) := by
  unfold settleMeter
  rw [hw]
  dsimp only
  rw [hj]
  rfl

/-- The job with microseconds of VCORE on added (R109). -/
def Job.leaked (us : Nat) (j : Job) : Job := { j with leakUs := j.leakUs + us }

/-- The state with the cycles and the microseconds of an interval added (R109). -/
def State.clocked (n us : Nat) (cyc : List Nat) (s : State) : State :=
  (((((s.modCore 0 (addCycles (cyc.getD 0 0))).modCore 1 (addCycles (cyc.getD 1 0))).modCore 2 (addCycles (cyc.getD 2 0))).modCore 3
    (addCycles (cyc.getD 3 0))).modJob n (Job.leaked us))

theorem modCore_zero (s : State) (f : Core → Core) : s.modCore 0 f = { s with core0 := f s.core0 } := rfl
theorem modCore_one (s : State) (f : Core → Core) : s.modCore 1 f = { s with core1 := f s.core1 } := rfl
theorem modCore_two (s : State) (f : Core → Core) : s.modCore 2 f = { s with core2 := f s.core2 } := rfl
theorem modCore_three (s : State) (f : Core → Core) : s.modCore 3 f = { s with core3 := f s.core3 } := rfl

theorem clocked_frame (n us : Nat) (cyc : List Nat) (s : State) : s.clocked n us cyc = { s with
    core0 := addCycles (cyc.getD 0 0) s.core0, core1 := addCycles (cyc.getD 1 0) s.core1, core2 := addCycles (cyc.getD 2 0) s.core2,
    core3 := addCycles (cyc.getD 3 0) s.core3, watches := (s.modJob n (Job.leaked us)).watches } := by
  rw [State.clocked, modCore_zero, modCore_one, modCore_two, modCore_three]
  rfl

theorem core_clocked (n us : Nat) (cyc : List Nat) (s : State) (c : Fin 4) :
    (s.clocked n us cyc).core c = addCycles (cyc.getD c.val 0) (s.core c) := by
  rw [clocked_frame]
  fin_cases c <;> rfl

theorem addCycles_eq (k : Nat) (x : Core) : addCycles k x = { x with meter := if x.run = .off then x.meter
    else { x.meter with cyc := x.meter.cyc + k } } := by
  unfold addCycles
  split <;> rfl

theorem startCheckpoint_eq (hw : s.watch? n = some w) : startCheckpoint n s = s.modJob n (fun j => if j.ckpt.isSome then j else
    { j with ckpt := some (w.coreList.foldl (fun m c => max m (s.core c).point) 0 + 1), ckptStart := j.grantFj }) := by
  unfold startCheckpoint
  rw [hw]

/-- METER_CHARGE of a job without a checkpoint in progress: all but the table is settled by the meter. -/
theorem meterCharge_frame (h : s.inSpringJob w j) (hp : s.tide.power = .spring) (hck : j.ckpt = none) {b : PowerBlock}
    (hb : s.tide.block = some b) (us c0 c1 c2 c3 : Nat) :
    meterCharge us c0 c1 c2 c3 s = { s.clocked w.entry.num us [c0, c1, c2, c3] with
      watches := (meterCharge us c0 c1 c2 c3 s).watches,
      tide := { s.tide with meterUj := s.toUj ((s.clocked w.entry.num us [c0, c1, c2, c3]).springFj w (j.leaked us)) } } := by
  obtain ⟨-, hsw, hj, hstop, hn⟩ := h
  let w1 : Watch := { w with job := some (j.leaked us) }
  generalize hv : s.clocked w.entry.num us [c0, c1, c2, c3] = v
  have hvw : v.watches = (s.modJob w.entry.num (Job.leaked us)).watches := by rw [← hv, clocked_frame]
  have hvsw : v.springWatch = some w1 := by
    rw [springWatch_of_watches hvw, springWatch_modJob hsw, hj]
    rfl
  have hvn : v.watch? w.entry.num = some w1 := by
    rw [watch?_of_watches hvw, State.modJob, watch?_modWatch_same hn, hj]
    rfl
  have hset := settleMeter_eq (s := v) (w := w1) (j := j.leaked us) hvsw rfl
  generalize hf : v.springFj w1 (j.leaked us) = f at hset
  have htide : v.tide = s.tide := by rw [← hv, clocked_frame]
  have huj : v.toUj f = s.toUj f := by rw [State.toUj, State.toUj, State.buckEff, State.buckEff, htide]
  have hsn : (settleMeter v).watch? w.entry.num = some { w1 with job := some ((j.leaked us).charged f) } := by
    rw [hset]
    exact watch?_modWatch_same (s := v) hvn
  have hstop2 : (settleMeter v).stopping = none := by rw [hset, ← hv, clocked_frame]; exact hstop
  have hblock2 : (settleMeter v).tide.block = some b := by rw [hset]; exact (congrArg Tide.block htide).trans hb
  have hmeter : meterCharge us c0 c1 c2 c3 s =
      if (settleMeter v).hasMetered ((j.leaked us).charged f).allowance f then
        startCheckpoint w.entry.num (settleMeter v) else settleMeter v := by
    unfold meterCharge
    rw [hsw]
    dsimp only
    rw [if_pos hp]
    have hclock : settleMeter (((((s.modCore 0 (addCycles c0)).modCore 1 (addCycles c1)).modCore 2 (addCycles c2)).modCore 3
        (addCycles c3)).modJob w.entry.num (fun j => { j with leakUs := j.leakUs + us })) = settleMeter v := by rw [← hv]; rfl
    rw [hclock, hsn, hblock2, hstop2]
    dsimp only [Option.bind_some, Option.isSome_none]
    rw [if_neg Bool.false_ne_true]
    have : ((j.leaked us).charged f).ckpt = none := hck
    rw [this]
    rfl
  have hframe : OnlyWatches (settleMeter v) (meterCharge us c0 c1 c2 c3 s) := by
    rw [hmeter]
    split
    · rw [startCheckpoint_eq hsn]
      exact onlyWatches_modWatch _ _ _
    · exact onlyWatches_refl _
  have hfw : v.springFj w (j.leaked us) = f := hf
  rw [hframe, hfw, ← huj, hset, State.metered, htide]
  rfl

theorem exec_meterCharge (h : s.inSpringJob w j) (hp : s.tide.power = .spring) (hck : j.ckpt = none) (b : PowerBlock)
    (us c0 c1 c2 c3 : Nat) (hb : s.tide.block = some b) :
    ∃ t, exec (.meterCharge us c0 c1 c2 c3) s = .next t ∧
      t.tide.meterUj = (rhe (((s.countedFj t w + (j.leakUs + us) * s.energyOf 8 s.tide.stepAdmitted) * 256 : Nat) : Int)
        (b.buckEffQ8 * 10 ^ 9)).toNat ∧
      t.tide = { s.tide with meterUj := t.tide.meterUj } ∧ t.harbour = s.harbour ∧ t.host = s.host ∧
      ∀ c, t.core c = { s.core c with meter := if (s.core c).run = .off then (s.core c).meter
        else { (s.core c).meter with cyc := (s.core c).meter.cyc + [c0, c1, c2, c3].getD c.val 0 } } := by
  have hframe := meterCharge_frame h hp hck hb us c0 c1 c2 c3
  generalize hv : s.clocked w.entry.num us [c0, c1, c2, c3] = v at hframe
  have hcore : ∀ c, (meterCharge us c0 c1 c2 c3 s).core c = v.core c := fun c => by
    rw [hframe]
    fin_cases c <;> rfl
  have hcount : v.countedFj v w = s.countedFj (meterCharge us c0 c1 c2 c3 s) w := by
    unfold State.countedFj
    simp only [hcore, show v.tide = s.tide by rw [← hv, clocked_frame],
      energyOf_of_strand (show v.strand = s.strand by rw [← hv, clocked_frame])]
  have hfj : v.springFj w (j.leaked us) =
      s.countedFj (meterCharge us c0 c1 c2 c3 s) w + (j.leakUs + us) * s.energyOf 8 s.tide.stepAdmitted := by
    rw [springFj_eq, hcount, energyOf_of_strand (show v.strand = s.strand by rw [← hv, clocked_frame]),
      show v.tide = s.tide by rw [← hv, clocked_frame]]
    rfl
  have htide : (meterCharge us c0 c1 c2 c3 s).tide = { s.tide with meterUj := s.toUj (v.springFj w (j.leaked us)) } := by rw [hframe]
  have heff : s.buckEff = b.buckEffQ8 := by rw [State.buckEff, hb]
  refine ⟨_, next_inService h.1 _, ?_, ?_, ?_, ?_, fun c => ?_⟩
  · rw [htide, hfj, ← heff]
    rfl
  · rw [htide]
  · rw [hframe, ← hv, clocked_frame]
  · rw [hframe, ← hv, clocked_frame]
  · rw [hcore, ← hv, core_clocked, addCycles_eq]

/-- RESERVOIR_GUARD_TRIP (R112, R113). -/
theorem exec_guardTrip (h : s.inSpringJob w j) (hp : s.tide.power = .spring) (hck : j.ckpt = none) :
    ∃ t, exec .reservoirGuardTrip s = .next t ∧ t = { s with watches := t.watches } ∧
      onlyWatch s t w.entry.num (fun w => { w with job := some { j with
        ckpt := some (w.coreList.foldl (fun m c => max m (s.core c).point) 0 + 1), ckptStart := j.grantFj } }) := by
  obtain ⟨hlive, hsw, hj, hstop, hn⟩ := h
  have htrip : guardTrip s = startCheckpoint w.entry.num s := by
    unfold guardTrip
    rw [hsw]
    simp [hp, hstop]
  rw [startCheckpoint_eq hn] at htrip
  refine ⟨_, next_inService hlive _, ?_, ?_⟩
  · rw [htrip]
    rfl
  · rw [htrip]
    refine onlyWatch_of_ne hn ?_ fun m hm => watch?_modWatch_ne hm
    rw [State.modJob, watch?_modWatch_same hn, hj]
    simp [hck]

end

end Sys2Proof.Machine
end

