-- ==== Sys2Proof/Proofs/SpringCheckpoints.lean ====
section
/-! PROOF. Proofs/SpringCheckpoints.lean: a job that has overspent and a completed checkpoint (R54, R113, R116, R621). -/
namespace Sys2Proof.Machine
open Sys2Proof

section
variable {s t u : State} {w : Watch} {j : Job} {n k : Nat}

/-! ### A job that has overspent (R621) -/

/-- A stop that some core of the job takes waits for its drain (R617). -/
theorem stopping_stopJob {x : Stop} (hw : s.watch? x.watch = some w) (hj : w.job = some j) (hin : j.inSpring = true)
    (hstop : s.stopping = none) (hc : ∃ c ∈ w.coreList, (s.core c).run ≠ .off) : (stopJob x s).stopping = some x := by
  have hne : (!(w.coreList.filter (fun c => (s.core c).run ≠ .off)).isEmpty) = true := by
    obtain ⟨c, hm, hr⟩ := hc
    rw [Bool.not_eq_true', List.isEmpty_eq_false_iff]
    exact List.ne_nil_of_mem (List.mem_filter.mpr ⟨hm, decide_eq_true hr⟩)
  unfold stopJob
  rw [hw]
  dsimp only
  rw [hj]
  dsimp only
  rw [hin, hne, hstop]
  rfl

theorem ite_getD_some (o : Bool) (a b : State) : (if (some o).getD false then a else b) = if o then a else b := rfl

/-- CHECKPOINT_COMPLETE where every core is at rest and one has stopped: the book of the allowance decides. -/
theorem checkpointComplete_eq (h : s.inSpringJob w j) (hp : s.tide.power = .spring) (hk : j.ckpt = some k) (hd : s.drained w = true)
    (ha : w.coreList.any (fun c => decide ((s.core c).run = .stopped)) = true) : checkpointComplete s =
    if s.overspent w j (j.ckpts + 1) then watchFatal w.entry.num 0x2A 0 none s else checkpointDone w k s := by
  obtain ⟨-, hsw, hj, hstop, -⟩ := h
  unfold checkpointComplete
  rw [hsw]
  simp only [hj, Option.bind_some, hk, Option.map_some]
  rw [ite_getD_some]
  simp only [hp, hstop, hd, ha, decide_true, Option.isNone_none, Bool.and_self, if_true]

theorem exec_checkpoint_overspent (h : s.inSpringJob w j) (hp : s.tide.power = .spring) (hk : j.ckpt = some k)
    (hd : s.drained w = true) (ha : w.coreList.any (fun c => decide ((s.core c).run = .stopped)) = true)
    (ho : s.overspent w j (j.ckpts + 1) = true) :
    ∃ t, exec .checkpointComplete s = .next t ∧ (t.stopping.map (fun x => (x.watch, x.code))) = some (w.entry.num, 0x2A) := by
  refine ⟨_, next_inService h.1 _, ?_⟩
  rw [checkpointComplete_eq h hp hk hd ha, if_pos ho]
  obtain ⟨-, hsw, hj, hstop, hn⟩ := h
  obtain ⟨c, hc, hr⟩ := List.any_eq_true.mp ha
  have hrun : (s.core c).run ≠ .off := by
    rw [of_decide_eq_true hr]
    decide
  rw [watchFatal, watchFatalAt, stopping_stopJob hn hj (inSpring_of_springWatch hsw hj) hstop ⟨c, hc, hrun⟩]
  rfl

/-! ### A completed checkpoint (R54, R113, R116) -/

/-- t is s after writes of the Harbour. -/
def Wrote (s t : State) : Prop :=
  t = { s with harbour := t.harbour, tide := { s.tide with banksOn := t.tide.banksOn }, free := t.free }

theorem Wrote.trans (h : Wrote s t) (h' : Wrote t u) : Wrote s u := by
  rw [Wrote] at h h' ⊢
  rw [h', h]

theorem wrote_putHbrWhole (s : State) (a : Nat) (bs : List Byte) : Wrote s (s.putHbrWhole a bs) := rfl

theorem wrote_free (s : State) (k : Nat) : Wrote s { s with free := k } := rfl

theorem wrote_foldl {α : Type} {g : State → α → State} (hg : ∀ s a, Wrote s (g s a)) (l : List α) (s : State) : Wrote s (l.foldl g s) := by
  induction l generalizing s with
  | nil => exact rfl
  | cons a l ih => exact (hg s a).trans (ih _)

theorem wrote_writeFrames (w : Watch) (k : Nat) (s : State) : Wrote s (writeFrames w k s) :=
  ((wrote_foldl (fun _ _ => wrote_putHbrWhole ..) coreIds s).trans (wrote_free _ _)).trans (wrote_putHbrWhole ..)

/-- The watch of a completed checkpoint (R42, R54). -/
def Watch.checkpointed (w : Watch) : Watch := { w with state := .checkpointed, checkpoints := satAdd w.checkpoints 1 0xFFFFFFFF }

/-- The job of a completed checkpoint, with what its cores leave to it (R113, R116, R389, R511, R575). -/
def Job.framed (s : State) (w : Watch) (k : Nat) (cores : List Core) (j : Job) : Job :=
  { j with allowance := (nextGrant s w j).1, grants := (nextGrant s w j).2, ckpt := none, frames := some k, inSpring := false,
           requested := true, waitTicks := 0, ckpts := j.ckpts + 1, totals := cores.foldl addTotals j.totals,
           cwSets := cores.map (fun c => (c.written, c.tainted)), loadRuns := cores.map (fun c => c.loadLog.map (fun l => l.rest)) }

theorem checkpointDone_eq (w : Watch) (k : Nat) (s : State) : checkpointDone w k s =
    leaveSpring (((writeFrames w k (settleMeter s)).modJob w.entry.num
      (Job.framed (writeFrames w k (settleMeter s)) w k (w.coreList.map (settleMeter s).core))).modWatch w.entry.num
        Watch.checkpointed) := rfl

/-- The fall of CORE_EN after the writes of a checkpoint: y is the state with the meter settled and the frames written. -/
theorem leaveSpring_checkpointed {y : State} {f uj : Nat} (hy : Wrote (s.metered w f uj) y) (hj : w.job = some j)
    (hn : s.watch? w.entry.num = some w) (hc : s.tide.coreEn = true) (hb : s.tokensOk) (g : Job → Job) :
    let t := leaveSpring ((y.modJob w.entry.num g).modWatch w.entry.num Watch.checkpointed)
    t.tide.coreEn = false ∧ t.tide.power = .slack ∧ coresOff t ∧
    t.watch? w.entry.num = some (Watch.checkpointed { w with job := some (g (j.charged f)) }) ∧
    (∀ m, m ≠ w.entry.num → t.watch? m = s.watch? m) ∧ t.strand = s.strand ∧ t.otp = s.otp ∧ t.host = s.host := by
  intro t
  rw [Wrote] at hy
  have hyn : y.watch? w.entry.num = some { w with job := some (j.charged f) } := by
    rw [hy]
    exact (watch?_modWatch_same hn).trans (by rw [hj]; rfl)
  have hcv : ((y.modJob w.entry.num g).modWatch w.entry.num Watch.checkpointed).tide.coreEn = true := by
    rw [hy]
    exact hc
  have hbv : ((y.modJob w.entry.num g).modWatch w.entry.num Watch.checkpointed).tokensOk := fun c => by
    have : y.core c = s.core c := by
      rw [hy]
      fin_cases c <;> rfl
    rw [core_modWatch, core_modJob, this]
    exact hb c
  have hl := springLeft_leaveSpring hcv hbv
  refine ⟨hl.coreEn, hl.power, hl.off, (watch?_of_watches hl.watches _).trans (watch?_modWatch_same (watch?_modWatch_same hyn)),
    fun m hm => ?_, hl.strand.trans ?_, hl.otp.trans ?_, hl.host.trans ?_⟩
  · rw [watch?_of_watches hl.watches, watch?_modWatch_ne hm, State.modJob, watch?_modWatch_ne hm, hy]
    exact watch?_modWatch_ne hm
  · rw [hy]
    rfl
  · rw [hy]
    rfl
  · rw [hy]
    rfl

theorem exec_checkpointComplete (h : s.inSpringJob w j) (hc : s.tide.coreEn = true) (hb : s.tokensOk) (hp : s.tide.power = .spring)
    (hk : j.ckpt = some k) (hd : s.drained w = true) (ha : w.coreList.any (fun c => decide ((s.core c).run = .stopped)) = true)
    (ho : s.overspent w j (j.ckpts + 1) = false) :
    ∃ t, exec .checkpointComplete s = .next t ∧ t.tide.coreEn = false ∧ t.tide.power = .slack ∧ coresOff t ∧
      (∃ w' j', t.watch? w.entry.num = some w' ∧ w'.state = .checkpointed ∧ w'.job = some j' ∧ j'.frames = some k ∧
        j'.requested = true ∧ j'.inSpring = false ∧ j'.ckpt = none ∧ j'.ckpts = j.ckpts + 1) ∧
      (∀ m, m ≠ w.entry.num → t.watch? m = s.watch? m) ∧ t.strand = s.strand ∧ t.otp = s.otp ∧ t.host = s.host := by
  have hdone := checkpointComplete_eq h hp hk hd ha
  rw [if_neg (by rw [ho]; exact Bool.false_ne_true), checkpointDone_eq] at hdone
  obtain ⟨hlive, hsw, hj, -, hn⟩ := h
  have hy := wrote_writeFrames w k (settleMeter s)
  rw [settleMeter_eq hsw hj] at hy hdone
  obtain ⟨hen, hpow, hoff, hw, hm, hst, hot, hho⟩ := leaveSpring_checkpointed hy hj hn hc hb
    (Job.framed (writeFrames w k (s.metered w (s.springFj w j) (s.toUj (s.springFj w j)))) w k
      (w.coreList.map (s.metered w (s.springFj w j) (s.toUj (s.springFj w j))).core))
  exact ⟨_, (next_inService hlive _).trans (congrArg _ hdone), hen, hpow, hoff, ⟨_, _, hw, rfl, rfl, rfl, rfl, rfl, rfl, rfl⟩, hm, hst,
    hot, hho⟩

end

end Sys2Proof.Machine
end

