-- ==== Sys2Proof/Proofs/SpringEnds.lean ====
section
/-! PROOF. Proofs/SpringEnds.lean: the end of a job whose cores have halted (R54, R88, R372, R651). -/
namespace Sys2Proof.Machine
open Sys2Proof

section
variable {s t u : State} {w : Watch} {j : Job} {n k : Nat}

/-! ### The end of a job that causes nothing further (R54, R651) -/

/-- t is s after tests of alarm lines (R665). -/
def Lined (s t : State) : Prop := t = { s with gpio := t.gpio, fresh := t.fresh }

theorem lined_alarmLine (n : Nat) (fired : List (Nat × Nat)) (i : Nat) (s : State) : Lined s (alarmLine n fired i s) := by
  unfold alarmLine
  dsimp only
  split
  · split
    · exact rfl
    · split <;> exact rfl
  · exact rfl

theorem lined_alarmLines (n : Nat) (fired : List (Nat × Nat)) (l : List Nat) (s : State) :
    Lined s (l.foldl (fun s i => alarmLine n fired i s) s) := by
  induction l generalizing s with
  | nil => exact rfl
  | cons i l ih =>
    have h := ih (alarmLine n fired i s)
    have h' := lined_alarmLine n fired i s
    rw [Lined] at h h' ⊢
    rw [List.foldl_cons, h, h']

/-- Reports leave the entries of the table. -/
theorem Reports.entries (h : Reports n s u) (hok : u.tableOk) {x : Watch} (hx : x ∈ u.watches) : ∃ y ∈ s.watches, y.entry = x.entry := by
  have hu := watch?_of_mem hok hx
  by_cases hn : x.entry.num = n
  · obtain ⟨a, b, ho⟩ := h.own
    rw [← hn, hu] at ho
    cases hs : s.watch? x.entry.num with
    | none => rw [hs] at ho; cases ho
    | some y =>
      rw [hs] at ho
      cases ho
      exact ⟨y, mem_of_watch? hs, rfl⟩
  · rw [h.others _ hn] at hu
    exact ⟨x, mem_of_watch? hu, rfl⟩

theorem entry_of_mem_modWatch {f : Watch → Watch} {x : Watch} (hx : x ∈ (s.modWatch n f).watches)
    (hf : ∀ w, (f w).entry = w.entry := by exact fun _ => rfl) : ∃ y ∈ s.watches, y.entry = x.entry := by
  rw [watches_modWatch] at hx
  obtain ⟨y, hy, rfl⟩ := List.mem_map.mp hx
  refine ⟨y, hy, ?_⟩
  split
  · exact (hf y).symm
  · rfl

/-- The watch of a job that has ended (R54). -/
def Watch.ended (w : Watch) : Watch := { w with state := .done, job := none }

theorem selfLabel_of_no_adapt (h : w.flag 6 = false) (s : State) : selfLabel w s = s := by
  have hb : s.adaptBlock? w = none := by
    unfold State.adaptBlock?
    rw [h]
    rfl
  unfold selfLabel
  rw [hb]

theorem sendMessages_of_nil (h : s.cw.cfg.messages = []) (n : Nat) : sendMessages n s = s := by
  unfold sendMessages
  rw [h]
  cases s.cw.chip <;> rfl

theorem fireChains_of_none (h : ∀ x ∈ s.watches, x.entry.trigKind ≠ 4) (n : Nat) (fired : List (Nat × Nat)) :
    fireChains n fired s = s := by
  have hnil : s.watches.filter (chainMatches n fired) = [] := by
    rw [List.filter_eq_nil_iff]
    intro x hx
    simp [chainMatches, h x hx]
  unfold fireChains
  rw [hnil]
  rfl

/-- What its end causes, of a job of watch n: neither label nor message nor chain. -/
structure EndsAlone (s : State) (n : Nat) (w : Watch) : Prop where
  adapt : w.flag 6 = false
  messages : s.cw.cfg.messages = []
  chains : ∀ x ∈ s.watches, x.entry.trigKind ≠ 4
  berths : w.entry.inputKind = 1 → s.berthsBalance = true

theorem watch_jobDraft (w : Watch) (type : Nat) (more : Bool) (p q : List Byte) :
    (jobDraft w type more p q).watch = some w.entry.num := by
  unfold jobDraft
  split <;> rfl

theorem endJob_ended (hw : s.watch? n = some w) (hj : w.job = some j) (hd : j.disarm = false) (hok : s.tableOk) (h : EndsAlone s n w) :
    ∃ u, Reports n s u ∧ Lined (u.modWatch n Watch.ended) (endJob n s) := by
  obtain ⟨h6, hm, hk, hb⟩ := h
  have hnum : (s.jobEvent w 3).watch = some n := by
    rw [← num_of_watch? hw]
    exact watch_jobDraft w 6 false _ _
  obtain ⟨u, hu, huok, hend⟩ : ∃ u, Reports n s u ∧ u.tableOk ∧ endJob n s =
      fireChains n j.fired (sendMessages n (selfLabel w ((List.range 8).foldl (fun s i => alarmLine n j.fired i s)
        (u.modWatch n Watch.ended)))) := by
    have hbal : ¬(decide (w.entry.inputKind = 1) && !s.berthsBalance) = true := by
      by_cases hi : w.entry.inputKind = 1
      · simp [hb hi]
      · simp [hi]
    by_cases hr : (w.entry.recordKinds.getLsbD 4 || (j.fired.isEmpty && !w.vib)) = true
    · refine ⟨release (s.jobEvent w 3) s, reports_release hnum s, tableOk_release hok, ?_⟩
      unfold endJob
      rw [hw]
      dsimp only
      rw [hj]
      dsimp only
      rw [if_neg hbal, if_pos hr, hd]
      rfl
    · refine ⟨s, Reports.refl n s, hok, ?_⟩
      unfold endJob
      rw [hw]
      dsimp only
      rw [hj]
      dsimp only
      rw [if_neg hbal, if_neg hr, hd]
      rfl
  refine ⟨u, hu, ?_⟩
  have hl := lined_alarmLines n j.fired (List.range 8) (u.modWatch n Watch.ended)
  generalize (List.range 8).foldl (fun s i => alarmLine n j.fired i s) (u.modWatch n Watch.ended) = v at hend hl
  have hvm : v.cw.cfg.messages = [] := by
    rw [hl, ← hm, hu.frame]
    rfl
  have hvk : ∀ x ∈ v.watches, x.entry.trigKind ≠ 4 := by
    rw [hl]
    intro x hx
    obtain ⟨y, hy, he⟩ := entry_of_mem_modWatch hx
    obtain ⟨z, hz, he'⟩ := hu.entries huok hy
    rw [← he, ← he']
    exact hk z hz
  rw [hend, selfLabel_of_no_adapt h6, sendMessages_of_nil hvm, fireChains_of_none hvk]
  exact hl

/-! ### COMPUTE_END (R88, R372) -/

/-- COMPUTE_END where every core has halted and the book of the allowance balances. -/
theorem computeEnd_eq (h : s.inSpringJob w j) (hp : s.tide.power = .spring) (hd : s.drained w = true)
    (ha : w.coreList.all (fun c => decide ((s.core c).run = .halted)) = true) (ho : j.ckpt = none → s.overspent w j j.ckpts = false) :
    ∃ fl, computeEnd s = endJob w.entry.num (leaveSpring ((settleMeter s).modJob w.entry.num
      (fun j => { j with flags := j.flags ||| fl, inSpring := false, ckpt := none }))) := by
  obtain ⟨-, hsw, hj, hstop, -⟩ := h
  refine ⟨w.coreList.foldl (fun (f : BitVec 4) c => f ||| ((settleMeter s).core c).regs.fl) 0, ?_⟩
  have hbook : ¬(j.ckpt.isNone && s.overspent w j j.ckpts) = true := by
    cases hk : j.ckpt with
    | none => rw [ho hk]; decide
    | some _ => exact Bool.false_ne_true
  unfold computeEnd
  rw [hsw]
  simp only [hj, Option.map_some]
  rw [ite_getD_some, if_neg hbook]
  simp only [hp, hstop, hd, ha, decide_true, Option.isNone_none, Bool.and_self, if_true]

theorem coresOff_of_core (h : coresOff s) (hc : ∀ c, t.core c = s.core c) : coresOff t := fun c => (hc c).symm ▸ h c

/-- The fall of CORE_EN before a job ends, and the end of the job. -/
theorem endJob_leaveSpring {f uj : Nat} (g : Job → Job) (hn : s.watch? w.entry.num = some w) (hj : w.job = some j)
    (hd : (g (j.charged f)).disarm = false) (hok : s.tableOk) (hc : s.tide.coreEn = true) (hb : s.tokensOk)
    (h : EndsAlone s w.entry.num w) :
    let t := endJob w.entry.num (leaveSpring ((s.metered w f uj).modJob w.entry.num g))
    ∃ w', t.tide.coreEn = false ∧ t.tide.power = .slack ∧ coresOff t ∧ t.watch? w.entry.num = some w' ∧ w'.state = .done ∧
      w'.job = none ∧ w'.entry = w.entry ∧ (∀ m, m ≠ w.entry.num → t.watch? m = s.watch? m) ∧ t.harbour = s.harbour ∧
      t.otp = s.otp := by
  have hvc : ∀ c, ((s.metered w f uj).modJob w.entry.num g).core c = s.core c := fun c => by
    rw [core_modJob]
    exact core_modJob s w.entry.num (Job.charged f) c
  have hl := springLeft_leaveSpring (s := (s.metered w f uj).modJob w.entry.num g) hc fun c => by rw [hvc]; exact hb c
  have hvn : ((s.metered w f uj).modJob w.entry.num g).watch? w.entry.num = some { w with job := some (g (j.charged f)) } := by
    have : (s.metered w f uj).watch? w.entry.num = some { w with job := some (j.charged f) } :=
      (watch?_modWatch_same hn).trans (by rw [hj]; rfl)
    exact watch?_modWatch_same this
  have hvm : ∀ m, m ≠ w.entry.num → ((s.metered w f uj).modJob w.entry.num g).watch? m = s.watch? m := fun m hm =>
    (watch?_modWatch_ne hm).trans (watch?_modWatch_ne (s := s) hm)
  have hvok : ((s.metered w f uj).modJob w.entry.num g).tableOk :=
    tableOk_modWatch (fun _ => rfl) (tableOk_modWatch (s := s) (fun _ => rfl) hok)
  generalize leaveSpring ((s.metered w f uj).modJob w.entry.num g) = x at hl
  have hxok : x.tableOk := by
    rw [State.tableOk, hl.watches]
    exact hvok
  have hends : EndsAlone x w.entry.num { w with job := some (g (j.charged f)) } := by
    obtain ⟨h6, hm, hk, hbe⟩ := h
    refine ⟨h6, ?_, fun y hy => ?_, fun hi => ?_⟩
    · rw [hl.cw]
      exact hm
    · rw [hl.watches] at hy
      obtain ⟨z, hz, he⟩ := entry_of_mem_modWatch hy
      obtain ⟨z', hz', he'⟩ := entry_of_mem_modWatch (s := s) hz
      rw [← he, ← he']
      exact hk z' hz'
    · rw [State.berthsBalance, hl.pix]
      exact hbe hi
  obtain ⟨u, hu, ht⟩ := endJob_ended ((watch?_of_watches hl.watches _).trans hvn) rfl hd hxok hends
  obtain ⟨a, b, hun⟩ := hu.own_of_some ((watch?_of_watches hl.watches _).trans hvn)
  intro t
  have htw : t.watches = (u.modWatch w.entry.num Watch.ended).watches := by
    show (endJob w.entry.num x).watches = _
    rw [ht]
  have hty : t = { u.modWatch w.entry.num Watch.ended with gpio := t.gpio, fresh := t.fresh } := ht
  have htide : t.tide = x.tide := by
    rw [hty, ← hu.tide]
    rfl
  refine ⟨_, ?_, ?_, ?_, (watch?_of_watches htw _).trans (watch?_modWatch_same hun), rfl, rfl, rfl, fun m hm => ?_, ?_, ?_⟩
  · rw [htide, hl.coreEn]
  · rw [htide, hl.power]
  · refine coresOff_of_core hl.off fun c => ?_
    rw [← hu.core, hty]
    fin_cases c <;> rfl
  · rw [watch?_of_watches htw, watch?_modWatch_ne hm, hu.others m hm, watch?_of_watches hl.watches, hvm m hm]
  · rw [hty]
    exact hu.harbour.trans hl.harbour
  · rw [hty]
    exact hu.otp.trans hl.otp

theorem exec_computeEnd (h : s.inSpringJob w j) (hc : s.tide.coreEn = true) (hp : s.tide.power = .spring) (hok : s.tableOk)
    (hb : s.tokensOk) (hd : s.drained w = true) (ha : w.coreList.all (fun c => decide ((s.core c).run = .halted)) = true)
    (hdis : j.disarm = false) (ho : j.ckpt = none → s.overspent w j j.ckpts = false) (hends : EndsAlone s w.entry.num w) :
    ∃ t w', exec .computeEnd s = .next t ∧ t.tide.coreEn = false ∧ t.tide.power = .slack ∧ coresOff t ∧
      t.watch? w.entry.num = some w' ∧ w'.state = .done ∧ w'.job = none ∧ w'.entry = w.entry ∧
      (∀ m, m ≠ w.entry.num → t.watch? m = s.watch? m) ∧ t.harbour = s.harbour ∧ t.otp = s.otp := by
  obtain ⟨fl, hend⟩ := computeEnd_eq h hp hd ha ho
  obtain ⟨hlive, hsw, hj, -, hn⟩ := h
  rw [settleMeter_eq hsw hj] at hend
  obtain ⟨w', hw'⟩ := endJob_leaveSpring (f := s.springFj w j) (uj := s.toUj (s.springFj w j))
    (fun j => { j with flags := j.flags ||| fl, inSpring := false, ckpt := none }) hn hj hdis hok hc hb hends
  exact ⟨_, w', (next_inService hlive _).trans (congrArg _ hend), hw'⟩

end

end Sys2Proof.Machine
end

