-- ==== Sys2Proof/Proofs/CoreStarts.lean ====
section
/-! PROOF. Proofs/CoreStarts.lean: what starts on one core: loads, fresh cores and cores from their frames (R359, R364, R390). -/
namespace Sys2Proof.Machine
open Sys2Proof

section
variable {s t u : State} {w : Watch} {j : Job} {n k : Nat} {c d : Fin 4}

/-! ### Changes of one core -/

/-- t is s with other cores and more banks powered. -/
def OnlyCores (s t : State) : Prop :=
  t = { s with core0 := t.core0, core1 := t.core1, core2 := t.core2, core3 := t.core3,
               tide := { s.tide with banksOn := t.tide.banksOn } }

theorem onlyCores_refl (s : State) : OnlyCores s s := rfl

theorem OnlyCores.trans (h : OnlyCores s t) (h' : OnlyCores t u) : OnlyCores s u := by
  rw [OnlyCores] at h h' ⊢
  rw [h', h]

theorem OnlyCores.harbour (h : OnlyCores s t) : t.harbour = s.harbour := by rw [h]

/-- From s to t at most core c and the powered banks change. -/
structure OnCore (c : Fin 4) (s t : State) : Prop where
  only : OnlyCores s t
  others : ∀ d, d ≠ c → t.core d = s.core d

theorem OnCore.trans (h : OnCore c s t) (h' : OnCore c t u) : OnCore c s u :=
  ⟨h.only.trans h'.only, fun d hd => (h'.others d hd).trans (h.others d hd)⟩

theorem core_power (s : State) (a n : Nat) (c : Fin 4) : (s.power a n).core c = s.core c := by fin_cases c <;> rfl

theorem onCore_power (c : Fin 4) (s : State) (a n : Nat) : OnCore c s (s.power a n) := ⟨rfl, fun d _ => core_power s a n d⟩

theorem onCore_modCore (c : Fin 4) (s : State) (f : Core → Core) : OnCore c s (s.modCore c f) :=
  ⟨by fin_cases c <;> rfl, fun _ hd => core_setCore_ne s hd _⟩

theorem core_modCore_same (s : State) (c : Fin 4) (f : Core → Core) : (s.modCore c f).core c = f (s.core c) := core_setCore s c _

/-- Steps that each change one core of their own: they change no core of another key, and a core of a key what its one step makes
of it. -/
theorem foldl_onCore {α : Type} {key : α → Fin 4} {g : State → α → State}
    (hg : ∀ s a, s.harbour.upset = [] → OnCore (key a) s (g s a)) (l : List α) (hs : s.harbour.upset = []) :
    OnlyCores s (l.foldl g s) ∧ (∀ d, d ∉ l.map key → (l.foldl g s).core d = s.core d) ∧
    ((l.map key).Nodup → ∀ a ∈ l, ∃ u, OnlyCores s u ∧ u.core (key a) = s.core (key a) ∧
      (l.foldl g s).core (key a) = (g u a).core (key a)) := by
  induction l generalizing s with
  | nil => exact ⟨rfl, fun _ _ => rfl, fun _ a ha => absurd ha List.not_mem_nil⟩
  | cons b l ih =>
    have hb := hg s b hs
    obtain ⟨ho, hd, hm⟩ := ih (s := g s b) (by rw [hb.only.harbour]; exact hs)
    refine ⟨hb.only.trans ho, fun d hn => ?_, fun hnd a ha => ?_⟩
    · rw [List.map_cons, List.mem_cons, not_or] at hn
      rw [List.foldl_cons, hd d hn.2, hb.others d hn.1]
    · rw [List.map_cons, List.nodup_cons] at hnd
      obtain rfl | ha := List.mem_cons.mp ha
      · exact ⟨s, onlyCores_refl s, rfl, hd _ hnd.1⟩
      · have hne : key a ≠ key b := fun e => hnd.1 (e ▸ List.mem_map_of_mem ha)
        obtain ⟨u, hu, hc, hl⟩ := hm hnd.2 a ha
        exact ⟨u, hb.only.trans hu, hc.trans (hb.others _ hne), hl⟩

/-! ### Loads of instruction memory (R364) -/

theorem onCore_loadRun (c : Fin 4) (a n : Nat) (f : Core → Core) (hs : s.harbour.upset = []) : OnCore c s ((s.visit a n).modCore c f) := by
  rw [visit_of_clean hs]
  exact (onCore_power c s a n).trans (onCore_modCore c _ f)

/-- What a load leaves of its core. -/
structure Kept (k k' : Core) : Prop where
  run : k'.run = k.run
  regs : k'.regs = k.regs
  point : k'.point = k.point

theorem loadImem_kept (c : Fin 4) (l : LoadLog) (hs : s.harbour.upset = []) :
    OnCore c s (loadImem c l s) ∧ Kept (s.core c) ((loadImem c l s).core c) := by
  unfold loadImem
  generalize l.runs = rs
  induction rs generalizing s with
  | nil => exact ⟨⟨rfl, fun _ _ => rfl⟩, ⟨rfl, rfl, rfl⟩⟩
  | cons r rs ih =>
    rw [List.foldl_cons]
    have h1 := onCore_loadRun (s := s) c r.1 (128 * r.2.2) (fun k =>
      { k with imem := wrBytes k.imem (128 * r.2.1) (rdBytes s.harbour.data r.1 (128 * r.2.2)),
               meter := { k.meter with line := k.meter.line + 2 * r.2.2 } }) hs
    obtain ⟨h2, hrun, hregs, hpoint⟩ := ih (by rw [h1.only.harbour]; exact hs)
    refine ⟨h1.trans h2, hrun.trans ?_, hregs.trans ?_, hpoint.trans ?_⟩ <;>
      rw [core_modCore_same, visit_of_clean hs, core_power]

/-! ### A core released for the first time (R359, R362, R364) -/

theorem startsWith_startRegs (index cores watch unit chip base size entry : Nat) :
    startsWith (startRegs index cores watch unit chip base size entry) index cores watch unit chip base size entry := by
  refine ⟨fun i hi => ?_, fun i hi => ?_, rfl⟩
  · interval_cases i <;> rfl
  · interval_cases i <;> rfl

/-- A fresh core with its record loaded from the Harbour bytes m. -/
def startedCore (s : State) (w : Watch) (index : Nat) (r : PlacedRecord) (k : Core) : Core :=
  let k := freshCore s w index r k
  openWindow (logLoad r.initialLoad
    { k with imem := wrBytes k.imem 0 (rdBytes s.harbour.data r.load (128 * min r.bundles 4096)),
             meter := { k.meter with line := k.meter.line + 2 * min r.bundles 4096 } })

theorem startCore_eq (w : Watch) (index : Nat) (r : PlacedRecord) (c : Fin 4) (hs : s.harbour.upset = []) :
    OnCore c s (startCore w index r c s) ∧ (startCore w index r c s).core c = startedCore s w index r (s.core c) := by
  have hu : (s.modCore c (freshCore s w index r)).harbour.upset = [] := by rw [harbour_modCore]; exact hs
  have hload : startCore w index r c s = (((s.modCore c (freshCore s w index r)).power r.load (128 * min r.bundles 4096)).modCore c
      (fun k => { k with
        imem := wrBytes k.imem 0 (rdBytes (s.modCore c (freshCore s w index r)).harbour.data r.load (128 * min r.bundles 4096)),
        meter := { k.meter with line := k.meter.line + 2 * min r.bundles 4096 } })).modCore c
      (fun k => openWindow (logLoad r.initialLoad k)) := by
    rw [← visit_of_clean hu]
    rfl
  rw [hload]
  refine ⟨(onCore_modCore c s _).trans ((onCore_power c _ _ _).trans ((onCore_modCore c _ _).trans (onCore_modCore c _ _))), ?_⟩
  rw [core_modCore_same, core_modCore_same, core_power, core_modCore_same, harbour_modCore]
  rfl

theorem rdByte_imem_startedCore (s : State) (w : Watch) (index : Nat) (r : PlacedRecord) (k : Core) (a : Nat) :
    rdByte (startedCore s w index r k).imem a =
      if a < 128 * min r.bundles 4096 then rdByte s.harbour.data (r.load + a) else 0 := by
  show rdByte (wrBytes [] 0 (rdBytes s.harbour.data r.load (128 * min r.bundles 4096))) a = _
  rw [rdByte_wrBytes _ _ _ _ rfl, length_rdBytes]
  by_cases ha : a < 128 * min r.bundles 4096
  · rw [if_pos ⟨Nat.zero_le a, by omega⟩, if_pos ha, Nat.sub_zero, getD_rdBytes _ _ _ _ ha]
  · rw [if_neg (by omega), if_neg ha]
    rfl

/-! ### A core restarted from its frame (R118, R390) -/

/-- The loads of a resume, each kept in the load log (R389). -/
def reload (c : Fin 4) (ls : List LoadLog) (s : State) : State := ls.foldl (fun s l => (loadImem c l s).modCore c (logLoad l)) s

theorem reload_kept (c : Fin 4) (ls : List LoadLog) (hs : s.harbour.upset = []) :
    OnCore c s (reload c ls s) ∧ Kept (s.core c) ((reload c ls s).core c) := by
  unfold reload
  induction ls generalizing s with
  | nil => exact ⟨⟨rfl, fun _ _ => rfl⟩, ⟨rfl, rfl, rfl⟩⟩
  | cons l ls ih =>
    obtain ⟨h1, hr1, hg1, hp1⟩ := loadImem_kept c l hs
    have h1' := h1.trans (onCore_modCore c _ (logLoad l))
    obtain ⟨h2, hr2, hg2, hp2⟩ := ih (s := (loadImem c l s).modCore c (logLoad l)) (by rw [h1'.only.harbour]; exact hs)
    rw [core_modCore_same] at hr2 hg2 hp2
    exact ⟨h1'.trans h2, hr2.trans hr1, hg2.trans hg1, hp2.trans hp1⟩

/-- The core as it starts again from frame b: one that had halted stays so (R118). -/
def Core.resumed (b : List Byte) (k : Core) : Core :=
  if byteAt b 0x1B6 = 1 then { k with run := .halted } else openWindow { k with run := .running }

theorem resumed_kept (b : List Byte) (k : Core) : (k.resumed b).run = (if byteAt b 0x1B6 = 1 then .halted else .running) ∧
    (k.resumed b).regs = k.regs ∧ (k.resumed b).point = k.point := by
  unfold Core.resumed
  split <;> exact ⟨rfl, rfl, rfl⟩

theorem resumeCore_eq (w : Watch) (j : Job) (index : Nat) (c : Fin 4) (s : State) : resumeCore w j index c s =
    (reload c (s.resumeLoads w c (j.loadRuns.getD index [])) ((s.visit (frameAddr w c) 768).modCore c
      (framedCore w (s.frameOf w c) (j.cwSets.getD index ([], []))))).modCore c (Core.resumed (s.frameOf w c)) := rfl

theorem resumeCore_kept (w : Watch) (j : Job) (index : Nat) (c : Fin 4) (hs : s.harbour.upset = []) :
    OnCore c s (resumeCore w j index c s) ∧
    ((resumeCore w j index c s).core c).run = (if byteAt (s.frameOf w c) 0x1B6 = 1 then .halted else .running) ∧
    ((resumeCore w j index c s).core c).regs = frameRegs (s.frameOf w c) ∧
    ((resumeCore w j index c s).core c).point = leAt (s.frameOf w c) 0x1B4 2 := by
  rw [resumeCore_eq]
  generalize s.resumeLoads w c (j.loadRuns.getD index []) = ls
  generalize j.cwSets.getD index ([], []) = sets
  generalize s.frameOf w c = b
  have hframed := onCore_loadRun c (frameAddr w c) 768 (framedCore w b sets) hs
  obtain ⟨hon, -, hregs, hpoint⟩ := reload_kept (s := (s.visit (frameAddr w c) 768).modCore c (framedCore w b sets)) c ls
    (by rw [hframed.only.harbour]; exact hs)
  rw [core_modCore_same] at hregs hpoint
  rw [core_modCore_same]
  obtain ⟨hr, hg, hp⟩ := resumed_kept b ((reload c ls ((s.visit (frameAddr w c) 768).modCore c (framedCore w b sets))).core c)
  exact ⟨hframed.trans (hon.trans (onCore_modCore c _ _)), hr, hg.trans hregs, hp.trans hpoint⟩

theorem s_frameRegs (b : List Byte) {i : Nat} (hi : i < 32) : ((frameRegs b).s[i]?).getD 0 = BitVec.ofNat 32 (leAt b (4 * i) 4) := by
  simp [frameRegs, frameVec, hi]

end

end Sys2Proof.Machine
end

