-- ==== Sys2Proof/Proofs/SpringReleases.lean ====
section
/-! PROOF. Proofs/SpringReleases.lean: the release of the cores and the Spring as a whole (R105, R118, R359, R543). -/
namespace Sys2Proof.Machine
open Sys2Proof

section
variable {s t u v : State} {w : Watch} {j : Job} {n k : Nat} {c d : Fin 4}

/-! ### A Harbour without poison -/

/-- No line of the Harbour is poisoned or holds a single-bit error. -/
structure SoundHarbour (s : State) : Prop where
  poison : ∀ l, s.harbour.poisoned l = false
  upset : s.harbour.upset = []

theorem badLoad_of_sound (h : SoundHarbour s) (ls : List LoadLog) : s.badLoad ls = none := by
  unfold State.badLoad
  rw [List.findSome?_eq_none_iff]
  intro r _
  rw [Option.map_eq_none_iff, List.find?_eq_none]
  intro i _
  rw [h.poison]
  exact Bool.false_ne_true

theorem badRelease_of_sound (h : SoundHarbour s) (w : Watch) (j : Job) : s.badRelease w j = none := by
  unfold State.badRelease
  cases j.frames with
  | none =>
    simp only [badLoad_of_sound h, Option.map_none]
    exact List.findSome?_eq_none_iff.mpr fun _ _ => rfl
  | some f =>
    simp only [badLoad_of_sound h, h.poison]
    rw [List.findSome?_eq_none_iff]
    intro x _
    simp

theorem badJobFrame_of_sound (h : SoundHarbour s) (w : Watch) (j : Job) : s.badJobFrame w j = false := by
  unfold State.badJobFrame poisonIn
  simp [h.poison]

/-! ### The release of the cores (R105, R118, R543) -/

/-- The sync line of a job is cleared before its first release (R543). -/
def State.syncCleared (s : State) (w : Watch) : State :=
  if w.entry.ckptSize ≠ 0 then s.putHbrLines ((w.entry.hbrBase + w.entry.ckptOffset + 3584) / 64) [(zeros 64, 0)] else s

theorem wrote_syncCleared (s : State) (w : Watch) : Wrote s (s.syncCleared w) := by
  unfold State.syncCleared
  split
  · exact rfl
  · exact rfl

theorem sound_syncCleared (hm : s.harbour.wf = true) (h : SoundHarbour s) (w : Watch) : SoundHarbour (s.syncCleared w) := by
  unfold State.syncCleared
  split
  · refine ⟨fun l => ?_, ?_⟩
    · show sget false (sput false s.harbour.poison _ false) l = false
      have hk := ((swf_iff _ _).mp ((Lines.wf_iff _).mp hm).2.2).1
      generalize (w.entry.hbrBase + w.entry.ckptOffset + 3584) / 64 = a
      by_cases hl : l = a
      · rw [hl]
        exact sget_sput_self false _ a false hk
      · exact (sget_sput_ne false _ a l false hl hk).trans (h.poison l)
    · show s.harbour.upset.filter _ = []
      rw [h.upset]
      rfl
  · exact h

/-- The job as its cores are released (R118). -/
def Job.released (j : Job) (x : Job) : Job :=
  { x with frames := none, ckpt := none, resumed := x.resumed || j.frames.isSome, grantFj := 0, leakUs := 0, ckptStart := 0 }

/-- The watch is RUNNING in Spring. -/
def State.inSpring (s : State) (w : Watch) (j : Job) : State :=
  let s := (s.modWatch w.entry.num (fun w => { w with state := .running })).modJob w.entry.num (Job.released j)
  { s with tide := { s.tide with power := .spring } }

theorem core_inSpring (s : State) (w : Watch) (j : Job) (c : Fin 4) : (s.inSpring w j).core c = s.core c := by
  have : (s.inSpring w j).core c =
      ((s.modWatch w.entry.num (fun w => { w with state := .running })).modJob w.entry.num (Job.released j)).core c := by
    fin_cases c <;> rfl
  rw [this, core_modJob, core_modWatch]

theorem watch?_inSpring (hn : s.watch? w.entry.num = some w) (j : Job) :
    ∃ w', (s.inSpring w j).watch? w.entry.num = some w' ∧ w'.state = .running :=
  ⟨_, (watch?_modWatch_same (s := s.modWatch w.entry.num (fun w => { w with state := .running })) (watch?_modWatch_same hn)), rfl⟩

theorem coreRelease_eq (h : s.inSpringJob w j) (hc : s.tide.coreEn = true) (hp : s.tide.power ≠ .spring) :
    coreRelease s = releaseCores w j s := by
  obtain ⟨-, hsw, hj, hstop, -⟩ := h
  unfold coreRelease
  rw [hsw]
  simp only [hj, hc, hstop, hp, ne_eq, not_false_eq_true, decide_true, Option.isNone_none, Bool.and_self, if_true]

/-- The first release: each core starts with its PROGRAM. -/
theorem releaseCores_fresh (hf : j.frames = none) (hm : s.harbour.wf = true) (h : SoundHarbour s) (w : Watch) :
    releaseCores w j s = ((w.coreList.zip (s.mains w.entry)).zipIdx.foldl
      (fun t x => startCore w x.2 x.1.2 x.1.1 t) (s.syncCleared w)).inSpring w j := by
  have hs := sound_syncCleared hm h w
  have hmains : (s.syncCleared w).mains w.entry = s.mains w.entry := by
    unfold State.syncCleared
    split <;> rfl
  have hsync : (if j.frames.isNone && w.entry.ckptSize ≠ 0 then
      s.putHbrLines ((w.entry.hbrBase + w.entry.ckptOffset + 3584) / 64) [(zeros 64, 0)] else s) = s.syncCleared w := by
    rw [hf]
    simp [State.syncCleared]
  unfold releaseCores
  dsimp only
  rw [hsync, badJobFrame_of_sound hs, badRelease_of_sound hs, hf, ← hmains, State.inSpring]
  unfold Job.released
  rw [hf]
  rfl

/-- A later release: each core restarts from its frame. -/
theorem releaseCores_resumed (hf : j.frames ≠ none) (h : SoundHarbour s) (w : Watch) :
    releaseCores w j s = (w.coreList.zipIdx.foldl (fun t x => resumeCore w j x.2 x.1 t)
      (s.power (w.entry.hbrBase + w.entry.ckptOffset) 512)).inSpring w j := by
  obtain ⟨f, hf⟩ := Option.ne_none_iff_exists'.mp hf
  have hsync : (if j.frames.isNone && w.entry.ckptSize ≠ 0 then
      s.putHbrLines ((w.entry.hbrBase + w.entry.ckptOffset + 3584) / 64) [(zeros 64, 0)] else s) = s := by
    rw [hf]
    rfl
  unfold releaseCores
  dsimp only
  rw [hsync, badJobFrame_of_sound h, badRelease_of_sound h, hf, ← visit_of_clean h.upset, State.inSpring]
  unfold Job.released
  rw [hf]
  rfl

theorem nodup_coreList (w : Watch) : w.coreList.Nodup := List.Nodup.filter _ (by decide)

theorem sublist_map_fst_zip {α β : Type} (l : List α) (m : List β) : ((l.zip m).map Prod.fst).Sublist l := by
  induction l generalizing m with
  | nil => exact List.Sublist.refl _
  | cons a l ih =>
    cases m with
    | nil => exact List.nil_sublist _
    | cons b m => exact (ih m).cons_cons a

/-- The cores of a first release, in their order. -/
theorem sublist_releasedCores (w : Watch) (rs : List PlacedRecord) :
    (((w.coreList.zip rs).zipIdx).map (fun x => x.1.1)).Sublist w.coreList := by
  have : ((w.coreList.zip rs).zipIdx).map (fun x => x.1.1) = (w.coreList.zip rs).map Prod.fst := by
    rw [← List.zipIdx_map_fst 0 (w.coreList.zip rs), List.map_map, List.zipIdx_map_fst]
    rfl
  rw [this]
  exact sublist_map_fst_zip _ _

theorem exec_coreRelease_fresh (h : s.inSpringJob w j) (hc : s.tide.coreEn = true) (hp : s.tide.power ≠ .spring)
    (hm : s.harbour.wf = true) (hs : SoundHarbour s) (hf : j.frames = none) :
    ∃ t, exec .coreRelease s = .next t ∧ t.tide = { s.tide with power := .spring, banksOn := t.tide.banksOn } ∧
      (∃ w', t.watch? w.entry.num = some w' ∧ w'.state = .running) ∧ t.otp = s.otp ∧ t.host = s.host ∧
      (∀ c, c ∉ w.coreList → t.core c = s.core c) ∧
      (w.entry.ckptSize = 0 → t.harbour = s.harbour) ∧
      ∀ i c r, w.coreList[i]? = some c → (s.mains w.entry)[i]? = some r →
        (t.core c).run = .running ∧ (t.core c).pend = [] ∧ (t.core c).loc = {} ∧ (t.core c).v = [] ∧
        startsWith (t.core c).regs i w.coreList.length w.entry.num j.unitNum (s.cw.chip.getD 0) w.entry.hbrBase w.entry.hbrSize
          r.entryIndex ∧
        (∀ a, rdByte (t.core c).imem a =
          if a < 128 * min r.bundles 4096 then rdByte t.harbour.data (r.load + a) else 0) := by
  have hrel := (coreRelease_eq h hc hp).trans (releaseCores_fresh hf hm hs w)
  obtain ⟨hlive, -, hj, -, hn⟩ := h
  have hv := wrote_syncCleared s w
  have hvs := sound_syncCleared hm hs w
  obtain ⟨honly, hother, hown⟩ := foldl_onCore (key := fun x : (Fin 4 × PlacedRecord) × Nat => x.1.1)
    (g := fun t x => startCore w x.2 x.1.2 x.1.1 t) (fun s x hs => (startCore_eq w x.2 x.1.2 x.1.1 hs).1)
    (w.coreList.zip (s.mains w.entry)).zipIdx hvs.upset
  generalize ((w.coreList.zip (s.mains w.entry)).zipIdx.foldl (fun t x => startCore w x.2 x.1.2 x.1.1 t) (s.syncCleared w)) = v
    at hrel honly hother hown
  have hsub := sublist_releasedCores w (s.mains w.entry)
  have hvn : v.watch? w.entry.num = some w := by
    rw [honly, hv]
    exact hn
  refine ⟨v.inSpring w j, (next_inService hlive _).trans (congrArg _ hrel), ?_, watch?_inSpring hvn j, ?_, ?_, fun c hnc => ?_,
    fun h0 => ?_, fun i c r hi hr => ?_⟩
  · show { v.tide with power := Power.spring } = { s.tide with power := .spring, banksOn := v.tide.banksOn }
    rw [honly, hv]
  · show v.otp = s.otp
    rw [honly, hv]
  · show v.host = s.host
    rw [honly, hv]
  · rw [core_inSpring, hother c fun hm => hnc (hsub.subset hm), hv]
    fin_cases c <;> rfl
  · show v.harbour = s.harbour
    rw [honly.harbour, State.syncCleared, if_neg (not_not.mpr h0)]
  · have hmem : ((c, r), i) ∈ (w.coreList.zip (s.mains w.entry)).zipIdx :=
      List.mk_mem_zipIdx_iff_getElem?.mpr (List.getElem?_zip_eq_some.mpr ⟨hi, hr⟩)
    obtain ⟨u, hu, -, hcore⟩ := hown (hsub.nodup (nodup_coreList w)) _ hmem
    have huv : u.harbour = v.harbour := hu.harbour.trans honly.harbour.symm
    have hchip : u.cw.chip = s.cw.chip := by rw [hu, hv]
    have hstart := startCore_eq w i r c (s := u) (by rw [hu.harbour]; exact hvs.upset)
    have hunit : (w.job.getD {}).unitNum = j.unitNum := by rw [hj]; rfl
    rw [core_inSpring, hcore, hstart.2]
    refine ⟨rfl, rfl, rfl, rfl, ?_, fun a => ?_⟩
    · rw [← hchip, ← hunit]
      exact startsWith_startRegs _ _ _ _ _ _ _ _
    · rw [rdByte_imem_startedCore, huv]
      rfl

theorem exec_coreRelease_resumed (h : s.inSpringJob w j) (hc : s.tide.coreEn = true) (hp : s.tide.power ≠ .spring)
    (hs : SoundHarbour s) (hf : j.frames ≠ none) :
    ∃ t, exec .coreRelease s = .next t ∧ t.harbour = s.harbour ∧ t.tide.power = .spring ∧ ∀ c ∈ w.coreList,
      let f := rdBytes s.harbour.data (w.entry.hbrBase + w.entry.ckptOffset + 512 + 768 * c.val) 768
      (t.core c).run = (if byteAt f 0x1B6 = 1 then .halted else .running) ∧ (t.core c).point = leAt f 0x1B4 2 ∧
      (t.core c).regs.pc = BitVec.ofNat 13 (leAt f 0x1B0 4) ∧ (∀ i, i < 32 →
        ((t.core c).regs.s[i]?).getD 0 = BitVec.ofNat 32 (leAt f (4 * i) 4)) := by
  have hrel := (coreRelease_eq h hc hp).trans (releaseCores_resumed hf hs w)
  obtain ⟨hlive, -, -, -, -⟩ := h
  obtain ⟨honly, -, hown⟩ := foldl_onCore (key := fun x : Fin 4 × Nat => x.1) (g := fun t x => resumeCore w j x.2 x.1 t)
    (s := s.power (w.entry.hbrBase + w.entry.ckptOffset) 512) (fun s x hs => (resumeCore_kept w j x.2 x.1 hs).1) w.coreList.zipIdx hs.upset
  generalize w.coreList.zipIdx.foldl (fun t x => resumeCore w j x.2 x.1 t) (s.power (w.entry.hbrBase + w.entry.ckptOffset) 512) = v
    at hrel honly hown
  have hkeys : (w.coreList.zipIdx.map (fun x : Fin 4 × Nat => x.1)).Nodup := by
    rw [show w.coreList.zipIdx.map (fun x : Fin 4 × Nat => x.1) = w.coreList from List.zipIdx_map_fst 0 w.coreList]
    exact nodup_coreList w
  refine ⟨v.inSpring w j, (next_inService hlive _).trans (congrArg _ hrel), honly.harbour, rfl, fun c hcl => ?_⟩
  obtain ⟨i, hi⟩ := List.getElem?_of_mem hcl
  obtain ⟨u, hu, -, hcore⟩ := hown hkeys (c, i) (List.mk_mem_zipIdx_iff_getElem?.mpr hi)
  have huh : u.harbour = s.harbour := hu.harbour
  obtain ⟨-, hrun, hregs, hpoint⟩ := resumeCore_kept w j i c (s := u) (by rw [huh]; exact hs.upset)
  have hframe : u.frameOf w c = rdBytes s.harbour.data (w.entry.hbrBase + w.entry.ckptOffset + 512 + 768 * c.val) 768 := by
    rw [State.frameOf, huh]
    rfl
  rw [hframe] at hrun hregs hpoint
  dsimp only
  rw [core_inSpring, hcore, hrun, hregs, hpoint]
  exact ⟨rfl, rfl, rfl, fun i hi => s_frameRegs _ hi⟩

end

/-- Settles O36: the release, the meter and the guard by what each changes, and the four ends by the fall of CORE_EN. -/
theorem springReleasesMetersAndEnds : Obligations.SpringReleasesMetersAndEnds := by
  unfold Obligations.SpringReleasesMetersAndEnds
  refine ⟨fun s w j h _ => ⟨fun hc hp hm hpo hu => ⟨fun hf => ?_, fun hf => ?_⟩, fun hp hck b us c0 c1 c2 c3 hb => ?_, fun hp hck => ?_⟩,
    fun s w j h hc hp hok hd => ⟨fun k hk hdr ha ho => ?_, fun hdr ha hdis _ h6 hm hk ho hb => ?_, fun k hdr hk => ?_, ?_, ?_⟩⟩
  · exact exec_coreRelease_fresh h hc hp hm ⟨hpo, hu⟩ hf
  · exact exec_coreRelease_resumed h hc hp ⟨hpo, hu⟩ hf
  · exact exec_meterCharge h hp hck b us c0 c1 c2 c3 hb
  · exact exec_guardTrip h hp hck
  · exact exec_checkpointComplete h hc (tokensOk_of_withinDepths hd) hp hk hdr ha ho
  · exact exec_computeEnd h hc hp hok (tokensOk_of_withinDepths hd) hdr ha hdis ho ⟨h6, hm, hk, hb⟩
  · obtain ⟨hk, ho, ha⟩ := hk
    exact exec_checkpoint_overspent h hp hk hdr ha ho
  · exact exec_vcoreFail h hc (tokensOk_of_withinDepths hd)
  · exact exec_reservoirCollapse h hc (tokensOk_of_withinDepths hd)

end Sys2Proof.Machine
end

