-- ==== Sys2Proof/Proofs/ResetRelease.lean ====
section
/-! PROOF. Proofs/ResetRelease.lean: RESET_RELEASE, FAULT's blink and what acts in reset (R129, R139, R143, R156, R165, R188, R191). -/
namespace Sys2Proof.Machine
open Sys2Proof

section
variable {s : State} {pads : BitVec 4}

/-! ### Commands that reset holds back -/

/-- Every command that does not act in reset runs in service (R143, R156). -/
theorem exec_inService {i : Instr} (h : actsInReset i = false) (s : State) : ∃ f, exec i s = .next (inService s f) := by
  cases i
  case por | brownoutVbat | resetPin | thermalTrip | thermalResetEnd | resetRelease | lfCrystalSwitch | lfCrystalTimeout | lfFallback
    | faultBlink | extest | idcode | samplePreload | bypass => cases h
  all_goals exact ⟨_, rfl⟩

/-! ### RESET_RELEASE -/

/-- A release can come: the device is in reset by a source that has ended, and neither heat nor the OTP holds it (R129, R187). -/
def State.releasable (s : State) : Prop :=
  s.sys.inReset = true ∧ s.sys.delayed = none ∧ s.sys.asserted ≠ 0 ∧ s.tide.thermalShutdown = false ∧ s.otp.hold = none

/-- A release as far as the start-up check: the straps, the loop count and the wait for the crystal are set (R139, R141, R165). -/
def State.checked (pads : BitVec 4) (s : State) : State :=
  let straps := if s.sys.asserted &&& 0xF = 0 then s.sys.straps else Straps.sample pads
  otpCheck { s with
    sys := { s.sys with straps := straps, asserted := 0, loopCount := nextLoop s.sys.asserted s.sys.loopCount },
    tide := { s.tide with lfWait := if s.sys.asserted.getLsbD 0 then !straps.lfSrc else s.tide.lfWait } }

/-- The device out of reset, waiting for its rails (R143, R149, R161). -/
def State.released (pads : BitVec 4) (s : State) : State :=
  let t := s.checked pads
  { t with sys := { t.sys with
      inReset := false, resetCause := s.sys.asserted,
      fatalCode := if s.sys.asserted.getLsbD 8 then s.sys.fatalPending else 0, loopShown := t.sys.loopCount,
      hostAnswers := true, stage := 0x02, releaseTick := s.sys.tick } }

theorem resetRelease_eq (h : s.releasable) : resetRelease pads s =
    if (s.checked pads).otp.hold.isSome then s.checked pads
    else if s.otpUncorr &&& 0xDA = 0 then s.released pads else raiseAlarm 1 (s.released pads) := by
  obtain ⟨hr, hd, ha, ht, hh⟩ := h
  exact if_pos (by simpa [hr, hd, ht, hh] using ha)

theorem clearsLoop_eq (c : BitVec 9) : (c.getLsbD 0 || c.getLsbD 3 || c.getLsbD 7) = decide (c &&& 0x089 ≠ 0) := by
  revert c; decide

theorem raisesLoop_eq (c : BitVec 9) : (c.getLsbD 4 || c.getLsbD 8) = decide (c &&& 0x110 ≠ 0) := by
  revert c; decide

theorem nextLoop_eq (c : BitVec 9) (n : Nat) :
    nextLoop c n = if c &&& 0x089 ≠ 0 then 0 else if c &&& 0x110 ≠ 0 then min 4 (n + 1) else n := by
  simp only [nextLoop, clearsLoop_eq, raisesLoop_eq, decide_eq_true_eq]
  rfl

theorem raiseAlarm_frame (b : Nat) (s : State) : ∃ a q e o f, raiseAlarm b s =
    { s with sys := { s.sys with alarm := a }, strand := { s.strand with logQueue := q }, err := e, host := o, fresh := f } := by
  rw [raiseAlarm, raiseAlarmAt_eq]
  obtain ⟨e, h⟩ | ⟨e, h⟩ := logEntry_cases { cls := 5, source := alarmSource b, code := b } s <;>
    exact ⟨_, _, e, _, _, by rw [h]⟩

theorem hold_checked (pads : BitVec 4) (s : State) :
    (s.checked pads).otp.hold = holdCode s.otpUncorr (s.bootPolicy.getD 0) := rfl

theorem resetRelease_of_hold (h : s.releasable) (hh : (s.checked pads).otp.hold ≠ none) :
    resetRelease pads s = s.checked pads := by
  rw [resetRelease_eq h, if_pos (Option.isSome_iff_ne_none.mpr hh)]

/-- The release of a sound OTP: at most the alarm of a correctable-class region is raised besides (R191). -/
theorem resetRelease_of_pass (h : s.releasable) (hh : (s.checked pads).otp.hold = none) : ∃ a q e o f, resetRelease pads s =
    { s.released pads with sys := { (s.released pads).sys with alarm := a }, strand := { s.strand with logQueue := q }, err := e,
                           host := o, fresh := f } := by
  rw [resetRelease_eq h, if_neg (by simp [hh])]
  split
  · exact ⟨_, _, _, _, _, rfl⟩
  · exact raiseAlarm_frame 1 _

/-! ### What else acts in reset -/

/-- The thermal wait ends at 95 °C or below (R129). -/
theorem thermalEnd_eq (hr : s.sys.inReset = true) (ht : s.tide.thermalShutdown = true) (c : Int) :
    thermalEnd c s = if c ≤ 95 * 64 then { s with tide := { s.tide with thermalShutdown := false } } else s := by
  simp [thermalEnd, hr, ht]

variable {n p : Nat}

theorem faultBlink_first (h : s.otp.hold = some n) (hp : s.otp.blinkPhase = none) :
    faultBlink s = { s with otp := { s.otp with blinkPhase := some 0, blinkHigh := true } } := by
  simp [faultBlink, h, hp]

theorem faultBlink_next (h : s.otp.hold = some n) (hp : s.otp.blinkPhase = some p) : faultBlink s =
    { s with otp := { s.otp with
      blinkPhase := some (if p + 8192 < 16384 * n then p + 8192 else 0),
      blinkHigh := if p + 8192 < 16384 * n then decide ((p + 8192) / 8192 % 2 = 0) else true } } := by
  simp only [faultBlink, h, hp]
  split <;> simp [beq_eq_decide]

end

/-- Settles O26: a release is its state after the OTP check, with an alarm at most, and every command that does not act in reset is
one that runs in service. -/
theorem resetReleaseAndWhatActsInReset : Obligations.ResetReleaseAndWhatActsInReset := by
  unfold Obligations.ResetReleaseAndWhatActsInReset
  refine ⟨⟨fun s pads hr hd ha ht hh => ?_, fun s c hr ht => ?_, fun s h => ⟨?_, ?_⟩, fun s h => ?_, fun s hl hw hp => ?_,
    fun s n h => ?_⟩, fun s i hr hi => ?_⟩
  · have h : s.releasable := ⟨hr, hd, ha, ht, hh⟩
    refine ⟨_, rfl, ?_⟩
    by_cases hhold : (s.checked pads).otp.hold = none
    · obtain ⟨a, q, e, o, f, he⟩ := resetRelease_of_pass h hhold
      rw [he]
      exact ⟨rfl, nextLoop_eq _ _, rfl, rfl, rfl, rfl, rfl, rfl, rfl, fun c => by fin_cases c <;> rfl, rfl,
        fun _ => ⟨rfl, rfl, rfl, rfl, rfl, rfl, rfl, rfl⟩, fun hn => absurd hhold hn⟩
    · rw [resetRelease_of_hold h hhold]
      exact ⟨rfl, nextLoop_eq _ _, rfl, rfl, rfl, rfl, rfl, rfl, rfl, fun c => by fin_cases c <;> rfl, rfl,
        fun hn => absurd hn hhold, fun _ => ⟨hr, rfl⟩⟩
  · exact congrArg _ (thermalEnd_eq hr ht c)
  · exact congrArg _ (if_pos h)
  · exact congrArg _ (if_pos h)
  · exact congrArg _ (if_pos h)
  · exact (next_inService hl pllLock).trans (congrArg _ (if_pos (by simp [hw, hp])))
  · cases hp : s.otp.blinkPhase with
    | none => exact congrArg _ (faultBlink_first h hp)
    | some p => exact congrArg _ (faultBlink_next h hp)
  · obtain ⟨f, hf⟩ := exec_inService hi s
    rw [hf, inService_reset s f hr]

end Sys2Proof.Machine
end

