-- ==== Sys2Proof/Proofs/SentinelFrames.lean ====
section
/-! PROOF. Proofs/SentinelFrames.lean: superpixels, change energy and the watches that a sentinel frame makes due (R84, R280 to R283). -/
namespace Sys2Proof.Machine
open Sys2Proof

section
variable {s t u : State} {n : Nat} {w : Watch}

/-! ### Sums over lists -/

theorem foldl_add_eq_add_sum {α : Type} (g : α → Nat) (l : List α) (k : Nat) :
    l.foldl (fun t x => t + g x) k = k + (l.map g).sum := by
  rw [List.sum_eq_foldl, ← List.foldl_assoc (op := (· + · : Nat → Nat → Nat)), List.foldl_map, Nat.add_zero]

/-- A sum over a slice of a list reads a value that counts nothing past the list's end. -/
theorem sum_map_slice {α : Type} (g : α → Nat) {d : α} (hd : g d = 0) (l : List α) (a n : Nat) :
    (((l.drop a).take n).map g).sum = ((List.range n).map fun k => g (l.getD (a + k) d)).sum := by
  have htake (l : List α) (n : Nat) : ((l.take n).map g).sum = ((List.range n).map fun k => g (l.getD k d)).sum := by
    induction n generalizing l with
    | zero => rfl
    | succ n ih =>
      rw [List.range_succ_eq_map]
      cases l with
      | nil => simp [hd, Function.comp_def]
      | cons x l =>
        rw [List.take_succ_cons, List.map_cons, List.sum_cons, ih, List.map_cons, List.sum_cons, List.map_map]
        rfl
  rw [htake]
  simp [List.getD_eq_getElem?_getD]

/-! ### Superpixels -/

/-- The mean of the 32 × 32 pixels of superpixel i (R280). -/
def superMean (px : List (List Nat)) (i : Nat) : Byte :=
  let sum : Nat := ((List.range 32).map (fun r => ((List.range 32).map (fun c =>
    (px.getD (32 * (i / 64) + r) []).getD (32 * (i % 64) + c) 0)).sum)).sum
  BitVec.ofNat 8 (min 255 (rhe sum 1024).toNat)

theorem superpixels_eq (px : List (List Nat)) : superpixels px = (List.range 3072).map (superMean px) := by
  have hrow (x : Nat) (r : List Nat) (t : Nat) : ((r.drop (32 * x)).take 32).foldl (· + ·) t =
      t + ((List.range 32).map fun c => r.getD (32 * x + c) 0).sum :=
    (foldl_add_eq_add_sum id _ t).trans (congrArg _ (sum_map_slice id rfl r _ _))
  have hsum (x y : Nat) : superpixel px x y = min 255 (rhe (((List.range 32).map fun r =>
      ((List.range 32).map fun c => (px.getD (32 * y + r) []).getD (32 * x + c) 0).sum).sum : Nat) 1024).toNat := by
    simp only [superpixel, hrow]
    rw [foldl_add_eq_sum, sum_map_slice (d := [])]
    simp
  unfold superpixels superMean
  simp only [hsum]

/-! ### Change energy -/

theorem superDiff_eq (a b : List Byte) (i : Nat) : superDiff a b i = ((byteAt a i : Int) - byteAt b i).natAbs := by
  unfold superDiff
  dsimp only
  split <;> omega

/-- Superpixel i of the frame lies in the zone x0, y0, x1, y1. -/
def inZone (x0 y0 x1 y1 i : Nat) : Bool := x0 ≤ i % 64 && i % 64 ≤ x1 && y0 ≤ i / 64 && i / 64 ≤ y1

/-- The superpixels of a zone, row by row, are those of the frame that lie in it. -/
theorem sum_zone (d : Nat → Nat) {x0 y0 x1 y1 : Nat} (hx : x1 < 64) (hy : y1 < 48) :
    ((List.range (y1 + 1 - y0)).map fun j => ((List.range (x1 + 1 - x0)).map fun i => d (64 * (y0 + j) + x0 + i)).sum).sum =
      (((List.range 3072).filter (inZone x0 y0 x1 y1)).map d).sum := by
  rw [← List.sum_toFinset d (List.nodup_range.filter (inZone x0 y0 x1 y1))]
  have hrect : ((List.range (y1 + 1 - y0)).map fun j =>
      ((List.range (x1 + 1 - x0)).map fun i => d (64 * (y0 + j) + x0 + i)).sum).sum =
      ∑ p ∈ Finset.range (y1 + 1 - y0) ×ˢ Finset.range (x1 + 1 - x0), d (64 * (y0 + p.1) + x0 + p.2) := by
    rw [Finset.sum_product]
    rfl
  rw [hrect]
  refine Finset.sum_nbij' (fun p => 64 * (y0 + p.1) + x0 + p.2) (fun i => (i / 64 - y0, i % 64 - x0)) ?_ ?_ ?_ ?_ fun _ _ => rfl
  all_goals simp only [inZone, Finset.mem_product, Finset.mem_range, List.mem_toFinset, List.mem_filter, List.mem_range,
    Bool.and_eq_true, decide_eq_true_eq, Prod.forall, Prod.mk.injEq]
  all_goals omega

theorem zoneEnergy_eq (a b : List Byte) {x0 y0 x1 y1 : Nat} (hx : x1 < 64) (hy : y1 < 48) : zoneEnergy a b x0 y0 x1 y1 =
    min 65535 (((List.range 3072).filter (inZone x0 y0 x1 y1)).map fun i => ((byteAt a i : Int) - byteAt b i).natAbs).sum := by
  have hrow (j k : Nat) : (List.range (x1 + 1 - x0)).foldl (fun t i => t + superDiff a b (64 * (y0 + j) + x0 + i)) k =
      k + ((List.range (x1 + 1 - x0)).map fun i => superDiff a b (64 * (y0 + j) + x0 + i)).sum := foldl_add_eq_add_sum _ _ k
  simp only [zoneEnergy, hrow]
  rw [foldl_add_eq_sum, sum_zone _ hx hy, show superDiff a b = _ from funext (superDiff_eq a b)]

/-- The whole array is the zone of its first and its last superpixel. -/
theorem zoneEnergy_array (a b : List Byte) : zoneEnergy a b 0 0 63 47 =
    min 65535 ((List.range 3072).map fun i => ((byteAt a i : Int) - byteAt b i).natAbs).sum := by
  rw [zoneEnergy_eq a b (by omega) (by omega), List.filter_eq_self.mpr]
  intro i hi
  simp only [inZone, Bool.and_eq_true, decide_eq_true_eq]
  rw [List.mem_range] at hi
  omega

theorem zoneEnergy_zone (z a b : List Byte) (hx : byteAt z 2 < 64) (hy : byteAt z 3 < 48) :
    zoneEnergy a b (byteAt z 0) (byteAt z 1) (byteAt z 2) (byteAt z 3) = zoneSum z a b :=
  zoneEnergy_eq a b hx hy

/-! ### Triggers that may wake the device -/

/-- From s to t triggers have been taken: they change the table and, where they wake the device from Neap, its power state, the
Host port and the reload of the pin lines (R86). -/
def Triggered (s t : State) : Prop :=
  t = { s with watches := t.watches, tide := { s.tide with power := t.tide.power }, gpio := t.gpio, host := t.host, fresh := t.fresh }

theorem Triggered.trans (h : Triggered s t) (h' : Triggered t u) : Triggered s u := by
  rw [Triggered] at h h' ⊢
  rw [h', h]

theorem Triggered.pix (h : Triggered s t) : t.pix = s.pix := by rw [h]

theorem Triggered.sys (h : Triggered s t) : t.sys = s.sys := by rw [h]

theorem OnlyWatches.triggered (h : OnlyWatches s t) : Triggered s t := by
  rw [OnlyWatches] at h
  rw [Triggered, h]

theorem triggered_refill (k : Nat) (s : State) : Triggered s (refill k s) := by
  induction k generalizing s with
  | zero => rfl
  | succ k ih =>
    refine Triggered.trans ?_ (ih _)
    rw [Triggered, refillOne_frame]

theorem triggered_wake (s : State) : Triggered s (wake s) := by
  unfold wake
  split
  · refine Triggered.trans ?_ (triggered_refill 64 _)
    rfl
  · rfl

theorem triggered_trigger (n due order : Nat) (gpio : Bool) (s : State) : Triggered s (trigger n due order gpio s) := by
  unfold trigger
  split
  · rfl
  split
  · rfl
  refine (triggered_wake s).trans ?_
  dsimp only
  split
  · exact onlyWatches_serveTrigger.triggered
  split <;> rfl

theorem triggered_triggerAll (l : List Nat) (order : Nat) (gpio : Bool) (s : State) : Triggered s (triggerAll l order gpio s) := by
  unfold triggerAll
  induction l generalizing s with
  | nil => rfl
  | cons n l ih => exact (triggered_trigger ..).trans (ih _)

/-- An ARMED watch of no share group starts its job at its trigger, in Neap too. -/
theorem watch?_trigger_of_armed {due order : Nat} (hw : s.watch? n = some w) (hs : w.state = .armed) (hh : w.held = none)
    (ha : w.adapt = none) (hg : w.entry.group = 0) : (trigger n due order false s).watch? n = some (w.started due order) := by
  have hserve : trigger n due order false s = serveTrigger n due order false (wake s) := by simp [trigger, hw, hs, hh]
  rw [hserve, watch?_serveTrigger ((watch?_of_watches (watches_wake s) n).trans hw) ha hg]
  rfl

/-- A watch of no share group among those triggered starts its job at the present tick. -/
theorem watch?_triggerAll_of_armed {l : List Nat} {order : Nat} (hl : l.Nodup) (hn : n ∈ l) (hw : s.watch? n = some w)
    (hs : w.state = .armed) (hh : w.held = none) (ha : w.adapt = none) (hg : w.entry.group = 0) :
    (triggerAll l order false s).watch? n = some (w.started s.sys.tick order) := by
  obtain ⟨pre, hpre, hu⟩ := watch?_foldl_of_mem (s := s) (g := fun s n => trigger n s.sys.tick order false s)
    (fun _ _ _ => watch?_trigger_ne) hl hn
  have hsys := (triggered_triggerAll pre order false s).sys
  refine hpre.trans ((watch?_trigger_of_armed (hu.trans hw) hs hh ha hg).trans ?_)
  rw [← hsys]
  rfl

/-! ### SENTINEL_FRAME -/

/-- The frame is the reference, and is counted (R281). -/
def State.referred (new : List Byte) (s : State) : State :=
  { s with pix := { s.pix with reference := some new, sentFrames := (s.pix.sentFrames + 1) % 65536 } }

/-- The change energy over the array is reported (R282). -/
def State.evaluated (new old : List Byte) (s : State) : State :=
  { s.referred new with pix := { (s.referred new).pix with sentEnergy := zoneEnergy new old 0 0 63 47 } }

variable {px : List (List Nat)} {old : List Byte}

theorem sentinelFrame_of_no_vpix (h : s.tide.vpixReady = false) : sentinelFrame px s = s := by
  simp [sentinelFrame, h]

theorem sentinelFrame_first (hon : s.sentinelOn = true) (hv : s.tide.vpixReady = true) (hr : s.pix.reference = none) :
    sentinelFrame px s = s.referred ((List.range 3072).map (superMean px)) := by
  simp only [sentinelFrame, hon, hv, hr, superpixels_eq]
  rfl

theorem sentinelDue_eq (new old : List Byte) (hk : w.entry.trigKind = 5) (hs : w.state = .armed) (hx : byteAt w.entry.trigArg 2 < 64)
    (hy : byteAt w.entry.trigArg 3 < 48) :
    sentinelDue new old w = decide (leAt w.entry.trigArg 4 2 ≤ zoneSum w.entry.trigArg new old) := by
  simp [sentinelDue, hk, hs, zoneEnergy_zone _ _ _ hx hy]

theorem pix_evaluated (new old : List Byte) (s : State) : (s.evaluated new old).pix =
    { s.pix with reference := some new, sentFrames := (s.pix.sentFrames + 1) % 65536,
                 sentEnergy := min 65535 ((List.range 3072).map fun i => ((byteAt new i : Int) - byteAt old i).natAbs).sum } := by
  rw [State.evaluated, zoneEnergy_array]
  rfl

/-- The evaluated frame triggers the watches that are due (R282, R283). -/
def State.sentinelTriggered (new old : List Byte) (s : State) : State :=
  triggerAll ((s.watches.filter (sentinelDue new old)).map (·.entry.num)) 0 false (s.evaluated new old)

theorem watch?_sentinelTriggered_of_not_due {new : List Byte} (hok : s.tableOk) (hw : s.watch? n = some w)
    (hd : sentinelDue new old w = false) : (s.sentinelTriggered new old).watch? n = some w := by
  refine (watch?_triggerAll_of_not_mem fun hn => ?_).trans hw
  rw [mem_nums_iff hok hw, hd] at hn
  cases hn

/-- An ARMED sentinel watch of no share group starts its job exactly where its zone reaches its threshold (R47, R283). -/
theorem watch?_sentinelTriggered {new : List Byte} (hok : s.tableOk) (hw : s.watch? n = some w) (hk : w.entry.trigKind = 5)
    (hs : w.state = .armed) (hh : w.held = none) (hg : w.entry.group = 0) (ha : w.adapt = none)
    (hx : byteAt w.entry.trigArg 2 < 64) (hy : byteAt w.entry.trigArg 3 < 48) : (s.sentinelTriggered new old).watch? n =
      some (if leAt w.entry.trigArg 4 2 ≤ zoneSum w.entry.trigArg new old then w.started s.sys.tick 0 else w) := by
  have hdue := sentinelDue_eq new old hk hs hx hy
  split
  · next hz =>
    rw [decide_eq_true hz] at hdue
    exact watch?_triggerAll_of_armed (nums_nodup hok _) ((mem_nums_iff hok hw _).mpr hdue) hw hs hh ha hg
  · next hz =>
    rw [decide_eq_false hz] at hdue
    exact watch?_sentinelTriggered_of_not_due hok hw hdue

theorem sentinelFrame_next (hon : s.sentinelOn = true) (hv : s.tide.vpixReady = true) (hr : s.pix.reference = some old) :
    sentinelFrame px s = s.sentinelTriggered ((List.range 3072).map (superMean px)) old := by
  simp only [sentinelFrame, hon, hv, hr, superpixels_eq]
  rfl

end

/-- Settles O39: the nested sums of the model are those over the superpixels of the array that lie in the zone, and the watches due are
triggered one by one. -/
theorem sentinelFramesAreEvaluated : Obligations.SentinelFramesAreEvaluated := by
  unfold Obligations.SentinelFramesAreEvaluated
  intro s px hl hon
  refine ⟨fun hv => ?_, fun hv hr => ?_, fun old hv hr hok => ?_⟩
  · exact (next_inService hl _).trans (congrArg _ (sentinelFrame_of_no_vpix hv))
  · exact (next_inService hl _).trans (congrArg _ (sentinelFrame_first hon hv hr))
  · refine ⟨_, (next_inService hl _).trans (congrArg _ (sentinelFrame_next hon hv hr)),
      (triggered_triggerAll ..).pix.trans (pix_evaluated ..), fun n w hw hk => ?_, fun n w hw hk hs hh hg ha hx hy => ?_⟩
    · exact watch?_sentinelTriggered_of_not_due hok hw (by simp [sentinelDue, hk])
    · exact watch?_sentinelTriggered hok hw hk hs hh hg ha hx hy

end Sys2Proof.Machine
end

