-- ==== Sys2Proof/Proofs/TideLimits.lean ====
section
/-! PROOF. Proofs/TideLimits.lean: where the Tide does not do what a statement asks of it: a thermal shutdown whose chip-fatal reset
waits (R127, R158, R619, R621), and a job that asks for admission in Neap (R86, R106). -/
namespace Sys2Proof.Machine
open Sys2Proof

/-! ### Thermal shutdown -/

/-- A Spring in which core 0 holds one descriptor token more than the book allows (R376), while the Strand store writes a unit. -/
def overheated : State where
  tide := { coreEn := true }
  core0 := { pend := List.replicate 17 { slot := 6 } }
  strand := { writing := some {} }

/-- At 120 °C CORE_EN is to fall, but the tokens do not balance: the chip-fatal reset comes first, and it waits for the unit. -/
theorem exec_tempSample_overheated : ∃ t, exec (.tempSample (120 * 64)) overheated = .next t ∧ t.tide.coreEn = true ∧
    t.sys.delayed = some .fatal :=
  ⟨_, rfl, rfl, rfl⟩

/-- Refutes O33 in its clause of the thermal shutdown, which has no premise on the tokens of the cores: where they do not balance, a
chip-fatal reset takes the place of the fall of CORE_EN, and while a unit of the Strand store delays it CORE_EN stays high. -/
theorem not_tideSamplesDriveTheirOutputs : ¬ Obligations.TideSamplesDriveTheirOutputs := by
  unfold Obligations.TideSamplesDriveTheirOutputs
  rintro ⟨-, -, -, -, -, hshutdown, -⟩
  obtain ⟨t, ht, -, -, -, hfalls⟩ := hshutdown overheated (120 * 64) rfl rfl (by decide)
  obtain ⟨u, hu, hstays, -⟩ := exec_tempSample_overheated
  cases ht.symm.trans hu
  exact absurd (hfalls.symm.trans hstays) (by decide)

/-! ### Admission -/

/-- In Neap no job asks for admission. -/
theorem admissionRequest_of_neap {s : State} (h : s.tide.power = .neap) (n : Nat) : admissionRequest n s = s := by
  unfold admissionRequest
  split
  · split
    · rw [if_neg (by simp [h])]
    · rfl
  · rfl

/-- A watch with one program whose job is RUNNING, its inputs complete. -/
def readyWatch : Watch where
  entry := { progCount := 1 }
  state := .running
  job := some { inputsDone := true }

/-- A device in Neap without a power block, with that watch. -/
def readyInNeap : State where
  tide := { power := .neap }
  watches := [readyWatch]

/-- Refutes O34 in its clause of a device without a power block, which has no premise on the power state: in Neap the request does
nothing, so that the watch stays RUNNING and is not FAULTED with code 0x25. -/
theorem not_admissionTakesTheQueueInOrder : ¬ Obligations.AdmissionTakesTheQueueInOrder := by
  unfold Obligations.AdmissionTakesTheQueueInOrder
  intro h
  obtain ⟨hasks, -⟩ := h readyInNeap 0 readyWatch { inputsDone := true } rfl (List.pairwise_singleton _ _) rfl rfl rfl
  obtain ⟨-, hfault, -⟩ := hasks rfl rfl rfl rfl (by decide)
  obtain ⟨t, ht, hwatch, -⟩ := hfault rfl
  have hstays : exec (.admissionRequest 0) readyInNeap = .next readyInNeap :=
    (next_inService (s := readyInNeap) rfl _).trans (congrArg _ (admissionRequest_of_neap rfl 0))
  cases ht.symm.trans hstays
  obtain ⟨w, hw, -, hfaulted, -⟩ := hwatch readyWatch rfl
  cases hw
  exact absurd hfaulted (by decide)

end Sys2Proof.Machine
end

