-- ==== Sys2Proof/Proofs/ResetEntry.lean ====
section
/-! PROOF. Proofs/ResetEntry.lean: the sources of a full reset, the state in reset, and the chip-fatal path into it (R154 to R160, R619). -/
namespace Sys2Proof.Machine
open Sys2Proof

section
variable {s : State}

/-! ### The state in reset -/

theorem resetPins_eq (por : Bool) (pins : List Pin) : resetPins por pins = (List.range 24).map (pinAfterReset por pins) := by
  unfold resetPins
  congr 1
  funext p
  unfold pinAfterReset
  cases pins[p]? <;> simp [and_assoc]

/-- The sources asserted once src has asserted in a device without a reset that waits (R154). -/
def State.asserts (src : ResetSource) (s : State) : State :=
  { s with sys := { s.sys with asserted := (if s.sys.inReset then s.sys.asserted else 0) ||| BitVec.ofNat 9 (2 ^ src.bit) } }

/-- What a reset leaves of a device in which one source is asserted: x is the device once the log has taken what a fatal reset
writes (R619). -/
theorem enterReset_eq {x : State} {src : ResetSource} (hx : (if s.sys.asserted.getLsbD 8 then flushFatalLog s else s) = x)
    (ha : x.sys.asserted = BitVec.ofNat 9 (2 ^ src.bit)) : enterReset (src == .por) s = x.inResetBy src.bit := by
  unfold enterReset
  rw [hx]
  simp only [resetPins_eq, ha]
  cases src <;> rfl

/-- A source other than FATAL leaves the log alone. -/
theorem enterReset_of_not_fatal {src : ResetSource} (hf : src ≠ .fatal) (ha : s.sys.asserted = BitVec.ofNat 9 (2 ^ src.bit)) :
    enterReset (src == .por) s = s.inResetBy src.bit := by
  refine enterReset_eq (if_neg ?_) ha
  rw [ha]
  revert hf
  cases src <;> decide

theorem sys_flushFatalLog (s : State) : (flushFatalLog s).sys = s.sys := by
  unfold flushFatalLog
  split
  · split <;> rfl
  · rfl

theorem sys_enterReset (por : Bool) (s : State) :
    (enterReset por s).sys.inReset = true ∧ (enterReset por s).sys.asserted = s.sys.asserted := by
  refine ⟨rfl, ?_⟩
  have hx : (enterReset por s).sys.asserted = (if s.sys.asserted.getLsbD 8 then flushFatalLog s else s).sys.asserted := rfl
  rw [hx]
  split
  · rw [sys_flushFatalLog]
  · rfl

/-! ### A source asserts -/

theorem tearOtp_of_idle (h : s.otp.run = none) : tearOtp s = s := by
  simp only [tearOtp, h]
  rw [← h]

theorem tearUnit_of_idle (h : s.strand.writing = none) : tearUnit s = s := by
  simp only [tearUnit, h]

/-- With no store busy a source takes the device into reset at once (R154, R158). -/
theorem assertReset_of_idle (hi : s.idleStores) (src : ResetSource) :
    assertReset src s = enterReset (src == .por) (s.asserts src) := by
  obtain ⟨hh, hr, hw, hd⟩ := hi
  have ho : tearOtp (s.asserts src) = s.asserts src := tearOtp_of_idle hr
  have hu : tearUnit (s.asserts src) = s.asserts src := tearUnit_of_idle hw
  have hdel : (s.asserts src).delays src = false := by
    unfold State.delays
    cases src <;> simp [State.asserts, hr, hw]
  unfold assertReset
  rw [if_neg (by simp [hh]), hd, Option.isSome_none, Bool.or_false]
  cases src
  case por => exact congrArg (enterReset true) ((congrArg tearUnit ho).trans hu)
  case thermTrip => exact congrArg (enterReset false) ((congrArg tearUnit ho).trans hu)
  case borVbat | borVsys | thermReq =>
    exact (if_neg (ne_true_of_eq_false ((congrArg (fun x => State.delays x _) ho).trans hdel))).trans (congrArg (enterReset false) ho)
  case pin | soft | wdt | fatal => exact if_neg (ne_true_of_eq_false hdel)

/-- Out of reset, a source other than FATAL does so under its own cause alone (R156, R161). -/
theorem assertReset_eq_inResetBy (hl : s.live) (hi : s.idleStores) {src : ResetSource} (hf : src ≠ .fatal) :
    assertReset src s = s.inResetBy src.bit := by
  rw [assertReset_of_idle hi src, enterReset_of_not_fatal hf (by simp [State.asserts, show s.sys.inReset = false from hl])]
  rfl

/-! ### The chip-fatal path (R619) -/

theorem length_logBody (s : State) (e : LogInfo) : (s.logBody e).length = 56 := by
  simp [State.logBody, length_leBytes, zeros]

theorem nextLog_lt (s : State) : s.nextLog.1 < 1024 := by
  unfold State.nextLog
  split
  · exact Nat.succ_pos _
  · exact Nat.mod_lt _ (by decide)

/-- The bytes of the store outside the region of the event log are the same (R681). -/
def sameOutsideLog (m m' : List Host.Cell) : Prop := ∀ a, a < 0x70000 ∨ 0x80000 ≤ a → rdByte m' a = rdByte m a

theorem sameOutsideLog_putLog (hwf : Memory.wf s.strand.data = true) {body : List Byte} (hb : body.length = 56) :
    sameOutsideLog s.strand.data (putLog body s).strand.data := by
  intro a ha
  have hu := nextLog_lt s
  have hlen : (logUnit s.nextLog.2 body).length = 64 := by simp [logUnit, length_leBytes, hb]
  change rdByte (wrBytes s.strand.data (logUnitAddr s.nextLog.1) (logUnit s.nextLog.2 body)) a = _
  rw [rdByte_wrBytes _ _ _ _ hwf, hlen, if_neg]
  unfold logUnitAddr
  omega

/-- The entry that waits reaches the store, or does not: nothing else of the device changes but the log's books. -/
theorem flushFatalLog_frame (hwf : Memory.wf s.strand.data = true) (hq : ∀ b ∈ s.strand.logQueue, b.length = 56) :
    ∃ d u e, flushFatalLog s = { s with strand := { s.strand with data := d, units := u }, err := e } ∧
      sameOutsideLog s.strand.data d := by
  unfold flushFatalLog
  split
  · next b hb =>
    split
    · exact ⟨_, _, _, rfl, sameOutsideLog_putLog hwf (hq b (List.mem_of_find?_eq_some hb))⟩
    · exact ⟨_, _, _, rfl, fun _ _ => rfl⟩
  · exact ⟨_, _, _, rfl, fun _ _ => rfl⟩

/-- The state in reset after a chip-fatal error with the given code and store. -/
def State.fatalReset (s : State) (code : Nat) (d : List Host.Cell) : State :=
  { s.inResetBy 8 with sys := { (s.inResetBy 8).sys with fatalPending := code }, strand := { data := d } }

/-- With no store busy a chip-fatal error resets the device, its entry written into the log before (R619). -/
theorem chipFatal_of_idle (hl : s.live) (hi : s.idleStores) (hq : ∀ b ∈ s.strand.logQueue, b.length = 56)
    (hwf : Memory.wf s.strand.data = true) (code source : Nat) :
    ∃ d, chipFatal code source s = s.fatalReset code d ∧ sameOutsideLog s.strand.data d := by
  let x : State := { s with
    strand := { s.strand with logQueue := s.strand.logQueue ++ [s.logBody { cls := 3, source := source, code := code }] },
    sys := { s.sys with fatalPending := code } }
  have hx : chipFatal code source s = assertReset .fatal x := by
    simp only [chipFatal, show s.sys.inReset = false from hl, logEntry]
    rfl
  have hxq : ∀ b ∈ (x.asserts .fatal).strand.logQueue, b.length = 56 := fun b hb => by
    rcases List.mem_append.mp hb with hb | hb
    · exact hq b hb
    · rw [List.mem_singleton.mp hb, length_logBody]
  obtain ⟨d, u, e, hf, hd⟩ := flushFatalLog_frame (s := x.asserts .fatal) hwf hxq
  refine ⟨d, ?_, hd⟩
  have ha : (x.asserts .fatal).sys.asserted = 0x100 := by
    simp [State.asserts, x, show s.sys.inReset = false from hl, ResetSource.bit]
  rw [hx, assertReset_of_idle (by exact hi)]
  exact (enterReset_eq (src := .fatal) ((if_pos (by rw [ha]; decide)).trans hf) ha).trans rfl

/-- A pin reset waits for a unit or a word in progress (R158). -/
theorem assertReset_pin_of_busy (hl : s.live) (hh : s.otp.hold = none) (hd : s.sys.delayed = none)
    (hbusy : s.otp.run ≠ none ∨ s.strand.writing ≠ none) :
    assertReset .pin s = { s with sys := { s.sys with asserted := 8, delayed := some .pin } } := by
  have hdel : (s.asserts .pin).delays .pin = true := by
    simpa [State.delays, State.asserts, or_comm, Option.isSome_iff_ne_none] using hbusy
  have hone : (s.asserts .pin).sys.asserted = 8 := by
    simp [State.asserts, show s.sys.inReset = false from hl, ResetSource.bit]
  unfold assertReset
  rw [if_neg (by simp [hh]), hd, Option.isSome_none, Bool.or_false]
  refine (if_pos hdel).trans ?_
  rw [← hone]
  rfl

end

/-- Settles O24: each source is assertReset, which with idle stores enters the reset state at once. -/
theorem resetSourcesEnterTheResetState : Obligations.ResetSourcesEnterTheResetState := by
  unfold Obligations.ResetSourcesEnterTheResetState
  refine ⟨fun s hi hl => ⟨?_, fun hw hp => ⟨?_, fun hc => ?_, fun hc => ?_⟩, fun ht => ?_, fun code h1 h6 hw hq hwf => ?_⟩,
    fun s hl hr hw hd ha => ?_, fun s hl hh hd hbusy => ?_, fun s hr hi => ?_⟩
  · have h {src : ResetSource} (hf : src ≠ .fatal) := assertReset_eq_inResetBy hl hi hf
    simp only [List.forall_mem_cons, List.not_mem_nil, false_implies, implies_true, and_true]
    exact ⟨congrArg _ (h (src := .por) (by decide)), congrArg _ (h (src := .borVbat) (by decide)),
      congrArg _ (h (src := .pin) (by decide)), congrArg _ (h (src := .thermTrip) (by decide))⟩
  · refine (next_inService hl _).trans (congrArg _ ?_)
    rw [if_pos (by simp [State.controllerRuns, hw, hp])]
    exact assertReset_eq_inResetBy hl hi (src := .borVsys) (by decide)
  · refine (next_inService hl _).trans (congrArg _ ?_)
    rw [if_pos (by simp [State.controllerRuns, hw, hp, hc])]
    exact assertReset_eq_inResetBy hl hi (src := .wdt) (by decide)
  · refine (next_inService hl _).trans (congrArg _ (if_neg ?_))
    simp [Nat.not_le.mpr hc]
  · refine (next_inService hl _).trans (congrArg _ ?_)
    rw [if_pos ht]
    exact assertReset_eq_inResetBy hl hi (src := .thermReq) (by decide)
  · obtain ⟨d, hd, hsame⟩ := chipFatal_of_idle hl hi hq hwf code (fatalSource code)
    refine ⟨s.fatalReset code d, (next_inService hl _).trans (congrArg _ ?_), rfl, hsame⟩
    rw [fatalError, if_pos (by simp [h1, h6, hw]), hd]
  · refine (next_inService hl _).trans (congrArg _ ?_)
    have hdel : s.delays .soft = false := by simp [State.delays, hr, hw]
    simp only [softTaken, takeDelayed, hd, if_true, hdel, Bool.false_eq_true, if_false]
    exact enterReset_of_not_fatal (src := .soft) (by decide) ha
  · exact congrArg _ (assertReset_pin_of_busy hl hh hd hbusy)
  · have h (src : ResetSource) : (assertReset src s).sys.inReset = true ∧
        (assertReset src s).sys.asserted = s.sys.asserted ||| BitVec.ofNat 9 (2 ^ src.bit) := by
      rw [assertReset_of_idle hi src]
      obtain ⟨hin, ha⟩ := sys_enterReset (src == .por) (s.asserts src)
      exact ⟨hin, ha.trans (by simp [State.asserts, hr])⟩
    simp only [List.forall_mem_cons, List.not_mem_nil, false_implies, implies_true, and_true]
    exact ⟨⟨_, rfl, h .por⟩, ⟨_, rfl, h .borVbat⟩, ⟨_, rfl, h .pin⟩, ⟨_, rfl, h .thermTrip⟩⟩

end Sys2Proof.Machine
end

