-- ==== Sys2Proof/Proofs/PartialResets.lean ====
section
/-! PROOF. Proofs/PartialResets.lean: the partial reset of a unit, its release and the drain that takes too long (R167 to R173, R351,
R611, R617). -/
namespace Sys2Proof.Machine
open Sys2Proof

section
variable {s u : State} {n : Nat} {w : Watch} {j : Job} {c : Fin 4}

/-! ### The start of a partial reset (R168, R173) -/

theorem getD_modAt_self {α : Type} {l : List α} {i : Nat} (h : i < l.length) (f : α → α) (d : α) :
    (modAt l i f).getD i d = f (l.getD i d) := by
  simp [modAt, h]

theorem stemBufferError_of_runs (h : s.stemRuns = true) : stemBufferError s = { s with sys := { s.sys with
    resetting := s.sys.resetting ++ [.stem], unitResets := modAt s.sys.unitResets 4 (fun n => satAdd n 1 15) } } := by
  have hn : ResetUnit.stem ∉ s.sys.resetting := by
    simp only [State.stemRuns, Bool.and_eq_true, Bool.not_eq_true', decide_eq_false_iff_not] at h
    exact h.2
  rw [stemBufferError, if_pos h, stemError, startPartial, if_neg hn]
  rfl

/-! ### A unit leaves its partial reset -/

/-- Unit x is no longer among those in partial reset (R168). -/
def State.unitFreed (x : ResetUnit) (s : State) : State :=
  { s with sys := { s.sys with resetting := s.sys.resetting.filter (fun y => y ≠ x) } }

/-- A job outside Spring that an error ends is closed at once (R617). -/
theorem watchFatalAt_eq (hw : s.watch? n = some w) (hj : w.job = some j) (hs : j.inSpring = false) (source addr code exc : Nat)
    (core : Option Nat) : ∃ u x, x.watch = n ∧ x.code = code ∧ Reports x.watch s u ∧ watchFatalAt source addr n code exc core s = u.jobClosed x := by
  let x : Stop := { watch := n, code := code, exc := exc, core := core, tick := s.sys.tick, source := source, addr := addr }
  obtain ⟨u, hu, he⟩ := finishStop_eq (x := x) hw
  refine ⟨u, x, rfl, rfl, hu, ?_⟩
  have hx : watchFatalAt source addr n code exc core s = finishStop x s := by
    simp [watchFatalAt, stopJob, hw, hj, hs, x]
  rw [hx, he]
  simp [hj, hs]

/-! ### The Aux ADC (R170) -/

theorem adcReleased_of_free (h : s.adc.cap = none) : adcReleased s = s.unitFreed .adc := by
  simp only [adcReleased, h]
  rfl

theorem adc_jobClosed {x : Stop} {a : AdcCapture} (h : s.adc.cap = some a) (hx : x.watch = a.watch) :
    (s.jobClosed x).adc.cap = none ∧ (s.jobClosed x).adc.iepeJob = 0 := by
  have hd : (s.jobClosed x).adc = ((s.dropPix x.watch).dropAdc x.watch).adc := rfl
  have hp : (s.dropPix a.watch).adc.cap = some a := by rw [dropPix_frame, h]
  rw [hd, hx]
  simp only [State.dropAdc, hp, if_true, and_self]

theorem adcReleased_of_job {a : AdcCapture} (ha : s.adc.cap = some a) (hw : s.watch? a.watch = some w) (hj : w.job = some j)
    (hs : j.inSpring = false) : ∃ t, adcReleased s = t ∧ watchFaulted s t a.watch 0x2B ∧ t.adc.cap = none ∧ t.adc.iepeJob = 0 ∧
      t.sys = (s.unitFreed .adc).sys := by
  obtain ⟨u, x, hx, hc, hu, he⟩ := watchFatalAt_eq (s := s.unitFreed .adc) hw hj hs 16 0 0x2B 0 none
  have hadc := adc_jobClosed (x := x) (congrArg Adc.cap hu.adc |>.trans ha) hx
  refine ⟨u.jobClosed x, ?_, ?_, hadc.1, hadc.2, ?_⟩
  · simp only [adcReleased, ha]
    exact he
  · have hfault := watchFaulted_jobClosed hu
    rwa [hx, hc] at hfault
  · rw [jobClosed_frame]
    exact hu.sys

/-! ### The Stem engine (R351) -/

/-- The engine is free: of its requests only the adaptation steps stay (log 42). -/
def State.stemFreed (s : State) : State :=
  { s.unitFreed .stem with stem := { s.stem with queue := s.stem.queue.filter (fun r => r.kind = .adapt), lineMem := [] } }

/-- A request completes with ABORTED; an adaptation step has no job to tell. -/
def abortRequest (s : State) (r : StemReq) : State :=
  match r.kind with
  | .head c _ _ => headAborted r.watch c s
  | .spectral _ _ => headAborted r.watch none s
  | .adapt => s

/-- With no group request taken and no frame in readout, the requests of the queue complete with ABORTED. -/
theorem stemReleased_eq (hg : ∀ w ∈ s.watches, ∀ j, w.job = some j → j.groupReqs = [])
    (hp : (s.stem.queue.foldl abortRequest s.stemFreed).pix.cap = none) :
    stemReleased s = s.stem.queue.foldl abortRequest s.stemFreed := by
  have hnil : s.watches.flatMap (fun w => (w.job.getD {}).groupReqs.map (fun r => (w.entry.num, r.core))) = [] := by
    refine List.flatMap_eq_nil_iff.mpr fun w hw => ?_
    cases hj : w.job with
    | none => rfl
    | some j => simp [hg w hw j hj]
  have he : stemReleased s = (match (s.stem.queue.foldl abortRequest s.stemFreed).pix.cap with
      | some c => if c.reading.isSome then watchFatal c.watch 0x2B 0 none (s.stem.queue.foldl abortRequest s.stemFreed)
        else s.stem.queue.foldl abortRequest s.stemFreed
      | none => s.stem.queue.foldl abortRequest s.stemFreed) := by
    unfold stemReleased
    simp only
    rw [hnil]
    rfl
  rw [he, hp]

theorem foldl_abortRequest_of_adapt {l : List StemReq} (h : ∀ r ∈ l, r.kind = .adapt) (s : State) : l.foldl abortRequest s = s := by
  induction l with
  | nil => rfl
  | cons r l ih =>
    have hr : abortRequest s r = s := by rw [abortRequest, h r List.mem_cons_self]
    rw [List.foldl_cons, hr, ih fun r hr => h r (List.mem_cons_of_mem _ hr)]

theorem stemReleased_of_adapt (hg : ∀ w ∈ s.watches, ∀ j, w.job = some j → j.groupReqs = []) (hp : s.pix.cap = none)
    (hq : ∀ r ∈ s.stem.queue, r.kind = .adapt) :
    stemReleased s = { s.unitFreed .stem with stem := { s.stem with lineMem := [] } } := by
  have hf := foldl_abortRequest_of_adapt hq s.stemFreed
  rw [stemReleased_eq hg (by rw [hf]; exact hp), hf, State.stemFreed,
    List.filter_eq_self.mpr fun r hr => by simpa using hq r hr]

theorem stemReleased_of_request {kind : StemKind} {a e : Nat} (hg : ∀ w ∈ s.watches, ∀ j, w.job = some j → j.groupReqs = [])
    (hp : s.pix.cap = none) (hq : s.stem.queue = [{ watch := n, kind := kind }]) (hk : kind = .head none a e ∨ kind = .spectral a e)
    (hw : s.watch? n = some w) (hj : w.job = some j) (hs : j.inSpring = false) : ∃ t, stemReleased s = t ∧
      watchFaulted s t n 0x2B ∧ t.stem.queue = [] ∧ t.stem.aborts = min 255 (s.stem.aborts + 1) := by
  let x : State := { s.stemFreed with stem := { s.stemFreed.stem with aborts := satAdd s.stem.aborts 1 255 } }
  have habort : s.stem.queue.foldl abortRequest s.stemFreed = watchFatal n 0x2B 0 none x := by
    rw [hq]
    obtain rfl | rfl := hk <;> rfl
  obtain ⟨u, y, rfl, hc, hu, he⟩ := watchFatal_eq (s := x) hw hj hs 0x2B 0 none
  have hpix : (u.jobClosed y).pix.cap = none := by
    have hpu : u.pix.cap = none := (congrArg Pix.cap hu.pix).trans hp
    have hd : (u.jobClosed y).pix = (dropInputs y.watch u).pix := rfl
    rw [hd, dropInputs_eq, dropAdc_frame, State.dropPix, hpu]
    exact hpu
  have hstem : u.stem = x.stem := by rw [hu.frame]
  have hqueue : (u.jobClosed y).stem = { x.stem with queue := x.stem.queue.filter (fun r => r.watch ≠ y.watch || r.kind = .adapt) } := by
    rw [State.jobClosed, dropInputs_frame, ← hstem]
    rfl
  have hnil : x.stem.queue = [] := by
    change s.stem.queue.filter (fun r => r.kind = .adapt) = []
    rw [hq]
    obtain rfl | rfl := hk <;> rfl
  refine ⟨u.jobClosed y, ?_, ?_, ?_, ?_⟩
  · rw [stemReleased_eq hg (by rw [habort, he]; exact hpix), habort, he]
  · have hfault := watchFaulted_jobClosed hu
    rwa [hc] at hfault
  · rw [hqueue, hnil]
    rfl
  · rw [hqueue]
    rfl

/-! ### A core (R168, R617) -/

/-- Core c has lost its state and is released. -/
def State.coreFreed (c : Fin 4) (s : State) : State :=
  (s.modCore c (fun k => { coreOff k with point := k.point, powered := k.powered })).unitFreed (.core c)

theorem core_coreFreed_same (s : State) (c : Fin 4) : (s.coreFreed c).core c =
    { coreOff (s.core c) with point := (s.core c).point, powered := (s.core c).powered } := by
  fin_cases c <;> rfl

theorem core_coreFreed_ne (s : State) {c d : Fin 4} (h : d ≠ c) : (s.coreFreed c).core d = s.core d := by
  have hf : (s.coreFreed c).core d = (s.modCore c (fun k => { coreOff k with point := k.point, powered := k.powered })).core d := by
    fin_cases d <;> rfl
  rw [hf]
  exact core_setCore_ne s h _

/-- A core that owes no write, the last in partial reset: its release closes a job that was stopped (R617). -/
theorem coreReleased_eq (hp : (s.core c).pend = []) (ho : ∀ d, d ≠ c → ResetUnit.core d ∉ s.sys.resetting) : coreReleased c s =
    match s.stopping with
    | some x => finishStop x { s.coreFreed c with stopping := none }
    | none => s.coreFreed c := by
  have hlast : (s.coreFreed c).coresResetting = false := by
    refine List.any_eq_false.mpr fun y hy => ?_
    obtain ⟨hmem, hne⟩ := List.mem_filter.mp hy
    rw [sys_modCore] at hmem
    cases y with
    | core d =>
      have hd : d ≠ c := fun h => by simp [h] at hne
      exact absurd hmem (ho d hd)
    | stem | adc | port => exact Bool.false_ne_true
  have hstop : (s.coreFreed c).stopping = s.stopping := stopping_modCore s c _
  unfold coreReleased
  rw [hp]
  change (if (s.coreFreed c).coresResetting then _ else _) = _
  rw [hlast, if_neg Bool.false_ne_true]
  change (match (s.coreFreed c).stopping with | some x => finishStop x { s.coreFreed c with stopping := none } | none => s.coreFreed c) = _
  rw [hstop]

theorem coreReleased_of_stop {x : Stop} (hp : (s.core c).pend = []) (ho : ∀ d, d ≠ c → ResetUnit.core d ∉ s.sys.resetting)
    (hx : s.stopping = some x) (hw : s.watch? x.watch = some w) (hj : w.job = some j) (hs : j.inSpring = true)
    (hc : s.tide.coreEn = true) (hb : s.tokensOk) : ∃ t, coreReleased c s = t ∧ watchFaulted s t x.watch x.code ∧ coresOff t ∧
      t.stopping = none ∧ t.tide.coreEn = false ∧ t.tide.power = .slack := by
  let y : State := { s.coreFreed c with stopping := none }
  have hwatches : y.watches = s.watches := watches_modCore s c _
  have htide : y.tide = s.tide := tide_modCore s c _
  have hyb : y.tokensOk := fun d => by
    have hd : y.core d = (s.coreFreed c).core d := by fin_cases d <;> rfl
    rw [hd]
    by_cases h : d = c
    · rw [h, core_coreFreed_same]
      rfl
    · rw [core_coreFreed_ne s h]
      exact hb d
  obtain ⟨u, hu, he⟩ := finishStop_eq (s := y) ((watch?_of_watches hwatches _).trans hw)
  have hframe := jobClosed_frame x u
  generalize hv : u.jobClosed x = v at he hframe
  have hl := springLeft_leaveSpring (s := v) (by rw [hframe, ← hc, ← htide, ← hu.tide]) fun d => by
    have hd : v.core d = u.core d := by rw [hframe]; fin_cases d <;> rfl
    rw [hd, hu.core]
    exact hyb d
  refine ⟨leaveSpring v, ?_, ?_, hl.off, ?_, hl.coreEn, hl.power⟩
  · rw [coreReleased_eq hp ho, hx]
    refine he.trans (if_pos ?_)
    rw [hj]
    exact hs
  · have hfault := watchFaulted_of_same (hv ▸ watchFaulted_jobClosed hu) hl.watches hl.err
    simpa [watchFaulted, watch?_of_watches hwatches] using hfault
  · obtain ⟨_, _, _, h⟩ := hl.frame
    rw [h]

/-! ### A port (R168, R620) -/

theorem powerUp_frame (x : Port) : x.powerUp = { x with sent := x.powerUp.sent, disparity := x.powerUp.disparity } := by
  unfold Port.powerUp
  split <;> rfl

/-- A queued packet no longer owes the units of what came through port p (R572). -/
def forgive (p : PortId) (e : Queued) : Queued := if e.owes = some p then { e with owes := none } else e

theorem portReleased_frame (p : PortId) (s : State) :
    (portReleased p s).sys = (s.unitFreed (.port p)).sys ∧ (portReleased p s).watches = s.watches ∧
    (portReleased p s).cw.msgLost = min 255 (s.cw.msgLost + ((s.port p).retry.filter (fun r => r.2.type == 0xC)).length) := by
  have hm : msgCount ((s.port p).retry.map (·.2)) = ((s.port p).retry.filter (fun r => r.2.type == 0xC)).length := by
    simp [msgCount, List.filter_map, Function.comp_def]
  rw [← hm]
  cases p <;> exact ⟨rfl, rfl, rfl⟩

theorem port_portReleased_same (p : PortId) (s : State) : ((portReleased p s).port p).state = .training ∧
    ((portReleased p s).port p).retry = [] ∧ ((portReleased p s).port p).credits = [16, 16, 16] := by
  obtain ⟨y, hr, hc, he⟩ : ∃ y : State, (y.port p).retry = [] ∧ (y.port p).credits = [16, 16, 16] ∧
      portReleased p s = startTraining p false y := ⟨_, by cases p <;> rfl, by cases p <;> rfl, rfl⟩
  rw [he, startTraining, State.modPort, port_setPort, powerUp_frame]
  exact ⟨rfl, hr, hc⟩

theorem port_portReleased_ne {p q : PortId} (h : q ≠ p) (s : State) :
    (portReleased p s).port q = { s.port q with queue := (s.port q).queue.map (forgive p) } := by
  cases p <;> cases q
  case up.up | dn.dn => exact absurd rfl h
  all_goals rfl

end

/-- Settles O47: a release is the release of its unit, and a drain that takes too long is a chip-fatal error of code 3. -/
theorem partialResetsEndAndDrainsTimeOut : Obligations.PartialResetsEndAndDrainsTimeOut := by
  unfold Obligations.PartialResetsEndAndDrainsTimeOut
  intro s hl
  have hrelease {u : ResetUnit} (hu : u ∈ s.sys.resetting) {t x : State} (h : partialResetRelease u s = if u ∈ s.sys.resetting then x else s)
      (ht : x = t) : exec (.partialResetRelease u) s = .next t :=
    (next_inService hl _).trans (congrArg _ (h.trans ((if_pos hu).trans ht)))
  refine ⟨fun hr => ⟨_, (next_inService hl _).trans (congrArg _ (stemBufferError_of_runs hr)), rfl,
      fun h4 => (getD_modAt_self h4 _ _).trans rfl⟩,
    fun u hu => ⟨?_, fun hrep => ?_⟩, fun u hu hi hq hwf => ?_, fun hu => ⟨fun hc => ?_, fun a w j hok hc hw hj hs => ?_⟩,
    fun hu hg hp hq => ?_, fun n a e kind w j hu hok hq hk hg hp hw hj hs => ?_, fun c hu hp ho => ⟨fun hstop => ?_,
      fun x w j hok hx hw hj hs hc hb => ?_⟩, fun p hu => ?_⟩
  · exact (next_inService hl _).trans (congrArg _ (if_neg hu))
  · refine (next_inService hl _).trans (congrArg _ (if_neg ?_))
    simp [hu, hrep]
  · obtain ⟨d, hd, hsame⟩ := chipFatal_of_idle hl hi hq hwf 3 (fatalSource 3)
    refine ⟨s.fatalReset 3 d, (next_inService hl _).trans (congrArg _ ?_), rfl, hsame⟩
    rw [drainTimeout, if_pos (by simpa using hu), hd]
  · exact hrelease hu rfl (adcReleased_of_free hc)
  · obtain ⟨t, ht, hfault, hcap, hiepe, hsys⟩ := adcReleased_of_job hc hw hj hs
    exact ⟨t, hrelease hu rfl ht, hfault, hcap, hiepe, congrArg Sys.resetting hsys⟩
  · exact hrelease hu rfl (stemReleased_of_adapt hg hp hq)
  · obtain ⟨t, ht, hfault⟩ := stemReleased_of_request hg hp hq hk hw hj hs
    exact ⟨t, hrelease hu rfl ht, hfault⟩
  · have he := coreReleased_eq hp ho
    rw [hstop] at he
    refine ⟨_, hrelease hu rfl he, ?_⟩
    rw [core_coreFreed_same]
    refine ⟨?_, rfl, rfl, rfl, rfl, rfl, rfl, fun d hd => core_coreFreed_ne s hd, harbour_modCore s c _, watches_modCore s c _,
      host_modCore s c _⟩
    fin_cases c <;> rfl
  · obtain ⟨t, ht, hrest⟩ := coreReleased_of_stop hp ho hx hw hj hs hc hb
    exact ⟨t, hrelease hu rfl ht, hrest⟩
  · obtain ⟨hsys, hwatches, hmsg⟩ := portReleased_frame p s
    obtain ⟨hstate, hretry, hcredits⟩ := port_portReleased_same p s
    exact ⟨_, hrelease hu rfl rfl, hsys, hstate, hretry, hcredits, hmsg, fun q hq => port_portReleased_ne hq s, hwatches⟩

end Sys2Proof.Machine
end

