-- ==== Sys2Proof/Proofs/BootReports.lean ====
section
/-! PROOF. Proofs/BootReports.lean: what the release of a record can do, what the steps of the boot leave unchanged, the entry into
Neap, and a failed boot (R152, R212, R639, R645, R650). -/
namespace Sys2Proof.Machine
open Sys2Proof

section
variable {s t u : State} {d : Draft} {n : Nat}

/-! ### The release of a record (R622, R639, R645) -/

/-- A report changes the Host port, its fresh bits, and what it logs; x is the device once the sequence number is taken. -/
def reported (x t : State) : Prop :=
  t = { x with host := t.host, fresh := t.fresh, err := t.err, strand := { x.strand with logQueue := t.strand.logQueue } }

theorem reported_countMerge (v : Nat) (a b : Entry) (s : State) : reported s (countMerge v a b s) ∧
    (countMerge v a b s).host.backlog = s.host.backlog ∧ (countMerge v a b s).host.outbox = s.host.outbox ∧
    (countMerge v a b s).host.held = s.host.held := by
  unfold countMerge
  dsimp only
  split
  · exact ⟨rfl, rfl, rfl, rfl⟩
  · obtain ⟨e, h⟩ | ⟨e, h⟩ := logEntry_cases { cls := 6, watch := some v, seq := leAt a.bytes 4 2 }
      { s with host := { s.host with lostRecords := satAdd s.host.lostRecords (b2n (!a.isLost) + b2n (!b.isLost)) 0xFFFF,
                                     lostMerges := satAdd s.host.lostMerges 1 0xFFFF } } <;>
      exact h ▸ ⟨rfl, rfl, rfl, rfl⟩

/-- The record of draft d stands in the backlog, which keeps within its size. -/
structure Backlogged (d : Draft) (s t : State) : Prop where
  frame : reported (takeSeq d.watch s).2 t
  outbox : t.host.outbox = s.host.outbox
  held : t.host.held = s.host.held
  some : t.host.backlog ≠ []
  length : s.host.backlog.length ≤ 512 → t.host.backlog.length ≤ 512

theorem backlogged_of_merge {back : List Entry} (hne : back ≠ []) (hlen : s.host.backlog.length ≤ 512 → back.length ≤ 512) :
    Backlogged d s { (takeSeq d.watch s).2 with host := { (takeSeq d.watch s).2.host with backlog := back } } :=
  ⟨rfl, host_outbox_takeSeq _ _, host_held_takeSeq _ _, hne, hlen⟩

theorem backlogged_of_length {back : List Entry} (hfull : ¬s.host.backlog.length < 512)
    (hlen : back.length = s.host.backlog.length) :
    Backlogged d s { (takeSeq d.watch s).2 with host := { (takeSeq d.watch s).2.host with backlog := back } } :=
  backlogged_of_merge (List.ne_nil_of_length_pos (by omega)) hlen.trans_le

theorem Backlogged.countMerge (h : Backlogged d s t) (v : Nat) (a b : Entry) : Backlogged d s (countMerge v a b t) := by
  obtain ⟨hf, hb, ho, hh⟩ := reported_countMerge v a b t
  refine ⟨?_, ho.trans h.outbox, hh.trans h.held, hb ▸ h.some, fun hs => hb ▸ h.length hs⟩
  rw [reported, hf, h.frame]

/-- A record goes into the Outbox, where the backlog is empty, or into the backlog. -/
theorem placeRecord_cases (h : placeRecord d s = some t) :
    (s.host.backlog = [] ∧ s.host.outbox.length < 64 ∧ t = pushOutbox (numberRecord d false s).1 (takeSeq d.watch s).2) ∨
    Backlogged d s t := by
  have hback : (takeSeq d.watch s).2.host.backlog = s.host.backlog := host_backlog_takeSeq d.watch s
  unfold placeRecord at h
  split at h
  · next hroom =>
    cases h
    simp only [Bool.and_eq_true, decide_eq_true_eq, List.isEmpty_iff] at hroom
    exact .inl ⟨hroom.1, hroom.2, rfl⟩
  refine .inr ?_
  split at h
  · next hroom =>
    cases h
    refine backlogged_of_merge (List.append_ne_nil_of_right_ne_nil _ (List.cons_ne_nil _ _)) fun _ => ?_
    exact (List.length_append.trans (congrArg (·.length + 1) hback)).trans_le hroom
  · next hfull =>
    split at h
    · cases h
    · next v hv =>
      cases h
      have hlen : ∀ lost r : Entry, ∀ l, l = s.host.backlog → r.watch = d.watch →
          (if (s.host.backlog.filter (fun e => e.watch == some v)).length = 1 then replaceFirst v lost l
            else mergeFirstTwo v lost l ++ [r]).length = s.host.backlog.length := by
        rintro lost r _ rfl hr
        exact length_merged (hr ▸ victim_has_two hv)
      exact Backlogged.countMerge (backlogged_of_length hfull (hlen _ _ _ hback rfl)) _ _ _

/-- A record is released into the Outbox or the backlog, or waits behind those held (R645). -/
theorem release_cases (d : Draft) (s : State) :
    (s.host.held = [] ∧ s.host.backlog = [] ∧ s.host.outbox.length < 64 ∧
      release d s = pushOutbox (numberRecord d false s).1 (takeSeq d.watch s).2) ∨
    (s.host.held = [] ∧ Backlogged d s (release d s)) ∨
    ∃ l, l ≠ [] ∧ release d s = { s with host := { s.host with held := l } } := by
  unfold release
  split
  · next hh =>
    rw [List.isEmpty_iff] at hh
    split
    · next h =>
      obtain ⟨hb, ho, he⟩ | hb := placeRecord_cases h
      · exact .inl ⟨hh, hb, ho, he⟩
      · exact .inr (.inl ⟨hh, hb⟩)
    · exact .inr (.inr ⟨_, List.cons_ne_nil _ _, rfl⟩)
  · exact .inr (.inr ⟨_, List.append_ne_nil_of_right_ne_nil _ (List.cons_ne_nil _ _), rfl⟩)

/-- With room the record goes into the Outbox. -/
theorem outbox_release_of_room (d : Draft) (hh : s.host.held = []) (hb : s.host.backlog = []) (ho : s.host.outbox.length < 64) :
    (release d s).host.outbox = s.host.outbox ++ [(numberRecord d false s).1] := by
  rw [release, hh, List.isEmpty_nil, if_pos rfl, placeRecord_of_room d hb ho]
  exact congrArg (· ++ _) (outbox_numberRecord d false s)

/-- A record that is neither held nor in the backlog stands in the Outbox. -/
theorem outbox_release_of_empty (d : Draft) (hh : (release d s).host.held = []) (hb : (release d s).host.backlog = []) :
    (release d s).host.outbox = s.host.outbox ++ [(numberRecord d false s).1] := by
  obtain ⟨h1, h2, h3, -⟩ | ⟨-, h⟩ | ⟨l, hl, h⟩ := release_cases d s
  · exact outbox_release_of_room d h1 h2 h3
  · exact absurd hb h.some
  · exact absurd ((congrArg (·.host.held) h).symm.trans hh) hl

/-- The record of no watch leaves the watches too. -/
theorem reported_release (hd : d.watch = none) (s : State) : reported s (release d s) := by
  have hx : (takeSeq d.watch s).2 = { s with host := (takeSeq d.watch s).2.host } := by rw [hd]; rfl
  obtain ⟨-, -, -, h⟩ | ⟨-, h⟩ | ⟨l, -, h⟩ := release_cases d s
  · rw [h, hx]
    rfl
  · have hf := h.frame
    rw [reported, hx] at hf
    exact hf
  · rw [h]
    rfl

theorem outbox_release (d : Draft) (s : State) : ∃ l, (release d s).host.outbox = s.host.outbox ++ l := by
  obtain ⟨h1, h2, h3, -⟩ | ⟨-, h⟩ | ⟨l, -, h⟩ := release_cases d s
  · exact ⟨_, outbox_release_of_room d h1 h2 h3⟩
  · exact ⟨[], by rw [h.outbox, List.append_nil]⟩
  · exact ⟨[], by rw [h, List.append_nil]⟩

theorem outboxBalance_iff : s.outboxBalance = true ↔ s.host.outbox.length ≤ 64 ∧ s.host.backlog.length ≤ 512 := by
  simp [State.outboxBalance]

theorem outboxBalance_release (d : Draft) (hs : s.outboxBalance = true) : (release d s).outboxBalance = true := by
  obtain ⟨ho, hb⟩ := outboxBalance_iff.mp hs
  rw [outboxBalance_iff]
  obtain ⟨h1, h2, h3, h⟩ | ⟨-, h⟩ | ⟨l, -, h⟩ := release_cases d s
  · refine ⟨?_, ?_⟩
    · rw [outbox_release_of_room d h1 h2 h3]
      simpa using h3
    · have : (release d s).host.backlog = [] := by
        rw [h]
        exact (host_backlog_takeSeq d.watch s).trans h2
      simp [this]
  · exact ⟨h.outbox ▸ ho, h.length hb⟩
  · rw [h]
    exact ⟨ho, hb⟩

/-! ### The EVENT of the boot (R151, R650) -/

theorem byteAt_bootEvent (b : Bool) (cause : Nat) (x s : State) :
    byteAt (numberRecord (x.bootEvent cause) b s).1 16 = cause % 256 := by
  have he : (numberRecord (x.bootEvent cause) b s).1 = recordHead none 6 false b false none (takeSeq none s).1 s.sys.tick 0 ++
      padTo (x.bootEvent cause).plain 16 := by
    simp only [recordHead, ← List.append_assoc]
    rfl
  rw [he, byteAt, List.getD_append_right _ _ _ _ (by rw [length_recordHead]), length_recordHead, getD_padTo _ (by decide)]
  simp [State.bootEvent, noWatchEvent, leBytes]

/-- b is the EVENT of cause BOOT or BOOT_FAIL. -/
theorem bootEvent_record (cause : Nat) (hc : cause < 256) (x s : State) :
    (numberRecord (x.bootEvent cause) false s).1.length = 32 ∧ byteAt (numberRecord (x.bootEvent cause) false s).1 0 = 6 ∧
      byteAt (numberRecord (x.bootEvent cause) false s).1 16 = cause := by
  obtain ⟨hl, ht, -⟩ := recordOf_numberRecord (x.bootEvent cause) false s
  exact ⟨hl, ht, (byteAt_bootEvent false cause x s).trans (Nat.mod_eq_of_lt hc)⟩

/-! ### The entry into Neap (R84, R87, R621) -/

/-- With the Outbox in its bounds the entry changes the Tide, the banks that are not retained and the measures of the boot. -/
theorem neapEntry_frame (hb : s.outboxBalance = true) : neapEntry s = { s with
    harbour := (neapEntry s).harbour,
    tide := { (neapEntry s).tide with block := s.tide.block },
    sys := { (neapEntry s).sys with stage := s.sys.stage, fail := s.sys.fail, alarm := s.sys.alarm, wdtArmed := s.sys.wdtArmed } } := by
  unfold neapEntry
  rw [if_neg (by simp [hb])]
  split <;> rfl

/-- The device is in Neap, or what keeps it out still does. -/
theorem power_neapEntry (hb : s.outboxBalance = true) : (neapEntry s).tide.power = .neap ∨ (neapEntry s).mayNeap = false := by
  by_cases hm : s.mayNeap = true
  · refine .inl ?_
    rw [neapEntry, if_neg (by simp [hb]), if_pos hm]
  · refine .inr ?_
    rw [neapEntry, if_neg (by simp [hb]), if_neg hm]
    exact Bool.eq_false_iff.mpr hm

/-! ### A failed boot (R152, R212) -/

theorem logEntry_frame (e : LogInfo) (s : State) : logEntry e s = { s with
    err := (logEntry e s).err, strand := { s.strand with logQueue := (logEntry e s).strand.logQueue } } := by
  obtain ⟨r, h⟩ | ⟨r, h⟩ := logEntry_cases e s <;> rw [h]

theorem raiseAlarmAt_frame (source b : Nat) (s : State) : raiseAlarmAt source b s = { s with
    sys := { s.sys with alarm := s.sys.alarm ||| BitVec.ofNat 11 (2 ^ b) },
    host := { s.host with irq := (raiseAlarmAt source b s).host.irq }, fresh := (raiseAlarmAt source b s).fresh,
    err := (raiseAlarmAt source b s).err,
    strand := { s.strand with logQueue := (raiseAlarmAt source b s).strand.logQueue } } := by
  rw [raiseAlarmAt_eq, logEntry_frame]

theorem getLsbD_bootWrLocks {lc r : Nat} (hr : r < 8) (h : if r = 0 then lc = 6 else regionOpen r lc = false) :
    (bootWrLocks lc).getLsbD r = true := by
  have hf : bootWrLocks lc = ((List.range 8).filter fun r => if r = 0 then lc == 6 else !regionOpen r lc).foldl
      (fun m n => m ||| BitVec.ofNat 8 (2 ^ n)) 0 := (List.foldl_filter ..).symm
  rw [hf, getLsbD_foldl_bits]
  by_cases h0 : r = 0
  · simp_all
  · simp_all

/-- The device once a boot failure has set its locks, its code and its alarm. -/
def State.failing (code : Nat) (s : State) : State :=
  logEntry { cls := 4, source := failSource code, code := code }
    (raiseAlarmAt (failSource code) 0 { setLocks s with sys := { s.sys with fail := BitVec.ofNat 8 code } })

theorem failBoot_eq (code : Nat) (s : State) :
    failBoot code s = neapEntry (release ((s.failing code).bootEvent 2) (s.failing code)) := rfl

theorem failing_frame (code : Nat) (s : State) : s.failing code = { s with
    sys := { s.sys with fail := BitVec.ofNat 8 code, alarm := s.sys.alarm ||| 1 }, otp := (setLocks s).otp,
    host := { s.host with irq := (s.failing code).host.irq }, fresh := (s.failing code).fresh, err := (s.failing code).err,
    strand := { s.strand with logQueue := (s.failing code).strand.logQueue } } := by
  rw [State.failing, logEntry_frame, raiseAlarmAt_frame]
  rfl

/-- A failed boot locks, reports and enters Neap where it may; of the image, the watches and the units nothing changes. -/
theorem failBoot_frame (code : Nat) (hb : s.outboxBalance = true) : failBoot code s = { s with
    sys := { (failBoot code s).sys with stage := s.sys.stage, fail := BitVec.ofNat 8 code, alarm := s.sys.alarm ||| 1,
                                        wdtArmed := s.sys.wdtArmed },
    otp := (setLocks s).otp, tide := (failBoot code s).tide, harbour := (failBoot code s).harbour,
    host := (failBoot code s).host, fresh := (failBoot code s).fresh, err := (failBoot code s).err,
    strand := { s.strand with logQueue := (failBoot code s).strand.logQueue } } := by
  have hr := reported_release (d := (s.failing code).bootEvent 2) rfl (s.failing code)
  have hf := failing_frame code s
  have hbal : (s.failing code).outboxBalance = true := by
    rw [hf]
    exact hb
  have hn := neapEntry_frame (outboxBalance_release ((s.failing code).bootEvent 2) hbal)
  rw [failBoot_eq, hn, hr, hf]

theorem alarm_failBoot (code : Nat) (hb : s.outboxBalance = true) : (failBoot code s).sys.alarm.getLsbD 0 = true := by
  have ha : (failBoot code s).sys.alarm = s.sys.alarm ||| 1 := congrArg (·.sys.alarm) (failBoot_frame code hb)
  simp [ha]

theorem outbox_failBoot (code : Nat) (hb : s.outboxBalance = true) (hh : s.host.held = []) (hk : s.host.backlog = [])
    (ho : s.host.outbox.length < 64) : ∃ b, (failBoot code s).host.outbox = s.host.outbox ++ [b] ∧ b.length = 32 ∧ byteAt b 0 = 6 ∧
      byteAt b 16 = 2 := by
  let x := s.failing code
  have hf : x = _ := failing_frame code s
  have hhost : x.host = _ := congrArg (·.host) hf
  have hbal : x.outboxBalance = true := by rwa [State.outboxBalance, hhost]
  have hn := congrArg (·.host.outbox) (neapEntry_frame (outboxBalance_release (x.bootEvent 2) hbal))
  have hr := outbox_release_of_room (s := x) (x.bootEvent 2) (by rw [hhost]; exact hh) (by rw [hhost]; exact hk)
    (by rw [hhost]; exact ho)
  refine ⟨_, (hn.trans hr).trans ?_, bootEvent_record 2 (by decide) x x⟩
  rw [hhost]

/-- The boot fails as R152 has it. -/
theorem bootFails_failBoot (code : Nat) (hb : s.outboxBalance = true) : bootFails s (failBoot code s) code := by
  have hf := failBoot_frame code hb
  have hl : (failBoot code s).otp.lockWr = s.otp.lockWr ||| bootWrLocks s.otp.lc := congrArg (·.otp.lockWr) hf
  have hi : (failBoot code s).image = s.image := congrArg (·.image) hf
  refine ⟨congrArg (·.sys.fail) hf, congrArg (·.sys.stage) hf, alarm_failBoot code hb, congrArg (·.otp.lockRd) hf,
    congrArg (·.otp.cells) hf, congrArg (·.otp.cellsHigh) hf, fun r hr h => ?_, fun ⟨hh, hk, ho⟩ => outbox_failBoot code hb hh hk ho, ?_,
    congrArg (·.watches) hf, fun c => (congrArg (·.core c) hf).trans ?_, congrArg (·.pix) hf, congrArg (·.adc) hf,
    congrArg (·.stem) hf, congrArg (·.cw) hf, congrArg (·.strand.data) hf⟩
  · rw [hl, BitVec.getLsbD_or, getLsbD_bootWrLocks hr h, Bool.or_true]
  · rw [hi]
  · fin_cases c <;> rfl

/-- The boot of x fails as that of s does, where they differ in what a failure may change. -/
theorem bootFails_of_same {x : State} {code : Nat} (hx : x = { s with
      sys := { x.sys with stage := s.sys.stage }, harbour := x.harbour, image := { s.image with copied := x.image.copied } })
    (h : bootFails x t code) : bootFails s t code := by
  rw [hx] at h
  obtain ⟨h1, h2, h3, h4, h5, h6, h7, h8, h9, h10, hc, h11⟩ := h
  refine ⟨h1, h2, h3, h4, h5, h6, h7, h8, h9, h10, fun c => (hc c).trans ?_, h11⟩
  fin_cases c <;> rfl

end
end Sys2Proof.Machine
end

