-- ==== Sys2Proof/Proofs/BootImage.lean ====
section
/-! PROOF. Proofs/BootImage.lean: the manifest and the records of the image, and their second copies (R147, R163, R233, R235, R251,
R761). -/
namespace Sys2Proof.Machine
open Sys2Proof

section
variable {s t : State} {m : Manifest} {e : MfEntry} {r : PlacedRecord} {b : List Byte} {off len il clk k c : Nat}

theorem atStage_of_bootAt {st : BitVec 8} (h : s.bootAt st) : s.atStage st = true := by
  obtain ⟨-, hs, hf, -⟩ := h
  simp [State.atStage, hs, hf]

theorem live_of_bootAt {st : BitVec 8} (h : s.bootAt st) : s.live := h.1

theorem balance_of_bootAt {st : BitVec 8} (h : s.bootAt st) : s.outboxBalance = true := by
  obtain ⟨-, -, -, hb⟩ := h
  exact hb

/-! ### The manifest (R238, R251, R761) -/

theorem manifestGood_of_fits (hv : bitN (byteAt b 14) s.variant = true) (hs : byteAt b 15 ≤ 0x0A) :
    manifestGood b off il k s = { s with
      sys := { s.sys with stage := 0x06 }, otp := { s.otp with bootSlot := k },
      image := { s.image with manifest := some (Manifest.read b off il), rereadDue := false } } :=
  if_pos (Bool.and_eq_true _ _ |>.mpr ⟨hv, decide_eq_true hs⟩)

theorem manifestFirst_of_error (h : s.bootAt 0x05) (hh : s.image.header = some (off, len, il, clk)) (hr : s.image.rereadDue = false)
    (hc : s.manifestCheck (padTo b len) off len il = .error c) :
    manifestFirst b s = { s with image := { s.image with rereadDue := true } } := by
  simp only [manifestFirst, hh, atStage_of_bootAt h, hr, hc, Bool.not_false, Bool.and_self, if_true]

theorem manifestFirst_of_ok (h : s.bootAt 0x05) (hh : s.image.header = some (off, len, il, clk)) (hr : s.image.rereadDue = false)
    (hc : s.manifestCheck (padTo b len) off len il = .ok k) : manifestFirst b s = manifestGood (padTo b len) off il k s := by
  simp only [manifestFirst, hh, atStage_of_bootAt h, hr, hc, Bool.not_false, Bool.and_self, if_true]

theorem manifestSecond_of_error (h : s.bootAt 0x05) (hh : s.image.header = some (off, len, il, clk)) (hr : s.image.rereadDue = true)
    (hc : s.manifestCheck (padTo b len) off len il = .error c) : manifestSecond b s = failBoot c s := by
  simp only [manifestSecond, hh, atStage_of_bootAt h, hr, hc, Bool.and_self, if_true]

theorem manifestSecond_of_ok (h : s.bootAt 0x05) (hh : s.image.header = some (off, len, il, clk)) (hr : s.image.rereadDue = true)
    (hc : s.manifestCheck (padTo b len) off len il = .ok k) :
    manifestSecond b s = manifestGood (padTo b len) off il k { s with sys := { s.sys with recopied := true } } := by
  simp only [manifestSecond, hh, atStage_of_bootAt h, hr, hc, Bool.and_self, if_true]

/-! ### The lines of a failed copy (R235) -/

theorem rdBytes_congr {m m' : List Host.Cell} {a n : Nat} (h : ∀ i, i < n → rdByte m (a + i) = rdByte m' (a + i)) :
    rdBytes m a n = rdBytes m' a n := by
  refine List.ext_getElem? fun i => ?_
  by_cases hi : i < n
  · rw [getElem?_rdBytes m a hi, getElem?_rdBytes m' a hi, h i hi]
  · rw [List.getElem?_eq_none (by rw [length_rdBytes]; omega), List.getElem?_eq_none (by rw [length_rdBytes]; omega)]

theorem rdBytes_of_zero {m : List Host.Cell} {a n : Nat} (h : ∀ i, i < n → rdByte m (a + i) = 0) :
    rdBytes m a n = List.replicate n 0 := by
  refine List.ext_getElem? fun i => ?_
  by_cases hi : i < n
  · rw [getElem?_rdBytes m a hi, h i hi, List.getElem?_replicate_of_lt hi]
  · rw [List.getElem?_eq_none (by rw [length_rdBytes]; omega), List.getElem?_eq_none (by rw [List.length_replicate]; omega)]

/-- Lines lo to hi hold zero data and tag 0x0000, and the others are as they were. -/
theorem Lines.read_zero {m : Lines} (h : m.wf = true) (lo hi l : Nat) :
    (lo ≤ l ∧ l < hi → (m.zero lo hi).line l = List.replicate 64 0 ∧ (m.zero lo hi).tag l = 0 ∧ (m.zero lo hi).poisoned l = false) ∧
    (¬(lo ≤ l ∧ l < hi) → (m.zero lo hi).line l = m.line l ∧ (m.zero lo hi).tag l = m.tag l ∧
      (m.zero lo hi).poisoned l = m.poisoned l) := by
  obtain ⟨hd, ht, hp⟩ := (Lines.wf_iff m).mp h
  have hbyte : ∀ i, i < 64 → rdByte (m.zero lo hi).data (64 * l + i) = if lo ≤ l ∧ l < hi then 0 else rdByte m.data (64 * l + i) :=
    fun i hi => by
      refine (sget_sclear 0 m.data _ _ _ (keysRise_of_wf hd)).trans (if_congr ?_ rfl rfl)
      omega
  have htag : (m.zero lo hi).tag l = if lo ≤ l ∧ l < hi then 0 else m.tag l :=
    sget_sclear 0 m.tags lo hi l ((swf_iff _ _).mp ht).1
  have hpoison : (m.zero lo hi).poisoned l = if lo ≤ l ∧ l < hi then false else m.poisoned l :=
    sget_sclear false m.poison lo hi l ((swf_iff _ _).mp hp).1
  refine ⟨fun hin => ⟨rdBytes_of_zero fun i hi => ?_, ?_, ?_⟩, fun hout => ⟨rdBytes_congr fun i hi => ?_, ?_, ?_⟩⟩
  · rw [hbyte i hi, if_pos hin]
  · rw [htag, if_pos hin]
  · rw [hpoison, if_pos hin]
  · rw [hbyte i hi, if_neg hout]
  · rw [htag, if_neg hout]
  · rw [hpoison, if_neg hout]

theorem linesCleared_clearPlaced (h : s.harbour.wf = true) : linesCleared s (clearPlaced e s) e :=
  fun l => Lines.read_zero h _ _ l

/-! ### The records (R143, R147, R163, R233 to R236) -/

/-- The boot has copied n bytes more (R163). -/
def State.afterCopy (n : Nat) (s : State) : State :=
  { s with image := { s.image with copied := s.image.copied + n }, sys := { s.sys with wdtCount := s.countAfterCopy n } }

theorem copiedBytes_eq (n : Nat) (s : State) : copiedBytes n s = s.afterCopy n := by
  unfold copiedBytes State.afterCopy State.countAfterCopy restartWatchdog
  split <;> rfl

theorem nextRecord_eq (hm : s.image.manifest = some m) (hr : s.otp.rollback ≤ m.secVer) : nextRecord s = { s with
    image := { s.image with nextRecord := s.image.nextRecord + 1, recopyDue := false },
    sys := { s.sys with stage := if s.image.nextRecord + 1 < m.entries.length then s.sys.stage else 0x07 } } := by
  simp only [nextRecord, rollbackCheck, hm]
  split
  · rfl
  · exact if_neg (Nat.not_lt.mpr hr)

/-- The state with record r placed: it joins the records, a patch stands in the SRAM, and its lines stand in the Harbour. -/
def State.withRecord (r : PlacedRecord) (s : State) : State :=
  let x := { s with image := { s.image with records := s.image.records ++ [r] } }
  let x := if r.type = 1 then { x with sram := wrBytes x.sram 0 (r.body.take 0x20000) } else x
  if r.placed = 0 then x else x.putHbrLines (r.load / 64) (recordLines r)

theorem withRecord_frame (r : PlacedRecord) (s : State) : s.withRecord r = { s with
    image := { s.image with records := s.image.records ++ [r] }, sram := (s.withRecord r).sram, tide := (s.withRecord r).tide,
    harbour := (s.withRecord r).harbour } := by
  unfold State.withRecord
  dsimp only
  split <;> split <;> rfl

theorem harbour_withRecord (r : PlacedRecord) (s : State) : (s.withRecord r).harbour =
    if r.placed = 0 then s.harbour else s.harbour.putLines (r.load / 64) (recordLines r) := by
  unfold State.withRecord
  dsimp only
  split <;> split <;> rfl

theorem acceptRecord_of_good (h : s.recordGood m e b r) : acceptRecord m e b s = nextRecord (s.withRecord r) := by
  obtain ⟨hf, h9, hl, h0, h1, h2, h4, hr, hb, hp, hst, -⟩ := h
  have henc : (e.flags == 1) = false := by rw [hf]; rfl
  have hhead : (byteAt b 0 == e.type && byteAt b 1 == e.flags && leAt b 2 2 == e.id && leAt b 4 4 == e.length) = true := by
    simp [h0, h1, h2, h4, hf]
  have hbody : bodyOk m e.type false (b.drop 8) = true := by rwa [hr] at hb
  unfold acceptRecord
  simp only [henc, hhead, Bool.not_true, Bool.false_or, Bool.false_eq_true, if_false, decide_eq_true_eq, Nat.not_lt.mpr hl]
  rw [← hr, if_neg (by simp [hbody, hp, hst]), if_neg h9]
  subst hr
  rfl

/-- The boot goes on from a good record, whichever copy it is. -/
theorem recordTaken_nextRecord {n : Nat} (h : s.bootAt 0x06) (hm : s.image.manifest = some m) (hr : s.otp.rollback ≤ m.secVer)
    {x : State} (hx : x = { s.afterCopy n with sys := { (s.afterCopy n).sys with recopied := x.sys.recopied } }) :
    recordTaken s (nextRecord (x.withRecord r)) m r n ∧ (nextRecord (x.withRecord r)).sys.recopied = x.sys.recopied := by
  obtain ⟨-, hst, -, -⟩ := h
  have hw := withRecord_frame r x
  have hh := harbour_withRecord r x
  have hhx : x.harbour = s.harbour := congrArg (·.harbour) hx
  rw [nextRecord_eq (m := m) (by rw [hw, hx]; exact hm) (by rw [hw, hx]; exact hr)]
  generalize x.withRecord r = y at hw hh
  rw [hw, hx]
  refine ⟨⟨rfl, fun h0 => ?_, fun h0 => ?_, ?_, rfl, rfl, rfl, rfl⟩, rfl⟩
  · exact hh.trans ((if_pos h0).trans hhx)
  · exact hh.trans ((if_neg h0).trans (congrArg (fun y : Lines => y.putLines (r.load / 64) (recordLines r)) hhx))
  · rw [← hst]
    rfl

/-! ### RECORD_COPY and RECORD_RECOPY -/

theorem nextEntry_of_entry (hm : s.image.manifest = some m) (he : m.entries[s.image.nextRecord]? = some e) :
    s.nextEntry = some (m, e) := by
  rw [State.nextEntry, hm]
  exact congrArg (Option.map _) he

theorem recordCopy_eq (h : s.bootAt 0x06) (hn : s.nextEntry = some (m, e)) (hr : s.image.recopyDue = false) (b : List Byte) :
    recordCopy b s =
      if !entryOk m s.image.nextRecord e then failBoot 0x08 s
      else if sha256 (padTo b e.length) = e.sha then acceptRecord m e (padTo b e.length) (s.afterCopy e.length)
      else { clearPlaced e (s.afterCopy e.length) with image := { (s.afterCopy e.length).image with recopyDue := true } } := by
  simp only [recordCopy, hn, atStage_of_bootAt h, hr, copiedBytes_eq, Bool.not_false, Bool.and_self, if_true]

theorem recordRecopy_eq (h : s.bootAt 0x06) (hn : s.nextEntry = some (m, e)) (hr : s.image.recopyDue = true) (b : List Byte) :
    recordRecopy b s =
      if sha256 (padTo b e.length) = e.sha then
        acceptRecord m e (padTo b e.length)
          { s.afterCopy e.length with sys := { (s.afterCopy e.length).sys with recopied := true } }
      else failBoot 0x06 (clearPlaced e (s.afterCopy e.length)) := by
  simp only [recordRecopy, hn, atStage_of_bootAt h, hr, copiedBytes_eq, Bool.and_self, if_true]

/-- The boot goes on from a good record, whichever copy it is. -/
theorem recordTaken_acceptRecord {n : Nat} (h : s.bootAt 0x06) (hm : s.image.manifest = some m) (hg : s.recordGood m e b r)
    {x : State} (hx : x = { s.afterCopy n with sys := { (s.afterCopy n).sys with recopied := x.sys.recopied } }) :
    recordTaken s (acceptRecord m e b x) m r n ∧ (acceptRecord m e b x).sys.recopied = x.sys.recopied := by
  have hgx : x.recordGood m e b r := by
    rw [hx]
    exact hg
  obtain ⟨-, -, -, -, -, -, -, -, -, -, -, hr⟩ := hg
  rw [acceptRecord_of_good hgx]
  exact recordTaken_nextRecord h hm hr hx

end

/-- Settles O28: each copy is taken, read once more or fails the boot, by its check. -/
theorem bootTakesTheManifestAndRecords : Obligations.BootTakesTheManifestAndRecords := by
  unfold Obligations.BootTakesTheManifestAndRecords
  refine ⟨fun s b off len il clk h hh => ⟨fun hr => ⟨fun c hc => ?_, fun k hc hv hs => ?_⟩,
    fun hr => ⟨fun c hc => ?_, fun k hc hv hs => ?_⟩⟩, fun s b m e h hm he => ⟨fun hr => ⟨fun ho => ?_, fun ho hsha => ?_,
    fun r ho hsha hg => ?_⟩, fun hr => ⟨fun hsha => ?_, fun r hsha hg => ?_⟩⟩⟩
  all_goals have hlive := live_of_bootAt h
  all_goals have hb := balance_of_bootAt h
  · exact (next_inService hlive _).trans (congrArg _ (manifestFirst_of_error h hh hr hc))
  · refine (next_inService hlive _).trans (congrArg _ ?_)
    rw [manifestFirst_of_ok h hh hr hc, manifestGood_of_fits hv hs]
  · refine ⟨_, (next_inService hlive _).trans (congrArg _ (manifestSecond_of_error h hh hr hc)), bootFails_failBoot c hb⟩
  · refine (next_inService hlive _).trans (congrArg _ ?_)
    rw [manifestSecond_of_ok h hh hr hc]
    exact manifestGood_of_fits hv hs
  all_goals have hn := nextEntry_of_entry hm he
  · refine ⟨_, (next_inService hlive _).trans (congrArg _ ?_), bootFails_failBoot 0x08 hb⟩
    rw [recordCopy_eq h hn hr, if_pos (by simp [ho])]
  · have hx := recordCopy_eq h hn hr b
    rw [if_neg (by simp [ho]), if_neg hsha] at hx
    exact ⟨_, (next_inService hlive _).trans (congrArg _ hx), rfl, linesCleared_clearPlaced (s := s.afterCopy e.length)⟩
  · obtain ⟨ht, hc⟩ := recordTaken_acceptRecord (n := e.length) h hm hg (x := s.afterCopy e.length) rfl
    refine ⟨_, (next_inService hlive _).trans (congrArg _ ?_), ht, hc⟩
    rw [recordCopy_eq h hn hr, if_neg (by simp [ho]), if_pos hsha]
  · have hx := recordRecopy_eq h hn hr b
    rw [if_neg hsha] at hx
    exact ⟨_, (next_inService hlive _).trans (congrArg _ hx), bootFails_of_same rfl (bootFails_failBoot 0x06 hb)⟩
  · obtain ⟨ht, hc⟩ := recordTaken_acceptRecord (n := e.length) h hm hg
      (x := { s.afterCopy e.length with sys := { (s.afterCopy e.length).sys with recopied := true } }) rfl
    refine ⟨_, (next_inService hlive _).trans (congrArg _ ?_), ht, hc⟩
    rw [recordRecopy_eq h hn hr, if_pos hsha]

end Sys2Proof.Machine
end

