-- ==== Sys2Proof/Proofs/BootStart.lean ====
section
/-! PROOF. Proofs/BootStart.lean: the boot from the rails to the image header: the life cycle, BOOT_HOLD and the flash probe (R136, R142
to R146, R193, R213, R746). -/
namespace Sys2Proof.Machine
open Sys2Proof

section
variable {s t : State} {r : FlashReply}

/-! ### The rails and the life cycle (R136, R142, R193) -/

theorem loadKeys_frame (s : State) : loadKeys s = { s with otp := { s.otp with keys := (loadKeys s).otp.keys } } := by
  unfold loadKeys
  split <;> rfl

theorem loadKeys_of_closed (h : s.otp.lcBoot < 2 ∨ 5 ≤ s.otp.lcBoot) : loadKeys s = s := by
  refine if_neg ?_
  simp only [secretsLoad, Bool.and_eq_true, decide_eq_true_eq]
  omega

theorem loadKeys_of_open (h : 2 ≤ s.otp.lcBoot ∧ s.otp.lcBoot ≤ 4) : (loadKeys s).otp.keys = { s.otp.keys with
    dus := some (s.secret 0x080), idk := some (s.secret 0x088),
    otpRoots := (List.range 8).map (fun o => if s.ownerThere o then some (s.secret (0x090 + 8 * o)) else none) } := by
  rw [loadKeys, if_pos (by simpa [secretsLoad] using h)]

/-- The rails are good: the watchdog is armed. -/
def State.railsGood (s : State) : State := { s with sys := { s.sys with wdtArmed := true } }

theorem railWaitEnd_eq (h : s.bootAt 0x02) (hw : s.sys.wdtArmed = false) : railWaitEnd s =
    if s.otp.lcBoot = 0 || s.otp.lcBoot = 6 then failBoot 0x09 (loadKeys s.railsGood)
    else if s.holdsBoot then toStage 0x03 (loadKeys s.railsGood) else toStage 0x04 (loadKeys s.railsGood) := by
  have hf := loadKeys_frame s.railsGood
  have hlc : (loadKeys s.railsGood).otp.lcBoot = s.otp.lcBoot := congrArg (·.otp.lcBoot) hf
  have hhold : (loadKeys s.railsGood).holdsBoot = s.holdsBoot := congrArg (·.holdsBoot) hf
  rw [railWaitEnd, atStage_of_bootAt h, hw, Bool.not_false, Bool.and_self, if_pos rfl]
  change (if (loadKeys s.railsGood).otp.lcBoot = 0 || (loadKeys s.railsGood).otp.lcBoot = 6 then _ else
    if (loadKeys s.railsGood).holdsBoot then _ else _) = _
  rw [hlc, hhold]
  rfl

theorem railWaitEnd_of_stopped (h : s.bootAt 0x02) (hw : s.sys.wdtArmed = false) (hl : s.otp.lcBoot = 0 ∨ s.otp.lcBoot = 6) :
    railWaitEnd s = failBoot 0x09 s.railsGood := by
  have hlc : s.railsGood.otp.lcBoot = s.otp.lcBoot := rfl
  rw [railWaitEnd_eq h hw, if_pos (by simpa using hl), loadKeys_of_closed (by omega)]

theorem holdsBoot_iff (hl : 1 ≤ s.otp.lcBoot) :
    s.holdsBoot = true ↔ s.sys.straps.bootHold = true ∧ s.otp.lcBoot ≤ 2 := by
  have hlc : s.otp.lcBoot = 1 ∨ s.otp.lcBoot = 2 ↔ s.otp.lcBoot ≤ 2 := by omega
  simp only [State.holdsBoot, Bool.and_eq_true, Bool.or_eq_true, beq_iff_eq, hlc]

theorem railWaitEnd_of_running (h : s.bootAt 0x02) (hw : s.sys.wdtArmed = false) (hl : 1 ≤ s.otp.lcBoot ∧ s.otp.lcBoot ≤ 5) :
    railWaitEnd s = toStage (if s.sys.straps.bootHold = true ∧ s.otp.lcBoot ≤ 2 then 0x03 else 0x04) (loadKeys s.railsGood) := by
  have hstop : ¬(s.otp.lcBoot = 0 || s.otp.lcBoot = 6) = true := by
    simp only [Bool.or_eq_true, decide_eq_true_eq]
    omega
  rw [railWaitEnd_eq h hw, if_neg hstop, ← apply_ite (fun st => toStage st (loadKeys s.railsGood))]
  exact congrArg (fun st => toStage st _) (if_congr (holdsBoot_iff hl.1) rfl rfl)

/-! ### BOOT_RELEASE (R746) -/

theorem bootRelease_eq (h : s.bootAt 0x03) (ho : s.dapOpen = true) (hw : s.tap.wait = none) : dapOp 0 dapBootRelease s =
    { s with sys := { s.sys with stage := 0x04 }, tap := { s.tap with ir := .dap, status := 0, addr := 0, result := 0 } } := by
  have hd : (selectIr .dap s).dapOpen = true := ho
  have ha : (selectIr .dap s).atStage 0x03 = true := atStage_of_bootAt h
  have hn : (selectIr .dap s).tap.wait.isSome = false := by
    rw [Option.isSome_eq_false_iff, Option.isNone_iff_eq_none]
    exact hw
  simp only [dapOp, hd, hn, dapBootRelease, ha, if_true, Bool.not_true, Bool.false_eq_true, if_false]
  rfl

/-! ### FLASH_PROBE (R144 to R146, R213) -/

/-- The mode and the addressing of the flash are chosen. -/
def State.probed (r : FlashReply) (s : State) : State :=
  { s with sys := { s.sys with flashMode := flashModeOf r, addr4 := r.addr4 } }

theorem flashProbe_eq (h : s.bootAt 0x04) (hp : s.tide.pllLocked = true) (r : FlashReply) : flashProbe r s =
    if !r.present then failBoot 0x01 s else if !r.sfdpOk then failBoot 0x02 s
    else if !headerOk (padTo r.header 64) r.addr4 then failBoot 0x03 (s.probed r)
    else toStage 0x05 { s.probed r with image := { s.image with
      header := some (leAt (padTo r.header 64) 0xC 4, leAt (padTo r.header 64) 0x10 4, leAt (padTo r.header 64) 8 4,
        leAt (padTo r.header 64) 0x14 2),
      clockMhz := min (max (leAt (padTo r.header 64) 0x14 2) 25) (flashModeOf r).limit } } := by
  rw [flashProbe, atStage_of_bootAt h, hp, Bool.and_self, if_pos rfl]
  rfl

theorem limit_flashModeOf (r : FlashReply) : (flashModeOf r).limit = if r.octal then 200 else 133 := by
  unfold flashModeOf
  split
  · rfl
  · split <;> rfl

end
end Sys2Proof.Machine
end

