-- ==== Sys2Proof/Proofs/FirmwareStart.lean ====
section
/-! PROOF. Proofs/FirmwareStart.lean: the steps of the firmware from the locks to the EVENT of cause BOOT and the first Neap, and the
loop guard (R143, R151, R166, R212, R252). -/
namespace Sys2Proof.Machine
open Sys2Proof

section
variable {s t u : State} {w : Watch} {n code : Nat}

/-! ### What a step of the firmware start keeps -/

/-- What no step of the firmware start changes: the failure code, the locks, the OTP cells, the Strand store, the image registers and
the records. -/
def State.bootFixed (s : State) :=
  (s.sys.fail, s.otp.lockRd, s.otp.cells, s.otp.cellsHigh, s.strand.data, s.image.secVer, s.image.entries, s.image.imageId,
    s.image.records)

/-- What a step of the firmware start keeps: it releases records at most, and neither the watch table nor the recovery is undone. -/
structure BootStep (s t : State) : Prop where
  fixed : t.bootFixed = s.bootFixed
  recovered : s.strand.recovered = true → t.strand.recovered = true
  tableBuilt : s.tableBuilt = true → t.tableBuilt = true
  outbox : ∃ l, t.host.outbox = s.host.outbox ++ l
  balance : s.outboxBalance = true → t.outboxBalance = true

theorem BootStep.trans (h : BootStep s t) (h' : BootStep t u) : BootStep s u := by
  obtain ⟨l, hl⟩ := h.outbox
  obtain ⟨l', hl'⟩ := h'.outbox
  exact ⟨h'.fixed.trans h.fixed, h'.recovered ∘ h.recovered, h'.tableBuilt ∘ h.tableBuilt,
    ⟨l ++ l', by rw [hl', hl, List.append_assoc]⟩, h'.balance ∘ h.balance⟩

theorem BootStep.records (h : BootStep s t) : t.image.records = s.image.records := by
  have hf := h.fixed
  simp only [State.bootFixed, Prod.mk.injEq] at hf
  obtain ⟨-, -, -, -, -, -, -, -, hr⟩ := hf
  exact hr

/-- What a step that releases no record keeps besides. -/
def State.bootView (s : State) := (s.bootFixed, s.strand.recovered, s.tableBuilt, s.host.outbox, s.host.backlog)

theorem bootStep_of_view (h : t.bootView = s.bootView) : BootStep s t := by
  simp only [State.bootView, Prod.mk.injEq] at h
  obtain ⟨hf, hr, ht, ho, hb⟩ := h
  refine ⟨hf, fun h => hr.trans h, fun h => ht.trans h, ⟨[], by rw [ho, List.append_nil]⟩, fun h => ?_⟩
  rwa [State.outboxBalance, ho, hb]

theorem BootStep.refl (s : State) : BootStep s s := bootStep_of_view rfl

/-! ### The steps -/

theorem BootStep.view (h : BootStep s t) (hv : u.bootView = t.bootView) : BootStep s u := h.trans (bootStep_of_view hv)

theorem BootStep.alarmAt (h : BootStep s t) (source b : Nat) : BootStep s (raiseAlarmAt source b t) :=
  h.view (by rw [raiseAlarmAt_frame]; rfl)

theorem BootStep.alarm (h : BootStep s t) (b : Nat) : BootStep s (raiseAlarm b t) := h.alarmAt _ b

theorem bootView_takeSeq (w : Option Nat) (s : State) : (takeSeq w s).2.bootView = s.bootView := by
  obtain ⟨q, h⟩ | ⟨n, f, -, h⟩ := takeSeq_cases w s <;> rw [h] <;> rfl

theorem BootStep.release (h : BootStep s t) (d : Draft) : BootStep s (release d t) := by
  refine h.trans ?_
  have hx := bootView_takeSeq d.watch t
  simp only [State.bootView, Prod.mk.injEq] at hx
  obtain ⟨hf, hr, ht, -, -⟩ := hx
  have hrep : (Machine.release d t).bootFixed = t.bootFixed ∧ (Machine.release d t).strand.recovered = t.strand.recovered ∧
      (Machine.release d t).tableBuilt = t.tableBuilt := by
    obtain ⟨-, -, -, h⟩ | ⟨-, h⟩ | ⟨l, -, h⟩ := release_cases d t
    · rw [h]
      exact ⟨hf, hr, ht⟩
    · rw [h.frame]
      exact ⟨hf, hr, ht⟩
    · rw [h]
      exact ⟨rfl, rfl, rfl⟩
  exact ⟨hrep.1, hrep.2.1.trans, hrep.2.2.trans, outbox_release d t, outboxBalance_release d⟩

theorem BootStep.modWatch (h : BootStep s t) (n : Nat) (f : Watch → Watch) : BootStep s (t.modWatch n f) := h.view rfl
theorem BootStep.err (h : BootStep s t) (e : Errors) : BootStep s { t with err := e } := h.view rfl
theorem BootStep.putHbr (h : BootStep s t) (a : Nat) (bs : List Byte) : BootStep s (t.putHbr a bs) := h.view rfl
theorem BootStep.putHbrWhole (h : BootStep s t) (a : Nat) (bs : List Byte) : BootStep s (t.putHbrWhole a bs) := h.view rfl

theorem BootStep.faultWatch (h : BootStep s t) (n code : Nat) : BootStep s (faultWatch n code t) :=
  BootStep.err (BootStep.release (h.modWatch n _) _) _

theorem BootStep.validateWatch (h : BootStep s t) (n : Nat) : BootStep s (validateWatch n t) := by
  unfold Machine.validateWatch
  split
  · split
    · exact h.faultWatch _ _
    · exact h.view rfl
  · exact h

theorem BootStep.foldl {α : Type} {f : State → α → State} (hf : ∀ x a, BootStep s x → BootStep s (f x a)) (h : BootStep s t)
    (l : List α) : BootStep s (l.foldl f t) :=
  List.foldlRecOn (motive := BootStep s) l f h fun x hx a _ => hf x a hx

theorem BootStep.ite {c : Prop} [Decidable c] (h : BootStep s t) (h' : BootStep s u) : BootStep s (if c then t else u) := by
  split <;> assumption

theorem BootStep.buildAdapt (h : BootStep s t) (w : Watch) : BootStep s (buildAdapt w t) := by
  unfold Machine.buildAdapt
  split
  · exact h
  · have hx {a : Nat} {st : List Byte} {b : AdaptBlock} {f : Nat → Nat} {g : Watch → Watch} {l : List Nat} : BootStep s
        ((l.foldl (fun x e => x.putHbr (f e) [0]) (writeService w b false (t.putHbrWhole a st)).1).modWatch w.entry.num g) :=
      (BootStep.foldl (fun _ _ hx => hx.putHbr _ _) (BootStep.putHbrWhole (h.putHbrWhole _ _) _ _) _).modWatch _ _
    exact BootStep.ite (hx.release _) hx

/-- The watch table counts as built. -/
def State.tabled (s : State) : State := { s with tableBuilt := true }

theorem BootStep.tabled (h : BootStep s t) : BootStep s t.tabled :=
  h.trans ⟨rfl, id, fun _ => rfl, ⟨[], (List.append_nil _).symm⟩, id⟩

/-- A table whose entries are read is built, its watches validated and their heads built. -/
theorem bootStep_buildTable (s : State) : ∃ y : State, BootStep s y ∧ BootStep y.tabled (buildTable s) := by
  unfold Machine.buildTable
  split
  · refine ⟨{ s with image := { s.image with noTable := true } }, bootStep_of_view rfl, ?_⟩
    exact (BootStep.refl _).alarm 2
  · next r hr =>
    dsimp only
    split
    · exact ⟨_, (BootStep.refl s).putHbr 0x01F00000 (r.body.take 0x40000), (BootStep.refl _).alarm 2⟩
    · refine ⟨_, (BootStep.refl s).putHbr 0x01F00000 (r.body.take 0x40000), ?_⟩
      refine BootStep.foldl (fun x w hx => BootStep.ite (hx.buildAdapt w) hx) (BootStep.foldl (fun x n hx => hx.validateWatch n) ?_ _) _
      exact bootStep_of_view rfl

theorem BootStep.applyPatch (h : BootStep s t) : BootStep s (applyPatch t) := by
  unfold Machine.applyPatch
  split
  · split
    · exact h.view rfl
    · refine BootStep.alarm ?_ 2
      exact h.view rfl
  · exact h

theorem BootStep.deriveTagKeys (h : BootStep s t) : BootStep s (deriveTagKeys t) := by
  unfold Machine.deriveTagKeys
  split
  · exact h.view rfl
  · exact h

theorem BootStep.requestCommit (h : BootStep s t) (c : Commit) : BootStep s (requestCommit c t) := h.view rfl

/-- What is read back from the store does not change it. -/
theorem BootStep.readBack (h : BootStep s t) {st : Strand} (hd : st.data = t.strand.data) (hr : st.recovered = true) (e : Errors) :
    BootStep s { t with strand := st, err := e } :=
  h.trans ⟨by simp [State.bootFixed, hd], fun _ => hr, id, ⟨[], (List.append_nil _).symm⟩, id⟩

theorem bootStep_strandRecovery (s : State) :
    ∃ y : State, BootStep s y ∧ y.strand.recovered = true ∧ BootStep y (strandRecovery s) := by
  refine ⟨_, ?_, ?_, BootStep.ite (BootStep.ite (BootStep.requestCommit (.refl _) _) (.refl _))
    (BootStep.alarm (BootStep.ite (BootStep.requestCommit (.refl _) _) (.refl _)) 8)⟩
  · refine BootStep.readBack (.refl s) ?_ ?_ _ <;> rfl
  · rfl

theorem BootStep.applyPower (h : BootStep s t) : BootStep s (applyPower t) := by
  unfold Machine.applyPower
  split
  · exact h.view rfl
  · exact h.alarm 3

theorem BootStep.cw (h : BootStep s t) (c : Causeway) : BootStep s { t with cw := c } := h.view rfl

theorem BootStep.takeNumber (h : BootStep s t) (n : Nat) : BootStep s (takeNumber n t) :=
  BootStep.ite (BootStep.alarmAt ((h.cw _).cw _) 10 7) (h.cw _)

theorem BootStep.needXref (h : BootStep s t) : BootStep s (needXref t) := BootStep.ite h (h.view rfl)

theorem BootStep.applyLink (h : BootStep s t) : BootStep s (applyLink t) := by
  unfold Machine.applyLink
  split
  · exact BootStep.ite (BootStep.ite ((h.cw _).takeNumber 0) (h.cw _)) (BootStep.ite ((h.cw _).takeNumber 0) (h.cw _)).needXref
  · exact h

theorem BootStep.gpio (h : BootStep s t) (g : Gpio) : BootStep s { t with gpio := g } := h.view rfl

theorem BootStep.applyPins (h : BootStep s t) : BootStep s (applyPins t) := by
  unfold Machine.applyPins
  split
  · exact h.gpio _
  · exact h.gpio _

theorem BootStep.toStage (h : BootStep s t) (st : BitVec 8) : BootStep s (toStage st t) := h.view rfl

/-! ### The firmware start in two parts -/

/-- What the firmware reads: the patch, the store, the keys and the watch table. -/
def State.firmwareRead (s : State) : State :=
  buildTable (toStage 0x09 (deriveTagKeys (strandRecovery (applyPatch (toStage 0x08 s)))))

/-- What the firmware applies: the power block, the link and the pin map. -/
def State.firmwareApplied (s : State) : State :=
  let x := applyPins (applyLink (applyPower s))
  if x.wakeUnrouted then raiseAlarm 10 x else x

theorem firmwareRead_steps (s : State) : BootStep s s.firmwareRead ∧ s.firmwareRead.strand.recovered = true ∧
    s.firmwareRead.tableBuilt = true := by
  obtain ⟨x, hx, hr, hxs⟩ := bootStep_strandRecovery (applyPatch (toStage 0x08 s))
  obtain ⟨y, hy, hys⟩ := bootStep_buildTable (toStage 0x09 (deriveTagKeys (strandRecovery (applyPatch (toStage 0x08 s)))))
  have hxy : BootStep x y := BootStep.trans (hxs.deriveTagKeys.toStage 0x09) hy
  have hsx : BootStep s x := BootStep.trans (((BootStep.refl s).toStage 0x08).applyPatch) hx
  exact ⟨(hsx.trans hxy).tabled.trans hys, (hxy.tabled.trans hys).recovered hr, hys.tableBuilt rfl⟩

theorem tide_raiseAlarm (b : Nat) (s : State) : (raiseAlarm b s).tide = s.tide := tide_raiseAlarmAt _ b s

theorem block_takeNumber (n : Nat) (s : State) : (takeNumber n s).tide.block = s.tide.block := by
  unfold takeNumber mismatch
  dsimp only
  split
  · rw [tide_raiseAlarmAt]
  · rfl

theorem block_needXref (s : State) : (needXref s).tide.block = s.tide.block := by
  unfold needXref
  split <;> rfl

theorem block_applyLink (s : State) : (applyLink s).tide.block = s.tide.block := by
  unfold applyLink
  split
  · dsimp only
    split <;> split
    · exact block_takeNumber _ _
    · rfl
    · exact (block_needXref _).trans (block_takeNumber _ _)
    · exact block_needXref _
  · rfl

theorem applyPins_frame (s : State) : applyPins s = { s with gpio := (applyPins s).gpio } := by
  unfold applyPins
  split <;> rfl

theorem mapApplied_applyPins (s : State) : (applyPins s).gpio.mapApplied = true := by
  unfold applyPins
  split
  · exact List.foldlRecOn (motive := fun g : Gpio => g.mapApplied = true) _ _ rfl fun g hg n _ => hg
  · rfl

theorem pinMap_of_records (h : t.image.records = s.image.records) : t.pinMap = s.pinMap := by
  rw [State.pinMap, h]
  rfl

theorem block_applyPower {p : PowerBlock} (h : s.pinMap.bind readPower = some p) : (applyPower s).tide.block = some p := by
  rw [applyPower, h]

theorem firmwareApplied_steps (s : State) : BootStep s s.firmwareApplied ∧ s.firmwareApplied.gpio.mapApplied = true ∧
    ∀ p, s.pinMap.bind readPower = some p → s.firmwareApplied.tide.block = some p := by
  let x := applyPins (applyLink (applyPower s))
  have hx : BootStep s x := ((BootStep.refl s).applyPower.applyLink).applyPins
  have htide : x.tide = (applyLink (applyPower s)).tide := congrArg (·.tide) (applyPins_frame _)
  have hblock : ∀ p, s.pinMap.bind readPower = some p → x.tide.block = some p := fun p hp => by
    rw [htide, block_applyLink, block_applyPower hp]
  have he : s.firmwareApplied = if x.wakeUnrouted then raiseAlarm 10 x else x := rfl
  rw [he]
  split
  · refine ⟨hx.alarm 10, ?_, ?_⟩
    · rw [raiseAlarm, gpio_raiseAlarmAt]
      exact mapApplied_applyPins _
    · rw [tide_raiseAlarm]
      exact hblock
  · exact ⟨hx, mapApplied_applyPins _, hblock⟩

/-! ### FIRMWARE_START -/

theorem imageRegisters_frame (s : State) : imageRegisters s = { s with image := { (imageRegisters s).image with
    records := s.image.records } } := by
  unfold imageRegisters
  split <;> rfl

theorem imageRegisters_of_manifest {m : Manifest} (h : s.image.manifest = some m) : (imageRegisters s).image.secVer = m.secVer ∧
    (imageRegisters s).image.entries = m.entries.length ∧ (imageRegisters s).image.imageId = m.imageId := by
  rw [imageRegisters, h]
  exact ⟨rfl, rfl, rfl⟩

/-- The firmware has set its locks and the image registers (R143, R252). -/
def State.firmwareLocked (s : State) : State := imageRegisters (setLocks s)

theorem firmwareLocked_frame (s : State) : s.firmwareLocked = { s with
    otp := (setLocks s).otp, image := { s.firmwareLocked.image with records := s.image.records } } :=
  imageRegisters_frame (setLocks s)

theorem firmwareStart_of_loop (h : s.bootAt 0x07) (hl : 4 ≤ s.sys.loopCount) :
    firmwareStart s = failBoot 0x0A (toStage 0x0E s.firmwareLocked) := by
  have hc : s.firmwareLocked.sys.loopCount = s.sys.loopCount := congrArg (·.sys.loopCount) (firmwareLocked_frame s)
  rw [firmwareStart, atStage_of_bootAt h, if_pos rfl]
  exact if_pos (hc ▸ hl)

/-- The boot reports its end, before the device enters Neap (R143, R151). -/
def State.bootEnded (s : State) : State := toStage 0x0F (release (s.bootEvent 1) s)

theorem firmwareStart_of_start (h : s.bootAt 0x07) (hl : s.sys.loopCount < 4) : firmwareStart s =
    neapEntry s.firmwareLocked.firmwareRead.firmwareApplied.bootEnded := by
  have hc : s.firmwareLocked.sys.loopCount = s.sys.loopCount := congrArg (·.sys.loopCount) (firmwareLocked_frame s)
  rw [firmwareStart, atStage_of_bootAt h, if_pos rfl]
  exact if_neg (hc ▸ Nat.not_le.mpr hl)

theorem BootStep.ended (h : BootStep s t) : BootStep s t.bootEnded := (h.release _).toStage _

theorem bootEnded_frame (s : State) : s.bootEnded.gpio = s.gpio ∧ s.bootEnded.tide = s.tide := by
  have hf := reported_release (d := s.bootEvent 1) rfl s
  exact ⟨congrArg (·.gpio) hf, congrArg (·.tide) hf⟩

/-- Where nothing waits at the end of the boot, its last record is the EVENT of cause BOOT (R151). -/
theorem outbox_bootEnded (hh : s.bootEnded.host.held = []) (hb : s.bootEnded.host.backlog = []) :
    ∃ b, s.bootEnded.host.outbox = s.host.outbox ++ [b] ∧ b.length = 32 ∧ byteAt b 0 = 6 ∧ byteAt b 16 = 1 :=
  ⟨_, outbox_release_of_empty (s.bootEvent 1) hh hb, bootEvent_record 1 (by decide) s s⟩

/-- The boot from its locks to the last step before Neap. -/
structure FirmwareUp (s t : State) : Prop where
  step : BootStep s t
  recovered : t.strand.recovered = true
  tableBuilt : t.tableBuilt = true
  mapApplied : t.gpio.mapApplied = true
  block : ∀ p, s.pinMap.bind readPower = some p → t.tide.block = some p

theorem firmwareUp_applied (s : State) : FirmwareUp s s.firmwareRead.firmwareApplied := by
  obtain ⟨hr, hrec, htab⟩ := firmwareRead_steps s
  obtain ⟨ha, hmap, hblock⟩ := firmwareApplied_steps s.firmwareRead
  have hpin : s.firmwareRead.pinMap = s.pinMap := pinMap_of_records hr.records
  exact ⟨hr.trans ha, ha.recovered hrec, ha.tableBuilt htab, hmap, hpin ▸ hblock⟩

theorem FirmwareUp.ended (h : FirmwareUp s t) : FirmwareUp s t.bootEnded := by
  obtain ⟨hg, ht⟩ := bootEnded_frame t
  have he : BootStep t t.bootEnded := BootStep.ended (.refl t)
  exact ⟨h.step.trans he, he.recovered h.recovered, he.tableBuilt h.tableBuilt, hg ▸ h.mapApplied, ht ▸ h.block⟩

theorem FirmwareUp.neap (h : FirmwareUp s t) (hs : s.outboxBalance = true) : FirmwareUp s (neapEntry t) := by
  have hn := neapEntry_frame (h.step.balance hs)
  have hv : (neapEntry t).bootView = t.bootView := by rw [hn]; rfl
  have hb : (neapEntry t).tide.block = t.tide.block := congrArg (·.tide.block) hn
  have hg : (neapEntry t).gpio = t.gpio := congrArg (·.gpio) hn
  have he := bootStep_of_view hv
  exact ⟨h.step.trans he, he.recovered h.recovered, he.tableBuilt h.tableBuilt, hg ▸ h.mapApplied, hb ▸ h.block⟩

/-- What the boot leaves where the loop guard lets it start (R143, R151). -/
theorem firmwareStart_steps (h : s.bootAt 0x07) (hl : s.sys.loopCount < 4) : ∃ y : State,
    FirmwareUp s.firmwareLocked y ∧ firmwareStart s = neapEntry y.bootEnded ∧ FirmwareUp s.firmwareLocked (firmwareStart s) ∧
      y.bootEnded.outboxBalance = true := by
  have hb : s.firmwareLocked.outboxBalance = true := (congrArg (·.outboxBalance) (firmwareLocked_frame s)).trans (balance_of_bootAt h)
  have hy := firmwareUp_applied s.firmwareLocked
  have he := firmwareStart_of_start h hl
  exact ⟨_, hy, he, he ▸ hy.ended.neap hb, hy.ended.step.balance hb⟩

/-- The loop guard halts the boot with the image that it has read (R166, log 76). -/
theorem firmwareStart_guarded (h : s.bootAt 0x07) (hl : 4 ≤ s.sys.loopCount) : let t := firmwareStart s
    t.sys.stage = 0x0E ∧ t.sys.fail = 0x0A ∧ t.sys.alarm.getLsbD 0 = true ∧ t.watches = s.watches ∧ t.tableBuilt = s.tableBuilt ∧
    t.strand.data = s.strand.data ∧ t.otp.lockRd = s.otp.lockRd ||| 0x20 ∧
    (∀ m, s.image.manifest = some m → t.image.secVer = m.secVer) ∧
    (s.outboxTakes 1 → ∃ b, t.host.outbox = s.host.outbox ++ [b] ∧ b.length = 32 ∧ byteAt b 0 = 6 ∧ byteAt b 16 = 2) := by
  have hlock := firmwareLocked_frame s
  have hbal : (toStage 0x0E s.firmwareLocked).outboxBalance = true := (congrArg (·.outboxBalance) hlock).trans (balance_of_bootAt h)
  have hf := failBoot_frame 0x0A hbal
  have hhost : (toStage 0x0E s.firmwareLocked).host = s.host := congrArg (·.host) hlock
  have hrd : (failBoot 0x0A (toStage 0x0E s.firmwareLocked)).otp.lockRd = s.firmwareLocked.otp.lockRd ||| 0x20 :=
    congrArg (·.otp.lockRd) hf
  have hrd' : s.firmwareLocked.otp.lockRd = s.otp.lockRd ||| 0x20 := congrArg (·.otp.lockRd) hlock
  rw [firmwareStart_of_loop h hl]
  refine ⟨congrArg (·.sys.stage) hf, congrArg (·.sys.fail) hf, alarm_failBoot 0x0A hbal,
    (congrArg (·.watches) hf).trans (congrArg (·.watches) hlock), (congrArg (·.tableBuilt) hf).trans (congrArg (·.tableBuilt) hlock),
    (congrArg (·.strand.data) hf).trans (congrArg (·.strand.data) hlock), ?_, fun m hm => ?_, fun ⟨hh, hk, ho⟩ => ?_⟩
  · rw [hrd, hrd', BitVec.or_assoc, BitVec.or_self]
  · exact (congrArg (·.image.secVer) hf).trans (imageRegisters_of_manifest (s := setLocks s) hm).1
  · rw [← hhost]
    exact outbox_failBoot 0x0A hbal (hhost ▸ hh) (hhost ▸ hk) (hhost ▸ ho)

/-- The boot ends at stage 0x0F, in Neap where it may (R143, R151, R252, log 52). -/
theorem firmwareStart_ends (h : s.bootAt 0x07) (hl : s.sys.loopCount < 4) : let t := firmwareStart s
    t.sys.stage = 0x0F ∧ t.sys.fail = 0 ∧ t.tableBuilt = true ∧ t.strand.recovered = true ∧ t.gpio.mapApplied = true ∧
    t.otp.lockRd = s.otp.lockRd ||| 0x20 ∧ t.otp.cells = s.otp.cells ∧ t.otp.cellsHigh = s.otp.cellsHigh ∧
    t.strand.data = s.strand.data ∧
    (∀ m, s.image.manifest = some m → t.image.secVer = m.secVer ∧ t.image.entries = m.entries.length ∧ t.image.imageId = m.imageId) ∧
    (s.host.held = [] → s.host.backlog = [] → t.host.held = [] → t.host.backlog = [] →
      ∃ l b, t.host.outbox = s.host.outbox ++ l ++ [b] ∧ b.length = 32 ∧ byteAt b 0 = 6 ∧ byteAt b 16 = 1) ∧
    (t.tide.power = .neap ∨ t.mayNeap = false) ∧ ∀ p, s.pinMap.bind readPower = some p → t.tide.block = some p := by
  obtain ⟨-, -, hzero, -⟩ := id h
  obtain ⟨y, hy, he, ⟨hstep, hrec, htab, hmap, hblock⟩, hbal⟩ := firmwareStart_steps h hl
  have hlock := firmwareLocked_frame s
  have hn := neapEntry_frame hbal
  rw [← he] at hn
  have hhost : (firmwareStart s).host = y.bootEnded.host := congrArg (·.host) hn
  have hfix := hstep.fixed
  simp only [State.bootFixed, Prod.mk.injEq] at hfix
  obtain ⟨hfail, hrd, hcells, hhigh, hdata, hsec, hent, hid, -⟩ := hfix
  refine ⟨congrArg (·.sys.stage) hn, hfail.trans ((congrArg (·.sys.fail) hlock).trans hzero), htab, hrec, hmap,
    hrd.trans (congrArg (·.otp.lockRd) hlock), hcells.trans (congrArg (·.otp.cells) hlock),
    hhigh.trans (congrArg (·.otp.cellsHigh) hlock), hdata.trans (congrArg (·.strand.data) hlock), fun m hm => ?_,
    fun _ _ hth htk => ?_, he ▸ power_neapEntry hbal, fun p hp => hblock p ?_⟩
  · obtain ⟨h1, h2, h3⟩ := imageRegisters_of_manifest (s := setLocks s) hm
    exact ⟨hsec.trans h1, hent.trans h2, hid.trans h3⟩
  · obtain ⟨l, hl⟩ := hy.step.outbox
    obtain ⟨b, hb, hrec⟩ := outbox_bootEnded (hhost ▸ hth) (hhost ▸ htk)
    have hs : s.firmwareLocked.host = s.host := congrArg (·.host) hlock
    exact ⟨l, b, by rw [hhost, hb, hl, hs], hrec⟩
  · rw [pinMap_of_records (congrArg (·.image.records) hlock)]
    exact hp

end

/-- Settles O27: from the rails each command is an equation of the stage, and the firmware start is a chain of steps that keep the
locks, the store and the Outbox. -/
theorem bootReachesTheImageAndEnds : Obligations.BootReachesTheImageAndEnds := by
  unfold Obligations.BootReachesTheImageAndEnds
  refine ⟨⟨fun s h hw => ⟨fun hl => ?_, fun hl => ?_⟩, fun s h ho hw => ?_, fun s r h hp => ?_⟩, fun s h => ⟨fun hl => ?_, fun hl => ?_⟩⟩
  all_goals have hlive := live_of_bootAt h
  all_goals have hb := balance_of_bootAt h
  · have hst : s.sys.stage = 0x02 := h.2.1
    have hf := failBoot_frame (s := s.railsGood) 0x09 hb
    rw [← railWaitEnd_of_stopped h hw hl] at hf
    have ha : (railWaitEnd s).sys.alarm.getLsbD 0 = true := railWaitEnd_of_stopped h hw hl ▸ alarm_failBoot 0x09 hb
    exact ⟨_, next_inService hlive _, congrArg (·.sys.fail) hf, (congrArg (·.sys.stage) hf).trans hst, ha,
      congrArg (·.sys.wdtArmed) hf⟩
  · have hf := loadKeys_frame s.railsGood
    have hr := railWaitEnd_of_running h hw hl
    rw [hf] at hr
    refine ⟨_, (next_inService hlive _).trans (congrArg _ hr), rfl, fun hc => ?_, fun hc => ?_⟩
    · exact congrArg (·.otp.keys) (loadKeys_of_closed (s := s.railsGood) (hc.imp_right ge_of_eq))
    · have hk := loadKeys_of_open (s := s.railsGood) hc
      exact ⟨congrArg (·.dus) hk, congrArg (·.idk) hk, congrArg (·.imageRoots) hk, congrArg (·.tagKeys) hk⟩
  · exact (next_inService hlive _).trans (congrArg _ (bootRelease_eq h ho hw))
  · have hx := flashProbe_eq h hp r
    refine ⟨fun hr => ?_, fun hr hs => ?_, fun hr hs => ⟨fun hh => ?_, fun hh => ?_⟩⟩
    · rw [if_pos (by simp [hr])] at hx
      exact ⟨_, (next_inService hlive _).trans (congrArg _ hx), bootFails_failBoot 0x01 hb⟩
    · rw [if_neg (by simp [hr]), if_pos (by simp [hs])] at hx
      exact ⟨_, (next_inService hlive _).trans (congrArg _ hx), bootFails_failBoot 0x02 hb⟩
    · rw [if_neg (by simp [hr]), if_neg (by simp [hs]), if_pos (by simp [hh])] at hx
      exact ⟨_, (next_inService hlive _).trans (congrArg _ hx), bootFails_of_same rfl (bootFails_failBoot 0x03 hb)⟩
    · rw [if_neg (by simp [hr]), if_neg (by simp [hs]), if_neg (by simp [hh]), limit_flashModeOf] at hx
      exact (next_inService hlive _).trans (congrArg _ hx)
  · exact ⟨_, next_inService hlive _, firmwareStart_guarded h hl⟩
  · exact ⟨_, next_inService hlive _, firmwareStart_ends h hl⟩

end Sys2Proof.Machine
end

