-- ==== Sys2Proof/Proofs/OtpCells.lean ====
section
/-! PROOF. Proofs/OtpCells.lean: the cells of the OTP at both margins, and the operations of records, resets without a torn
word, packets, jobs and the Strand store, which leave them. -/
namespace Sys2Proof.Machine
open Sys2Proof

/-! ### The cells of the OTP -/

/-- The cells of the OTP, at normal and at high margin (R174, R184). -/
def State.fuses (s : State) := (s.otp.cells, s.otp.cellsHigh)

section
variable {s t : State}

theorem fuses_of_cells (hn : t.otp.cells = s.otp.cells) (hh : t.otp.cellsHigh = s.otp.cellsHigh) : t.fuses = s.fuses := by
  rw [State.fuses, State.fuses, hn, hh]

theorem fuses_of_otp (h : t.otp = s.otp) : t.fuses = s.fuses := fuses_of_cells (by rw [h]) (by rw [h])

/-- A record update that leaves the OTP. -/
@[simp] theorem fuses_mk {pending sys tide image pix adc stem c0 c1 c2 c3 harbour sram watches built order src shut stop cw err host
    gpio strand tap fresh free} : (State.mk pending sys tide s.otp image pix adc stem c0 c1 c2 c3 harbour sram watches built
      order src shut stop cw err host gpio strand tap fresh free).fuses = s.fuses := rfl

@[simp] theorem fuses_ite {c : Prop} [Decidable c] : (if c then s else t).fuses = if c then s.fuses else t.fuses :=
  apply_ite _ _ _ _

/-- A fold over values that hold a state. -/
theorem fuses_foldl_of {α β : Type} (g : β → State) {l : List α} {f : β → α → β} {b : β}
    (hf : ∀ b a, (g (f b a)).fuses = (g b).fuses) : (g (l.foldl f b)).fuses = (g b).fuses :=
  List.foldlRecOn (motive := fun c => (g c).fuses = (g b).fuses) l f rfl fun c hc a _ => (hf c a).trans hc

@[simp] theorem fuses_foldl {α : Type} {l : List α} {f : State → α → State} (hf : ∀ x a, (f x a).fuses = x.fuses) :
    (l.foldl f s).fuses = s.fuses :=
  fuses_foldl_of id hf

@[simp] theorem fuses_setCore {c k} : (s.setCore c k).fuses = s.fuses := fuses_of_otp (otp_setCore s c k)

@[simp] theorem fuses_modCore {c f} : (s.modCore c f).fuses = s.fuses := fuses_setCore

@[simp] theorem fuses_modCores {cs f} : (s.modCores cs f).fuses = s.fuses := fuses_of_otp (otp_modCores s cs f)

@[simp] theorem fuses_modWatch {n f} : (s.modWatch n f).fuses = s.fuses := fuses_of_otp rfl

@[simp] theorem fuses_modJob {n f} : (s.modJob n f).fuses = s.fuses := fuses_of_otp rfl

@[simp] theorem fuses_takeSeq {w} : (takeSeq w s).2.fuses = s.fuses := fuses_of_otp (otp_takeSeq w s)

end
section
variable {s : State} {x : Ctx}

/-! ### The context of a bundle (Machine/Tensor.lean) -/

@[simp] theorem fuses_touch {a n write} : (x.touch a n write).s.fuses = x.s.fuses := by
  unfold Ctx.touch
  split <;> rfl

@[simp] theorem fuses_correctLocal {a n} : (x.correctLocal a n).s.fuses = x.s.fuses := by
  unfold Ctx.correctLocal
  split <;> rfl

@[simp] theorem fuses_readLocal {a n} : (x.readLocal a n).s.fuses = x.s.fuses := by
  unfold Ctx.readLocal
  dsimp only
  repeat' split
  all_goals simp

@[simp] theorem fuses_metered {f : Meter → Meter} : (x.metered f).s.fuses = x.s.fuses := rfl

/-! ### Records and alarms (Machine/Events.lean) -/

@[simp] theorem fuses_freeBytes {n} : (s.freeBytes n).2.fuses = s.fuses := fuses_of_otp rfl

@[simp] theorem fuses_logEntry {e} : (logEntry e s).fuses = s.fuses := by simp [logEntry]

@[simp] theorem fuses_raiseAlarmAt {source b} : (raiseAlarmAt source b s).fuses = s.fuses := by simp [raiseAlarmAt]

@[simp] theorem fuses_raiseAlarm {b} : (raiseAlarm b s).fuses = s.fuses := by simp [raiseAlarm]

@[simp] theorem fuses_pushOutbox {b} : (pushOutbox b s).fuses = s.fuses := fuses_of_otp rfl

@[simp] theorem fuses_numberRecord {d backlog} : (numberRecord d backlog s).2.fuses = s.fuses := by simp [numberRecord]

@[simp] theorem fuses_countMerge {v a b} : (countMerge v a b s).fuses = s.fuses := by simp [countMerge]

theorem fuses_placeRecord {d t} (h : placeRecord d s = some t) : t.fuses = s.fuses := by
  unfold placeRecord at h
  split at h
  · cases h
    exact fuses_numberRecord (backlog := false)
  · have hn : (numberRecord d true s).2.fuses = s.fuses := fuses_numberRecord
    split at h
    · cases h
      exact hn
    · split at h
      · cases h
      · cases h
        exact fuses_countMerge.trans hn

@[simp] theorem fuses_release {d} : (release d s).fuses = s.fuses := by
  unfold release
  split
  · split
    · next h => exact fuses_placeRecord h
    · rfl
  · rfl

@[simp] theorem fuses_releaseAll {ds} : (releaseAll ds s).fuses = s.fuses := by
  induction ds generalizing s with
  | nil => rfl
  | cons d ds ih => exact ih.trans fuses_release

@[simp] theorem fuses_placeHeld {n} : (placeHeld n s).fuses = s.fuses := by
  induction n generalizing s with
  | zero => rfl
  | succ n ih =>
    unfold placeHeld
    split
    · rfl
    · split
      · next u hu =>
        have h : u.fuses = s.fuses := fuses_placeRecord (s := { s with host := { s.host with held := [] } }) hu
        exact ih.trans h
      · rfl

@[simp] theorem fuses_refillOne : (refillOne s).fuses = s.fuses := by
  unfold refillOne
  split <;> simp

@[simp] theorem fuses_refill {n} : (refill n s).fuses = s.fuses := by
  induction n generalizing s with
  | zero => rfl
  | succ n ih => exact ih.trans fuses_refillOne

/-! ### Resets (Machine/Reset.lean) -/

@[simp] theorem fuses_putLog {body} : (putLog body s).fuses = s.fuses := fuses_of_otp rfl

@[simp] theorem fuses_tearUnit : (tearUnit s).fuses = s.fuses := by
  unfold tearUnit
  split <;> simp

@[simp] theorem fuses_flushFatalLog : (flushFatalLog s).fuses = s.fuses := by
  unfold flushFatalLog
  split <;> simp

@[simp] theorem fuses_enterReset {por} : (enterReset por s).fuses = s.fuses := by
  unfold enterReset
  split
  · exact fuses_flushFatalLog
  · rfl

theorem fuses_assertReset {src} (h : src ∈ [ResetSource.pin, .soft, .wdt, .fatal]) : (assertReset src s).fuses = s.fuses := by
  unfold assertReset
  cases src <;> simp at h
  all_goals
    dsimp only
    split
    · rfl
    · split <;> simp

@[simp] theorem fuses_takeDelayed : (takeDelayed s).fuses = s.fuses := by
  unfold takeDelayed
  split <;> simp

@[simp] theorem fuses_chipFatal {code source} : (chipFatal code source s).fuses = s.fuses := by
  unfold chipFatal
  split
  · rfl
  · exact (fuses_assertReset (by simp)).trans fuses_logEntry

@[simp] theorem fuses_booksFail : (booksFail s).fuses = s.fuses := by simp [booksFail]

/-! ### Packets (Machine/CwOps.lean) -/

@[simp] theorem fuses_setPort {p x} : (s.setPort p x).fuses = s.fuses := by
  unfold State.setPort
  split <;> rfl

@[simp] theorem fuses_modPort {p} {f : Port → Port} : (s.modPort p f).fuses = s.fuses := by simp [State.modPort]

@[simp] theorem fuses_control {p i} : (control p i s).fuses = s.fuses := by simp [control]

@[simp] theorem fuses_beginPort {p} : (beginPort p s).fuses = s.fuses := by simp [beginPort]

@[simp] theorem fuses_returnCredit {p v n} : (returnCredit p v n s).fuses = s.fuses := by simp [returnCredit]

@[simp] theorem fuses_returnUnits {old new} : (returnUnits old new s).fuses = s.fuses := by simp [returnUnits]

@[simp] theorem fuses_pumpPort {p} : (pumpPort p s).fuses = s.fuses := by simp [pumpPort]

@[simp] theorem fuses_forgiveUnits {p} : (forgiveUnits p s).fuses = s.fuses := fuses_of_otp rfl

@[simp] theorem fuses_needXref : (needXref s).fuses = s.fuses := by simp [needXref]

@[simp] theorem fuses_startTraining {p resume} : (startTraining p resume s).fuses = s.fuses := by simp [startTraining]

@[simp] theorem fuses_startPorts : (startPorts s).fuses = s.fuses := by simp [startPorts]

@[simp] theorem fuses_needPort {p} : (needPort p s).fuses = s.fuses := by simp [needPort]

@[simp] theorem fuses_enqueue {p owes k} : (enqueue p owes k s).fuses = s.fuses := by simp [enqueue]

@[simp] theorem fuses_sendPacket {k} : (sendPacket k s).fuses = s.fuses := by simp [sendPacket]

@[simp] theorem fuses_sendMessages {n} : (sendMessages n s).fuses = s.fuses := by
  unfold sendMessages
  split <;> simp

/-! ### Jobs (Machine/Jobs.lean) -/

@[simp] theorem fuses_power {a n} : (s.power a n).fuses = s.fuses := fuses_of_otp rfl

@[simp] theorem fuses_visit {a n} : (s.visit a n).fuses = s.fuses := by simp [State.visit]

@[simp] theorem fuses_putHbr {a bs} : (s.putHbr a bs).fuses = s.fuses := fuses_of_otp rfl

@[simp] theorem fuses_putHbrLines {l ls} : (s.putHbrLines l ls).fuses = s.fuses := fuses_of_otp rfl

@[simp] theorem fuses_putHbrWhole {a bs} : (s.putHbrWhole a bs).fuses = s.fuses := fuses_of_otp rfl

@[simp] theorem fuses_wake : (wake s).fuses = s.fuses := by simp [wake]

@[simp] theorem fuses_startPartial {u} : (startPartial u s).fuses = s.fuses := by simp [startPartial]

@[simp] theorem fuses_keepVpix : (keepVpix before s).fuses = s.fuses := by simp [keepVpix]

@[simp] theorem fuses_startJob {n due order gpio} : (startJob n due order gpio s).fuses = s.fuses := fuses_of_otp rfl

@[simp] theorem fuses_serveTrigger {n due order gpio} : (serveTrigger n due order gpio s).fuses = s.fuses := by
  unfold serveTrigger
  split <;> simp

@[simp] theorem fuses_trigger {n due order gpio} : (trigger n due order gpio s).fuses = s.fuses := by
  unfold trigger
  split <;> simp

@[simp] theorem fuses_startPending {n} : (startPending n s).fuses = s.fuses := by
  unfold startPending
  split <;> simp

@[simp] theorem fuses_tryHeld {n} : (tryHeld n s).fuses = s.fuses := by
  unfold tryHeld
  repeat' split
  all_goals simp

@[simp] theorem fuses_triggerAll {ns order gpio} : (triggerAll ns order gpio s).fuses = s.fuses := by simp [triggerAll]

@[simp] theorem fuses_fireChains {n fired} : (fireChains n fired s).fuses = s.fuses := by simp [fireChains]

@[simp] theorem fuses_alarmLine {n fired i} : (alarmLine n fired i s).fuses = s.fuses := by simp [alarmLine]

@[simp] theorem fuses_queueLabel {n entry cls byHost} : (queueLabel n entry cls byHost s).fuses = s.fuses := fuses_of_otp rfl

@[simp] theorem fuses_markEntry {a byHost} : (markEntry a byHost s).fuses = s.fuses := fuses_of_otp rfl

@[simp] theorem fuses_adaptRead {rs} {lost : State → State} {f : State → State} (hlost : ∀ x, (lost x).fuses = x.fuses)
    (hf : ∀ x, (f x).fuses = x.fuses) :
    (adaptRead rs lost f s).fuses = s.fuses := by simp [adaptRead, hlost, hf]

@[simp] theorem fuses_selfLabel {w} : (selfLabel w s).fuses = s.fuses := by
  unfold selfLabel
  split <;> simp

@[simp] theorem fuses_leaveSpring : (leaveSpring s).fuses = s.fuses := by simp [leaveSpring]

@[simp] theorem fuses_dropInputs {n} : (dropInputs n s).fuses = s.fuses := by
  unfold dropInputs
  dsimp only
  repeat' split
  all_goals simp

@[simp] theorem fuses_dropRequests {n} : (dropRequests n s).fuses = s.fuses := fuses_of_otp rfl

@[simp] theorem fuses_endJob {n} : (endJob n s).fuses = s.fuses := by
  unfold endJob
  repeat' split
  all_goals simp

@[simp] theorem fuses_finishStop {x} : (finishStop x s).fuses = s.fuses := by
  unfold finishStop
  split <;> simp

@[simp] theorem fuses_stopJob {x} : (stopJob x s).fuses = s.fuses := by
  unfold stopJob
  repeat' split
  all_goals simp

@[simp] theorem fuses_watchFatalAt {source addr n code exc core} :
    (watchFatalAt source addr n code exc core s).fuses = s.fuses := by simp [watchFatalAt]

@[simp] theorem fuses_watchFatal {n code exc core} : (watchFatal n code exc core s).fuses = s.fuses := by simp [watchFatal]

@[simp] theorem fuses_abandon {n cause st} : (abandon n cause st s).fuses = s.fuses := by
  unfold abandon
  split <;> simp

@[simp] theorem fuses_faultWatch {n code} : (faultWatch n code s).fuses = s.fuses := by simp [faultWatch]

/-! ### Mailbox ends and the Strand store (Machine/Strand.lean) -/

@[simp] theorem fuses_inService {f : State → State} (hf : ∀ x, (f x).fuses = x.fuses) :
    (inService s f).fuses = s.fuses := by simp [inService, hf]

@[simp] theorem fuses_mbxComplete {code data} : (mbxComplete code data s).fuses = s.fuses := by
  unfold mbxComplete
  split <;> rfl

@[simp] theorem fuses_calComplete {code} : (calComplete code s).fuses = s.fuses := by simp [calComplete]

@[simp] theorem fuses_labelComplete {code} : (labelComplete code s).fuses = s.fuses := by simp [labelComplete]

@[simp] theorem fuses_requestCommit {c} : (requestCommit c s).fuses = s.fuses := fuses_of_otp rfl

@[simp] theorem fuses_startCommitUnit : (startCommitUnit s).fuses = s.fuses := by
  unfold startCommitUnit
  split <;> simp

@[simp] theorem fuses_startLogUnit : (startLogUnit s).fuses = s.fuses := by
  unfold startLogUnit
  split <;> simp

@[simp] theorem fuses_endLearn {status} : (endLearn status s).fuses = s.fuses := fuses_of_otp rfl

@[simp] theorem fuses_strandCommit : (strandCommit s).fuses = s.fuses := by
  unfold strandCommit
  repeat' split
  all_goals simp

@[simp] theorem fuses_commitPoint {r} : (commitPoint r s).fuses = s.fuses := by
  unfold commitPoint
  dsimp only
  repeat' split
  all_goals simp

@[simp] theorem fuses_commitFailed {r} : (commitFailed r s).fuses = s.fuses := by
  unfold commitFailed
  split <;> simp

@[simp] theorem fuses_unitWritten {u} : (unitWritten u s).fuses = s.fuses := by
  unfold unitWritten
  dsimp only
  repeat' split
  all_goals simp

@[simp] theorem fuses_unitDiffers {u} : (unitDiffers u s).fuses = s.fuses := by
  unfold unitDiffers
  dsimp only
  repeat' split
  all_goals simp

@[simp] theorem fuses_strandUnitWritten {same} : (strandUnitWritten same s).fuses = s.fuses := by
  unfold strandUnitWritten
  split <;> simp

@[simp] theorem fuses_strandTimeout : (strandTimeout s).fuses = s.fuses := by
  unfold strandTimeout
  repeat' split
  all_goals simp

@[simp] theorem fuses_strandRecovery : (strandRecovery s).fuses = s.fuses := by simp [strandRecovery]

@[simp] theorem fuses_capBatch : (capBatch s).fuses = s.fuses := by simp [capBatch]

@[simp] theorem fuses_capSample {m vb va} : (capSample m vb va s).fuses = s.fuses := by simp [capSample]

end

end Sys2Proof.Machine
end

