-- ==== Sys2Proof/Proofs/OtpCellsCores.lean ====
section
/-! PROOF. Proofs/OtpCellsCores.lean: power, cores and the issue of a bundle leave the cells of the OTP. -/
namespace Sys2Proof.Machine
open Sys2Proof

section
variable {s : State} {x : Ctx}

/-! ### Power and energy (Machine/Tide.lean) -/

@[simp] theorem fuses_raiseCharge : (raiseCharge s).fuses = s.fuses := by simp [raiseCharge]

@[simp] theorem fuses_dropCharge : (dropCharge s).fuses = s.fuses := fuses_of_otp rfl

@[simp] theorem fuses_chargeControl : (chargeControl s).fuses = s.fuses := by
  unfold chargeControl
  split <;> simp

@[simp] theorem fuses_stallSample : (stallSample s).fuses = s.fuses := by simp [stallSample]

@[simp] theorem fuses_stallTick : (stallTick s).fuses = s.fuses := by
  unfold stallTick
  split <;> simp

@[simp] theorem fuses_chgStallEvent : (chgStallEvent s).fuses = s.fuses := by simp [chgStallEvent]

@[simp] theorem fuses_beginSpring {w b} : (beginSpring w b s).fuses = s.fuses := by simp [beginSpring]

@[simp] theorem fuses_grantLimit : (grantLimit s).fuses = s.fuses := by simp [grantLimit]

@[simp] theorem fuses_evaluateAdmission : (evaluateAdmission s).fuses = s.fuses := by
  unfold evaluateAdmission
  dsimp only
  repeat' split
  all_goals simp

@[simp] theorem fuses_refuseAdmission {n} : (refuseAdmission n s).fuses = s.fuses := by
  unfold refuseAdmission
  repeat' split
  all_goals simp

@[simp] theorem fuses_admissionRequest {n} : (admissionRequest n s).fuses = s.fuses := by
  unfold admissionRequest
  repeat' split
  all_goals simp

@[simp] theorem fuses_admitTimeout {n} : (admitTimeout n s).fuses = s.fuses := by
  unfold admitTimeout
  split <;> simp

@[simp] theorem fuses_loadImem {c l} : (loadImem c l s).fuses = s.fuses := by simp [loadImem]

@[simp] theorem fuses_startCore {w index r c} : (startCore w index r c s).fuses = s.fuses := by simp [startCore]

@[simp] theorem fuses_resumeCore {w j index c} : (resumeCore w j index c s).fuses = s.fuses := by simp [resumeCore]

@[simp] theorem fuses_memoryStop {c w src line slot pc} :
    (memoryStop c w src line slot pc s).fuses = s.fuses := by simp [memoryStop]

@[simp] theorem fuses_releaseCores {w j} : (releaseCores w j s).fuses = s.fuses := by
  unfold releaseCores
  dsimp only
  repeat' split
  all_goals simp

@[simp] theorem fuses_coreRelease : (coreRelease s).fuses = s.fuses := by
  unfold coreRelease
  repeat' split
  all_goals simp

@[simp] theorem fuses_settleMeter : (settleMeter s).fuses = s.fuses := by
  unfold settleMeter
  repeat' split
  all_goals simp

@[simp] theorem fuses_startCheckpoint {n} : (startCheckpoint n s).fuses = s.fuses := by
  unfold startCheckpoint
  split <;> rfl

@[simp] theorem fuses_meterCharge {us c0 c1 c2 c3} : (meterCharge us c0 c1 c2 c3 s).fuses = s.fuses := by
  unfold meterCharge
  dsimp only
  repeat' split
  all_goals simp

@[simp] theorem fuses_guardTrip : (guardTrip s).fuses = s.fuses := by
  unfold guardTrip
  split <;> simp

@[simp] theorem fuses_writeFrames {w k} : (writeFrames w k s).fuses = s.fuses :=
  fuses_putHbrWhole.trans (fuses_freeBytes.trans (fuses_foldl fun _ _ => fuses_putHbrWhole))

@[simp] theorem fuses_checkpointDone {w k} : (checkpointDone w k s).fuses = s.fuses :=
  fuses_leaveSpring.trans (fuses_modWatch.trans (fuses_modJob.trans (fuses_writeFrames.trans fuses_settleMeter)))

@[simp] theorem fuses_checkpointComplete : (checkpointComplete s).fuses = s.fuses := by
  unfold checkpointComplete
  repeat' split
  all_goals simp

@[simp] theorem fuses_computeEnd : (computeEnd s).fuses = s.fuses := by
  unfold computeEnd
  split <;> simp

@[simp] theorem fuses_cutSpring {code} : (cutSpring code s).fuses = s.fuses := by
  unfold cutSpring
  split <;> simp

@[simp] theorem fuses_vcoreFail : (vcoreFail s).fuses = s.fuses := by simp [vcoreFail]

@[simp] theorem fuses_reservoirCollapse : (reservoirCollapse s).fuses = s.fuses := by simp [reservoirCollapse]

@[simp] theorem fuses_firstSample : (firstSample s).fuses = s.fuses := by simp [firstSample]

@[simp] theorem fuses_account : (account s).fuses = s.fuses := by
  unfold account
  split <;> rfl

@[simp] theorem fuses_reservoirSample {rsvMv vbatMv} :
    (reservoirSample rsvMv vbatMv s).fuses = s.fuses := by simp [reservoirSample]

@[simp] theorem fuses_vbatSample {vbatMv} : (vbatSample vbatMv s).fuses = s.fuses := by simp [vbatSample]

@[simp] theorem fuses_applyStep : (applyStep s).fuses = s.fuses := by
  unfold applyStep
  split <;> rfl

@[simp] theorem fuses_neapEntry : (neapEntry s).fuses = s.fuses := by simp [neapEntry]

@[simp] theorem fuses_bankPowerUp {b} : (bankPowerUp b s).fuses = s.fuses := by simp [bankPowerUp]

@[simp] theorem fuses_doneRearm : (doneRearm s).fuses = s.fuses :=
  (fuses_foldl fun _ _ => fuses_startPending).trans (fuses_keepVpix.trans (fuses_foldl fun _ _ => fuses_modWatch))

@[simp] theorem fuses_tickTrigger : (tickTrigger s).fuses = s.fuses := by simp [tickTrigger]

@[simp] theorem fuses_groupRelease {n} : (groupRelease n s).fuses = s.fuses := by simp [groupRelease]

/-! ### Cores (Machine/Cores.lean) -/

@[simp] theorem fuses_coreExceptionAt {source c cause slot pc} :
    (coreExceptionAt source c cause slot pc s).fuses = s.fuses := by
  unfold coreExceptionAt
  dsimp only
  repeat' split
  all_goals simp

@[simp] theorem fuses_coreException {c cause slot pc} :
    (coreException c cause slot pc s).fuses = s.fuses := by simp [coreException]

@[simp] theorem fuses_performWord {p} : (performWord p s).2.fuses = s.fuses := by
  unfold performWord
  repeat' split
  all_goals simp

@[simp] theorem fuses_drainWords {atomics ps} : (drainWords atomics ps s).fuses = s.fuses := by simp [drainWords]

@[simp] theorem fuses_replay {c w src addr slot pc} : (replay c w src addr slot pc s).fuses = s.fuses := by simp [replay]

@[simp] theorem fuses_tryReplay {c} : (tryReplay c s).fuses = s.fuses := by
  unfold tryReplay
  dsimp only
  repeat' split
  all_goals simp

@[simp] theorem fuses_takeError {c src line slot pc} : (takeError c src line slot pc s).fuses = s.fuses := by
  unfold takeError
  split <;> simp

@[simp] theorem fuses_giveStatus {c st code pc} : (giveStatus c st code pc s).fuses = s.fuses := by
  unfold giveStatus
  split <;> simp

@[simp] theorem fuses_takeTxn {c} : (takeTxn c s).2.fuses = s.fuses := fuses_of_otp rfl

@[simp] theorem fuses_storeMarker {watch chip idx epoch count} :
    (storeMarker watch chip idx epoch count s).fuses = s.fuses := fuses_of_otp rfl

@[simp] theorem fuses_publishMarker {c w chip epoch st} :
    (publishMarker c w chip epoch st s).fuses = s.fuses := by simp [publishMarker]

@[simp] theorem fuses_tryWait {c} : (tryWait c s).fuses = s.fuses := by
  unfold tryWait
  dsimp only
  repeat' split
  all_goals simp

@[simp] theorem fuses_settle {c} : (settle c s).fuses = s.fuses := by simp [settle]

@[simp] theorem fuses_raiseEvent {c ev slot pc} : (raiseEvent c ev slot pc s).fuses = s.fuses := by
  unfold raiseEvent
  split <;> simp

@[simp] theorem fuses_removePend {c i} : (removePend c i s).fuses = s.fuses := by simp [removePend]

@[simp] theorem fuses_completeDma {c i p} : (completeDma c i p s).fuses = s.fuses := by
  unfold completeDma
  split <;> simp

@[simp] theorem fuses_wordDone {c} : (wordDone c s).fuses = s.fuses := by
  unfold wordDone
  dsimp only
  repeat' split
  all_goals simp

@[simp] theorem fuses_streamDone {c i p b dst block reread} : (streamDone c i p b dst block reread s).fuses = s.fuses := by
  unfold streamDone
  dsimp only
  repeat' split
  all_goals simp

@[simp] theorem fuses_dmaComplete {c n block reread} : (dmaComplete c n block reread s).fuses = s.fuses := by
  unfold dmaComplete
  dsimp only
  repeat' split
  all_goals simp

@[simp] theorem fuses_waitTimeout {c} : (waitTimeout c s).fuses = s.fuses := by simp [waitTimeout]

@[simp] theorem fuses_markPoison {c src line} : (markPoison c src line s).fuses = s.fuses := by
  unfold markPoison
  split <;> simp

@[simp] theorem fuses_uncorrectableError {c src addr slot pc} :
    (uncorrectableError c src addr slot pc s).fuses = s.fuses := by simp [uncorrectableError]

/-! ### Branches (Machine/Scalar.lean) -/

@[simp] theorem fuses_branchTo {t} : (branchTo t x).s.fuses = x.s.fuses := by simp [branchTo]

/-! ### DMA transfers (Machine/Dma.lean) -/

@[simp] theorem fuses_touchRange {r} : (x.touchRange r).s.fuses = x.s.fuses := rfl

@[simp] theorem fuses_copyInLine {d l} {m : Moved} : (copyInLine d m l).x.s.fuses = m.x.s.fuses := by
  unfold copyInLine
  dsimp only
  split
  · rfl
  · split <;> simp

@[simp] theorem fuses_copyOutLine {d l} {m : Moved} : (copyOutLine d m l).x.s.fuses = m.x.s.fuses := by
  unfold copyOutLine
  dsimp only
  split
  · rfl
  · simp

@[simp] theorem fuses_imemLine {l} {m : Moved} : (imemLine m l).x.s.fuses = m.x.s.fuses := by
  unfold imemLine
  dsimp only
  split <;> simp

@[simp] theorem fuses_sendBurst {c watch chip off ls} :
    (sendBurst c watch chip off ls s).2.fuses = s.fuses := by simp [sendBurst]

@[simp] theorem fuses_sendRead {c watch chip a loc n} :
    (sendRead c watch chip a loc n s).2.fuses = s.fuses := by simp [sendRead]

@[simp] theorem fuses_remoteIn {d c w chip} : (remoteIn d c w chip x).2.s.fuses = x.s.fuses := by
  unfold remoteIn
  refine (fuses_foldl_of (fun r : List RemoteReq × Ctx => r.2.s) fun acc r => ?_).trans (by dsimp only; split <;> rfl)
  extract_lets src dst n k bursts y k1
  have hy : y.2.s.fuses = acc.2.s.fuses :=
    fuses_foldl_of (fun r : List RemoteReq × Ctx => r.2.s) fun _ b => fuses_sendRead (loc := dst + (b.1 - src))
  exact hy

@[simp] theorem fuses_remoteOut {d c w chip} : (remoteOut d c w chip x).2.x.s.fuses = x.s.fuses := by
  unfold remoteOut
  refine fuses_foldl_of (fun r : List RemoteReq × Moved => r.2.x.s) fun acc r => ?_
  refine fuses_foldl_of (fun r : List RemoteReq × Moved => r.2.x.s) fun a b => ?_
  dsimp only
  split
  · rfl
  · exact fuses_sendBurst.trans fuses_correctLocal

@[simp] theorem fuses_startDma {d slot p w} : (startDma d slot p w x).s.fuses = x.s.fuses := by
  unfold startDma
  extract_lets chip y base z
  have hz : z.s.fuses = x.s.fuses := fuses_foldl_of Ctx.s fun _ _ => fuses_touchRange
  split
  · exact (fuses_foldl_of (fun m : Moved => m.x.s) fun _ _ => fuses_copyInLine).trans hz
  · exact (fuses_foldl_of (fun m : Moved => m.x.s) fun _ _ => fuses_copyOutLine).trans hz
  · exact fuses_remoteIn.trans hz
  · exact fuses_remoteOut.trans hz
  · exact hz
  · exact (fuses_foldl_of (fun m : Moved => m.x.s) fun _ _ => fuses_imemLine).trans hz

/-! ### The SYNC class (Machine/Sync.lean) -/

@[simp] theorem fuses_waits {w} : (x.waits w).s.fuses = x.s.fuses := rfl

@[simp] theorem fuses_doubt {chip} : (x.doubt chip).s.fuses = x.s.fuses := by
  unfold Ctx.doubt
  split <;> rfl

@[simp] theorem fuses_full : (x.full).s.fuses = x.s.fuses := by
  unfold Ctx.full
  split <;> rfl

@[simp] theorem fuses_localWord {op w p a} : (localWord op w p a x).s.fuses = x.s.fuses := by simp [localWord]

@[simp] theorem fuses_remoteWord {op w p a chip wt} :
    (remoteWord op w p a chip wt x).s.fuses = x.s.fuses := by simp [remoteWord]

/-! ### Syllables and bundles (Machine/Bundle.lean) -/

/-- The context that a syllable leaves, whether it ends well or raises an exception. -/
def Res.ctx : Res → Ctx
  | .ok y => y
  | .error (_, y) => y

@[simp] theorem Res.ctx_ok {y} : Res.ctx (.ok y) = y := rfl

@[simp] theorem Res.ctx_error {c y} : Res.ctx (.error (c, y)) = y := rfl

@[simp] theorem Res.ctx_ite {b : Prop} [Decidable b] {r r' : Res} : (if b then r else r').ctx = if b then r.ctx else r'.ctx :=
  apply_ite _ _ _ _

@[simp] theorem fuses_ctx_ite {b : Prop} [Decidable b] {y : Ctx} :
    (if b then x else y).s.fuses = if b then x.s.fuses else y.s.fuses := by
  split <;> rfl

@[simp] theorem ctx_require {b c k} : (require b c x k).ctx = if b then (k x).ctx else x := by
  unfold require
  split <;> rfl

theorem fuses_require {b c k} {y : Ctx} {u} (hy : y.s.fuses = u) (hk : (k y).ctx.s.fuses = u) :
    (require b c y k).ctx.s.fuses = u := by
  rw [ctx_require]
  split <;> assumption

@[simp] theorem fuses_status {w code cause} : (x.status w code cause).ctx.s.fuses = x.s.fuses := by
  unfold Ctx.status
  split <;> rfl

@[simp] theorem fuses_tensorOp {conv w} : (tensorOp conv w x).ctx.s.fuses = x.s.fuses := by
  simp [tensorOp]

@[simp] theorem fuses_aclrOp {w} : (aclrOp w x).ctx.s.fuses = x.s.fuses := by
  simp [aclrOp]

@[simp] theorem fuses_rescaleOp {rqv w} : (rescaleOp rqv w x).ctx.s.fuses = x.s.fuses := by
  simp [rescaleOp]

@[simp] theorem fuses_poolOp {global w} : (poolOp global w x).ctx.s.fuses = x.s.fuses := by
  unfold poolOp
  refine fuses_require rfl (fuses_require rfl (fuses_require fuses_readLocal (fuses_require fuses_readLocal ?_)))
  simp only [Res.ctx_ok]
  exact fuses_touch.trans (fuses_readLocal.trans fuses_readLocal)

@[simp] theorem fuses_cropOp {w} : (cropOp w x).ctx.s.fuses = x.s.fuses := by
  simp [cropOp]

@[simp] theorem fuses_vectorOp {w} : (vectorOp w x).ctx.s.fuses = x.s.fuses := by
  simp [vectorOp]

@[simp] theorem fuses_saluOp {w} : (saluOp w x).ctx.s.fuses = x.s.fuses := by
  simp [saluOp]

@[simp] theorem fuses_agenOp {w} : (agenOp w x).ctx.s.fuses = x.s.fuses := rfl

@[simp] theorem fuses_ldstOp {w} : (ldstOp w x).ctx.s.fuses = x.s.fuses := by
  simp [ldstOp]

@[simp] theorem fuses_branchOp {w p acts} : (branchOp w p acts x).ctx.s.fuses = x.s.fuses := by
  unfold branchOp
  split
  · rfl
  · rw [ctx_require]
    split
    · split <;> simp [loopOp]
    · rfl

@[simp] theorem fuses_acqOp {w} : (acqOp w x).ctx.s.fuses = x.s.fuses := by
  simp [acqOp]

@[simp] theorem fuses_headOp {w wt} : (headOp w wt x).ctx.s.fuses = x.s.fuses := by
  simp [headOp]

@[simp] theorem fuses_ckptOp {w wt} : (ckptOp w wt x).ctx.s.fuses = x.s.fuses := by
  simp [ckptOp]

@[simp] theorem fuses_epochOp {w wt} : (epochOp w wt x).ctx.s.fuses = x.s.fuses := by
  simp [epochOp]

@[simp] theorem fuses_wordOp {w p wt} : (wordOp w p wt x).ctx.s.fuses = x.s.fuses := by
  unfold wordOp
  refine fuses_require rfl (fuses_require rfl ?_)
  split
  · exact fuses_require rfl fuses_localWord
  · simp

@[simp] theorem fuses_syncOp {w p} : (syncOp w p x).ctx.s.fuses = x.s.fuses := by
  unfold syncOp
  split
  · rfl
  · split <;> simp

@[simp] theorem fuses_dmaOp {slot w p} : (dmaOp slot w p x).ctx.s.fuses = x.s.fuses := by
  unfold dmaOp
  refine fuses_require rfl (fuses_require rfl ?_)
  dsimp only
  split <;> simp

@[simp] theorem fuses_runSlot {l p i} : (runSlot l p i x).ctx.s.fuses = x.s.fuses := by
  unfold runSlot
  dsimp only
  split
  · exact fuses_branchOp
  · split
    · rfl
    · split
      · rfl
      · split <;> simp

theorem fuses_runSlots {l p is} {y : Ctx} (h : runSlots l p is x = .ok y) : y.s.fuses = x.s.fuses := by
  induction is generalizing x with
  | nil =>
    cases h
    rfl
  | cons i is ih =>
    unfold runSlots at h
    split at h
    · next z hz => exact (ih h).trans (by simpa [hz] using fuses_runSlot (l := l) (p := p) (i := i) (x := { x with slot := i }))
    · cases h

@[simp] theorem fuses_commitBundle {p} : (commitBundle p x).fuses = x.s.fuses := by
  unfold commitBundle
  dsimp only
  split <;> simp

@[simp] theorem fuses_startPart {l p j} : (startPart l p j x).fuses = x.s.fuses := by
  unfold startPart
  split
  · next y hy =>
    have h : y.s.fuses = x.s.fuses := fuses_runSlots hy
    split <;> simp [h]
  · rfl

@[simp] theorem fuses_startCtx {c l} : (startCtx c l s).s.fuses = s.fuses := fuses_of_otp rfl

@[simp] theorem fuses_issue {c l} : (issue c l s).fuses = s.fuses := by
  unfold issue
  extract_lets k p y
  have hy : y.s.fuses = s.fuses := rfl
  split
  · rfl
  · split
    · exact fuses_coreException
    · split
      · exact fuses_coreException
      · split
        · rfl
        · split
          · next z hz =>
            have h : z.s.fuses = s.fuses := fuses_runSlots hz
            split
            · rfl
            · split <;> simp [h, hy]
          · split
            · rfl
            · split <;> simp [hy]

@[simp] theorem fuses_fetch {c p} : (fetch c p s).fuses = s.fuses := by simp [fetch]

@[simp] theorem fuses_bundleIssue {c} : (bundleIssue c s).fuses = s.fuses := by simp [bundleIssue]

@[simp] theorem fuses_issueOne {c slot cls op w imm} : (issueOne c slot cls op w imm s).fuses = s.fuses := by simp [issueOne]

@[simp] theorem fuses_issueScoped {c op scope w imm} : (issueScoped c op scope w imm s).fuses = s.fuses := by simp [issueScoped]

/-! ### DMA rows (Machine/Syllables.lean) -/

@[simp] theorem fuses_issueDma {c slot cls kind w imm} : (issueDma c slot cls kind w imm s).fuses = s.fuses := by
  unfold issueDma
  split <;> simp

end

end Sys2Proof.Machine
end

