-- ==== Sys2Proof/Proofs/OtpCellsUnits.lean ====
section
/-! PROOF. Proofs/OtpCellsUnits.lean: the units of the device and the boot leave the cells of the OTP, but for the word that is
programmed. -/
namespace Sys2Proof.Machine
open Sys2Proof

section
variable {s : State} {x : Ctx}

/-! ### Inputs and the Stem engine's requests (Machine/Inputs.lean) -/

@[simp] theorem fuses_setBerth {b x} : (setBerth b x s).fuses = s.fuses := fuses_of_otp rfl

@[simp] theorem fuses_correctStem : (correctStem s).fuses = s.fuses := by simp [correctStem]

@[simp] theorem fuses_useStem {w} : (useStem w s).fuses = s.fuses := by simp [useStem]

@[simp] theorem fuses_stemReads {rs} : (s.stemReads rs).fuses = s.fuses := by simp [State.stemReads]

@[simp] theorem fuses_stemSat {n sat} : (stemSat n sat s).fuses = s.fuses := by simp [stemSat]

@[simp] theorem fuses_keep {f iy} : (FirstLayer.keep f iy s).fuses = s.fuses := fuses_of_otp rfl

@[simp] theorem fuses_issueHead {n} : (issueHead n s).fuses = s.fuses := by
  unfold issueHead
  repeat' split
  all_goals simp

@[simp] theorem fuses_issueHeads : (issueHeads s).fuses = s.fuses := by simp [issueHeads]

@[simp] theorem fuses_inputsDone {n} : (inputsDone n s).fuses = s.fuses := by
  unfold inputsDone
  dsimp only
  repeat' split
  all_goals simp

/-! ### The Stem engine (Machine/Stem.lean) -/

@[simp] theorem fuses_popStem : (popStem s).fuses = s.fuses := fuses_of_otp rfl

@[simp] theorem fuses_stemError : (stemError s).fuses = s.fuses := by simp [stemError]

@[simp] theorem fuses_stemWindow {n} : (stemWindow n s).fuses = s.fuses := by simp [stemWindow]

@[simp] theorem fuses_headDone {n core event} : (headDone n core event s).fuses = s.fuses := by
  unfold headDone
  split <;> simp

@[simp] theorem fuses_headBad {n} : (headBad n s).fuses = s.fuses := by simp [headBad]

@[simp] theorem fuses_headAborted {n core} : (headAborted n core s).fuses = s.fuses := by
  unfold headAborted
  split <;> simp

@[simp] theorem fuses_takeGroup {w core a event b} : (takeGroup w core a event b s).fuses = s.fuses := by
  unfold takeGroup
  dsimp only
  repeat' split
  all_goals simp

@[simp] theorem fuses_takeGroups {n} : (takeGroups n s).fuses = s.fuses := by
  induction n generalizing s with
  | zero => rfl
  | succ n ih =>
    unfold takeGroups
    split
    · dsimp only
      split
      · split
        · exact ih.trans fuses_takeGroup
        · rfl
      · exact ih.trans fuses_popStem
    · rfl

@[simp] theorem fuses_withFront {f : StemReq → Watch → State → State} (hf : ∀ a b x, (f a b x).fuses = x.fuses) :
    (withFront s f).fuses = s.fuses := by
  unfold withFront
  dsimp only
  repeat' split
  all_goals simp [hf]

@[simp] theorem fuses_spectralRun {w q ch c k} : (spectralRun w q ch c k s).fuses = s.fuses := by simp [spectralRun]

@[simp] theorem fuses_spectralFront : (spectralFront s).fuses = s.fuses := by
  refine fuses_withFront fun r w x => ?_
  dsimp only
  split
  · split
    · exact fuses_spectralRun
    · exact fuses_popStem
  · rfl

@[simp] theorem fuses_emitHead {w emit ds fired} : (emitHead w emit ds fired s).fuses = s.fuses := by simp [emitHead]

@[simp] theorem fuses_keepFeatures {w b d top} : (keepFeatures w b d top s).fuses = s.fuses := fuses_of_otp rfl

@[simp] theorem fuses_classify {w d wA bA ad} : (classify w d wA bA ad s).fuses = s.fuses := by
  unfold classify
  split <;> simp

theorem fuses_detect {w d t} (h : detect w d s = some t) : t.fuses = s.fuses := by
  unfold detect at h
  dsimp only at h
  split at h
  · cases h
  · cases h
    exact fuses_emitHead.trans fuses_putHbrLines

@[simp] theorem fuses_serveHead {w core event a b} : (serveHead w core event a b s).fuses = s.fuses := by
  have hp : (popStem s).fuses = s.fuses := fuses_popStem
  unfold serveHead
  extract_lets n d base ad shape wA bA rs y done
  have hy : y.fuses = s.fuses := fuses_stemReads.trans (fuses_useStem.trans hp)
  have hd : ∀ t, done = some t → t.fuses = s.fuses := fun t ht => by
    unfold done at ht
    split at ht
    · split at ht
      · cases ht
        exact fuses_classify.trans hy
      · cases ht
    · exact (fuses_detect ht).trans hy
  generalize done = o at hd ⊢
  cases o with
  | some t => simp [hp, hd t rfl]
  | none => simp [hp, hy]

@[simp] theorem fuses_headRequest : (headRequest s).fuses = s.fuses := by
  refine fuses_withFront fun r w x => ?_
  dsimp only
  split
  · split
    · exact fuses_stemWindow.trans fuses_popStem
    · split
      · exact fuses_stemError
      · split
        · rfl
        · exact fuses_serveHead
  · rfl

@[simp] theorem fuses_serveExport {w core event b} : (serveExport w core event b s).fuses = s.fuses := by
  unfold serveExport
  split <;> simp

@[simp] theorem fuses_roiExport : (roiExport s).fuses = s.fuses := by
  refine fuses_withFront fun r w x => ?_
  dsimp only
  split
  · split
    · exact fuses_stemWindow.trans fuses_popStem
    · split
      · exact fuses_stemError
      · split
        · exact fuses_serveExport
        · rfl
  · rfl

@[simp] theorem fuses_decideGroup {w j body g} : (decideGroup w j body g s).fuses = s.fuses := by
  unfold decideGroup
  dsimp only
  refine (fuses_foldl fun _ _ => fuses_headDone).trans ?_
  split <;> exact (fuses_modCores (s := _)).trans (fuses_foldl fun _ _ => fuses_putHbrLines)

@[simp] theorem fuses_groupDecision : (groupDecision s).fuses = s.fuses := by
  unfold groupDecision
  dsimp only
  repeat' split
  all_goals simp

@[simp] theorem fuses_writeService {w b toB} : (writeService w b toB s).1.fuses = s.fuses := fuses_of_otp rfl

@[simp] theorem fuses_emitAdapt {w d} : (emitAdapt w d s).fuses = s.fuses := by simp [emitAdapt]

@[simp] theorem fuses_headNotCommitted {byHost} : (headNotCommitted byHost s).fuses = s.fuses := by simp [headNotCommitted]

@[simp] theorem fuses_commitHead {w b byHost} : (commitHead w b byHost s).fuses = s.fuses :=
  fuses_adaptRead (fun _ => fuses_headNotCommitted) fun _ => fuses_requestCommit

@[simp] theorem fuses_stepEnded {n} : (stepEnded n s).fuses = s.fuses := by simp [stepEnded]

@[simp] theorem fuses_adaptStep {w b act e y byHost} : (adaptStep w b act e y byHost s).fuses = s.fuses := by simp [adaptStep]

@[simp] theorem fuses_adaptationStep : (adaptationStep s).fuses = s.fuses := by
  refine fuses_withFront fun r w x => ?_
  dsimp only
  split
  · split
    · split
      · split
        · rfl
        · split
          · exact fuses_stemError
          · exact fuses_adaptStep.trans (fuses_stemReads.trans (fuses_useStem.trans fuses_popStem))
      · exact fuses_popStem
    · exact fuses_popStem
  · rfl

@[simp] theorem fuses_buildAdapt {w} : (buildAdapt w s).fuses = s.fuses := by
  unfold buildAdapt
  split
  · rfl
  · next b _ =>
    extract_lets a n body
    split
    next st reset _ =>
    extract_lets s1 s2 s3 s4
    have h3 : s3.fuses = s.fuses := (fuses_foldl fun _ _ => fuses_putHbr).trans (fuses_writeService.trans fuses_putHbrWhole)
    split
    · exact fuses_release.trans h3
    · exact h3

@[simp] theorem fuses_stemReleased : (stemReleased s).fuses = s.fuses := by
  unfold stemReleased
  extract_lets q sys stem s1 groups s2 s3
  have h2 : s2.fuses = s.fuses := (fuses_foldl fun x r => by split <;> simp).trans rfl
  have h3 : s3.fuses = s.fuses := (fuses_foldl fun _ _ => fuses_headAborted.trans fuses_modJob).trans h2
  split
  · split
    · exact fuses_watchFatal.trans h3
    · exact h3
  · exact h3

@[simp] theorem fuses_stemBufferError : (stemBufferError s).fuses = s.fuses := by simp [stemBufferError]

/-! ### The pixel front end (Machine/Pixel.lean) -/

@[simp] theorem fuses_acquirePixels {w} : (acquirePixels w s).fuses = s.fuses := by simp [acquirePixels]

@[simp] theorem fuses_acquireAdc {w} : (acquireAdc w s).fuses = s.fuses := by simp [acquireAdc]

@[simp] theorem fuses_inputAcquire {n} : (inputAcquire n s).fuses = s.fuses := by
  unfold inputAcquire
  split <;> simp

@[simp] theorem fuses_xrefReady : (xrefReady s).fuses = s.fuses := by simp [xrefReady]

@[simp] theorem fuses_xrefTimeout : (xrefTimeout s).fuses = s.fuses := by
  unfold xrefTimeout
  dsimp only
  repeat' split
  all_goals simp

@[simp] theorem fuses_vpixReadyEvent : (vpixReadyEvent s).fuses = s.fuses := by simp [vpixReadyEvent]

@[simp] theorem fuses_pixelSupply : (pixelSupply s).fuses = s.fuses := by
  unfold pixelSupply
  split <;> simp

@[simp] theorem fuses_vpixWaitTimeout : (vpixWaitTimeout s).fuses = s.fuses := by simp [vpixWaitTimeout]

@[simp] theorem fuses_vpixLow : (vpixLow s).fuses = s.fuses := by
  unfold vpixLow
  split <;> simp

@[simp] theorem fuses_modCap {f : Capture → Capture} : (modCap f s).fuses = s.fuses := fuses_of_otp rfl

@[simp] theorem fuses_strobeLead : (strobeLead s).fuses = s.fuses := by
  unfold strobeLead
  split <;> simp

@[simp] theorem fuses_startExposure {c w p missed} : (startExposure c w p missed s).fuses = s.fuses := fuses_of_otp rfl

@[simp] theorem fuses_exposureStart : (exposureStart s).fuses = s.fuses := by
  unfold exposureStart
  split <;> simp

@[simp] theorem fuses_fsyncEdge : (fsyncEdge s).fuses = s.fuses := by
  unfold fsyncEdge
  split <;> simp

@[simp] theorem fuses_fsyncExpiry : (fsyncExpiry s).fuses = s.fuses := by
  unfold fsyncExpiry
  split <;> simp

@[simp] theorem fuses_exposureEnd {period} : (exposureEnd period s).fuses = s.fuses := by
  unfold exposureEnd
  split
  · split
    · split
      · rfl
      · exact (fuses_foldl fun _ _ => fuses_setBerth).trans fuses_modCap
    · rfl
  · rfl

theorem fuses_putForJob {w a ls t} (h : putForJob w a ls s = some t) : t.fuses = s.fuses := by
  unfold putForJob at h
  split at h
  · cases h
    rfl
  · cases h

theorem fuses_foldl_bind {α : Type} {l : List α} {f : α → State → Option State}
    (hf : ∀ a x t, f a x = some t → t.fuses = x.fuses) {t} (h : l.foldl (fun o a => o.bind (f a)) (some s) = some t) :
    t.fuses = s.fuses := by
  refine List.foldlRecOn (motive := fun o => ∀ t, o = some t → t.fuses = s.fuses) l _ (fun t ht => ?_)
    (fun o ho a _ t ht => ?_) t h
  · cases ht
    rfl
  · obtain ⟨x, hx, hfx⟩ := Option.bind_eq_some_iff.mp ht
    exact (hf a x t hfx).trans (ho x hx)

theorem fuses_stemRow {w p e r px r' t b} (h : stemRow w p e r px s = (some (r', t), b)) : t.fuses = s.fuses := by
  unfold stemRow at h
  split at h
  · cases h
    rfl
  · extract_lets c hist old rows f size s1 s2 due dst out at h
    split at h
    · cases h
    · split at h
      · cases h
      · have h1 : s1.fuses = s.fuses := fuses_foldl fun _ _ => fuses_visit
        have h2 : s2.fuses = s.fuses := by
          unfold s2
          split
          · exact fuses_keep.trans h1
          · exact h1
        simp only [Prod.mk.injEq, Option.map_eq_some_iff] at h
        obtain ⟨⟨x, hx, -, rfl⟩, -⟩ := h
        refine fuses_useStem.trans ((fuses_foldl_bind (fun oy y z hz => ?_) hx).trans h2)
        obtain ⟨u, hu, rfl⟩ := Option.map_eq_some_iff.mp hz
        exact fuses_stemSat.trans (fuses_putForJob hu)

theorem fuses_windowRow {w p e row r r' t b} (h : windowRow w p e row r s = (some (r', t), b)) : t.fuses = s.fuses := by
  unfold windowRow at h
  dsimp only at h
  split at h
  · cases h
    rfl
  · split at h
    · exact fuses_stemRow h
    · simp only [Prod.mk.injEq, Option.map_eq_some_iff] at h
      obtain ⟨⟨x, hx, -, rfl⟩, -⟩ := h
      exact fuses_putForJob hx

@[simp] theorem fuses_placeRow {w e row ps} : (placeRow w e row ps s).fuses = s.fuses := by
  induction ps generalizing s with
  | nil => rfl
  | cons p ps ih =>
    obtain ⟨p, i⟩ := p
    unfold placeRow
    split
    · split
      · next r t _ h =>
        have h : t.fuses = s.fuses := fuses_windowRow h
        exact ih.trans h
      · exact fuses_stemError
      · exact fuses_watchFatal
    · rfl

@[simp] theorem fuses_pixelRow {black raw} : (pixelRow black raw s).fuses = s.fuses := by
  unfold pixelRow
  repeat' split
  all_goals simp

@[simp] theorem fuses_frameComplete : (frameComplete s).fuses = s.fuses := by
  unfold frameComplete
  split
  · split
    · split
      · rfl
      · extract_lets mean heads s1 s2 s3 s4
        have h2 : s2.fuses = s.fuses := (fuses_foldl fun _ _ => fuses_setBerth).trans (fuses_foldl fun _ _ => fuses_putHbrLines)
        split
        · exact fuses_watchFatal
        · split
          · exact fuses_inputsDone.trans (fuses_keepVpix.trans h2)
          · exact h2
    · rfl
  · rfl

@[simp] theorem fuses_sentinelFrame {rows} : (sentinelFrame rows s).fuses = s.fuses := by
  unfold sentinelFrame
  split
  · dsimp only
    split
    · exact fuses_of_otp rfl
    · exact fuses_triggerAll.trans (fuses_of_otp rfl)
  · rfl

/-! ### Applied writes and pins (Machine/Gpio.lean) -/

@[simp] theorem fuses_applied {addr v} {f : State → State} (hf : ∀ x, (f x).fuses = x.fuses) :
    (applied addr v f s).fuses = s.fuses := by
  unfold applied
  split <;> simp [hf]

@[simp] theorem fuses_registerIrq : (registerIrq s).fuses = s.fuses := fuses_of_otp rfl

@[simp] theorem fuses_irqPulseEnd : (irqPulseEnd s).fuses = s.fuses := fuses_of_otp rfl

@[simp] theorem fuses_pinSample {pads rise fall} : (pinSample pads rise fall s).fuses = s.fuses := by simp [pinSample]

@[simp] theorem fuses_writePin {p v} : (writePin p v s).fuses = s.fuses := by simp [writePin]

@[simp] theorem fuses_writePilsel {v} : (writePilsel v s).fuses = s.fuses := fuses_of_otp rfl

@[simp] theorem fuses_writePilcfg {v} : (writePilcfg v s).fuses = s.fuses := fuses_of_otp rfl

@[simp] theorem fuses_writeGpioOut {v} : (writeGpioOut v s).fuses = s.fuses := fuses_of_otp rfl

@[simp] theorem fuses_writeGpioOe {v} : (writeGpioOe v s).fuses = s.fuses := fuses_of_otp rfl

@[simp] theorem fuses_clearPilEvents {v} : (clearPilEvents v s).fuses = s.fuses := fuses_of_otp rfl

@[simp] theorem fuses_clearAlarmLines {v} : (clearAlarmLines v s).fuses = s.fuses := fuses_of_otp rfl

/-! ### The OTP (Machine/Otp.lean) -/

@[simp] theorem fuses_otpCheck : (otpCheck s).fuses = s.fuses := fuses_of_cells rfl rfl

@[simp] theorem fuses_faultBlink : (faultBlink s).fuses = s.fuses := by
  unfold faultBlink
  split <;> rfl

@[simp] theorem fuses_setLocks : (setLocks s).fuses = s.fuses := fuses_of_cells rfl rfl

@[simp] theorem fuses_clearKeys : (clearKeys s).fuses = s.fuses := fuses_of_cells rfl rfl

@[simp] theorem fuses_enterLifecycle {t} : (enterLifecycle t s).fuses = s.fuses := by
  unfold enterLifecycle
  split <;> rfl

@[simp] theorem fuses_otpRead {a} : (otpRead a s).fuses = s.fuses := by
  unfold otpRead
  dsimp only
  repeat' split
  all_goals rfl

@[simp] theorem fuses_otpReadAddr {v} : (otpReadAddr v s).fuses = s.fuses := by
  unfold otpReadAddr
  dsimp only
  split
  · rfl
  · exact fuses_otpRead

@[simp] theorem fuses_otpEnd {code word mailbox} : (otpEnd code word mailbox s).fuses = s.fuses := by
  unfold otpEnd
  dsimp only
  split
  · exact fuses_mbxComplete
  · rfl

@[simp] theorem fuses_otpNext {r} : (otpNext r s).fuses = s.fuses := by
  unfold otpNext
  split
  · rw [fuses_otpEnd]
    split
    · exact fuses_enterLifecycle
    · rfl
  · split
    · rfl
    · exact fuses_otpEnd

@[simp] theorem fuses_lifecycleAdvance {args mailbox} :
    (lifecycleAdvance args mailbox s).fuses = s.fuses := by simp [lifecycleAdvance]

@[simp] theorem fuses_programRollback {target mailbox} :
    (programRollback target mailbox s).fuses = s.fuses := by simp [programRollback]

@[simp] theorem fuses_otpProgram {args mailbox} : (otpProgram args mailbox s).fuses = s.fuses := by
  unfold otpProgram
  dsimp only
  repeat' split
  all_goals simp

/-! ### The watch table (Machine/Table.lean) -/

@[simp] theorem fuses_validateWatch {n} : (validateWatch n s).fuses = s.fuses := by
  unfold validateWatch
  repeat' split
  all_goals simp

@[simp] theorem fuses_buildTable : (buildTable s).fuses = s.fuses := by
  unfold buildTable
  split <;> simp

/-! ### The Aux ADC (Machine/Adc.lean) -/

@[simp] theorem fuses_modAdcCap {f : AdcCapture → AdcCapture} : (modAdcCap f s).fuses = s.fuses := fuses_of_otp rfl

@[simp] theorem fuses_bandgapFails : (bandgapFails s).fuses = s.fuses := fuses_of_otp rfl

@[simp] theorem fuses_calEnd {code} : (calEnd code s).fuses = s.fuses := by simp [calEnd]

@[simp] theorem fuses_bandgapCheck {sum} : (bandgapCheck sum s).fuses = s.fuses := by
  unfold bandgapCheck
  repeat' split
  all_goals simp

@[simp] theorem fuses_sequencerStart : (sequencerStart s).fuses = s.fuses := by
  unfold sequencerStart
  split <;> simp

@[simp] theorem fuses_adcInputs {w} : (adcInputs w s).fuses = s.fuses := by
  unfold adcInputs
  dsimp only
  repeat' split
  all_goals simp

@[simp] theorem fuses_blockComplete {chain first clocks} : (blockComplete chain first clocks s).fuses = s.fuses := by
  unfold blockComplete
  split
  · dsimp only
    split
    · split
      · rfl
      · split
        · exact fuses_watchFatal
        · next h =>
          have h := fuses_putForJob h
          split
          · exact fuses_watchFatal.trans h
          · refine fuses_adcInputs.trans ?_
            split <;> exact h
    · rfl
  · rfl

@[simp] theorem fuses_adcOverrun : (adcOverrun s).fuses = s.fuses := by
  unfold adcOverrun
  split <;> simp

@[simp] theorem fuses_adcReleased : (adcReleased s).fuses = s.fuses := by
  unfold adcReleased
  dsimp only
  split <;> simp

@[simp] theorem fuses_calMeasured {sum ovr} : (calMeasured sum ovr s).fuses = s.fuses := by
  unfold calMeasured
  dsimp only
  repeat' split
  all_goals simp

@[simp] theorem fuses_calBegin {p applied} : (calBegin p applied s).fuses = s.fuses := by simp [calBegin]

@[simp] theorem fuses_calZero {args} : (calZero args s).fuses = s.fuses := by
  unfold calZero
  split <;> simp

@[simp] theorem fuses_calFull {args} : (calFull args s).fuses = s.fuses := by
  unfold calFull
  split <;> simp

@[simp] theorem fuses_calCommit {args} : (calCommit args s).fuses = s.fuses := by simp [calCommit]

/-! ### The Causeway (Machine/Causeway.lean) -/

@[simp] theorem fuses_portReset {p} : (portReset p s).fuses = s.fuses := by simp [portReset]

@[simp] theorem fuses_completeRemote {c i q} : (completeRemote c i q s).fuses = s.fuses := by simp [completeRemote]

@[simp] theorem fuses_loseOne {c i q} : (loseOne c i q s).fuses = s.fuses := by simp [loseOne]

@[simp] theorem fuses_loseOps {c chip n} : (loseOps c chip n s).fuses = s.fuses := by
  induction n generalizing s with
  | zero => rfl
  | succ n ih =>
    unfold loseOps
    split
    · exact ih.trans fuses_loseOne
    · rfl

@[simp] theorem fuses_endDoubt {c chip} : (endDoubt c chip s).fuses = s.fuses := by simp [endDoubt]

@[simp] theorem fuses_clearMarkers {chips} : (clearMarkers chips s).fuses = s.fuses := by
  refine (fuses_foldl fun x c => ?_).trans rfl
  split
  · split
    · exact fuses_settle.trans fuses_modCore
    · rfl
  · rfl

@[simp] theorem fuses_taintChips {chips} : (taintChips chips s).fuses = s.fuses := by simp [taintChips]

@[simp] theorem fuses_doubtChips {chips} : (doubtChips chips s).fuses = s.fuses := fuses_of_otp rfl

@[simp] theorem fuses_sendFlushes : (sendFlushes s).fuses = s.fuses := by simp [sendFlushes]

@[simp] theorem fuses_learnChange {chips} : (learnChange chips s).fuses = s.fuses := by simp [learnChange]

@[simp] theorem fuses_sendNotice {p upper epoch} : (sendNotice p upper epoch s).fuses = s.fuses := by simp [sendNotice]

@[simp] theorem fuses_epochChanged {p e} : (epochChanged p e s).fuses = s.fuses := by simp [epochChanged]

@[simp] theorem fuses_agree {p t} : (agree p t s).fuses = s.fuses := by
  unfold agree
  split <;> simp

@[simp] theorem fuses_ts1Received {p t} : (ts1Received p t s).fuses = s.fuses := by simp [ts1Received]

@[simp] theorem fuses_ts2Received {p t} : (ts2Received p t s).fuses = s.fuses := by
  unfold ts2Received
  dsimp only
  split <;> simp

@[simp] theorem fuses_ts1Send {p} : (ts1Send p s).fuses = s.fuses := by
  unfold ts1Send
  dsimp only
  repeat' split
  all_goals simp

@[simp] theorem fuses_lanePllLocked {p} : (lanePllLocked p s).fuses = s.fuses := by simp [lanePllLocked]

@[simp] theorem fuses_receiverAligned {p} : (receiverAligned p s).fuses = s.fuses := by simp [receiverAligned]

@[simp] theorem fuses_mismatch : (mismatch s).fuses = s.fuses := by simp [mismatch]

@[simp] theorem fuses_takeNumber {n} : (takeNumber n s).fuses = s.fuses := by simp [takeNumber]

@[simp] theorem fuses_takeLength {n} : (takeLength n s).fuses = s.fuses := by simp [takeLength]

@[simp] theorem fuses_sendChain {p n} : (sendChain p n s).fuses = s.fuses := by simp [sendChain]

@[simp] theorem fuses_releaseWake : (releaseWake s).fuses = s.fuses := by simp [releaseWake]

@[simp] theorem fuses_linkTrained {p} : (linkTrained p s).fuses = s.fuses := by
  unfold linkTrained
  dsimp only
  repeat' split
  all_goals simp

@[simp] theorem fuses_trainingTimeout {p} : (trainingTimeout p s).fuses = s.fuses := by simp [trainingTimeout]

@[simp] theorem fuses_trainingRetry {p} : (trainingRetry p s).fuses = s.fuses := by simp [trainingRetry]

@[simp] theorem fuses_ackReceived {p q} : (ackReceived p q s).fuses = s.fuses := by simp [ackReceived]

@[simp] theorem fuses_retransmit {p} : (retransmit p s).fuses = s.fuses := by simp [retransmit]

@[simp] theorem fuses_creditReceived {p v n} : (creditReceived p v n s).fuses = s.fuses := by simp [creditReceived]

@[simp] theorem fuses_sleepReq {p} : (sleepReq p s).fuses = s.fuses := by simp [sleepReq]

@[simp] theorem fuses_sleepAck {p} : (sleepAck p s).fuses = s.fuses := by simp [sleepAck]

@[simp] theorem fuses_sleepIdle {p} : (sleepIdle p s).fuses = s.fuses := by simp [sleepIdle]

@[simp] theorem fuses_sendAck {p} : (sendAck p s).fuses = s.fuses := by simp [sendAck]

@[simp] theorem fuses_ackDeadline {p} : (ackDeadline p s).fuses = s.fuses := by simp [ackDeadline]

@[simp] theorem fuses_sendNak {p} : (sendNak p s).fuses = s.fuses := by simp [sendNak]

@[simp] theorem fuses_crcError {p} : (crcError p s).fuses = s.fuses := by simp [crcError]

@[simp] theorem fuses_codeError {p isControl inWindow} :
    (codeError p isControl inWindow s).fuses = s.fuses := by simp [codeError]

@[simp] theorem fuses_laneLockLoss {p} : (laneLockLoss p s).fuses = s.fuses := by simp [laneLockLoss]

@[simp] theorem fuses_transitTimeout {p} : (transitTimeout p s).fuses = s.fuses := by
  unfold transitTimeout
  split <;> simp

@[simp] theorem fuses_flushTimeout {c chip} : (flushTimeout c chip s).fuses = s.fuses := by simp [flushTimeout]

@[simp] theorem fuses_cwWake {level} : (cwWake level s).fuses = s.fuses := by simp [cwWake]

@[simp] theorem fuses_acceptPacket {p k} : (acceptPacket p k s).fuses = s.fuses := by simp [acceptPacket]

@[simp] theorem fuses_receive {p type seq epoch k} {f : Packet → State → State} (hf : ∀ a x, (f a x).fuses = x.fuses) :
    (receive p type seq epoch k f s).fuses = s.fuses := by simp [receive, hf]

@[simp] theorem fuses_answer {k type status} : (answer k type status s).fuses = s.fuses := by simp [answer]

@[simp] theorem fuses_refuse {k type} : (refuse k type s).fuses = s.fuses := by simp [refuse]

@[simp] theorem fuses_performBurst {k off ls} : (performBurst k off ls s).fuses = s.fuses := by simp [performBurst]

@[simp] theorem fuses_wrPacket {k} : (wrPacket k s).fuses = s.fuses := by
  unfold wrPacket
  dsimp only
  repeat' split
  all_goals simp

@[simp] theorem fuses_refusePoisoned {k type line} : (refusePoisoned k type line s).fuses = s.fuses := by simp [refusePoisoned]

@[simp] theorem fuses_wrwPacket {k} : (wrwPacket k s).fuses = s.fuses := by simp [wrwPacket]

@[simp] theorem fuses_rdPacket {k} : (rdPacket k s).fuses = s.fuses := by
  unfold rdPacket
  dsimp only
  repeat' split
  all_goals simp

@[simp] theorem fuses_rdwPacket {k} : (rdwPacket k s).fuses = s.fuses := by simp [rdwPacket]

@[simp] theorem fuses_markerPacket {k} : (markerPacket k s).fuses = s.fuses := by simp [markerPacket]

@[simp] theorem fuses_flushPacket {k} : (flushPacket k s).fuses = s.fuses := by simp [flushPacket]

@[simp] theorem fuses_answered {c i q txn} : (answered c i q txn s).fuses = s.fuses := by simp [answered]

@[simp] theorem fuses_refusedAt {c i q} : (refusedAt c i q s).fuses = s.fuses := by simp [refusedAt]

@[simp] theorem fuses_ackPacket {k} : (ackPacket k s).fuses = s.fuses := by
  unfold ackPacket
  split <;> simp

@[simp] theorem fuses_rdDataPacket {k} : (rdDataPacket k s).fuses = s.fuses := by
  unfold rdDataPacket
  split <;> simp

@[simp] theorem fuses_rdwDataPacket {k} : (rdwDataPacket k s).fuses = s.fuses := by
  unfold rdwDataPacket
  repeat' split
  all_goals simp

@[simp] theorem fuses_flushDonePacket {k} : (flushDonePacket k s).fuses = s.fuses := by simp [flushDonePacket]

@[simp] theorem fuses_msgPacket {k} : (msgPacket k s).fuses = s.fuses := by simp [msgPacket]

@[simp] theorem fuses_noticePacket {p k} : (noticePacket p k s).fuses = s.fuses := by simp [noticePacket]

@[simp] theorem fuses_chainPacket {p k} : (chainPacket p k s).fuses = s.fuses := by
  unfold chainPacket
  split <;> simp

@[simp] theorem fuses_portReleased {p} : (portReleased p s).fuses = s.fuses := by simp [portReleased]

/-! ### Partial resets, chip-fatal errors and the scrub (Machine/Units.lean) -/

@[simp] theorem fuses_coreReleased {c} : (coreReleased c s).fuses = s.fuses := by
  unfold coreReleased
  dsimp only
  repeat' split
  all_goals simp

@[simp] theorem fuses_partialResetRelease {u} : (partialResetRelease u s).fuses = s.fuses := by
  unfold partialResetRelease
  repeat' split
  all_goals simp

@[simp] theorem fuses_drainTimeout {u} : (drainTimeout u s).fuses = s.fuses := by simp [drainTimeout]

@[simp] theorem fuses_fatalError {code} : (fatalError code s).fuses = s.fuses := by simp [fatalError]

@[simp] theorem fuses_scrubPoison {l} : (scrubPoison l s).fuses = s.fuses := by simp [scrubPoison]

@[simp] theorem fuses_scrub {n single double} : (scrub n single double s).fuses = s.fuses := by simp [scrub]

/-! ### The boot (Machine/Boot.lean) -/

@[simp] theorem fuses_failBoot {code} : (failBoot code s).fuses = s.fuses := by simp [failBoot]

@[simp] theorem fuses_toStage {st} : (toStage st s).fuses = s.fuses := fuses_of_otp rfl

@[simp] theorem fuses_softReset {v} : (softReset v s).fuses = s.fuses := by
  unfold softReset
  repeat' split
  all_goals simp

@[simp] theorem fuses_softTaken : (softTaken s).fuses = s.fuses := by simp [softTaken]

@[simp] theorem fuses_thermalEnd {temp} : (thermalEnd temp s).fuses = s.fuses := by simp [thermalEnd]

@[simp] theorem fuses_resetRelease {pads} : (resetRelease pads s).fuses = s.fuses := by simp [resetRelease]

@[simp] theorem fuses_lfSwitch : (lfSwitch s).fuses = s.fuses := by simp [lfSwitch]

@[simp] theorem fuses_lfTimeout : (lfTimeout s).fuses = s.fuses := by simp [lfTimeout]

@[simp] theorem fuses_lfFall : (lfFall s).fuses = s.fuses := by simp [lfFall]

@[simp] theorem fuses_pllLock : (pllLock s).fuses = s.fuses := by simp [pllLock]

@[simp] theorem fuses_loadKeys : (loadKeys s).fuses = s.fuses := by
  unfold loadKeys
  split <;> rfl

@[simp] theorem fuses_restartWatchdog : (restartWatchdog s).fuses = s.fuses := fuses_of_otp rfl

@[simp] theorem fuses_copiedBytes {n} : (copiedBytes n s).fuses = s.fuses := by simp [copiedBytes]

@[simp] theorem fuses_railWaitEnd : (railWaitEnd s).fuses = s.fuses := by simp [railWaitEnd]

@[simp] theorem fuses_flashProbe {r} : (flashProbe r s).fuses = s.fuses := by simp [flashProbe]

@[simp] theorem fuses_manifestGood {b off imageLen slot} : (manifestGood b off imageLen slot s).fuses = s.fuses := by
  unfold manifestGood
  dsimp only
  split
  · rfl
  · exact fuses_failBoot

@[simp] theorem fuses_manifestFirst {bytes} : (manifestFirst bytes s).fuses = s.fuses := by
  unfold manifestFirst
  dsimp only
  repeat' split
  all_goals simp

@[simp] theorem fuses_manifestSecond {bytes} : (manifestSecond bytes s).fuses = s.fuses := by
  unfold manifestSecond
  dsimp only
  repeat' split
  all_goals simp

@[simp] theorem fuses_takeOwnerKeys {b} : (takeOwnerKeys b s).fuses = s.fuses := by
  unfold takeOwnerKeys
  dsimp only
  split
  · exact fuses_raiseAlarm
  · rfl

@[simp] theorem fuses_rollbackCheck : (rollbackCheck s).fuses = s.fuses := by
  unfold rollbackCheck
  split <;> simp

@[simp] theorem fuses_nextRecord : (nextRecord s).fuses = s.fuses := by simp [nextRecord]

@[simp] theorem fuses_clearPlaced {e} : (clearPlaced e s).fuses = s.fuses := fuses_of_otp rfl

@[simp] theorem fuses_acceptRecord {m e bytes} : (acceptRecord m e bytes s).fuses = s.fuses := by
  unfold acceptRecord
  dsimp only
  repeat' split
  all_goals simp

@[simp] theorem fuses_recordCopy {bytes} : (recordCopy bytes s).fuses = s.fuses := by
  unfold recordCopy
  split <;> simp

@[simp] theorem fuses_recordRecopy {bytes} : (recordRecopy bytes s).fuses = s.fuses := by
  unfold recordRecopy
  split <;> simp

@[simp] theorem fuses_imageRegisters : (imageRegisters s).fuses = s.fuses := by
  unfold imageRegisters
  split <;> rfl

@[simp] theorem fuses_applyPatch : (applyPatch s).fuses = s.fuses := by
  unfold applyPatch
  split <;> simp

@[simp] theorem fuses_deriveTagKeys : (deriveTagKeys s).fuses = s.fuses := by
  unfold deriveTagKeys
  split <;> rfl

@[simp] theorem fuses_applyPower : (applyPower s).fuses = s.fuses := by
  unfold applyPower
  split <;> simp

@[simp] theorem fuses_applyLink : (applyLink s).fuses = s.fuses := by
  unfold applyLink
  split <;> simp

@[simp] theorem fuses_applyPins : (applyPins s).fuses = s.fuses := by
  unfold applyPins
  split <;> simp

@[simp] theorem fuses_firmwareStart : (firmwareStart s).fuses = s.fuses := by simp [firmwareStart]

end

end Sys2Proof.Machine
end

