-- ==== Sys2Proof/Proofs/OtpCellsHost.lean ====
section
/-! PROOF. Proofs/OtpCellsHost.lean: register writes, the Host port, the mailbox, debug access and the tick leave the cells of
the OTP. -/
namespace Sys2Proof.Machine
open Sys2Proof

section
variable {s : State} {x : Ctx}

/-! ### Register writes (Machine/Quay.lean) -/

@[simp] theorem fuses_clearAlarm {v} : (clearAlarm v s).fuses = s.fuses := fuses_of_otp rfl

@[simp] theorem fuses_selectLog {v} : (selectLog v s).fuses = s.fuses := fuses_of_otp rfl

@[simp] theorem fuses_popHead : (popHead s).fuses = s.fuses := by
  unfold popHead
  split <;> rfl

@[simp] theorem fuses_writePop {v} : (writePop v s).fuses = s.fuses := by simp [writePop]

@[simp] theorem fuses_writeIrq {v} : (writeIrq v s).fuses = s.fuses := fuses_of_otp rfl

@[simp] theorem fuses_clearIrq {v} : (clearIrq v s).fuses = s.fuses := fuses_of_otp rfl

@[simp] theorem fuses_writeMbxCmd {v} : (writeMbxCmd v s).fuses = s.fuses := by simp [writeMbxCmd]

@[simp] theorem fuses_writeMbxArg {n v} : (writeMbxArg n v s).fuses = s.fuses := fuses_of_otp rfl

@[simp] theorem fuses_clearDropped {v} : (clearDropped v s).fuses = s.fuses := by simp [clearDropped]

@[simp] theorem fuses_writeTideCtrl {v} : (writeTideCtrl v s).fuses = s.fuses := by simp [writeTideCtrl]

@[simp] theorem fuses_clearMismatch {v} : (clearMismatch v s).fuses = s.fuses := by simp [clearMismatch]

@[simp] theorem fuses_writeAlarmCfg {n v} : (writeAlarmCfg n v s).fuses = s.fuses := fuses_of_otp rfl

@[simp] theorem fuses_writeIepe {v} : (writeIepe v s).fuses = s.fuses := by simp [writeIepe]

@[simp] theorem fuses_writeForceAwake {v} : (writeForceAwake v s).fuses = s.fuses := fuses_of_otp rfl

@[simp] theorem fuses_writeLockRd {v} : (writeLockRd v s).fuses = s.fuses := fuses_of_cells rfl rfl

@[simp] theorem fuses_writeLockWr {v} : (writeLockWr v s).fuses = s.fuses := fuses_of_cells rfl rfl

@[simp] theorem fuses_ignoreWrite : (ignoreWrite s).fuses = s.fuses := fuses_of_otp rfl

@[simp] theorem fuses_writeLearn {v} : (writeLearn v s).fuses = s.fuses := by simp [writeLearn]

@[simp] theorem fuses_writeSentCfg {v} : (writeSentCfg v s).fuses = s.fuses := fuses_of_otp rfl

@[simp] theorem fuses_writeReg {a v} : (writeReg a v s).fuses = s.fuses := by
  unfold writeReg
  repeat' split
  all_goals simp

/-! ### The Host port (Machine/HostPort.lean) -/

@[simp] theorem fuses_endStream : (endStream s).fuses = s.fuses := by
  unfold endStream
  split <;> rfl

@[simp] theorem fuses_beginFrame : (beginFrame s).fuses = s.fuses := by simp [beginFrame]

@[simp] theorem fuses_shiftQuay {per a n} : (shiftQuay per a n s).fuses = s.fuses := fuses_of_otp rfl

@[simp] theorem fuses_captureWord {a v} : (captureWord a v s).fuses = s.fuses := by simp [captureWord]

@[simp] theorem fuses_captureWords {a ws} : (captureWords a ws s).fuses = s.fuses := by
  induction ws generalizing a s with
  | nil => rfl
  | cons w ws ih => exact ih.trans fuses_captureWord

@[simp] theorem fuses_hostWrite {a ws} : (hostWrite a ws s).fuses = s.fuses := by simp [hostWrite]

@[simp] theorem fuses_decideSlot : (decideSlot s).fuses = s.fuses := fuses_of_otp rfl

@[simp] theorem fuses_endSlot {r} : (endSlot r s).fuses = s.fuses := by simp [endSlot]

@[simp] theorem fuses_shiftSlot {per n} : (shiftSlot per n s).fuses = s.fuses := by
  unfold shiftSlot
  dsimp only
  repeat' split
  all_goals simp

@[simp] theorem fuses_shiftSlots {per k n} : (shiftSlots per k n s).fuses = s.fuses := by
  induction k generalizing n s with
  | zero => rfl
  | succ k ih =>
    unfold shiftSlots
    split
    · rfl
    · exact ih.trans fuses_shiftSlot

@[simp] theorem fuses_streamPiece {per first last n} : (streamPiece per first last n s).fuses = s.fuses := by simp [streamPiece]

@[simp] theorem fuses_spi {timed} {f : State → State} (hf : ∀ x, (f x).fuses = x.fuses) :
    (spi timed f s).fuses = s.fuses := by simp [spi, hf]

@[simp] theorem fuses_i2c {target} {f : State → State} (hf : ∀ x, (f x).fuses = x.fuses) :
    (i2c target f s).fuses = s.fuses := by simp [i2c, hf]

@[simp] theorem fuses_leaveAt {a} : (leaveAt a s).fuses = s.fuses := fuses_of_otp rfl

@[simp] theorem fuses_spiRead {a n} : (spiRead a n s).fuses = s.fuses := by simp [spiRead]

@[simp] theorem fuses_spiWrite {a ws} : (spiWrite a ws s).fuses = s.fuses := by simp [spiWrite]

@[simp] theorem fuses_spiStream {a first last bits} : (spiStream a first last bits s).fuses = s.fuses := by simp [spiStream]

@[simp] theorem fuses_spiUnknown {cmd} : (spiUnknown cmd s).fuses = s.fuses := by simp [spiUnknown]

@[simp] theorem fuses_i2cWrite {a bs} : (i2cWrite a bs s).fuses = s.fuses := by simp [i2cWrite]

@[simp] theorem fuses_i2cStream {first last clocks} : (i2cStream first last clocks s).fuses = s.fuses := by simp [i2cStream]

@[simp] theorem fuses_i2cRead {addr n} : (i2cRead addr n s).fuses = s.fuses := by simp [i2cRead]

@[simp] theorem fuses_i2cStreamPiece {addr first last clocks} :
    (i2cStreamPiece addr first last clocks s).fuses = s.fuses := by simp [i2cStreamPiece]

@[simp] theorem fuses_heldRecordPlace : (heldRecordPlace s).fuses = s.fuses := by simp [heldRecordPlace]

@[simp] theorem fuses_backlogRefill : (backlogRefill s).fuses = s.fuses := by simp [backlogRefill]

/-! ### Mailbox commands (Machine/Mailbox.lean) -/

@[simp] theorem fuses_beginMbx {c rest} : (beginMbx c rest s).fuses = s.fuses := by simp [beginMbx]

@[simp] theorem fuses_mbxExec {want : MbxCmd → Bool} {always} {f : List Word → State → State}
    (hf : ∀ a x, (f a x).fuses = x.fuses) :
    (mbxExec want always f s).fuses = s.fuses := by
  unfold mbxExec
  split <;> simp [hf]

@[simp] theorem fuses_checked {masks} {f : List Word → State → State} {args} (hf : ∀ a x, (f a x).fuses = x.fuses) :
    (checked masks f args s).fuses = s.fuses := by simp [checked, hf]

@[simp] theorem fuses_mbxOk : (mbxOk s).fuses = s.fuses := by simp [mbxOk]

@[simp] theorem fuses_watchCommand {f : Watch → State → State} {args} (hf : ∀ w x, (f w x).fuses = x.fuses) :
    (watchCommand f args s).fuses = s.fuses := by
  refine fuses_checked fun _ x => ?_
  split
  · exact hf _ x
  · exact fuses_mbxComplete

@[simp] theorem fuses_mbxNop {args} : (mbxNop args s).fuses = s.fuses := by simp [mbxNop]

@[simp] theorem fuses_mbxTrigger {w} : (mbxTrigger w s).fuses = s.fuses := by simp [mbxTrigger]

@[simp] theorem fuses_mbxArm {w} : (mbxArm w s).fuses = s.fuses := by
  unfold mbxArm
  split <;> simp

@[simp] theorem fuses_disarmWatch {n} : (disarmWatch n s).fuses = s.fuses := by
  unfold disarmWatch
  repeat' split
  all_goals simp

@[simp] theorem fuses_mbxDisarm {w} : (mbxDisarm w s).fuses = s.fuses := by simp [mbxDisarm]

@[simp] theorem fuses_mbxReadCal {args} : (mbxReadCal args s).fuses = s.fuses := by simp [mbxReadCal]

@[simp] theorem fuses_mbxStats {w} : (mbxStats w s).fuses = s.fuses := by simp [mbxStats]

@[simp] theorem fuses_calCommand {masks} {f : List Word → State → State} {args} (hf : ∀ a x, (f a x).fuses = x.fuses) :
    (calCommand masks f args s).fuses = s.fuses := by simp [calCommand, hf]

@[simp] theorem fuses_labelCommand {f : Watch → AdaptBlock → List Word → State → State} {args}
    (hf : ∀ a b c x, (f a b c x).fuses = x.fuses) :
    (labelCommand f args s).fuses = s.fuses := by
  unfold labelCommand
  repeat' split
  all_goals simp [hf]

@[simp] theorem fuses_opLabel {w b args} : (opLabel w b args s).fuses = s.fuses := by
  refine fuses_adaptRead (fun _ => fuses_labelComplete) fun x => ?_
  split
  · exact fuses_labelComplete
  · dsimp only
    split
    · exact fuses_labelComplete
    · split
      · exact fuses_labelComplete
      · exact fuses_queueLabel.trans fuses_markEntry

@[simp] theorem fuses_opRevert {w b a3} : (opRevert w b a3 s).fuses = s.fuses := by simp [opRevert]

@[simp] theorem fuses_opRestart {w b a3} : (opRestart w b a3 s).fuses = s.fuses := by simp [opRestart]

@[simp] theorem fuses_otpCommand {code masks} {f : List Word → State → State} (hf : ∀ a x, (f a x).fuses = x.fuses) :
    (otpCommand code masks f s).fuses = s.fuses := by simp [otpCommand, hf]

@[simp] theorem fuses_mbxShutdown {args} : (mbxShutdown args s).fuses = s.fuses := by simp [mbxShutdown]

@[simp] theorem fuses_shutdownComplete : (shutdownComplete s).fuses = s.fuses := by simp [shutdownComplete]

@[simp] theorem fuses_mbxReserved : (mbxReserved s).fuses = s.fuses := by simp [mbxReserved]

/-! ### Debug access (Machine/Dap.lean) -/

@[simp] theorem fuses_selectIr {i} : (selectIr i s).fuses = s.fuses := fuses_of_otp rfl

@[simp] theorem fuses_extest : (extest s).fuses = s.fuses := fuses_of_otp rfl

@[simp] theorem fuses_selectCode {code} : (selectCode code s).fuses = s.fuses := by
  unfold selectCode
  split <;> rfl

@[simp] theorem fuses_dapEnd {status addr result} : (dapEnd status addr result s).fuses = s.fuses := fuses_of_otp rfl

@[simp] theorem fuses_dapOp {addr} {f : State → State} (hf : ∀ x, (f x).fuses = x.fuses) :
    (dapOp addr f s).fuses = s.fuses := by simp [dapOp, hf]

@[simp] theorem fuses_dapNop : (dapNop s).fuses = s.fuses := fuses_of_otp rfl

@[simp] theorem fuses_dapQuayRead {addr} : (dapQuayRead addr s).fuses = s.fuses := by simp [dapQuayRead]

@[simp] theorem fuses_dapQuayWrite {addr data} : (dapQuayWrite addr data s).fuses = s.fuses := by simp [dapQuayWrite]

@[simp] theorem fuses_memWord {a} : (memWord a s).2.fuses = s.fuses := by
  unfold memWord
  repeat' split
  all_goals simp

@[simp] theorem fuses_memOp {addr} {f : State → State} (hf : ∀ x, (f x).fuses = x.fuses) :
    (memOp addr f s).fuses = s.fuses := by simp [memOp, hf]

@[simp] theorem fuses_dapMemRead {addr} : (dapMemRead addr s).fuses = s.fuses := by simp [dapMemRead]

@[simp] theorem fuses_putMem {a bs} : (s.putMem a bs).fuses = s.fuses := by
  unfold State.putMem
  split <;> rfl

@[simp] theorem fuses_dapMemWrite {addr data} : (dapMemWrite addr data s).fuses = s.fuses := by simp [dapMemWrite]

@[simp] theorem fuses_dapArg {addr data} : (dapArg addr data s).fuses = s.fuses := by simp [dapArg]

@[simp] theorem fuses_dapRunOtp {code} : (dapRunOtp code s).fuses = s.fuses := by simp [dapRunOtp]

@[simp] theorem fuses_dapStartOtp : (dapStartOtp s).fuses = s.fuses := by
  unfold dapStartOtp
  split <;> simp

@[simp] theorem fuses_dapExec {addr} : (dapExec addr s).fuses = s.fuses := by simp [dapExec]

@[simp] theorem fuses_dapBootRelease : (dapBootRelease s).fuses = s.fuses := by simp [dapBootRelease]

@[simp] theorem fuses_slackExpiry : (slackExpiry s).fuses = s.fuses := fuses_of_otp rfl

@[simp] theorem fuses_dapReserved {op addr} : (dapReserved op addr s).fuses = s.fuses := by
  unfold dapReserved
  split
  · exact fuses_dapOp fun _ => fuses_dapEnd
  · rfl

/-! ### The tick (Machine/Tick.lean) -/

@[simp] theorem fuses_countTick : (countTick s).fuses = s.fuses := fuses_of_otp rfl

@[simp] theorem fuses_countWatchdog : (countWatchdog s).fuses = s.fuses := by simp [countWatchdog]

@[simp] theorem fuses_countUpsets : (countUpsets s).fuses = s.fuses := fuses_of_otp rfl

@[simp] theorem fuses_countThrottle : (countThrottle s).fuses = s.fuses := by simp [countThrottle]

@[simp] theorem fuses_countWaits : (countWaits s).fuses = s.fuses :=
  (fuses_foldl fun _ _ => fuses_admitTimeout).trans (fuses_foldl fun _ _ => fuses_modJob)

@[simp] theorem fuses_standAlarm {source b holds} : (standAlarm source b holds s).fuses = s.fuses := by simp [standAlarm]

@[simp] theorem fuses_standingAlarms : (standingAlarms s).fuses = s.fuses := by simp [standingAlarms]

@[simp] theorem fuses_pulseTick : (pulseTick s).fuses = s.fuses := by
  unfold pulseTick
  split <;> simp

@[simp] theorem fuses_slackTick : (slackTick s).fuses = s.fuses := by simp [slackTick]

@[simp] theorem fuses_tickActs : (tickActs s).fuses = s.fuses := by simp [tickActs]

@[simp] theorem fuses_tick : (tick s).fuses = s.fuses := by simp [tick]

end

end Sys2Proof.Machine
end

