-- ==== Sys2Proof/Proofs/OtpProgramming.lean ====
section
/-! PROOF. Proofs/OtpProgramming.lean: a cell of the OTP turns from 0 to 1 alone, whatever the command (R174, R179). -/
namespace Sys2Proof.Machine
open Sys2Proof

section
variable {s t u : State} {a : Nat} {x y : BitVec 39}

/-! ### What keeps the cells -/

/-- The OTP lists its cells in canonical form at both margins. -/
def State.cellsOk (s : State) : Prop := swf 0 s.otp.cells = true ∧ swf 0 s.otp.cellsHigh = true

theorem cellsOk_of_memoriesWf (h : s.memoriesWf = true) : s.cellsOk := by
  simp only [State.memoriesWf, Bool.and_eq_true] at h
  obtain ⟨⟨⟨⟨⟨⟨-, hn⟩, hh⟩, -⟩, -⟩, -⟩, -⟩ := h
  exact ⟨hn, hh⟩

theorem cellsOk_of_fuses (h : t.fuses = s.fuses) (hs : s.cellsOk) : t.cellsOk := by
  obtain ⟨hn, hh⟩ := Prod.mk.inj h
  exact ⟨hn ▸ hs.1, hh ▸ hs.2⟩

theorem otpNormal_of_fuses (h : t.fuses = s.fuses) (a : Nat) : t.otpNormal a = s.otpNormal a :=
  congrArg (fun m => sget 0 m a) (Prod.mk.inj h).1

theorem otpHigh_of_fuses (h : t.fuses = s.fuses) (a : Nat) : t.otpHigh a = s.otpHigh a :=
  congrArg (fun m => sget 0 m a) (Prod.mk.inj h).2

theorem fusesKept_of_fuses (h : t.fuses = s.fuses) : fusesKept s t := fun a i => by
  rw [otpNormal_of_fuses h, otpHigh_of_fuses h]
  exact ⟨id, id⟩

theorem fusesKept.trans (h : fusesKept s t) (h' : fusesKept t u) : fusesKept s u := fun a i =>
  ⟨(h' a i).1 ∘ (h a i).1, (h' a i).2 ∘ (h a i).2⟩

/-! ### Programming a word -/

/-- The cells of word a that x and y name now read 1, at normal and at high margin. -/
def State.programmed (s : State) (a : Nat) (x y : BitVec 39) : State :=
  { s with otp := { s.otp with cells := sput 0 s.otp.cells a (s.otpNormal a ||| x),
                               cellsHigh := sput 0 s.otp.cellsHigh a (s.otpHigh a ||| y) } }

theorem sget_sput {m : List (Nat × BitVec 39)} (h : swf 0 m = true) (a b : Nat) (w : BitVec 39) :
    sget 0 (sput 0 m a w) b = if b = a then w else sget 0 m b := by
  obtain ⟨hm, -⟩ := (swf_iff _ _).mp h
  split
  · next hb => exact hb ▸ sget_sput_self 0 m b w hm
  · next hb => exact sget_sput_ne 0 m a b w hb hm

theorem otpNormal_programmed (h : s.cellsOk) (b : Nat) :
    (s.programmed a x y).otpNormal b = if b = a then s.otpNormal a ||| x else s.otpNormal b := sget_sput h.1 a b _

theorem otpHigh_programmed (h : s.cellsOk) (b : Nat) :
    (s.programmed a x y).otpHigh b = if b = a then s.otpHigh a ||| y else s.otpHigh b := sget_sput h.2 a b _

theorem fusesKept_programmed (h : s.cellsOk) : fusesKept s (s.programmed a x y) := fun b i => by
  rw [otpNormal_programmed h, otpHigh_programmed h]
  split
  · next hb =>
    subst hb
    simp +contextual [BitVec.getLsbD_or]
  · exact ⟨id, id⟩

/-! ### The commands that turn cells (R127, R158, R201) -/

theorem fusesKept_tearOtp (h : s.cellsOk) : fusesKept s (tearOtp s) := by
  unfold tearOtp
  split
  · exact (fusesKept_programmed h).trans (fusesKept_of_fuses rfl)
  · exact fusesKept_of_fuses rfl

theorem fusesKept_assertReset {src} (h : s.cellsOk) : fusesKept s (assertReset src s) := by
  have hd {u : State} {r : ResetSource} (hu : fusesKept s u) :
      fusesKept s (if u.delays r then { u with sys := { u.sys with delayed := some r } } else enterReset false u) := by
    split
    · exact hu
    · exact hu.trans (fusesKept_of_fuses fuses_enterReset)
  unfold assertReset
  split
  · exact fusesKept_of_fuses rfl
  · extract_lets bit old sys u
    have hu : fusesKept s (tearOtp u) := fusesKept_tearOtp (s := u) h
    split
    · exact hu.trans (fusesKept_of_fuses (fuses_enterReset.trans fuses_tearUnit))
    · exact hu.trans (fusesKept_of_fuses (fuses_enterReset.trans fuses_tearUnit))
    · exact hd hu
    · exact hd hu
    · exact hd hu
    · exact hd (u := u) (fusesKept_of_fuses rfl)

theorem fusesKept_tempSample {coarse} (h : s.cellsOk) : fusesKept s (tempSample coarse s) := by
  unfold tempSample
  extract_lets c tide u
  have hu : u.fuses = s.fuses := fuses_applyStep
  split
  · have ht : (thermalShutdown u).fuses = (tearOtp u).fuses := fuses_leaveSpring
    exact (fusesKept_of_fuses hu).trans ((fusesKept_tearOtp (cellsOk_of_fuses hu h)).trans (fusesKept_of_fuses ht))
  · exact fusesKept_of_fuses hu

/-- A read of a word that waited for its program to end is made (R758). -/
def State.waitedRead (a : Nat) (s : State) : State := if s.otp.readWait && s.otp.readWord == a then otpRead a s else s

theorem fuses_waitedRead : (s.waitedRead a).fuses = s.fuses := by
  unfold State.waitedRead
  split
  · exact fuses_otpRead
  · rfl

/-- The word of an OTP command that ends (R158, R201): its cells turn, and then a reset that waited is taken, the next word
starts or the command ends. -/
theorem otpWordProgrammed_eq {m normal high rest l b}
    (h : s.otp.run = some { todo := (a, m) :: rest, lifecycle := l, mailbox := b }) :
    otpWordProgrammed normal high s =
      let t := (s.programmed a (m &&& normal) (m &&& high)).waitedRead a
      if t.sys.delayed.isSome then takeDelayed { t with otp := { t.otp with run := none } }
      else if m &&& ~~~(s.otpHigh a ||| (m &&& high)) = 0 then otpNext { todo := rest, lifecycle := l, mailbox := b } t
      else otpEnd 6 a b t := by
  unfold otpWordProgrammed
  rw [h]
  rfl

theorem fuses_otpWordProgrammed {m normal high rest l b}
    (h : s.otp.run = some { todo := (a, m) :: rest, lifecycle := l, mailbox := b }) :
    (otpWordProgrammed normal high s).fuses = (s.programmed a (m &&& normal) (m &&& high)).fuses := by
  rw [otpWordProgrammed_eq h]
  extract_lets t
  have ht : t.fuses = (s.programmed a (m &&& normal) (m &&& high)).fuses := fuses_waitedRead
  split
  · exact fuses_takeDelayed.trans ht
  · split
    · exact fuses_otpNext.trans ht
    · exact fuses_otpEnd.trans ht

theorem fusesKept_otpWordProgrammed {normal high} (h : s.cellsOk) : fusesKept s (otpWordProgrammed normal high s) := by
  by_cases hr : ∃ a m rest l b, s.otp.run = some { todo := (a, m) :: rest, lifecycle := l, mailbox := b }
  · obtain ⟨a, m, rest, l, b, hr⟩ := hr
    exact (fusesKept_programmed h).trans (fusesKept_of_fuses (fuses_otpWordProgrammed hr))
  · unfold otpWordProgrammed
    split
    · next hr' => exact absurd ⟨_, _, _, _, _, hr'⟩ hr
    · exact fusesKept_of_fuses rfl

/-! ### Every command (R174, R179) -/

theorem fusesKept_inService {f : State → State} (h : s.cellsOk) (hf : ∀ x, x.cellsOk → fusesKept x (f x)) :
    fusesKept s (inService s f) := by
  unfold inService
  split
  · exact fusesKept_of_fuses rfl
  · exact hf s h

theorem fusesKept_ite {c : Prop} [Decidable c] (h : fusesKept s t) (h' : fusesKept s u) : fusesKept s (if c then t else u) := by
  split <;> assumption

theorem fusesKept_exec (i : Instr) (h : s.cellsOk) : ∃ t, exec i s = .next t ∧ fusesKept s t := by
  cases i
  case por | brownoutVbat | resetPin | thermalTrip => exact ⟨_, rfl, fusesKept_assertReset h⟩
  case brownoutVsys | watchdog | thermalReq =>
    exact ⟨_, rfl, fusesKept_inService h fun _ hx => fusesKept_ite (fusesKept_assertReset hx) (fusesKept_of_fuses rfl)⟩
  case tempSample => exact ⟨_, rfl, fusesKept_inService h fun _ => fusesKept_tempSample⟩
  case otpWordProgrammed => exact ⟨_, rfl, fusesKept_inService h fun _ => fusesKept_otpWordProgrammed⟩
  case thermalResetEnd | resetRelease | lfCrystalSwitch | lfCrystalTimeout | lfFallback | faultBlink | extest | idcode |
      samplePreload | bypass =>
    exact ⟨_, rfl, fusesKept_of_fuses (by simp)⟩
  all_goals exact ⟨_, rfl, fusesKept_of_fuses (fuses_inService fun _ => by simp)⟩

/-- Settles O59: seven commands can turn a cell, each from 0 to 1 alone, and every other command and the tick leave the cells. -/
theorem otpCellsNeverClear : Obligations.OtpCellsNeverClear := by
  intro s t hs ht
  have h := cellsOk_of_memoriesWf hs
  unfold step at ht
  split at ht
  · next i rest hp =>
    obtain ⟨u, hu, hk⟩ := fusesKept_exec (s := { s with pending := rest }) i h
    rw [hu] at ht
    cases ht
    exact hk
  · cases ht
    exact fusesKept_of_fuses fuses_tick
end
end Sys2Proof.Machine
end

