-- ==== Sys2Proof/Proofs/OtpCommands.lean ====
section
/-! PROOF. Proofs/OtpCommands.lean: how an OTP command ends or goes on (R198, R200, R209), the words that end (R201), and what
OTP_PROGRAM and LIFECYCLE_ADVANCE check and queue (R197, R199 to R208). -/
namespace Sys2Proof.Machine
open Sys2Proof

section
variable {s : State} {a : Nat} {b : Bool} {l : Option Nat} {m : BitVec 39} {rest : List (Nat × BitVec 39)}

/-! ### The read window (R211, R758) -/

/-- The read window shows data d of word a with its flags. -/
def State.windowRead (a d : Nat) (u c k : Bool) (s : State) : State :=
  { s with otp := { s.otp with readWord := a, readValid := true, readWait := false, readUncorr := u, readCorrected := c,
                               readLocked := k, readData := BitVec.ofNat 32 d } }

theorem otpRead_of_locked (h : s.otp.lockRd.getLsbD (otpRegion a) = true) :
    otpRead a s = s.windowRead a 0 false false true := if_pos h

theorem otpRegion_of_lt {a : Nat} (h : a < 8) : otpRegion a = 0 := if_pos h

/-- A word of LIFECYCLE or ROLLBACK reads as its own cells at normal margin, with the flags of the vote or none. -/
theorem otpRead_of_voted (hl : s.otp.lockRd.getLsbD (otpRegion a) = false) (hr : otpRegion a = 0 ∨ otpRegion a = 4) :
    ∃ u c, otpRead a s = s.windowRead a ((s.otpNormal a).toNat % 2 ^ 32) u c false := by
  unfold otpRead
  extract_lets r n h put v
  rw [if_neg (by simp only [r, hl, Bool.false_eq_true, not_false_eq_true])]
  split
  · exact ⟨_, _, rfl⟩
  · split
    · exact ⟨_, _, rfl⟩
    · next h0 => exact ⟨_, _, if_pos (hr.resolve_left h0)⟩

theorem otpRead_of_secded (hl : s.otp.lockRd.getLsbD (otpRegion a) = false) (h0 : otpRegion a ≠ 0) (h4 : otpRegion a ≠ 4) :
    otpRead a s = s.windowRead a (s.otpWord a).data (s.otpWord a).uncorr (s.otpWord a).corrected false := by
  have ha : 8 ≤ a := Nat.le_of_not_lt fun h => h0 (otpRegion_of_lt h)
  unfold otpRead
  rw [if_neg (by simp [hl]), if_neg (by simp; omega), if_neg h0, if_neg h4]
  rfl

theorem otpRead_eq (a : Nat) (s : State) : ∃ d u c k, otpRead a s = s.windowRead a d u c k := by
  by_cases hl : s.otp.lockRd.getLsbD (otpRegion a) = true
  · exact ⟨_, _, _, _, otpRead_of_locked hl⟩
  · have hl := Bool.eq_false_of_not_eq_true hl
    by_cases hr : otpRegion a = 0 ∨ otpRegion a = 4
    · obtain ⟨u, c, h⟩ := otpRead_of_voted hl hr
      exact ⟨_, _, _, _, h⟩
    · obtain ⟨h0, h4⟩ := not_or.mp hr
      exact ⟨_, _, _, _, otpRead_of_secded hl h0 h4⟩

/-! ### What an OTP command leaves -/

/-- What no OTP command changes. -/
def State.asideOtp (s : State) := (s.sys, s.tide, s.watches, s.strand, s.harbour)

theorem asideOtp_waitedRead : (s.waitedRead a).asideOtp = s.asideOtp := by
  unfold State.waitedRead
  split
  · obtain ⟨_, _, _, _, h⟩ := otpRead_eq a s
    rw [h]
    rfl
  · rfl

theorem lc_waitedRead : (s.waitedRead a).otp.lc = s.otp.lc := by
  unfold State.waitedRead
  split
  · obtain ⟨_, _, _, _, h⟩ := otpRead_eq a s
    rw [h]
    rfl
  · rfl

theorem asideOtp_mbxComplete {code d} : (mbxComplete code d s).asideOtp = s.asideOtp := by
  unfold mbxComplete
  split <;> rfl

theorem otp_mbxComplete {code d} : (mbxComplete code d s).otp = s.otp := by
  unfold mbxComplete
  split <;> rfl

theorem asideOtp_otpEnd {code w : Nat} : (otpEnd code w b s).asideOtp = s.asideOtp := by
  unfold otpEnd
  extract_lets
  split
  · exact asideOtp_mbxComplete
  · rfl

theorem otp_otpEnd {code w : Nat} :
    (otpEnd code w b s).otp = { s.otp with progStatus := code, progWord := w, run := none } := by
  unfold otpEnd
  extract_lets
  split
  · exact otp_mbxComplete
  · rfl

theorem asideOtp_enterLifecycle {t : Nat} : (enterLifecycle t s).asideOtp = s.asideOtp := by
  unfold enterLifecycle
  extract_lets
  split <;> rfl

theorem lc_enterLifecycle {t : Nat} : (enterLifecycle t s).otp.lc = t := by
  unfold enterLifecycle
  extract_lets
  split <;> rfl

theorem otpConditions_iff : s.otpConditions = true ↔ s.otpFit := by
  simp [State.otpConditions, State.otpFit, and_assoc]

/-- The conditions before a word look at what no OTP command changes. -/
theorem otpFit_of_asideOtp {t : State} (h : t.asideOtp = s.asideOtp) (hs : s.otpFit) : t.otpFit := by
  simp only [State.asideOtp, Prod.mk.injEq] at h
  obtain ⟨hsys, htide, -⟩ := h
  unfold State.otpFit
  rw [hsys, htide]
  exact hs

theorem otpNext_of_fit {r : OtpRun} (hr : r.todo ≠ []) (hs : s.otpFit) :
    otpNext r s = { s with otp := { s.otp with run := some r } } := by
  unfold otpNext
  split
  · next h => exact absurd h hr
  · exact if_pos (otpConditions_iff.mpr hs)

theorem asideOtp_otpNext {r : OtpRun} : (otpNext r s).asideOtp = s.asideOtp := by
  unfold otpNext
  split
  · rw [asideOtp_otpEnd]
    split
    · exact asideOtp_enterLifecycle
    · rfl
  · split
    · rfl
    · exact asideOtp_otpEnd

theorem otp_otpNext_nil : (otpNext { todo := [], lifecycle := l, mailbox := b } s).otp.run = none ∧
    (otpNext { todo := [], lifecycle := l, mailbox := b } s).otp.progStatus = 0 ∧
    (otpNext { todo := [], lifecycle := l, mailbox := b } s).otp.progWord = 0 ∧
    (otpNext { todo := [], lifecycle := l, mailbox := b } s).otp.lc = l.getD s.otp.lc := by
  cases l with
  | none =>
    simp only [otpNext, otp_otpEnd, true_and]
    rfl
  | some t =>
    simp only [otpNext, otp_otpEnd, true_and]
    exact lc_enterLifecycle

/-! ### A word that ends (R201) -/

/-- Settles O32: the cells of the word turn, then the command ends with VERIFY, starts its next word or ends. -/
theorem otpWordProgrammedTurnsItsCells : Obligations.OtpWordProgrammedTurnsItsCells := by
  intro s normal high a m rest l b hlive hrun hdel hn hh
  have hwf : s.cellsOk := ⟨hn, hh⟩
  let p := s.programmed a (m &&& normal) (m &&& high)
  let u := p.waitedRead a
  have hf : (otpWordProgrammed normal high s).fuses = p.fuses := fuses_otpWordProgrammed hrun
  have hu : u.asideOtp = s.asideOtp := asideOtp_waitedRead
  have hlc : u.otp.lc = s.otp.lc := lc_waitedRead
  have hsys : u.sys = s.sys := congrArg Prod.fst hu
  have hhigh : (otpWordProgrammed normal high s).otpHigh a = s.otpHigh a ||| (m &&& high) := by
    rw [otpHigh_of_fuses hf, otpHigh_programmed hwf, if_pos rfl]
  have hout : otpWordProgrammed normal high s =
      if m &&& ~~~((otpWordProgrammed normal high s).otpHigh a) = 0 then otpNext { todo := rest, lifecycle := l, mailbox := b } u
      else otpEnd 6 a b u := by
    rw [hhigh, otpWordProgrammed_eq hrun]
    exact if_neg (by rw [show (p.waitedRead a).sys = s.sys from hsys, hdel]; decide)
  have haside : (otpWordProgrammed normal high s).asideOtp = s.asideOtp := by
    rw [hout]
    split
    · exact asideOtp_otpNext.trans hu
    · exact asideOtp_otpEnd.trans hu
  refine ⟨_, next_inService hlive _, fun x => ?_, fun x => ?_, (fusesKept_programmed hwf).trans (fusesKept_of_fuses hf),
    fun hv => ?_, fun hv hr hfit => ?_, fun hv hr => ?_, ?_⟩
  · rw [otpNormal_of_fuses hf, otpNormal_programmed hwf]
  · rw [otpHigh_of_fuses hf, otpHigh_programmed hwf]
  · rw [hout, if_neg hv, otp_otpEnd]
    exact ⟨rfl, rfl, rfl, hlc⟩
  · rw [hout, if_pos hv, otpNext_of_fit hr (otpFit_of_asideOtp hu hfit)]
    exact ⟨rfl, hlc⟩
  · rw [hout, if_pos hv, hr, ← hlc]
    exact otp_otpNext_nil
  · simp only [State.asideOtp, Prod.mk.injEq] at haside
    exact haside.2

end

/-! ### The commands and their arguments (R206) -/

section
variable {s : State} {c : MbxCmd} {rest : List MbxCmd}

/-- An OTP command at the front whose arguments are good runs on the state that has taken it. -/
theorem next_otpCommand {code : Nat} {masks : List Nat} (h : s.otpFront c rest) (hc : c.cmd = code)
    (ha : argsOk masks c.args = true) (f : List Word → State → State) :
    (Host.Outcome.next (inService s (otpCommand code masks f)) : Host.Outcome State Fault Refusal) =
      .next (f c.args (s.mbxTaken c rest)) := by
  obtain ⟨hfront, hfail, hcore, hrun⟩ := h
  have hx : (inService s (otpCommand code masks f)) = inService s (mbxExec (isCmd code) false (checked masks f)) := by
    rw [inService_live s _ hfront.1, inService_live s _ hfront.1, otpCommand, if_neg (by simp [hcore, hrun])]
  rw [hx, next_mbx hfront hc (.inl hfail), checked, if_pos ha]

/-- The command ends on the spot with a status at a word. -/
theorem otpEnd_taken (h : s.otpFront c rest) (code w : Nat) :
    otpEnd code w true (s.mbxTaken c rest) = s.otpAnswered c rest code w := by
  obtain ⟨⟨-, -, -, hrun, -⟩, -⟩ := h
  unfold otpEnd State.otpAnswered State.mbxTaken State.mbxAnswered mbxComplete
  simp only [if_true, ← hrun]

theorem and_allBits (x : Word) : x.toNat &&& allBits = x.toNat := by
  rw [show allBits = 2 ^ 32 - 1 from rfl, Nat.and_two_pow_sub_one_eq_mod]
  exact Nat.mod_eq_of_lt x.isLt

theorem argsOk_program (h : (c.arg 0).toNat &&& 0x0707FFFF = (c.arg 0).toNat) : argsOk programMasks c.args = true := by
  simp only [argsOk, List.all_eq_true, List.mem_range, beq_iff_eq]
  intro i hi
  cases i with
  | zero => exact h
  | succ i =>
    have hm : programMasks.getD (i + 1) 0 = allBits := by
      have h7 : i < 7 := Nat.lt_of_succ_lt_succ hi
      interval_cases i <;> rfl
    rw [hm]
    exact and_allBits _

theorem argsOk_advance (h : (c.arg 0).toNat < 8) (hz : ∀ j, 1 ≤ j → j < 7 → c.arg j = 0) :
    argsOk advanceMasks c.args = true := by
  simp only [argsOk, List.all_eq_true, List.mem_range, beq_iff_eq]
  intro i hi
  obtain rfl | h1 := Nat.eq_zero_or_pos i
  · rw [show advanceMasks.getD 0 0 = 2 ^ 3 - 1 from rfl, Nat.and_two_pow_sub_one_eq_mod]
    exact Nat.mod_eq_of_lt h
  · obtain rfl | h7 := Nat.eq_or_lt_of_le (Nat.le_of_lt_succ hi)
    · exact and_allBits _
    · rw [show c.args.getD i 0 = 0 from hz i h1 h7]
      exact Nat.zero_and _

end

/-! ### OTP_PROGRAM (R202 to R208) -/

section
variable {s : State} {c : MbxCmd} {b : Bool} {r : Nat}

/-- A programmed word that is not 0 has cells to turn: its data are the low 32 of them (R177). -/
theorem secdedEncode_ne_zero {d : Word} (h : d ≠ 0) : secdedEncode d ≠ 0 := by
  intro he
  have hlow : (d.toNat + 2 ^ 32 * secdedCheck d.toNat) % 2 ^ 39 = 0 := by
    simpa [secdedEncode] using congrArg BitVec.toNat he
  have hd : d.toNat = 0 := by have := d.isLt; omega
  exact h (BitVec.eq_of_toNat_eq hd)

/-- The key of OTP_PROGRAM is the complement of ARG0 (R206). -/
theorem otpProgram_confirm (h : c.arg 7 ≠ ~~~(c.arg 0)) : otpProgram c.args b s = otpEnd 7 0 b s := if_pos h

theorem otpProgram_range (h : c.arg 7 = ~~~(c.arg 0)) (hr : fld (c.arg 0).toNat 0 8 = 0 ∨ 8 ≤ fld (c.arg 0).toNat 0 8) :
    otpProgram c.args b s = otpEnd 5 0 b s := by
  unfold otpProgram
  extract_lets a0 r a n ws refuse ok revoked
  have hr : r = 0 ∨ 8 ≤ r := hr
  have hok : ok = false := by
    have : ¬(1 ≤ r ∧ r ≤ 7) := by omega
    simp only [ok]
    rw [Bool.and_eq_false_iff]
    exact .inl (by simpa using this)
  rw [if_neg (show ¬(c.args.getD 7 0 ≠ ~~~(c.args.getD 0 0)) from not_not_intro h), if_pos (by simp [hok])]

/-- A command whose key and words are good, and that names a region other than ROLLBACK. -/
structure MbxCmd.ProgramOk (c : MbxCmd) (r : Nat) : Prop where
  key : c.arg 7 = ~~~(c.arg 0)
  region : fld (c.arg 0).toNat 0 8 = r
  known : r ∈ [1, 2, 3, 5, 6, 7]
  some : c.otpWords ≠ []
  atMost : c.otpWords.length ≤ 6
  within : ∀ x ∈ c.otpWords, otpRegion x.1 = r ∧ x.1 < 2048 ∧ otpReserved x.1 = false

/-- What OTP_PROGRAM does with good words, in the order of its checks (log 4). -/
theorem otpProgram_of_ok (h : c.ProgramOk r) :
    otpProgram c.args b s =
      if s.otp.lockWr.getLsbD r then otpEnd 2 0 b s
      else if !regionOpen r s.otp.lc then otpEnd 1 0 b s
      else match c.otpWords.find? (fun w => s.otpNormal w.1 ||| s.otpHigh w.1 ≠ 0) with
        | some w => otpEnd 4 w.1 b s
        | none =>
          if r = 3 && !(List.range 4).any (fun k => s.keyThere k &&
              !(s.keyRevoked k || c.otpWords.any (fun w => w.1 == 0x060 + k && w.2 != 0))) then otpEnd 9 0 b s
          else otpNext { todo := ((c.otpWords.filter (fun w => w.2 ≠ 0)).map (fun w =>
            (w.1, secdedEncode (if r = 5 then Config.scramble w.1 w.2 else w.2)))).filter (fun w => w.2 ≠ 0), mailbox := b } s := by
  obtain ⟨hkey, rfl, hknown, hsome, hmost, hin⟩ := h
  have h4 : fld (c.arg 0).toNat 0 8 ≠ 4 := fun h => absurd hknown (by rw [h]; decide)
  have hlen : c.otpWords.length = fld (c.arg 0).toNat 24 3 := by simp [MbxCmd.otpWords]
  have hn : 1 ≤ fld (c.arg 0).toNat 24 3 := hlen ▸ List.length_pos_iff.mpr hsome
  have hr : 1 ≤ fld (c.arg 0).toNat 0 8 ∧ fld (c.arg 0).toNat 0 8 ≤ 7 := by
    simp only [List.mem_cons, List.not_mem_nil, or_false] at hknown
    omega
  have hall : c.otpWords.all (fun w =>
      otpRegion w.1 == fld (c.arg 0).toNat 0 8 && decide (w.1 < 2048) && !otpReserved w.1) = true := by
    simpa [and_assoc] using hin
  unfold otpProgram
  extract_lets a0 r a n ws refuse ok revoked code todo
  have hws : ws = c.otpWords := rfl
  have hok : ok = true := by
    have h4 : r ≠ 4 := h4
    simp only [ok, if_neg h4, hws, Bool.and_eq_true, decide_eq_true_eq]
    exact ⟨hr, ⟨hn, hlen.ge.trans hmost⟩, hall⟩
  rw [if_neg (show ¬(c.args.getD 7 0 ≠ ~~~(c.args.getD 0 0)) from not_not_intro hkey), if_neg (by simp [hok])]
  refine if_congr Iff.rfl rfl (if_congr Iff.rfl rfl ?_)
  exact if_neg h4

/-- Every word is blank and none is to be 0, in a region whose words are not scrambled: they are queued as they encode. -/
theorem otpProgram_queues (h : c.ProgramOk r) (hl : s.otp.lockWr.getLsbD r = false) (ho : regionOpen r s.otp.lc = true)
    (hr : r ∈ [1, 2, 6, 7]) (hw : ∀ x ∈ c.otpWords, s.otpNormal x.1 ||| s.otpHigh x.1 = 0 ∧ x.2 ≠ 0) (hfit : s.otpFit) :
    otpProgram c.args b s = { s with otp := { s.otp with
      run := some { todo := c.otpWords.map (fun x => (x.1, secdedEncode x.2)), lifecycle := none, mailbox := b } } } := by
  have hnone : c.otpWords.find? (fun w => s.otpNormal w.1 ||| s.otpHigh w.1 ≠ 0) = none :=
    List.find?_eq_none.mpr fun x hx => by simp [(hw x hx).1]
  have h3 : r ≠ 3 := fun h => absurd hr (by rw [h]; decide)
  have h5 : r ≠ 5 := fun h => absurd hr (by rw [h]; decide)
  have hdata : c.otpWords.filter (fun w => w.2 ≠ 0) = c.otpWords :=
    List.filter_eq_self.mpr fun x hx => decide_eq_true (hw x hx).2
  have hcode : (c.otpWords.map (fun x => (x.1, secdedEncode x.2))).filter (fun w => w.2 ≠ 0) =
      c.otpWords.map (fun x => (x.1, secdedEncode x.2)) := by
    refine List.filter_eq_self.mpr fun y hy => ?_
    obtain ⟨x, hx, rfl⟩ := List.mem_map.mp hy
    exact decide_eq_true (secdedEncode_ne_zero (hw x hx).2)
  rw [otpProgram_of_ok h, hl, ho, hnone]
  simp only [hdata, if_neg h5, hcode]
  rw [if_neg (by simp), if_neg (by simp), if_neg (by simp [h3])]
  exact otpNext_of_fit (by simpa using h.some) hfit

/-! ### LIFECYCLE_ADVANCE (R197, R207) -/

theorem fld_of_lt_eight {x : Nat} (h : x < 8) : fld x 0 3 = x := Nat.mod_eq_of_lt h

theorem lifecycleAdvance_confirm (h : c.arg 7 ≠ ~~~(c.arg 0)) : lifecycleAdvance c.args b s = otpEnd 7 0 b s := if_pos h

/-- What LIFECYCLE_ADVANCE does once its key is right, in the order of its checks (log 4). -/
theorem lifecycleAdvance_of_key {t : Nat} (h : c.arg 7 = ~~~(c.arg 0)) (ht : fld (c.arg 0).toNat 0 3 = t) :
    lifecycleAdvance c.args b s =
      if t = 7 then otpEnd 5 0 b s
      else if s.otp.lockWr.getLsbD 0 then otpEnd 2 0 b s
      else if !((s.otp.lc ≤ 3 && t == s.otp.lc + 1) || ((s.otp.lc == 3 || s.otp.lc == 4) && t == 5) ||
          (s.otp.lc ≤ 5 && t == 6)) then
        otpEnd 1 0 b s
      else if (t == 5 || (t == 6 && 3 ≤ s.otp.lc)) && !s.image.lcExit then otpEnd 8 0 b s
      else if (t == 3 || t == 4) && !(List.range 4).any s.keyLive then otpEnd 9 0 b s
      else otpNext { todo := [0, 1, 2].flatMap (fun k => s.thermoTodo k 1 t), lifecycle := some t, mailbox := b } s := by
  subst ht
  exact if_neg (not_not_intro h)

/-- One more position of a thermometer of one word is one cell, at the height that the cells have reached. -/
theorem thermoTodo_next {k n : Nat} (hn : n ≤ 1) (h : s.otpHigh k = BitVec.ofNat 39 (2 ^ n - 1)) :
    s.thermoTodo k 1 (n + 1) = [(k, BitVec.ofNat 39 (2 ^ n))] := by
  simp only [State.thermoTodo, List.range_one, List.filterMap_cons, List.filterMap_nil, Nat.add_zero, h]
  interval_cases n <;> rfl

theorem lifecycleAdvance_queues (h : c.arg 7 = ~~~(c.arg 0)) (ht : (c.arg 0).toNat = s.otp.lc + 1) (h2 : (c.arg 0).toNat ≤ 2)
    (hl : s.otp.lockWr.getLsbD 0 = false) (hfit : s.otpFit)
    (hh : ∀ a, a < 3 → s.otpHigh a = BitVec.ofNat 39 (2 ^ s.otp.lc - 1)) :
    lifecycleAdvance c.args b s = { s with otp := { s.otp with
      run := some { todo := [(0, BitVec.ofNat 39 (2 ^ s.otp.lc)), (1, BitVec.ofNat 39 (2 ^ s.otp.lc)),
                             (2, BitVec.ofNat 39 (2 ^ s.otp.lc))],
                    lifecycle := some (c.arg 0).toNat, mailbox := b } } } := by
  have hlc : s.otp.lc ≤ 1 := by omega
  have htodo : [0, 1, 2].flatMap (fun k => s.thermoTodo k 1 (s.otp.lc + 1)) =
      [(0, BitVec.ofNat 39 (2 ^ s.otp.lc)), (1, BitVec.ofNat 39 (2 ^ s.otp.lc)), (2, BitVec.ofNat 39 (2 ^ s.otp.lc))] := by
    simp [thermoTodo_next hlc (hh _ _)]
  rw [lifecycleAdvance_of_key h (fld_of_lt_eight (by omega)), ht]
  rw [if_neg (by omega), if_neg (Bool.eq_false_iff.mp hl), if_neg (by simp; omega), if_neg (by simp; omega),
    if_neg (by simp; omega), htodo]
  exact otpNext_of_fit (List.cons_ne_nil _ _) hfit

end

/-- Settles O31: the two commands refuse or queue, and what they do is said of the state that has taken them. -/
theorem otpCommandsCheckAndQueueTheirWords : Obligations.OtpCommandsCheckAndQueueTheirWords := by
  intro s c rest h
  refine ⟨fun hc ha => ?_, fun hc ha hz => ?_⟩
  · have hx : exec .otpProgram s = .next (otpProgram c.args true (s.mbxTaken c rest)) :=
      next_otpCommand h hc (argsOk_program ha) _
    rw [hx]
    intro r
    refine ⟨fun hk => ?_, fun hk hr => ?_, fun hk hr hne hlen hin => ?_⟩
    · rw [otpProgram_confirm hk, otpEnd_taken h]
    · rw [otpProgram_range hk hr, otpEnd_taken h]
    · have hok : c.ProgramOk r := ⟨hk, rfl, hr, hne, hlen, hin⟩
      refine ⟨fun hl => ?_, fun hl ho => ?_, fun ho hl => ⟨fun x hfind => ?_, fun hr hw hfit => ?_⟩⟩
      · rw [otpProgram_of_ok hok]
        exact congrArg _ ((if_pos hl).trans (otpEnd_taken h 2 0))
      · rw [otpProgram_of_ok hok]
        exact congrArg _ ((if_neg (Bool.eq_false_iff.mp hl)).trans
          ((if_pos (by rw [Bool.not_eq_true']; exact ho)).trans (otpEnd_taken h 1 0)))
      · have hfind : c.otpWords.find? (fun w =>
            (s.mbxTaken c rest).otpNormal w.1 ||| (s.mbxTaken c rest).otpHigh w.1 ≠ 0) = some x := hfind
        rw [otpProgram_of_ok hok, hfind]
        exact congrArg _ ((if_neg (Bool.eq_false_iff.mp hl)).trans
          ((if_neg (by rw [Bool.not_eq_true', Bool.not_eq_false]; exact ho)).trans (otpEnd_taken h 4 x.1)))
      · rw [otpProgram_queues (s := s.mbxTaken c rest) hok hl ho hr hw hfit]
        rfl
  · have hx : exec .lifecycleAdvance s = .next (lifecycleAdvance c.args true (s.mbxTaken c rest)) :=
      next_otpCommand h hc (argsOk_advance ha hz) _
    rw [hx]
    intro target
    refine ⟨fun hk => ?_, fun hk ht => ?_, fun hk ht hl => ?_, fun hk ht hl hle => ?_, fun hk ht h2 hl hfit hh => ?_⟩
    · rw [lifecycleAdvance_confirm hk, otpEnd_taken h]
    · rw [lifecycleAdvance_of_key hk (fld_of_lt_eight ha)]
      exact congrArg _ ((if_pos ht).trans (otpEnd_taken h 5 0))
    · rw [lifecycleAdvance_of_key hk (fld_of_lt_eight ha)]
      exact congrArg _ ((if_neg ht.ne).trans ((if_pos hl).trans (otpEnd_taken h 2 0)))
    · have hno : ¬((s.otp.lc ≤ 3 && target == s.otp.lc + 1) || ((s.otp.lc == 3 || s.otp.lc == 4) && target == 5) ||
          (s.otp.lc ≤ 5 && target == 6)) = true := by
        simp
        omega
      rw [lifecycleAdvance_of_key hk (fld_of_lt_eight ha)]
      refine congrArg _ ((if_neg ht.ne).trans ((if_neg (Bool.eq_false_iff.mp hl)).trans ((if_pos ?_).trans (otpEnd_taken h 1 0))))
      exact (Bool.not_eq_true' _).mpr (Bool.eq_false_of_not_eq_true hno)
    · rw [lifecycleAdvance_queues (s := s.mbxTaken c rest) hk ht h2 hl hfit hh]
      rfl

end Sys2Proof.Machine
end

