-- ==== Sys2Proof/Proofs/OtherWrites.lean ====
section
/-! PROOF. Proofs/OtherWrites.lean: what a write of the TIDE, ADC, STR, PIX and OTP registers does to the device (R100, R125, R130,
R211, R281, R309, R702, R712, R716). -/
namespace Sys2Proof.Machine
open Sys2Proof

section
variable {s : State} {a : Nat} {v : Word} {rest : List (Nat × Word)}

/-- A row of a register with a row of its own acts on the state that has taken its word. -/
theorem exec_registerRow_of_captured {i : Instr} (hi : (a, i) ∈ registerRows v) (h : s.captured a v rest) :
    exec i s = .next (writeReg a v (s.took rest)) :=
  (exec_registerRow s v _ hi).trans (congrArg Host.Outcome.next (inService_applied h _))

/-! ### Fields of the written word -/

theorem extractLsb'_eq_ofNat_div (v : Word) (lo n : Nat) : v.extractLsb' lo n = BitVec.ofNat n (v.toNat / 2 ^ lo) := by
  refine BitVec.eq_of_toNat_eq ?_
  rw [BitVec.extractLsb'_toNat, Nat.shiftRight_eq_div_pow, BitVec.toNat_ofNat]

theorem extractLsb'_zero_eq_ofNat (v : Word) (n : Nat) : v.extractLsb' 0 n = BitVec.ofNat n v.toNat := by
  rw [extractLsb'_eq_ofNat_div, Nat.pow_zero, Nat.div_one]

theorem toNat_extractLsb'_eq_fld (v : Word) (lo n : Nat) : (v.extractLsb' lo n).toNat = fld v.toNat lo n :=
  BitVec.extractLsb'_toNat _ _ _

/-! ### One register each -/

/-- The step in force while a job is in Spring (R125). -/
theorem applyStep_eq (s : State) : applyStep s = { s with tide := { s.tide with
    step := match s.springWatch with
      | some w => s.stepFor w
      | none => s.tide.step } } := by
  unfold applyStep
  cases s.springWatch <;> rfl

theorem writeTideCtrl_eq (v : Word) (s : State) : writeTideCtrl v s = { s with tide := { s.tide with
    chgInhibit := v.getLsbD 0, clkCap := v.extractLsb' 4 2,
    step := match s.springWatch with
      | some w => min (fld w.entry.cores.toNat 4 2) (min (v.extractLsb' 4 2).toNat s.tide.thermalCap)
      | none => s.tide.step } } := by
  rw [extractLsb'_eq_ofNat_div]
  exact applyStep_eq _

theorem clearMismatch_eq (v : Word) (s : State) : clearMismatch v s = { s with tide := { s.tide with
    capMismatch := s.tide.capMismatch && !(v.getLsbD 3 && !s.fresh.mismatch) } } := by
  unfold clearMismatch
  cases v.getLsbD 3 && !s.fresh.mismatch with
  | true => rw [if_pos rfl, Bool.not_true, Bool.and_false]
  | false => rw [if_neg Bool.false_ne_true, Bool.not_false, Bool.and_true]

theorem writeIepe_eq (v : Word) (s : State) : writeIepe v s = { s with adc := { s.adc with
    iepeForce := if s.fresh.iepe then s.adc.iepeForce else v.extractLsb' 0 4 } } := by
  rw [extractLsb'_zero_eq_ofNat]
  unfold writeIepe
  cases s.fresh.iepe <;> rfl

theorem writeLockRd_eq (v : Word) (s : State) : writeLockRd v s = { s with otp := { s.otp with
    lockRd := s.otp.lockRd ||| v.extractLsb' 0 8 } } := by
  rw [extractLsb'_zero_eq_ofNat, writeLockRd]

theorem writeLockWr_eq (v : Word) (s : State) : writeLockWr v s = { s with otp := { s.otp with
    lockWr := s.otp.lockWr ||| v.extractLsb' 0 8 } } := by
  rw [extractLsb'_zero_eq_ofNat, writeLockWr]

theorem writeSentCfg_eq (v : Word) (s : State) : writeSentCfg v s = { s with pix := { s.pix with
    sentPeriod := max 16384 (v.extractLsb' 0 20).toNat, sentExposure := max 1 (v.extractLsb' 20 6).toNat,
    sentGain := min 4 (v.extractLsb' 26 3).toNat, reference := none } } := by
  simp only [toNat_extractLsb'_eq_fld]
  rfl

theorem set_learn {x : Bool} (h : s.strand.learn = x) : { s with strand := { s.strand with learn := x } } = s := by
  subst h
  rfl

/-- LEARN at 1 starts a batch unless one runs or has just ended; LEARN at 0 drops the batch with its commit (R702, R712). -/
theorem writeLearn_of_ready (h : s.sys.stage = 0x0F ∧ s.tide.block ≠ none) (v : Word) :
    writeLearn v s = { s with strand := { s.strand with
      learn := v.getLsbD 0 && (s.strand.learn || !s.fresh.learn),
      samples := if v.getLsbD 0 && (s.strand.learn || s.fresh.learn) then s.strand.samples else [],
      commits := if v.getLsbD 0 then s.strand.commits else s.strand.commits.filter (fun c => c.cause ≠ .learn) } } := by
  have hready : (s.booted && s.tide.block.isSome) = true := by
    rw [State.booted, decide_eq_true h.1, Option.isSome_iff_ne_none.mpr h.2]
    rfl
  unfold writeLearn
  rw [if_pos hready]
  cases hv : v.getLsbD 0 with
  | true =>
    cases hl : s.strand.learn with
    | true => simp [set_learn hl]
    | false =>
      cases s.fresh.learn with
      | true => simp [set_learn hl]
      | false => simp
  | false => simp [Commit.isLearn]

theorem writeLearn_of_not_ready (h : ¬(s.sys.stage = 0x0F ∧ s.tide.block ≠ none)) (v : Word) :
    writeLearn v s = { s with host := { s.host with wrIgnored := min 255 (s.host.wrIgnored + 1) } } := by
  have hready : ¬(s.booted && s.tide.block.isSome) = true := by
    rwa [Bool.and_eq_true, State.booted, decide_eq_true_eq, Option.isSome_iff_ne_none]
  exact if_neg hready

/-! ### The read window (R211) -/

theorem otpReadAddr_of_idle (h : s.otp.run = none) (v : Word) : otpReadAddr v s = otpRead (v.toNat % 2048) s :=
  if_neg (by rw [State.otpBusy, h]; simp)

theorem ofNat_mod_eq_extractLsb' (x : BitVec 39) : BitVec.ofNat 32 (x.toNat % 2 ^ 32) = x.extractLsb' 0 32 := by
  refine BitVec.eq_of_toNat_eq ?_
  rw [BitVec.extractLsb'_toNat, BitVec.toNat_ofNat, Nat.mod_mod, Nat.shiftRight_zero]

end

/-- Settles O21: each row is writeReg at its address, applied to the state without its oldest captured word. -/
theorem otherRegisterWritesTakeEffect : Obligations.OtherRegisterWritesTakeEffect := by
  intro s v rest
  refine ⟨fun h => ?_, fun h => ?_, fun h => ?_, fun h => ?_, fun h => ?_, fun h => ?_, fun h => ?_, fun h => ?_, fun h hrun => ?_⟩
  · simp only [List.forall_mem_cons]
    have hw : ∀ i, exec i s = .next (inService s (applied 0x304 v (writeTideCtrl v))) → exec i s =
        .next (writeTideCtrl v (s.took rest)) := fun i hi => hi.trans (congrArg _ (inService_applied h _))
    rw [hw (.chgInhibit v) rfl, hw (.clkCap v) rfl, writeTideCtrl_eq]
    exact ⟨rfl, rfl, List.forall_mem_nil _⟩
  · exact (exec_registerRow_of_captured (by simp [registerRows]) h).trans (congrArg _ (clearMismatch_eq v _))
  · exact (exec_registerRow_of_captured (by simp [registerRows]) h).trans (congrArg _ (writeIepe_eq v _))
  · exact exec_registerRow_of_captured (by simp [registerRows]) h
  · exact (exec_registerRow_of_captured (by simp [registerRows]) h).trans (congrArg _ (writeLockRd_eq v _))
  · exact (exec_registerRow_of_captured (by simp [registerRows]) h).trans (congrArg _ (writeLockWr_eq v _))
  · exact (exec_registerRow_of_captured (by simp [registerRows]) h).trans (congrArg _ (writeSentCfg_eq v _))
  · have hw : exec (.learn v) s = .next (writeLearn v (s.took rest)) := exec_registerRow_of_captured (by simp [registerRows]) h
    rw [hw]
    exact ⟨fun hr => congrArg _ (writeLearn_of_ready (s := s.took rest) hr v),
      fun hr => congrArg _ (writeLearn_of_not_ready (s := s.took rest) hr v)⟩
  · have hw : exec (.otpReadAddr v) s = .next (otpReadAddr v (s.took rest)) :=
      exec_registerRow_of_captured (by simp [registerRows]) h
    rw [hw, otpReadAddr_of_idle (s := s.took rest) hrun]
    refine ⟨_, rfl, ?_, fun hl => ?_, fun hl => ⟨?_, fun hr => ?_, fun hr => ?_⟩⟩
    · obtain ⟨d, u, c, k, hread⟩ := otpRead_eq (v.toNat % 2048) (s.took rest)
      rw [hread]
      rfl
    · rw [otpRead_of_locked (s := s.took rest) hl]
      exact ⟨rfl, rfl, rfl, rfl⟩
    · by_cases hr : otpRegion (v.toNat % 2048) = 0 ∨ otpRegion (v.toNat % 2048) = 4
      · obtain ⟨u, c, hread⟩ := otpRead_of_voted (s := s.took rest) hl hr
        rw [hread]
        rfl
      · obtain ⟨h0, h4⟩ := not_or.mp hr
        rw [otpRead_of_secded (s := s.took rest) hl h0 h4]
        rfl
    · obtain ⟨u, c, hread⟩ := otpRead_of_voted (s := s.took rest) hl hr
      rw [hread, ← ofNat_mod_eq_extractLsb']
      rfl
    · rw [otpRead_of_secded (s := s.took rest) hl hr.1 hr.2]
      exact ⟨rfl, rfl, rfl⟩

end Sys2Proof.Machine
end

