-- ==== Sys2Proof/Proofs/DebugAccess.lean ====
section
/-! PROOF. Proofs/DebugAccess.lean: the TAP's instructions and what each operation of the debug access port does (R193, R713,
R742 to R745, R747). -/
namespace Sys2Proof.Machine
open Sys2Proof

section
variable {s : State} {a d : Word} {f : State → State}

/-! ### The TAP (R742, R743) -/

theorem selectCode_unlisted {code : BitVec 4} (h : code.toNat ∉ [0, 1, 2, 8]) (s : State) : selectCode code s = selectIr .bypass s := by
  unfold selectCode
  split
  case h_5 => rfl
  all_goals exact absurd h (by simp [*])

theorem extest_eq (s : State) :
    extest s = selectIr (if s.sys.inReset = false ∧ dapOpenIn s.otp.lc = true then .extest else .bypass) s := by
  simp [extest, State.dapOpen]

/-- The maker's number stands below the part number. -/
theorem fld_idcodeWord {lo n : Nat} (h : 12 ≤ lo) : fld idcodeWord lo n = fld 0x16120000 lo n := by
  have hmaker := Config.maker.isLt
  obtain ⟨k, rfl⟩ := Nat.exists_eq_add_of_le h
  simp only [fld, Nat.shiftRight_add]
  congr 2
  rw [Nat.shiftRight_eq_div_pow, idcodeWord]
  omega

/-! ### Operations of the port (R744) -/

/-- While an OTP_EXEC waits, every operation answers BUSY. -/
theorem dapOp_busy (h : s.tap.wait ≠ none) : dapOp a f s = { s with tap := { s.tap with ir := .dap, status := 1 } } :=
  if_pos (Option.isSome_iff_ne_none.mpr h)

/-- The port is closed: the operation does nothing else. -/
theorem dapOp_closed (hw : s.tap.wait = none) (hlc : dapOpenIn s.otp.lc = false) : dapOp a f s = s.dapEnded 2 a 0 := by
  have hn : ¬(selectIr .dap s).tap.wait.isSome = true := by simp [selectIr, hw]
  have ho : (selectIr .dap s).dapOpen = false := by simp [State.dapOpen, selectIr, hlc]
  unfold dapOp
  extract_lets u
  rw [if_neg hn, if_pos (by simp [u, ho])]
  rfl

/-- A port that takes operations runs the operation. -/
theorem next_dapOp (h : s.dapTakes) (f : State → State) :
    (Host.Outcome.next (inService s (dapOp a f)) : Host.Outcome State Fault Refusal) = .next (f (selectIr .dap s)) := by
  obtain ⟨hlive, hlc, hw⟩ := h
  have hn : ¬(selectIr .dap s).tap.wait.isSome = true := by simp [selectIr, hw]
  have ho : (selectIr .dap s).dapOpen = true := by simp [State.dapOpen, selectIr, hlc, show s.sys.inReset = false from hlive]
  refine (next_inService hlive _).trans (congrArg _ ?_)
  unfold dapOp
  extract_lets u
  rw [if_neg hn, if_neg (by simp [u, ho])]

/-- The operations of the port but NOP and BOOT_RELEASE. -/
theorem exec_dapOp (s : State) (a d : Word) :
    ∀ i ∈ [Instr.quayRead a, .quayWrite a d, .memRead a, .memWrite a d, .otpArg a d, .otpExec a, .dapReservedOp 8 a d],
      ∃ f, exec i s = .next (inService s (dapOp a f)) := by
  simp only [List.forall_mem_cons]
  exact ⟨⟨_, rfl⟩, ⟨_, rfl⟩, ⟨_, rfl⟩, ⟨_, rfl⟩, ⟨_, rfl⟩, ⟨_, rfl⟩, ⟨_, rfl⟩, List.forall_mem_nil _⟩

theorem dapAddrOk_iff {top : Nat} : dapAddrOk a top = true ↔ a.toNat < top ∧ a.toNat % 4 = 0 := by
  rw [dapAddrOk, Bool.and_eq_true, decide_eq_true_eq, beq_iff_eq]

theorem dapAddrOk_false {top : Nat} (h : top ≤ a.toNat ∨ a.toNat % 4 ≠ 0) : dapAddrOk a top = false := by
  rw [Bool.eq_false_iff, Ne, dapAddrOk_iff]
  omega

/-! ### QUAY_READ and QUAY_WRITE -/

/-- A word captured for an address, as the Host port captures one. -/
theorem captureWord_eq {n : Nat} (h : n < 65536) (v : Word) (s : State) :
    captureWord n v s = { s with host := s.host.captures n [v] } := by
  have ha : addressed n [v] = [(n, v)] := by simp [addressed, Nat.mod_eq_of_lt h]
  unfold captureWord HostPort.captures
  rw [ha]
  by_cases hl : s.host.wbuf.length < 16
  · rw [if_pos hl, List.take_of_length_le (show [(n, v)].length ≤ 16 - s.host.wbuf.length by simp; omega),
      if_pos (show [v].length ≤ 16 - s.host.wbuf.length by simp; omega)]
  · have h0 : 16 - s.host.wbuf.length = 0 := by omega
    rw [if_neg hl, h0, List.take_zero, List.append_nil]
    rfl

/-! ### OTP_EXEC (R747) -/

theorem dapExec_other (h30 : a ≠ 0x30) (h31 : a ≠ 0x31) : dapExec a s = dapEnd 3 a 0 s :=
  if_neg (by rw [Bool.or_eq_true, decide_eq_true_eq, decide_eq_true_eq]; exact not_or.mpr ⟨h30, h31⟩)

/-- An OTP_EXEC has been accepted and waits (R747). -/
def State.otpAccepted (a : Word) (s : State) : State :=
  { s.dapEnded 0 a 0 with tap := { (s.dapEnded 0 a 0).tap with wait := some a.toNat } }

theorem dapExec_otp (h : a = 0x30 ∨ a = 0x31) : dapExec a (selectIr .dap s) = dapStartOtp (s.otpAccepted a) :=
  if_pos (by simpa using h)

/-- A command that waits for Slack stays where it is in Spring. -/
theorem dapStartOtp_of_spring (h : s.tide.power = .spring) : dapStartOtp s = s := by
  unfold dapStartOtp
  split
  · exact if_neg (not_not_intro h)
  · rfl

/-- In Slack, with no core powered, the command that waits runs on the arguments of the port (R199). -/
theorem dapStartOtp_of_slack {code : Nat} (hw : s.tap.wait = some code) (hp : s.tide.power = .slack) (hc : s.tide.coreEn = false)
    (hr : s.otp.run = none) : dapStartOtp s = dapRunOtp code { s with tap := { s.tap with wait := none } } := by
  have hmay : s.otpMayRun = true := by simp [State.otpMayRun, hp, hc, hr]
  unfold dapStartOtp
  simp only [hw, hp, wake_of_not_neap (s := s) (by simp [hp]), hmay, if_true, ne_eq, reduceCtorEq, not_false_eq_true]

/-- A wrong key ends either command with CONFIRM. -/
theorem dapRunOtp_confirm {code : Nat} (h : s.tap.args.getD 7 0 ≠ ~~~(s.tap.args.getD 0 0)) :
    dapRunOtp code s = otpEnd 7 0 false s := by
  have hk : ∀ args : List Word, args.getD 7 0 ≠ ~~~(args.getD 0 0) → ∀ u : State,
      otpProgram args false u = otpEnd 7 0 false u ∧ lifecycleAdvance args false u = otpEnd 7 0 false u :=
    fun args h u => ⟨if_pos h, if_pos h⟩
  unfold dapRunOtp
  split
  · exact (hk _ h s).1
  · exact (hk _ h s).2

theorem dapExec_confirm (ha : a = 0x30 ∨ a = 0x31) (hw : s.tap.wait = none) (hp : s.tide.power = .slack)
    (hc : s.tide.coreEn = false) (hr : s.otp.run = none) (hk : s.tap.args.getD 7 0 ≠ ~~~(s.tap.args.getD 0 0)) :
    dapExec a (selectIr .dap s) =
      { s.dapEnded 0 a 0 with otp := { s.otp with progStatus := 7, progWord := 0, run := none } } := by
  rw [dapExec_otp ha, dapStartOtp_of_slack (s := s.otpAccepted a) rfl hp hc hr, dapRunOtp_confirm (by exact hk)]
  exact congrArg (fun x => { s.dapEnded 0 a 0 with
    otp := { s.otp with progStatus := 7, progWord := 0, run := none }, tap := { (s.dapEnded 0 a 0).tap with wait := x } }) hw.symm

/-! ### Memory operations (R745) -/

/-- The state in which a memory operation acts in Slack: it is held there, and the bank is powered. -/
def State.dapHeld (s : State) (n : Nat) : State :=
  { s with tap := { s.tap with ir := .dap, slackHold := true, slackTick := s.sys.tick },
           tide := { s.tide with banksOn := s.tide.banksOn ||| bankMask n 4 } }

theorem memOp_range (h : 0x2000000 ≤ a.toNat ∨ a.toNat % 4 ≠ 0) : memOp a f s = dapEnd 3 a 0 s :=
  if_pos (by rw [show dapAddrOk a hbrBytes = false from dapAddrOk_false h]; rfl)

theorem memOp_spring (h : a.toNat < 0x2000000) (h4 : a.toNat % 4 = 0) (hp : s.tide.power = .spring) :
    memOp a f s = dapEnd 5 a 0 s := by
  unfold memOp
  rw [show dapAddrOk a hbrBytes = true from dapAddrOk_iff.mpr ⟨h, h4⟩, if_neg (by decide), if_pos hp]

theorem memOp_slack (h : a.toNat < 0x2000000) (h4 : a.toNat % 4 = 0) (hu : s.harbour.upset = []) (hp : s.tide.power = .slack) :
    memOp a f (selectIr .dap s) =
      if s.harbour.poisoned (a.toNat / 64) then dapEnd 4 a 0 (s.dapHeld a.toNat) else f (s.dapHeld a.toNat) := by
  have hwake : wake (selectIr .dap s) = selectIr .dap s := wake_of_not_neap (by simp [selectIr, hp])
  have hspring : ¬(selectIr .dap s).tide.power = .spring := by simp [selectIr, hp]
  have hvisit : ∀ u : State, u.harbour.upset = [] → ∀ n, u.visit n 4 = u.power n 4 := fun u hu n => if_pos (by rw [hu]; rfl)
  unfold memOp
  rw [show dapAddrOk a hbrBytes = true from dapAddrOk_iff.mpr ⟨h, h4⟩, if_neg (by decide), if_neg hspring, hwake]
  extract_lets old t u v
  have hv : v = s.dapHeld a.toNat := hvisit u hu _
  rw [hv]
  rfl

theorem getLsbD_foldl_or {p : Nat → Bool} {b : Nat} (hb : b < 32) (hp : p b = true) (l : List Nat) (m : BitVec 32) :
    m.getLsbD b = true ∨ b ∈ l →
      (l.foldl (fun (m : BitVec 32) i => if p i then m ||| BitVec.ofNat 32 (2 ^ i) else m) m).getLsbD b = true := by
  induction l generalizing m with
  | nil => simp
  | cons i l ih =>
    intro h
    refine ih _ ?_
    beta_reduce
    rw [List.mem_cons] at h
    obtain h | rfl | h := h
    · left
      split
      · rw [BitVec.getLsbD_or, h, Bool.true_or]
      · exact h
    · left
      rw [if_pos hp, BitVec.getLsbD_or, BitVec.getLsbD_ofNat, Nat.testBit_two_pow_self, decide_eq_true hb]
      simp
    · exact .inr h

/-- The bank of an access is among those that it powers (R757). -/
theorem getLsbD_bankMask {n : Nat} (h : n < 0x2000000) : (bankMask n 4).getLsbD (n / 0x100000) = true := by
  refine getLsbD_foldl_or (by omega) ?_ _ _ (.inr (List.mem_range.mpr (by omega)))
  simp only [Bool.and_eq_true, decide_eq_true_eq]
  omega

/-! ### The words of the memory -/

theorem leNat_lt (bs : List Byte) : leNat bs < 256 ^ bs.length := by
  induction bs with
  | nil => exact Nat.one_pos
  | cons b t ih =>
    have hb := b.isLt
    rw [leNat, List.length_cons, Nat.pow_succ']
    omega

theorem toNat_ofNat_leNat {bs : List Byte} (h : bs.length ≤ 4) : (BitVec.ofNat 32 (leNat bs)).toNat = leNat bs := by
  rw [BitVec.toNat_ofNat]
  exact Nat.mod_eq_of_lt ((leNat_lt bs).trans_le (Nat.pow_le_pow_right (by decide) h))

theorem toNat_ofNat_leAt (bs : List Byte) (o : Nat) : (BitVec.ofNat 32 (leAt bs o 4)).toNat = leAt bs o 4 :=
  toNat_ofNat_leNat (List.length_take_le _ _)

theorem rdBytes_wrBytes {m : List Host.Cell} (h : Memory.wf m = true) (n : Nat) (bs : List Byte) :
    rdBytes (wrBytes m n bs) n bs.length = bs := by
  refine List.ext_getElem? fun i => ?_
  by_cases hi : i < bs.length
  · rw [getElem?_rdBytes _ _ hi, rdByte_wrBytes _ _ _ _ h, if_pos (by omega), Nat.add_sub_cancel_left,
      List.getD_eq_getElem _ _ hi, List.getElem?_eq_getElem hi]
  · rw [List.getElem?_eq_none (by rw [length_rdBytes]; omega), List.getElem?_eq_none (by omega)]

theorem rdLE_putBytes {m : Lines} (h : m.wf = true) (n : Nat) (d : Word) :
    rdLE (m.putBytes n (leBytes d.toNat 4)).data n 4 = d.toNat := by
  simp only [Lines.wf, Bool.and_eq_true] at h
  obtain ⟨⟨hd, -⟩, -⟩ := h
  have hread := rdBytes_wrBytes hd n (leBytes d.toNat 4)
  rw [length_leBytes] at hread
  rw [rdLE, Lines.putBytes, hread, leNat_leBytes]
  exact Nat.mod_eq_of_lt d.isLt

theorem sameOutside_putBytes {m : Lines} (h : m.wf = true) (n : Nat) (d : Word) :
    sameOutside m (m.putBytes n (leBytes d.toNat 4)) n (n + 4) := by
  simp only [Lines.wf, Bool.and_eq_true] at h
  obtain ⟨⟨hd, -⟩, -⟩ := h
  refine ⟨fun b hb => ?_, fun l _ => rfl⟩
  rw [Lines.putBytes, rdByte_wrBytes _ _ _ _ hd, length_leBytes, if_neg (by omega)]

theorem leAt_eq_map {bs : List Byte} {o : Nat} (h : o + 4 ≤ bs.length) :
    leAt bs o 4 = leNat ((List.range 4).map fun i => bs.getD (o + i) 0) := by
  rw [leAt]
  congr 1
  refine List.ext_getElem (by simp; omega) fun i h1 h2 => ?_
  simp only [List.length_map, List.length_range] at h2
  simp only [List.getElem_take, List.getElem_drop, List.getElem_map, List.getElem_range]
  exact (List.getD_eq_getElem _ _ (by omega)).symm

/-! ### What a memory operation finds (R39, R42, R639) -/

theorem memWord_low {n : Nat} (h : n < 0x1F00000) : memWord n s = (BitVec.ofNat 32 (rdLE s.harbour.data n 4), s) := if_pos h

/-- The live RUNTIME bytes of an entry of the watch table (R42). -/
theorem memWord_runtime {n : Nat} {w : Watch} (h : 0x1F00000 ≤ n) (h' : n < 0x1F40000) (h4 : n % 4 = 0) (hb : s.tableBuilt = true)
    (hc : 0xC0 ≤ n % 256) (hw : s.watch? (rdLE s.harbour.data (n / 256 * 256) 2) = some w) :
    memWord n s = (BitVec.ofNat 32 (leAt w.runtime (n % 256 - 0xC0) 4), s) := by
  have hlen : w.runtime.length = 64 := (isRuntime_runtime w).1
  have hbyte : ∀ i, i < 4 → s.tableByte (n + i) = w.runtime.getD (n % 256 - 0xC0 + i) 0 := fun i hi => by
    have ho : (n + i - tableBase) % 256 = n % 256 + i := by simp only [tableBase]; omega
    unfold State.tableByte
    extract_lets o
    simp only [o, ho]
    rw [if_neg (by omega), show n + i - (n % 256 + i) = n / 256 * 256 by omega, hw,
      show n % 256 + i - 0xC0 = n % 256 - 0xC0 + i by omega]
  unfold memWord
  rw [if_neg (by simp only [tableBase]; omega), if_pos (by simp only [tableBase, hb, Bool.and_true]; exact decide_eq_true (by omega)),
    leAt_eq_map (by omega), List.map_congr_left fun i hi => hbyte i (List.mem_range.mp hi)]

theorem backlogPlace_ge {n i : Nat} (h : s.backlogPlace n = some i) : 0x1FC0000 ≤ n := by
  unfold State.backlogPlace at h
  split at h
  · next hc =>
    simp only [Bool.and_eq_true, decide_eq_true_eq] at hc
    exact hc.1.1
  · cases h

theorem memWord_backlog {n i : Nat} {e : Entry} (h : s.backlogPlace n = some i) (he : s.host.backlog[i]? = some e) :
    memWord n s = (BitVec.ofNat 32 (leAt e.bytes (n % 32) 4), s) := by
  have hn := backlogPlace_ge h
  unfold memWord
  rw [if_neg (by simp only [tableBase]; omega),
    if_neg (by rw [Bool.and_eq_true, decide_eq_true_eq]; simp only [tableBase]; omega)]
  simp only [h, List.getD, he, Option.getD_some]

theorem putMem_backlog {n i : Nat} {e : Entry} {bs : List Byte} (h : s.backlogPlace n = some i)
    (he : s.host.backlog[i]? = some e) : s.putMem n bs = { s with host := { s.host with
      backlog := s.host.backlog.set i { e with bytes := e.bytes.take (n % 32) ++ bs ++ e.bytes.drop (n % 32 + 4) } } } := by
  unfold State.putMem
  simp only [h, modAt, he]

theorem putMem_harbour {n : Nat} {bs : List Byte} (h : s.backlogPlace n = none) : s.putMem n bs = s.putHbr n bs := by
  unfold State.putMem
  rw [h]

end

section
variable {s : State} {a d : Word}

/-- What a memory operation in Slack leaves where the line is not poisoned. -/
theorem next_memRead (h : s.dapTakes) (hr : a.toNat < 0x2000000) (h4 : a.toNat % 4 = 0) (hu : s.harbour.upset = [])
    (hp : s.tide.power = .slack) (hq : s.harbour.poisoned (a.toNat / 64) = false) :
    exec (.memRead a) s = .next (dapEnd 0 a (memWord a.toNat (s.dapHeld a.toNat)).1 (memWord a.toNat (s.dapHeld a.toNat)).2) := by
  refine (next_dapOp h _).trans (congrArg _ ?_)
  rw [dapMemRead, memOp_slack hr h4 hu hp, hq, if_neg Bool.false_ne_true]

theorem next_memWrite (h : s.dapTakes) (hr : a.toNat < 0x2000000) (h4 : a.toNat % 4 = 0) (hu : s.harbour.upset = [])
    (hp : s.tide.power = .slack) (hq : s.harbour.poisoned (a.toNat / 64) = false) :
    exec (.memWrite a d) s = .next (dapEnd 0 a 0 ((s.dapHeld a.toNat).putMem a.toNat (leBytes d.toNat 4))) := by
  refine (next_dapOp h _).trans (congrArg _ ?_)
  rw [dapMemWrite, memOp_slack hr h4 hu hp, hq, if_neg Bool.false_ne_true]

end

/-- Settles O51: each operation is what the port does with it once it has selected the DAP. -/
theorem debugAccessRunsItsOperations : Obligations.DebugAccessRunsItsOperations := by
  refine ⟨fun s => ⟨rfl, rfl, ?_, fun code hc => ?_, fun h => ?_, fun h => ?_⟩, ?_, ?_, fun s hlive => ?_,
    fun s a d hlive i hi => ?_, fun s a d h => ?_⟩
  · exact congrArg Host.Outcome.next (extest_eq s)
  · exact congrArg Host.Outcome.next (selectCode_unlisted hc s)
  · rw [State.captureDr, h]
  · rw [State.captureDr, h]
  · rw [fld_idcodeWord (by decide)]
    rfl
  · rw [fld_idcodeWord (by decide)]
    rfl
  · exact ⟨next_inService hlive _, next_inService hlive _⟩
  · obtain ⟨f, hx⟩ := exec_dapOp s a d i hi
    rw [hx, next_inService hlive]
    exact ⟨fun hw => congrArg _ (dapOp_busy hw), fun hw hlc => congrArg _ (dapOp_closed hw hlc)⟩
  · obtain ⟨hlive, -, hw⟩ := id h
    refine ⟨fun ha => ⟨?_, ?_⟩, fun hr h4 => ⟨?_, ?_⟩, fun ha => ?_, fun ha => ?_, fun op => ?_, fun h30 h31 => ?_,
      fun ha => ⟨fun hp => ?_, fun hp hc hrun hk => ?_⟩, fun ha => ⟨?_, ?_⟩, fun hr h4 hu => ⟨fun hp => ⟨?_, ?_⟩, fun hp hq => ?_,
      fun hp hq => ⟨fun hl => ?_, fun hl hr' hb hc w hfind => ?_, fun i e hplace he hlen => ⟨?_, ?_⟩, fun hplace hwf => ?_⟩⟩⟩
    · exact (next_dapOp h _).trans (congrArg _ (if_neg (by rw [dapAddrOk_false ha]; decide)))
    · exact (next_dapOp h _).trans (congrArg _ (if_neg (by rw [dapAddrOk_false ha]; decide)))
    · exact (next_dapOp h _).trans (congrArg _ (if_pos (dapAddrOk_iff.mpr ⟨hr, h4⟩)))
    · refine (next_dapOp h _).trans (congrArg _ ?_)
      rw [dapQuayWrite, if_pos (dapAddrOk_iff.mpr ⟨hr, h4⟩), captureWord_eq hr]
      rfl
    · exact (next_dapOp h _).trans (congrArg _ (if_pos ha))
    · exact (next_dapOp h _).trans (congrArg _ (if_neg (Nat.not_lt.mpr ha)))
    · have hx : exec (.dapReservedOp op a d) s = .next (dapReserved op a s) := next_inService hlive _
      rw [hx, dapReserved]
      split
      · exact (next_inService hlive _).symm.trans (next_dapOp h _)
      · rfl
    · exact (next_dapOp h _).trans (congrArg _ (dapExec_other h30 h31))
    · refine (next_dapOp h _).trans (congrArg _ ?_)
      rw [dapExec_otp ha, dapStartOtp_of_spring (by exact hp)]
      rfl
    · exact (next_dapOp h _).trans (congrArg _ (dapExec_confirm ha hw hp hc hrun hk))
    · exact (next_dapOp h _).trans (congrArg _ (memOp_range ha))
    · exact (next_dapOp h _).trans (congrArg _ (memOp_range ha))
    · exact (next_dapOp h _).trans (congrArg _ (memOp_spring hr h4 hp))
    · exact (next_dapOp h _).trans (congrArg _ (memOp_spring hr h4 hp))
    · have hm : ∀ f, memOp a f (selectIr .dap s) = dapEnd 4 a 0 (s.dapHeld a.toNat) := fun f => by
        rw [memOp_slack hr h4 hu hp, if_pos hq]
      exact ⟨_, (next_dapOp h _).trans (congrArg _ (hm _)), (next_dapOp h _).trans (congrArg _ (hm _)), rfl, rfl, rfl, rfl⟩
    · refine ⟨_, next_memRead h hr h4 hu hp hq, ?_⟩
      rw [memWord_low hl]
      refine ⟨rfl, rfl, toNat_ofNat_leNat (length_rdBytes _ _ 4).le, rfl, rfl, rfl, rfl, rfl, ?_⟩
      exact (BitVec.getLsbD_or).trans (by rw [getLsbD_bankMask hr, Bool.or_true])
    · refine ⟨_, next_memRead h hr h4 hu hp hq, ?_⟩
      rw [memWord_runtime (s := s.dapHeld a.toNat) hl hr' h4 hb hc hfind]
      exact ⟨rfl, toNat_ofNat_leAt _ _⟩
    · refine ⟨_, next_memRead h hr h4 hu hp hq, ?_⟩
      rw [memWord_backlog (s := s.dapHeld a.toNat) hplace he]
      exact ⟨rfl, toNat_ofNat_leAt _ _⟩
    · refine ⟨_, next_memWrite h hr h4 hu hp hq, ?_⟩
      rw [putMem_backlog (s := s.dapHeld a.toNat) hplace he]
      exact ⟨rfl, rfl, rfl⟩
    · refine ⟨_, next_memWrite h hr h4 hu hp hq, ?_⟩
      rw [putMem_harbour (s := s.dapHeld a.toNat) hplace]
      exact ⟨rfl, rfl, rfl, rdLE_putBytes hwf _ _, sameOutside_putBytes hwf _ _, rfl, rfl, rfl, rfl⟩

end Sys2Proof.Machine
end

