-- ==== Sys2Proof/Proofs/FrameBooks.lean ====
section
/-! PROOF. Proofs/FrameBooks.lean: where FRAME_COMPLETE does not do what a statement asks of it: the last frame of a job without
programs ends the job, and the book of berths that is checked there does not balance (R269, R270, R619, R621). -/
namespace Sys2Proof.Machine
open Sys2Proof

/-! ### The book of berths -/

/-- The end of a pixel job whose book of berths does not balance is chip-fatal (R621). -/
theorem endJob_of_unbalanced {s : State} {n : Nat} {w : Watch} {j : Job} (hw : s.watch? n = some w) (hj : w.job = some j)
    (hk : w.entry.inputKind = 1) (hb : s.berthsBalance = false) : endJob n s = booksFail s := by
  simp [endJob, hw, hj, hk, hb]

/-- With no store busy and no entry that waits, a book that fails resets the pixel array with the device (R156, R619). -/
theorem pix_booksFail {s : State} (hl : s.live) (hi : s.idleStores) (hq : s.strand.logQueue = [])
    (hwf : Memory.wf s.strand.data = true) : (booksFail s).pix = {} := by
  obtain ⟨d, hd, -⟩ := chipFatal_of_idle hl hi (by simp [hq]) hwf 5 8
  rw [booksFail, hd]
  rfl

/-! ### A last frame beside a berth left FILLING -/

/-- The body of a PIXEL_PROGRAM that R262 accepts: one RAW16 window of 16 × 8 pixels, its berths from number 3 on, 1,024 bytes
apart (R261, R263). -/
def oneWindow : List Byte :=
  let program := [1, 0, 0, 0] ++ leBytes 24 4 ++ leBytes 256 2 ++ leBytes 0 2 ++ leBytes 0 4 ++ leBytes 1 2 ++ zeros 14
  let window := leBytes 0 2 ++ leBytes 0 2 ++ leBytes 16 2 ++ leBytes 8 2 ++ [0, 1, 3, 0] ++ leBytes 0 4 ++ leBytes 1024 4
  program ++ window ++ leBytes 0xFFFF 2 ++ zeros 10

/-- A watch whose job takes two frames and has no programs; no head runs for it either (R270). -/
def framesOnly : Watch where
  entry := { num := 5, inputKind := 1, inputUnits := 2, inputRec := 3, hbrSize := 0x1000 }
  state := .running
  job := some { acquired := true }

/-- The capture of its second frame, every row read. -/
def secondFrame : Capture where
  watch := 5
  next := 2
  reading := some { frame := 1 }
  rowsRead := 8
  wins := [{}]

/-- The device in that readout: berth 4 of the frame is FILLING, and so is berth 9, which no frame of the job fills. -/
def straggling : State where
  watches := [framesOnly]
  image := { records := [{ type := 0x0C, id := 3, body := oneWindow }] }
  pix := { cap := some secondFrame, berths := [(4, .filling), (9, .filling)] }
  tide := { pixEn := true }

/-- That device with the frame complete, as the end of the job finds it: the array is free, and berth 9 alone is FILLING. -/
def framesTaken : State :=
  let head := berthHeader (PixProg.read oneWindow) (PixWin.read oneWindow 0x20) 0 { frame := 1 } {} 0
  let s := straggling.putHbrLines (1024 / 64) [(head, 0)]
  State.modJob { s with pix := { berths := [(9, .filling), (4, .ready)], frames := 1 }, tide := { s.tide with pixEn := false } } 5
    fun j => { j with inputsDone := true }

theorem frameComplete_straggling : frameComplete straggling = endJob 5 framesTaken := by
  decide +kernel

/-- The last frame frees the array, the job ends, and the book that fails there leaves no count of frames. -/
theorem exec_frameComplete_straggling : ∃ t, exec .frameComplete straggling = .next t ∧ t.pix = {} := by
  refine ⟨booksFail framesTaken, ?_, pix_booksFail rfl ⟨rfl, rfl, rfl, rfl⟩ rfl rfl⟩
  refine (next_inService (s := straggling) rfl frameComplete).trans (congrArg _ (frameComplete_straggling.trans ?_))
  exact endJob_of_unbalanced (w := { framesOnly with job := some { acquired := true, inputsDone := true } }) rfl rfl rfl rfl

/-- Refutes O38 in its clause of FRAME_COMPLETE, which has no premise on the book of berths: where a berth of no frame is FILLING,
the last frame of a job without programs ends in the chip-fatal reset of R621, which clears the berths and PIX_FRAMES. -/
theorem not_framesAreExposedAndReadOut : ¬ Obligations.FramesAreExposedAndReadOut := by
  unfold Obligations.FramesAreExposedAndReadOut
  intro h
  obtain ⟨-, -, -, -, hcomplete⟩ := h straggling secondFrame framesOnly (straggling.pixProg framesOnly) rfl
    (List.pairwise_singleton _ _) rfl rfl
  obtain ⟨t, ht, hframes, -⟩ := hcomplete { frame := 1 } rfl (by decide +kernel) (by decide) (by decide +kernel)
  obtain ⟨u, hu, hreset⟩ := exec_frameComplete_straggling
  cases ht.symm.trans hu
  rw [hreset] at hframes
  exact absurd hframes (by decide)

end Sys2Proof.Machine
end

