-- ==== Sys2Proof/Proofs/AdcChains.lean ====
section
/-! PROOF. Proofs/AdcChains.lean: the conversions of the Aux ADC and its decimation chains: the clamp of a code, a discard clock,
the first sample of a chain and a steady input's way through it (R291 to R298). -/
namespace Sys2Proof.Machine
open Sys2Proof

/-! ### Rounding and sums of equal values -/

/-- An exact quotient is its own rounding (R462). -/
theorem rhe_mul_self (x : Int) {q : Nat} (h : 0 < q) : rhe (x * q) q = x := by
  have hq : (q : Int) ≠ 0 := by omega
  have hf : (x * q).fdiv q = x := Int.mul_fdiv_cancel x hq
  simp only [rhe, hf, sub_self, mul_zero]
  exact if_pos (by omega)

theorem movingSums_replicate (m n : Nat) (v : Int) :
    movingSums m (List.replicate n v) = List.replicate (n + 1 - m) (m * v) := by
  refine List.eq_replicate_iff.mpr ⟨by simp [movingSums], fun x hx => ?_⟩
  simp only [movingSums, List.length_replicate, List.mem_map, List.mem_range] at hx
  obtain ⟨i, hi, rfl⟩ := hx
  rw [List.drop_replicate, List.take_replicate, Nat.min_eq_left (by omega), List.sum_replicate, nsmul_eq_mul]

/-- The CIC of a steady input has the gain M⁴ (R295). -/
theorem cicOut_replicate {m : Nat} (h : 1 ≤ m) (v : Int) : cicOut m (List.replicate (4 * m - 3) v) = v * (m ^ 4 : Nat) := by
  have hlen : 4 * m - 3 + 1 - m + 1 - m + 1 - m + 1 - m = 1 := by omega
  simp only [cicOut, movingSums_replicate, hlen]
  simp only [List.replicate_one, List.headD_cons]
  push_cast
  ring

theorem take_cons_replicate {α : Type} (n : Nat) (x : α) : (x :: List.replicate n x).take n = List.replicate n x := by
  rw [← List.replicate_succ, List.take_replicate, Nat.min_eq_left (Nat.le_succ n)]

/-! ### Conversion (R291 to R293) -/

/-- A code within the converter's range enters as it is; one beyond is clamped and over-range. -/
theorem convert_code (x : Int) :
    convert (x, false) = if 8191 < x then (8191, true) else if x < -8192 then (-8192, true) else (x, false) := by
  simp only [convert, Bool.false_or, Bool.or_eq_true, decide_eq_true_eq]
  grind

theorem adcClock_discard {q : AdcSeq} {k : Nat} (h : q.cycle.getD k none = none) (u : Nat) (rs : List ChainRun) (x : Int × Bool) :
    adcClock q u (k, rs) x = ((k + 1) % max 1 q.frameLen, rs) := by
  simp only [adcClock, h]

/-! ### The samples of a chain (R295 to R298) -/

section
variable {d : ChainDesc} {r : ChainRun}

theorem chainSample_first (h : r.started = false) (d : ChainDesc) (x : Int × Bool) : chainSample d r x =
    { r with reach := if x.2 then d.reachOf else r.reach - 1, entered := r.entered || x.2, started := true,
             hist := List.replicate d.cicSpan x.1, cic := List.replicate d.hbSpan (x.1 * (d.m ^ 4 : Nat)) } := by
  simp [chainSample, h]

/-- The last sample of every M × 2^H forms an output, from histories whose newest entries are its own. -/
theorem chainSample_output (hs : r.started = true) (hp : r.phase + 1 = d.ratio) (x : Int × Bool) :
    let hist := (x.1 :: r.hist).take d.cicSpan
    let cic := (cicOut d.m hist :: r.cic).take d.hbSpan
    let r' : ChainRun := { r with reach := if x.2 then d.reachOf else r.reach - 1, entered := r.entered || x.2, hist := hist, cic := cic }
    chainSample d r x = { r' with phase := 0, words := r'.word (d.output cic) :: r.words } := by
  have hm : d.ratio % d.m = 0 := Nat.mul_mod_right d.m _
  simp [chainSample, hs, hp, hm]

/-- Equal CIC outputs come out of the half-band stages as they are, in 1/16 code (log 68). -/
theorem output_replicate (hm : 1 ≤ d.m) (n : Nat) (v : Int) :
    d.output (List.replicate (n + 1) (v * (d.m ^ 4 : Nat))) = 16 * v := by
  have hq : 0 < d.m ^ 4 := Nat.pow_pos hm
  rw [List.replicate_succ, ChainDesc.output]
  simp only [List.all_replicate, beq_self_eq_true, ite_self, if_true]
  rw [← mul_assoc]
  exact rhe_mul_self (16 * v) hq

/-- A steady input comes out of a chain corrected by its pair, saturated and marked. -/
theorem chainSample_steady {v : Int} (hm : 1 ≤ d.m) (hs : r.started = true) (hh : r.hist = List.replicate (4 * d.m - 3) v)
    (hc : r.cic = List.replicate (22 * (2 ^ d.hb - 1) + 1) (v * (d.m ^ 4 : Nat))) (hp : r.phase + 1 = d.ratio) :
    (chainSample d r (v, false)).words.head?.map (fun x => (x.1, x.2.1)) =
      some (ofSigned (clampI (-8192) 8191 (rhe ((16 * v - r.ofs) * r.gain) (2 ^ 26))).1 14, r.entered || decide (1 < r.reach)) := by
  have hist : (v :: r.hist).take d.cicSpan = List.replicate (4 * d.m - 3) v := by
    rw [hh]
    exact take_cons_replicate _ v
  have cic : (cicOut d.m (List.replicate (4 * d.m - 3) v) :: r.cic).take d.hbSpan =
      List.replicate (22 * (2 ^ d.hb - 1) + 1) (v * (d.m ^ 4 : Nat)) := by
    rw [cicOut_replicate hm, hc]
    exact take_cons_replicate _ _
  have hreach : (r.reach - 1 != 0 || (r.entered || false)) = (r.entered || decide (1 < r.reach)) := by
    rw [Bool.or_false, Bool.or_comm, show (r.reach - 1 != 0) = decide (1 < r.reach) by rw [Bool.eq_iff_iff]; simp; omega]
  rw [chainSample_output hs hp, hist, cic, output_replicate hm]
  exact congrArg (fun b => some (_, b)) hreach

theorem clampI_fst {lo hi : Int} (h : lo ≤ hi) (x : Int) : (clampI lo hi x).1 = max lo (min hi x) := by
  unfold clampI
  split_ifs <;> omega

end

end Sys2Proof.Machine
end

