-- ==== Sys2Proof/Proofs/AdcBlocks.lean ====
section
/-! PROOF. Proofs/AdcBlocks.lean: the lines that a block of an Aux ADC chain takes in the Harbour, and what their fields read as
(R302 to R305). -/
namespace Sys2Proof.Machine
open Sys2Proof

/-! ### Fields of written lines (R8) -/

theorem leAt_padTo {bs : List Byte} {o n k : Nat} (h : o + k ≤ bs.length) (hn : o + k ≤ n) : leAt (padTo bs n) o k = leAt bs o k := by
  rw [leAt, padTo, List.drop_take, List.take_take, Nat.min_eq_left (by omega), List.drop_append_of_le_length (by omega),
    List.take_append_of_le_length (by rw [List.length_drop]; omega), leAt]

/-- Numbers written one after the other stand at multiples of their width. -/
theorem leAt_flatMap_leBytes {α : Type} {l : List α} {i : Nat} {x : α} (h : l[i]? = some x) (f : α → Nat) (n : Nat) :
    leAt (l.flatMap fun y => leBytes (f y) n) (n * i) n = f x % 256 ^ n := by
  induction l generalizing i with
  | nil => cases h
  | cons y ys ih =>
    rw [List.flatMap_cons]
    cases i with
    | zero =>
      cases h
      exact leAt_leBytes_append _ _ _
    | succ i =>
      rw [leAt_append_right (by rw [length_leBytes, Nat.mul_succ]; omega), length_leBytes, Nat.mul_succ, Nat.add_sub_cancel]
      exact ih h

/-- A field of line i of those written from an aligned offset is that of its bytes. -/
theorem rdLE_putLines {m : Lines} (hm : m.wf = true) {a : Nat} (ha : a % 64 = 0) {ls : List (List Byte × BitVec 16)} {i : Nat}
    {bs : List Byte} {t : BitVec 16} (hl : ls[i]? = some (padTo bs 64, t)) {o n : Nat} (ho : o + n ≤ 64) (hb : o + n ≤ bs.length) :
    rdLE (m.putLines (a / 64) ls).data (a + 64 * i + o) n = leAt bs o n := by
  obtain ⟨hi, he⟩ := List.getElem?_eq_some_iff.mp hl
  obtain ⟨-, hbytes⟩ := putLines_getElem ls hm (a / 64) hi
  rw [he] at hbytes
  rw [← leAt_padTo hb ho, rdLE, leAt]
  congr 1
  refine List.ext_getElem (by simp [length_rdBytes, length_padTo]; omega) fun j h1 h2 => ?_
  rw [length_rdBytes] at h1
  rw [List.getElem_take, List.getElem_drop, ← List.getD_eq_getElem _ 0, getD_rdBytes _ _ _ _ h1, ← List.getD_eq_getElem _ 0,
    ← hbytes (o + j) (by omega)]
  congr 1
  omega

/-! ### The lines of a block (R302, R304, R305) -/

/-- The 26 bytes of a header line before its zeros. -/
theorem blockHeader_eq (q : AdcSeq) (i : Nat) (d : ChainDesc) (num tick : Nat) (r : ChainRun) : ∃ bs : List Byte, bs.length = 26 ∧
    blockHeader q i d num tick r = padTo bs 64 ∧ leAt bs 0 4 = num % 2 ^ 32 ∧ leAt bs 20 6 = tick % 2 ^ 48 := by
  refine ⟨_, ?_, rfl, ?_, ?_⟩
  · simp [length_leBytes]
  · simp [List.append_assoc, leAt_leBytes_append]
  · have h := leAt_leBytes_append tick 6 []
    rw [List.append_nil] at h
    simp [List.append_assoc, leAt_append_right, length_leBytes, h]

/-- A word of a block as it stands in the Harbour, at its place in the block (R302). -/
def sampleCode (w : (Nat × Bool × Bool) × Nat) : Nat := w.1.1 + 2 ^ 14 * b2n w.1.2.1 + 2 ^ 15 * b2n (w.2 == 0)

/-- The words of line i of a block, each with its place in the block. -/
def lineWords (ws : List (Nat × Bool × Bool)) (i : Nat) : List ((Nat × Bool × Bool) × Nat) := ((ws.zipIdx).drop (32 * i)).take 32

theorem length_blockBody (ws : List (Nat × Bool × Bool)) : (blockBody ws).length = ceilDiv ws.length 32 := by
  rw [blockBody, List.length_map, List.length_range]

theorem getElem?_blockBody {ws : List (Nat × Bool × Bool)} {i : Nat} (h : i < ceilDiv ws.length 32) :
    ∃ t, (blockBody ws)[i]? = some (padTo ((lineWords ws i).flatMap fun w => leBytes (sampleCode w) 2) 64, t) := by
  rw [blockBody, List.getElem?_map, List.getElem?_range h]
  exact ⟨_, rfl⟩

theorem getElem?_lineWords {ws : List (Nat × Bool × Bool)} {k : Nat} {x : Nat × Bool × Bool} (h : ws[k]? = some x) :
    (lineWords ws (k / 32))[k % 32]? = some (x, k) := by
  rw [lineWords, List.getElem?_take_of_lt (Nat.mod_lt k (by decide)), List.getElem?_drop, Nat.div_add_mod, List.getElem?_zipIdx, h]
  simp

theorem length_flatMap_leBytes {α : Type} (l : List α) (f : α → Nat) (n : Nat) :
    (l.flatMap fun y => leBytes (f y) n).length = n * l.length := by
  simp [List.length_flatMap, length_leBytes, mul_comm]

/-- The lines that a block takes in the Harbour: its header and its words (R302 to R305). -/
def AdcSeq.linesOf (q : AdcSeq) (i : Nat) (d : ChainDesc) (num first : Nat) (r : ChainRun) : List (List Byte × BitVec 16) :=
  (blockHeader q i d (num % 2 ^ 32) (first % 2 ^ 48) r, 0) :: blockBody r.words.reverse

section
variable {m : Lines} {a k : Nat} {r : ChainRun}

theorem AdcSeq.length_linesOf (q : AdcSeq) (i : Nat) (d : ChainDesc) (num first : Nat) (r : ChainRun) :
    64 * (q.linesOf i d num first r).length = 64 + (2 * r.words.length + 63) / 64 * 64 := by
  rw [AdcSeq.linesOf, List.length_cons, length_blockBody, List.length_reverse, ceilDiv]
  omega

/-- The header of a block in the Harbour gives its number and the tick of its first sample. -/
theorem rdLE_linesOf_header (hm : m.wf = true) (ha : a % 64 = 0) (q : AdcSeq) (i : Nat) (d : ChainDesc) (num first : Nat)
    (r : ChainRun) : let data := (m.putLines (a / 64) (q.linesOf i d num first r)).data
    rdLE data a 4 = num % 2 ^ 32 ∧ rdLE data (a + 20) 6 = first % 2 ^ 48 := by
  obtain ⟨bs, hlen, hhdr, hnum, htick⟩ := blockHeader_eq q i d (num % 2 ^ 32) (first % 2 ^ 48) r
  have hl : (q.linesOf i d num first r)[0]? = some (padTo bs 64, 0) := congrArg (fun b => some (b, 0)) hhdr
  rw [Nat.mod_mod] at hnum htick
  exact ⟨(rdLE_putLines hm ha hl (by decide) (by omega)).trans hnum, (rdLE_putLines hm ha hl (by decide) (by omega)).trans htick⟩

theorem sameOutside_linesOf (hm : m.wf = true) (ha : a % 64 = 0) (q : AdcSeq) (i : Nat) (d : ChainDesc) (num first : Nat)
    (r : ChainRun) : sameOutside m (m.putLines (a / 64) (q.linesOf i d num first r)) a
      (a + (64 + (2 * r.words.length + 63) / 64 * 64)) := by
  have hout := sameOutside_putLines (q.linesOf i d num first r) hm (a / 64)
  rwa [AdcSeq.length_linesOf, Nat.mul_div_cancel' (Nat.dvd_of_mod_eq_zero ha)] at hout

/-- Word k of a block in the Harbour: its code, with OVR in bit 14 and, in the first, bit 15 (R302). -/
theorem rdLE_linesOf_word (hm : m.wf = true) (ha : a % 64 = 0) (q : AdcSeq) (i : Nat) (d : ChainDesc) (num first : Nat)
    {x : Nat × Bool × Bool} (hx : r.words.reverse[k]? = some x) :
    rdLE (m.putLines (a / 64) (q.linesOf i d num first r)).data (a + 64 + 2 * k) 2 =
      (x.1 + (if x.2.1 then 2 ^ 14 else 0) + (if k = 0 then 2 ^ 15 else 0)) % 65536 := by
  obtain ⟨hk, -⟩ := List.getElem?_eq_some_iff.mp hx
  have hw := getElem?_lineWords hx
  obtain ⟨hj, -⟩ := List.getElem?_eq_some_iff.mp hw
  obtain ⟨t, hl⟩ := getElem?_blockBody (ws := r.words.reverse) (i := k / 32) (by rw [ceilDiv]; omega)
  have hline : (q.linesOf i d num first r)[k / 32 + 1]? = some _ := hl
  have hread := rdLE_putLines hm ha hline (o := 2 * (k % 32)) (n := 2) (by omega) (by rw [length_flatMap_leBytes]; omega)
  rw [show a + 64 + 2 * k = a + 64 * (k / 32 + 1) + 2 * (k % 32) by omega, hread, leAt_flatMap_leBytes hw]
  simp [sampleCode, b2n]

end

end Sys2Proof.Machine
end

