-- ==== Sys2Proof/Proofs/AdcCaptures.lean ====
section
/-! PROOF. Proofs/AdcCaptures.lean: the captures of the Aux ADC: the bandgap check, the start of the sequencer, an overrun and a block
that is not the last of its chain (R303 to R308, R316, R317). -/
namespace Sys2Proof.Machine
open Sys2Proof

section
variable {s : State} {c : AdcCapture} {w : Watch}

theorem adcCapture?_some (h : s.adcCapture? = some (c, w)) : s.adc.cap = some c ∧ ResetUnit.adc ∉ s.sys.resetting := by
  unfold State.adcCapture? at h
  split at h
  · next a ha =>
    split at h
    · cases h
    · next hn =>
      simp only [Bool.or_eq_true, decide_eq_true_eq, not_or] at hn
      obtain ⟨-, hr⟩ := hn
      obtain ⟨x, -, he⟩ := Option.map_eq_some_iff.mp h
      cases he
      exact ⟨ha, hr⟩
  · cases h

/-! ### The partial reset of the Aux ADC (R168, R173) -/

theorem startPartial_adc (h : ResetUnit.adc ∉ s.sys.resetting) : startPartial .adc s = { s with sys := { s.sys with
    resetting := s.sys.resetting ++ [.adc], unitResets := modAt s.sys.unitResets 5 (fun n => satAdd n 1 15) } } := if_neg h

theorem getD_modAt_satAdd (l : List Nat) (i top : Nat) :
    (modAt l i (fun n => satAdd n 1 top)).getD i 0 = if i < l.length then min top (l.getD i 0 + 1) else 0 := by
  split
  · next h => exact getD_modAt_self h _ 0
  · next h => simp [modAt, h]

/-! ### The start of a capture (R308, R316, R317) -/

/-- The code of a bandgap check is noted in ADC_BG (R308). -/
def State.bandgapNoted (s : State) (mean : Int) : State := { s with adc := { s.adc with bgCode := BitVec.ofInt 14 mean } }

/-- A check that waits, for a capture, passes within the bounds of R308 and otherwise resets the unit (R316). -/
theorem bandgapCheck_capture (hx : s.tide.xrefReady = true) (h : s.adcCapture? = some (c, w)) (hb : c.bgDone = false) (sum : Nat) :
    bandgapCheck sum s =
      if 4817 ≤ rhe sum 64 ∧ rhe sum 64 ≤ 5013 then
        modAdcCap (fun c => { c with bgDone := true }) (s.bandgapNoted (rhe sum 64))
      else startPartial .adc (bandgapFails (s.bandgapNoted (rhe sum 64))) := by
  obtain ⟨hc, -⟩ := adcCapture?_some h
  simp only [bandgapCheck, hx, h, hc, hb, Bool.and_eq_true, decide_eq_true_eq, Bool.false_eq_true, if_true, if_false]
  simp only [State.bandgapNoted, hc]

/-- The same of a calibration, which a failed check ends (R311, R316). -/
theorem bandgapCheck_cal {r : CalRun} (hx : s.tide.xrefReady = true) (hc : s.adc.cap = none) (hr : s.adc.cal = some r)
    (hb : r.bgDone = false) (hn : ResetUnit.adc ∉ s.sys.resetting) (sum : Nat) : bandgapCheck sum s =
      if 4817 ≤ rhe sum 64 ∧ rhe sum 64 ≤ 5013 then
        State.bandgapNoted { s with adc := { s.adc with cal := some { r with bgDone := true } } } (rhe sum 64)
      else calEnd 9 (bandgapFails (s.bandgapNoted (rhe sum 64))) := by
  simp only [bandgapCheck, hx, hc, hr, hb, hn, Bool.and_eq_true, decide_eq_true_eq, decide_false, Bool.or_false, Bool.false_eq_true,
    if_true, if_false]
  simp only [State.bandgapNoted, hc, hr]

theorem sequencerStart_ready (h : s.adcCapture? = some (c, w)) (hb : c.bgDone = true) (hr : c.running = false)
    (ht : c.iepeTick + (s.adcSeq w).settle ≤ s.sys.tick) : sequencerStart s = { s with adc := { s.adc with cap := some { c with
      running := true, clock := if (s.adcSeq w).cycle.head? = some none then 1 else 0 } } } := by
  obtain ⟨hc, -⟩ := adcCapture?_some h
  simp [sequencerStart, h, hb, hr, ht, modAdcCap, hc]

theorem adcOverrun_running (h : s.adcCapture? = some (c, w)) (hr : c.running = true) : adcOverrun s = startPartial .adc s := by
  simp only [adcOverrun, h, hr, if_true]

/-! ### A block that is not the last of its chain (R302 to R307) -/

/-- While a chain of the capture has blocks to make, the Aux ADC stays with its job. -/
theorem adcInputs_of_unfinished {r : ChainRun} (hc : s.adc.cap = some c) (hr : r ∈ c.chains) (hd : r.done < w.entry.inputUnits) :
    adcInputs w s = s := by
  have hall : ¬ c.chains.all (fun r => w.entry.inputUnits ≤ r.done) = true := fun h => by
    have := List.all_eq_true.mp h r hr
    simp only [decide_eq_true_eq] at this
    omega
  simp only [adcInputs, hc, if_neg hall]

/-- The Aux ADC with capture c once the block of chain run r is in the Harbour, counted where it holds a marked or a digitally
saturated output (ADC_COUNTS). -/
def Adc.blockMade (a : Adc) (c : AdcCapture) (r : ChainRun) : Adc :=
  { a with ovrBlocks := satAdd a.ovrBlocks (b2n (r.entered || r.carry)) 0xFFFF,
           satBlocks := satAdd a.satBlocks (b2n (r.words.any fun w => w.2.2)) 0xFFFF, cap := some c }

/-- Lines ls stand in the Harbour from line l, and the Aux ADC is a. -/
def State.blockStored (s : State) (l : Nat) (ls : List (List Byte × BitVec 16)) (a : Adc) : State := { s.putHbrLines l ls with adc := a }

@[simp] theorem harbour_blockStored (s : State) (l : Nat) (ls : List (List Byte × BitVec 16)) (a : Adc) :
    (s.blockStored l ls a).harbour = s.harbour.putLines l ls := rfl
@[simp] theorem adc_blockStored (s : State) (l : Nat) (ls : List (List Byte × BitVec 16)) (a : Adc) :
    (s.blockStored l ls a).adc = a := rfl
@[simp] theorem watches_blockStored (s : State) (l : Nat) (ls : List (List Byte × BitVec 16)) (a : Adc) :
    (s.blockStored l ls a).watches = s.watches := rfl

/-- The lines of a full block stand in the Harbour, and its chain goes on with the next one. -/
theorem blockComplete_full {i first clk : Nat} {d : ChainDesc} {r : ChainRun} {rs : List ChainRun} {codes : List (Int × Bool)}
    (h : s.adcCapture? = some (c, w)) (hrun : c.running = true) (hd : (s.adcSeq w).chains[i]? = some d)
    (hfold : codes.foldl (adcClock (s.adcSeq w) w.entry.inputUnits) (c.clock, c.chains) = (clk, rs)) (hr : rs[i]? = some r)
    (hfull : blockFull (s.adcSeq w) i rs = true) (hmore : r.done + 1 < w.entry.inputUnits) (hsp : d.spectral = false)
    (hin : w.inWindow (blockAddr w d r.done) (64 + (2 * r.words.length + 63) / 64 * 64) = true) :
    blockComplete i first codes s =
      s.blockStored (blockAddr w d r.done / 64) ((s.adcSeq w).linesOf i d (c.blockBase + r.done) first r)
        (s.adc.blockMade { c with clock := clk, chains := rs.set i (r.nextBlock d) } r) := by
  obtain ⟨hc, -⟩ := adcCapture?_some h
  have hput : putForJob w (blockAddr w d r.done) ((s.adcSeq w).linesOf i d (c.blockBase + r.done) first r) s = some _ :=
    if_pos (by rw [AdcSeq.length_linesOf]; exact hin)
  rw [AdcSeq.linesOf] at hput
  have hunits : ¬ w.entry.inputUnits ≤ r.done := by omega
  simp only [blockComplete, h, hfold, hd, hr, hrun, hunits, hfull, hput, hsp, Bool.not_true, decide_false, Bool.or_false, Bool.false_and,
    Bool.false_eq_true, if_false]
  refine (adcInputs_of_unfinished (c := { c with clock := clk, chains := rs.set i (r.nextBlock d) }) (r := r.nextBlock d)
    ?_ ?_ hmore).trans ?_
  · simp only [modAdcCap, State.putHbrLines, State.power, hc]
    rfl
  · obtain ⟨hi, -⟩ := List.getElem?_eq_some_iff.mp hr
    exact List.mem_of_getElem? (List.getElem?_set_self hi)
  · simp only [modAdcCap, State.blockStored, AdcSeq.linesOf, State.putHbrLines, State.power, hc, hrun, Option.map_some]
    rfl

end

end Sys2Proof.Machine
end

