-- ==== Sys2Proof/Proofs/AdcCalibration.lean ====
section
/-! PROOF. Proofs/AdcCalibration.lean: the system calibration of the Aux ADC: the end of a measurement, and the commands CAL_ZERO, CAL_FULL
and CAL_COMMIT (R310 to R314). With them the obligation of the Aux ADC. -/
namespace Sys2Proof.Machine
open Sys2Proof

/-! ### System calibration (R310 to R314) -/

section
variable {α : Type} {l : List ((Nat × Nat) × α)} {p q : Nat × Nat}

theorem pairGet_pairPut_self (l : List ((Nat × Nat) × α)) (p : Nat × Nat) (x : α) : pairGet (pairPut l p x) p = some x := by
  have hn : (l.filter fun e => e.1 != p).find? (fun e => e.1 == p) = none := by simp [List.find?_eq_none]
  simp [pairGet, pairPut, List.find?_append, hn]

theorem pairGet_pairPut_ne (h : q ≠ p) (l : List ((Nat × Nat) × α)) (x : α) : pairGet (pairPut l p x) q = pairGet l q := by
  have hf : (l.filter fun e => e.1 != p).find? (fun e => e.1 == q) = l.find? (fun e => e.1 == q) := by
    rw [List.find?_filter]
    congr 1
    funext e
    by_cases he : e.1 = q <;> simp [he, h]
  have hx : (p == q) = false := by simpa using h.symm
  simp [pairGet, pairPut, List.find?_append, hf, hx]

end

section
variable {s : State} {r : CalRun} {sum v : Int} {ovr : Bool} {m0 g : Int}

@[simp] theorem adc_calEnd (code : Nat) (s : State) : (calEnd code s).adc = { s.adc with cal := none, calStatus := code } := by
  unfold calEnd calComplete mbxComplete
  split <;> rfl

@[simp] theorem watches_calEnd (code : Nat) (s : State) : (calEnd code s).watches = s.watches := by
  unfold calEnd calComplete mbxComplete
  split <;> rfl

@[simp] theorem strand_calEnd (code : Nat) (s : State) : (calEnd code s).strand = s.strand := by
  unfold calEnd calComplete mbxComplete
  split <;> rfl

/-- The mean of a measurement is noted in ADC_CAL_MEAN (R311). -/
def State.calNoted (s : State) (sum : Int) : State := { s with adc := { s.adc with calMean := rhe sum 4096 } }

theorem calMeasured_ovr (hc : s.adc.cap = none) (hr : s.adc.cal = some r) (hb : r.bgDone = true) :
    calMeasured sum true s = calEnd 3 (s.calNoted sum) := by
  simp only [calMeasured, hc, hr, hb, Bool.not_true, Bool.false_eq_true, if_true, if_false]
  simp only [State.calNoted, hc, hr]

/-- CAL_ZERO takes a mean of at most 400 codes as the pair's M0. -/
theorem calMeasured_zero (hc : s.adc.cap = none) (hr : s.adc.cal = some r) (hb : r.bgDone = true) (ha : r.applied = none) :
    calMeasured sum false s =
      if 6400 < (rhe sum 4096).natAbs then calEnd 5 (s.calNoted sum)
      else calEnd 0 { s.calNoted sum with adc := { (s.calNoted sum).adc with
        m0 := pairPut s.adc.m0 (r.channel, r.gain) (rhe sum 4096) } } := by
  simp only [calMeasured, hc, hr, hb, ha, Bool.not_true, Bool.false_eq_true, if_false]
  simp only [State.calNoted, hc, hr]

theorem calMeasured_noZero (hc : s.adc.cap = none) (hr : s.adc.cal = some r) (hb : r.bgDone = true) (ha : r.applied = some v)
    (hm : pairGet s.adc.m0 (r.channel, r.gain) = none) : calMeasured sum false s = calEnd 2 (s.calNoted sum) := by
  simp only [calMeasured, hc, hr, hb, ha, hm, Bool.not_true, Bool.false_eq_true, if_false]
  simp only [State.calNoted, hc, hr]

theorem calMeasured_noGain (hc : s.adc.cap = none) (hr : s.adc.cal = some r) (hb : r.bgDone = true) (ha : r.applied = some v)
    (hm : pairGet s.adc.m0 (r.channel, r.gain) = some m0) (hg : calGain v r.gain (rhe sum 4096) m0 = none) :
    calMeasured sum false s = calEnd 5 (s.calNoted sum) := by
  simp only [calMeasured, hc, hr, hb, ha, hm, hg, Bool.not_true, Bool.false_eq_true, if_false]
  simp only [State.calNoted, hc, hr]

/-- CAL_FULL takes a gain within 3/4 to 5/4 as the pair's pending gain. -/
theorem calMeasured_gain (hc : s.adc.cap = none) (hr : s.adc.cal = some r) (hb : r.bgDone = true) (ha : r.applied = some v)
    (hm : pairGet s.adc.m0 (r.channel, r.gain) = some m0) (hg : calGain v r.gain (rhe sum 4096) m0 = some g) :
    calMeasured sum false s =
      if g < 3145728 ∨ 5242880 < g then calEnd 5 (s.calNoted sum)
      else calEnd 0 { s.calNoted sum with adc := { (s.calNoted sum).adc with
        pending := pairPut s.adc.pending (r.channel, r.gain) (m0, g) } } := by
  simp only [calMeasured, hc, hr, hb, ha, hm, hg, Bool.or_eq_true, decide_eq_true_eq, Bool.not_true, Bool.false_eq_true, if_false]
  simp only [State.calNoted, hc, hr]

theorem calGain_of_lt {m1 : Int} (h : m0 < m1) (v : Int) (gain : Nat) : calGain v gain m1 m0 =
    some (rhe (v * (2 ^ gain * 8192 * 16 * 2 ^ 22 : Nat)) (1000000 * (m1 - m0).natAbs)) := by
  have hz : m1 - m0 ≠ 0 := by omega
  have hs : ¬ m1 - m0 < 0 := by omega
  simp only [calGain, gainOf, if_neg hz, if_neg hs, mul_one]

/-- However a measurement ends, its calibration is over, and it changes none but the mean, M0 and the pending pairs. -/
theorem calMeasured_ends (hc : s.adc.cap = none) (hr : s.adc.cal = some r) (hb : r.bgDone = true) (sum : Int) (ovr : Bool) :
    ∃ code zeros pairs, calMeasured sum ovr s =
      calEnd code { s with adc := { s.adc with calMean := rhe sum 4096, m0 := zeros, pending := pairs } } := by
  cases ovr with
  | true => exact ⟨_, _, _, calMeasured_ovr hc hr hb⟩
  | false =>
    cases ha : r.applied with
    | none =>
      rw [calMeasured_zero hc hr hb ha]
      split <;> exact ⟨_, _, _, rfl⟩
    | some v =>
      cases hm : pairGet s.adc.m0 (r.channel, r.gain) with
      | none => exact ⟨_, _, _, calMeasured_noZero hc hr hb ha hm⟩
      | some m0 =>
        cases hg : calGain v r.gain (rhe sum 4096) m0 with
        | none => exact ⟨_, _, _, calMeasured_noGain hc hr hb ha hm hg⟩
        | some g =>
          rw [calMeasured_gain hc hr hb ha hm hg]
          split <;> exact ⟨_, _, _, rfl⟩

end

/-! ### The calibration commands (R310, R313, R314) -/

section
variable {s : State} {c : MbxCmd} {rest : List MbxCmd}

/-- Arguments of which each may have every bit set or is 0. -/
theorem argsOk_of_full {masks : List Nat} (h : ∀ i, i < 8 → masks.getD i 0 = allBits ∨ c.arg i = 0) :
    argsOk masks c.args = true := by
  simp only [argsOk, List.all_eq_true, List.mem_range, beq_iff_eq]
  intro i hi
  obtain hm | h0 := h i hi
  · rw [hm, and_allBits]
  · rw [show c.args.getD i 0 = 0 from h0]
    exact Nat.zero_and _

theorem argsOk_replicate {n : Nat} (h : c.zeroFrom n) : argsOk (List.replicate n allBits) c.args = true := by
  refine argsOk_of_full fun i hi => ?_
  obtain hn | hn := Nat.lt_or_ge i n
  · exact .inl (by rw [List.getD_eq_getElem _ _ (by simpa using hn), List.getElem_replicate])
  · exact .inr (h i hn hi)

theorem argsOk_calCommit (h : ∀ j, 1 ≤ j → j < 7 → c.arg j = 0) :
    argsOk [allBits, 0, 0, 0, 0, 0, 0, allBits] c.args = true := by
  refine argsOk_of_full fun i hi => ?_
  obtain rfl | h1 := Nat.eq_zero_or_pos i
  · exact .inl rfl
  · obtain rfl | h7 := Nat.eq_or_lt_of_le (Nat.le_of_lt_succ hi)
    · exact .inl rfl
    · exact .inr (h i h1 h7)

/-- A calibration command whose arguments are good runs on the state that has taken it. -/
theorem next_calCommand {code : Nat} {masks : List Nat} (h : s.mbxFront c rest) (hc : c.cmd = code) (hf : s.sys.fail = 0)
    (ha : argsOk masks c.args = true) (f : List Word → State → State) :
    (Host.Outcome.next (inService s (mbxExec (isCmd code) false (calCommand masks f))) : Host.Outcome State Fault Refusal) =
      .next (f c.args (s.mbxTaken c rest)) := by
  rw [next_mbx h hc (.inl hf), calCommand, checked, if_pos ha]

theorem exec_calZero (h : s.mbxFront c rest) (hc : c.cmd = 0x10) (hf : s.sys.fail = 0) (hz : c.zeroFrom 1) :
    exec .calZero s = .next (calZero c.args (s.mbxTaken c rest)) := next_calCommand h hc hf (argsOk_replicate hz) _

/-- The command completes on the spot, with its code in ADC_CAL_STATUS too. -/
theorem calComplete_taken (h : s.mbxFront c rest) (code : Nat) : calComplete code (s.mbxTaken c rest) =
    { s.mbxAnswered c rest code with adc := { s.adc with calStatus := code } } := by
  obtain ⟨-, -, -, hr, -⟩ := h
  unfold calComplete mbxComplete State.mbxTaken State.mbxAnswered
  simp only [← hr]

theorem calBegin_eq (p : Nat × Nat) (applied : Option Int) (s : State) : calBegin p applied s =
    { s with adc := { s.adc with cal := some { channel := p.1, gain := p.2, applied := applied } },
             tide := { s.tide with xrefOn := true, xrefReady := s.tide.xrefOn && s.tide.xrefReady } } :=
  needXref_eq _

theorem calArgs_of_ok {a : Word} (hm : a.toNat &&& 0x73 = a.toNat) (hg : fld a.toNat 4 3 ≤ 4) :
    calArgs a = some (a.toNat % 4, fld a.toNat 4 3) := by
  simp only [calArgs, hm, hg, decide_true, Bool.and_self, if_true]
  rfl

theorem calArgs_of_gain {a : Word} (hg : 4 < fld a.toNat 4 3) : calArgs a = none := by
  simp [calArgs, Nat.not_le.mpr hg]

theorem calZero_of_ok (hm : (c.arg 0).toNat &&& 0x73 = (c.arg 0).toNat) (hg : fld (c.arg 0).toNat 4 3 ≤ 4) (s : State) :
    calZero c.args s = calBegin ((c.arg 0).toNat % 4, fld (c.arg 0).toNat 4 3) none s := by
  have ha : calArgs (c.args.getD 0 0) = some ((c.arg 0).toNat % 4, fld (c.arg 0).toNat 4 3) := calArgs_of_ok hm hg
  simp only [calZero, ha]

theorem calZero_of_gain (hg : 4 < fld (c.arg 0).toNat 4 3) (s : State) : calZero c.args s = calComplete 1 s := by
  have ha : calArgs (c.args.getD 0 0) = none := calArgs_of_gain hg
  simp only [calZero, ha]

theorem toSigned_toNat (v : Word) : toSigned v.toNat 32 = v.toInt := by
  have hv := v.isLt
  rw [toSigned, Nat.mod_eq_of_lt hv, BitVec.toInt_eq_toNat_cond]
  split_ifs <;> omega

/-- CAL_FULL tries its refusals in the order of log 23 and otherwise holds the Aux ADC (R311, R314). -/
theorem calFull_eq (hm : (c.arg 0).toNat &&& 0x73 = (c.arg 0).toNat) (hg : fld (c.arg 0).toNat 4 3 ≤ 4) (s : State)
    (rest : List MbxCmd) : let q := ((c.arg 0).toNat % 4, fld (c.arg 0).toNat 4 3)
    calFull c.args (s.mbxTaken c rest) =
      if pairGet s.adc.m0 q = none then calComplete 2 (s.mbxTaken c rest)
      else if ((c.arg 1).toInt * (2 ^ q.2 * 8192 : Nat)).natAbs < 4096 * 1000000 then calComplete 4 (s.mbxTaken c rest)
      else calBegin q (some (c.arg 1).toInt) (s.mbxTaken c rest) := by
  have ha : calArgs (c.args.getD 0 0) = some ((c.arg 0).toNat % 4, fld (c.arg 0).toNat 4 3) := calArgs_of_ok hm hg
  have hv : toSigned (c.args.getD 1 0).toNat 32 = (c.arg 1).toInt := toSigned_toNat _
  simp only [calFull, ha, hv, calSmall, gainOf, Option.isNone_iff_eq_none, decide_eq_true_eq]
  rfl

theorem calCommit_eq (c : MbxCmd) (s : State) (rest : List MbxCmd) : calCommit c.args (s.mbxTaken c rest) =
    if c.arg 0 ≠ 0 ∨ c.arg 7 ≠ 0xFFFFFFFF then calComplete 8 (s.mbxTaken c rest)
    else if s.adc.pending = [] then calComplete 6 (s.mbxTaken c rest)
    else requestCommit { record := 0, cause := .cal } (s.mbxTaken c rest) := by
  simp only [calCommit, Bool.or_eq_true, decide_eq_true_eq, List.isEmpty_iff]
  rfl

end

/-- Settles O40: a check and a measurement end as their equations say, a block is its lines in the Harbour, and a calibration
command runs on the state that has taken it. -/
theorem auxAdcCapturesAndCalibrates : Obligations.AuxAdcCapturesAndCalibrates := by
  refine ⟨fun s sum hl hx => ⟨fun c w h hb => ?_, fun r hc hr hb hn => ?_⟩, fun s c w hl _ h => ⟨fun hb hr ht => ?_, fun hr => ?_,
    fun i d r rs clk first codes hrun hd hfold hr hfull hmore hsp hwf ha hin => ?_⟩,
    ⟨convert_code, fun q u k rs x hk => adcClock_discard hk u rs x, fun d r x hs => ?_, fun d r v hm hs hh hc hp => ?_⟩,
    fun s r sum ovr hl hc hr hb => ?_, fun s c rest h hf => ⟨fun hc hz hm hg => ?_, fun hc hz hg => ?_, fun hc hz hm hg => ?_,
      fun hc hz => ?_⟩⟩
  · have hx : exec (.adcBandgapCheck sum) s = .next _ := (next_inService hl _).trans (congrArg _ (bandgapCheck_capture hx h hb sum))
    obtain ⟨hcap, hn⟩ := adcCapture?_some h
    refine ⟨fun hgood => ?_, fun hbad => ⟨_, hx, ?_⟩⟩
    · rw [hx, if_pos hgood]
      simp only [modAdcCap, State.bandgapNoted, hcap, Option.map_some]
    · rw [if_neg (by omega), startPartial_adc (s := bandgapFails (s.bandgapNoted (rhe sum 64))) hn]
      exact ⟨rfl, getD_modAt_satAdd _ 5 15⟩
  · have hx : exec (.adcBandgapCheck sum) s = .next _ := (next_inService hl _).trans (congrArg _ (bandgapCheck_cal hx hc hr hb hn sum))
    refine ⟨fun hgood => ?_, fun hbad => ⟨_, hx, ?_⟩⟩
    · rw [hx, if_pos hgood]
      rfl
    · rw [if_neg (by omega), adc_calEnd]
      rfl
  · exact (next_inService hl sequencerStart).trans (congrArg _ (sequencerStart_ready h hb hr ht))
  · obtain ⟨-, hn⟩ := adcCapture?_some h
    exact ⟨_, (next_inService hl adcOverrun).trans (congrArg _ ((adcOverrun_running h hr).trans (startPartial_adc hn))), rfl⟩
  · have hx : exec (.adcBlockComplete i first codes) s = .next (blockComplete i.val first codes s) := next_inService hl _
    refine ⟨_, hx, ?_⟩
    rw [blockComplete_full h hrun hd hfold hr hfull hmore hsp hin, watches_blockStored, harbour_blockStored, adc_blockStored, blockAddr]
    obtain ⟨hnum, htick⟩ := rdLE_linesOf_header hwf ha (s.adcSeq w) i.val d (c.blockBase + r.done) first r
    exact ⟨rfl, hnum, htick, fun k x => rdLE_linesOf_word hwf ha (s.adcSeq w) i.val d (c.blockBase + r.done) first,
      sameOutside_linesOf hwf ha (s.adcSeq w) i.val d (c.blockBase + r.done) first r, rfl⟩
  · rw [chainSample_first hs]
    exact ⟨rfl, rfl, rfl, rfl⟩
  · rw [chainSample_steady hm hs hh hc hp, clampI_fst (by decide)]
  · have hx : exec (.calMeasurementDone sum ovr) s = .next (calMeasured sum ovr s) := next_inService hl _
    obtain ⟨code, zeros, pairs, he⟩ := calMeasured_ends hc hr hb sum ovr
    refine ⟨_, hx, ?_, ?_, ?_, ?_, ?_, fun ho => ?_, fun ho hap hbig => ?_, fun ho hap hsmall => ?_, fun v m0 ho hap hm0 hlt => ?_⟩
    · rw [he, adc_calEnd]
    · rw [he, adc_calEnd]
    · rw [he, adc_calEnd]
    · rw [he, watches_calEnd]
    · rw [he, strand_calEnd]
    · rw [ho, calMeasured_ovr hc hr hb, adc_calEnd]
      exact ⟨rfl, rfl, rfl⟩
    · rw [ho, calMeasured_zero hc hr hb hap, if_pos hbig, adc_calEnd]
      exact ⟨rfl, rfl⟩
    · rw [ho, calMeasured_zero hc hr hb hap, if_neg (Nat.not_lt.mpr hsmall), adc_calEnd]
      exact ⟨rfl, pairGet_pairPut_self _ _ _, fun q hq => pairGet_pairPut_ne hq _ _⟩
    · rw [ho, calMeasured_gain hc hr hb hap hm0 (calGain_of_lt hlt v r.gain)]
      refine ⟨fun hin => ?_, fun hout => ?_⟩
      · rw [if_neg (by omega), adc_calEnd]
        exact ⟨rfl, pairGet_pairPut_self _ _ _⟩
      · rw [if_pos hout, adc_calEnd]
        exact ⟨rfl, rfl⟩
  · exact ⟨_, exec_calZero h hc hf hz, (calZero_of_ok hm hg _).trans (calBegin_eq _ _ _)⟩
  · rw [exec_calZero h hc hf hz, calZero_of_gain hg, calComplete_taken h]
  · have hx : exec .calFull s = .next _ :=
      (next_calCommand h hc hf (argsOk_replicate hz) calFull).trans (congrArg _ (calFull_eq hm hg s rest))
    refine ⟨fun hz0 => ?_, fun hz0 hv => ?_, fun hz0 hv => ⟨_, hx, ?_⟩⟩
    · rw [hx, if_pos hz0, calComplete_taken h]
    · rw [hx, if_neg hz0, if_pos hv, calComplete_taken h]
    · rw [if_neg hz0, if_neg (Nat.not_lt.mpr hv), calBegin_eq]
      exact ⟨rfl, rfl, rfl⟩
  · have hx : exec .calCommit s = .next _ :=
      (next_calCommand h hc hf (argsOk_calCommit hz) calCommit).trans (congrArg _ (calCommit_eq c s rest))
    refine ⟨fun hkey => ?_, fun h0 h7 hp => ?_, fun h0 h7 hp => ?_⟩
    · rw [hx, if_pos hkey, calComplete_taken h]
    · rw [hx, if_neg (by simp [h0, h7]), if_pos hp, calComplete_taken h]
    · rw [hx, if_neg (by simp [h0, h7]), if_neg hp]
      rfl

end Sys2Proof.Machine
end

