-- ==== Sys2Proof/Proofs/SpectralBands.lean ====
section
/-! PROOF. Proofs/SpectralBands.lean: the lines that the spectral front makes of a block of codes, and what their bytes read as in the
Harbour (R334 to R336). -/
namespace Sys2Proof.Machine
open Sys2Proof

/-! ### Fields of read bytes (R8) -/

/-- A field of bytes read from a memory is that of the memory. -/
theorem leAt_rdBytes (m : List Host.Cell) (a : Nat) {o n k : Nat} (h : o + n ≤ k) : leAt (rdBytes m a k) o n = rdLE m (a + o) n := by
  rw [leAt, rdLE]
  congr 1
  refine List.ext_getElem? fun i => ?_
  by_cases hi : i < n
  · rw [List.getElem?_take_of_lt hi, List.getElem?_drop, getElem?_rdBytes _ _ (by omega), getElem?_rdBytes _ _ hi, Nat.add_assoc]
  · rw [List.getElem?_eq_none, List.getElem?_eq_none]
    · rw [length_rdBytes]
      omega
    · rw [List.length_take]
      omega

/-- A byte of line i of those written from an aligned offset. -/
theorem rdByte_putLines {m : Lines} (hm : m.wf = true) {a : Nat} (ha : a % 64 = 0) {ls : List (List Byte × BitVec 16)} {i : Nat}
    {e : List Byte × BitVec 16} (hl : ls[i]? = some e) {o : Nat} (ho : o < 64) :
    rdByte (m.putLines (a / 64) ls).data (a + 64 * i + o) = e.1.getD o 0 := by
  obtain ⟨hi, rfl⟩ := List.getElem?_eq_some_iff.mp hl
  obtain ⟨-, hbytes⟩ := putLines_getElem ls hm (a / 64) hi
  rw [← hbytes o ho]
  congr 1
  omega

/-! ### The bands of a segment (R334, R335) -/

section
variable (c : SpecConf)

theorem length_bandEnergies (xs : List Int) : (bandEnergies c xs).length = min c.bands c.table.length := by
  simp [bandEnergies]

theorem logBand_fst (en : Nat) : (logBand c en).1 = c.code en := clampI_fst (by decide) _

/-- The bytes of a band line: the codes of its bands, and zeros above them (R336). -/
theorem getD_bandLine (es : List Nat) {b : Nat} (hb : b < 64) :
    (bandLine c es).1.1.getD b 0 = if b < es.length then BitVec.ofInt 8 (c.code (es.getD b 0)) else 0 := by
  refine (getD_padTo _ hb).trans ?_
  rw [List.map_map, List.getD_eq_getElem?_getD, List.getElem?_map]
  split
  · next h =>
    rw [List.getElem?_eq_getElem h, List.getD_eq_getElem _ _ h, ← logBand_fst]
    rfl
  · next h =>
    rw [List.getElem?_eq_none (Nat.le_of_not_lt h)]
    rfl

/-- Energies of the bands of segment g of a block, whose bytes are b with its header line (R334). -/
def SpecConf.segment (b : List Byte) (g : Nat) : List Nat :=
  bandEnergies c ((List.range c.n).map fun m => toSigned (leAt b (64 + 2 * (g * c.h + m)) 2) 14)

/-- The energies of the output lines of a block of len codes: those of its segments, or their mean under AVG (R334). -/
def SpecConf.energies (len : Nat) (b : List Byte) : List (List Nat) :=
  let segs := (List.range (c.segs len)).map (c.segment b)
  if c.avg = 1 then [meanBands segs] else segs

variable {c}

theorem SpecConf.length_energies (len : Nat) (b : List Byte) : (c.energies len b).length = c.lines len := by
  rw [SpecConf.energies, SpecConf.lines]
  split <;> simp

/-- The mean over segments that have the same bands. -/
theorem getD_meanBands {f : Nat → List Nat} {s n : Nat} (hf : ∀ g, (f g).length = n) (hs : 0 < s) {b : Nat} (hb : b < n) :
    (meanBands ((List.range s).map f)).getD b 0 =
      (rhe (((List.range s).map fun g => (f g).getD b 0).sum : Nat) s).toNat := by
  have hhead : ((List.range s).map f).headD [] = f 0 := by
    obtain ⟨s, rfl⟩ := Nat.exists_eq_succ_of_ne_zero hs.ne'
    rw [List.range_succ_eq_map]
    rfl
  rw [meanBands, hhead, hf, List.getD_eq_getElem?_getD, List.getElem?_map, List.getElem?_range hb, Option.map_some, List.map_map,
    ← List.sum_eq_foldl, List.length_map, List.length_range]
  rfl

theorem length_meanBands {f : Nat → List Nat} {s n : Nat} (hf : ∀ g, (f g).length = n) (hs : 0 < s) :
    (meanBands ((List.range s).map f)).length = n := by
  obtain ⟨s, rfl⟩ := Nat.exists_eq_succ_of_ne_zero hs.ne'
  rw [List.range_succ_eq_map]
  simp [meanBands, hf]

/-- Each output line has the energies of every band. -/
theorem SpecConf.getElem?_energies {len l : Nat} (hl : l < c.lines len) (hs : 0 < c.segs len) (b : List Byte) :
    ∃ es, (c.energies len b)[l]? = some es ∧ es.length = min c.bands c.table.length ∧ ∀ i, i < min c.bands c.table.length →
      es.getD i 0 = if c.avg = 1 then
          (rhe (((List.range (c.segs len)).map fun g => (c.segment b g).getD i 0).sum : Nat) (c.segs len)).toNat
        else (c.segment b l).getD i 0 := by
  have hlen (g : Nat) : (c.segment b g).length = min c.bands c.table.length := length_bandEnergies c _
  rw [SpecConf.lines] at hl
  rw [SpecConf.energies]
  split_ifs at hl ⊢ with ha
  · obtain rfl : l = 0 := by omega
    exact ⟨_, rfl, length_meanBands hlen hs, fun i hi => getD_meanBands hlen hs hi⟩
  · exact ⟨_, by rw [List.getElem?_map, List.getElem?_range hl]; rfl, hlen l, fun i _ => rfl⟩

/-- The segments of a block that lie in it read the codes of the block in the memory. -/
theorem SpecConf.segment_rdBytes (m : List Host.Cell) (a : Nat) {len g : Nat} (h : g * c.h + c.n ≤ len) :
    c.segment (rdBytes m a (64 + 2 * len)) g = bandEnergies c ((List.range c.n).map fun i =>
      toSigned (rdLE m (a + 64 + 2 * (g * c.h + i)) 2) 14) := by
  rw [SpecConf.segment]
  refine congrArg (bandEnergies c) (List.map_congr_left fun i hi => ?_)
  rw [List.mem_range] at hi
  rw [leAt_rdBytes m a (by omega), Nat.add_assoc a]

/-! ### The lines of an output (R336) -/

/-- The ten bytes of a header line before its zeros. -/
theorem specHeader_eq (lines : Nat) {hdr : List Byte} (hl : 12 ≤ hdr.length) : ∃ bs : List Byte, bs.length = 10 ∧
    specHeader c lines hdr = padTo bs 64 ∧ (∀ o, o < 4 → bs.getD o 0 = hdr.getD o 0) ∧ leAt bs 4 2 = lines % 2 ^ 16 ∧
    leAt bs 6 1 = c.bands % 2 ^ 8 ∧ leAt bs 7 1 = (if byteAt hdr 7 % 4 = 0 then 0 else 1) ∧ leAt bs 8 2 = leAt hdr 10 2 := by
  have h4 : (slice hdr 0 4).length = 4 := by simp [slice]; omega
  have h2 : (slice hdr 10 2).length = 2 := by simp [slice]; omega
  have htail : leAt (slice hdr 10 2) 0 2 = leAt hdr 10 2 := by simp [leAt, slice, List.take_take]
  refine ⟨_, ?_, rfl, fun o ho => ?_, ?_, ?_, ?_, ?_⟩
  · simp only [List.length_append, length_leBytes, h4, h2]
  · simp only [List.append_assoc]
    rw [List.getD_append _ _ _ _ (by omega), getD_slice _ _ ho, Nat.zero_add]
  · simp [List.append_assoc, leAt_append_right, leAt_leBytes_append, h4]
  · simp [List.append_assoc, leAt_append_right, leAt_leBytes_append, length_leBytes, h4]
  · simp [List.append_assoc, leAt_append_right, leAt_leBytes_append, length_leBytes, h4]
    split <;> decide
  · simp [List.append_assoc, leAt_append_right, length_leBytes, h4, htail]

variable (c) in
/-- The lines that the output of a block of len codes takes in the Harbour: its header and its bands (R336). -/
def SpecConf.outLines (len : Nat) (b : List Byte) : List (List Byte × BitVec 16) :=
  (specHeader c (c.lines len) b, 0) :: ((c.energies len b).map (bandLine c)).map (·.1)

theorem SpecConf.length_outLines (len : Nat) (b : List Byte) : (c.outLines len b).length = 1 + c.lines len := by
  rw [SpecConf.outLines, List.length_cons, List.length_map, List.length_map, SpecConf.length_energies, Nat.add_comm]

end

section
variable {m : Lines} {c : SpecConf} {dst len : Nat}

theorem sameOutside_outLines (hm : m.wf = true) (ha : dst % 64 = 0) (b : List Byte) :
    sameOutside m (m.putLines (dst / 64) (c.outLines len b)) dst (dst + 64 + 64 * c.lines len) := by
  have hout := sameOutside_putLines (c.outLines len b) hm (dst / 64)
  rwa [SpecConf.length_outLines, Nat.mul_div_cancel' (Nat.dvd_of_mod_eq_zero ha), Nat.mul_add, ← Nat.add_assoc] at hout

/-- The header line of an output in the Harbour, made of the block that stands at src. -/
theorem header_outLines (hm : m.wf = true) (ha : dst % 64 = 0) (hb : c.bands ≤ 64) (src : Nat) :
    let data := (m.putLines (dst / 64) (c.outLines len (rdBytes m.data src (64 + 2 * len)))).data
    (∀ b, b < 4 → rdByte data (dst + b) = rdByte m.data (src + b)) ∧ rdLE data (dst + 4) 2 = c.lines len % 2 ^ 16 ∧
    (rdByte data (dst + 6)).toNat = c.bands ∧
    (rdByte data (dst + 7)).toNat = (if (rdByte m.data (src + 7)).toNat % 4 = 0 then 0 else 1) ∧
    rdLE data (dst + 8) 2 = rdLE m.data (src + 10) 2 := by
  obtain ⟨bs, hlen, hhdr, hnum, hlines, hbands, hflags, hovr⟩ :=
    specHeader_eq (c := c) (c.lines len) (hdr := rdBytes m.data src (64 + 2 * len)) (by rw [length_rdBytes]; omega)
  have hl : (c.outLines len (rdBytes m.data src (64 + 2 * len)))[0]? = some (padTo bs 64, 0) := congrArg (fun b => some (b, 0)) hhdr
  have hfield {o n : Nat} (h : o + n ≤ 10) :=
    rdLE_putLines hm ha hl (o := o) (n := n) (h.trans (by decide)) (h.trans hlen.ge)
  refine ⟨fun b hb => ?_, (hfield (by decide)).trans hlines, ?_, ?_, (hfield (by decide)).trans (hovr.trans ?_)⟩
  · refine (rdByte_putLines hm ha hl (by omega)).trans ((getD_padTo bs (by omega)).trans ((hnum b hb).trans ?_))
    exact getD_rdBytes _ _ _ _ (by omega)
  · exact (hfield (o := 6) (n := 1) (by decide)).trans (hbands.trans (Nat.mod_eq_of_lt (by omega)))
  · refine (hfield (o := 7) (n := 1) (by decide)).trans (hflags.trans ?_)
    rw [byteAt, getD_rdBytes _ _ _ _ (by omega)]
  · exact leAt_rdBytes _ _ (by omega)

/-- Byte b of band line l in the Harbour. -/
theorem rdByte_outLines (hm : m.wf = true) (ha : dst % 64 = 0) (hs : 0 < c.segs len) (x : List Byte) {l b : Nat}
    (hl : l < c.lines len) (hb : b < 64) :
    rdByte (m.putLines (dst / 64) (c.outLines len x)).data (dst + 64 + 64 * l + b) =
      if b < min c.bands c.table.length then
        BitVec.ofInt 8 (c.code (if c.avg = 1 then
            (rhe (((List.range (c.segs len)).map fun g => (c.segment x g).getD b 0).sum : Nat) (c.segs len)).toNat
          else (c.segment x l).getD b 0))
      else 0 := by
  obtain ⟨es, hes, hlen, hband⟩ := SpecConf.getElem?_energies hl hs x
  have hline : (c.outLines len x)[l + 1]? = some (bandLine c es).1 := by simp [SpecConf.outLines, hes]
  rw [show dst + 64 + 64 * l + b = dst + 64 * (l + 1) + b by omega, rdByte_putLines hm ha hline hb, getD_bandLine c es hb, hlen]
  split
  · next h => rw [hband b h]
  · rfl

/-- The same of the block that stands at src, whose segments lie in it: its codes are those of the memory. -/
theorem rdByte_outLines_block (hm : m.wf = true) (ha : dst % 64 = 0) (hs : 0 < c.segs len)
    (hin : ∀ g, g < c.segs len → g * c.h + c.n ≤ len) (src : Nat) {l b : Nat} (hl : l < c.lines len) (hb : b < 64) :
    let segment := fun (g : Nat) => bandEnergies c ((List.range c.n).map fun i =>
      toSigned (rdLE m.data (src + 64 + 2 * (g * c.h + i)) 2) 14)
    rdByte (m.putLines (dst / 64) (c.outLines len (rdBytes m.data src (64 + 2 * len)))).data (dst + 64 + 64 * l + b) =
      if b < min c.bands c.table.length then
        BitVec.ofInt 8 (c.code (if c.avg = 1 then
            (rhe (((List.range (c.segs len)).map fun g => (segment g).getD b 0).sum : Nat) (c.segs len)).toNat
          else (segment l).getD b 0))
      else 0 := by
  intro segment
  have hseg (g : Nat) (hg : g < c.segs len) : c.segment (rdBytes m.data src (64 + 2 * len)) g = segment g :=
    SpecConf.segment_rdBytes _ _ (hin g hg)
  have hsegs : ((List.range (c.segs len)).map fun g => (c.segment (rdBytes m.data src (64 + 2 * len)) g).getD b 0) =
      (List.range (c.segs len)).map fun g => (segment g).getD b 0 :=
    List.map_congr_left fun g hg => by rw [hseg g (List.mem_range.mp hg)]
  rw [rdByte_outLines hm ha hs _ hl hb, hsegs]
  split_ifs with hband havg
  · rfl
  · rw [hseg l (by simpa only [SpecConf.lines, havg, if_false] using hl)]
  · rfl

end

end Sys2Proof.Machine
end

