-- ==== Sys2Proof/Proofs/SpectralFront.lean ====
section
/-! PROOF. Proofs/SpectralFront.lean: SPECTRAL_FRONT serves the block at the front of the queue (R320, R333 to R337). -/
namespace Sys2Proof.Machine
open Sys2Proof

section
variable {s : State} {n : Nat} {w : Watch} {j : Job} {rest : List StemReq}

/-! ### The queue and the reads of the engine (R320, R322) -/

/-- A request of the spectral front at the front of the queue is no group request. -/
theorem takeGroups_of_spectral {i b : Nat} (hq : s.stem.queue = { watch := n, kind := .spectral i b } :: rest) (k : Nat) :
    takeGroups k s = s := by
  cases k with
  | zero => rfl
  | succ k => simp only [takeGroups, hq]

/-- The front request is served where no group request stands before it and its job is not being stopped. -/
theorem withFront_of_serves {r : StemReq} (h : s.stemServes r rest w) (hg : takeGroups s.stem.queue.length s = s)
    (f : StemReq → Watch → State → State) : withFront s f = f r w s := by
  obtain ⟨-, hruns, hq, hw, -, hstop, -⟩ := h
  have hnot : s.stopsJob r.watch = false := by rw [State.stopsJob, hstop]
  simp only [withFront, hruns, hg]
  simp only [hq, hw, hnot, if_true, Bool.false_and, Bool.false_eq_true, if_false]

theorem poisonIn_of_nil {m : Lines} (h : m.poison = []) (a k : Nat) : poisonIn m a k = false := by
  have hp (l : Nat) : m.poisoned l = false := by rw [Lines.poisoned, h]; rfl
  simp [poisonIn, hp]

/-- Reads of a Harbour without single-bit errors power its banks and fill the line buffers. -/
theorem stemReads_frame (h : s.harbour.upset = []) (rs : List (Nat × Nat)) :
    ∃ d m, s.stemReads rs = { s with tide := d, stem := { s.stem with lineMem := m } } := by
  have hvisits : ∃ d, rs.foldl (fun s r => s.visit r.1 r.2) s = { s with tide := d } := by
    induction rs generalizing s with
    | nil => exact ⟨_, rfl⟩
    | cons r rs ih =>
      obtain ⟨d, hd⟩ := ih (s := s.power r.1 r.2) h
      exact ⟨d, by rw [List.foldl_cons, visit_of_clean h, hd]; rfl⟩
  obtain ⟨d, hd⟩ := hvisits
  exact ⟨d, _, by rw [State.stemReads, hd]⟩

/-- The engine works for a job: its queue and its owner, the line buffers holding what they may. -/
theorem useStem_popStem {r : StemReq} (hq : s.stem.queue = r :: rest) (hu : s.stem.lineUpset = 0) (w : Watch) :
    ∃ m, useStem w (popStem s) =
      { s with stem := { s.stem with queue := rest, owner := some w.entry.owner, lineMem := m } } := by
  have hc : correctStem (popStem s) = popStem s := if_pos hu
  exact ⟨_, by rw [useStem, hc, popStem, hq]; rfl⟩

/-! ### Changes of the job -/

theorem watch?_modJob_same (h : s.watch? n = some w) (hj : w.job = some j) (f : Job → Job) :
    (s.modJob n f).watch? n = some { w with job := some (f j) } := by
  rw [State.modJob, watch?_modWatch_same h, hj]
  rfl

theorem onlyWatches_stemSat (n : Nat) (sat : Bool) (s : State) : OnlyWatches s (stemSat n sat s) := by
  unfold stemSat
  split <;> rfl

/-- SAT of the engine joins the flags of the job (R479). -/
theorem watch?_stemSat (h : s.watch? n = some w) (hj : w.job = some j) (sat : Bool) :
    ∃ fl, (stemSat n sat s).watch? n = some { w with job := some { j with flags := fl } } := by
  unfold stemSat
  split
  · exact ⟨_, watch?_modJob_same h hj _⟩
  · refine ⟨j.flags, h.trans ?_⟩
    rw [← hj]

/-- The inputs of a job with programs and without VIB_SUMMARY records are complete (R106, R337). -/
theorem inputsDone_of_programs (h : s.watch? n = some w) (hp : w.entry.progCount ≠ 0) (hv : w.vib = false) :
    inputsDone n s = s.modJob n (fun j => { j with inputsDone := true }) := by
  simp only [inputsDone, h, hv, hp, Bool.false_eq_true, if_false]

/-- An output of the job is done: with the last one its inputs are complete, once no chain of it captures (R337). -/
def spectralDone (n left : Nat) (s : State) : State :=
  let t := s.modJob n (fun j => { j with spectralLeft := left })
  if left = 0 && !t.adc.cap.any (fun c => c.watch == n) then inputsDone n t else t

theorem spectralDone_spec (h : s.watch? n = some w) (hj : w.job = some j) {left : Nat}
    (hlast : left ≠ 0 ∨ (w.entry.progCount ≠ 0 ∧ w.vib = false)) : OnlyWatches s (spectralDone n left s) ∧
      (spectralDone n left s).watch? n = some { w with job := some { j with
        spectralLeft := left,
        inputsDone := j.inputsDone || (left == 0 && !s.adc.cap.any (fun c => c.watch == n)) } } := by
  have hmod := watch?_modJob_same h hj (fun j => { j with spectralLeft := left })
  rw [spectralDone]
  split
  · next hdone =>
    simp only [Bool.and_eq_true, decide_eq_true_eq, adc_modJob] at hdone
    obtain ⟨hleft, hcap⟩ := hdone
    obtain ⟨hp, hv⟩ := hlast.resolve_left (not_not.mpr hleft)
    rw [inputsDone_of_programs hmod hp hv]
    refine ⟨rfl, (watch?_modJob_same hmod rfl _).trans ?_⟩
    simp [hleft, hcap]
  · next hmore =>
    refine ⟨rfl, hmod.trans ?_⟩
    have hf : (left == 0 && !s.adc.cap.any fun c => c.watch == n) = false := by simpa using hmore
    rw [hf, Bool.or_false]

/-! ### SPECTRAL_FRONT -/

variable {i k : Nat} {ch : ChainDesc} {c : SpecConf}

theorem spectralFront_eq (h : s.stemServes { watch := w.entry.num, kind := .spectral i k } rest w)
    (hch : (s.adcSeq w).chains[i]? = some ch) (hc : s.specConf? w.entry ch = some c) :
    spectralFront s = spectralRun w (s.adcSeq w) ch c k s := by
  have ⟨_, _, hq, _⟩ := h
  rw [spectralFront, withFront_of_serves h (takeGroups_of_spectral hq _)]
  simp only [hch, hc, Option.bind_some, Option.map_some]

/-- The lines of block k stand in the Harbour at its output, and the engine has read the block. -/
def State.spectralStored (w : Watch) (q : AdcSeq) (ch : ChainDesc) (c : SpecConf) (k : Nat) (s : State) : State :=
  let src := blockAddr w ch k
  ((useStem w (popStem s)).stemReads [(src, 64 + 2 * q.blockLen)]).putHbrLines
    ((w.entry.hbrBase + c.outOff + k * c.outStride) / 64)
    (c.outLines q.blockLen (rdBytes s.harbour.data src (64 + 2 * q.blockLen)))

theorem spectralRun_eq {q : AdcSeq} (hj : w.job = some j) (hp : s.harbour.poison = [])
    (hsrc : w.inWindow (blockAddr w ch k) (64 + 2 * q.blockLen) = true)
    (hdst : w.inWindow (w.entry.hbrBase + c.outOff + k * c.outStride) (64 + 64 * c.lines q.blockLen) = true) :
    ∃ sat, spectralRun w q ch c k s =
      spectralDone w.entry.num (j.spectralLeft - 1) (stemSat w.entry.num sat (s.spectralStored w q ch c k)) := by
  refine ⟨((c.energies q.blockLen (rdBytes s.harbour.data (blockAddr w ch k) (64 + 2 * q.blockLen))).map (bandLine c)).any (·.2), ?_⟩
  simp only [spectralRun, hsrc, hdst, poisonIn_of_nil hp, hj, Bool.not_true, Bool.or_false, Bool.false_eq_true, if_false]
  rfl

/-- What the engine leaves of the device when an output stands in the Harbour. -/
theorem spectralStored_frame (h : s.stemServes { watch := w.entry.num, kind := .spectral i k } rest w) (q : AdcSeq) (ch : ChainDesc)
    (c : SpecConf) : let x := s.spectralStored w q ch c k
    x.stem.queue = rest ∧ x.stem.owner = some w.entry.owner ∧ x.host = s.host ∧ x.strand = s.strand ∧ x.watches = s.watches ∧
    x.adc = s.adc ∧ x.harbour = s.harbour.putLines ((w.entry.hbrBase + c.outOff + k * c.outStride) / 64)
      (c.outLines q.blockLen (rdBytes s.harbour.data (blockAddr w ch k) (64 + 2 * q.blockLen))) := by
  obtain ⟨-, -, hq, -, -, -, -, -, hclean, hwords⟩ := h
  obtain ⟨m, hm⟩ := useStem_popStem hq hwords w
  obtain ⟨d, m', hd⟩ := stemReads_frame (s := useStem w (popStem s)) (by rw [hm]; exact hclean) [(blockAddr w ch k, 64 + 2 * q.blockLen)]
  rw [State.spectralStored, hd, hm]
  exact ⟨rfl, rfl, rfl, rfl, rfl, rfl, rfl⟩

/-- The block at the front is served: its output stands in the Harbour, and its job has one output less to make. -/
theorem exec_spectralFront (h : s.stemServes { watch := w.entry.num, kind := .spectral i k } rest w) (hj : w.job = some j)
    (hlast : 1 < j.spectralLeft ∨ (j.spectralLeft = 1 ∧ w.entry.progCount ≠ 0 ∧ w.vib = false))
    (hch : (s.adcSeq w).chains[i]? = some ch) (hc : s.specConf? w.entry ch = some c)
    (hsrc : w.inWindow (blockAddr w ch k) (64 + 2 * (s.adcSeq w).blockLen) = true)
    (hdst : w.inWindow (w.entry.hbrBase + c.outOff + k * c.outStride) (64 + 64 * c.lines (s.adcSeq w).blockLen) = true) :
    ∃ t, exec .spectralFront s = .next t ∧ t.stem.queue = rest ∧ t.stem.owner = some w.entry.owner ∧ t.host = s.host ∧
      t.strand = s.strand ∧ t.harbour = s.harbour.putLines ((w.entry.hbrBase + c.outOff + k * c.outStride) / 64)
        (c.outLines (s.adcSeq w).blockLen (rdBytes s.harbour.data (blockAddr w ch k) (64 + 2 * (s.adcSeq w).blockLen))) ∧ ∃ w' j',
      t.watch? w.entry.num = some w' ∧ w'.job = some j' ∧ j'.spectralLeft = j.spectralLeft - 1 ∧
      j'.inputsDone = (j.inputsDone || (j.spectralLeft == 1 && !s.adc.cap.any (fun c => c.watch == w.entry.num))) := by
  obtain ⟨hqueue, howner, hhost, hstrand, hwatches, hadc, hharbour⟩ := spectralStored_frame h (s.adcSeq w) ch c
  have hfront := spectralFront_eq h hch hc
  obtain ⟨hlive, -, -, hw, -, -, -, hpoison, -⟩ := h
  obtain ⟨sat, hrun⟩ := spectralRun_eq (q := s.adcSeq w) hj hpoison hsrc hdst
  generalize s.spectralStored w (s.adcSeq w) ch c k = x at hqueue howner hhost hstrand hwatches hadc hharbour hrun
  have hsat := onlyWatches_stemSat w.entry.num sat x
  obtain ⟨fl, hfl⟩ := watch?_stemSat ((watch?_of_watches hwatches _).trans hw) hj sat
  obtain ⟨honly, hwatch⟩ := spectralDone_spec hfl rfl (left := j.spectralLeft - 1)
    (hlast.imp (fun h => by omega) fun ⟨_, hp⟩ => hp)
  have hframe := hsat.trans honly
  have hone : (j.spectralLeft - 1 == 0) = (j.spectralLeft == 1) := by
    rw [Bool.eq_iff_iff, beq_iff_eq, beq_iff_eq]
    omega
  refine ⟨_, (next_inService hlive _).trans (congrArg _ (hfront.trans hrun)), (congrArg (·.stem.queue) hframe).trans hqueue,
    (congrArg (·.stem.owner) hframe).trans howner, (congrArg State.host hframe).trans hhost,
    (congrArg State.strand hframe).trans hstrand, (congrArg State.harbour hframe).trans hharbour, _, _, hwatch, rfl, rfl, ?_⟩
  rw [hone, (congrArg State.adc hsat).trans hadc]

end

/-- Settles O41: the request at the front is served at once, the lines of its output are read back byte by byte, and the segments of
its block are those of the codes in the Harbour. -/
theorem spectralFrontWritesItsBands : Obligations.SpectralFrontWritesItsBands := by
  unfold Obligations.SpectralFrontWritesItsBands
  intro s rest w j i k ch c h hj hlast hch hc hb len src dst lines segment hin hs ha hsrc hdst
  obtain ⟨t, ht, hqueue, howner, hhost, hstrand, hharbour, hjob⟩ := exec_spectralFront h hj hlast hch hc hsrc hdst
  obtain ⟨-, -, -, -, -, -, hwf, -⟩ := h
  obtain ⟨hnum, hlines, hbands, hflags, hovr⟩ := header_outLines hwf ha hb (len := len) src
  refine ⟨t, ht, hqueue, howner, ?_, hhost, hstrand, hjob, ?_⟩ <;> rw [hharbour]
  · exact sameOutside_outLines hwf ha _
  · exact ⟨hnum, hlines, hbands, hflags, hovr, fun l b hl hb => rdByte_outLines_block hwf ha hs hin src hl hb⟩

end Sys2Proof.Machine
end

