-- ==== Sys2Proof/Proofs/HeadRecords.lean ====
section
/-! PROOF. Proofs/HeadRecords.lean: where HEAD_REQUEST does not do what a statement asks of it: the LABEL record of a classification
meets a full backlog, and the LOST record formed there is logged (R347, R624, R645). -/
namespace Sys2Proof.Machine
open Sys2Proof

/-- A head descriptor of KIND 0 with EMIT: one feature at offset 0x80, one class with its weights at 0xC0 and its bias at 0x100, the
result area at 0x140 (R338). -/
def oneClass : List Byte :=
  [0, 1, 1, 1] ++ leBytes 1 2 ++ [0, 1] ++ leBytes 256 4 ++ leBytes 0x80 4 ++ leBytes 0xC0 4 ++ leBytes 0x100 4 ++ leBytes 0x140 4 ++
  leBytes 0 4 ++ leBytes 1 2 ++ leBytes 1 2 ++ [1] ++ zeros 91

/-- A watch whose LABEL records go out. -/
def labelling : Watch where
  entry := { num := 5, hbrSize := 0x1000, recordKinds := 1 }
  state := .running
  job := some {}

/-- A head request of the system controller for that watch, its descriptor at offset a. -/
def labelRequest (a : Nat) : StemReq := { watch := 5, kind := .head none a 0 }

/-- A device that serves two of them while the Outbox and the backlog are full, the backlog of records of that watch. -/
def overflowing : State where
  tide := { pllLocked := true }
  watches := [labelling]
  stem := { queue := [labelRequest 0, labelRequest 0x180] }
  harbour := { data := wrBytes [] 0 oneClass }
  host := { outbox := List.replicate 64 (zeros 32), backlog := List.replicate 512 { watch := some 5, bytes := zeros 32 } }

theorem stemServes_overflowing : overflowing.stemServes (labelRequest 0) [labelRequest 0x180] labelling :=
  ⟨rfl, by decide, rfl, rfl, rfl, rfl, by decide +kernel, rfl, rfl, rfl⟩

theorem headTaker_overflowing : overflowing.headTaker [labelRequest 0x180] 5 none 0 := by
  refine ⟨fun w hw j hj => ?_, 0x180, 0, List.mem_singleton.mpr rfl⟩
  cases List.mem_singleton.mp hw
  cases hj
  rfl

theorem rdBytes_overflowing : rdBytes overflowing.harbour.data 0 128 = oneClass := by decide +kernel

/-- The LABEL record finds no room: two entries of its watch merge into a LOST record, which the event log takes. -/
theorem exec_headRequest_overflowing : ∃ t, exec .headRequest overflowing = .next t ∧ t.strand.logQueue.length = 1 :=
  ⟨headRequest overflowing, next_inService (s := overflowing) rfl _, by decide +kernel⟩

/-- Refutes O42 in its clause of KIND 0, which has no premise on the Host port where it keeps the Strand store: with the backlog full
the LABEL record makes the device merge two entries into a LOST record, whose entry joins the queue of the event log. -/
theorem not_headRequestsClassifyAndDetect : ¬ Obligations.HeadRequestsClassifyAndDetect := by
  unfold Obligations.HeadRequestsClassifyAndDetect
  intro h
  obtain ⟨hclassify, -⟩ := h overflowing [labelRequest 0x180] labelling none 0 0 stemServes_overflowing headTaker_overflowing rfl
  rw [rdBytes_overflowing] at hclassify
  obtain ⟨t, ht, -, -, -, -, hstrand, -⟩ := hclassify (by decide) (by decide) rfl rfl (by decide) (by decide) (by decide) (by decide) rfl
  obtain ⟨u, hu, hlogged⟩ := exec_headRequest_overflowing
  cases ht.symm.trans hu
  rw [hstrand] at hlogged
  exact absurd hlogged (by decide)

end Sys2Proof.Machine
end
